-- ==== Sys2Proof/Word.lean ====
section
/-! DEFINITION. The machine words of the AZK-12: 32-bit words, bytes, and the sparse tables
that hold registers, bytes and records by number. -/

namespace Sys2Proof

/-- A 32-bit register or memory word (R5). -/
abbrev Word := BitVec 32

/-- One byte (R6). -/
abbrev Byte := BitVec 8

/-- A sparse table by number: pairs with strictly rising keys; a key not listed holds the table's
default, and no listed entry equals it (the operations keep that form). -/
abbrev Tab (α : Type) := List (Nat × α)

/-- The 32 lane values of one vector register, lane number to word, lanes not listed zero. -/
abbrev Lanes := Tab Word

end Sys2Proof
end

