-- ==== Sys2Proof/Syntax.lean ====
section
/-! DEFINITION. The abstract syntax of the Povan ISA and of the device's events: one constructor of
`Instr` per row of the opcode table. -/

namespace Sys2Proof

/-- The fields a predicated lane instruction begins with (R202): STALL, PN, PI. -/
structure Hd where
  stall : BitVec 4
  pn : BitVec 1
  pi : BitVec 3
deriving DecidableEq, Repr

/-- A 17-bit source field (R101): REG, LR, PAT, PRM. -/
structure Src where
  reg : BitVec 8
  lr : BitVec 1
  pat : BitVec 3
  prm : BitVec 5
deriving DecidableEq, Repr

/-- The source field of seventeen zero bits (an unused field, R205). -/
def Src.zero : Src := ⟨0, 0, 0, 0⟩

/-- The register page that a host write names (R437, R468, R510, R511). -/
inductive HostPage where
  /-- The context interface page of a context; the flag marks a hypervisor write. -/
  | ctxPage (ctx : Nat) (hyp : Bool)
  /-- The function page of function fn (0 physical, 1 to 12 virtual). -/
  | fnPage (fn : Nat)
  /-- The hypervisor block of the physical function. -/
  | hypBlock
  /-- The message filter table in the scheduling processor's memory (R441): entry number. -/
  | filter (entry : Nat)
  /-- The SR-IOV capability of the physical function (R509): the value is the number of VFs enabled. -/
  | sriov
  /-- The ATS capability of function fn (R515): the value's bit 0 enables it. -/
  | ats (fn : Nat)
  /-- BAR0 of function fn, the offset being that from its base (R509). -/
  | bar (fn : Nat)
deriving DecidableEq, Repr

/-- Where an uncorrectable error strikes (R234, R328, R430, R486). -/
inductive ErrorSite where
  /-- The 4-byte memory word with this physical address. -/
  | mem (pa : Nat)
  /-- The home copy of a mirrored word; both: the partner fails too (R466). -/
  | mirror (pa : Nat) (both : Bool)
  /-- A scalar register of a pick. -/
  | scalar (pick reg : Nat)
  /-- A lane word of a pick. -/
  | laneWord (pick reg lane : Nat)
  /-- A predicate word of a pick. -/
  | predWord (pick p : Nat)
  /-- A k-register of the running block of a pick, or of the block frozen by a trap. -/
  | kWord (pick : Nat) (frozen : Bool) (k : Nat)
  /-- A word of a team's tiles, by word number. -/
  | tile (team word : Nat)
  /-- A 4-byte word of a team's scratch, by word number. -/
  | scratch (team word : Nat)
  /-- The tag of the line with this physical address fails, or that of the compressed 256-byte block (R478). -/
  | tag (pa : Nat) (compressed : Bool)
deriving DecidableEq, Repr

/-- What a pre-emption request covers (R450). -/
inductive PrqScope where
  /-- One context, by its host. -/
  | context (ctx : Nat)
  /-- Every context with teams on these dies, by the hypervisor. -/
  | dies (mask : BitVec 12)
deriving DecidableEq, Repr

/-- A request that arrives through the remote window (R464). -/
inductive RemoteReq where
  /-- Read n bytes. -/
  | read (n : Nat)
  /-- Write these bytes. -/
  | write (bs : List Byte)
  /-- Add to the 8-byte word, as CO.SIGNAL does (R367). -/
  | add (v : BitVec 64)
deriving DecidableEq, Repr

/-- A read through a function, and the key set that the TLP's own bit names, if it is of the function's IDE stream (R513). -/
structure ReadTlp where
  fn : Nat
  set : Option Nat := none
deriving DecidableEq, Repr

/-- The value that a write brings, and the key set that the TLP's own bit names, as in `ReadTlp`. -/
structure WriteTlp where
  val : Nat
  set : Option Nat := none
deriving DecidableEq, Repr

/-- A throttling condition of a die that sets in or clears (R508). -/
structure Throttle where
  die : Nat
  clears : Bool := false
deriving DecidableEq, Repr

/-- What a grant of the power arbiter gives a compute die, and the demand that the die showed (R505): operating point, budget
in W. -/
structure PowerGrant where
  point : Nat
  budget : Nat
  demand : Nat := 0
deriving DecidableEq, Repr

/-- An SPDM request of a function (R502). -/
inductive SpdmReq where
  /-- Negotiation, with the selected extended asymmetric algorithm being the device's own or not. -/
  | negotiate (brainpool : Bool)
  /-- KEY_EXCHANGE: a secured session. -/
  | keyExchange
  /-- GET_MEASUREMENTS of one index. -/
  | measurement (index : Nat)
  /-- The tenant's dump key (R504). -/
  | dumpKey (key : BitVec 256)
  /-- GET_CERTIFICATE of a slot. -/
  | certificate (slot : Nat)
deriving DecidableEq, Repr

/-- A collective message from another rank (R484). -/
inductive CollMsg where
  /-- The operand bytes of rank r for collective operation seq of a group, with DT, OP, LEN and the root
  as one number (R363). -/
  | operand (group seq rank shape : Nat) (data : List Byte)
  /-- Bytes put at a virtual address of the context (CO.PUT, R366). -/
  | put (va : Nat) (data : List Byte)
  /-- The answer to a CO.GET of operation op: the bytes, or a refusal case of R484. -/
  | getReply (op : Nat) (data : List Byte)
  /-- A refusal of operation op with a case of R484. -/
  | refusal (op case rank : Nat)
  /-- CO.SIGNAL at a virtual address of the context (R367). -/
  | signal (va : Nat) (v : BitVec 64)
deriving DecidableEq, Repr

/-- One constructor per row of the opcode table: the S-stream instructions and engine commands, the lane
instructions, and the events of the device, those without operands last. An event that happens at a pick or a
team takes it from the focus of the state. Mnemonics of SLD.W.S.SYNC are sldWSSync
and so on. -/
inductive Instr where
  -- S-stream (R206, R212 to R214)
  /-- R236 f8 0x00. -/
  | sadd (d a b : BitVec 6)
  /-- R236 f8 0x01. -/
  | ssub (d a b : BitVec 6)
  /-- R236 f8 0x02. -/
  | smul (d a b : BitVec 6)
  /-- R236 f8 0x03. -/
  | smulh (d a b : BitVec 6)
  /-- R236 f8 0x04. -/
  | smulhu (d a b : BitVec 6)
  /-- R236 f8 0x08. -/
  | sand (d a b : BitVec 6)
  /-- R236 f8 0x09. -/
  | sor (d a b : BitVec 6)
  /-- R236 f8 0x0A. -/
  | sxor (d a b : BitVec 6)
  /-- R236 f8 0x0C. -/
  | sshl (d a b : BitVec 6)
  /-- R236 f8 0x0D. -/
  | sshr (d a b : BitVec 6)
  /-- R236 f8 0x0E. -/
  | ssra (d a b : BitVec 6)
  /-- R236 f8 0x10. -/
  | smin (d a b : BitVec 6)
  /-- R236 f8 0x11. -/
  | smax (d a b : BitVec 6)
  /-- R236 f8 0x12. -/
  | sminu (d a b : BitVec 6)
  /-- R236 f8 0x13. -/
  | smaxu (d a b : BitVec 6)
  /-- R236 f8 0x18. -/
  | sclz (d a : BitVec 6)
  /-- R236 f8 0x19. -/
  | spopc (d a : BitVec 6)
  /-- R236 f8 0x20 to 0x27. -/
  | ssel (d a b : BitVec 6) (p : BitVec 3)
  /-- R237; c at most 5. -/
  | scmp (n : BitVec 3) (a b : BitVec 6) (c : BitVec 3)
  /-- R238. -/
  | saddi (d a : BitVec 6) (i : BitVec 14)
  /-- R238. -/
  | sandi (d a : BitVec 6) (i : BitVec 14)
  /-- R238. -/
  | sori (d a : BitVec 6) (i : BitVec 14)
  /-- R238. -/
  | sxori (d a : BitVec 6) (i : BitVec 14)
  /-- R238. -/
  | sshli (d a : BitVec 6) (i : BitVec 14)
  /-- R238. -/
  | sshri (d a : BitVec 6) (i : BitVec 14)
  /-- R239. -/
  | slui (d : BitVec 6) (i : BitVec 20)
  /-- R240 global load. -/
  | sldB (d b : BitVec 6) (o : BitVec 14)
  /-- R240 global load. -/
  | sldH (d b : BitVec 6) (o : BitVec 14)
  /-- R240 global load. -/
  | sldW (d b : BitVec 6) (o : BitVec 14)
  /-- R240 global store. -/
  | sstB (v b : BitVec 6) (o : BitVec 14)
  /-- R240 global store. -/
  | sstH (v b : BitVec 6) (o : BitVec 14)
  /-- R240 global store. -/
  | sstW (v b : BitVec 6) (o : BitVec 14)
  /-- R243. -/
  | sldWSync (d b : BitVec 6) (ord scp : BitVec 3) (rmt : BitVec 1) (off : BitVec 7)
  /-- R243. -/
  | sstWSync (v b : BitVec 6) (ord scp : BitVec 3) (rmt : BitVec 1) (off : BitVec 7)
  /-- R240 scratch load. -/
  | sldBS (d b : BitVec 6) (o : BitVec 14)
  /-- R240 scratch load. -/
  | sldHS (d b : BitVec 6) (o : BitVec 14)
  /-- R240 scratch load. -/
  | sldWS (d b : BitVec 6) (o : BitVec 14)
  /-- R240 scratch store. -/
  | sstBS (v b : BitVec 6) (o : BitVec 14)
  /-- R240 scratch store. -/
  | sstHS (v b : BitVec 6) (o : BitVec 14)
  /-- R240 scratch store. -/
  | sstWS (v b : BitVec 6) (o : BitVec 14)
  /-- R243. -/
  | sldWSSync (d b : BitVec 6) (ord scp : BitVec 3) (rmt : BitVec 1) (off : BitVec 7)
  /-- R243. -/
  | sstWSSync (v b : BitVec 6) (ord scp : BitVec 3) (rmt : BitVec 1) (off : BitVec 7)
  /-- R246. -/
  | sbr (neg : BitVec 1) (b : BitVec 3) (o : BitVec 22)
  /-- R246: SBR with neg 0 and bidx 0. -/
  | sj (o : BitVec 22)
  /-- R247. -/
  | scall (d : BitVec 6) (i : BitVec 20)
  /-- R248. -/
  | sret (a : BitVec 6)
  /-- R249. -/
  | swin (i : BitVec 20)
  /-- R250. -/
  | lgo (cb : BitVec 6) (t : BitVec 20)
  /-- R251. -/
  | lwait (n : BitVec 20)
  /-- R252. -/
  | pclose (p : BitVec 3)
  /-- R253. -/
  | pwait (a : BitVec 6) (p : BitVec 3)
  /-- R254. -/
  | xfence (scp : BitVec 3) (t f : BitVec 8)
  /-- R255. -/
  | fence (scp kind : BitVec 3)
  /-- R256. -/
  | barinit (a : BitVec 6) (e : BitVec 8)
  /-- R256. -/
  | bararr (a b : BitVec 6)
  /-- R256. -/
  | barwait (a b : BitVec 6)
  /-- R259. -/
  | setfmt (a b : BitVec 6)
  /-- R259. -/
  | stcfg (a b : BitVec 6)
  /-- R260. -/
  | gang (a b : BitVec 6)
  /-- R262, R393. -/
  | retire (a b : BitVec 6)
  /-- R261. -/
  | sexit
  /-- R271. -/
  | snop
  /-- R267. -/
  | scsrr (d : BitVec 6) (r : BitVec 12)
  /-- R267. -/
  | scsrw (a : BitVec 6) (r : BitVec 12)
  /-- R269. -/
  | trap (c : BitVec 8)
  /-- R270, R427. -/
  | tret
  /-- COP func7 0x00 (R214). -/
  | shCopy (d a : BitVec 6) (blk : BitVec 1)
  /-- COP func7 0x01 (R214). -/
  | shTld (d a : BitVec 6) (blk : BitVec 1)
  /-- COP func7 0x02 (R214). -/
  | shTst (d a : BitVec 6) (blk : BitVec 1)
  /-- COP func7 0x03 (R214). -/
  | shQnt (d a : BitVec 6) (blk : BitVec 1)
  /-- COP func7 0x04 (R214). -/
  | shFill (d a : BitVec 6) (blk : BitVec 1)
  /-- COP func7 0x10 (R214). -/
  | mxMma (d a : BitVec 6) (blk : BitVec 1)
  /-- COP func7 0x11 (R214). -/
  | mxMmaj (d a : BitVec 6) (blk : BitVec 1)
  /-- COP func7 0x12 (R214). -/
  | mxUnf (d a : BitVec 6) (blk : BitVec 1)
  /-- COP func7 0x13 (R214). -/
  | mxMv (d a : BitVec 6) (blk : BitVec 1)
  /-- COP func7 0x14 (R214). -/
  | mxOut (d a : BitVec 6) (blk : BitVec 1)
  /-- COP func7 0x15 (R214). -/
  | mxZero (d a : BitVec 6) (blk : BitVec 1)
  /-- COP func7 0x16 (R214). -/
  | mxSt (d a : BitVec 6) (blk : BitVec 1)
  /-- COP func7 0x28 (R214). -/
  | gaGath (d a : BitVec 6) (blk : BitVec 1)
  /-- COP func7 0x29 (R214). -/
  | gaScat (d a : BitVec 6) (blk : BitVec 1)
  /-- COP func7 0x2A (R214). -/
  | gaSegred (d a : BitVec 6) (blk : BitVec 1)
  /-- COP func7 0x30 (R214). -/
  | coAllred (d a : BitVec 6) (blk : BitVec 1)
  /-- COP func7 0x31 (R214). -/
  | coBcast (d a : BitVec 6) (blk : BitVec 1)
  /-- COP func7 0x32 (R214). -/
  | coPut (d a : BitVec 6) (blk : BitVec 1)
  /-- COP func7 0x33 (R214). -/
  | coGet (d a : BitVec 6) (blk : BitVec 1)
  /-- COP func7 0x34 (R214). -/
  | coSignal (d a : BitVec 6) (blk : BitVec 1)
  /-- COP func7 0x40 (R214). -/
  | ssRun (d a : BitVec 6) (blk : BitVec 1)
  /-- COP func7 0x41 (R214). -/
  | ssPeek (d a : BitVec 6) (blk : BitVec 1)
  /-- COP func7 0x48 (R214). -/
  | wdNext (d a : BitVec 6) (blk : BitVec 1)
  /-- COP func7 0x49 (R214). -/
  | wdLaunch (d a : BitVec 6) (blk : BitVec 1)
  /-- COP func7 0x50 (R214). -/
  | tkNext (d a : BitVec 6) (blk : BitVec 1)
  /-- COP func7 0x51 (R214). -/
  | tkDone (d a : BitVec 6) (blk : BitVec 1)
  /-- COP func7 0x52 (R214). -/
  | tkAdd (d a b : BitVec 6) (blk : BitVec 1)
  /-- COP func7 0x60 (R214). -/
  | fmQuery (d a b : BitVec 6) (blk : BitVec 1)
  /-- COP func7 0x61 (R214). -/
  | fmReq (d a b : BitVec 6) (blk : BitVec 1)
  -- L-stream (R202 to R211)
  /-- R277. -/
  | vadd (h : Hd) (d : BitVec 8) (a b : Src) (sat : BitVec 2)
  /-- R277. -/
  | vsub (h : Hd) (d : BitVec 8) (a b : Src) (sat : BitVec 2)
  /-- R277. -/
  | vmul (h : Hd) (d : BitVec 8) (a b : Src)
  /-- R277. -/
  | vmulh (h : Hd) (d : BitVec 8) (a b : Src)
  /-- R277. -/
  | vmulhu (h : Hd) (d : BitVec 8) (a b : Src)
  /-- R277. -/
  | vmad (h : Hd) (d : BitVec 8) (a b c : Src) (sat : BitVec 2)
  /-- R277. -/
  | vmin (h : Hd) (d : BitVec 8) (a b : Src)
  /-- R277. -/
  | vmax (h : Hd) (d : BitVec 8) (a b : Src)
  /-- R277. -/
  | vminu (h : Hd) (d : BitVec 8) (a b : Src)
  /-- R277. -/
  | vmaxu (h : Hd) (d : BitVec 8) (a b : Src)
  /-- R277. -/
  | vabs (h : Hd) (d : BitVec 8) (a : Src) (sat : BitVec 1)
  /-- R277. -/
  | vneg (h : Hd) (d : BitVec 8) (a : Src) (sat : BitVec 1)
  /-- R278. -/
  | vicmp (h : Hd) (p : BitVec 3) (a b : Src) (cc : BitVec 3)
  /-- R279. -/
  | vsel (h : Hd) (d : BitVec 8) (a b : Src) (q : BitVec 3) (nq : BitVec 1)
  /-- R280: the fields below OPC are not checked (R215). -/
  | vdiv (h : Hd) (d : BitVec 8) (a b c : Src) (m : BitVec 19)
  /-- R280: the fields below OPC are not checked (R215). -/
  | vdivu (h : Hd) (d : BitVec 8) (a b c : Src) (m : BitVec 19)
  /-- R280: the fields below OPC are not checked (R215). -/
  | vrem (h : Hd) (d : BitVec 8) (a b c : Src) (m : BitVec 19)
  /-- R280: the fields below OPC are not checked (R215). -/
  | vremu (h : Hd) (d : BitVec 8) (a b c : Src) (m : BitVec 19)
  /-- R281. -/
  | vand (h : Hd) (d : BitVec 8) (a b : Src)
  /-- R281. -/
  | vor (h : Hd) (d : BitVec 8) (a b : Src)
  /-- R281. -/
  | vxor (h : Hd) (d : BitVec 8) (a b : Src)
  /-- R281. -/
  | vandn (h : Hd) (d : BitVec 8) (a b : Src)
  /-- R281. -/
  | vshl (h : Hd) (d : BitVec 8) (a b : Src) (n : BitVec 5) (i : BitVec 1)
  /-- R281. -/
  | vshr (h : Hd) (d : BitVec 8) (a b : Src) (n : BitVec 5) (i : BitVec 1)
  /-- R281. -/
  | vsra (h : Hd) (d : BitVec 8) (a b : Src) (n : BitVec 5) (i : BitVec 1)
  /-- R281. -/
  | vclz (h : Hd) (d : BitVec 8) (a : Src)
  /-- R281. -/
  | vpopc (h : Hd) (d : BitVec 8) (a : Src)
  /-- R281. -/
  | vbrev (h : Hd) (d : BitVec 8) (a : Src)
  /-- R282. -/
  | vbfx (h : Hd) (d : BitVec 8) (a b : Src) (pos len : BitVec 5) (sgn r : BitVec 1)
  /-- R282. -/
  | vbfi (h : Hd) (d : BitVec 8) (a b c : Src) (pos len : BitVec 5) (r : BitVec 1)
  /-- R283. -/
  | vprmb (h : Hd) (d : BitVec 8) (a b c : Src) (sel : BitVec 16) (i : BitVec 1)
  /-- R281. -/
  | vclmul (h : Hd) (d : BitVec 8) (a b : Src)
  /-- R281. -/
  | vclmulh (h : Hd) (d : BitVec 8) (a b : Src)
  /-- R305. -/
  | vfadd (h : Hd) (d : BitVec 8) (a b : Src) (rm : BitVec 4)
  /-- R305. -/
  | vfsub (h : Hd) (d : BitVec 8) (a b : Src) (rm : BitVec 4)
  /-- R305. -/
  | vfmul (h : Hd) (d : BitVec 8) (a b : Src) (rm : BitVec 4)
  /-- R305. -/
  | vfma (h : Hd) (d : BitVec 8) (a b c : Src) (rm : BitVec 4)
  /-- R306. -/
  | vfmin (h : Hd) (d : BitVec 8) (a b : Src)
  /-- R306. -/
  | vfmax (h : Hd) (d : BitVec 8) (a b : Src)
  /-- R307. -/
  | vfcmp (h : Hd) (p : BitVec 3) (a b : Src) (cc : BitVec 3)
  /-- R308. -/
  | vfclass (h : Hd) (d : BitVec 8) (a : Src)
  /-- R309. -/
  | vrcp (h : Hd) (d : BitVec 8) (a : Src)
  /-- R309. -/
  | vrsq (h : Hd) (d : BitVec 8) (a : Src)
  /-- R309. -/
  | vsqrt (h : Hd) (d : BitVec 8) (a : Src)
  /-- R309. -/
  | vexp2 (h : Hd) (d : BitVec 8) (a : Src)
  /-- R309. -/
  | vlog2 (h : Hd) (d : BitVec 8) (a : Src)
  /-- R311. -/
  | vcvt (h : Hd) (d : BitVec 8) (a : Src) (dt ds : BitVec 1) (rm ft fs : BitVec 4)
  /-- R311. -/
  | vqnt (h : Hd) (d : BitVec 8) (a b : Src) (dt ds : BitVec 1) (rm ft fs : BitVec 4)
  /-- R311. -/
  | vdqt (h : Hd) (d : BitVec 8) (a b : Src) (dt ds : BitVec 1) (rm ft fs : BitVec 4)
  /-- R284. -/
  | vmov (h : Hd) (d : BitVec 8) (a : Src)
  /-- R284. -/
  | vmovi (h : Hd) (d : BitVec 8) (imm : Word)
  /-- R285. -/
  | vmovrx (h : Hd) (d : BitVec 8) (a : Src)
  /-- R286. -/
  | vmovxr (h : Hd) (a b : Src)
  /-- R288. -/
  | pset (h : Hd) (p : BitVec 3) (a : Src) (src : BitVec 2)
  /-- R288. -/
  | pand (h : Hd) (p qa : BitVec 3) (na : BitVec 1) (qb : BitVec 3) (nb : BitVec 1)
  /-- R288. -/
  | por (h : Hd) (p qa : BitVec 3) (na : BitVec 1) (qb : BitVec 3) (nb : BitVec 1)
  /-- R288. -/
  | pxor (h : Hd) (p qa : BitVec 3) (na : BitVec 1) (qb : BitVec 3) (nb : BitVec 1)
  /-- R288. -/
  | pnot (h : Hd) (p qa : BitVec 3)
  /-- R288. -/
  | pmk (h : Hd) (p : BitVec 3) (a : Src)
  /-- R290. -/
  | vote (h : Hd) (d : BitVec 8) (q : BitVec 3) (nq : BitVec 1) (kind : BitVec 2)
  /-- R291. -/
  | vredk (h : Hd) (d : BitVec 8) (a : Src) (op : BitVec 4)
  /-- R291. -/
  | vscan (h : Hd) (d : BitVec 8) (a : Src) (op : BitVec 4) (excl : BitVec 1)
  /-- R292. -/
  | vlane (h : Hd) (d : BitVec 8) (a b : Src)
  /-- R293, LB format (R204). -/
  | vbr (stall : BitVec 4) (p0 p1 p2 p3 : BitVec 4) (t0 t1 t2 t3 rcv : BitVec 12) (np : BitVec 2) (u : BitVec 1)
  /-- R294. -/
  | vjmp (h : Hd) (a : Src) (rcv : BitVec 12) (u : BitVec 1)
  /-- R297. -/
  | vland (stall : BitVec 4)
  /-- R295. -/
  | vcall (h : Hd) (d : BitVec 8) (a : Src) (off : BitVec 12) (u ind : BitVec 1)
  /-- R298. -/
  | regang (stall : BitVec 4)
  /-- R299. -/
  | lend (h : Hd)
  /-- R300. -/
  | safept (stall : BitVec 4) (idx : BitVec 16)
  /-- R297. -/
  | vnop (h : Hd)
  /-- R316. -/
  | vld (h : Hd) (d : BitVec 8) (a : Src) (brec : BitVec 8) (ord scp : BitVec 3) (rmt inv : BitVec 1) (rc : BitVec 4) (rcl : BitVec 1)
  /-- R317. -/
  | vst (h : Hd) (a b : Src) (brec : BitVec 8) (ord scp : BitVec 3)
  /-- R316. -/
  | vlda (h : Hd) (d : BitVec 8) (a : Src) (off : BitVec 17) (ord scp : BitVec 3) (rmt inv : BitVec 1) (rc : BitVec 4) (rcl : BitVec 1) (size : BitVec 3)
  /-- R317. -/
  | vsta (h : Hd) (a b : Src) (off : BitVec 17) (ord scp : BitVec 3) (size : BitVec 3)
  /-- R316. -/
  | vlds (h : Hd) (d : BitVec 8) (a : Src) (off : BitVec 17) (ord scp : BitVec 3) (size : BitVec 3)
  /-- R317. -/
  | vsts (h : Hd) (a b : Src) (off : BitVec 17) (ord scp : BitVec 3) (size : BitVec 3)
  /-- R319. -/
  | vpft (h : Hd) (a : Src) (brec : BitVec 8) (rc : BitVec 4) (rcl : BitVec 1)
  /-- R320. -/
  | vatom (h : Hd) (d : BitVec 8) (a b : Src) (off : BitVec 17) (ord scp : BitVec 3) (aop : BitVec 4) (far : BitVec 1) (size : BitVec 3) (asp : BitVec 1)
  /-- R322. -/
  | vfence (h : Hd) (kind scp : BitVec 3)
  /-- R323. -/
  | txbegin (stall : BitVec 4) (d : BitVec 8) (off : BitVec 12)
  /-- R325. -/
  | txend (stall : BitVec 4)
  /-- R326. -/
  | txabort (h : Hd) (code : BitVec 8)
  /-- R328. -/
  | vaccr (h : Hd) (d : BitVec 8) (a : Src) (m : BitVec 4)
  /-- R328. -/
  | vaccw (h : Hd) (a b : Src) (m : BitVec 4) (add : BitVec 1)
  -- events of the device (file 95)
  /-- at the focus pick; R107. -/
  | variableLatencyResult (seq : Nat)
  /-- R166. -/
  | pathOperationComplete (op : Nat)
  /-- R334. -/
  | engineOperationStart (op : Nat)
  /-- R520. -/
  | taskTableWriteback (launch : Nat)
  /-- at the focus pick; R63. -/
  | issueAgingRise (frag : Nat)
  /-- the focus pick asks for a register of the bank; R95. -/
  | park (bank : Nat)
  /-- R443. -/
  | teamStart (launch team die loom : Nat)
  /-- R439. -/
  | submission (ctx q : Nat)
  /-- R447. -/
  | dependencyEdgeCheck (launch : Nat)
  /-- R450. -/
  | preemptRequest (who : PrqScope)
  /-- R457. -/
  | resume (ctx : Nat)
  /-- R499. -/
  | slotBindComplete (die loom slot : Nat)
  /-- R471; hyp: written by the hypervisor. -/
  | xrespReplay (ctx fid : Nat) (hyp : Bool)
  /-- R471; hyp: written by the hypervisor. -/
  | xrespXlate (ctx fid : Nat) (hyp : Bool)
  /-- R471; hyp: written by the hypervisor. -/
  | xrespPerm (ctx fid : Nat) (hyp : Bool)
  /-- R471; hyp: written by the hypervisor. -/
  | xrespRefuse (ctx fid : Nat) (hyp : Bool)
  /-- R468. -/
  | invalidateStage1 (ctx : Nat)
  /-- R468, a hypervisor write. -/
  | invalidateStage2 (ctx : Nat)
  /-- R468. -/
  | invalidationComplete (ctx : Nat)
  /-- R472. -/
  | dieAssign (die world : Nat)
  /-- R472. -/
  | dieRelease (die : Nat)
  /-- R472. -/
  | dieScrubComplete (die : Nat)
  /-- R472. -/
  | dieReleaseComplete (die : Nat)
  /-- R476. -/
  | wvcommit (link : Nat)
  /-- R511. -/
  | contextCreate (ctx fn slot world : Nat)
  /-- R511. -/
  | contextEndHost (ctx : Nat)
  /-- R497. -/
  | draftLoad (fn : Nat)
  /-- R497. -/
  | draftRemove (fn : Nat)
  /-- R482. -/
  | counterRead (tlp : ReadTlp)
  /-- R482. -/
  | allowListWrite (fn world word val : Nat)
  /-- R517. -/
  | devidWrite (val : Nat)
  /-- R419, R437, R468, R510, R511. -/
  | hostRegisterWrite (page : HostPage) (off : Nat) (tlp : WriteTlp)
  /-- R505: what each compute die is granted. -/
  | powerGrant (grants : List PowerGrant)
  /-- R506. -/
  | operatingPointChange (die : Nat)
  /-- R507. -/
  | linkWidthRequest (link width : Nat)
  /-- R507. -/
  | linkRetrainComplete (link : Nat) (ok : Bool)
  /-- R508. -/
  | thermalThrottle (cond : Throttle)
  /-- R487. -/
  | dieLoss (die : Nat)
  /-- R32. -/
  | linkFailure (edge : Nat)
  /-- R517. -/
  | scaleupLaneLoss (port : Nat)
  /-- R486. -/
  | uncorrectableError (site : ErrorSite)
  /-- R486. -/
  | patrolScrub (die : Nat)
  /-- R479. -/
  | rekey (world : Nat)
  /-- R479. -/
  | rekeySweepComplete (world : Nat)
  /-- R464. -/
  | remoteAccessArrival (world ia : Nat) (req : RemoteReq)
  /-- R516. -/
  | ptmExchange (ns : Nat)
  /-- R515. -/
  | atsInvalidation (fn page : Nat)
  /-- R513. -/
  | ideKeySetGo (fn set : Nat) (tx : Bool)
  /-- R513. -/
  | ideKeySetStop (fn set : Nat) (tx : Bool)
  /-- R513. -/
  | ideIntegrityFailure (fn : Nat)
  /-- R514. -/
  | stopInterface (fn : Nat)
  /-- R502. -/
  | spdmRequest (fn : Nat) (req : SpdmReq)
  /-- R503. -/
  | tenantPolicySet (fn val : Nat)
  /-- R493. -/
  | svnRaise (kind val : Nat)
  /-- R215: a lane or a scalar word. -/
  | unallocatedEncoding (lane : Bool)
  /-- R368. -/
  | peerDeviceLoss (dev : Nat)
  /-- R484. -/
  | collectiveMessageArrival (world ctx : Nat) (msg : CollMsg)
  /-- R517. -/
  | linkLevelRetry (link : Nat)
  /-- R514. -/
  | lockInterface (fn : Nat)
  /-- R514. -/
  | startInterface (fn : Nat)
  /-- R442. -/
  | rateBudgetRefill (portal : Nat)
  /-- at the focus pick; R105. -/
  | fixedLatencyWrite
  /-- at the focus team; R350. -/
  | rendezvousForm
  /-- at the focus pick; R49. -/
  | blockStart
  /-- at the focus pick; R50. -/
  | blockEnd
  /-- at the focus pick; R60. -/
  | regangRelease
  /-- at the focus pick; R96. -/
  | parkRestore
  /-- at the focus team; R73. -/
  | completionPublish
  /-- at the focus team; R397. -/
  | retireLatchForm
  /-- at the focus team; R401. -/
  | successorStart
  /-- at the focus pick; R422. -/
  | trapDelivery
  /-- at the focus pick; R423. -/
  | asyncTrapDelivery
  /-- at the focus pick; R254. -/
  | xfenceDrainComplete
  /-- at the focus team; R454. -/
  | teamSave
  /-- at the focus team; R454. -/
  | drainTurnsSave
  /-- R516. -/
  | smpgo
  /-- R489. -/
  | powerOn
  /-- R490. -/
  | bootPhaseTimeout
  /-- R490. -/
  | fundamentalReset
  /-- R31. -/
  | ioDieLoss
  /-- R490. -/
  | powerLoss
  /-- R433. -/
  | cycleCounterIncrement
deriving DecidableEq, Repr

end Sys2Proof
end

