-- ==== Sys2Proof/WellFormed.lean ====
section
/-! DEFINITION. The operand checks of step 5 of R215 that depend on the instruction word alone (R78, R98,
R102, R173 and the entries). A lane word that fails one traps with ILL_OPERAND. The scalar entries make
their own operand checks in their meanings. -/

namespace Sys2Proof

/-- A source field in use names a legal pattern and parameter (R102). -/
def Src.wf (s : Src) : Bool :=
  match s.pat.toNat with
  | 0 => s.prm == 0
  | 4 => s.prm.toNat ≤ 5
  | 7 => false
  | _ => true

/-- A source of a register group of n members: an aligned base within v0 to v238 (R98). -/
def Src.group (s : Src) (n : Nat) : Bool :=
  s.wf && (n == 1 || (s.reg.toNat % n == 0 && s.reg.toNat + n ≤ 239))

/-- A destination that is not of a k-writer: a v-register or vz (R78, R273). -/
def dst (d : BitVec 8) : Bool := d.toNat ≤ 239

/-- A destination group of n members, or vz (R98). -/
def dstGroup (d : BitVec 8) (n : Nat) : Bool :=
  d.toNat == 239 || (if n == 1 then d.toNat < 239 else d.toNat % n == 0 && d.toNat + n ≤ 239)

/-- The register group of a SIZE code (R210). -/
def groupOf (size : BitVec 3) : Nat :=
  match size.toNat with
  | 3 => 2
  | 4 => 4
  | _ => 1

/-- ORD and SCP of a load (R173). A reserved SCP is refused on a plain access too (log 58). -/
def ordLoad (ord scp : BitVec 3) : Bool := ord.toNat ≤ 2 && scp.toNat ≤ 5

/-- ORD and SCP of a store (R173). -/
def ordStore (ord scp : BitVec 3) : Bool := (ord.toNat ≤ 1 || ord.toNat == 3) && scp.toNat ≤ 5

/-- `.RMT` and `.INV` of a load (R173). -/
def rmtInv (ord scp : BitVec 3) (rmt inv : BitVec 1) : Bool :=
  (rmt == 0 || ((ord.toNat == 2 || ord.toNat == 4) && (scp.toNat == 4 || scp.toNat == 5))) &&
  (inv == 0 || ord.toNat == 0)

/-- Explicit or FMTR formats of a conversion (R310). -/
def cvtFields (dt ds : BitVec 1) (rm ft fs : BitVec 4) : Bool :=
  rm.toNat ≤ 6 && (ds == 0 || fs == 0) && (dt == 0 || ft == 0) &&
  fs.toNat != 13 && fs.toNat != 14 && ft.toNat != 13 && ft.toNat != 14

/-- Pairs of VBR beyond NP are zero (R204). -/
def pairsBeyond (p1 p2 p3 : BitVec 4) (t1 t2 t3 : BitVec 12) (np : BitVec 2) : Bool :=
  (np.toNat ≥ 1 || (p1 == 0 && t1 == 0)) && (np.toNat ≥ 2 || (p2 == 0 && t2 == 0)) &&
  (np.toNat ≥ 3 || (p3 == 0 && t3 == 0))

/-- Operand registers of VATOM's SB by AOP and SIZE (R320). -/
def atomGroup (aop : BitVec 4) (size : BitVec 3) : Nat :=
  (if aop.toNat = 10 then 2 else 1) * (if size.toNat = 3 then 2 else 1)

/-- The operand checks of step 5 of R215 made on the word alone. The spelling `sbr` with neg 0 and bidx 0 is
`sj` (R246), and the f8 values 0x46 and 0x47 are unallocated (R213). -/
def Instr.wf : Instr → Bool
  | .sbr neg b _ => !(neg == 0 && b == 0)
  | .scmp _ _ _ c => c.toNat ≤ 5
  | .vadd _ d a b sat => dst d && a.wf && b.wf && sat.toNat ≤ 2
  | .vsub _ d a b sat => dst d && a.wf && b.wf && sat.toNat ≤ 2
  | .vmul _ d a b => dst d && a.wf && b.wf
  | .vmulh _ d a b => dst d && a.wf && b.wf
  | .vmulhu _ d a b => dst d && a.wf && b.wf
  | .vmad _ d a b c sat => dst d && a.wf && b.wf && c.wf && sat.toNat ≤ 2
  | .vmin _ d a b => dst d && a.wf && b.wf
  | .vmax _ d a b => dst d && a.wf && b.wf
  | .vminu _ d a b => dst d && a.wf && b.wf
  | .vmaxu _ d a b => dst d && a.wf && b.wf
  | .vabs _ d a _ => dst d && a.wf
  | .vneg _ d a _ => dst d && a.wf
  | .vicmp _ _ a b cc => a.wf && b.wf && cc.toNat ≤ 5
  | .vsel _ d a b _ _ => dst d && a.wf && b.wf
  | .vand _ d a b => dst d && a.wf && b.wf
  | .vor _ d a b => dst d && a.wf && b.wf
  | .vxor _ d a b => dst d && a.wf && b.wf
  | .vandn _ d a b => dst d && a.wf && b.wf
  | .vshl _ d a b n i => dst d && a.wf && (if i == 0 then b.wf && n == 0 else b == Src.zero)
  | .vshr _ d a b n i => dst d && a.wf && (if i == 0 then b.wf && n == 0 else b == Src.zero)
  | .vsra _ d a b n i => dst d && a.wf && (if i == 0 then b.wf && n == 0 else b == Src.zero)
  | .vclz _ d a => dst d && a.wf
  | .vpopc _ d a => dst d && a.wf
  | .vbrev _ d a => dst d && a.wf
  | .vbfx _ d a b pos len _ r =>
    dst d && a.wf && (if r == 0 then b == Src.zero else b.wf && pos == 0 && len == 0)
  | .vbfi _ d a b c pos len r =>
    dst d && a.wf && b.wf && (if r == 0 then c == Src.zero else c.wf && pos == 0 && len == 0)
  | .vprmb _ d a b c sel i => dst d && a.wf && b.wf && (if i == 0 then c.wf && sel == 0 else c == Src.zero)
  | .vclmul _ d a b => dst d && a.wf && b.wf
  | .vclmulh _ d a b => dst d && a.wf && b.wf
  | .vfadd _ d a b rm => dst d && a.wf && b.wf && rm.toNat ≤ 6
  | .vfsub _ d a b rm => dst d && a.wf && b.wf && rm.toNat ≤ 6
  | .vfmul _ d a b rm => dst d && a.wf && b.wf && rm.toNat ≤ 6
  | .vfma _ d a b c rm => dst d && a.wf && b.wf && c.wf && rm.toNat ≤ 6
  | .vfmin _ d a b => dst d && a.wf && b.wf
  | .vfmax _ d a b => dst d && a.wf && b.wf
  | .vfcmp _ _ a b _ => a.wf && b.wf
  | .vfclass _ d a => dst d && a.wf
  | .vrcp _ d a => dst d && a.wf
  | .vrsq _ d a => dst d && a.wf
  | .vsqrt _ d a => dst d && a.wf
  | .vexp2 _ d a => dst d && a.wf
  | .vlog2 _ d a => dst d && a.wf
  | .vcvt _ d a dt ds rm ft fs => dst d && a.wf && cvtFields dt ds rm ft fs
  | .vqnt _ d a b dt ds rm ft fs => dst d && a.wf && b.wf && cvtFields dt ds rm ft fs
  | .vdqt _ d a b dt ds rm ft fs => dst d && a.wf && b.wf && cvtFields dt ds rm ft fs
  | .vmov _ _ a => a.wf
  | .vmovrx _ d a => dst d && a.wf
  | .vmovxr _ a b => a.wf && b.wf
  | .pset _ _ a src => if src.toNat ≤ 1 then a == Src.zero else a.wf
  | .pmk _ _ a => a.wf
  | .vredk _ _ a op => a.wf && op.toNat ≤ 10
  | .vscan _ d a op _ => dst d && a.wf && op.toNat ≤ 10
  | .vlane _ _ a b => a.wf && b.wf
  | .vbr _ _ p1 p2 p3 _ t1 t2 t3 _ np _ => pairsBeyond p1 p2 p3 t1 t2 t3 np
  | .vjmp _ a _ _ => a.wf
  | .vcall _ d a off u ind => dst d && (if ind == 0 then a == Src.zero && u == 0 else a.wf && off == 0)
  | .vld _ d a _ ord scp rmt inv _ _ => dst d && a.wf && ordLoad ord scp && rmtInv ord scp rmt inv
  | .vst _ a b _ ord scp => a.wf && b.wf && ordStore ord scp
  | .vlda _ d a _ ord scp rmt inv rc rcl size =>
    size.toNat ≤ 4 && dstGroup d (groupOf size) && a.group 2 && ordLoad ord scp && rmtInv ord scp rmt inv &&
    (ord == 0 || (rc == 0 && rcl == 0)) && (ord == 0 || size.toNat < 3 || (rmt == 0 && inv == 0))
  | .vsta _ a b _ ord scp size => size.toNat ≤ 4 && a.group 2 && b.group (groupOf size) && ordStore ord scp
  | .vlds _ d a _ ord scp size => size.toNat ≤ 4 && dstGroup d (groupOf size) && a.wf && ordLoad ord scp
  | .vsts _ a b _ ord scp size => size.toNat ≤ 4 && a.wf && b.group (groupOf size) && ordStore ord scp
  | .vpft _ a _ _ _ => a.wf
  | .vatom _ d a b _ ord scp aop _ size asp =>
    (size.toNat == 2 || size.toNat == 3) && aop.toNat ≤ 10 && !(aop.toNat == 1 && size.toNat == 3) &&
    dstGroup d (groupOf size) && (if asp == 0 then a.group 2 else a.wf) && b.group (atomGroup aop size) &&
    ord.toNat ≤ 4 && scp.toNat ≤ 5
  | .vfence _ kind scp => 2 ≤ kind.toNat && kind.toNat ≤ 4 && scp.toNat ≤ 5
  | .txbegin _ d _ => dst d
  | .vaccr _ d a _ => dst d && a.wf
  | .vaccw _ a b _ _ => a.wf && b.wf
  | _ => true

end Sys2Proof
end

