-- ==== Sys2Proof/Decode.lean ====
section
/-! DEFINITION. Decoding: total on every word, rejecting by the cause of R215; then the encoder, written
from the same encoding tables (R202 to R214). -/

namespace Sys2Proof

/-- What a word decodes to: an instruction, or the cause with which its issue traps (R215, R216). -/
inductive Decoded where
  /-- The word is an instruction whose fields pass steps 1 to 5 of R215. -/
  | ok (i : Instr)
  /-- Step 1 or 3: an unallocated OPC, OPC6, f8, func7 or function selector. -/
  | illOpcode
  /-- Step 4 or 5: a field that must be zero is not, or an operand check fails. -/
  | illOperand
deriving DecidableEq, Repr

/-- The source field at bit lo (R101). -/
def srcAt {n : Nat} (w : BitVec n) (lo : Nat) : Src :=
  ⟨w.extractLsb' (lo + 9) 8, w.extractLsb' (lo + 8) 1, w.extractLsb' (lo + 5) 3, w.extractLsb' lo 5⟩

/-- STALL, PN and PI at bit lo (R202). -/
def hdAt {n : Nat} (w : BitVec n) (lo : Nat) : Hd :=
  ⟨w.extractLsb' (lo + 4) 4, w.extractLsb' (lo + 3) 1, w.extractLsb' lo 3⟩

/-- Whether k bits from bit lo are all zero (R205). -/
def zero {n : Nat} (w : BitVec n) (lo k : Nat) : Bool := w.extractLsb' lo k == 0

/-- The instruction, when its zero fields are zero (step 4 of R215). -/
def sel (z : Bool) (i : Instr) : Decoded := if z then .ok i else .illOperand

/-- The ALU group, by f8 (R213). -/
def decodeAlu (w : Word) : Decoded :=
  match (w.extractLsb' 0 8).toNat with
  | 0x00 => .ok (.sadd (w.extractLsb' 20 6) (w.extractLsb' 14 6) (w.extractLsb' 8 6))
  | 0x01 => .ok (.ssub (w.extractLsb' 20 6) (w.extractLsb' 14 6) (w.extractLsb' 8 6))
  | 0x02 => .ok (.smul (w.extractLsb' 20 6) (w.extractLsb' 14 6) (w.extractLsb' 8 6))
  | 0x03 => .ok (.smulh (w.extractLsb' 20 6) (w.extractLsb' 14 6) (w.extractLsb' 8 6))
  | 0x04 => .ok (.smulhu (w.extractLsb' 20 6) (w.extractLsb' 14 6) (w.extractLsb' 8 6))
  | 0x08 => .ok (.sand (w.extractLsb' 20 6) (w.extractLsb' 14 6) (w.extractLsb' 8 6))
  | 0x09 => .ok (.sor (w.extractLsb' 20 6) (w.extractLsb' 14 6) (w.extractLsb' 8 6))
  | 0x0A => .ok (.sxor (w.extractLsb' 20 6) (w.extractLsb' 14 6) (w.extractLsb' 8 6))
  | 0x0C => .ok (.sshl (w.extractLsb' 20 6) (w.extractLsb' 14 6) (w.extractLsb' 8 6))
  | 0x0D => .ok (.sshr (w.extractLsb' 20 6) (w.extractLsb' 14 6) (w.extractLsb' 8 6))
  | 0x0E => .ok (.ssra (w.extractLsb' 20 6) (w.extractLsb' 14 6) (w.extractLsb' 8 6))
  | 0x10 => .ok (.smin (w.extractLsb' 20 6) (w.extractLsb' 14 6) (w.extractLsb' 8 6))
  | 0x11 => .ok (.smax (w.extractLsb' 20 6) (w.extractLsb' 14 6) (w.extractLsb' 8 6))
  | 0x12 => .ok (.sminu (w.extractLsb' 20 6) (w.extractLsb' 14 6) (w.extractLsb' 8 6))
  | 0x13 => .ok (.smaxu (w.extractLsb' 20 6) (w.extractLsb' 14 6) (w.extractLsb' 8 6))
  | 0x18 => sel (zero w 8 6) (.sclz (w.extractLsb' 20 6) (w.extractLsb' 14 6))
  | 0x19 => sel (zero w 8 6) (.spopc (w.extractLsb' 20 6) (w.extractLsb' 14 6))
  | f8 =>
    if f8 / 8 = 4 then .ok (.ssel (w.extractLsb' 20 6) (w.extractLsb' 14 6) (w.extractLsb' 8 6) (w.extractLsb' 0 3))
    else if f8 / 8 = 8 ∧ f8 % 8 < 6 then sel (zero w 23 3) (.scmp (w.extractLsb' 20 3) (w.extractLsb' 14 6) (w.extractLsb' 8 6) (w.extractLsb' 0 3))
    else .illOpcode

/-- The engine commands, by func7 (R214). -/
def decodeCop (w : Word) : Decoded :=
  match (w.extractLsb' 1 7).toNat with
  | 0x00 => sel (zero w 8 6) (.shCopy (w.extractLsb' 20 6) (w.extractLsb' 14 6) (w.extractLsb' 0 1))
  | 0x01 => sel (zero w 8 6) (.shTld (w.extractLsb' 20 6) (w.extractLsb' 14 6) (w.extractLsb' 0 1))
  | 0x02 => sel (zero w 8 6) (.shTst (w.extractLsb' 20 6) (w.extractLsb' 14 6) (w.extractLsb' 0 1))
  | 0x03 => sel (zero w 8 6) (.shQnt (w.extractLsb' 20 6) (w.extractLsb' 14 6) (w.extractLsb' 0 1))
  | 0x04 => sel (zero w 8 6) (.shFill (w.extractLsb' 20 6) (w.extractLsb' 14 6) (w.extractLsb' 0 1))
  | 0x10 => sel (zero w 8 6) (.mxMma (w.extractLsb' 20 6) (w.extractLsb' 14 6) (w.extractLsb' 0 1))
  | 0x11 => sel (zero w 8 6) (.mxMmaj (w.extractLsb' 20 6) (w.extractLsb' 14 6) (w.extractLsb' 0 1))
  | 0x12 => sel (zero w 8 6) (.mxUnf (w.extractLsb' 20 6) (w.extractLsb' 14 6) (w.extractLsb' 0 1))
  | 0x13 => sel (zero w 8 6) (.mxMv (w.extractLsb' 20 6) (w.extractLsb' 14 6) (w.extractLsb' 0 1))
  | 0x14 => sel (zero w 8 6) (.mxOut (w.extractLsb' 20 6) (w.extractLsb' 14 6) (w.extractLsb' 0 1))
  | 0x15 => sel (zero w 8 6) (.mxZero (w.extractLsb' 20 6) (w.extractLsb' 14 6) (w.extractLsb' 0 1))
  | 0x16 => sel (zero w 8 6) (.mxSt (w.extractLsb' 20 6) (w.extractLsb' 14 6) (w.extractLsb' 0 1))
  | 0x28 => sel (zero w 8 6) (.gaGath (w.extractLsb' 20 6) (w.extractLsb' 14 6) (w.extractLsb' 0 1))
  | 0x29 => sel (zero w 8 6) (.gaScat (w.extractLsb' 20 6) (w.extractLsb' 14 6) (w.extractLsb' 0 1))
  | 0x2A => sel (zero w 8 6) (.gaSegred (w.extractLsb' 20 6) (w.extractLsb' 14 6) (w.extractLsb' 0 1))
  | 0x30 => sel (zero w 8 6) (.coAllred (w.extractLsb' 20 6) (w.extractLsb' 14 6) (w.extractLsb' 0 1))
  | 0x31 => sel (zero w 8 6) (.coBcast (w.extractLsb' 20 6) (w.extractLsb' 14 6) (w.extractLsb' 0 1))
  | 0x32 => sel (zero w 8 6) (.coPut (w.extractLsb' 20 6) (w.extractLsb' 14 6) (w.extractLsb' 0 1))
  | 0x33 => sel (zero w 8 6) (.coGet (w.extractLsb' 20 6) (w.extractLsb' 14 6) (w.extractLsb' 0 1))
  | 0x34 => sel (zero w 8 6) (.coSignal (w.extractLsb' 20 6) (w.extractLsb' 14 6) (w.extractLsb' 0 1))
  | 0x40 => sel (zero w 8 6) (.ssRun (w.extractLsb' 20 6) (w.extractLsb' 14 6) (w.extractLsb' 0 1))
  | 0x41 => sel (zero w 8 6) (.ssPeek (w.extractLsb' 20 6) (w.extractLsb' 14 6) (w.extractLsb' 0 1))
  | 0x48 => sel (zero w 8 6) (.wdNext (w.extractLsb' 20 6) (w.extractLsb' 14 6) (w.extractLsb' 0 1))
  | 0x49 => sel (zero w 8 6) (.wdLaunch (w.extractLsb' 20 6) (w.extractLsb' 14 6) (w.extractLsb' 0 1))
  | 0x50 => sel (zero w 8 6) (.tkNext (w.extractLsb' 20 6) (w.extractLsb' 14 6) (w.extractLsb' 0 1))
  | 0x51 => sel (zero w 8 6) (.tkDone (w.extractLsb' 20 6) (w.extractLsb' 14 6) (w.extractLsb' 0 1))
  | 0x52 => .ok (.tkAdd (w.extractLsb' 20 6) (w.extractLsb' 14 6) (w.extractLsb' 8 6) (w.extractLsb' 0 1))
  | 0x60 => .ok (.fmQuery (w.extractLsb' 20 6) (w.extractLsb' 14 6) (w.extractLsb' 8 6) (w.extractLsb' 0 1))
  | 0x61 => .ok (.fmReq (w.extractLsb' 20 6) (w.extractLsb' 14 6) (w.extractLsb' 8 6) (w.extractLsb' 0 1))
  | _ => .illOpcode

/-- The S-stream word before the operand checks: OPC6, then the fields (R206, R212). -/
def decodeScalarRaw (w : Word) : Decoded :=
  match (w.extractLsb' 26 6).toNat with
  | 0x01 => decodeAlu w
  | 0x38 => decodeCop w
  | 0x02 => .ok (.saddi (w.extractLsb' 20 6) (w.extractLsb' 14 6) (w.extractLsb' 0 14))
  | 0x03 => .ok (.sandi (w.extractLsb' 20 6) (w.extractLsb' 14 6) (w.extractLsb' 0 14))
  | 0x04 => .ok (.sori (w.extractLsb' 20 6) (w.extractLsb' 14 6) (w.extractLsb' 0 14))
  | 0x05 => .ok (.sxori (w.extractLsb' 20 6) (w.extractLsb' 14 6) (w.extractLsb' 0 14))
  | 0x06 => .ok (.sshli (w.extractLsb' 20 6) (w.extractLsb' 14 6) (w.extractLsb' 0 14))
  | 0x07 => .ok (.sshri (w.extractLsb' 20 6) (w.extractLsb' 14 6) (w.extractLsb' 0 14))
  | 0x08 => .ok (.slui (w.extractLsb' 20 6) (w.extractLsb' 0 20))
  | 0x10 => .ok (.sldB (w.extractLsb' 20 6) (w.extractLsb' 14 6) (w.extractLsb' 0 14))
  | 0x11 => .ok (.sldH (w.extractLsb' 20 6) (w.extractLsb' 14 6) (w.extractLsb' 0 14))
  | 0x12 => .ok (.sldW (w.extractLsb' 20 6) (w.extractLsb' 14 6) (w.extractLsb' 0 14))
  | 0x13 => .ok (.sstB (w.extractLsb' 20 6) (w.extractLsb' 14 6) (w.extractLsb' 0 14))
  | 0x14 => .ok (.sstH (w.extractLsb' 20 6) (w.extractLsb' 14 6) (w.extractLsb' 0 14))
  | 0x15 => .ok (.sstW (w.extractLsb' 20 6) (w.extractLsb' 14 6) (w.extractLsb' 0 14))
  | 0x16 => .ok (.sldWSync (w.extractLsb' 20 6) (w.extractLsb' 14 6) (w.extractLsb' 11 3) (w.extractLsb' 8 3) (w.extractLsb' 7 1) (w.extractLsb' 0 7))
  | 0x17 => .ok (.sstWSync (w.extractLsb' 20 6) (w.extractLsb' 14 6) (w.extractLsb' 11 3) (w.extractLsb' 8 3) (w.extractLsb' 7 1) (w.extractLsb' 0 7))
  | 0x18 => .ok (.sldBS (w.extractLsb' 20 6) (w.extractLsb' 14 6) (w.extractLsb' 0 14))
  | 0x19 => .ok (.sldHS (w.extractLsb' 20 6) (w.extractLsb' 14 6) (w.extractLsb' 0 14))
  | 0x1A => .ok (.sldWS (w.extractLsb' 20 6) (w.extractLsb' 14 6) (w.extractLsb' 0 14))
  | 0x1B => .ok (.sstBS (w.extractLsb' 20 6) (w.extractLsb' 14 6) (w.extractLsb' 0 14))
  | 0x1C => .ok (.sstHS (w.extractLsb' 20 6) (w.extractLsb' 14 6) (w.extractLsb' 0 14))
  | 0x1D => .ok (.sstWS (w.extractLsb' 20 6) (w.extractLsb' 14 6) (w.extractLsb' 0 14))
  | 0x1E => .ok (.sldWSSync (w.extractLsb' 20 6) (w.extractLsb' 14 6) (w.extractLsb' 11 3) (w.extractLsb' 8 3) (w.extractLsb' 7 1) (w.extractLsb' 0 7))
  | 0x1F => .ok (.sstWSSync (w.extractLsb' 20 6) (w.extractLsb' 14 6) (w.extractLsb' 11 3) (w.extractLsb' 8 3) (w.extractLsb' 7 1) (w.extractLsb' 0 7))
  | 0x21 => .ok (.scall (w.extractLsb' 20 6) (w.extractLsb' 0 20))
  | 0x22 => sel (zero w 0 14 && zero w 20 6) (.sret (w.extractLsb' 14 6))
  | 0x24 => sel (zero w 20 6) (.swin (w.extractLsb' 0 20))
  | 0x25 => .ok (.lgo (w.extractLsb' 20 6) (w.extractLsb' 0 20))
  | 0x26 => sel (zero w 20 6) (.lwait (w.extractLsb' 0 20))
  | 0x28 => sel (zero w 3 23) (.pclose (w.extractLsb' 0 3))
  | 0x29 => sel (zero w 3 11 && zero w 20 6) (.pwait (w.extractLsb' 14 6) (w.extractLsb' 0 3))
  | 0x2A => sel (zero w 19 7) (.xfence (w.extractLsb' 16 3) (w.extractLsb' 8 8) (w.extractLsb' 0 8))
  | 0x2B => sel (zero w 6 20) (.fence (w.extractLsb' 3 3) (w.extractLsb' 0 3))
  | 0x2C => sel (zero w 8 6 && zero w 20 6) (.barinit (w.extractLsb' 14 6) (w.extractLsb' 0 8))
  | 0x2D => sel (zero w 0 8 && zero w 20 6) (.bararr (w.extractLsb' 14 6) (w.extractLsb' 8 6))
  | 0x2E => sel (zero w 0 8 && zero w 20 6) (.barwait (w.extractLsb' 14 6) (w.extractLsb' 8 6))
  | 0x30 => sel (zero w 0 8 && zero w 20 6) (.setfmt (w.extractLsb' 14 6) (w.extractLsb' 8 6))
  | 0x31 => sel (zero w 0 8 && zero w 20 6) (.stcfg (w.extractLsb' 14 6) (w.extractLsb' 8 6))
  | 0x32 => sel (zero w 0 8 && zero w 20 6) (.gang (w.extractLsb' 14 6) (w.extractLsb' 8 6))
  | 0x33 => sel (zero w 0 8 && zero w 20 6) (.retire (w.extractLsb' 14 6) (w.extractLsb' 8 6))
  | 0x34 => sel (zero w 0 26) (.sexit)
  | 0x3B => sel (zero w 0 26) (.snop)
  | 0x3C => sel (zero w 12 8) (.scsrr (w.extractLsb' 20 6) (w.extractLsb' 0 12))
  | 0x3D => sel (zero w 12 2 && zero w 20 6) (.scsrw (w.extractLsb' 14 6) (w.extractLsb' 0 12))
  | 0x3E => sel (zero w 8 18) (.trap (w.extractLsb' 0 8))
  | 0x3F => sel (zero w 0 26) (.tret)
  | 0x20 => if zero w 22 4 then .ok (.sj (w.extractLsb' 0 22)) else .ok (.sbr (w.extractLsb' 25 1) (w.extractLsb' 22 3) (w.extractLsb' 0 22))
  | _ => .illOpcode

/-- The L-stream word before the operand checks: OPC, then function selectors, then zero fields (R202 to
R211, R215). -/
def decodeLaneRaw (w : BitVec 96) : Decoded :=
  match (w.extractLsb' 86 10).toNat with
  | 0x001 => sel (zero w 2 34) (.vadd (hdAt w 78) (w.extractLsb' 70 8) (srcAt w 53) (srcAt w 36) (w.extractLsb' 0 2))
  | 0x002 => sel (zero w 2 34) (.vsub (hdAt w 78) (w.extractLsb' 70 8) (srcAt w 53) (srcAt w 36) (w.extractLsb' 0 2))
  | 0x003 => sel (zero w 0 36) (.vmul (hdAt w 78) (w.extractLsb' 70 8) (srcAt w 53) (srcAt w 36))
  | 0x004 => sel (zero w 0 36) (.vmulh (hdAt w 78) (w.extractLsb' 70 8) (srcAt w 53) (srcAt w 36))
  | 0x005 => sel (zero w 0 36) (.vmulhu (hdAt w 78) (w.extractLsb' 70 8) (srcAt w 53) (srcAt w 36))
  | 0x007 => sel (zero w 0 36) (.vmin (hdAt w 78) (w.extractLsb' 70 8) (srcAt w 53) (srcAt w 36))
  | 0x008 => sel (zero w 0 36) (.vmax (hdAt w 78) (w.extractLsb' 70 8) (srcAt w 53) (srcAt w 36))
  | 0x009 => sel (zero w 0 36) (.vminu (hdAt w 78) (w.extractLsb' 70 8) (srcAt w 53) (srcAt w 36))
  | 0x00A => sel (zero w 0 36) (.vmaxu (hdAt w 78) (w.extractLsb' 70 8) (srcAt w 53) (srcAt w 36))
  | 0x006 => sel (zero w 2 17) (.vmad (hdAt w 78) (w.extractLsb' 70 8) (srcAt w 53) (srcAt w 36) (srcAt w 19) (w.extractLsb' 0 2))
  | 0x00B => sel (zero w 1 52) (.vabs (hdAt w 78) (w.extractLsb' 70 8) (srcAt w 53) (w.extractLsb' 0 1))
  | 0x00C => sel (zero w 1 52) (.vneg (hdAt w 78) (w.extractLsb' 70 8) (srcAt w 53) (w.extractLsb' 0 1))
  | 0x00D => if (w.extractLsb' 0 3).toNat > 5 then .illOpcode else sel (zero w 3 33 && zero w 73 5) (.vicmp (hdAt w 78) (w.extractLsb' 70 3) (srcAt w 53) (srcAt w 36) (w.extractLsb' 0 3))
  | 0x00E => sel (zero w 4 32) (.vsel (hdAt w 78) (w.extractLsb' 70 8) (srcAt w 53) (srcAt w 36) (w.extractLsb' 0 3) (w.extractLsb' 3 1))
  | 0x010 => .ok (.vdiv (hdAt w 78) (w.extractLsb' 70 8) (srcAt w 53) (srcAt w 36) (srcAt w 19) (w.extractLsb' 0 19))
  | 0x011 => .ok (.vdivu (hdAt w 78) (w.extractLsb' 70 8) (srcAt w 53) (srcAt w 36) (srcAt w 19) (w.extractLsb' 0 19))
  | 0x012 => .ok (.vrem (hdAt w 78) (w.extractLsb' 70 8) (srcAt w 53) (srcAt w 36) (srcAt w 19) (w.extractLsb' 0 19))
  | 0x013 => .ok (.vremu (hdAt w 78) (w.extractLsb' 70 8) (srcAt w 53) (srcAt w 36) (srcAt w 19) (w.extractLsb' 0 19))
  | 0x080 => sel (zero w 0 36) (.vand (hdAt w 78) (w.extractLsb' 70 8) (srcAt w 53) (srcAt w 36))
  | 0x081 => sel (zero w 0 36) (.vor (hdAt w 78) (w.extractLsb' 70 8) (srcAt w 53) (srcAt w 36))
  | 0x082 => sel (zero w 0 36) (.vxor (hdAt w 78) (w.extractLsb' 70 8) (srcAt w 53) (srcAt w 36))
  | 0x083 => sel (zero w 0 36) (.vandn (hdAt w 78) (w.extractLsb' 70 8) (srcAt w 53) (srcAt w 36))
  | 0x084 => sel (zero w 6 30) (.vshl (hdAt w 78) (w.extractLsb' 70 8) (srcAt w 53) (srcAt w 36) (w.extractLsb' 0 5) (w.extractLsb' 5 1))
  | 0x085 => sel (zero w 6 30) (.vshr (hdAt w 78) (w.extractLsb' 70 8) (srcAt w 53) (srcAt w 36) (w.extractLsb' 0 5) (w.extractLsb' 5 1))
  | 0x086 => sel (zero w 6 30) (.vsra (hdAt w 78) (w.extractLsb' 70 8) (srcAt w 53) (srcAt w 36) (w.extractLsb' 0 5) (w.extractLsb' 5 1))
  | 0x087 => sel (zero w 0 53) (.vclz (hdAt w 78) (w.extractLsb' 70 8) (srcAt w 53))
  | 0x088 => sel (zero w 0 53) (.vpopc (hdAt w 78) (w.extractLsb' 70 8) (srcAt w 53))
  | 0x089 => sel (zero w 0 53) (.vbrev (hdAt w 78) (w.extractLsb' 70 8) (srcAt w 53))
  | 0x08A => sel (zero w 12 24) (.vbfx (hdAt w 78) (w.extractLsb' 70 8) (srcAt w 53) (srcAt w 36) (w.extractLsb' 0 5) (w.extractLsb' 5 5) (w.extractLsb' 10 1) (w.extractLsb' 11 1))
  | 0x08B => sel (zero w 10 1 && zero w 12 7) (.vbfi (hdAt w 78) (w.extractLsb' 70 8) (srcAt w 53) (srcAt w 36) (srcAt w 19) (w.extractLsb' 0 5) (w.extractLsb' 5 5) (w.extractLsb' 11 1))
  | 0x08C => sel (zero w 17 2) (.vprmb (hdAt w 78) (w.extractLsb' 70 8) (srcAt w 53) (srcAt w 36) (srcAt w 19) (w.extractLsb' 0 16) (w.extractLsb' 16 1))
  | 0x08D => sel (zero w 0 36) (.vclmul (hdAt w 78) (w.extractLsb' 70 8) (srcAt w 53) (srcAt w 36))
  | 0x08E => sel (zero w 0 36) (.vclmulh (hdAt w 78) (w.extractLsb' 70 8) (srcAt w 53) (srcAt w 36))
  | 0x100 => sel (zero w 4 32) (.vfadd (hdAt w 78) (w.extractLsb' 70 8) (srcAt w 53) (srcAt w 36) (w.extractLsb' 0 4))
  | 0x101 => sel (zero w 4 32) (.vfsub (hdAt w 78) (w.extractLsb' 70 8) (srcAt w 53) (srcAt w 36) (w.extractLsb' 0 4))
  | 0x102 => sel (zero w 4 32) (.vfmul (hdAt w 78) (w.extractLsb' 70 8) (srcAt w 53) (srcAt w 36) (w.extractLsb' 0 4))
  | 0x103 => sel (zero w 4 15) (.vfma (hdAt w 78) (w.extractLsb' 70 8) (srcAt w 53) (srcAt w 36) (srcAt w 19) (w.extractLsb' 0 4))
  | 0x104 => sel (zero w 0 36) (.vfmin (hdAt w 78) (w.extractLsb' 70 8) (srcAt w 53) (srcAt w 36))
  | 0x105 => sel (zero w 0 36) (.vfmax (hdAt w 78) (w.extractLsb' 70 8) (srcAt w 53) (srcAt w 36))
  | 0x106 => sel (zero w 3 33 && zero w 73 5) (.vfcmp (hdAt w 78) (w.extractLsb' 70 3) (srcAt w 53) (srcAt w 36) (w.extractLsb' 0 3))
  | 0x107 => sel (zero w 0 53) (.vfclass (hdAt w 78) (w.extractLsb' 70 8) (srcAt w 53))
  | 0x108 => sel (zero w 0 53) (.vrcp (hdAt w 78) (w.extractLsb' 70 8) (srcAt w 53))
  | 0x109 => sel (zero w 0 53) (.vrsq (hdAt w 78) (w.extractLsb' 70 8) (srcAt w 53))
  | 0x10A => sel (zero w 0 53) (.vsqrt (hdAt w 78) (w.extractLsb' 70 8) (srcAt w 53))
  | 0x10B => sel (zero w 0 53) (.vexp2 (hdAt w 78) (w.extractLsb' 70 8) (srcAt w 53))
  | 0x10C => sel (zero w 0 53) (.vlog2 (hdAt w 78) (w.extractLsb' 70 8) (srcAt w 53))
  | 0x180 => sel (zero w 14 39) (.vcvt (hdAt w 78) (w.extractLsb' 70 8) (srcAt w 53) (w.extractLsb' 13 1) (w.extractLsb' 12 1) (w.extractLsb' 8 4) (w.extractLsb' 4 4) (w.extractLsb' 0 4))
  | 0x181 => sel (zero w 14 22) (.vqnt (hdAt w 78) (w.extractLsb' 70 8) (srcAt w 53) (srcAt w 36) (w.extractLsb' 13 1) (w.extractLsb' 12 1) (w.extractLsb' 8 4) (w.extractLsb' 4 4) (w.extractLsb' 0 4))
  | 0x182 => sel (zero w 14 22) (.vdqt (hdAt w 78) (w.extractLsb' 70 8) (srcAt w 53) (srcAt w 36) (w.extractLsb' 13 1) (w.extractLsb' 12 1) (w.extractLsb' 8 4) (w.extractLsb' 4 4) (w.extractLsb' 0 4))
  | 0x188 => sel (zero w 0 53) (.vmov (hdAt w 78) (w.extractLsb' 70 8) (srcAt w 53))
  | 0x189 => sel (zero w 0 4 && zero w 36 34) (.vmovi (hdAt w 78) (w.extractLsb' 70 8) (w.extractLsb' 4 32))
  | 0x18A => sel (zero w 0 53) (.vmovrx (hdAt w 78) (w.extractLsb' 70 8) (srcAt w 53))
  | 0x18B => sel (zero w 0 36 && zero w 70 8) (.vmovxr (hdAt w 78) (srcAt w 53) (srcAt w 36))
  | 0x200 => sel (zero w 2 51 && zero w 73 5) (.pset (hdAt w 78) (w.extractLsb' 70 3) (srcAt w 53) (w.extractLsb' 0 2))
  | 0x201 => sel (zero w 8 62 && zero w 73 5) (.pand (hdAt w 78) (w.extractLsb' 70 3) (w.extractLsb' 0 3) (w.extractLsb' 3 1) (w.extractLsb' 4 3) (w.extractLsb' 7 1))
  | 0x202 => sel (zero w 8 62 && zero w 73 5) (.por (hdAt w 78) (w.extractLsb' 70 3) (w.extractLsb' 0 3) (w.extractLsb' 3 1) (w.extractLsb' 4 3) (w.extractLsb' 7 1))
  | 0x203 => sel (zero w 8 62 && zero w 73 5) (.pxor (hdAt w 78) (w.extractLsb' 70 3) (w.extractLsb' 0 3) (w.extractLsb' 3 1) (w.extractLsb' 4 3) (w.extractLsb' 7 1))
  | 0x204 => sel (zero w 3 67 && zero w 73 5) (.pnot (hdAt w 78) (w.extractLsb' 70 3) (w.extractLsb' 0 3))
  | 0x205 => sel (zero w 0 53 && zero w 73 5) (.pmk (hdAt w 78) (w.extractLsb' 70 3) (srcAt w 53))
  | 0x208 => sel (zero w 6 64) (.vote (hdAt w 78) (w.extractLsb' 70 8) (w.extractLsb' 0 3) (w.extractLsb' 3 1) (w.extractLsb' 4 2))
  | 0x209 => if (w.extractLsb' 0 4).toNat > 10 then .illOpcode else sel (zero w 4 49) (.vredk (hdAt w 78) (w.extractLsb' 70 8) (srcAt w 53) (w.extractLsb' 0 4))
  | 0x20A => if (w.extractLsb' 0 4).toNat > 10 then .illOpcode else sel (zero w 5 48) (.vscan (hdAt w 78) (w.extractLsb' 70 8) (srcAt w 53) (w.extractLsb' 0 4) (w.extractLsb' 4 1))
  | 0x20B => sel (zero w 0 36) (.vlane (hdAt w 78) (w.extractLsb' 70 8) (srcAt w 53) (srcAt w 36))
  | 0x280 => sel (zero w 0 3) (.vbr (w.extractLsb' 82 4) (w.extractLsb' 78 4) (w.extractLsb' 74 4) (w.extractLsb' 70 4) (w.extractLsb' 66 4) (w.extractLsb' 54 12) (w.extractLsb' 42 12) (w.extractLsb' 30 12) (w.extractLsb' 18 12) (w.extractLsb' 6 12) (w.extractLsb' 4 2) (w.extractLsb' 3 1))
  | 0x281 => sel (zero w 13 40 && zero w 70 8) (.vjmp (hdAt w 78) (srcAt w 53) (w.extractLsb' 0 12) (w.extractLsb' 12 1))
  | 0x282 => sel (zero w 0 82) (.vland (w.extractLsb' 82 4))
  | 0x283 => sel (zero w 14 39) (.vcall (hdAt w 78) (w.extractLsb' 70 8) (srcAt w 53) (w.extractLsb' 0 12) (w.extractLsb' 12 1) (w.extractLsb' 13 1))
  | 0x284 => sel (zero w 0 82) (.regang (w.extractLsb' 82 4))
  | 0x285 => sel (zero w 0 78) (.lend (hdAt w 78))
  | 0x286 => sel (zero w 16 66) (.safept (w.extractLsb' 82 4) (w.extractLsb' 0 16))
  | 0x287 => sel (zero w 0 78) (.vnop (hdAt w 78))
  | 0x300 => sel (zero w 0 6 && zero w 19 9 && zero w 36 17) (.vld (hdAt w 78) (w.extractLsb' 70 8) (srcAt w 53) (w.extractLsb' 28 8) (w.extractLsb' 16 3) (w.extractLsb' 13 3) (w.extractLsb' 12 1) (w.extractLsb' 11 1) (w.extractLsb' 7 4) (w.extractLsb' 6 1))
  | 0x301 => sel (zero w 0 13 && zero w 19 9 && zero w 70 8) (.vst (hdAt w 78) (srcAt w 53) (srcAt w 36) (w.extractLsb' 28 8) (w.extractLsb' 16 3) (w.extractLsb' 13 3))
  | 0x302 => sel (zero w 0 3 && zero w 36 17) (.vlda (hdAt w 78) (w.extractLsb' 70 8) (srcAt w 53) (w.extractLsb' 19 17) (w.extractLsb' 16 3) (w.extractLsb' 13 3) (w.extractLsb' 12 1) (w.extractLsb' 11 1) (w.extractLsb' 7 4) (w.extractLsb' 6 1) (w.extractLsb' 3 3))
  | 0x303 => sel (zero w 0 3 && zero w 6 7 && zero w 70 8) (.vsta (hdAt w 78) (srcAt w 53) (srcAt w 36) (w.extractLsb' 19 17) (w.extractLsb' 16 3) (w.extractLsb' 13 3) (w.extractLsb' 3 3))
  | 0x304 => sel (zero w 0 3 && zero w 6 7 && zero w 36 17) (.vlds (hdAt w 78) (w.extractLsb' 70 8) (srcAt w 53) (w.extractLsb' 19 17) (w.extractLsb' 16 3) (w.extractLsb' 13 3) (w.extractLsb' 3 3))
  | 0x305 => sel (zero w 0 3 && zero w 6 7 && zero w 70 8) (.vsts (hdAt w 78) (srcAt w 53) (srcAt w 36) (w.extractLsb' 19 17) (w.extractLsb' 16 3) (w.extractLsb' 13 3) (w.extractLsb' 3 3))
  | 0x306 => sel (zero w 0 6 && zero w 11 17 && zero w 36 17 && zero w 70 8) (.vpft (hdAt w 78) (srcAt w 53) (w.extractLsb' 28 8) (w.extractLsb' 7 4) (w.extractLsb' 6 1))
  | 0x307 => if (w.extractLsb' 7 4).toNat > 10 then .illOpcode else sel (zero w 0 2 && zero w 11 2) (.vatom (hdAt w 78) (w.extractLsb' 70 8) (srcAt w 53) (srcAt w 36) (w.extractLsb' 19 17) (w.extractLsb' 16 3) (w.extractLsb' 13 3) (w.extractLsb' 7 4) (w.extractLsb' 6 1) (w.extractLsb' 3 3) (w.extractLsb' 2 1))
  | 0x308 => sel (zero w 0 13 && zero w 19 59) (.vfence (hdAt w 78) (w.extractLsb' 16 3) (w.extractLsb' 13 3))
  | 0x309 => sel (zero w 12 58 && zero w 78 4) (.txbegin (w.extractLsb' 82 4) (w.extractLsb' 70 8) (w.extractLsb' 0 12))
  | 0x30A => sel (zero w 0 82) (.txend (w.extractLsb' 82 4))
  | 0x30B => sel (zero w 8 70) (.txabort (hdAt w 78) (w.extractLsb' 0 8))
  | 0x380 => sel (zero w 4 49) (.vaccr (hdAt w 78) (w.extractLsb' 70 8) (srcAt w 53) (w.extractLsb' 0 4))
  | 0x381 => sel (zero w 5 31 && zero w 70 8) (.vaccw (hdAt w 78) (srcAt w 53) (srcAt w 36) (w.extractLsb' 0 4) (w.extractLsb' 4 1))
  | _ => .illOpcode

/-- Step 5 of R215 on a decoded word: the operand checks that depend on the word alone. -/
def Decoded.checked : Decoded → Decoded
  | .ok i => if i.wf then .ok i else .illOperand
  | r => r

/-- The S-stream decoder. -/
def decodeScalar (w : Word) : Decoded := (decodeScalarRaw w).checked

/-- The L-stream decoder. -/
def decodeLane (w : BitVec 96) : Decoded := (decodeLaneRaw w).checked

/-- The instruction read from nbits bits numbered as the opcode table numbers them: 32 bits are one
S-stream word, 96 bits one lane instruction, least significant word first (R6). -/
def decodeTableWord (nbits w : Nat) : Option Instr :=
  match (if nbits = 96 then decodeLane (BitVec.ofNat 96 w) else decodeScalar (BitVec.ofNat 32 w)) with
  | .ok i => some i
  | .illOpcode => none
  | .illOperand => none

/-- The bits of a source field (R101). -/
def srcBits (s : Src) : BitVec 17 := s.reg ++ s.lr ++ s.pat ++ s.prm

/-- STALL, PN, PI (R202). -/
def hdBits (h : Hd) : BitVec 8 := h.stall ++ h.pn ++ h.pi

/-- The S-stream word of an instruction (R206, R212 to R214); zero for every other constructor. -/
def encodeScalar : Instr → Word
  | .sadd d a b => (0x01#6 ++ d ++ a ++ b ++ 0x00#8 : BitVec 32)
  | .ssub d a b => (0x01#6 ++ d ++ a ++ b ++ 0x01#8 : BitVec 32)
  | .smul d a b => (0x01#6 ++ d ++ a ++ b ++ 0x02#8 : BitVec 32)
  | .smulh d a b => (0x01#6 ++ d ++ a ++ b ++ 0x03#8 : BitVec 32)
  | .smulhu d a b => (0x01#6 ++ d ++ a ++ b ++ 0x04#8 : BitVec 32)
  | .sand d a b => (0x01#6 ++ d ++ a ++ b ++ 0x08#8 : BitVec 32)
  | .sor d a b => (0x01#6 ++ d ++ a ++ b ++ 0x09#8 : BitVec 32)
  | .sxor d a b => (0x01#6 ++ d ++ a ++ b ++ 0x0A#8 : BitVec 32)
  | .sshl d a b => (0x01#6 ++ d ++ a ++ b ++ 0x0C#8 : BitVec 32)
  | .sshr d a b => (0x01#6 ++ d ++ a ++ b ++ 0x0D#8 : BitVec 32)
  | .ssra d a b => (0x01#6 ++ d ++ a ++ b ++ 0x0E#8 : BitVec 32)
  | .smin d a b => (0x01#6 ++ d ++ a ++ b ++ 0x10#8 : BitVec 32)
  | .smax d a b => (0x01#6 ++ d ++ a ++ b ++ 0x11#8 : BitVec 32)
  | .sminu d a b => (0x01#6 ++ d ++ a ++ b ++ 0x12#8 : BitVec 32)
  | .smaxu d a b => (0x01#6 ++ d ++ a ++ b ++ 0x13#8 : BitVec 32)
  | .sclz d a => (0x01#6 ++ d ++ a ++ 0#6 ++ 0x18#8 : BitVec 32)
  | .spopc d a => (0x01#6 ++ d ++ a ++ 0#6 ++ 0x19#8 : BitVec 32)
  | .ssel d a b p => (0x01#6 ++ d ++ a ++ b ++ 4#5 ++ p : BitVec 32)
  | .scmp n a b c => (0x01#6 ++ 0#3 ++ n ++ a ++ b ++ 8#5 ++ c : BitVec 32)
  | .saddi d a i => (0x02#6 ++ d ++ a ++ i : BitVec 32)
  | .sandi d a i => (0x03#6 ++ d ++ a ++ i : BitVec 32)
  | .sori d a i => (0x04#6 ++ d ++ a ++ i : BitVec 32)
  | .sxori d a i => (0x05#6 ++ d ++ a ++ i : BitVec 32)
  | .sshli d a i => (0x06#6 ++ d ++ a ++ i : BitVec 32)
  | .sshri d a i => (0x07#6 ++ d ++ a ++ i : BitVec 32)
  | .slui d i => (0x08#6 ++ d ++ i : BitVec 32)
  | .sldB d b o => (0x10#6 ++ d ++ b ++ o : BitVec 32)
  | .sldH d b o => (0x11#6 ++ d ++ b ++ o : BitVec 32)
  | .sldW d b o => (0x12#6 ++ d ++ b ++ o : BitVec 32)
  | .sstB v b o => (0x13#6 ++ v ++ b ++ o : BitVec 32)
  | .sstH v b o => (0x14#6 ++ v ++ b ++ o : BitVec 32)
  | .sstW v b o => (0x15#6 ++ v ++ b ++ o : BitVec 32)
  | .sldWSync d b ord scp rmt off => (0x16#6 ++ d ++ b ++ ord ++ scp ++ rmt ++ off : BitVec 32)
  | .sstWSync v b ord scp rmt off => (0x17#6 ++ v ++ b ++ ord ++ scp ++ rmt ++ off : BitVec 32)
  | .sldBS d b o => (0x18#6 ++ d ++ b ++ o : BitVec 32)
  | .sldHS d b o => (0x19#6 ++ d ++ b ++ o : BitVec 32)
  | .sldWS d b o => (0x1A#6 ++ d ++ b ++ o : BitVec 32)
  | .sstBS v b o => (0x1B#6 ++ v ++ b ++ o : BitVec 32)
  | .sstHS v b o => (0x1C#6 ++ v ++ b ++ o : BitVec 32)
  | .sstWS v b o => (0x1D#6 ++ v ++ b ++ o : BitVec 32)
  | .sldWSSync d b ord scp rmt off => (0x1E#6 ++ d ++ b ++ ord ++ scp ++ rmt ++ off : BitVec 32)
  | .sstWSSync v b ord scp rmt off => (0x1F#6 ++ v ++ b ++ ord ++ scp ++ rmt ++ off : BitVec 32)
  | .sbr neg b o => (0x20#6 ++ neg ++ b ++ o : BitVec 32)
  | .sj o => (0x20#6 ++ 0#4 ++ o : BitVec 32)
  | .scall d i => (0x21#6 ++ d ++ i : BitVec 32)
  | .sret a => (0x22#6 ++ 0#6 ++ a ++ 0#14 : BitVec 32)
  | .swin i => (0x24#6 ++ 0#6 ++ i : BitVec 32)
  | .lgo cb t => (0x25#6 ++ cb ++ t : BitVec 32)
  | .lwait n => (0x26#6 ++ 0#6 ++ n : BitVec 32)
  | .pclose p => (0x28#6 ++ 0#23 ++ p : BitVec 32)
  | .pwait a p => (0x29#6 ++ 0#6 ++ a ++ 0#11 ++ p : BitVec 32)
  | .xfence scp t f => (0x2A#6 ++ 0#7 ++ scp ++ t ++ f : BitVec 32)
  | .fence scp kind => (0x2B#6 ++ 0#20 ++ scp ++ kind : BitVec 32)
  | .barinit a e => (0x2C#6 ++ 0#6 ++ a ++ 0#6 ++ e : BitVec 32)
  | .bararr a b => (0x2D#6 ++ 0#6 ++ a ++ b ++ 0#8 : BitVec 32)
  | .barwait a b => (0x2E#6 ++ 0#6 ++ a ++ b ++ 0#8 : BitVec 32)
  | .setfmt a b => (0x30#6 ++ 0#6 ++ a ++ b ++ 0#8 : BitVec 32)
  | .stcfg a b => (0x31#6 ++ 0#6 ++ a ++ b ++ 0#8 : BitVec 32)
  | .gang a b => (0x32#6 ++ 0#6 ++ a ++ b ++ 0#8 : BitVec 32)
  | .retire a b => (0x33#6 ++ 0#6 ++ a ++ b ++ 0#8 : BitVec 32)
  | .sexit  => (0x34#6 ++ 0#26 : BitVec 32)
  | .snop  => (0x3B#6 ++ 0#26 : BitVec 32)
  | .scsrr d r => (0x3C#6 ++ d ++ 0#8 ++ r : BitVec 32)
  | .scsrw a r => (0x3D#6 ++ 0#6 ++ a ++ 0#2 ++ r : BitVec 32)
  | .trap c => (0x3E#6 ++ 0#18 ++ c : BitVec 32)
  | .tret  => (0x3F#6 ++ 0#26 : BitVec 32)
  | .shCopy d a blk => (0x38#6 ++ d ++ a ++ 0#6 ++ 0x00#7 ++ blk : BitVec 32)
  | .shTld d a blk => (0x38#6 ++ d ++ a ++ 0#6 ++ 0x01#7 ++ blk : BitVec 32)
  | .shTst d a blk => (0x38#6 ++ d ++ a ++ 0#6 ++ 0x02#7 ++ blk : BitVec 32)
  | .shQnt d a blk => (0x38#6 ++ d ++ a ++ 0#6 ++ 0x03#7 ++ blk : BitVec 32)
  | .shFill d a blk => (0x38#6 ++ d ++ a ++ 0#6 ++ 0x04#7 ++ blk : BitVec 32)
  | .mxMma d a blk => (0x38#6 ++ d ++ a ++ 0#6 ++ 0x10#7 ++ blk : BitVec 32)
  | .mxMmaj d a blk => (0x38#6 ++ d ++ a ++ 0#6 ++ 0x11#7 ++ blk : BitVec 32)
  | .mxUnf d a blk => (0x38#6 ++ d ++ a ++ 0#6 ++ 0x12#7 ++ blk : BitVec 32)
  | .mxMv d a blk => (0x38#6 ++ d ++ a ++ 0#6 ++ 0x13#7 ++ blk : BitVec 32)
  | .mxOut d a blk => (0x38#6 ++ d ++ a ++ 0#6 ++ 0x14#7 ++ blk : BitVec 32)
  | .mxZero d a blk => (0x38#6 ++ d ++ a ++ 0#6 ++ 0x15#7 ++ blk : BitVec 32)
  | .mxSt d a blk => (0x38#6 ++ d ++ a ++ 0#6 ++ 0x16#7 ++ blk : BitVec 32)
  | .gaGath d a blk => (0x38#6 ++ d ++ a ++ 0#6 ++ 0x28#7 ++ blk : BitVec 32)
  | .gaScat d a blk => (0x38#6 ++ d ++ a ++ 0#6 ++ 0x29#7 ++ blk : BitVec 32)
  | .gaSegred d a blk => (0x38#6 ++ d ++ a ++ 0#6 ++ 0x2A#7 ++ blk : BitVec 32)
  | .coAllred d a blk => (0x38#6 ++ d ++ a ++ 0#6 ++ 0x30#7 ++ blk : BitVec 32)
  | .coBcast d a blk => (0x38#6 ++ d ++ a ++ 0#6 ++ 0x31#7 ++ blk : BitVec 32)
  | .coPut d a blk => (0x38#6 ++ d ++ a ++ 0#6 ++ 0x32#7 ++ blk : BitVec 32)
  | .coGet d a blk => (0x38#6 ++ d ++ a ++ 0#6 ++ 0x33#7 ++ blk : BitVec 32)
  | .coSignal d a blk => (0x38#6 ++ d ++ a ++ 0#6 ++ 0x34#7 ++ blk : BitVec 32)
  | .ssRun d a blk => (0x38#6 ++ d ++ a ++ 0#6 ++ 0x40#7 ++ blk : BitVec 32)
  | .ssPeek d a blk => (0x38#6 ++ d ++ a ++ 0#6 ++ 0x41#7 ++ blk : BitVec 32)
  | .wdNext d a blk => (0x38#6 ++ d ++ a ++ 0#6 ++ 0x48#7 ++ blk : BitVec 32)
  | .wdLaunch d a blk => (0x38#6 ++ d ++ a ++ 0#6 ++ 0x49#7 ++ blk : BitVec 32)
  | .tkNext d a blk => (0x38#6 ++ d ++ a ++ 0#6 ++ 0x50#7 ++ blk : BitVec 32)
  | .tkDone d a blk => (0x38#6 ++ d ++ a ++ 0#6 ++ 0x51#7 ++ blk : BitVec 32)
  | .tkAdd d a b blk => (0x38#6 ++ d ++ a ++ b ++ 0x52#7 ++ blk : BitVec 32)
  | .fmQuery d a b blk => (0x38#6 ++ d ++ a ++ b ++ 0x60#7 ++ blk : BitVec 32)
  | .fmReq d a b blk => (0x38#6 ++ d ++ a ++ b ++ 0x61#7 ++ blk : BitVec 32)
  | _ => 0

/-- The 96-bit word of a lane instruction (R202 to R211); zero for every other constructor. -/
def encodeLane : Instr → BitVec 96
  | .vadd h d a b sat =>
    (0x001#10 ++ hdBits h ++ d ++ srcBits a ++ srcBits b ++ 0#34 ++ sat : BitVec 96)
  | .vsub h d a b sat =>
    (0x002#10 ++ hdBits h ++ d ++ srcBits a ++ srcBits b ++ 0#34 ++ sat : BitVec 96)
  | .vmul h d a b =>
    (0x003#10 ++ hdBits h ++ d ++ srcBits a ++ srcBits b ++ 0#36 : BitVec 96)
  | .vmulh h d a b =>
    (0x004#10 ++ hdBits h ++ d ++ srcBits a ++ srcBits b ++ 0#36 : BitVec 96)
  | .vmulhu h d a b =>
    (0x005#10 ++ hdBits h ++ d ++ srcBits a ++ srcBits b ++ 0#36 : BitVec 96)
  | .vmin h d a b =>
    (0x007#10 ++ hdBits h ++ d ++ srcBits a ++ srcBits b ++ 0#36 : BitVec 96)
  | .vmax h d a b =>
    (0x008#10 ++ hdBits h ++ d ++ srcBits a ++ srcBits b ++ 0#36 : BitVec 96)
  | .vminu h d a b =>
    (0x009#10 ++ hdBits h ++ d ++ srcBits a ++ srcBits b ++ 0#36 : BitVec 96)
  | .vmaxu h d a b =>
    (0x00A#10 ++ hdBits h ++ d ++ srcBits a ++ srcBits b ++ 0#36 : BitVec 96)
  | .vmad h d a b c sat =>
    (0x006#10 ++ hdBits h ++ d ++ srcBits a ++ srcBits b ++ srcBits c ++ 0#17 ++ sat : BitVec 96)
  | .vabs h d a sat =>
    (0x00B#10 ++ hdBits h ++ d ++ srcBits a ++ 0#52 ++ sat : BitVec 96)
  | .vneg h d a sat =>
    (0x00C#10 ++ hdBits h ++ d ++ srcBits a ++ 0#52 ++ sat : BitVec 96)
  | .vicmp h p a b cc =>
    (0x00D#10 ++ hdBits h ++ 0#5 ++ p ++ srcBits a ++ srcBits b ++ 0#33 ++ cc : BitVec 96)
  | .vsel h d a b q nq =>
    (0x00E#10 ++ hdBits h ++ d ++ srcBits a ++ srcBits b ++ 0#32 ++ nq ++ q : BitVec 96)
  | .vdiv h d a b c m =>
    (0x010#10 ++ hdBits h ++ d ++ srcBits a ++ srcBits b ++ srcBits c ++ m : BitVec 96)
  | .vdivu h d a b c m =>
    (0x011#10 ++ hdBits h ++ d ++ srcBits a ++ srcBits b ++ srcBits c ++ m : BitVec 96)
  | .vrem h d a b c m =>
    (0x012#10 ++ hdBits h ++ d ++ srcBits a ++ srcBits b ++ srcBits c ++ m : BitVec 96)
  | .vremu h d a b c m =>
    (0x013#10 ++ hdBits h ++ d ++ srcBits a ++ srcBits b ++ srcBits c ++ m : BitVec 96)
  | .vand h d a b =>
    (0x080#10 ++ hdBits h ++ d ++ srcBits a ++ srcBits b ++ 0#36 : BitVec 96)
  | .vor h d a b =>
    (0x081#10 ++ hdBits h ++ d ++ srcBits a ++ srcBits b ++ 0#36 : BitVec 96)
  | .vxor h d a b =>
    (0x082#10 ++ hdBits h ++ d ++ srcBits a ++ srcBits b ++ 0#36 : BitVec 96)
  | .vandn h d a b =>
    (0x083#10 ++ hdBits h ++ d ++ srcBits a ++ srcBits b ++ 0#36 : BitVec 96)
  | .vshl h d a b n i =>
    (0x084#10 ++ hdBits h ++ d ++ srcBits a ++ srcBits b ++ 0#30 ++ i ++ n : BitVec 96)
  | .vshr h d a b n i =>
    (0x085#10 ++ hdBits h ++ d ++ srcBits a ++ srcBits b ++ 0#30 ++ i ++ n : BitVec 96)
  | .vsra h d a b n i =>
    (0x086#10 ++ hdBits h ++ d ++ srcBits a ++ srcBits b ++ 0#30 ++ i ++ n : BitVec 96)
  | .vclz h d a =>
    (0x087#10 ++ hdBits h ++ d ++ srcBits a ++ 0#53 : BitVec 96)
  | .vpopc h d a =>
    (0x088#10 ++ hdBits h ++ d ++ srcBits a ++ 0#53 : BitVec 96)
  | .vbrev h d a =>
    (0x089#10 ++ hdBits h ++ d ++ srcBits a ++ 0#53 : BitVec 96)
  | .vbfx h d a b pos len sgn r =>
    (0x08A#10 ++ hdBits h ++ d ++ srcBits a ++ srcBits b ++ 0#24 ++ r ++ sgn ++ len ++ pos : BitVec 96)
  | .vbfi h d a b c pos len r =>
    (0x08B#10 ++ hdBits h ++ d ++ srcBits a ++ srcBits b ++ srcBits c ++ 0#7 ++ r ++ 0#1 ++ len ++ pos : BitVec 96)
  | .vprmb h d a b c sel i =>
    (0x08C#10 ++ hdBits h ++ d ++ srcBits a ++ srcBits b ++ srcBits c ++ 0#2 ++ i ++ sel : BitVec 96)
  | .vclmul h d a b =>
    (0x08D#10 ++ hdBits h ++ d ++ srcBits a ++ srcBits b ++ 0#36 : BitVec 96)
  | .vclmulh h d a b =>
    (0x08E#10 ++ hdBits h ++ d ++ srcBits a ++ srcBits b ++ 0#36 : BitVec 96)
  | .vfadd h d a b rm =>
    (0x100#10 ++ hdBits h ++ d ++ srcBits a ++ srcBits b ++ 0#32 ++ rm : BitVec 96)
  | .vfsub h d a b rm =>
    (0x101#10 ++ hdBits h ++ d ++ srcBits a ++ srcBits b ++ 0#32 ++ rm : BitVec 96)
  | .vfmul h d a b rm =>
    (0x102#10 ++ hdBits h ++ d ++ srcBits a ++ srcBits b ++ 0#32 ++ rm : BitVec 96)
  | .vfma h d a b c rm =>
    (0x103#10 ++ hdBits h ++ d ++ srcBits a ++ srcBits b ++ srcBits c ++ 0#15 ++ rm : BitVec 96)
  | .vfmin h d a b =>
    (0x104#10 ++ hdBits h ++ d ++ srcBits a ++ srcBits b ++ 0#36 : BitVec 96)
  | .vfmax h d a b =>
    (0x105#10 ++ hdBits h ++ d ++ srcBits a ++ srcBits b ++ 0#36 : BitVec 96)
  | .vfcmp h p a b cc =>
    (0x106#10 ++ hdBits h ++ 0#5 ++ p ++ srcBits a ++ srcBits b ++ 0#33 ++ cc : BitVec 96)
  | .vfclass h d a =>
    (0x107#10 ++ hdBits h ++ d ++ srcBits a ++ 0#53 : BitVec 96)
  | .vrcp h d a =>
    (0x108#10 ++ hdBits h ++ d ++ srcBits a ++ 0#53 : BitVec 96)
  | .vrsq h d a =>
    (0x109#10 ++ hdBits h ++ d ++ srcBits a ++ 0#53 : BitVec 96)
  | .vsqrt h d a =>
    (0x10A#10 ++ hdBits h ++ d ++ srcBits a ++ 0#53 : BitVec 96)
  | .vexp2 h d a =>
    (0x10B#10 ++ hdBits h ++ d ++ srcBits a ++ 0#53 : BitVec 96)
  | .vlog2 h d a =>
    (0x10C#10 ++ hdBits h ++ d ++ srcBits a ++ 0#53 : BitVec 96)
  | .vcvt h d a dt ds rm ft fs =>
    (0x180#10 ++ hdBits h ++ d ++ srcBits a ++ 0#39 ++ dt ++ ds ++ rm ++ ft ++ fs : BitVec 96)
  | .vqnt h d a b dt ds rm ft fs =>
    (0x181#10 ++ hdBits h ++ d ++ srcBits a ++ srcBits b ++ 0#22 ++ dt ++ ds ++ rm ++ ft ++ fs : BitVec 96)
  | .vdqt h d a b dt ds rm ft fs =>
    (0x182#10 ++ hdBits h ++ d ++ srcBits a ++ srcBits b ++ 0#22 ++ dt ++ ds ++ rm ++ ft ++ fs : BitVec 96)
  | .vmov h d a =>
    (0x188#10 ++ hdBits h ++ d ++ srcBits a ++ 0#53 : BitVec 96)
  | .vmovi h d imm =>
    (0x189#10 ++ hdBits h ++ d ++ 0#34 ++ imm ++ 0#4 : BitVec 96)
  | .vmovrx h d a =>
    (0x18A#10 ++ hdBits h ++ d ++ srcBits a ++ 0#53 : BitVec 96)
  | .vmovxr h a b =>
    (0x18B#10 ++ hdBits h ++ 0#8 ++ srcBits a ++ srcBits b ++ 0#36 : BitVec 96)
  | .pset h p a src =>
    (0x200#10 ++ hdBits h ++ 0#5 ++ p ++ srcBits a ++ 0#51 ++ src : BitVec 96)
  | .pand h p qa na qb nb =>
    (0x201#10 ++ hdBits h ++ 0#5 ++ p ++ 0#62 ++ nb ++ qb ++ na ++ qa : BitVec 96)
  | .por h p qa na qb nb =>
    (0x202#10 ++ hdBits h ++ 0#5 ++ p ++ 0#62 ++ nb ++ qb ++ na ++ qa : BitVec 96)
  | .pxor h p qa na qb nb =>
    (0x203#10 ++ hdBits h ++ 0#5 ++ p ++ 0#62 ++ nb ++ qb ++ na ++ qa : BitVec 96)
  | .pnot h p qa =>
    (0x204#10 ++ hdBits h ++ 0#5 ++ p ++ 0#67 ++ qa : BitVec 96)
  | .pmk h p a =>
    (0x205#10 ++ hdBits h ++ 0#5 ++ p ++ srcBits a ++ 0#53 : BitVec 96)
  | .vote h d q nq kind =>
    (0x208#10 ++ hdBits h ++ d ++ 0#64 ++ kind ++ nq ++ q : BitVec 96)
  | .vredk h d a op =>
    (0x209#10 ++ hdBits h ++ d ++ srcBits a ++ 0#49 ++ op : BitVec 96)
  | .vscan h d a op excl =>
    (0x20A#10 ++ hdBits h ++ d ++ srcBits a ++ 0#48 ++ excl ++ op : BitVec 96)
  | .vlane h d a b =>
    (0x20B#10 ++ hdBits h ++ d ++ srcBits a ++ srcBits b ++ 0#36 : BitVec 96)
  | .vbr stall p0 p1 p2 p3 t0 t1 t2 t3 rcv np u =>
    (0x280#10 ++ stall ++ p0 ++ p1 ++ p2 ++ p3 ++ t0 ++ t1 ++ t2 ++ t3 ++ rcv ++ np ++ u ++ 0#3 : BitVec 96)
  | .vjmp h a rcv u =>
    (0x281#10 ++ hdBits h ++ 0#8 ++ srcBits a ++ 0#40 ++ u ++ rcv : BitVec 96)
  | .vland stall =>
    (0x282#10 ++ stall ++ 0#82 : BitVec 96)
  | .vcall h d a off u ind =>
    (0x283#10 ++ hdBits h ++ d ++ srcBits a ++ 0#39 ++ ind ++ u ++ off : BitVec 96)
  | .regang stall =>
    (0x284#10 ++ stall ++ 0#82 : BitVec 96)
  | .lend h =>
    (0x285#10 ++ hdBits h ++ 0#78 : BitVec 96)
  | .safept stall idx =>
    (0x286#10 ++ stall ++ 0#66 ++ idx : BitVec 96)
  | .vnop h =>
    (0x287#10 ++ hdBits h ++ 0#78 : BitVec 96)
  | .vld h d a brec ord scp rmt inv rc rcl =>
    (0x300#10 ++ hdBits h ++ d ++ srcBits a ++ 0#17 ++ brec ++ 0#9 ++ ord ++ scp ++ rmt ++ inv ++ rc ++ rcl ++ 0#6 : BitVec 96)
  | .vst h a b brec ord scp =>
    (0x301#10 ++ hdBits h ++ 0#8 ++ srcBits a ++ srcBits b ++ brec ++ 0#9 ++ ord ++ scp ++ 0#13 : BitVec 96)
  | .vlda h d a off ord scp rmt inv rc rcl size =>
    (0x302#10 ++ hdBits h ++ d ++ srcBits a ++ 0#17 ++ off ++ ord ++ scp ++ rmt ++ inv ++ rc ++ rcl ++ size ++ 0#3 : BitVec 96)
  | .vsta h a b off ord scp size =>
    (0x303#10 ++ hdBits h ++ 0#8 ++ srcBits a ++ srcBits b ++ off ++ ord ++ scp ++ 0#7 ++ size ++ 0#3 : BitVec 96)
  | .vlds h d a off ord scp size =>
    (0x304#10 ++ hdBits h ++ d ++ srcBits a ++ 0#17 ++ off ++ ord ++ scp ++ 0#7 ++ size ++ 0#3 : BitVec 96)
  | .vsts h a b off ord scp size =>
    (0x305#10 ++ hdBits h ++ 0#8 ++ srcBits a ++ srcBits b ++ off ++ ord ++ scp ++ 0#7 ++ size ++ 0#3 : BitVec 96)
  | .vpft h a brec rc rcl =>
    (0x306#10 ++ hdBits h ++ 0#8 ++ srcBits a ++ 0#17 ++ brec ++ 0#17 ++ rc ++ rcl ++ 0#6 : BitVec 96)
  | .vatom h d a b off ord scp aop far size asp =>
    (0x307#10 ++ hdBits h ++ d ++ srcBits a ++ srcBits b ++ off ++ ord ++ scp ++ 0#2 ++ aop ++ far ++ size ++ asp ++ 0#2 : BitVec 96)
  | .vfence h kind scp =>
    (0x308#10 ++ hdBits h ++ 0#59 ++ kind ++ scp ++ 0#13 : BitVec 96)
  | .txbegin stall d off =>
    (0x309#10 ++ stall ++ 0#4 ++ d ++ 0#58 ++ off : BitVec 96)
  | .txend stall =>
    (0x30A#10 ++ stall ++ 0#82 : BitVec 96)
  | .txabort h code =>
    (0x30B#10 ++ hdBits h ++ 0#70 ++ code : BitVec 96)
  | .vaccr h d a m =>
    (0x380#10 ++ hdBits h ++ d ++ srcBits a ++ 0#49 ++ m : BitVec 96)
  | .vaccw h a b m add =>
    (0x381#10 ++ hdBits h ++ 0#8 ++ srcBits a ++ srcBits b ++ 0#31 ++ add ++ m : BitVec 96)
  | _ => 0

/-- The stream a constructor belongs to: 0 the S-stream, 1 the L-stream, 2 an event of the device. -/
def Instr.stream : Instr → Nat
  | .sadd _ _ _ => 0
  | .ssub _ _ _ => 0
  | .smul _ _ _ => 0
  | .smulh _ _ _ => 0
  | .smulhu _ _ _ => 0
  | .sand _ _ _ => 0
  | .sor _ _ _ => 0
  | .sxor _ _ _ => 0
  | .sshl _ _ _ => 0
  | .sshr _ _ _ => 0
  | .ssra _ _ _ => 0
  | .smin _ _ _ => 0
  | .smax _ _ _ => 0
  | .sminu _ _ _ => 0
  | .smaxu _ _ _ => 0
  | .sclz _ _ => 0
  | .spopc _ _ => 0
  | .ssel _ _ _ _ => 0
  | .scmp _ _ _ _ => 0
  | .saddi _ _ _ => 0
  | .sandi _ _ _ => 0
  | .sori _ _ _ => 0
  | .sxori _ _ _ => 0
  | .sshli _ _ _ => 0
  | .sshri _ _ _ => 0
  | .slui _ _ => 0
  | .sldB _ _ _ => 0
  | .sldH _ _ _ => 0
  | .sldW _ _ _ => 0
  | .sstB _ _ _ => 0
  | .sstH _ _ _ => 0
  | .sstW _ _ _ => 0
  | .sldWSync _ _ _ _ _ _ => 0
  | .sstWSync _ _ _ _ _ _ => 0
  | .sldBS _ _ _ => 0
  | .sldHS _ _ _ => 0
  | .sldWS _ _ _ => 0
  | .sstBS _ _ _ => 0
  | .sstHS _ _ _ => 0
  | .sstWS _ _ _ => 0
  | .sldWSSync _ _ _ _ _ _ => 0
  | .sstWSSync _ _ _ _ _ _ => 0
  | .sbr _ _ _ => 0
  | .sj _ => 0
  | .scall _ _ => 0
  | .sret _ => 0
  | .swin _ => 0
  | .lgo _ _ => 0
  | .lwait _ => 0
  | .pclose _ => 0
  | .pwait _ _ => 0
  | .xfence _ _ _ => 0
  | .fence _ _ => 0
  | .barinit _ _ => 0
  | .bararr _ _ => 0
  | .barwait _ _ => 0
  | .setfmt _ _ => 0
  | .stcfg _ _ => 0
  | .gang _ _ => 0
  | .retire _ _ => 0
  | .sexit => 0
  | .snop => 0
  | .scsrr _ _ => 0
  | .scsrw _ _ => 0
  | .trap _ => 0
  | .tret => 0
  | .shCopy _ _ _ => 0
  | .shTld _ _ _ => 0
  | .shTst _ _ _ => 0
  | .shQnt _ _ _ => 0
  | .shFill _ _ _ => 0
  | .mxMma _ _ _ => 0
  | .mxMmaj _ _ _ => 0
  | .mxUnf _ _ _ => 0
  | .mxMv _ _ _ => 0
  | .mxOut _ _ _ => 0
  | .mxZero _ _ _ => 0
  | .mxSt _ _ _ => 0
  | .gaGath _ _ _ => 0
  | .gaScat _ _ _ => 0
  | .gaSegred _ _ _ => 0
  | .coAllred _ _ _ => 0
  | .coBcast _ _ _ => 0
  | .coPut _ _ _ => 0
  | .coGet _ _ _ => 0
  | .coSignal _ _ _ => 0
  | .ssRun _ _ _ => 0
  | .ssPeek _ _ _ => 0
  | .wdNext _ _ _ => 0
  | .wdLaunch _ _ _ => 0
  | .tkNext _ _ _ => 0
  | .tkDone _ _ _ => 0
  | .tkAdd _ _ _ _ => 0
  | .fmQuery _ _ _ _ => 0
  | .fmReq _ _ _ _ => 0
  | .vadd _ _ _ _ _ => 1
  | .vsub _ _ _ _ _ => 1
  | .vmul _ _ _ _ => 1
  | .vmulh _ _ _ _ => 1
  | .vmulhu _ _ _ _ => 1
  | .vmad _ _ _ _ _ _ => 1
  | .vmin _ _ _ _ => 1
  | .vmax _ _ _ _ => 1
  | .vminu _ _ _ _ => 1
  | .vmaxu _ _ _ _ => 1
  | .vabs _ _ _ _ => 1
  | .vneg _ _ _ _ => 1
  | .vicmp _ _ _ _ _ => 1
  | .vsel _ _ _ _ _ _ => 1
  | .vdiv _ _ _ _ _ _ => 1
  | .vdivu _ _ _ _ _ _ => 1
  | .vrem _ _ _ _ _ _ => 1
  | .vremu _ _ _ _ _ _ => 1
  | .vand _ _ _ _ => 1
  | .vor _ _ _ _ => 1
  | .vxor _ _ _ _ => 1
  | .vandn _ _ _ _ => 1
  | .vshl _ _ _ _ _ _ => 1
  | .vshr _ _ _ _ _ _ => 1
  | .vsra _ _ _ _ _ _ => 1
  | .vclz _ _ _ => 1
  | .vpopc _ _ _ => 1
  | .vbrev _ _ _ => 1
  | .vbfx _ _ _ _ _ _ _ _ => 1
  | .vbfi _ _ _ _ _ _ _ _ => 1
  | .vprmb _ _ _ _ _ _ _ => 1
  | .vclmul _ _ _ _ => 1
  | .vclmulh _ _ _ _ => 1
  | .vfadd _ _ _ _ _ => 1
  | .vfsub _ _ _ _ _ => 1
  | .vfmul _ _ _ _ _ => 1
  | .vfma _ _ _ _ _ _ => 1
  | .vfmin _ _ _ _ => 1
  | .vfmax _ _ _ _ => 1
  | .vfcmp _ _ _ _ _ => 1
  | .vfclass _ _ _ => 1
  | .vrcp _ _ _ => 1
  | .vrsq _ _ _ => 1
  | .vsqrt _ _ _ => 1
  | .vexp2 _ _ _ => 1
  | .vlog2 _ _ _ => 1
  | .vcvt _ _ _ _ _ _ _ _ => 1
  | .vqnt _ _ _ _ _ _ _ _ _ => 1
  | .vdqt _ _ _ _ _ _ _ _ _ => 1
  | .vmov _ _ _ => 1
  | .vmovi _ _ _ => 1
  | .vmovrx _ _ _ => 1
  | .vmovxr _ _ _ => 1
  | .pset _ _ _ _ => 1
  | .pand _ _ _ _ _ _ => 1
  | .por _ _ _ _ _ _ => 1
  | .pxor _ _ _ _ _ _ => 1
  | .pnot _ _ _ => 1
  | .pmk _ _ _ => 1
  | .vote _ _ _ _ _ => 1
  | .vredk _ _ _ _ => 1
  | .vscan _ _ _ _ _ => 1
  | .vlane _ _ _ _ => 1
  | .vbr _ _ _ _ _ _ _ _ _ _ _ _ => 1
  | .vjmp _ _ _ _ => 1
  | .vland _ => 1
  | .vcall _ _ _ _ _ _ => 1
  | .regang _ => 1
  | .lend _ => 1
  | .safept _ _ => 1
  | .vnop _ => 1
  | .vld _ _ _ _ _ _ _ _ _ _ => 1
  | .vst _ _ _ _ _ _ => 1
  | .vlda _ _ _ _ _ _ _ _ _ _ _ => 1
  | .vsta _ _ _ _ _ _ _ => 1
  | .vlds _ _ _ _ _ _ _ => 1
  | .vsts _ _ _ _ _ _ _ => 1
  | .vpft _ _ _ _ _ => 1
  | .vatom _ _ _ _ _ _ _ _ _ _ _ => 1
  | .vfence _ _ _ => 1
  | .txbegin _ _ _ => 1
  | .txend _ => 1
  | .txabort _ _ => 1
  | .vaccr _ _ _ _ => 1
  | .vaccw _ _ _ _ _ => 1
  | .fixedLatencyWrite => 2
  | .variableLatencyResult _ => 2
  | .pathOperationComplete _ => 2
  | .engineOperationStart _ => 2
  | .rendezvousForm => 2
  | .taskTableWriteback _ => 2
  | .blockStart => 2
  | .blockEnd => 2
  | .regangRelease => 2
  | .issueAgingRise _ => 2
  | .park _ => 2
  | .parkRestore => 2
  | .teamStart _ _ _ _ => 2
  | .completionPublish => 2
  | .retireLatchForm => 2
  | .successorStart => 2
  | .trapDelivery => 2
  | .asyncTrapDelivery => 2
  | .xfenceDrainComplete => 2
  | .submission _ _ => 2
  | .dependencyEdgeCheck _ => 2
  | .preemptRequest _ => 2
  | .teamSave => 2
  | .drainTurnsSave => 2
  | .resume _ => 2
  | .slotBindComplete _ _ _ => 2
  | .xrespReplay _ _ _ => 2
  | .xrespXlate _ _ _ => 2
  | .xrespPerm _ _ _ => 2
  | .xrespRefuse _ _ _ => 2
  | .invalidateStage1 _ => 2
  | .invalidateStage2 _ => 2
  | .invalidationComplete _ => 2
  | .dieAssign _ _ => 2
  | .dieRelease _ => 2
  | .dieScrubComplete _ => 2
  | .dieReleaseComplete _ => 2
  | .wvcommit _ => 2
  | .contextCreate _ _ _ _ => 2
  | .contextEndHost _ => 2
  | .draftLoad _ => 2
  | .draftRemove _ => 2
  | .smpgo => 2
  | .counterRead _ => 2
  | .allowListWrite _ _ _ _ => 2
  | .devidWrite _ => 2
  | .hostRegisterWrite _ _ _ => 2
  | .powerGrant _ => 2
  | .operatingPointChange _ => 2
  | .linkWidthRequest _ _ => 2
  | .linkRetrainComplete _ _ => 2
  | .thermalThrottle _ => 2
  | .powerOn => 2
  | .bootPhaseTimeout => 2
  | .fundamentalReset => 2
  | .dieLoss _ => 2
  | .ioDieLoss => 2
  | .linkFailure _ => 2
  | .scaleupLaneLoss _ => 2
  | .uncorrectableError _ => 2
  | .patrolScrub _ => 2
  | .rekey _ => 2
  | .rekeySweepComplete _ => 2
  | .remoteAccessArrival _ _ _ => 2
  | .ptmExchange _ => 2
  | .atsInvalidation _ _ => 2
  | .ideKeySetGo _ _ _ => 2
  | .ideKeySetStop _ _ _ => 2
  | .ideIntegrityFailure _ => 2
  | .stopInterface _ => 2
  | .spdmRequest _ _ => 2
  | .tenantPolicySet _ _ => 2
  | .svnRaise _ _ => 2
  | .unallocatedEncoding _ => 2
  | .peerDeviceLoss _ => 2
  | .collectiveMessageArrival _ _ _ => 2
  | .linkLevelRetry _ => 2
  | .powerLoss => 2
  | .lockInterface _ => 2
  | .startInterface _ => 2
  | .cycleCounterIncrement => 2
  | .rateBudgetRefill _ => 2

/-- The words of a well-formed instruction, lowest address first (R6, R202, R206); an event has none. -/
def encode (i : Instr) : List Word :=
  match i.stream with
  | 0 => [encodeScalar i]
  | 1 => [(encodeLane i).extractLsb' 0 32, (encodeLane i).extractLsb' 32 32, (encodeLane i).extractLsb' 64 32]
  | _ => []

/-- Reading back the words that `encode` gives. -/
def decodeWords : List Word → Option Instr
  | [w] => decodeTableWord 32 w.toNat
  | [w0, w1, w2] => decodeTableWord 96 ((w2 ++ w1 ++ w0 : BitVec 96)).toNat
  | _ => none

end Sys2Proof
end

