-- ==== Sys2Proof/Config.lean ====
section
/-! DEFINITION. What an implementation fixes or the manual leaves open: free values, which nothing
in the model constrains, and the cryptography of the security processor. -/

namespace Sys2Proof.Config

/-- Free value number n: a word the manual does not determine (R428, R454: what an abandoned
operation leaves). UNVERIFIED, safe: nothing can be proved of it. Log 1. -/
opaque freeWord : Nat → Word

/-- Free choice number n between two outcomes that the manual allows (R3, R52, R106, R107, R181).
Log 1. -/
opaque freeBit : Nat → Bool

/-- Free natural number n, for choices among more than two allowed outcomes (R192, R321). Log 1. -/
opaque freeNat : Nat → Nat

/-- Which of zero and the least normal number a minifloat draft without subnormals takes for a value halfway between them
when both codes have bit 0 clear (R125 settles this for table drafts alone): a function of the format parameters and
the value. UNVERIFIED, safe. Log 11. -/
opaque freeTie : Nat → ℚ → Bool

/-- Whether the 96-byte signature (second argument) over the bytes (first) verifies against the
fused key (R493). The manual names the algorithm and gives no computation. Log 7. -/
opaque sigValid : List Byte → List Byte → Bool

/-- SHA-384 of a byte string (R496, R502), as a number below 2^384. Log 7. -/
opaque sha384 : List Byte → BitVec 384

/-- The identity that is fused at manufacture, which measurement 5 covers (R502). UNVERIFIED, safe: nothing can be proved
of it. Log 7. -/
opaque identity : BitVec 384

/-- The device identity chain that certificate slot 0 holds, ending at the Viwinov root (R502). UNVERIFIED, safe: nothing can
be proved of it. Log 7. -/
opaque identityChain : List Byte

/-- The enciphered body and tag of a dump (R481), from the tenant's key (R504) and plain bytes. Log 7. -/
opaque dumpCipher : BitVec 256 → List Byte → List Byte

/-- The power in W that a die draws at full activity at an operating point, from its entry in the OPP table (R494, R505): the
manual gives no figure. UNVERIFIED, safe. Log 31. -/
opaque fullPower : Nat → Nat

/-- The reserve in W of the I/O die and the stacks, within the total of R505. UNVERIFIED, safe. Log 31. -/
opaque powerReserve : Fin 5601

/-- Bytes 4 to 63 of a dump header (R481) from length, reason class, world, context, die and cycle count: the manual
names the fields and gives no layout. Log 7. -/
opaque dumpHeader : List Nat → List Byte

end Sys2Proof.Config
end

