-- ==== Sys2Proof/Machine/State.lean ====
section
/-! DEFINITION. The state of the device as plain data: every piece of state that the manual gives the
AZK-12, what decides who moves next, and the machine after power-on. -/

namespace Sys2Proof.Machine

/-- The memory of the 52-bit physical space (R464): listed bytes by address; an unlisted byte reads 0. -/
abbrev Memory := List Host.Cell

/-- The trap causes of R420. -/
inductive Cause where
  | illOpcode | illOperand | unimplOpt | stallShort | deadRead | frameHazard | landing | uniform
  | rstackOvf | safeptDist | misalign | xlate | perm | dataPoison | bounds | slotUnbound | scaleCount
  | jointMismatch | depUnderflow | succShape | dieLost | collErr | breakpoint
deriving DecidableEq, Repr

/-- Why the machine stops. Nothing in the manual but the loss of the I/O die stops the whole device. -/
inductive Fault where
  /-- Every device state is undefined after the loss of the I/O die until the next power-on (R31); raised by
  `step` and by every event but a power event while the I/O die is lost. Safe: nothing is claimed there. -/
  | deviceLost
deriving DecidableEq, Repr

/-- Why an instruction has no meaning here. -/
inductive Refusal where
  /-- Raised by `exec` for an instruction not yet modelled. Safe. -/
  | notModelled (mnemonic : String)
deriving DecidableEq, Repr

/-- Who moves next. -/
inductive Action where
  /-- The S-stream of a pick issues. -/
  | scalar (pick : Nat)
  /-- Fragment frag of a pick issues. -/
  | lane (pick frag : Nat)
  /-- The S-stream of a pick and its fragment frag issue in one clk (R528). -/
  | both (pick frag : Nat)
  /-- Fragments of two picks of a quadrant issue in one clk, the chosen one and the second candidate (R22). -/
  | pair (pick frag pick2 frag2 : Nat)
  /-- An event of the device happens, at a pick (number 64 × team + index) where it needs one. -/
  | event (i : Instr) (focus : Nat)
deriving DecidableEq, Repr

/-- One reconvergence stack entry (R55); no reconvergence address is the block end (R49). -/
structure StackEntry where
  pc : Option Word
  mask : BitVec 4
  rca : Option Word
  fmtr : Word
deriving DecidableEq, Repr

/-- The state of one strand (R49, R55, R62, R68). An LPC of none stands at the block end. -/
structure Strand where
  lpc : Option Word := some 0
  rca : Option Word := none
  mask : BitVec 4 := 0
  stack : List StackEntry := []
  fmtr : Word := 0
  dist : Nat := 0
  issued : Bool := false
  safept : Option (BitVec 16) := none
deriving DecidableEq, Repr

/-- A fragment: strands that share an LPC (R59), the REGANG it waits at (R60), the clk it last issued and
its class rise (R63), its exemption from breakpoints (R432) and the hold of an unanswered fault (R469). -/
structure Fragment where
  strands : BitVec 8
  waitAt : Option Word := none
  lastIssue : Nat := 0
  rise : Nat := 0
  exempt : Bool := false
  hold : Option Nat := none
  /-- STALL of the REGANG it waits at (R298). -/
  waitStall : Nat := 0
  /-- The clks for which it has been passed over while it was ready (R63). -/
  passed : Nat := 0
  /-- The 64 KiB pages of landing targets whose translation fault was answered with a refusal: bad (R296, R471). -/
  noServe : List Nat := []
deriving DecidableEq, Repr

/-- A lane block (R47): target LPC, absolute capture base, k-frame and the marks of written k-registers
(R50), starting FMTR, the batch open on each path at its LGO (R165), whether it has started, and the pick's XFENCE count at its LGO (R181). -/
structure Block where
  target : Word
  capBase : Nat
  k : Tab Word := []
  kWritten : BitVec 16 := 0
  kPoison : BitVec 16 := 0
  fmtr : Word
  batches : List Nat
  started : Bool := false
  xseq : Nat := 0
  /-- The write records that happen before its accesses (R53). -/
  knows : List Nat := []
  /-- The number of the next write record when it started. -/
  since : Nat := 0
  /-- The capture window starts with the window register w0 (R50). -/
  atW0 : Bool := false
deriving DecidableEq, Repr

/-- The states of a lane register name (R89). -/
inductive NameState where
  | unwritten | allocated | freed
deriving DecidableEq, Repr

/-- A lane register name: its state, its lanes and their poison marks (R89, R430). -/
structure Name where
  st : NameState := .unwritten
  val : Lanes := []
  poison : Word := 0
deriving DecidableEq, Repr

/-- Where a pending result goes. -/
inductive Dest where
  | vreg (n : Nat)
  | kreg (n : Nat)
  | pred (n : Nat)
  /-- A store or a prefetch: nothing is delivered, its batch is. -/
  | nothing
deriving DecidableEq, Repr

/-- What a lane's pending load is made of, should a later write of another path class be what it finds (R181): the lane, the
locations of the bytes of each piece of it and of what it reads beside, with their places in the word, the register of its
group, and for an element of a buffer record the record, the element's index, the strand's FMTR and the draw. -/
structure LateLoad where
  lane : Nat
  cells : List (List (Nat × Nat))
  extra : List (List (Nat × Nat)) := []
  part : Nat := 0
  via : Option (Nat × Nat × Nat × Nat) := none
deriving DecidableEq, Repr

/-- A result issued and not yet written (R105, R107): the lanes of mask take vals; a fixed-latency one is
due at a clk. A variable-latency one belongs to a batch of path 0 (LD) or 1 (ST), or to none (path 8). -/
structure Pending where
  seq : Nat
  dest : Dest
  mask : Word
  vals : Lanes
  due : Nat
  isVar : Bool
  path : Nat := 8
  batch : Nat := 0
  /-- The bytes its access moves (R451). -/
  bytes : Nat := 0
  /-- The lane loads that may still find a later write (R181). -/
  late : List LateLoad := []
  /-- The scratch that its access touches: address and length (R398). -/
  scr : List (Nat × Nat) := []
deriving DecidableEq, Repr

/-- A batch of a path (R165, R166, R168): its number, the operations and lane blocks it waits for, the cause
its failed operation left, with TVAL. -/
structure Batch where
  num : Nat := 1
  ops : Nat := 0
  blocks : Nat := 0
  cause : Option (Cause × BitVec 64) := none
deriving DecidableEq, Repr

/-- One path of a pick (R165 to R168): open batch, closed batches in order of closing (their count is the path
counter), pending causes in batch order, the number of the newest retired batch. -/
structure PathState where
  opened : Batch := {}
  closed : List Batch := []
  causes : List (Nat × Cause × BitVec 64) := []
  retired : Nat := 0
  /-- What acquires of its batches brought, by batch: write records (R176, R179). -/
  acq : List (Nat × List Nat) := []
deriving DecidableEq, Repr

/-- Bits of one memory word: its location, which bits, their values. -/
abbrev Bits := Nat × Word × Word

/-- The transaction of one lane (R194, R195, R323): the lines read and written, the values read, the write
buffer by resolved address, the pages that its writes went through (R468), the status register, how high the stack stood
above its TXBEGIN entry, and whether a handler block began it. -/
structure Tx where
  rlines : List Nat := []
  wlines : List Nat := []
  reads : List Bits := []
  writes : List Bits := []
  pages : List (Nat × Nat) := []
  status : BitVec 8 := 239
  height : Nat := 0
  handler : Bool := false
deriving DecidableEq, Repr

/-- What a write releases (R176): the releasing pick (0 the device), the scope, the write records that happen before. -/
structure Rel where
  pick : Nat
  scope : Nat
  ids : List Nat
deriving DecidableEq, Repr

/-- The trap-record registers of a pick (R417). -/
structure TrapRec where
  cause : BitVec 8 := 0
  tval : BitVec 64 := 0
  tmask : Word := 0
  frag : BitVec 8 := 0
  atLend : BitVec 8 := 0
  waitRg : BitVec 8 := 0
  tspc : Word := 0
  src : Bool := false
  async : Bool := false
  blk : Bool := false
  skip : Bool := false
  ob : BitVec 8 := 1
  owb : BitVec 10 := 0
  tfmtr : Word := 0
  tinst : BitVec 96 := 0
  tlpc : Tab Word := []
  tlfmt : Tab Word := []
  tkf : Tab Word := []
deriving DecidableEq, Repr

/-- A trap to be delivered (R422, R423): cause, TVAL, TMASK, FRAG (0 for the S-stream), SRC, ASYNC, TSPC. -/
structure TrapReq where
  cause : Cause
  tval : BitVec 64
  tmask : Word := 0
  frag : BitVec 8 := 0
  src : Bool
  async : Bool := false
  tspc : Word
  /-- The word of the instruction that trapped, when the delivery waits (R265). -/
  inst : BitVec 96 := 0
deriving DecidableEq, Repr

/-- What a pick's S-stream is waiting in, beyond re-issuing a stalled instruction. -/
inductive Wait where
  /-- Nothing. -/
  | none
  /-- A blocking COP's operation, its reply register's absolute number and the SPC after it (R265). -/
  | cop (op : Nat) (sreg : Option Nat) (next : Word)
  /-- An unanswered translation fault of the S-stream (R469). -/
  | fault (fid : Nat)
  /-- Arrived at the retire latch with w(a), w(b), its word, the inheritance record and the launch record's address it
  read (R393). -/
  | latch (a b inst : Word) (rec lrec : Nat)
  /-- Ended by SEXIT (R45). -/
  | ended
  /-- Stopped at a safe point for a save (R454). -/
  | stopped
deriving DecidableEq, Repr

/-- The lane state of a block in execution: its eight strands and its fragments (R49). -/
structure LaneSet where
  strands : Tab Strand := []
  frags : List Fragment := []
deriving DecidableEq, Repr

/-- An XFENCE in force (R181, R182, R254): source and target masks, scope, and whether its drain ended. -/
structure XfRec where
  src : BitVec 8
  tgt : BitVec 8
  scp : BitVec 3
  drained : Bool
deriving DecidableEq, Repr

/-- A lane block that ended and that no LWAIT has covered: its capture base, what its copy-back replaced (R52), and the
write records that covering it orders (R53). -/
structure Ended where
  base : Nat
  prior : Tab Word
  ids : List Nat
deriving DecidableEq, Repr

/-- A pick (R24, R74). -/
structure Pick where
  live : Bool := false
  team : Nat := 0
  index : Nat := 0
  role : Nat := 0
  qidx : Nat := 0
  slot : Nat := 0
  reservation : Nat := 0
  spc : Word := 0
  wb : BitVec 10 := 0
  sregs : Tab Word := []
  spoison : List Nat := []
  bpred : BitVec 8 := 1
  fmtr : Word := 0
  tcfg : Word := 0
  gang : BitVec 64 := 0
  seed : Word := 0
  fmask : BitVec 64 := 0
  names : Tab Name := []
  preds : Tab Word := []
  ppoison : Tab Word := []
  paths : Tab PathState := []
  queue : List Block := []
  lanes : LaneSet := {}
  hqueue : List Block := []
  hlanes : LaneSet := {}
  pending : List Pending := []
  pseq : Nat := 0
  txs : List (Nat × Tx) := []
  /-- Status words of aborted transactions whose register is to be allocated first: name, lane, word (R90, R324). -/
  owed : List (Nat × Nat × Word) := []
  uncovered : List Ended := []
  wait : Wait := .none
  mode : Bool := false
  trec : TrapRec := {}
  held : Option TrapReq := none
  bkExempt : Bool := false
  cych : Word := 0
  cycd : BitVec 4 := 0
  /-- The SEXIT or RETIRE that waits has closed the open batches (R168, R393). -/
  closing : Bool := false
  parked : Bool := false
  /-- The place in the order of parking (R96). -/
  parkOrd : Nat := 0
  spilled : List Nat := []
  /-- The bank in which an allocation waits, and how many registers it asks for there (R94). -/
  parkWant : Option (Nat × Nat) := none
  dieLost : BitVec 13 := 0
  xfences : List XfRec := []
  xseq : Nat := 0
  /-- Ended handler blocks, as `uncovered`. -/
  huncovered : List Ended := []
  clk : Nat := 0
  nextLane : Nat := 0
  /-- When its S-stream last issued (R63). -/
  lastS : Nat := 0
  /-- The clks for which its S-stream has been passed over while it was ready (R63). -/
  passedS : Nat := 0
  /-- The writes of its CO.PUT operations, each with the rank and group of its peer (R367). -/
  puts : List (Nat × Nat) := []
  /-- Its transactions that aborted, not yet in the counter of a die (R483). -/
  aborts : Nat := 0
  /-- The bytes of its lane accesses that have completed (R451). -/
  moved : Nat := 0
  /-- What release fences made ready to publish (R178), by agent key. -/
  relFence : List (Nat × Rel) := []
  /-- What synchronising reads found released (R178), by agent key. -/
  rlxSeen : List (Nat × Rel) := []
deriving DecidableEq, Repr

/-- Where a team stands in its life (R25, R45, R397 to R404, R454). -/
inductive TeamPhase where
  /-- No such team. -/
  | absent
  /-- Admitted, waiting for its format slots to be bound (R443, R499). -/
  | binding
  | running
  /-- Draining under a pre-emption decision, with its deadline in ns and the outcome its record will show, 1, or 5
  when the save area had no room (R454). -/
  | draining (deadline out : Nat)
  /-- Told to save: picks stop at safe points; the image goes to this offset with this size, and the record will show
  outcome 3 or 4. -/
  | saving (out image size : Nat)
  /-- Discarded, ready to start from its beginning (R454). -/
  | discarded
  /-- Its image lies in the save area at this offset. -/
  | saved (image size : Nat)
  /-- Retired: the successor waits for admission under launch-record number lrec. -/
  | successor
  /-- Every pick ended, or the context ended it: waits for publication with this STATUS. -/
  | done (status : Nat)
  | published
deriving DecidableEq, Repr

/-- In-flight mark of an operation on scratch granules lo to hi (R150, R335). -/
structure Inflight where
  op : Nat
  pick : Nat
  path : Nat
  batch : Nat
  lo : Nat
  hi : Nat
  /-- The barrier the operation has completed onto, while its phase has not flipped. -/
  onto : Option Nat := none
deriving DecidableEq, Repr

/-- A team (R24, R25). -/
structure Team where
  phase : TeamPhase := .absent
  ctx : Nat := 0
  launch : Nat := 0
  index : Nat := 0
  die : Nat := 0
  loom : Nat := 0
  /-- The 256 bytes of its own launch record, as a number (R434, R401). -/
  lr : Nat := 0
  lrec : Nat := 0
  scratch : Memory := []
  scratchPoison : List Nat := []
  tiles : Tab Word := []
  tilePoison : List Nat := []
  refs : BitVec 8 := 0
  inflight : List Inflight := []
  picks : List Nat := []
  foor : Bool := false
  flate : Bool := false
  fpicks : Nat := 0
  flanes : Word := 0
  pre : Nat := 0
  precnt : Nat := 0
  li : Nat := 0
  by_ : Nat := 0
  started : Nat := 0
  /-- The place of its start, not of a resume, in the order of starts (R94). -/
  startOrd : Nat := 0
  /-- The place of its end in the order of ends (R520). -/
  endOrd : Nat := 0
  cause : BitVec 8 := 0
  loomFree : Bool := false
  coords : List Nat := []
  total : Nat := 0
  /-- Picks of the predecessor's roles whose MX.MMAJ partners ended (R351). -/
  goneMask : BitVec 64 := 0
  prio : Nat := 0
  /-- For a retired predecessor: the operations that it kept in flight; for a successor: the team number that
  publishes for its predecessor (R403). -/
  waitOps : List Nat := []
  pred : Nat := 0
  /-- What a successor that waits for admission holds: scratch span in bytes, tiles (R401). -/
  keptScr : Nat := 0
  keptTiles : Nat := 0
  /-- Whether the team is a successor not yet started (R404, R456). -/
  succWait : Bool := false
  /-- Slots and format parameter words that a saved team held (R456, R501). -/
  slotWords : List (Nat × Nat) := []
  /-- The inheritance record that formed (R397). -/
  inherit : Nat := 0
  /-- Write records that the picks that ended knew or made (R73). -/
  carry : List Nat := []
  /-- Barrier objects by address: the pick numbers that arrived in this phase and in the phase that ended. -/
  barNow : Tab (List Nat) := []
  barPast : Tab (List Nat) := []
deriving DecidableEq, Repr

/-- How far a team index of a launch has come (R445, R447, R448). -/
inductive TeamLife where
  | unstarted | live (team : Nat) | finished
deriving DecidableEq, Repr

/-- One entry of the task table in the task unit (R372). -/
structure Task where
  dep : Nat := 0
  pri : Nat := 0
  ns : Nat := 0
  issued : Bool := false
  done : Bool := false
  succ : List Nat := []
  arg : Word := 0
  holder : Nat := 0
deriving DecidableEq, Repr

/-- An accepted launch (R435, R440). -/
structure Launch where
  ctx : Nat := 0
  lnum : Nat := 0
  lrec : Nat := 0
  lr : Nat := 0
  order : Nat := 0
  total : Nat := 0
  lives : Tab TeamLife := []
  /-- Edges found met: (edge, team index), or (edge, 2^32) for one that covers every team (R447). -/
  met : List (Nat × Nat) := []
  broken : List Nat := []
  /-- Where the teams that started and were not taken off again lie: index, die, loom (R40). -/
  placed : List (Nat × Nat × Nat) := []
  /-- The placement of a cooperative launch as far as it is chosen (R445). -/
  plan : List (Nat × Nat × Nat) := []
  /-- Write records that happen before every access of the launch (R371, R447). -/
  carry : List Nat := []
  /-- The number of the next write record when the launch was submitted (R146, R156). -/
  subW : Nat := 0
  /-- The number of the next write record when its first kernel started (R156). -/
  runW : Option Nat := none
  /-- Word locations read by `.INV` loads, with the launch record of the kernel that read them (R156). -/
  invs : List (Nat × Nat) := []
  gridNext : Nat := 0
  regrant : List Nat := []
  granted : List (Nat × Nat) := []
  tasks : List Task := []
  frozen : Bool := false
  wroteBack : Bool := false
  ended : Bool := false
deriving DecidableEq, Repr

/-- The state of an engine operation. -/
inductive OpPhase where
  | queued | running | latched
  /-- Stopped with its context, team or die (R428, R454, R487): it may still have written words. -/
  | abandoned
  /-- Waits for the answer to a translation fault (R336, R469). -/
  | faulted (fid : Nat)
deriving DecidableEq, Repr

/-- A draft of a world's store (R497, R498): parameter word, table words, image length, measurement. -/
structure Draft where
  word : BitVec 64
  table : List Word
  ilen : Nat
  meas : BitVec 384
deriving DecidableEq, Repr

/-- An engine operation in flight (R264, R331): function, path and batch, operands, descriptor copy, snapshots. -/
structure Op where
  pick : Nat := 0
  func : Nat := 0
  path : Nat := 0
  batch : Nat := 0
  wa : Word := 0
  wb : Word := 0
  desc : Nat := 0
  fmtr : Word := 0
  tcfg : Word := 0
  gang : BitVec 64 := 0
  seed : Word := 0
  blocking : Bool := false
  phase : OpPhase := .queued
  /-- For a collective: its group sequence number (R363). -/
  cseq : Nat := 0
  /-- The participants of a formed rendezvous, lead first (R351). -/
  joint : List Nat := []
  /-- A cause decided before the effect (R351, R368): step and cause. -/
  fail : Option (Nat × Cause) := none
  /-- A collective or one-sided operation has sent its messages (R363 to R367). -/
  sent : Bool := false
  xseq : Nat := 0
  /-- Its place in the order of its unit: acceptance, or the forming of its rendezvous (R334, R351). -/
  ord : Nat := 0
  /-- The status of an FM.REQ or the reply of a WQ query, once it is decided (R378). -/
  res : Nat := 0
  /-- The bytes a CO.GET received (R366). -/
  got : Option (List Byte) := none
  /-- The write records that happen before its accesses (R179, R371). -/
  ids : List Nat := []
  /-- The word of the COP that issued it, for the record of a trap (R265). -/
  inst : Word := 0
  /-- The launch record of its kernel, whose buffer record table it uses (R155, R398). -/
  lr : Nat := 0
  /-- The drafts bound to the slots that it names, as they were when it issued (R378, R499). -/
  binds : List (Nat × Draft) := []
  /-- The clk at which a query reached its unit (R370, R500). -/
  arrived : Option Nat := none
  /-- Words that a later operation of its agent has read already, each with the records that this one's reads must not find:
  those numbered so, and those from a number on (R172, R175). -/
  caps : List (Nat × List Nat × Nat) := []
  /-- The answer of an SS.PEEK, formed at its acceptance (R392). -/
  told : Nat := 0
deriving DecidableEq, Repr

/-- One submission queue (R437). -/
structure Queue where
  base : Nat := 0
  log2 : Nat := 4
  head : Word := 0
  tail : Word := 0
  /-- The index up to which entries are handled, as the last QTAIL write set it (R439). -/
  upto : Word := 0
  /-- Device enqueues pending: (op, record address) (R439). -/
  device : List (Nat × Nat) := []
deriving DecidableEq, Repr

/-- An unanswered translation fault (R469, R470). -/
structure FaultRec where
  fid : Nat
  stage2 : Bool
  lvl : Nat
  addr : Nat
  /-- The S-stream of a pick, a fragment's strands of a pick, or an operation. -/
  who : Nat ⊕ (Nat × BitVec 8) ⊕ Nat
  /-- The global address of the access (TVAL of a refused one). -/
  va : Nat
  /-- Met by a landing check (R296). -/
  landing : Bool := false
  /-- The word of the instruction and the lanes that failed, for the trap of a refused access (R422, R471). -/
  inst : BitVec 96 := 0
  lanes : Word := 0
deriving DecidableEq, Repr

/-- A context (R419, R437, R468, R511). -/
structure Context where
  live : Bool := false
  ended : Bool := false
  /-- STATUS and CAUSE with which its unpublished teams publish (R72). -/
  endStatus : Nat := 0
  endCause : Nat := 0
  world : Nat := 0
  fn : Nat := 0
  slot : Nat := 0
  tvec : Word := 0
  twin : BitVec 10 := 960
  chk : BitVec 4 := 0
  sbase : BitVec 64 := 0
  lbase : BitVec 64 := 0
  bkctl : BitVec 6 := 0
  bkl : Tab Word := []
  bks : Tab Word := []
  st : Nat := 2
  queues : Tab Queue := []
  portals : Tab Word := []
  prqgo : Bool := false
  prqdl : Nat := 1
  prqalw : BitVec 2 := 0
  prqrec : Nat := 0
  prqdone : Nat := 0
  prqWaiting : Bool := false
  /-- Pre-emption records of the request in progress written so far. -/
  prqCount : Nat := 0
  saveBase : Nat := 0
  saveSize : Nat := 0
  saveUsed : List (Nat × Nat) := []
  rbBase : Nat := 0
  rbWritten : Bool := false
  s1root : Nat := 0
  s1Written : Bool := false
  tdmask : BitVec 13 := 0x1000
  invaddr : Nat := 0
  invcnt : Word := 0
  /-- Invalidations of stage 1: first VA, 64 KiB units (0: all), the number of the next write record (R467, R468). -/
  invs : List (Nat × Nat × Nat) := []
  invgo : Nat := 0
  /-- The invalidation that runs: first address, 64 KiB units, the number of the next write record at its start. -/
  invRun : Nat × Nat × Nat := (0, 0, 0)
  dumpBase : Nat := 0
  dumpSize : Nat := 0
  cgBase : Nat := 0
  cgCount : Nat := 0
  nextLnum : Nat := 1
  faults : List FaultRec := []
  cseq : Tab Nat := []
  /-- Operands of collectives received: group, sequence number, rank, shape, bytes (R363). -/
  colls : List (Nat × Nat × Nat × Nat × List Byte) := []
  /-- Collectives of its groups that ended with COLL_ERR, by which operations that join later end too: group, sequence
  number, case, rank (R368). -/
  collFails : List (Nat × Nat × Nat × Nat) := []
deriving DecidableEq, Repr

/-- One format slot of a loom (R499, R500): the bound draft, the draft being loaded and the teams waiting for it
with the operation that asked (0: admission). -/
structure Slot where
  bound : Option Draft := none
  loading : Option Draft := none
  waiters : List (Nat × Nat) := []
  /-- The place of the load in the order of requests on the loom (R499, R500). -/
  asked : Nat := 0
deriving DecidableEq, Repr

/-- One entry of an observation log (R482). -/
structure ObsEntry where
  ctr : Nat
  fn : Nat
  die : Nat
  stamp : Nat
deriving DecidableEq, Repr

/-- A world's state on the I/O die and in the security processor (R482, R498, R502 to R504). -/
structure World where
  drafts : List Draft := []
  policy : Word := 0
  allow : Nat := 0
  obs : List ObsEntry := []
  obsHash : BitVec 384 := 0
  chain : BitVec 384 := 0
  keyed : Bool := false
  /-- The tenant's dump key (R504). -/
  dumpKey : Option (BitVec 256) := none
  sweeping : Bool := false
  /-- Tag failures recorded for the world: die and unit address (R478). -/
  integrity : List (Nat × Nat) := []
  /-- Invalidations of stage 2: first IA, 64 KiB units (0: all), the number of the next write record (R467, R468). -/
  invs : List (Nat × Nat × Nat) := []
deriving DecidableEq, Repr

/-- A die (R15, R433, R472, R487, R505 to R508). DWCTL STATE: 0 free, 1 scrubbing, 2 assigned, 3 releasing, 4
lost. -/
structure Die where
  cycles : BitVec 64 := 0
  st : Nat := 0
  world : Nat := 0
  pendingWorld : Nat := 0
  s2root : Nat := 0
  lost : Bool := false
  point : Nat := 0
  granted : Nat := 0
  floor : Nat := 0
  /-- Whether it stands at the lowest point outside the grant cycle, and whether the condition still lasts (R508). -/
  throttled : Bool := false
  hot : Bool := false
  /-- The power budget granted, in W (R505). -/
  budget : Nat := 0
  counters : Tab (BitVec 64) := []
  smp : BitVec 64 := 0
  loomMap : List Nat := []
  /-- The key generation of its lines (R472, R479). -/
  gen : Bool := false
  /-- The worlds that have left it, each with the number of the next write record then (R467). -/
  left : List (Nat × Nat) := []
deriving DecidableEq, Repr

/-- One direction of a link, or a port (R474, R476, R507, R517): live and shadow weave tables, width, service. -/
structure Link where
  map : Tab (BitVec 16) := []
  slots : Tab (BitVec 8) := []
  shMap : Tab (BitVec 16) := []
  shSlots : Tab (BitVec 8) := []
  commit : Bool := false
  width : Nat := 4
  wantWidth : Option Nat := none
  training : Bool := false
  down : Bool := false
deriving DecidableEq, Repr

/-- One function page, and what the function holds under R502, R509, R513 and R514. TDISP: 0 CONFIG_UNLOCKED, 1
CONFIG_LOCKED, 2 RUN, 3 ERROR. -/
structure Function where
  world : Nat := 0
  enabled : Bool := false
  dladdr : Nat := 0
  dllen : Nat := 0
  dlgo : Nat := 0
  dlstat : Nat := 0
  cntsel : Nat := 0
  /-- What the last read of CNTVAL returned. -/
  cntval : BitVec 64 := 0
  tdisp : Nat := 0
  session : Bool := false
  negotiated : Bool := false
  answers : List (Nat × BitVec 384) := []
  /-- Certificate chains answered (R502). -/
  certs : List (List Byte) := []
  /-- IDE: key set in use by the transmitter, live sets per direction, dropped stream. -/
  ideTx : Nat := 0
  ideLive : List (Bool × Nat) := []
  ideDropped : Bool := false
  /-- Address translation service: in use, host pages whose translations the I/O die may hold, pages with the rights that the
  host's translation lacks (R515). -/
  atsOn : Bool := false
  ats : List Nat := []
  atsFails : List (Nat × Nat) := []
deriving DecidableEq, Repr

/-- A message filter table entry with its bucket (R441, R442). -/
structure Filter where
  word : BitVec 256 := 0
  budget : Nat := 0
deriving DecidableEq, Repr

/-- The device-wide state (R489, R491, R493, R510, R511, R517). Phase 0 to 6; powered: after power good. -/
structure Device where
  powered : Bool := false
  phase : Nat := 0
  fail : Bool := false
  unit : Nat := 15
  reason : Nat := 0
  detail : Nat := 0
  ioLost : Bool := false
  devid : Option Nat := none
  gmode : Tab Nat := []
  alwsel : Nat := 0
  ptmHost : BitVec 64 := 0
  ptmCyc : BitVec 64 := 0
  minSvn : Tab Nat := []
  /-- The configuration image in on-package flash (R494), and whether self-tests pass (R489, R495): for each
  unit of R491 a failing REASON code, DETAIL; empty when everything passes. -/
  image : List Byte := []
  /-- Whether each of the four images passes its signature, layout and SVN checks: a REASON code or 0. -/
  imageFault : List (Nat × Nat) := []
  loomFails : List (Nat × Nat) := []
  selfTest : List (Nat × Nat × Nat) := []
  /-- The digests of the firmware images of the security processor, the scheduling processor and the management controller
  (R502). -/
  images : List (BitVec 384) := []
  imageSvn : Tab Nat := []
  /-- Peers of the scale-up domain lost (R368, R517). -/
  lostPeers : List Nat := []
  /-- What peer devices serve: (device, world, first IA that its stage 2 maps, bytes) (R464). -/
  peers : List (Nat × Nat × Nat × Nat) := []
  /-- The switch planes that a peer device of the domain reaches (R518). -/
  peerPlanes : Tab (List Nat) := []
  degraded : BitVec 13 := 0
  /-- The scale-up ports that have a partner to train with (R489). -/
  portPartners : List Nat := []
  /-- The port of its plane's switch that a scale-up port is cabled to, where that is not the device's own (R517). -/
  cabling : List (Nat × Nat) := []
  /-- The ports that the management controller has logged as cabled to another port (R517). -/
  cableLog : List Nat := []
deriving DecidableEq, Repr

/-- A 64-byte fault record received by the scheduling processor (R449), as a number. -/
abbrev FaultMsg := BitVec 512

/-- Bits of one memory word that a write takes: the word's location, which bits, their values, and the bits before in
coherence order. -/
structure WCell where
  loc : Nat
  mask : Word
  new : Word
  prior : Word
deriving DecidableEq, Repr

/-- A write that is seen whole or not at all (R174), in coherence order (R175): its bits by word, the path class, pick, path
and batch or block of the write, and the key of its agent; the keys of the agents that it happens before, and of those that
have read it or a later one (R175); the XFENCEs that order it: pick, target classes, count (R181); what it releases, with
what a release sequence hands on (R176); whether it belongs to a read-modify-write, between which and what it read no other
write may come (R188); the scope of an acquire or release access that made it (R180), and the keys of the agents whose
acquires have missed it once (R186); the 64 KiB pages, by VA and IA, that it went through, and whether it has been performed
at system scope (R468). -/
structure WRec where
  id : Nat
  cells : List WCell
  cls : Nat
  pick : Nat
  path : Nat
  batch : Nat
  known : List Nat
  fenced : List (Nat × BitVec 8 × Nat) := []
  seen : List Nat := []
  rels : List Rel := []
  rmw : Bool := false
  writer : Nat := 0
  sync : Option Nat := none
  missed : List Nat := []
  pages : List (Nat × Nat) := []
  done : Bool := false
deriving DecidableEq, Repr

/-- A word whose line is held update-only (R191, R192): its location, the kind (AOP) of the atomics; for FADD, whose
operands may still combine, the value before them, the value they left and the operands; the looms (64 × die + loom) that
hold partials. -/
structure NearAdds where
  loc : Nat
  kind : Nat
  prior : Word
  now : Word
  operands : List Word
  looms : List Nat
deriving DecidableEq, Repr

/-- The device. -/
structure State where
  /-- Free values drawn so far (the model's own). -/
  fresh : Nat
  /-- Who moves next (the model's own). -/
  agenda : List Action
  cur : Nat
  frag : Nat
  inst : BitVec 96
  nextTeam : Nat
  nextLaunch : Nat
  nextOp : Nat
  nextFid : Nat
  nextW : Nat
  mem : Memory
  /-- Poisoned 4-byte words of memory, by address div 4 (R486). -/
  poison : List Nat
  /-- The writes, newest first in an order that holds the coherence order of every location (R175). -/
  wlog : List WRec
  fadds : List NearAdds
  picks : Tab Pick
  teams : Tab Team
  launches : Tab Launch
  ctxs : Tab Context
  ops : List (Nat × Op)
  /-- Slots of the looms, by 512 × die + 8 × loom + slot. -/
  slots : Tab Slot
  dies : Tab Die
  worlds : Tab World
  links : Tab Link
  fns : Tab Function
  filters : Tab Filter
  dev : Device
  faultLog : List FaultMsg
deriving DecidableEq, Repr

/-- The device at power-on, before its bring-up phases: nothing resident, no context, no world, counters zero
(R10, R433, R472, R489). The configuration image is none until one is given. -/
def State.reset : State where
  fresh := 0
  agenda := []
  cur := 0
  frag := 0
  inst := 0
  nextTeam := 1
  nextLaunch := 1
  nextOp := 1
  nextFid := 1
  nextW := 1
  mem := []
  poison := []
  wlog := []
  fadds := []
  picks := []
  teams := []
  launches := []
  ctxs := []
  ops := []
  slots := []
  dies := []
  worlds := []
  links := []
  fns := []
  filters := []
  dev := {}
  faultLog := []

end Sys2Proof.Machine
end

