-- ==== Sys2Proof/Machine/Tab.lean ====
section
/-! DEFINITION. Reading and writing sparse tables, bit fields of numbers, bytes of values, and the
sign helpers of R217. -/

namespace Sys2Proof.Machine

/-- The entry of number k, or the table's default. -/
def tget {α : Type} (d : α) : Tab α → Nat → α
  | [], _ => d
  | (j, v) :: t, k => if j = k then v else tget d t k

/-- The table with entry k replaced or put in its place. -/
def tins {α : Type} (k : Nat) (v : α) : Tab α → Tab α
  | [] => [(k, v)]
  | (j, w) :: t => if k < j then (k, v) :: (j, w) :: t else if j = k then (k, v) :: t else (j, w) :: tins k v t

/-- The table without entry k. -/
def tdel {α : Type} (k : Nat) : Tab α → Tab α
  | [] => []
  | (j, w) :: t => if j = k then tdel k t else (j, w) :: tdel k t

/-- The table with entry k set; an entry set to the default d is not listed. -/
def tput {α : Type} [DecidableEq α] (d : α) (t : Tab α) (k : Nat) (v : α) : Tab α :=
  if v = d then tdel k t else tins k v t

/-- Bits [lo + n − 1 : lo] of a number (R5). -/
def bits (x lo n : Nat) : Nat := (x >>> lo) % 2 ^ n

/-- Bit k of a number. -/
def bit (x k : Nat) : Bool := x.testBit k

/-- The number with bits [lo + n − 1 : lo] set to v. -/
def setBits (x lo n v : Nat) : Nat :=
  x - bits x lo n * 2 ^ lo + (v % 2 ^ n) * 2 ^ lo

/-- sext of R217: the two's-complement value of the low n bits. -/
def sextN (x n : Nat) : Int :=
  if n = 0 then 0 else
  let y := x % 2 ^ n
  if y < 2 ^ (n - 1) then (y : Int) else (y : Int) - 2 ^ n

/-- The word of an integer taken modulo 2^32 (R217). -/
def wordOf (i : Int) : Word := BitVec.ofInt 32 i

/-- The n bytes of a number, least significant first (R6). -/
def leBytes : Nat → Nat → List Byte
  | 0, _ => []
  | n + 1, x => BitVec.ofNat 8 x :: leBytes n (x / 256)

/-- The number whose bytes, least significant first, are these (R6). -/
def ofLe : List Byte → Nat
  | [] => 0
  | b :: bs => b.toNat + 256 * ofLe bs

/-- The numbers below n whose bit of x is set. -/
def ones (x n : Nat) : List Nat := (List.range n).filter (bit x)

/-- The number with exactly the listed bits set. -/
def maskOf (l : List Nat) : Nat := l.foldl (fun a k => a ||| 2 ^ k) 0

/-- The number of set bits among the low n. -/
def popc (x n : Nat) : Nat := (ones x n).length

/-- The least multiple of m at or above x. -/
def roundUp (x m : Nat) : Nat := (x + m - 1) / m * m

end Sys2Proof.Machine
end

