-- ==== Sys2Proof/Machine/Mem.lean ====
section
/-! DEFINITION. Bytes of physical memory and of scratch, poison, agents and the order of their accesses, and the two-stage
translation of addresses. -/

namespace Sys2Proof.Machine

/-- The canonical form above an address: keys rise strictly from lo and no listed byte is 0. -/
def risingFrom : Nat → Memory → Bool
  | _, [] => true
  | lo, (a, v) :: t => decide (lo ≤ a) && v != 0 && risingFrom (a + 1) t

/-- A memory in canonical form. -/
def Memory.wf (m : Memory) : Bool := risingFrom 0 m

/-- The byte at an address (an unlisted one reads 0). -/
def rdByte (m : Memory) (a : Nat) : Byte := tget 0 m a

/-- The memory with one byte written. -/
def wrByte (m : Memory) (a : Nat) (v : Byte) : Memory := tput 0 m a v

/-- The n bytes from an address on. -/
def rdBytes (m : Memory) (a : Nat) : Nat → List Byte
  | 0 => []
  | n + 1 => rdByte m a :: rdBytes m (a + 1) n

/-- The memory with bytes written from an address on. -/
def wrBytes (m : Memory) (a : Nat) : List Byte → Memory
  | [] => m
  | v :: vs => wrBytes (wrByte m a v) (a + 1) vs

/-- The little-endian number of n bytes (R6). -/
def rdNat (m : Memory) (a n : Nat) : Nat := ofLe (rdBytes m a n)

/-- A number stored in n bytes, least significant first (R6). -/
def wrNat (m : Memory) (a n x : Nat) : Memory := wrBytes m a (leBytes n x)

/-- The number of a free draw: step, kind of choice and index within the step, no two alike. -/
def State.drawKey (s : State) (kind i : Nat) : Nat := Nat.pair s.fresh (Nat.pair kind i)

/-- A free choice between two outcomes: kind of choice and index within the step in execution (log 1). -/
def State.free (s : State) (kind i : Nat) : Bool := Config.freeBit (s.drawKey kind i)

/-- A free word of the step in execution (log 1). -/
def State.freeW (s : State) (kind i : Nat) : Word := Config.freeWord (s.drawKey kind i)

/-- A free number of the step in execution (log 1). -/
def State.freeN (s : State) (kind i : Nat) : Nat := Config.freeNat (s.drawKey kind i)

/-- A free number of at most n. -/
def State.freeTo (s : State) (kind i n : Nat) : Nat := if n = 0 then 0 else s.freeN kind i % (n + 1)

/-! ## Words (R174) -/

/-- The location of the memory word that holds a physical byte. -/
def memLoc (a : Nat) : Nat := a - a % 4

/-- The location of the word of a team's scratch that holds a byte. -/
def scrLoc (t a : Nat) : Nat := 4 * (t * 2 ^ 18 + a / 4) + 1

/-- The location of a word of a team's tiles. -/
def tileLoc (t w : Nat) : Nat := 4 * (t * 2 ^ 18 + w) + 2

/-- The team whose scratch or tiles a location lies in, 0 for memory. -/
def locTeam (l : Nat) : Nat := if l % 4 = 0 then 0 else l / 4 / 2 ^ 18

/-- The word at a location. -/
def State.wordAt (s : State) (l : Nat) : Word :=
  let t := tget {} s.teams (l / 4 / 2 ^ 18)
  let a := l / 4 % 2 ^ 18
  if l % 4 = 0 then BitVec.ofNat 32 (rdNat s.mem l 4)
  else if l % 4 = 1 then BitVec.ofNat 32 (rdNat t.scratch (4 * a) 4)
  else tget 0 t.tiles a

/-- The first n bytes of a word stored where the mask has a bit in the byte. -/
def putBytes (m : Memory) (a : Nat) (mask v : Word) : Nat → Memory
  | 0 => m
  | k + 1 =>
    let m1 := putBytes m a mask v k
    if (mask >>> (8 * k)).setWidth 8 = (0 : Byte) then m1 else wrByte m1 (a + k) ((v >>> (8 * k)).setWidth 8)

/-- The bytes of the word at a location that the mask touches take those of v; a word written whole loses its poison
(R234, R486). -/
def State.putWord (s : State) (l : Nat) (mask v : Word) : State :=
  let k := l / 4 / 2 ^ 18
  let t := tget {} s.teams k
  let a := l / 4 % 2 ^ 18
  let whole := mask == BitVec.allOnes 32
  if l % 4 = 0 then
    { s with mem := putBytes s.mem l mask v 4
             poison := if whole then s.poison.filter (· != l / 4) else s.poison }
  else if l % 4 = 1 then
    { s with teams := tput {} s.teams k { t with
        scratch := putBytes t.scratch (4 * a) mask v 4
        scratchPoison := if whole then t.scratchPoison.filter (· != a) else t.scratchPoison } }
  else
    { s with teams := tput {} s.teams k { t with
        tiles := tput 0 t.tiles a v, tilePoison := t.tilePoison.filter (· != a) } }

/-- The bits of a word with those of the mask taken from v. -/
def mix (old mask v : Word) : Word := (old &&& ~~~mask) ||| (v &&& mask)

/-- Bits put among others, over those of the same word. -/
def addBits : List Bits → Bits → List Bits
  | [], b => [b]
  | x :: l, b =>
    if x.1 = b.1 then (x.1, x.2.1 ||| b.2.1, mix x.2.2 b.2.1 b.2.2) :: l else x :: addBits l b

/-- Byte k of a word as bits of it. -/
def byteBits (l k : Nat) (m v : Byte) : Bits := (l, m.setWidth 32 <<< (8 * k), v.setWidth 32 <<< (8 * k))

/-- The words that bytes (location, place in the word, mask, value) make up. -/
def packBits (l : List (Nat × Nat × Byte × Byte)) : List Bits :=
  l.foldl (fun ws e => addBits ws (byteBits e.1 e.2.1 e.2.2.1 e.2.2.2)) []

/-- Byte k of a location among words read. -/
def byteOf (ws : List Bits) (e : Nat × Nat) : Byte :=
  match ws.find? (fun w => w.1 == e.1) with
  | some w => (w.2.2 >>> (8 * e.2)).setWidth 8
  | none => 0

/-! ## Mirrored pages (R466)

A resolved address is a physical address, with bit 52 set where its page is a whole mirrored pair. -/

/-- The physical address in the page's home. -/
def paHome (a : Nat) : Nat := a % 2 ^ 52

/-- Whether the page is a whole mirrored pair. -/
def paMirrored (a : Nat) : Bool := bit a 52

/-- The partner address. -/
def paTwin (a : Nat) : Nat := (a % 2 ^ 52 + 0x6000000000) % 0xC000000000

/-- Where the byte lies: in a mirrored page twice. -/
def paPlaces (a : Nat) : List Nat := if paMirrored a then [paHome a, paTwin a] else [paHome a]

/-- Whether a byte is lost to an uncorrectable error: every copy is poisoned (R466, R486). -/
def State.badPa (s : State) (a : Nat) : Bool := (paPlaces a).all (fun x => s.poison.contains (x / 4))

/-- Whether any byte is. -/
def State.poisoned (s : State) (pas : List Nat) : Bool := !s.poison.isEmpty && pas.any s.badPa

/-- The bits of a write at a location. -/
def WRec.at_ (r : WRec) (l : Nat) : Option WCell := r.cells.find? (fun c => c.loc == l)

/-- Whether the two copies of a word of DRAM may each hold any value that was written to either: both dies serve, some write
went to both as a mirrored one, and some to the partner alone, through a mapping that R466 forbids. -/
def State.confused (s : State) (l : Nat) : Bool :=
  let o := paTwin l
  let lost (x : Nat) : Bool := (tget ({} : Die) s.dies (x / 2 ^ 36 % 16)).lost
  let both (h w : Nat) (r : WRec) : Bool := (r.at_ w).isSome &&
    (r.cells.find? (fun c => c.loc == h || c.loc == w)).map (·.loc) == some h
  let lone (h w : Nat) (r : WRec) : Bool := (r.at_ w).isSome && (r.at_ h).isNone
  decide (l % 4 = 0 ∧ l < 0xC000000000) && !lost l && !lost o &&
    ((s.wlog.any (both l o) && s.wlog.any (lone l o)) || (s.wlog.any (both o l) && s.wlog.any (lone o l)))

/-- The copy that a read is served from: the home's, or the partner's where the home's is poisoned; where a mapping of the
partner range has made them differ, either (R466). -/
def State.servePa (s : State) (a : Nat) : Nat :=
  let h := paHome a
  let w := paTwin a
  let differ := s.wordAt (memLoc h) != s.wordAt (memLoc w)
  if (if paMirrored a then s.poison.contains (h / 4) || (!s.poison.contains (w / 4) && differ && s.free 32 (h / 4))
      else s.confused (memLoc h) && !s.poison.contains (w / 4) && s.free 32 (h / 4)) then w
  else h

/-- The bytes at resolved addresses, as word locations and places in them. -/
def State.memCells (s : State) (pas : List Nat) : List (Nat × Nat) :=
  pas.map (fun a => let p := s.servePa a; (memLoc p, p % 4))

/-- The copies of mirrored bytes beside those that an access is served from (R466). -/
def otherCopies (pas : List Nat) (cells : List (Nat × Nat)) : List (Nat × Nat) :=
  if pas.all paMirrored then (pas.zip cells).map (fun (x, e) =>
    let o := if e.1 + e.2 = paHome x then paTwin x else paHome x
    (memLoc o, o % 4))
  else []

/-- The n bytes of a team's scratch from an address on. -/
def scrCells (t a n : Nat) : List (Nat × Nat) := (List.range n).map (fun k => (scrLoc t (a + k), (a + k) % 4))

/-- What the device's own units read: the newest bytes. -/
def State.devBytes (s : State) (pas : List Nat) : List Byte := pas.map (fun a => rdByte s.mem (s.servePa a))

/-- The words that a write at resolved addresses makes, each with its copy. -/
def memUnits (es : List (Nat × Byte × Byte)) : List (List Bits) :=
  (packBits (es.map (fun e => (memLoc (paHome e.1), e.1 % 4, e.2)))).map (fun b =>
    if es.any (fun e => paMirrored e.1 && memLoc (paHome e.1) == b.1) then [b, (memLoc (paTwin b.1), b.2)] else [b])

/-- The words that a write in scratch makes. -/
def scrUnits (t : Nat) (es : List (Nat × Byte × Byte)) : List (List Bits) :=
  (packBits (es.map (fun e => (scrLoc t e.1, e.1 % 4, e.2)))).map (fun b => [b])

/-- Whole bytes. -/
def wholeBytes (pas : List Nat) (vs : List Byte) : List (Nat × Byte × Byte) :=
  (pas.zip vs).map (fun e => (e.1, 0xFF, e.2))

/-! ## Agents and the order of writes (R171 to R181) -/

/-- Who accesses memory (R171): class 0 a lane, 2 to 7 an engine path, 8 the scalar agent, 9 the device's own units, 10
instruction fetch (R146); the pick, path, batch or block; the pick's XFENCE count when the COP or LGO of the access
issued; the lane. A fetch or an engine operation has records ordered before it: those of `knows`, and those numbered
below `since`; accesses of an operation with different tags are unordered among themselves. A broken `.INV` promise
leaves reads of the locations of `loose` free over the records from `looseSince` on (R156). The attributes of the access
are its ORD, SCP, `.RMT` and `.INV` (R173); `pages` are the 64 KiB pages through which it reaches memory, by VA and IA;
its reads do not find what `caps` names, words with record numbers and a number from which on (R175). -/
structure Agent where
  cls : Nat
  pick : Nat
  path : Nat := 8
  batch : Nat := 0
  seq : Nat := 0
  lane : Nat := 0
  tag : Nat := 0
  knows : List Nat := []
  since : Nat := 0
  loose : List Nat := []
  looseSince : Nat := 0
  ord : Nat := 0
  scp : Nat := 0
  rmt : Bool := false
  inv : Bool := false
  pages : List (Nat × Nat) := []
  caps : List (Nat × List Nat × Nat) := []
deriving DecidableEq, Repr

/-- The key of an agent: 64 × pick + its lane, or 32 and its class. -/
def Agent.key (g : Agent) : Nat := 64 * g.pick + if g.cls = 0 then g.lane else 32 + g.cls

/-- The ordering attributes of an access (R173): ORD, SCP, `.RMT`. -/
structure Sync where
  ord : Nat := 0
  scp : Nat := 0
  rmt : Bool := false
deriving DecidableEq, Repr

/-- A plain access. -/
def Sync.plain : Sync := {}

/-- An agent making an access with these attributes. -/
def Agent.as (g : Agent) (y : Sync) : Agent := { g with ord := y.ord, scp := y.scp, rmt := y.rmt }

/-- The key of a pick's scalar agent. -/
def scalarKey (pick : Nat) : Nat := 64 * pick + 40

/-- The key that stands for all lanes of a pick. -/
def lanesKey (pick : Nat) : Nat := 64 * pick + 33

/-- The device's own units: the processors of the I/O die, the host port. Their accesses are ordered one by one. -/
def deviceAgent : Agent := { cls := 9, pick := 0 }

/-- Agents of other devices. -/
def peerAgent : Agent := { cls := 8, pick := 1 }

/-- Whether a write lies in the host window. -/
def WRec.inHost (r : WRec) : Bool :=
  r.cells.any (fun c => c.loc % 4 == 0 && decide (0x4000000000000 ≤ c.loc ∧ c.loc < 0x8000000000000))

/-- Whether a write happens before what an agent does next (R177 to R179). An `.INV` load is not ordered by the acquires of
its agent, so what its lane alone has learnt does not count for it, its own writes do (R187); in the host window `.INV` is
ignored (R465). -/
def WRec.before (r : WRec) (g : Agent) : Bool :=
  (if g.inv ∧ r.inHost = false then r.writer == g.key else r.known.contains g.key) ||
  (g.cls == 0 && r.known.contains (lanesKey g.pick)) || g.knows.contains r.id || decide (r.id < g.since)

/-- Whether a write is ordered before an access of this agent: across path classes by an XFENCE alone (R181), else when
it happens before. A write performed at system scope is (R468). -/
def WRec.orderedFor (r : WRec) (g : Agent) : Bool :=
  if g.cls = 9 ∨ r.done then true
  else if r.cls < 8 ∧ g.cls < 8 ∧ r.cls ≠ g.cls then
    r.fenced.any (fun (p, t, q) => p == g.pick && t.toNat.testBit g.cls && decide (q ≤ g.seq))
  else r.before g

/-- Whether an access of this agent may come before the write: it is unordered, and the agent has read neither it nor a
later one (R175). -/
def WRec.free (r : WRec) (g : Agent) : Bool :=
  !r.orderedFor g && !r.seen.contains g.key && !(g.cls == 0 && r.seen.contains (lanesKey g.pick))

/-- Which bits of the word at a location a write takes. -/
def WRec.maskAt (r : WRec) (l : Nat) : Word := ((r.at_ l).map (·.mask)).getD 0

/-- The word at a location as it was before a write, as far as `open_` has its bits. -/
def WRec.undo (r : WRec) (l : Nat) (open_ v : Word) : Word :=
  match r.at_ l with
  | some c => mix v (c.mask &&& open_) c.prior
  | none => v

/-- Whether a write overlaps bits. -/
def WRec.touches (r : WRec) (u : List Bits) : Bool := u.any (fun b => r.maskAt b.1 &&& b.2.1 != 0)

/-- The words as they are before the writes that skip selects, newest first; the second part lists the writes that the
words come from. A word's bits are settled by the first write not skipped. -/
def lookBack (skip : WRec → Bool) : List WRec → List Bits → List Bits × List Nat
  | [], u => (u, [])
  | r :: rs, u =>
    if !r.touches u then lookBack skip rs u
    else if skip r then lookBack skip rs (u.map (fun b => (b.1, b.2.1, r.undo b.1 b.2.1 b.2.2)))
    else
      let x := lookBack skip rs (u.map (fun b => (b.1, b.2.1 &&& ~~~(r.maskAt b.1), b.2.2)))
      (x.1, r.id :: x.2)

/-- Whether a pick lies in another's instance of a scope (R176); the cluster instance acts as the die's (R29). Numbers
below 64 are no picks: 0 stands for the device's own units, 1 for other devices. -/
def State.inScope (s : State) (scp a b : Nat) : Bool :=
  let die (k : Nat) : Nat := (tget ({} : Team) s.teams (k / 64)).die
  if a < 64 ∨ b < 64 then a == b || scp == 5 || (scp == 4 && a != 1 && b != 1)
  else match scp with
    | 0 => a == b
    | 1 => a / 64 == b / 64
    | 2 => die a == die b
    | 3 => die a == die b
    | _ => true

/-- Whether an access of this agent and the access that made a write are both acquire or release and each lies in the other's
instance of its scope: such accesses do not race (R183), and take effect in the order of their steps, so that a race-free
program is an interleaving (R180). -/
def State.synced (s : State) (g : Agent) (r : WRec) : Bool :=
  match r.sync with
  | some scp => decide (2 ≤ g.ord) && s.inScope scp r.pick g.pick && s.inScope g.scp g.pick r.pick &&
    !(r.inHost && decide (scp < 4 ∨ g.scp < 4))
  | none => false

/-- Whether an access of this agent may come before a write, in what it reads or in coherence order. -/
def State.passes (s : State) (g : Agent) (r : WRec) : Bool := r.free g && !s.synced g r

/-- Whether an acquire of this agent that has missed a release to the place once finds it: one marked `.RMT` does, and one
that the release's scope takes in (R30, R186). -/
def State.finds (s : State) (g : Agent) (r : WRec) : Bool :=
  decide (2 ≤ g.ord) && r.missed.contains g.key && r.rels.any (fun x => g.rmt || s.inScope x.scope r.pick g.pick)

/-- Whether a read of an agent at a location goes back over a write, by free choice where it may (R156, R180, R181,
R466). -/
def State.skips (s : State) (g : Agent) (l : Nat) (r : WRec) : Bool :=
  g.caps.any (fun c => c.1 == l && (c.2.1.contains r.id || decide (c.2.2 ≤ r.id))) ||
  ((s.passes g r && !s.finds g r) || (g.loose.contains l && decide (g.looseSince ≤ r.id)) || s.confused l) &&
  (s.free 3 (Nat.pair (Nat.pair r.id l) g.key) ||
    (g.tag != 0 && s.free 30 (Nat.pair (Nat.pair r.id l) (Nat.pair g.key g.tag))))

/-- The words (locations with the bits asked for) as an agent reads them at one go, and the writes they come from. -/
def State.lookAt (s : State) (g : Agent) (ws : List (Nat × Word)) : List Bits × List Nat :=
  lookBack (s.skips g ((ws.head?.map (·.1)).getD 0)) s.wlog (ws.map (fun w => (w.1, w.2, s.wordAt w.1)))

/-- The words that bytes lie in, with the bits asked for. -/
def wordsOf (cells : List (Nat × Nat)) : List (Nat × Word) :=
  (packBits (cells.map (fun e => (e.1, e.2, 0xFF, 0)))).map (fun b => (b.1, b.2.1))

/-- What an agent reads in bytes: word by word, or all at one go (R174); and the writes that it comes from. -/
def State.look (s : State) (g : Agent) (joint : Bool) (cells : List (Nat × Nat)) : List Byte × List Nat :=
  let ws := wordsOf cells
  let rs := if joint then [s.lookAt g ws] else ws.map (fun w => s.lookAt g [w])
  let all := rs.flatMap (·.1)
  -- a word's mask has lost the bits that a write settled, its value stands
  (cells.map (byteOf all), rs.flatMap (·.2))

/-- The number of the bytes at resolved addresses as the agent reads them. -/
def State.readPas (s : State) (g : Agent) (pas : List Nat) (joint : Bool := false) : Nat :=
  ofLe (s.look g joint (s.memCells pas)).1

/-- The number of n scratch bytes as the agent reads them. -/
def State.readScr (s : State) (g : Agent) (t a n : Nat) (joint : Bool := false) : Nat :=
  ofLe (s.look g joint (scrCells t a n)).1

/-- A tile word as the agent reads it. -/
def State.readTile (s : State) (g : Agent) (t w : Nat) : Word :=
  match (s.lookAt g [(tileLoc t w, BitVec.allOnes 32)]).1 with
  | b :: _ => b.2.2
  | [] => 0

/-! ## Writing -/

/-- The records from the newest to the one numbered n. -/
def upTo (n : Nat) : List WRec → List WRec
  | [] => []
  | r :: rs => if r.id = n then [r] else r :: upTo n rs

/-- The records behind which a write of words may go, of those it may pass, newest first. Between a read-modify-write and what
it read no write comes: what it took of a word must have been written again by a record passed after it (R188). -/
def openEnds (u : List (Nat × Word)) : List Word → List WRec → List Nat
  | _, [] => []
  | held, r :: rs =>
    let held1 := (u.zip held).map (fun (b, h) => (h &&& ~~~(r.maskAt b.1)) ||| if r.rmw then r.maskAt b.1 &&& b.2 else 0)
    if held1.all (· == 0) then r.id :: openEnds u held1 rs else openEnds u held1 rs

/-- The record behind which a write of these words by an agent goes in coherence order, by free choice among the writes it
may pass; none: it is the newest (R181, R188). -/
def State.placeOf (s : State) (g : Agent) (u : List (Nat × Word)) : Option Nat :=
  let pass := (s.wlog.filter (fun r => u.any (fun b => r.maskAt b.1 &&& b.2 != 0))).takeWhile (s.passes g)
  let ends := openEnds u (u.map (fun _ => 0)) pass
  let i := s.freeTo 11 (Nat.pair ((u.head?.map (·.1)).getD 0) g.key) ends.length
  if i = 0 then none else ends[i - 1]?

/-- The records newer than a new write, with what they find before them; and the bits of it that stand at the end. -/
def rebase : List WRec → List Bits → List WRec × List Bits
  | [], u => ([], u)
  | r :: rs, u =>
    let x := rebase rs u
    ({ r with cells := r.cells.map (fun c =>
        match x.2.find? (fun b => b.1 == c.loc) with
        | some b => { c with prior := mix c.prior (c.mask &&& b.2.1) b.2.2 }
        | none => c) } :: x.1,
      x.2.map (fun b => (b.1, b.2.1 &&& ~~~(r.maskAt b.1), b.2.2)))

/-- One write of an agent, behind the record numbered so in coherence order, or as the newest (R175). -/
def State.putUnit (s : State) (g : Agent) (rels : List Rel) (rmw : Bool) (behind : Option Nat) (u : List Bits) : State :=
  let newer := match behind with
    | some n => upTo n s.wlog
    | none => []
  let before (b : Bits) : Word := newer.foldl (fun v r => r.undo b.1 (BitVec.allOnes 32) v) (s.wordAt b.1)
  let x : WRec := {
    id := s.nextW
    cells := u.map (fun b => ⟨b.1, b.2.1, b.2.2 &&& b.2.1, before b &&& b.2.1⟩)
    cls := g.cls, pick := g.pick, path := g.path, batch := g.batch, known := [g.key], rels, rmw, writer := g.key
    sync := if g.ord < 2 then none else some g.scp, pages := g.pages }
  let y := rebase newer u
  let s1 : State := { s with nextW := s.nextW + 1, wlog := y.1 ++ x :: s.wlog.drop newer.length }
  y.2.foldl (fun (s : State) (b : Bits) => s.putWord b.1 b.2.1 (mix (s.wordAt b.1) b.2.1 b.2.2)) s1

/-- Near FADDs on the lines of memory words are applied at the home and combine no further (R191). -/
def State.recall (s : State) (locs : List Nat) : State :=
  if s.fadds.isEmpty then s
  else { s with fadds := s.fadds.filter (fun f => !locs.any (fun l => l % 4 == 0 && l / 128 == f.loc / 128)) }

/-- The 4 KiB page of the host window that a word of memory lies in. -/
def hostPageOf (l : Nat) : Option Nat :=
  if l % 4 = 0 ∧ 0x4000000000000 ≤ l ∧ l < 0x8000000000000 then some ((l - 0x4000000000000) / 4096) else none

/-- The function whose context the pick of an agent belongs to (R437, R515). -/
def State.agentFn (s : State) (g : Agent) : Nat :=
  (tget ({} : Context) s.ctxs (tget ({} : Team) s.teams (g.pick / 64)).ctx).fn

/-- The I/O die caches the host translations that the accesses of a function with ATS in use took: the 512 newest (R515). -/
def State.hostFill (s : State) (g : Agent) (locs : List Nat) : State :=
  let pages := (locs.filterMap hostPageOf).eraseDups
  let fn := s.agentFn g
  let f := tget ({} : Function) s.fns fn
  if pages.isEmpty ∨ f.atsOn = false ∨ g.pick < 64 then s
  else { s with fns := tput {} s.fns fn { f with ats := (pages ++ f.ats.filter (fun p => !pages.contains p)).take 512 } }

/-- What an agent's access to words does to copies and caches (R191, R515). -/
def State.reach (s : State) (g : Agent) (locs : List Nat) : State := (s.recall locs).hostFill g locs

/-- Writes of words by an agent, each unit at one go. -/
def State.putUnits (s : State) (g : Agent) (rels : List Rel) : List (List Bits) → State
  | [] => s
  | u :: us =>
    ((s.putUnit g rels false (s.placeOf g (u.map (fun b => (b.1, b.2.1)))) u).reach g (u.map (·.1))).putUnits g rels us

/-- A store of bytes at resolved addresses. -/
def State.storePas (s : State) (g : Agent) (pas : List Nat) (vs : List Byte) : State :=
  s.putUnits g [] (memUnits (wholeBytes pas vs))

/-- Bytes from an address on. -/
def runBytes (a : Nat) (vs : List Byte) : List (Nat × Byte × Byte) := (vs.zipIdx).map (fun (v, k) => (a + k, 0xFF, v))

/-- A store of bytes in a team's scratch. -/
def State.storeScratch (s : State) (g : Agent) (t a : Nat) (vs : List Byte) : State :=
  s.putUnits g [] (scrUnits t (runBytes a vs))

/-- A tile word written by an agent; its poison is cleared. -/
def State.writeTile (s : State) (g : Agent) (t w : Nat) (v : Word) : State :=
  s.putUnits g [] [[(tileLoc t w, BitVec.allOnes 32, v)]]

/-! ## Release and acquire (R176 to R179, R186) -/

/-- The write records that happen before what an agent does next. -/
def State.knownIds (s : State) (g : Agent) : List Nat := (s.wlog.filter (fun r => r.before g)).map (·.id)

/-- Those of some write records that a release and an acquire of these scopes order: narrower scopes than the device's order
nothing in the host window (R465). -/
def State.orderedIds (s : State) (scp scp' : Nat) (ids : List Nat) : List Nat :=
  if scp < 4 ∨ scp' < 4 then ids.filter (fun i => !s.wlog.any (fun r => r.id == i && r.inHost)) else ids

/-- The write records that a team's picks knew or made (R73). -/
def State.teamIds (s : State) (t : Nat) : List Nat :=
  (s.wlog.filter (fun r => r.known.any (fun k => k / 4096 == t))).map (·.id)

/-- A team's number is used again: its scratch and tiles are new memory (R151), its picks new agents. -/
def State.freshTeamLog (s : State) (t : Nat) : State :=
  if s.wlog.isEmpty then s
  else { s with wlog := (s.wlog.filter (fun r => r.cells.all (fun c => locTeam c.loc != t))).map (fun r =>
    { r with known := r.known.filter (fun k => k / 4096 != t), seen := r.seen.filter (fun k => k / 4096 != t) }) }

/-- Write records that now happen before what the agent of a key does next. -/
def State.learn (s : State) (key : Nat) (ids : List Nat) : State :=
  if ids.isEmpty then s
  else { s with wlog := s.wlog.map (fun r =>
    if ids.contains r.id && !r.known.contains key then { r with known := key :: r.known } else r) }

/-- The agent of a key has read these writes (R175). -/
def State.mark (s : State) (key : Nat) (ids : List Nat) : State :=
  if ids.isEmpty then s
  else { s with wlog := s.wlog.map (fun r =>
    if ids.contains r.id && !r.seen.contains key then { r with seen := key :: r.seen } else r) }

/-- What release fences of an agent have made ready to publish (R178). -/
def State.fenceRels (s : State) (g : Agent) : List Rel :=
  ((tget ({} : Pick) s.picks g.pick).relFence.filter (fun e => e.1 == g.key)).map (·.2)

/-- What the next write, made by an agent with these attributes, releases: the write itself happens before what acquires it
(R176, R178). -/
def State.relsOf (s : State) (g : Agent) (y : Sync) : List Rel :=
  if y.ord = 0 then []
  else
    let own : List Rel := if y.ord = 3 ∨ y.ord = 4 then [⟨g.pick, y.scp, s.knownIds g⟩] else []
    (own ++ s.fenceRels g).map (fun x => { x with ids := s.nextW :: x.ids })

/-- A release at cluster scope or wider recalls every update-only copy of the lines of which its loom holds one (R191). -/
def State.recallLoom (s : State) (pick scp : Nat) : State :=
  let t := tget ({} : Team) s.teams (pick / 64)
  if s.fadds.isEmpty ∨ scp < 2 then s
  else
    let lines := (s.fadds.filter (fun f => f.looms.contains (64 * t.die + t.loom))).map (·.loc / 128)
    { s with fadds := s.fadds.filter (fun f => !lines.contains (f.loc / 128)) }

/-- What an access with these attributes recalls as a release, by itself or by an earlier release fence (R178, R191). -/
def State.recallRelease (s : State) (g : Agent) (y : Sync) : State :=
  ((s.relsOf g y).map (·.scope)).foldl (fun s scp => s.recallLoom g.pick scp) s

/-- A store of an agent with ordering attributes: a synchronising one at one go (R174, R176). -/
def State.storeSync (s : State) (g : Agent) (y : Sync) (us : List (List Bits)) : State :=
  (s.recallRelease g y).putUnits (g.as y) (s.relsOf g y) (if y.ord = 0 then us else [us.flatten])

/-- What writes release; `.RMT` takes in every release up to them in coherence order, at device scope, or at system scope
in another device's memory (R186). -/
def State.relsSeen (s : State) (y : Sync) (locs ids : List Nat) : List Rel :=
  let own := (s.wlog.filter (fun r => ids.contains r.id)).flatMap (·.rels)
  if !y.rmt then own
  else
    let up := if y.scp = 5 ∧ locs.any (fun l => decide (l % 4 = 0 ∧ 0x8000000000000 ≤ l)) then 5 else 4
    ((s.wlog.dropWhile (fun r => !ids.contains r.id)).filter (fun r => locs.any (fun l => r.maskAt l != 0))).flatMap
      (fun r => r.rels.map (fun x => { x with scope := max x.scope up }))

/-- Write records that an acquire by an agent brings: a lane's reach the S-stream with its batch (R179). -/
def State.learnFor (s : State) (g : Agent) (ids : List Nat) : State :=
  let s1 := s.learn g.key ids
  if g.cls ≠ 0 ∨ ids.isEmpty ∨ 2 ≤ g.path then s1
  else
    let p := tget ({} : Pick) s1.picks g.pick
    let x := tget ({} : PathState) p.paths g.path
    let p1 : Pick := { p with paths := tput {} p.paths g.path { x with acq := x.acq ++ [(g.batch, ids)] } }
    { s1 with picks := tput {} s1.picks g.pick p1 }

/-- The ordering effect of a synchronising read of locations that found these writes (R176, R178, R186). -/
def State.acquire (s : State) (g : Agent) (y : Sync) (locs ids : List Nat) : State :=
  let rels := s.relsSeen y locs ids
  if y.ord = 0 ∨ rels.isEmpty then s
  else
    let s1 := if y.ord = 2 ∨ y.ord = 4 then
      s.learnFor g ((rels.filter (fun x => s.inScope x.scope x.pick g.pick && s.inScope y.scp g.pick x.pick)).flatMap
        (fun x => s.orderedIds x.scope y.scp x.ids))
      else s
    let p := tget ({} : Pick) s1.picks g.pick
    let p1 : Pick := { p with rlxSeen := p.rlxSeen ++ rels.map (fun x => (g.key, x)) }
    { s1 with picks := tput {} s1.picks g.pick p1 }

/-- A home copy that an uncorrectable error took is rewritten from its partner when a read meets it (R466). -/
def State.heal (s : State) (pas : List Nat) : State :=
  if s.poison.isEmpty then s
  else (((pas.filter (fun a => paMirrored a && s.poison.contains (paHome a / 4) && !s.poison.contains (paTwin a / 4))).map
      (fun a => memLoc (paHome a))).eraseDups).foldl
    (fun s l => s.putWord l (BitVec.allOnes 32) (s.wordAt (memLoc (paTwin l)))) s

/-- The releases to some words that an acquire of an agent in state s0 goes back over: it misses them once (R186). -/
def State.noteMissed (s0 s : State) (g : Agent) (locs : List Nat) : State :=
  let ids := (s0.wlog.filter (fun r => !r.rels.isEmpty &&
    locs.any (fun l => (r.at_ l).isSome && s0.skips g l r))).map (·.id)
  if g.ord < 2 ∨ ids.isEmpty then s
  else { s with wlog := s.wlog.map (fun r => if ids.contains r.id then { r with missed := g.key :: r.missed } else r) }

/-- What a read of bytes in state s0 by an agent leaves behind: what it saw (R175), the line recalled (R191), and what an
acquire orders. -/
def State.noteLook (s0 s : State) (g : Agent) (y : Sync) (joint : Bool) (cells : List (Nat × Nat)) : State :=
  let ids := (s0.look (g.as y) joint cells).2
  let locs := (cells.map (·.1)).eraseDups
  s0.noteMissed (((s.mark g.key ids).reach g locs).acquire g y locs ids) (g.as y) locs

/-- The same at resolved addresses. -/
def State.notePas (s : State) (g : Agent) (y : Sync) (joint : Bool) (pas : List Nat) : State :=
  (s.noteLook s g y joint (s.memCells pas)).heal pas

/-- A read-modify-write of bytes by an agent (R188): the old number, and the state with f of it in its place, directly after
what was read in coherence order. It releases what its attributes give, or `own`. -/
def State.modify (s : State) (g : Agent) (y : Sync) (cells : List (Nat × Nat)) (twin : List (Nat × Nat)) (f : Nat → Nat)
    (own : List Rel := s.relsOf g y) : State × Nat :=
  let ws := wordsOf cells
  let at_ := s.placeOf (g.as y) ws
  let newer : List Nat := match at_ with
    | some n => (upTo n s.wlog).map WRec.id
    | none => []
  let x := lookBack (fun r => newer.contains r.id) s.wlog (ws.map (fun w => (w.1, w.2, s.wordAt w.1)))
  let old := ofLe (cells.map (byteOf x.1))
  let vs := leBytes cells.length (f old)
  let u := packBits (((cells ++ twin).zip (vs ++ vs)).map (fun e => (e.1.1, e.1.2, 0xFF, e.2)))
  let rels := own ++ (s.wlog.filter (fun r => x.2.contains r.id)).flatMap (·.rels)
  let locs := ws.map (·.1)
  ((((s.recallRelease g y).putUnit (g.as y) rels true at_ u).hostFill g locs).acquire g y locs x.2, old)

/-! ## Translation (R459 to R464) -/

/-- Where an access ends in translation. -/
inductive AccErr where
  /-- A failed walk or a missing right (R469): stage, level, the failing VA or IA, the VA of the access. -/
  | xlate (stage2 : Bool) (lvl addr va : Nat)
  /-- A nonzero bit in [63:56] (R144). -/
  | high (va : Nat)
  /-- A remote access that is refused (R464), or one that a die of another world refuses (R473), at this physical address:
  PERM, and no replay. -/
  | refused (va : Nat) (own : Option Nat := none)
  /-- The access would touch a lost die (R487). -/
  | lost (die va : Nat)
  /-- A poisoned word is read (R486). -/
  | poisoned (va : Nat)
deriving DecidableEq, Repr

/-- One level of a walk (R460): level, low index bit, index bits. -/
abbrev Level := Nat × Nat × Nat

/-- The levels of a stage-1 walk. -/
def stage1Levels : List Level := [(0, 48, 8), (1, 39, 9), (2, 30, 9), (3, 21, 9), (4, 16, 5)]

/-- The levels of a stage-2 walk. -/
def stage2Levels : List Level := [(0, 48, 4), (1, 39, 9), (2, 30, 9), (3, 21, 9), (4, 16, 5)]

/-- Bits of the next table's size after a level (R460). -/
def nextTableBits (lvl : Nat) : Nat := if lvl = 3 then 8 else 12

/-- Whether an entry breaks R461 at this level. -/
def entryBad (lvl shift : Nat) (stage2 : Bool) (e : Nat) : Bool :=
  !bit e 0 || bit e 7 || bits e 52 12 != 0 ||
  (if bit e 1 then lvl == 4 || bits e 2 5 != 0 || (bits e 8 44 * 256) % 2 ^ nextTableBits lvl != 0
   else decide (lvl ≤ 1) || (bits e 8 44 * 256) % 2 ^ shift != 0 || (!stage2 && bits e 5 2 != 0))

/-- The walk of R460 from a table base; rd reads an 8-byte entry. It gives the leaf entry and its size, or the level
of the failure; a failure of rd is passed on. -/
def walk (stage2 : Bool) (rd : Nat → Except AccErr Nat) (a va : Nat) : List Level → Nat → Except AccErr (Nat × Nat)
  | [], _ => .error (.xlate stage2 4 a va)
  | (lvl, shift, n) :: ls, base =>
    match rd (base + 8 * bits a shift n) with
    | .error e => .error e
    | .ok e =>
      if entryBad lvl shift stage2 e then .error (.xlate stage2 lvl a va)
      else if bit e 1 then walk stage2 rd a va ls (bits e 8 44 * 256)
      else .ok (e, shift)

/-- The first byte above DRAM (R464). -/
def dramEnd : Nat := 0xC000000000

/-- Whether an address is DRAM. -/
def isDram (pa : Nat) : Bool := decide (pa < dramEnd)

/-- Whether an address lies in the host window. -/
def isHost (pa : Nat) : Bool := decide (0x4000000000000 ≤ pa ∧ pa < 0x8000000000000)

/-- Whether an address lies in the remote window. -/
def isRemote (pa : Nat) : Bool := decide (0x8000000000000 ≤ pa)

/-- The home die of a DRAM address (R19). -/
def homeDie (pa : Nat) : Nat := bits pa 36 4

/-- Whether a stage-2 leaf maps a reserved range, or has CMP or MIR outside DRAM (R462). -/
def leaf2Form (e shift : Nat) : Bool :=
  let base := bits e 8 44 * 256
  (decide (dramEnd ≤ base + (2 ^ shift - 1)) && decide (base < 0x4000000000000)) || (!isDram base && bits e 5 2 != 0)

/-- Whether an address is DRAM of a die that another world holds, or none (R462, R473). -/
def State.foreign (s : State) (world pa : Nat) : Bool :=
  isDram pa && (tget ({} : Die) s.dies (homeDie pa)).world != world

/-- The world's stage-2 root: that of any die latched to it, one that serves if there is one (R472). -/
def State.s2root (s : State) (world : Nat) : Nat :=
  let of (f : Die → Bool) : Option (Nat × Die) := s.dies.find? (fun d => d.2.world == world && d.2.world != 0 && f d.2)
  (((of (fun d => !d.lost)) <|> of (fun _ => true)).map (fun d => d.2.s2root)).getD 0

/-- The write record number from which on translation caches may still hold entries read for an address: that of the last
invalidation covering it (R467, R468). -/
def cachedFrom (invs : List (Nat × Nat × Nat)) (a : Nat) : Nat :=
  invs.foldl (fun w (first, n, at_) => if n = 0 ∨ (first ≤ a ∧ a < first + 65536 * n) then max w at_ else w) 0

/-- Whether an invalidation of a range, or of the whole space, covers a 64 KiB page (R468). -/
def coversPage (run : Nat × Nat × Nat) (page : Nat) : Bool :=
  run.2.1 == 0 || decide (run.1 / 65536 ≤ page ∧ page < run.1 / 65536 + run.2.1)

/-- The values that the entry of two words had before its newer writes, back to the write numbered `since`. -/
def olderEntries (a since : Nat) : List WRec → Word → Word → List Nat
  | [], _, _ => []
  | r :: rs, lo, hi =>
    if r.id < since then olderEntries a since rs lo hi
    else
      let lo1 := r.undo a (BitVec.allOnes 32) lo
      let hi1 := r.undo (a + 4) (BitVec.allOnes 32) hi
      (lo1.toNat + 2 ^ 32 * hi1.toNat) :: olderEntries a since rs lo1 hi1

/-- A table entry at a physical address as a walk finds it: what memory holds, or by free choice a valid entry that a
cache has kept since the last invalidation covering the address translated (R467). -/
def State.entryAt (s : State) (a since : Nat) : Nat :=
  let now := rdNat s.mem a 8
  let rs := s.wlog.filter (fun r => (r.at_ a).isSome || (r.at_ (a + 4)).isSome)
  let old := (olderEntries a since rs (s.wordAt a) (s.wordAt (a + 4))).filter (fun e => bit e 0)
  let i := s.freeTo 31 a old.length
  if i = 0 then now else (old[i - 1]?).getD now

/-- A walk of stage 2 reads a table entry in memory: none on a lost die answers, every flit to it being dropped (R487), and a
die of another world refuses (R473). -/
def State.walkRead (s : State) (world pa since va : Nat) : Except AccErr Nat :=
  if isDram pa ∧ (tget ({} : Die) s.dies (homeDie pa)).lost then .error (.lost (homeDie pa) va)
  else if s.foreign world pa then .error (.refused va (some pa))
  else .ok (s.entryAt pa since)

/-- Whether a translation cache may hold a leaf to a die that the walk's world has held since the last invalidation covering
the IA, and has left (R467). -/
def State.keptLeaf (s : State) (world pa since : Nat) : Bool :=
  (tget ({} : Die) s.dies (homeDie pa)).left.any (fun e => e.1 == world && decide (since ≤ e.2)) && s.free 40 (pa / 65536)

/-- The stage-2 translation of an IA: physical address and leaf. A leaf to a die of another world fails the walk, and where a
cache has kept it from before, the die refuses the access (R462, R473). -/
def State.stage2 (s : State) (world ia va : Nat) : Except AccErr (Nat × Nat) :=
  let since := cachedFrom (tget ({} : World) s.worlds world).invs ia
  match walk true (fun a => s.walkRead world a since va) ia va stage2Levels (s.s2root world) with
  | .error e => .error e
  | .ok (e, shift) =>
    let pa := bits e 8 44 * 256 + ia % 2 ^ shift
    let fails : AccErr := .xlate true (if shift = 30 then 2 else if shift = 21 then 3 else 4) ia va
    if leaf2Form e shift then .error fails
    else if s.foreign world (bits e 8 44 * 256) then .error (if s.keptLeaf world pa since then .refused va (some pa) else fails)
    else .ok (pa, e)

/-- Rights of an access as bits 2 (R), 3 (W), 4 (X) of an entry (R462). -/
abbrev rightR : Nat := 4
/-- Write. -/
abbrev rightW : Nat := 8
/-- Fetch. -/
abbrev rightX : Nat := 16
/-- Read and write. -/
abbrev rightRW : Nat := 12

/-- Whether an entry grants the rights. -/
def grants (e need : Nat) : Bool := e &&& need == need

/-- The physical address of an IA for stage 2 alone (save areas, dump areas, backing areas, R459), with the leaf. -/
def State.translate2 (s : State) (world ia need : Nat) : Except AccErr (Nat × Nat) :=
  match s.stage2 world ia ia with
  | .error e => .error e
  | .ok (pa, e) => if grants e need then .ok (pa, e) else .error (.xlate true 5 ia ia)

/-- The partner die of a mirrored page (R466). -/
def partner (n : Nat) : Nat := (n + 6) % 12

/-- The die whose loss an access to this address would meet, or none (R31, R466, R485): a whole mirrored pair touches
no die; a degraded one touches the die that serves it. -/
def State.touches (s : State) (pa leaf : Nat) : Option Nat :=
  if isDram pa then
    let n := homeDie pa
    let lost := fun d => (tget ({} : Die) s.dies d).lost
    if bit leaf 6 then (if !lost n && !lost (partner n) then none else if lost n then some (partner n) else some n)
    else some n
  else none

/-- The switch plane that a scale-up port attaches to under its group's GMODE (R518). -/
def State.planeOf (s : State) (port : Nat) : Nat :=
  let g := port / 4
  match tget 0 s.dev.gmode g with
  | 0 => port
  | 1 => 4 * g + 2 * (port % 4 / 2)
  | _ => 4 * g

/-- Whether a plane serves the domain: one that some devices reach and others do not is out of service (R518). -/
def State.planeServes (s : State) (plane : Nat) : Bool := s.dev.peerPlanes.all (fun e => e.2.contains plane)

/-- Whether a scale-up port is in service on a plane in service: none is before DEVID is written (R517). -/
def State.planesUp (s : State) : Bool :=
  s.dev.devid.isSome && (List.range 36).any (fun p =>
    !(tget ({} : Link) s.links (36 + p)).down && s.planeServes (s.planeOf p))

/-- Whether an access to an IA of a world on a device is refused (R464, R517): it is the issuing device, no plane in service
reaches it, it serves no such world, or its walk fails. -/
def State.peerRefuses (s : State) (dev world ia : Nat) : Bool :=
  s.dev.devid == some dev || !s.planesUp ||
  !s.dev.peers.any (fun (d, w, lo, n) => d == dev && w == world && decide (lo ≤ ia ∧ ia < lo + n))

/-- Whether the host's translation of a page of the host window fails or lacks a right, for a function that uses ATS, and
the I/O die serves it from no translation held (R515). -/
def State.hostRefuses (s : State) (fn pa need : Nat) : Bool :=
  let f := tget ({} : Function) s.fns fn
  let page := (pa - 0x4000000000000) / 4096
  f.atsOn && f.atsFails.any (fun e => e.1 == page && e.2 &&& need != 0) && !(f.ats.contains page && s.free 36 page)

/-- What a translated address allows: the resolved address with the bits it adds to the touched-dies mask (R485), or how
the access ends (R464, R487). A page whose home is lost is served at its partner (R487). -/
def State.accepted (s : State) (c : Context) (va need : Nat) (r : Except AccErr (Nat × Nat)) : Except AccErr (Nat × Nat) :=
  match r with
  | .error e => .error e
  | .ok (pa, leaf) =>
    let lost := fun d => (tget ({} : Die) s.dies d).lost
    if (isRemote pa && s.peerRefuses (bits pa 42 9) c.world (bits pa 0 42)) || (isHost pa && s.hostRefuses c.fn pa need) then
      .error (.refused va)
    else match s.touches pa leaf with
      | none => .ok (if isDram pa then pa + 2 ^ 52 else pa, 0)
      | some d => if lost d then .error (.lost d va)
        else .ok (if homeDie pa = d then pa else paTwin pa, 2 ^ d)

/-- The stage-1 translation of a virtual address: the leaf and the IA. Its tables lie in the IA space (R460), whose accesses
end as any others (R464, R466, R487). -/
def State.stage1 (s : State) (c : Context) (va : Nat) : Except AccErr (Nat × Nat) :=
  let rd := fun ia =>
    match s.stage2 c.world ia va with
    | .error e => .error e
    | .ok (pa, e) =>
      if !grants e rightR then .error (.xlate true 5 ia va)
      else match s.accepted c va rightR (.ok (pa, e)) with
        | .error x => .error x
        | .ok (a, _) => .ok (s.entryAt (s.servePa a) (cachedFrom c.invs va))
  match walk false rd va va stage1Levels c.s1root with
  | .error e => .error e
  | .ok (e, sh) => .ok (e, bits e 8 44 * 256 + va % 2 ^ sh)

/-- The two-stage translation of a virtual address of a context (R459, R462): physical address and stage-2 leaf. -/
def State.translate (s : State) (c : Context) (va need : Nat) : Except AccErr (Nat × Nat) :=
  if 2 ^ 56 ≤ va then .error (.high va)
  else match s.stage1 c va with
    | .error e => .error e
    | .ok (e1, ia) =>
      match s.stage2 c.world ia va with
      | .error e => .error e
      | .ok (pa, e2) =>
        if !grants e1 need then .error (.xlate false 5 va va)
        else if !grants e2 need then .error (.xlate true 5 ia va)
        else .ok (pa, e2)

/-- The 64 KiB pages of virtual addresses, with the pages of IAs that they map to. -/
def State.pagesAt (s : State) (c : Context) (vas : List Nat) : List (Nat × Nat) :=
  ((vas.map (· / 65536)).eraseDups).filterMap (fun v => match s.stage1 c (65536 * v) with
    | .ok (_, ia) => some (v, ia / 65536)
    | .error _ => none)

/-- Byte by byte: the addresses and the union of the touched dies. -/
def resolveEach (f : Nat → Except AccErr (Nat × Nat)) (va : Nat) : Nat → Except AccErr (List Nat × Nat)
  | 0 => .ok ([], 0)
  | n + 1 =>
    match f va with
    | .error e => .error e
    | .ok (pa, m) =>
      match resolveEach f (va + 1) n with
      | .error e => .error e
      | .ok (pas, m') => .ok (pa :: pas, m ||| m')

/-- The physical address of each of the n bytes at va by a translation f, with the touched dies. One translation
serves the bytes of one 64 KiB page; in the host window, of a 4 KiB page of the host (R515). -/
def resolveBy (f : Nat → Except AccErr (Nat × Nat)) (va n : Nat) : Except AccErr (List Nat × Nat) :=
  if va % 65536 + n ≤ 65536 then
    match f va with
    | .error e => .error e
    | .ok (pa, m) =>
      if isHost pa ∧ 4096 < va % 4096 + n then resolveEach f va n else .ok ((List.range n).map (pa + ·), m)
  else resolveEach f va n

/-- The bytes at a virtual address of a context. -/
def State.resolve (s : State) (c : Context) (need va n : Nat) : Except AccErr (List Nat × Nat) :=
  resolveBy (fun a => s.accepted c a need (s.translate c a need)) va n

/-- The same for addresses that stage 2 alone translates (R459). -/
def State.resolve2 (s : State) (c : Context) (need ia n : Nat) : Except AccErr (List Nat × Nat) :=
  resolveBy (fun a => s.accepted c a need (s.translate2 c.world a need)) ia n

/-- The context's touched-dies mask with bits set (R485). -/
def State.touchDies (s : State) (ctx m : Nat) : State :=
  let c := tget ({} : Context) s.ctxs ctx
  if m = 0 then s
  else { s with ctxs := tput {} s.ctxs ctx { c with tdmask := c.tdmask ||| BitVec.ofNat 13 m } }

end Sys2Proof.Machine
end

