-- ==== Sys2Proof/Machine/Ops.lean ====
section
/-! DEFINITION. The shared operations: the focus pick and its registers, batches and pending results, strands and
fragments, fault records, the end of a context, taking a trap and returning from one. -/

namespace Sys2Proof.Machine

/-- What a step answers. -/
abbrev Out := Host.Outcome State Fault Refusal

/-! ## Records of the state -/

/-- The pick with a number (team times 64 plus index). -/
def State.pickAt (s : State) (k : Nat) : Pick := tget ({} : Pick) s.picks k

/-- The state with that pick replaced. -/
def State.setPickAt (s : State) (k : Nat) (p : Pick) : State := { s with picks := tput {} s.picks k p }

/-- The pick in execution. -/
def State.pick (s : State) : Pick := s.pickAt s.cur

/-- The state with the pick in execution replaced. -/
def State.setPick (s : State) (p : Pick) : State := s.setPickAt s.cur p

/-- A team by number. -/
def State.teamAt (s : State) (t : Nat) : Team := tget ({} : Team) s.teams t

/-- The state with a team replaced. -/
def State.setTeamAt (s : State) (t : Nat) (m : Team) : State := { s with teams := tput {} s.teams t m }

/-- The team of the pick in execution. -/
def State.team (s : State) : Team := s.teamAt s.pick.team

/-- The state with that team replaced. -/
def State.setTeam (s : State) (m : Team) : State := s.setTeamAt s.pick.team m

/-- A context by number. -/
def State.ctxAt (s : State) (c : Nat) : Context := tget ({} : Context) s.ctxs c

/-- The state with a context replaced. -/
def State.setCtxAt (s : State) (c : Nat) (x : Context) : State := { s with ctxs := tput {} s.ctxs c x }

/-- The context of the pick in execution. -/
def State.ctx (s : State) : Context := s.ctxAt s.team.ctx

/-- A die by number. -/
def State.dieAt (s : State) (n : Nat) : Die := tget ({} : Die) s.dies n

/-- The state with a die replaced. -/
def State.setDieAt (s : State) (n : Nat) (d : Die) : State := { s with dies := tput {} s.dies n d }

/-- A launch by number. -/
def State.launchAt (s : State) (n : Nat) : Launch := tget ({} : Launch) s.launches n

/-- The state with a launch replaced. -/
def State.setLaunchAt (s : State) (n : Nat) (l : Launch) : State := { s with launches := tput {} s.launches n l }

/-- A world by identifier. -/
def State.worldAt (s : State) (w : Nat) : World := tget ({} : World) s.worlds w

/-- The state with a world replaced. -/
def State.setWorldAt (s : State) (w : Nat) (x : World) : State := { s with worlds := tput {} s.worlds w x }

/-- An engine operation by number. -/
def State.opAt (s : State) (n : Nat) : Option Op := s.ops.lookup n

/-- The state with an operation replaced. -/
def State.setOp (s : State) (n : Nat) (o : Op) : State :=
  { s with ops := s.ops.map (fun e => if e.1 = n then (n, o) else e) }

/-- Add to a management counter of a die, which saturates (R483). -/
def State.count (s : State) (die c n : Nat) : State :=
  let d := s.dieAt die
  let v := (tget 0 d.counters c).toNat + n
  s.setDieAt die { d with counters := tput 0 d.counters c (if v < 2 ^ 64 then BitVec.ofNat 64 v else BitVec.allOnes 64) }

/-- The number of the codes of R420. -/
def Cause.code : Cause → Nat
  | .illOpcode => 0x01
  | .illOperand => 0x02
  | .unimplOpt => 0x03
  | .stallShort => 0x08
  | .deadRead => 0x09
  | .frameHazard => 0x0A
  | .landing => 0x10
  | .uniform => 0x11
  | .rstackOvf => 0x12
  | .safeptDist => 0x13
  | .misalign => 0x18
  | .xlate => 0x19
  | .perm => 0x1A
  | .dataPoison => 0x1B
  | .bounds => 0x1C
  | .slotUnbound => 0x20
  | .scaleCount => 0x21
  | .jointMismatch => 0x22
  | .depUnderflow => 0x28
  | .succShape => 0x29
  | .dieLost => 0x30
  | .collErr => 0x31
  | .breakpoint => 0x38

/-! ## Scalar registers (R75, R76, R234) -/

/-- The absolute number of a window register (R75). -/
def Pick.abs (p : Pick) (r : BitVec 6) : Nat := p.wb.toNat + r.toNat

/-- A window register: w0 reads zero (R75). -/
def Pick.w (p : Pick) (r : BitVec 6) : Word := if r = 0 then 0 else tget 0 p.sregs (p.abs r)

/-- A write of a window register: w0 discards it (R75); the word's poison is cleared (R234). -/
def Pick.setW (p : Pick) (r : BitVec 6) (v : Word) : Pick :=
  if r = 0 then p
  else { p with sregs := tput 0 p.sregs (p.abs r) v, spoison := p.spoison.filter (· != p.abs r) }

/-- A scalar predicate: b0 reads true (R76). -/
def Pick.b (p : Pick) (n : BitVec 3) : Bool := n == 0 || p.bpred.getLsbD n.toNat

/-- A write of a scalar predicate: b0 discards it (R76). -/
def Pick.setB (p : Pick) (n : BitVec 3) (v : Bool) : Pick :=
  if n = 0 then p
  else { p with bpred := (p.bpred &&& ~~~(1#8 <<< n.toNat)) ||| ((if v then 1#8 else 0#8) <<< n.toNat) }

/-! ## Paths and batches (R164 to R168) -/

/-- The state of a path. -/
def Pick.path (p : Pick) (n : Nat) : PathState := tget {} p.paths n

/-- The pick with a path replaced. -/
def Pick.setPath (p : Pick) (n : Nat) (x : PathState) : Pick := { p with paths := tput {} p.paths n x }

/-- A batch of a path changed by f. -/
def PathState.onBatch (x : PathState) (num : Nat) (f : Batch → Batch) : PathState :=
  if x.opened.num = num then { x with opened := f x.opened }
  else { x with closed := x.closed.map (fun b => if b.num = num then f b else b) }

/-- Retirement: completed batches leave in the order they were closed, and the cause of a failed one becomes
pending (R166, R168). -/
def PathState.retireFrom : List Batch → PathState → PathState
  | [], x => { x with closed := [] }
  | b :: bs, x =>
    if b.ops = 0 ∧ b.blocks = 0 then
      PathState.retireFrom bs { x with
        retired := b.num
        causes := x.causes ++ (match b.cause with | some (c, v) => [(b.num, c, v)] | none => []) }
    else { x with closed := b :: bs }

/-- The path after every batch that can retire has retired. -/
def PathState.settle (x : PathState) : PathState := PathState.retireFrom x.closed x

/-- The path counter (R165, R166). -/
def PathState.counter (x : PathState) : Nat := x.closed.length

/-- One more operation joins a batch. -/
def Pick.opJoin (p : Pick) (path num : Nat) : Pick :=
  p.setPath path ((p.path path).onBatch num (fun b => { b with ops := b.ops + 1 }))

/-- An operation of a batch completes, with the cause it failed with; of several causes in a batch the first to come stays
(R168, log 57). -/
def Pick.opLeave (p : Pick) (path num : Nat) (cause : Option (Cause × BitVec 64)) : Pick :=
  p.setPath path ((p.path path).onBatch num
    (fun b => { b with ops := b.ops - 1, cause := b.cause <|> cause })).settle

/-- PCLOSE: the open batch closes and a new one opens (R165, R252). -/
def Pick.pclose (p : Pick) (n : Nat) : Pick :=
  let x := p.path n
  p.setPath n { x with closed := x.closed ++ [x.opened], opened := { num := x.opened.num + 1 } : PathState }.settle

/-- The eight paths closed, as SEXIT does (R168). -/
def Pick.closeAll (p : Pick) : Pick := (List.range 8).foldl Pick.pclose p

/-- A lane block leaves the LD and ST batches it was attached to (R165, R166). -/
def Pick.blockLeave (p : Pick) (b : Block) : Pick :=
  ((b.batches.take 2).zipIdx).foldl (fun p (num, path) =>
    p.setPath path ((p.path path).onBatch num (fun x => { x with blocks := x.blocks - 1 })).settle) p

/-! ## Lane registers (R77, R89, R107) -/

/-- A register name. -/
def Pick.name (p : Pick) (n : Nat) : Name := tget {} p.names n

/-- The pick with a name replaced. -/
def Pick.setName (p : Pick) (n : Nat) (x : Name) : Pick := { p with names := tput {} p.names n x }

/-- The lane block queue of the mode the pick is in (R415). -/
def Pick.blocks (p : Pick) : List Block := if p.mode then p.hqueue else p.queue

/-- The pick with that queue replaced. -/
def Pick.setBlocks (p : Pick) (q : List Block) : Pick := if p.mode then { p with hqueue := q } else { p with queue := q }

/-- The strand state in use (R425). -/
def Pick.ls (p : Pick) : LaneSet := if p.mode then p.hlanes else p.lanes

/-- The pick with the strand state in use replaced. -/
def Pick.setLs (p : Pick) (l : LaneSet) : Pick := if p.mode then { p with hlanes := l } else { p with lanes := l }

/-- Whether a lane block is in execution. -/
def Pick.running (p : Pick) : Bool :=
  match p.blocks with
  | b :: _ => b.started
  | [] => false

/-- The pick with its running block changed. -/
def Pick.onBlock (p : Pick) (f : Block → Block) : Pick :=
  match p.blocks with
  | b :: bs => p.setBlocks (f b :: bs)
  | [] => p

/-- The running block's k-register (R50). -/
def Pick.k (p : Pick) (n : Nat) : Word :=
  match p.blocks with
  | b :: _ => tget 0 b.k n
  | [] => 0

/-- A lane predicate: p0 reads true in every lane (R79). -/
def Pick.p (p : Pick) (n : Nat) : Word := if n = 0 then BitVec.allOnes 32 else tget 0 p.preds n

/-- The lanes of a mask, ascending. -/
def lanesOf (m : Word) : List Nat := (List.range 32).filter m.getLsbD

/-- Lanes written: those of mask take new values and lose their poison. -/
def Name.write (x : Name) (mask : Word) (vals : Lanes) : Name :=
  { x with val := (lanesOf mask).foldl (fun t i => tput 0 t i (tget 0 vals i)) x.val
           poison := x.poison &&& ~~~mask }

/-- A result reaches its destination. A lane register that is no longer allocated takes nothing. -/
def Pick.deliver (p : Pick) (q : Pending) : Pick :=
  match q.dest with
  | .vreg n =>
    let x := p.name n
    if x.st = .allocated then p.setName n (x.write q.mask q.vals) else p
  | .pred n =>
    if n = 0 then p
    else
      let m := (lanesOf q.mask).foldl (fun (a : Word) i => if (tget 0 q.vals i) = 0 then a else a ||| (1 <<< i)) 0
      { p with preds := tput 0 p.preds n ((p.p n &&& ~~~q.mask) ||| m)
               ppoison := tput 0 p.ppoison n (tget 0 p.ppoison n &&& ~~~q.mask) }
  | .kreg n =>
    if q.mask = 0 then p
    else p.onBlock (fun b => { b with k := tput 0 b.k n (tget 0 q.vals 0)
                                      kWritten := b.kWritten ||| (1#16 <<< n)
                                      kPoison := b.kPoison &&& ~~~(1#16 <<< n) })
  | .nothing => p

/-- A result delivered and, for a variable-latency one, its operation completed. -/
def Pick.finish (p : Pick) (q : Pending) : Pick :=
  let p1 := p.deliver q
  if q.isVar ∧ q.path < 2 then { p1.opLeave q.path q.batch none with moved := p1.moved + q.bytes } else p1

/-- The pending results that f selects are delivered in issue order and leave the list. -/
def Pick.flush (p : Pick) (f : Pending → Bool) : Pick :=
  let p1 := (p.pending.filter f).foldl Pick.finish p
  { p1 with pending := p.pending.filter (fun q => !f q) }

/-- The same, with what was issued before them to the same names (R105). -/
def Pick.flushInOrder (p : Pick) (f : Pending → Bool) : Pick :=
  p.flush (fun q => f q || (q.dest != .nothing && p.pending.any (fun x => f x && x.dest == q.dest && decide (q.seq < x.seq))))

/-- The lane clk moves on to t and the fixed-latency results due by then take effect (R105). -/
def Pick.advanceTo (p : Pick) (t : Nat) : Pick :=
  if t ≤ p.clk then p
  else { p.flush (fun q => !q.isVar && decide (q.due ≤ t)) with clk := t }

/-- The latest clk at which a fixed-latency result of the pick is due. -/
def Pick.lastDue (p : Pick) : Nat :=
  (p.pending.filter (fun q => !q.isVar)).foldl (fun a q => max a q.due) p.clk

/-- Every result issued to a register is delivered (step 4 of R422, R318): nothing but stores stays outstanding. -/
def Pick.drain (p : Pick) : Pick :=
  { p.flush (fun q => !q.isVar || q.dest != .nothing) with clk := p.lastDue }

/-! ## Strands and fragments (R55 to R62) -/

/-- A strand of the set in use. -/
def LaneSet.strand (l : LaneSet) (n : Nat) : Strand := tget {} l.strands n

/-- The set with a strand replaced. -/
def LaneSet.setStrand (l : LaneSet) (n : Nat) (x : Strand) : LaneSet := { l with strands := tput {} l.strands n x }

/-- Whether a strand is at LEND (R58). -/
def Strand.atLend (x : Strand) : Bool := x.lpc == none

/-- Pops of R56: at the reconvergence address, or with no lane left, entries are taken from the stack until neither
holds; with nothing left the strand is at LEND. -/
def Strand.popAll (x : Strand) : List StackEntry → Strand
  | [] => if x.mask = 0 then { x with lpc := none, stack := [] } else { x with stack := [] }
  | e :: es =>
    if x.mask = 0 ∨ (x.lpc.isSome ∧ x.lpc = x.rca) then
      Strand.popAll { x with lpc := e.pc, mask := e.mask, rca := e.rca, fmtr := e.fmtr } es
    else { x with stack := e :: es }

/-- The strand after the pops that its address and mask ask for. -/
def Strand.settle (x : Strand) : Strand := x.popAll x.stack

/-- A lane leaves the current mask and the masks of all but the lowest `keep` stack entries (R58, R324). -/
def Strand.dropLane (x : Strand) (l keep : Nat) : Strand :=
  let off : BitVec 4 := ~~~(1#4 <<< l)
  let n := x.stack.length - keep
  { x with mask := x.mask &&& off
           stack := (x.stack.take n).map (fun e => { e with mask := e.mask &&& off }) ++ x.stack.drop n }

/-- The strands of a fragment. -/
def Fragment.members (f : Fragment) : List Nat := ones f.strands.toNat 8

/-- The parts of a fragment by the address of each strand, in order of their lowest strand (R59). A part keeps the
wait only at the address it waits at. -/
def Fragment.split (l : LaneSet) (f : Fragment) : List Fragment :=
  let addrs := (f.members.map (fun n => (l.strand n).lpc)).dedup
  let firsts := f.members.filter (fun n => f.members.all (fun m => m ≥ n || (l.strand m).lpc != (l.strand n).lpc))
  if addrs.length ≤ 1 then
    [if f.waitAt.isSome ∧ ¬ addrs.contains f.waitAt then { f with waitAt := none } else f]
  else firsts.map (fun n =>
    let at_ := (l.strand n).lpc
    { f with strands := BitVec.ofNat 8 (maskOf (f.members.filter (fun m => (l.strand m).lpc == at_)))
             waitAt := if at_ = f.waitAt then f.waitAt else none })

/-- Every fragment split by the addresses of its strands (R59). -/
def LaneSet.repartition (l : LaneSet) : LaneSet := { l with frags := (l.frags.map (Fragment.split l)).flatten }

/-- A fragment is live until all its strands are at LEND (R60). -/
def LaneSet.fragLive (l : LaneSet) (f : Fragment) : Bool := f.members.any (fun n => !(l.strand n).atLend)

/-- The address of a fragment's strands. -/
def LaneSet.fragPc (l : LaneSet) (f : Fragment) : Option Word := (f.members.head?).bind (fun n => (l.strand n).lpc)

/-- The strand state at block start (R49). -/
def LaneSet.start (target fmtr : Word) (clk : Nat) : LaneSet where
  strands := (List.range 8).map (fun n => (n, { lpc := some target, mask := 15, fmtr }))
  frags := [{ strands := 255, lastIssue := clk }]

/-! ## Transactions that end (R199, R200, R324) -/

/-- The status word of R199. -/
def txWord (cause code : Nat) (retry : Bool) : Word := BitVec.ofNat 32 (cause + code * 256 + if retry then 65536 else 0)

/-- What an abort of a lane's transaction does outside its strand (R199, R200, R324): the transaction is gone and its
status register takes the word, at once or when it has a register. -/
def Pick.abortRegs (p : Pick) (lane cause code : Nat) (retry : Bool) : Pick :=
  match p.txs.lookup lane with
  | none => p
  | some t =>
    let bitL : Word := 1 <<< lane
    let n := t.status.toNat
    let v := txWord cause code retry
    let p1 := { p with
      aborts := p.aborts + 1
      txs := p.txs.filter (fun e => e.1 != lane)
      pending := p.pending.map (fun (q : Pending) => if q.dest = Dest.vreg n then { q with mask := q.mask &&& ~~~bitL } else q) }
    if 239 ≤ n then p1
    else if (p1.name n).st = .allocated then p1.setName n ((p1.name n).write bitL [(lane, v)])
    else { p1 with owed := p1.owed ++ [(n, lane, v)] }

/-- What aborts of transactions do in strand n: each aborted lane leaves the masks above the entry that its TXBEGIN
pushed (R324). -/
def Strand.leaveTxs (x : Strand) (n : Nat) (txs : List (Nat × Tx)) (lanes : List Nat) : Strand :=
  lanes.foldl (fun x i => if i / 4 = n then
    (match txs.lookup i with | some t => x.dropLane (i % 4) t.height | none => x) else x) x

/-- The transactions begun in the mode that the pick is in. -/
def Pick.modeTxs (p : Pick) : List (Nat × Tx) := p.txs.filter (fun e => e.2.handler == p.mode)

/-- Strands of a set that lanes leave: those left without a lane pop (R56, R324). -/
def LaneSet.leaveTxs (l : LaneSet) (txs : List (Nat × Tx)) (lanes : List Nat) : LaneSet :=
  ((lanes.map (· / 4)).eraseDups.foldl (fun l n =>
    let x := (l.strand n).leaveTxs n txs lanes
    l.setStrand n (if x.mask = 0#4 then x.settle else x)) l)

/-- Transactions of the frozen block abort while its handler runs: its strands take the state of R324, and where they
pop, the record shows their new place. -/
def Pick.abortFrozen (p : Pick) (txs : List (Nat × Tx)) (lanes : List Nat) : Pick :=
  let gone := lanes.filter (fun i => ((txs.lookup i).map (fun t => !t.handler)).getD false)
  if !p.mode ∨ gone.isEmpty then p
  else
    let l := p.lanes.leaveTxs txs gone
    let moved := ((gone.map (· / 4)).eraseDups).filter (fun n => (l.strand n).stack != (p.lanes.strand n).stack)
    let r := moved.foldl (fun (r : TrapRec) n => { r with
      tlpc := tins n ((l.strand n).lpc.getD 0) r.tlpc
      tlfmt := tput 0 r.tlfmt n (l.strand n).fmtr }) p.trec
    { p with lanes := l.repartition, trec := r }

/-- A lane's transaction aborts outside an instruction of its fragment: its strand pops if no lane is left. -/
def Pick.abortLane (p : Pick) (lane cause code : Nat) (retry : Bool) : Pick :=
  if (p.txs.lookup lane).isNone then p
  else
    let p2 := (p.abortRegs lane cause code retry).abortFrozen p.txs [lane]
    p2.setLs (p2.ls.leaveTxs p.modeTxs [lane]).repartition

/-- The transactions of these lanes abort. -/
def Pick.abortLanes (p : Pick) (lanes : List Nat) (cause code : Nat) (retry : Bool) : Pick :=
  lanes.foldl (fun p l => p.abortLane l cause code retry) p

/-- The lanes of a set of strands. -/
def strandLanes (m : BitVec 8) : List Nat := (List.range 32).filter (fun i => m.getLsbD (i / 4))

/-! ## Fault records (R449, R470) -/

/-- A fault record from its fields (R449). -/
def faultMsg (kind ctx world die loom lnum team pick payload : Nat) : FaultMsg :=
  BitVec.ofNat 512 (kind % 256 + ctx % 65536 * 2 ^ 8 + world % 65536 * 2 ^ 24 + die % 16 * 2 ^ 40 + loom % 64 * 2 ^ 44 +
    lnum % 2 ^ 64 * 2 ^ 64 + team % 2 ^ 32 * 2 ^ 128 + pick % 64 * 2 ^ 160 + payload % 2 ^ 320 * 2 ^ 192)

/-- A fault record reaches the scheduling processor. -/
def State.report (s : State) (m : FaultMsg) : State := { s with faultLog := s.faultLog ++ [m] }

/-- A die of another world has refused an access of the pick in execution: the record of KIND 7 (R449, R473). -/
def State.worldRefused (s : State) (own : Option Nat) : State :=
  match own with
  | none => s
  | some pa =>
    let p := s.pick
    let t := s.teamAt p.team
    let die := homeDie pa
    s.report (faultMsg 7 t.ctx (s.dieAt die).world die 0 (s.launchAt t.launch).lnum t.index p.index
      ((s.ctxAt t.ctx).world % 65536 + die * 2 ^ 16 + pa % 2 ^ 64 * 2 ^ 64))

/-- A fault record about a pick. -/
def State.reportPick (s : State) (key kind payload : Nat) : State :=
  let p := s.pickAt key
  let t := s.teamAt p.team
  s.report (faultMsg kind t.ctx (s.ctxAt t.ctx).world t.die t.loom (s.launchAt t.launch).lnum t.index p.index payload)

/-- An access that meets a translation failure raises a record and waits for its answer (R469, R470): the record with
its FID, held by `who`. acc and agent are the codes of R470. -/
def State.suspend (s : State) (key : Nat) (who : Nat ⊕ (Nat × BitVec 8) ⊕ Nat) (stage2 : Bool)
    (lvl addr va acc agent : Nat) (landing : Bool := false) (lanes : Word := 0) : State × Nat :=
  let ctx := (s.teamAt (s.pickAt key).team).ctx
  let c := s.ctxAt ctx
  let used := c.faults.map (·.fid)
  let fid := ((List.range (used.length + 1)).find? (fun n => !used.contains (n + 1))).getD 0 + 1
  let s1 := s.setCtxAt ctx { c with faults := c.faults ++ [{ fid, stage2, lvl, addr, who, va, landing, inst := s.inst, lanes }] }
  let payload := addr % 2 ^ 64 + fid % 65536 * 2 ^ 64 + (if stage2 then 2 ^ 80 else 0) + lvl % 8 * 2 ^ 81 +
    acc % 8 * 2 ^ 84 + agent % 16 * 2 ^ 87
  ((s1.reportPick key 1 payload).count (s.teamAt (s.pickAt key).team).die 0x107 1, fid)

/-! ## The end of a context (R428, R480, R481, R511) -/

/-- The aborted transactions of a pick go into the counter of its die (R483). -/
def State.countAborts (s : State) (key : Nat) : State :=
  let p := s.pickAt key
  if p.aborts = 0 then s else (s.setPickAt key { p with aborts := 0 }).count (s.teamAt p.team).die 0x00B p.aborts

/-- Picks that are gone, with nothing left in them. -/
def State.dropPicks (s : State) (keys : List Nat) : State :=
  keys.foldl (fun s k => (s.countAborts k).setPickAt k {}) s

/-- Whether a phase still has a publication to come. -/
def TeamPhase.unpublished : TeamPhase → Bool
  | .absent => false
  | .published => false
  | _ => true

/-- Whether a team in this phase holds a place on its loom. -/
def TeamPhase.resident : TeamPhase → Bool
  | .binding => true
  | .running => true
  | .draining _ _ => true
  | .saving _ _ _ => true
  | .successor => true
  | _ => false

/-! ## Format slots (R499 to R501) -/

/-- The key of slot n of a loom. -/
def slotKey (die loom n : Nat) : Nat := 512 * die + 8 * loom + n

/-- A slot of a loom. -/
def State.slotAt (s : State) (die loom n : Nat) : Slot := tget {} s.slots (slotKey die loom n)

/-- The state with a slot replaced. -/
def State.setSlotAt (s : State) (die loom n : Nat) (x : Slot) : State :=
  { s with slots := tput {} s.slots (slotKey die loom n) x }

/-- The teams that hold a place on a loom. -/
def State.residents (s : State) (die loom : Nat) : List (Nat × Team) :=
  s.teams.filter (fun e => e.2.phase.resident && e.2.die == die && e.2.loom == loom)

/-- The reference count of a slot (R500). -/
def State.slotRefs (s : State) (die loom n : Nat) : Nat :=
  ((s.residents die loom).filter (fun e => e.2.refs.getLsbD n)).length

/-- A slot whose count is 0 and whose draft has left the world's store becomes unbound (R501). -/
def State.dropRemoved (s : State) (die loom n : Nat) : State :=
  let x := s.slotAt die loom n
  match x.bound with
  | none => s
  | some d =>
    if s.slotRefs die loom n = 0 ∧
        ((s.worldAt (s.dieAt die).world).drafts.all (fun y => y.word != d.word)) then
      s.setSlotAt die loom n { x with bound := none }
    else s

/-- A team releases its references but those of keep (R399, R500). -/
def State.releaseRefs (s : State) (t : Nat) (keep : BitVec 8) : State :=
  let m := s.teamAt t
  (ones (m.refs &&& ~~~keep).toNat 8).foldl (fun s n => s.dropRemoved m.die m.loom n)
    (s.setTeamAt t { m with refs := m.refs &&& keep })

/-- A pick's FMASK goes into its team's completion summary when the pick ends (R71). -/
def Team.addFmask (t : Team) (m : BitVec 64) : Team :=
  if m = 0 then t
  else { t with fpicks := t.fpicks + 1
                foor := t.foor || m.setWidth 32 != 0
                flate := t.flate || m.extractLsb' 32 32 != 0
                flanes := t.flanes ||| m.setWidth 32 ||| m.extractLsb' 32 32 }

/-- A team stops where it stands: its picks are gone, its operations are abandoned, and it waits to publish this
STATUS and CAUSE. -/
def State.stopTeam (s : State) (t status cause : Nat) : State :=
  let m := s.teamAt t
  let m1 := m.picks.foldl (fun m k => m.addFmask (s.pickAt k).fmask) m
  let s1 := (s.releaseRefs t 0).setTeamAt t
    { m1 with phase := .done status, cause := BitVec.ofNat 8 cause, picks := [], refs := 0, inflight := [], endOrd := s.fresh }
  let s2 := { s1 with ops := s1.ops.map (fun (e : Nat × Op) =>
    if (s.pickAt e.2.pick).team = t then (e.1, { e.2 with phase := .abandoned }) else e) }
  s2.dropPicks m.picks

/-- The record fields of a trap as CTX_END carries them (R449): TCAUSE, TVAL, TMASK, TFRAG, TSPC, TINST0 to 2. -/
def ctxEndPayload (r : TrapReq) (frag : Nat) (inst : BitVec 96) : Nat :=
  r.cause.code + r.tval.toNat * 2 ^ 32 + r.tmask.toNat * 2 ^ 96 + frag * 2 ^ 128 + r.tspc.toNat * 2 ^ 160 +
    inst.toNat * 2 ^ 192

/-- The bytes of a fault dump's body before encipherment (R481): the CTX_END payload fields, s0 to s1023, b0 to b7,
FMTR, TLPC0-7, TLFMT0-7, TKF0-15. -/
def dumpBody (p : Pick) (payload : Nat) : List Byte :=
  leBytes 40 payload ++ ((List.range 1024).map (fun i => leBytes 4 (tget 0 p.sregs i).toNat)).flatten ++
    leBytes 4 p.bpred.toNat ++ leBytes 4 p.fmtr.toNat ++
    ((List.range 8).map (fun i => leBytes 4 (tget 0xFFFFFFFF p.trec.tlpc i).toNat)).flatten ++
    ((List.range 8).map (fun i => leBytes 4 (tget 0 p.trec.tlfmt i).toNat)).flatten ++
    ((List.range 16).map (fun i => leBytes 4 (tget 0 p.trec.tkf i).toNat)).flatten

/-- The dump of R481; without the tenant's key no body (R504). When the area is too small, absent, or does not translate, no
dump is written and the header alone reaches the scheduling processor. -/
def State.dump (s : State) (ctx reason die : Nat) (body : List Byte) : State :=
  let c := s.ctxAt ctx
  let keyed := (s.worldAt c.world).dumpKey.isSome
  let enc := match (s.worldAt c.world).dumpKey with | some key => Config.dumpCipher key body | none => []
  let len := 64 + (if keyed then body.length + 16 else 0)
  let head := leBytes 4 0x31445650 ++
    (Config.dumpHeader [len, reason, c.world, ctx, die, (s.dieAt die).cycles.toNat]).take 60
  let alone := s.report (BitVec.ofNat 512 (ofLe head))
  if c.dumpBase = 0 ∨ c.dumpSize < len then alone
  else match s.resolve2 c rightW c.dumpBase len with
    | .error _ => alone
    | .ok (pas, _) => s.storePas deviceAgent pas (head ++ enc)

/-- The context ends (R428, R511): picks stop, operations are abandoned, unpublished teams will publish this STATUS
and CAUSE, unanswered faults lapse, STATE is 3. -/
def State.endContext (s : State) (ctx status cause : Nat) : State :=
  if (s.ctxAt ctx).ended then s
  else
    let ts := s.teams.filter (fun e => e.2.ctx == ctx && e.2.phase.unpublished)
    let s1 := ts.foldl (fun s e => s.stopTeam e.1 status cause) s
    let c := s1.ctxAt ctx
    s1.setCtxAt ctx { c with ended := true, st := 3, endStatus := status, endCause := cause, faults := [] }

/-- A nested trap of a pick ends its context (R428): the fault record of KIND 2 goes out, its payload replaced by the
reason class and a dump written when the world's policy sets CONF (R480, R481). -/
def State.endByTrap (s : State) (key : Nat) (r : TrapReq) (frag : Nat) (inst : BitVec 96) : State :=
  let p := s.pickAt key
  let t := s.teamAt p.team
  let payload := ctxEndPayload r frag inst
  if (s.worldAt (s.ctxAt t.ctx).world).policy.getLsbD 0 then
    ((s.reportPick key 2 1).dump t.ctx 1 t.die (dumpBody p payload)).endContext t.ctx 4 r.cause.code
  else (s.reportPick key 2 payload).endContext t.ctx 4 r.cause.code

/-! ## Taking a trap and returning from one (R422, R423, R427) -/

/-- The strands of the set in use that a test selects, as a mask. -/
def LaneSet.strandMask (l : LaneSet) (f : Strand → Bool) : BitVec 8 :=
  BitVec.ofNat 8 (maskOf ((List.range 8).filter (fun n => f (l.strand n))))

/-- The strands of fragments that wait at a REGANG. -/
def LaneSet.waitMask (l : LaneSet) : BitVec 8 :=
  l.frags.foldl (fun m f => if f.waitAt.isSome then m ||| f.strands else m) 0

/-- The TFRAG register (R417). -/
def TrapRec.tfrag (r : TrapRec) : Word := (0#8 ++ r.waitRg ++ r.atLend ++ r.frag : BitVec 32)

/-- The record formed in step 5 of R422, or as R423 gives for the S-stream and for DIE_LOST. Values that no rule
states (TINST of an asynchronous trap, TLFMT and TKF with no frozen block) are free. -/
def Pick.formRecord (s : State) (p : Pick) (r : TrapReq) : TrapRec :=
  let blk := p.running
  let l := p.lanes
  { cause := BitVec.ofNat 8 r.cause.code
    tval := r.tval
    tmask := r.tmask
    frag := r.frag
    atLend := if blk then l.strandMask Strand.atLend else 0
    waitRg := if blk then l.waitMask else 0
    tspc := r.tspc
    src := r.src
    async := r.async
    blk
    skip := false
    ob := p.bpred
    owb := p.wb
    tfmtr := p.fmtr
    tinst := if r.async then (s.freeW 4 2 ++ s.freeW 4 1 ++ s.freeW 4 0 : BitVec 96) else s.inst
    tlpc := (List.range 8).filterMap (fun n =>
      if blk then (l.strand n).lpc.map (fun a => (n, a)) else none)
    tlfmt := (List.range 8).map (fun n => (n, if blk then (l.strand n).fmtr else s.freeW 5 n))
    tkf := (List.range 16).map (fun n => (n, if blk then p.k n else s.freeW 6 n)) }

/-- Steps 2 to 6 of R422 for the pick in execution, which is in normal mode: open transactions of the fragment abort
with FAULT, issued instructions complete, the record is formed, and the handler is entered. -/
def State.enterTrap (s : State) (r : TrapReq) : State :=
  let p := s.pick
  let lanes := (strandLanes r.frag).filter (fun i => (p.txs.lookup i).isSome)
  let p1 := (p.abortLanes lanes 4 r.cause.code false).drain
  let c := s.ctx
  ((s.setPick { p1 with
      trec := p1.formRecord s r
      mode := true
      wb := c.twin
      spc := c.tvec
      wait := .none
      held := none
      closing := false
      hqueue := []
      hlanes := {}
      huncovered := [] }).count s.team.die 0x00C 1)

/-- A trap is delivered: a nested one ends the context (R428), any other enters the handler (R422, R423). -/
def State.deliverTrap (s : State) (r : TrapReq) : State :=
  if s.pick.mode then
    let l := s.pick.ls
    s.endByTrap s.cur r (r.frag.toNat + (l.strandMask Strand.atLend).toNat * 256 + l.waitMask.toNat * 65536)
      (if r.async then 0 else s.inst)
  else s.enterTrap r

/-- Taking a trap. A parked pick takes none until it is restored (R99); in normal mode a lane trap waits for a blocking COP
(R265), an S-stream trap for the answer to a lane access that a fault holds; of two, the S-stream's is taken (R424). Any other
is delivered. -/
def State.takeTrap (s0 : State) (r : TrapReq) : State :=
  let s := if r.cause = .dataPoison then s0.count s0.team.die 0x203 1 else s0
  let p := s.pick
  let cop := match p.wait with | .cop _ _ _ => true | _ => false
  let first := ((p.held).map (·.src)).getD false
  if p.parked || (!p.mode && (first || (if r.src then p.ls.frags.any (fun f => f.hold.isSome) else cop))) then
    s.setPick { p with held := if first || (p.held.isSome && !r.src) then p.held else some { r with inst := s.inst } }
  else s.deliverTrap r

/-- An S-stream instruction traps: TSPC names it (R423). -/
def State.trapS (s : State) (c : Cause) (tval : BitVec 64) : Out :=
  .next (s.takeTrap { cause := c, tval, src := true, tspc := s.pick.spc })

/-- An S-stream trap whose TSPC names the next instruction (R265, R269). -/
def State.trapSNext (s : State) (c : Cause) (tval : BitVec 64) : Out :=
  .next (s.takeTrap { cause := c, tval, src := true, tspc := s.pick.spc + 4 })

/-- The default TVAL of an S-stream instruction: zext(OPC6) (R421). -/
def State.opc6 (s : State) : BitVec 64 := ((s.inst.extractLsb' 26 6).setWidth 64)

/-- The default TVAL of a lane instruction: zext(OPC) (R421). -/
def State.opc (s : State) : BitVec 64 := ((s.inst.extractLsb' 86 10).setWidth 64)

/-- The fragment in execution. -/
def State.fragment (s : State) : Fragment := (s.pick.ls.frags[s.frag]?).getD { strands := 0 }

/-- A lane instruction traps: F's strands keep their LPC (R422). -/
def State.trapL (s : State) (c : Cause) (tval : BitVec 64) (tmask : Word) : Out :=
  .next (s.takeTrap { cause := c, tval, tmask, frag := s.fragment.strands, src := false, tspc := s.pick.spc })

/-- The frozen strands as TRET resumes them (R427): written LPCs and lane FMTRs, one fragment per LPC. A fragment all
of whose strands waited at one REGANG waits again. -/
def LaneSet.thaw (l : LaneSet) (r : TrapRec) (skip : Bool) : LaneSet :=
  let step (l : LaneSet) (n : Nat) : LaneSet :=
    let x := l.strand n
    if x.atLend then l
    else l.setStrand n (Strand.settle { x with lpc := some (tget 0 r.tlpc n), fmtr := tget 0 r.tlfmt n })
  let l1 := (List.range 8).foldl step l
  let live := (List.range 8).filter (fun n => !(l1.strand n).atLend)
  let firsts := live.filter (fun n => live.all (fun m => m ≥ n || (l1.strand m).lpc != (l1.strand n).lpc))
  let old := fun n => l.frags.find? (fun f => f.strands.getLsbD n)
  { l1 with frags := firsts.map (fun n =>
      let a := (l1.strand n).lpc
      let ms := live.filter (fun m => (l1.strand m).lpc == a)
      { strands := BitVec.ofNat 8 (maskOf ms)
        waitAt := if ms.all (fun m => ((old m).bind (·.waitAt)) == a) then a else none
        lastIssue := ((old n).map (·.lastIssue)).getD 0
        exempt := skip }) ++
      (let done := (List.range 8).filter (fun n => (l1.strand n).atLend)
       if done.isEmpty then [] else [{ strands := BitVec.ofNat 8 (maskOf done) }]) }

/-- Return from a trap (R427), the handler queue being empty. -/
def State.returnFromTrap (s : State) : State :=
  let p := s.pick
  let r := p.trec
  let p1 := { p with
    wb := r.owb
    bpred := (r.ob.extractLsb' 1 7 ++ 1#1 : BitVec 8)
    fmtr := r.tfmtr
    mode := false
    spc := r.tspc
    bkExempt := r.skip
    huncovered := []
    trec := { r with skip := false } }
  s.setPick (if r.blk then
      { p1 with lanes := p1.lanes.thaw r r.skip
                queue := match p1.queue with
                  | b :: bs => { b with k := (List.range 16).foldl (fun t n => tput 0 t n (tget 0 r.tkf n)) b.k } :: bs
                  | [] => [] }
    else p1)

/-! ## Advancing -/

/-- The next S-stream instruction follows in sequence (R245); the die counts it (R483). -/
def State.advance (s : State) : State :=
  (s.setPick { s.pick with spc := s.pick.spc + 4, bkExempt := false, lastS := s.fresh }).count s.team.die 0x001 1

/-- The S-stream goes on at an address. -/
def State.goto (s : State) (a : Word) : State :=
  (s.setPick { s.pick with spc := a, bkExempt := false, lastS := s.fresh }).count s.team.die 0x001 1

/-- The S-stream instruction stalls: nothing changes (R233). -/
def State.stall (s : State) : Out := .next s

end Sys2Proof.Machine
end

