-- ==== Sys2Proof/Machine/Operands.lean ====
section
/-! DEFINITION. Every operand form: scalar operands with the frame check, scalar addresses, source fields through the
crossbar, predicates, register allocation, and the end of a lane instruction. -/

namespace Sys2Proof.Machine

/-! ## Scalar operands (R52, R231, R234, R235) -/

/-- A checking control of the context (R431): bit 0 FRAME, 1 SCORE, 2 UNIF, 3 DIST. -/
def State.chk (s : State) (n : Nat) : Bool := s.ctx.chk.getLsbD n

/-- Bases of the capture windows that no LWAIT has covered. The frozen block and the blocks behind it are not checked
in trap mode (R426). -/
def Pick.windows (p : Pick) : List Nat :=
  p.blocks.map (·.capBase) ++ p.uncovered.map (·.base) ++ (if p.mode then p.huncovered.map (·.base) else [])

/-- Whether an absolute register lies in an uncovered capture window. -/
def Pick.inWindow (p : Pick) (n : Nat) : Bool := p.windows.any (fun b => decide (b ≤ n ∧ n < b + 16))

/-- What the copy-back of an uncovered ended block replaced in a register (R52). -/
def Pick.priorOf (p : Pick) (n : Nat) : Option Word :=
  (p.uncovered ++ p.huncovered).findSome? (fun e => e.prior.lookup n)

/-- A window register as an instruction reads it: in an uncovered window, the value before or after the copy-back
(R52). -/
def State.readS (s : State) (r : BitVec 6) : Word :=
  let p := s.pick
  if r = 0 then 0
  else match p.priorOf (p.abs r) with
    | some old => if s.free 1 r.toNat then old else p.w r
    | none => p.w r

/-- A window register written: in an uncovered window the write stands or is overwritten by the copy-back (R52). -/
def State.setS (s : State) (r : BitVec 6) (v : Word) : State :=
  let p := s.pick
  if r = 0 then s
  else match p.priorOf (p.abs r) with
    | some _ =>
      let drop (l : List Ended) := l.map (fun (e : Ended) => { e with prior := tdel (p.abs r) e.prior })
      s.setPick ({ p with uncovered := drop p.uncovered, huncovered := drop p.huncovered }.setW r
        (if s.free 2 r.toNat then p.w r else v))
    | none => s.setPick (p.setW r v)

/-- The first register of a list that the frame check stops on. -/
def State.frameHit (s : State) (rs : List (BitVec 6)) : Option (BitVec 6) :=
  if s.chk 0 then rs.find? (fun r => r != 0 && s.pick.inWindow (s.pick.abs r)) else none

/-- The first register of a list that holds a poisoned word (R234). -/
def State.poisonHit (s : State) (rs : List (BitVec 6)) : Option (BitVec 6) :=
  rs.find? (fun r => r != 0 && s.pick.spoison.contains (s.pick.abs r))

/-- An S-stream instruction's register operands: the frame check of every field (R235), then the poison check of the
fields it reads (R234); then k with the values. TVAL of DATA_POISON has no code for a scalar register (R421): the model gives
the window number of the first poisoned field (log 60). -/
def State.withOperands (s : State) (reads writes : List (BitVec 6)) (k : (BitVec 6 → Word) → Out) : Out :=
  match s.frameHit (reads ++ writes) with
  | some r => s.trapS .frameHazard (BitVec.ofNat 64 (s.pick.abs r))
  | none =>
    match s.poisonHit reads with
    | some r => s.trapS .dataPoison (r.setWidth 64)
    | none => k s.readS

/-! ## Scalar memory (R240 to R244) -/

/-- The locations whose `.INV` promise a write has broken for the kernel of a team (R156): it has `.INV` loads of them, and some
agent has written them since the kernel started; and the write record since its submission, from which on its reads of them are
free. -/
def State.looseOf (s : State) (m : Team) : List Nat × Nat :=
  let l := s.launchAt m.launch
  let broken (x : Nat) : Bool := match l.runW with
    | some w => s.wlog.any (fun r => decide (w ≤ r.id) && (r.at_ x).isSome)
    | none => false
  (((l.invs.filter (fun e => e.1 == m.lrec)).map (·.2)).filter broken, l.subW)

/-- The scalar agent. -/
def State.scalarAgent (s : State) : Agent :=
  let (loose, looseSince) := s.looseOf s.team
  { cls := 8, pick := s.cur, seq := s.pick.xseq, loose, looseSince }

/-- DIE_LOST becomes pending at a pick (R423). -/
def Pick.loseDies (p : Pick) (m : BitVec 13) : Pick := if p.live then { p with dieLost := p.dieLost ||| m } else p

/-- The mask of lost dies (R420, R487). -/
def State.lostMask (s : State) : BitVec 13 :=
  BitVec.ofNat 13 (maskOf ((List.range 13).filter (fun n => (s.dieAt n).lost)))

/-- An access that would touch a lost die (R487): the bit is set; when it was clear every pick of the context receives
DIE_LOST, else the accessing pick does. -/
def State.touchLost (s : State) (key die : Nat) : State :=
  let ctx := (s.teamAt (s.pickAt key).team).ctx
  let fresh_ := !(s.ctxAt ctx).tdmask.getLsbD die
  let s1 := s.touchDies ctx (2 ^ die)
  let m := s1.lostMask
  if fresh_ then { s1 with picks := s1.picks.map (fun e =>
      if (s1.teamAt e.2.team).ctx = ctx then (e.1, e.2.loseDies m) else e) }
  else s1.setPickAt key ((s1.pickAt key).loseDies m)

/-- How a scalar access or fetch that cannot be made ends (R241, R245, R469, R487). -/
def State.scalarFails (s : State) (e : AccErr) (acc agent : Nat) : Out :=
  match e with
  | .high va => s.trapS .xlate (BitVec.ofNat 64 va)
  | .refused va own => (s.worldRefused own).trapS .perm (BitVec.ofNat 64 va)
  | .poisoned va => s.trapS .dataPoison (BitVec.ofNat 64 va)
  | .lost d _ => .next (s.touchLost s.cur d)
  | .xlate st lvl addr va =>
    let s1 := s.setPick s.pick.drain
    let (s2, fid) := s1.suspend s.cur (.inl s.cur) st lvl addr va acc agent
    .next (s2.setPick { s2.pick with wait := .fault fid })

/-- The effective address of a scalar access (R241). -/
def scalarAddr (w : BitVec 6 → Word) (global : Bool) (base : BitVec 6) (off : Int) : Nat :=
  if global then ((((w (base + 1)).toNat * 2 ^ 32 + (w base).toNat : Nat) + off : Int) % 2 ^ 64).toNat
  else ((((w base).toNat : Nat) + off : Int) % 2 ^ 32).toNat

/-- The window size of the team in bytes (R145). -/
def Team.window (t : Team) : Nat := 256 * bits t.lr 288 13

/-- Whether a scratch access of n bytes is in range (R145). -/
def Team.inRange (t : Team) (a n : Nat) : Bool := decide (a < 2 ^ 20 ∧ a + n ≤ t.window)

/-- The registers a scalar access reads. -/
def scalarBase (global : Bool) (base : BitVec 6) : List (BitVec 6) := if global then [base, base + 1] else [base]

/-- Whether a scratch access reads a poisoned word. -/
def Team.scratchBad (t : Team) (a n : Nat) : Bool :=
  t.scratchPoison.any (fun w => decide (4 * w < a + n ∧ a < 4 * w + 4))

/-- A scalar load of n bytes (R240, R241). -/
def State.scalarLoad (s : State) (d base : BitVec 6) (off : Int) (n : Nat) (global : Bool) (y : Sync := .plain) : Out :=
  if global && base.getLsbD 0 then s.trapS .illOperand s.opc6
  else s.withOperands (scalarBase global base) [d] fun w =>
    let a := scalarAddr w global base off
    let g := s.scalarAgent
    if a % n ≠ 0 then s.trapS .misalign (BitVec.ofNat 64 a)
    else if global then
      match s.resolve s.ctx rightR a n with
      | .error e => s.scalarFails e 0 8
      | .ok (pas, m) =>
        if s.poisoned pas then s.trapS .dataPoison (BitVec.ofNat 64 a)
        else
          let v := BitVec.ofNat 32 (s.readPas (g.as y) pas)
          .next ((((s.notePas g y false pas).touchDies s.team.ctx m).setS d v).advance)
    else if !s.team.inRange a n then s.trapS .bounds (BitVec.ofNat 64 a)
    else if s.team.scratchBad a n then s.trapS .dataPoison (BitVec.ofNat 64 a)
    else
      let v := BitVec.ofNat 32 (s.readScr (g.as y) s.pick.team a n)
      .next (((s.noteLook s g y false (scrCells s.pick.team a n)).setS d v).advance)

/-- A scalar store of n bytes (R240, R241). -/
def State.scalarStore (s : State) (v base : BitVec 6) (off : Int) (n : Nat) (global : Bool) (y : Sync := .plain) : Out :=
  if global && base.getLsbD 0 then s.trapS .illOperand s.opc6
  else s.withOperands (scalarBase global base ++ [v]) [] fun w =>
    let a := scalarAddr w global base off
    let g := s.scalarAgent
    let vs := leBytes n (w v).toNat
    if a % n ≠ 0 then s.trapS .misalign (BitVec.ofNat 64 a)
    else if global then
      match s.resolve s.ctx rightW a n with
      | .error e => s.scalarFails e 1 8
      | .ok (pas, m) =>
        .next (((s.storeSync { g with pages := s.pagesAt s.ctx [a] } y (memUnits (wholeBytes pas vs))).touchDies s.team.ctx
          m).advance)
    else if !s.team.inRange a n then s.trapS .bounds (BitVec.ofNat 64 a)
    else .next ((s.storeSync g y (scrUnits s.pick.team (runBytes a vs))).advance)

/-! ## Lane sources (R102, R103, R106, R218) -/

/-- The lane that lane i reads under a pattern, or none for a shifted-in zero (R102). -/
def permLane (pat q i : Nat) : Option Nat :=
  match pat with
  | 1 => some ((i + 32 - q) % 32)
  | 2 => some q
  | 3 => some (i ^^^ q)
  | 4 => some (i ^^^ (2 ^ q - 1))
  | 5 => some (4 * (i / 4) + q % 4)
  | 6 => if i < q then none else some (i - q)
  | _ => some i

/-- A value with the results pending on it: each pending result either has or has not taken effect (R106, R107). -/
def State.early (s : State) (tag : Nat) (lane : Nat) : List Pending → Word → Word
  | [], v => v
  | q :: qs, v =>
    s.early tag lane qs
      (if q.mask.getLsbD lane && s.free 8 ((tag * 64 + lane) * 64 + qs.length) then tget 0 q.vals lane else v)

/-- The results pending on a destination. -/
def Pick.pendingOn (p : Pick) (d : Dest) : List Pending := p.pending.filter (·.dest == d)

/-- Lane j of a v-register as a read by lane `i` of source slot `tag` finds it; unwritten and freed names read zero
(R92). -/
def State.vLane (s : State) (tag n j i : Nat) : Word :=
  let p := s.pick
  let v := tget 0 (p.name n).val j
  match p.pendingOn (.vreg n) with
  | [] => v
  | qs => s.early (tag * 64 + i) j qs v

/-- A k-register as lane i reads it. -/
def State.kLane (s : State) (tag n i : Nat) : Word :=
  let p := s.pick
  match p.pendingOn (.kreg n) with
  | [] => p.k n
  | qs => s.early (tag * 64 + i) 0 (qs.map (fun q => { q with mask := if q.mask = 0 then 0 else 1 })) (p.k n)

/-- perm_read of R218 for member g of a group. -/
def State.permRead (s : State) (tag : Nat) (f : Src) (g i : Nat) : Word :=
  let r := f.reg.toNat + g
  if r = 239 then 0
  else if r ≥ 240 then s.kLane tag (r - 240) i
  else match permLane f.pat.toNat f.prm.toNat i with
    | some j => s.vLane tag r j i
    | none => 0

/-- Bit i of a lane predicate as a read at issue finds it. -/
def State.predLane (s : State) (tag n i : Nat) : Bool :=
  let p := s.pick
  if n = 0 then true
  else match p.pendingOn (.pred n) with
    | [] => (p.p n).getLsbD i
    | qs => s.early (tag * 64 + i) i qs (if (p.p n).getLsbD i then 1 else 0) != 0

/-- The lanes in the current masks of the fragment's strands. -/
def State.fragLanes (s : State) : Word :=
  let l := s.pick.ls
  BitVec.ofNat 32 (maskOf ((List.range 32).filter
    (fun i => s.fragment.strands.getLsbD (i / 4) && (l.strand (i / 4)).mask.getLsbD (i % 4))))

/-- lanes_active of R219. -/
def State.lanesActive (s : State) (pi : BitVec 3) (pn : BitVec 1) : Word :=
  let m := s.fragLanes
  BitVec.ofNat 32 (maskOf ((lanesOf m).filter (fun i => s.predLane 9 pi.toNat i != (pn == 1))))

/-- The register codes that a source field names, with the group member. -/
def srcCodes (f : Src) (n : Nat) : List Nat := (List.range n).map (f.reg.toNat + ·)

/-- The lanes that read a register through a pattern. -/
def readers (f : Src) : Word :=
  BitVec.ofNat 32 (maskOf ((List.range 32).filter (fun i => (permLane f.pat.toNat f.prm.toNat i).isSome)))

/-- TVAL of a register read: its code and the source lane of the lowest lane in a mask (R421). -/
def readTval (code : Nat) (f : Src) (m : Word) : BitVec 64 :=
  let i := (lanesOf m).headD 0
  BitVec.ofNat 64 (code + ((permLane f.pat.toNat f.prm.toNat i).getD 0) * 256)

/-- The scoreboard check of one source (R92, R106): the cause, TVAL and TMASK it traps with. -/
def State.scoreSrc (s : State) (f : Src) (n : Nat) : Option (Cause × BitVec 64 × Word) :=
  (srcCodes f n).findSome? (fun r =>
    if r = 239 then none
    else if r ≥ 240 then
      if (s.pick.pendingOn (.kreg (r - 240))).isEmpty then none
      else some (.stallShort, BitVec.ofNat 64 r, BitVec.allOnes 32)
    else match (s.pick.name r).st with
      | .unwritten => some (.stallShort, readTval r f (readers f), readers f)
      | .freed => some (.deadRead, readTval r f (readers f), readers f)
      | .allocated =>
        if (s.pick.pendingOn (.vreg r)).isEmpty then none
        else some (.stallShort, readTval r f (readers f), readers f))

/-- The scoreboard check of a predicate read. No rule gives TVAL a code for a predicate: it is free. -/
def State.scorePred (s : State) (n : Nat) : Option (Cause × BitVec 64 × Word) :=
  if n = 0 ∨ (s.pick.pendingOn (.pred n)).isEmpty then none
  else some (.stallShort, (s.freeW 7 n).setWidth 64, s.fragLanes)

/-- The poison check of one source (R430): TVAL and the active lanes that would receive a poisoned word. -/
def State.poisonSrc (s : State) (f : Src) (n : Nat) (m : Word) : Option (BitVec 64 × Word) :=
  (srcCodes f n).findSome? (fun r =>
    if r = 239 then none
    else if r ≥ 240 then
      match s.pick.blocks with
      | b :: _ => if b.kPoison.getLsbD (r - 240) ∧ m ≠ 0 then some (BitVec.ofNat 64 r, m) else none
      | [] => none
    else
      let bad := (s.pick.name r).poison
      if bad = 0 then none
      else
        let hit := BitVec.ofNat 32 (maskOf ((lanesOf m).filter (fun i =>
          ((permLane f.pat.toNat f.prm.toNat i).map bad.getLsbD).getD false)))
        if hit = 0 then none else some (readTval r f hit, hit))

/-- The poison check of a predicate read by these lanes; TVAL is free. -/
def State.poisonPred (s : State) (n : Nat) (m : Word) : Option (BitVec 64 × Word) :=
  let hit := tget 0 s.pick.ppoison n &&& m
  if n = 0 ∨ hit = 0 then none else some ((s.freeW 7 (8 + n)).setWidth 64, hit)

/-- Poison that a source delivers only to inactive lanes is logged as latent (R430, R486). -/
def State.noteLatent (s : State) (srcs : List (Src × Nat)) : State :=
  let n := (srcs.filter (fun x => (s.poisonSrc x.1 x.2 (BitVec.allOnes 32)).isSome)).length
  if n = 0 then s else s.count s.team.die 0x204 n

/-- The execution checks that every lane instruction makes on what it reads: predicates and sources (group sizes
given), scoreboard before poison. Poison delivered to no active lane is logged as latent (R430). -/
def State.laneGate (s : State) (pi : BitVec 3) (pn : BitVec 1) (preds : List Nat) (srcs : List (Src × Nat))
    (k : State → Word → (Nat → Nat → Nat → Word) → Out) : Out :=
  match (if s.chk 1 then (pi.toNat :: preds).findSome? s.scorePred <|> srcs.findSome? (fun x => s.scoreSrc x.1 x.2)
    else none) with
  | some (c, v, m) => s.trapL c v m
  | none =>
    match s.poisonPred pi.toNat s.fragLanes with
    | some (v, m) => s.trapL .dataPoison v m
    | none =>
      let m := s.lanesActive pi pn
      match preds.findSome? (fun n => s.poisonPred n m) <|> srcs.findSome? (fun x => s.poisonSrc x.1 x.2 m) with
      | some (v, hit) => s.trapL .dataPoison v hit
      | none => k (s.noteLatent srcs) m (fun slot g i => s.permRead slot ((srcs[slot]?).map (·.1) |>.getD Src.zero) g i)

/-! ## Register allocation (R88 to R95) -/

/-- The registers a pick reserves in each bank (R93). -/
def Pick.reserve (p : Pick) : Nat := (p.reservation + 3) / 4

/-- The registers a pick holds in a bank. -/
def Pick.holds (p : Pick) (bank : Nat) : Nat :=
  (p.names.filter (fun e => e.2.st == .allocated && e.1 % 4 == bank && !p.spilled.contains e.1)).length

/-- The numbers of the picks resident on a loom. -/
def State.loomPicks (s : State) (die loom : Nat) : List Nat :=
  (s.residents die loom).flatMap (fun e => e.2.picks)

/-- The surplus of a bank of a loom (R94). -/
def State.surplus (s : State) (die loom bank : Nat) : Nat :=
  1024 - ((s.loomPicks die loom).map (fun k => max (s.pickAt k).reserve ((s.pickAt k).holds bank))).sum

/-- The first bank in which these names find no register for the pick in execution, once it is as p, with how many they
ask for there (R94). -/
def State.shortBank (s : State) (p : Pick) (ns : List Nat) : Option (Nat × Nat) :=
  let need := (ns.filter (fun n => (p.name n).st != .allocated)).dedup
  let s1 := s.setPick p
  (List.range 4).findSome? (fun b =>
    let c := (need.filter (fun n => n % 4 == b)).length
    if c ≠ 0 ∧ p.reserve < p.holds b + c ∧
        s1.surplus s.team.die s.team.loom b + max p.reserve (p.holds b) < p.holds b + c then some (b, c) else none)

/-- A name freed by a last-read bit (R90, R91): what is pending on it goes nowhere. -/
def Pick.freeName (p : Pick) (n : Nat) : Pick :=
  if (p.name n).st = .allocated then
    { p.setName n { st := .freed } with
      pending := p.pending.map (fun (q : Pending) => if q.dest = Dest.vreg n then { q with mask := 0 } else q) }
  else p

/-- The names that the source fields free (R90, R98). -/
def freedBy (srcs : List (Src × Nat)) : List Nat :=
  (srcs.filter (fun x => x.1.lr == 1)).flatMap (fun x => (srcCodes x.1 x.2).filter (· < 239))

/-- One write of a lane instruction: destination, lanes, values, and the latency, or none for a variable-latency
result of a path and batch. -/
structure Write where
  dest : Dest
  mask : Word
  vals : Lanes
  lat : Option Nat
  path : Nat := 8
  batch : Nat := 0
  /-- The bytes that the access moves (R451). -/
  bytes : Nat := 0
  /-- The lane loads that may still find a later write (R181). -/
  late : List LateLoad := []
  /-- The scratch that the access touches (R398). -/
  scr : List (Nat × Nat) := []

/-- A name is allocated: zero in every lane if it was not (R89). -/
def Pick.allocName (p : Pick) (n : Nat) : Pick :=
  if (p.name n).st = .allocated then p else p.setName n { st := .allocated }

/-- A write issued. A variable-latency result already pending on the name loses each lane, or stands, by free choice
(R107). A fixed-latency one is due no earlier than those issued before it to the name (R105). -/
def State.addWrite (s : State) (p : Pick) (w : Write) : Pick :=
  if w.mask = 0 ∧ w.dest ≠ .nothing then p
  else
    let p1 := match w.dest with
      | .vreg n => p.allocName n
      | _ => p
    let cut (q : Pending) : Pending :=
      if q.dest = w.dest ∧ q.isVar ∧ w.dest ≠ .nothing then
        { q with mask := BitVec.ofNat 32 (maskOf ((lanesOf q.mask).filter
            (fun i => !(w.mask.getLsbD i && s.free 10 (q.seq * 32 + i))))) }
      else q
    let due := ((p1.pendingOn w.dest).filter (fun q => !q.isVar)).foldl (fun a q => max a q.due) (p1.clk + w.lat.getD 0)
    { p1 with
      pseq := p1.pseq + 1
      pending := p1.pending.map cut ++
        [⟨p1.pseq, w.dest, w.mask, w.vals, due, w.lat.isNone, w.path, w.batch, w.bytes, w.late, w.scr⟩] }

/-- Operations that join LD or ST with their pending results (R165). -/
def Pick.joinWrite (p : Pick) (w : Write) : Pick := if w.lat.isNone ∧ w.path < 2 then p.opJoin w.path w.batch else p

/-! ## The end of a lane instruction (R59, R68, R105) -/

/-- The strands of the fragment in execution after an instruction: each counts it (R68), moves, pops where its address
or mask asks for it (R56), and the fragments part (R59). The stall count binds the pick's next lane instruction
(R105); counters take the instruction when a lane was active (R451, R483). -/
def State.laneDone (s : State) (stall : BitVec 4) (m : Word) (move : Nat → Strand → Strand) : State :=
  let p := s.pick
  let f := s.fragment
  let step (l : LaneSet) (n : Nat) : LaneSet :=
    let x := l.strand n
    l.setStrand n (Strand.settle (move n { x with dist := x.dist + 1, issued := true, safept := none }))
  let l1 := f.members.foldl step p.ls
  let f1 : Fragment := { f with lastIssue := s.fresh, rise := 0, passed := 0, exempt := false, noServe := [] }
  let l2 : LaneSet := { l1 with frags := l1.frags.set s.frag f1 }
  let s1 := s.setPick { p.setLs l2.repartition with nextLane := p.clk + max stall.toNat 1, parkWant := none }
  if m = 0 then s1
  else
    let s2 := s1.setTeam { s1.team with li := s1.team.li + 1 }
    s2.count s.team.die 0x000 1

/-- A strand goes on at the next lane instruction. -/
def nextL (_ : Nat) (x : Strand) : Strand := { x with lpc := x.lpc.map (· + 12) }

/-- The name that a destination takes, if it is a lane register. -/
def Dest.lane : Dest → Option Nat
  | .vreg n => some n
  | _ => none

/-- The effect of R90: names freed, registers allocated, writes issued; then what else the instruction does, fin, which
leaves the fragments alone; then the strands move. With no register to allocate the instruction waits, and the pick asks
for a parking in that bank (R94). -/
def State.laneCommit (s : State) (stall : BitVec 4) (m : Word) (srcs : List (Src × Nat)) (ws : List Write)
    (move : Nat → Strand → Strand) (fin : State → State := id) : Out :=
  let p1 := (freedBy srcs).foldl Pick.freeName s.pick
  let ns := (ws.filter (fun w => w.mask != 0)).filterMap (fun w => w.dest.lane)
  match s.shortBank p1 ns with
  | some b => .next (s.setPick { s.pick with parkWant := some b })
  | none =>
    let p2 := ws.foldl (fun p w => (s.addWrite p w).joinWrite w) p1
    .next ((fin (s.setPick p2)).laneDone stall m move)

/-- The destination of an 8-bit code (R77): vz and a k-register of an instruction that writes none discard. -/
def destOf (d : BitVec 8) : Option Dest :=
  if d.toNat < 239 then some (.vreg d.toNat) else if d.toNat = 239 then none else some (.kreg (d.toNat - 240))

/-- The lanes of a mask with a value each. -/
def lanesWith (m : Word) (f : Nat → Word) : Lanes :=
  (lanesOf m).foldr (fun i t => if f i = 0 then t else (i, f i) :: t) []

/-- A write to destination code d of the same lanes' values; k-registers take the lowest active lane's (R273, R284). -/
def writeTo (d : BitVec 8) (m : Word) (f : Nat → Word) (lat : Nat) : List Write :=
  match destOf d with
  | none => []
  | some (.kreg n) => [{ dest := .kreg n, mask := m, vals := lanesWith 1 (fun _ => f ((lanesOf m).headD 0)), lat := some lat }]
  | some x => [{ dest := x, mask := m, vals := lanesWith m f, lat := some lat }]

/-- A write to a lane predicate (R274). -/
def writePred (p : BitVec 3) (m : Word) (f : Nat → Bool) (lat : Nat) : List Write :=
  [{ dest := .pred p.toNat, mask := m, vals := lanesWith m (fun i => if f i then 1 else 0), lat := some lat }]

/-- A lane instruction of R272 with sources of one register: value of lane i from the source values a, b, c. -/
def State.laneOp (s : State) (h : Hd) (d : BitVec 8) (srcs : List Src) (lat : Nat)
    (f : Nat → (Nat → Word) → Word) : Out :=
  let xs := srcs.map (fun x => (x, 1))
  s.laneGate h.pi h.pn [] xs fun s m val =>
    s.laneCommit h.stall m xs (writeTo d m (fun i => f i (fun slot => val slot 0 i)) lat) nextL

end Sys2Proof.Machine
end

