-- ==== Sys2Proof/Machine/Flags.lean ====
section
/-! DEFINITION. The flags of the machine: the conditions of scalar and lane comparisons, the fault mask FMASK, and
the reserved codes of FMTR and TCFG. -/

namespace Sys2Proof.Machine

/-- The conditions of R237 and R278 by their code. -/
def cond (c : Nat) (a b : Word) : Bool :=
  match c with
  | 0 => a == b
  | 1 => a != b
  | 2 => a.slt b
  | 3 => !a.slt b
  | 4 => a.ult b
  | _ => !a.ult b

/-- A register field written under a mask (R259). -/
def masked (old v m : Word) : Word := (old &&& ~~~m) ||| (v &&& m)

/-- Whether an FMTR value holds a reserved code: RND 6 or 7, PA or PB 0 (R82, R83). -/
def fmtrBad (v : Word) : Bool :=
  decide (6 ≤ (v.extractLsb' 16 3).toNat) || v.extractLsb' 20 3 == 0 || v.extractLsb' 23 3 == 0

/-- Whether a TCFG value holds a reserved layout code (R83, R84). -/
def tcfgBad (v : Word) : Bool := v.extractLsb' 24 2 == 3 || v.extractLsb' 26 2 == 3

/-- FMTR without its RES bits (R9, R82). -/
def fmtrClean (v : Word) : Word := v &&& 0x07FFFFFF

/-- Whether a word is no value of a format register: a reserved code or a RES bit (R9, R82). -/
def fmtrOff (v : Word) : Bool := fmtrBad v || v != fmtrClean v

/-- TCFG without its RES bits (R9, R84). -/
def tcfgClean (v : Word) : Word := v &&& 0x0FFFFFFF

/-- FMASK with lanes recorded as switched off: OOR in the low half, LATE in the high half (R69). -/
def addFmask (f : BitVec 64) (oor late : Word) : BitVec 64 := f ||| (late ++ oor : BitVec 64)

/-- FMASK after a write of 1s to one half (R69: W1C). -/
def clearFmask (f : BitVec 64) (high : Bool) (v : Word) : BitVec 64 :=
  f &&& ~~~(if high then (v ++ 0#32 : BitVec 64) else (0#32 ++ v : BitVec 64))

/-- Lanes switched off by a scratch violation (R58, R70, R149): they leave every mask of their strand, and a strand
with none left pops. -/
def Pick.switchOff (p : Pick) (lanes : List Nat) : Pick :=
  let step (l : LaneSet) (i : Nat) : LaneSet := l.setStrand (i / 4) ((l.strand (i / 4)).dropLane (i % 4) 0)
  p.setLs (lanes.foldl step p.ls)

/-- An access of the fragment in execution meets a translation failure (R469): transactions of its lanes abort, issued
results complete, and the fragment is held until the answer. -/
def State.suspendLane (s : State) (st : Bool) (lvl addr va acc agent : Nat) (landing : Bool := false)
    (failing : Word := 0) : Out :=
  let p := s.pick
  let lanes := (strandLanes s.fragment.strands).filter (fun i => (p.txs.lookup i).isSome)
  let cause : Cause := if lvl = 5 then .perm else .xlate
  let s1 := s.setPick (p.abortLanes lanes 4 cause.code false).drain
  let (s2, fid) := s1.suspend s.cur (.inr (.inl (s.cur, s.fragment.strands))) st lvl addr va acc agent landing failing
  let hold (f : Fragment) : Fragment :=
    if f.strands &&& s.fragment.strands ≠ 0 then { f with hold := some fid } else f
  let l := s2.pick.ls
  .next (s2.setPick (s2.pick.setLs { l with frags := l.frags.map hold }))

end Sys2Proof.Machine
end

