-- ==== Sys2Proof/Machine/Barrier.lean ====
section
/-! DEFINITION. Barrier objects in scratch (R169, R170, R185). -/

namespace Sys2Proof.Machine

/-- The fields of a barrier object (R169). -/
structure Bar where
  phase : Bool
  expa : Nat
  arr : Nat
  xb : Int

/-- The object at a scratch address of a team. -/
def Team.bar (m : Team) (a : Nat) : Bar :=
  let x := rdNat m.scratch a 8
  ⟨bit x 0, bits x 8 8, bits x 16 8, sextN (bits x 32 32) 32⟩

/-- The 8 bytes of an object; its RES bits keep what they hold. -/
def Bar.word (b : Bar) (old : Nat) : Nat :=
  (if b.phase then 1 else 0) + bits old 1 7 * 2 + b.expa % 256 * 2 ^ 8 + b.arr % 256 * 2 ^ 16 + bits old 24 8 * 2 ^ 24 +
    (b.xb % 2 ^ 32).toNat * 2 ^ 32

/-- Whether a byte balance leaves the signed 32-bit range (R170). -/
def xbOut (x : Int) : Bool := decide (x < -2 ^ 31 ∨ 2 ^ 31 ≤ x)

/-- The 8 bytes of an object written by an agent in one read-modify-write. -/
def State.putBar (s : State) (g : Agent) (t a x : Nat) : State :=
  s.putUnit g [] true none ((scrUnits t (runBytes a (leBytes 8 x))).flatten)

/-- An update of an object by an agent with the flip check: at a flip the in-flight marks of what completed onto it go
(R150), and what its arrivals and completions carry becomes visible to its waiters (R185), their own writes of the object
among it. ids is what this update carries. -/
def State.barUpdate (s : State) (g : Agent) (t a : Nat) (b : Bar) (ids : List Nat) : State :=
  let m := s.teamAt t
  let now := (tget [] m.barNow a ++ s.nextW :: ids).dedup
  let old := rdNat m.scratch a 8
  if b.arr = b.expa ∧ b.xb = 0 then
    (s.setTeamAt t { m with
      barNow := tput [] m.barNow a []
      barPast := tput [] m.barPast a now
      inflight := m.inflight.filter (fun x => x.onto != some a) }).putBar g t a (Bar.word { b with phase := !b.phase, arr := 0 } old)
  else (s.setTeamAt t { m with barNow := tput [] m.barNow a now }).putBar g t a (b.word old)

/-- The checks of R256 on an object address, then k. -/
def State.withBar (s : State) (a : Word) (reads : Bool) (k : Nat → Out) : Out :=
  let n := a.toNat
  if n % 8 ≠ 0 then s.trapS .misalign (BitVec.ofNat 64 n)
  else if !s.team.inRange n 8 then s.trapS .bounds (BitVec.ofNat 64 n)
  else if reads && s.team.scratchBad n 8 then s.trapS .dataPoison (BitVec.ofNat 64 n)
  else k n

end Sys2Proof.Machine
end

