-- ==== Sys2Proof/Machine/Records.lean ====
section
/-! DEFINITION. The fields of launch records, level words and task entries, and the validation of a submission (R36 to
R41, R121, R372, R434 to R436, R529). -/

namespace Sys2Proof.Machine

/-! ## Fields of a launch record (R434) -/

/-- Level word n. -/
def lrLevel (lr n : Nat) : Nat := bits lr (32 * n) 32

/-- PRI. -/
def lrPri (lr : Nat) : Nat := bits lr 256 2

/-- RESTART. -/
def lrRestart (lr : Nat) : Bool := bit lr 258

/-- COOP. -/
def lrCoop (lr : Nat) : Bool := bit lr 259

/-- NROLE. -/
def lrNrole (lr : Nat) : Nat := bits lr 260 2

/-- NDEP. -/
def lrNdep (lr : Nat) : Nat := bits lr 264 2

/-- SCRU. -/
def lrScru (lr : Nat) : Nat := bits lr 288 13

/-- TILES. -/
def lrTiles (lr : Nat) : Nat := bits lr 304 5

/-- FMTR. -/
def lrFmtr (lr : Nat) : Word := BitVec.ofNat 32 (bits lr 320 32)

/-- TCFG. -/
def lrTcfg (lr : Nat) : Word := BitVec.ofNat 32 (bits lr 352 32)

/-- SEED. -/
def lrSeed (lr : Nat) : Word := BitVec.ofNat 32 (bits lr 384 32)

/-- GX and GY. -/
def lrGrid (lr : Nat) : Nat × Nat := (bits lr 416 16, bits lr 432 16)

/-- ENTRYr. -/
def lrEntry (lr r : Nat) : Nat := bits lr (64 * r + 448) 32

/-- PICKSr. -/
def lrPicks (lr r : Nat) : Nat := bits lr (64 * r + 480) 8

/-- REGSr. -/
def lrRegs (lr r : Nat) : Nat := bits lr (64 * r + 488) 8

/-- BRTAB. -/
def lrBrtab (lr : Nat) : Nat := bits lr 640 56

/-- The number of buffer records. -/
def lrNbrec (lr : Nat) : Nat := bits lr 696 8 + 1

/-- SAFETAB. -/
def lrSafetab (lr : Nat) : Nat := bits lr 704 56

/-- SUCCTAB. -/
def lrSucctab (lr : Nat) : Nat := bits lr 768 56

/-- TASKTAB. -/
def lrTasktab (lr : Nat) : Nat := bits lr 832 56

/-- COMPL. -/
def lrCompl (lr : Nat) : Nat := bits lr 896 56

/-- NSAFE. -/
def lrNsafe (lr : Nat) : Nat := bits lr 960 16

/-- NSUCC. -/
def lrNsucc (lr : Nat) : Nat := bits lr 976 16

/-- NTASK. -/
def lrNtask (lr : Nat) : Nat := bits lr 992 13

/-- DMASK. -/
def lrDmask (lr : Nat) : BitVec 8 := BitVec.ofNat 8 (bits lr 1008 8)

/-- DWORDn. -/
def lrDword (lr n : Nat) : Nat := bits lr (64 * n + 1024) 64

/-- EXPLI. -/
def lrExpli (lr : Nat) : Nat := bits lr 1536 32

/-- EXPBY. -/
def lrExpby (lr : Nat) : Nat := bits lr 1568 32

/-- DPBASEe, DPCNTe and DMAPe. -/
def lrEdge (lr e : Nat) : Nat × Nat × Nat :=
  (bits lr (128 * e + 1600) 56, bits lr (128 * e + 1664) 32, bits lr (128 * e + 1696) 2)

/-- The picks of a team (R42). -/
def lrP (lr : Nat) : Nat := ((List.range (lrNrole lr)).map (lrPicks lr)).sum

/-- The role and the index within the role of pick n of a team (R42). -/
def lrRoleOf (lr n : Nat) : Nat × Nat :=
  if n < lrPicks lr 0 then (0, n)
  else if n < lrPicks lr 0 + lrPicks lr 1 then (1, n - lrPicks lr 0)
  else (2, n - lrPicks lr 0 - lrPicks lr 1)

/-- The first pick of a role. -/
def lrRoleBase (lr r : Nat) : Nat := ((List.range r).map (lrPicks lr)).sum

/-- The lane registers that the team's picks reserve in each bank (R93). -/
def lrReserve (lr : Nat) : Nat :=
  ((List.range (lrNrole lr)).map (fun r => lrPicks lr r * ((lrRegs lr r + 3) / 4))).sum

/-- Scratch that the window takes from the loom, in bytes (R23). -/
def lrScratch (lr : Nat) : Nat := roundUp (256 * lrScru lr) 65536

/-! ## Level words (R37) -/

/-- COUNT. -/
def lvCount (w : Nat) : Nat := bits w 0 24

/-- DOM. -/
def lvDom (w : Nat) : Nat := bits w 24 3

/-- SCOPE. -/
def lvScope (w : Nat) : Nat := bits w 27 3

/-- SPREAD. -/
def lvSpread (w : Nat) : Bool := bit w 30

/-- VALID. -/
def lvValid (w : Nat) : Bool := bit w 31

/-- The valid level words, innermost first. -/
def lrLevels (lr : Nat) : List Nat := ((List.range 8).map (lrLevel lr)).filter lvValid

/-- The number of the team level. -/
def lrTeamLevel (lr : Nat) : Nat := ((lrLevels lr).findIdx (fun w => lvDom w == 3))

/-- The levels above the team level, innermost first. -/
def lrUpper (lr : Nat) : List Nat := (lrLevels lr).drop (lrTeamLevel lr + 1)

/-- The teams of a launch (R38). -/
def lrTotal (lr : Nat) : Nat := ((lrUpper lr).map lvCount).prod

/-- Coordinates of a linear team index at the levels above the team level (R42). -/
def coordsOf : List Nat → Nat → List Nat
  | [], _ => []
  | w :: ws, i => i % lvCount w :: coordsOf ws (i / lvCount w)

/-- s5 to s12 of pick n of team i: coordinates at levels 0 to 7 (R44). -/
def levelCoords (lr i n : Nat) : List Nat :=
  let t := lrTeamLevel lr
  ((List.replicate t 0) ++ [n] ++ coordsOf (lrUpper lr) i ++ List.replicate 8 0).take 8

/-- The natural scope of a domain (R39). -/
def naturalScope (dom : Nat) : Nat := if dom ≤ 2 then 0 else dom - 2

/-- Whether the hierarchy breaks the form of R38 (status HIER_FORM of R41); a strand or pick level with a COUNT that R38 does
not have counts as misplaced (log 55). -/
def hierForm (lr : Nat) : Bool :=
  let ws := (List.range 8).map (lrLevel lr)
  let n := (ws.takeWhile lvValid).length
  let vs := ws.take n
  (ws.drop n).any (· != 0) ||
  vs.any (fun w => lvCount w == 0 || lvDom w == 0 || decide (6 ≤ lvScope w)) ||
  (vs.zipIdx).any (fun (w, i) =>
    (lvDom w == 1 && (i != 0 || lvCount w != 4)) ||
    (lvDom w == 2 && ((vs[i + 1]?).map lvDom != some 3 ||
      lvCount w != (if (vs.take i).any (fun v => lvDom v == 1) then 8 else 32))) ||
    (decide (lvDom w ≤ 3) && lvSpread w) || (lvDom w == 7 && lvCount w != 1)) ||
  decide (2 ^ 32 - 1 < lrTotal lr)

/-- Whether a domain or scope narrows outward (R39: HIER_NARROW). -/
def hierNarrow (lr : Nat) : Bool :=
  let vs := lrLevels lr
  vs.any (fun w => decide (lvScope w < naturalScope (lvDom w))) ||
  (vs.zip (vs.drop 1)).any (fun (a, b) => decide (lvDom b < lvDom a ∨ lvScope b < lvScope a))

/-- Whether the team level is wrong (R38: HIER_SHAPE). -/
def hierShape (lr : Nat) : Bool :=
  match (lrLevels lr).filter (fun w => lvDom w == 3) with
  | [w] => lvCount w != lrP lr || lvCount w == 0 || decide (48 < lvCount w)
  | _ => true

/-- Instances of domain c (3: loom) in one instance of domain d of a partition of n dies. -/
def instances (n c d : Nat) : Nat :=
  let looms := if c ≤ 3 then 40 else if c = 4 then 5 else 1
  if d ≤ c then 1
  else if d = 4 then 8
  else if d = 5 then looms
  else if c = 6 then 1 else looms * n

/-- The levels above the team level with the domain of their children, a team's being the loom. -/
def childDoms : Nat → List Nat → List (Nat × Nat)
  | _, [] => []
  | c, w :: ws => (w, c) :: childDoms (lvDom w) ws

/-- Whether some spread level can have no placement (R529: HIER_FIT). -/
def hierFit (n lr : Nat) : Bool :=
  (childDoms 3 (lrUpper lr)).any (fun (w, c) => lvSpread w && (n == 0 || decide (instances n c (lvDom w) < lvCount w)))

/-- How many of a launch's teams one free loom takes (R529). -/
def loomTakes (lr : Nat) : Nat :=
  let least (a b : Nat) : Nat := if b = 0 then 96 else a / b
  min (min (least 96 (lrP lr)) (least 1023 (lrReserve lr))) (min (least (2 ^ 20) (lrScratch lr)) (least 16 (lrTiles lr)))

/-- How many units of the levels up to here fit in each instance of the widest domain so far: (domain, number). A level
of a wider domain collects the capacity of its parts, and each unit of it takes COUNT of the units below; spread
children go to distinct parts, and by turns over equal parts any number up to the capacity has a placement. -/
def unitsFit (n : Nat) : List Nat → Nat × Nat → Nat × Nat
  | [], x => x
  | w :: ws, (c, k) =>
    let d := min (lvDom w) 6
    unitsFit n ws (d, instances n c d * k / max (lvCount w) 1)

/-- Whether a cooperative launch can never have all its teams co-resident (R529: COOP_FIT). -/
def coopFit (n lr : Nat) : Bool :=
  lrCoop lr && ((unitsFit n (lrUpper lr) (3, loomTakes lr)).2 == 0 || n == 0)

/-! ## Format parameter words (R119, R121) -/

/-- Whether a format parameter word keeps the constraints of its class. -/
def draftWordOk (x : Nat) : Bool :=
  let cls := bits x 0 2
  let w := bits x 2 5
  let kind := bits x 7 1
  let sm := bits x 8 3
  let e := bits x 11 4
  let m := bits x 15 4
  let bias := bits x 19 8
  let spec := bits x 27 2
  let subn := bits x 29 1
  let ovf := bits x 31 1
  let off := bits x 32 17
  let hasnan := bits x 49 1
  let nancode := bits x 50 8
  bits x 58 6 == 0 && decide (1 ≤ w ∧ w ≤ 16) &&
  (match cls with
   | 0 => w == 1 + e + m && decide (2 ≤ e ∧ e ≤ 8 ∧ m ≤ 10) && spec != 3 && (spec != 0 || decide (1 ≤ m)) &&
       (ovf == 0 || spec == 0) && hasnan == 0 && nancode == 0 && kind == 0 && sm == 0 && off == 0
   | 1 => decide (2 ≤ w) && e + m + bias + spec + subn + ovf + hasnan + nancode + sm == 0
   | 2 => decide (w ≤ 8) && kind + sm + e + m + bias + spec + subn + ovf + off == 0 &&
       (if hasnan == 1 then decide (nancode < 2 ^ w ∧ 2 ≤ 2 ^ w) else nancode == 0)
   | _ => decide (w ≤ 8) && e + m + spec + subn + ovf + off == 0 &&
       (if kind == 1 then decide (sm < w ∧ sm ≤ 3) else sm == 0) && (hasnan == 0 || decide (2 ≤ w)))

/-! ## Validation (R436) -/

/-- The reserved fields of a launch record as (lowest bit, width). R434 lists FMTR and TCFG as whole fields: their own RES bits are
not among these, and the pick's registers take them as zero (R9), the model's choice (log 60). -/
def lrRes : List (Nat × Nat) :=
  [(262, 2), (266, 22), (301, 3), (309, 11), (496, 16), (560, 16), (624, 16), (760, 8), (824, 8), (888, 8), (952, 8),
   (1005, 3), (1016, 8), (1656, 8), (1698, 30), (1784, 8), (1826, 30), (1912, 8), (1954, 30), (1984, 64)]

/-- A task entry of 16 bytes (R372). -/
def taskOf (x : Nat) : Task :=
  { dep := bits x 0 12, pri := bits x 12 2, ns := bits x 14 3, issued := bit x 17, done := bit x 18,
    succ := (List.range 4).map (fun k => bits x (32 + 12 * k) 12), arg := BitVec.ofNat 32 (bits x 96 32) }

/-- Whether a task entry is refused. -/
def taskBad (ntask x : Nat) : Bool :=
  let t := taskOf x
  decide (5 ≤ t.ns) || t.issued || t.done || bits x 19 13 != 0 || bits x 80 16 != 0 ||
  (t.succ.take t.ns).any (fun k => decide (ntask ≤ k))

/-- The die count of a context's partition: the dies latched to its world (R472). -/
def State.partitionDies (s : State) (world : Nat) : List Nat :=
  (List.range 12).filter (fun n => (s.dieAt n).st == 2 && (s.dieAt n).world == world && !(s.dieAt n).lost)

/-- The checks 0x10 to 0x14 and the first part of 0x15. -/
def recordStatus (lr : Nat) : Nat :=
  if lrRes.any (fun (lo, n) => bits lr lo n != 0) then 0x10
  else if lrNrole lr == 0 || (List.range 3).any (fun r =>
      if r < lrNrole lr then lrPicks lr r == 0 || lrRegs lr r == 0 || decide (239 < lrRegs lr r) || lrEntry lr r % 4 != 0
      else lrPicks lr r != 0 || lrRegs lr r != 0 || lrEntry lr r != 0) then 0x11
  else if decide (4096 < lrScru lr ∨ 16 < lrTiles lr) then 0x12
  else if decide (1023 < lrReserve lr) then 0x13
  else if fmtrBad (lrFmtr lr) || tcfgBad (lrTcfg lr) then 0x14
  else if lrBrtab lr % 8 != 0 || lrSafetab lr % 32 != 0 || lrSucctab lr % 16 != 0 || lrTasktab lr % 16 != 0 ||
      lrCompl lr % 16 != 0 || decide (4096 < lrNtask lr) || ((lrGrid lr).1 == 0) != ((lrGrid lr).2 == 0) then 0x15
  else 0

/-- The checks 0x16 to 0x18 and 0x21 to 0x25 for a context of a world; a successor's record skips the edges and the
levels above the team level (R397). -/
def State.formStatus (s : State) (world lr : Nat) (successor : Bool) : Nat :=
  let n := (s.partitionDies world).length
  if (List.range 8).any (fun k =>
      if (lrDmask lr).getLsbD k then !draftWordOk (lrDword lr k) else lrDword lr k != 0) then 0x16
  else if (ones (lrDmask lr).toNat 8).any (fun k =>
      (s.worldAt world).drafts.all (fun d => d.word.toNat != lrDword lr k)) then 0x17
  else if successor then (if hierForm lr then 0x21 else if hierNarrow lr then 0x22 else if hierShape lr then 0x23 else 0)
  else if (List.range 3).any (fun e =>
      let (b, c, m) := lrEdge lr e
      if e < lrNdep lr then b % 16 != 0 || c == 0 || decide (2 ≤ m) else b != 0 || c != 0 || m != 0) then 0x18
  else if hierForm lr then 0x21
  else if hierNarrow lr then 0x22
  else if hierShape lr then 0x23
  else if hierFit n lr then 0x24
  else if coopFit n lr then 0x25
  else 0

/-- The number of n bytes at a virtual address of a context as an agent reads them; none when the bytes cannot be read.
Reads of the device's own units are no agent's accesses (R171) and touch no die (R485). -/
def State.readVa (s : State) (g : Agent) (ctx va n : Nat) : Option Nat :=
  match s.resolve (s.ctxAt ctx) rightR va n with
  | .error _ => none
  | .ok (pas, _) => some (s.readPas g pas)

/-- A successor's record with its levels above the team level, its COOP flag and its edges cleared (R397). -/
def lrAsSuccessor (lr : Nat) : Nat :=
  let t := lrTeamLevel lr
  let lr1 := (List.range 8).foldl (fun x n => if t < n then setBits x (32 * n) 32 0 else x) lr
  (List.range 3).foldl (fun x e => setBits (setBits x (128 * e + 1600) 56 0) (128 * e + 1664) 34 0)
    (setBits (setBits lr1 259 1 0) 264 2 0)

/-- The validation of a record at a virtual address of a context: the status with which it is refused, or the record
and its tasks (R436 from 0x03 on). -/
def State.validate (s : State) (g : Agent) (ctx rec : Nat) (successor : Bool) :
    Except Nat (Nat × List Task) :=
  let c := s.ctxAt ctx
  if rec % 256 ≠ 0 then .error 0x03
  else match s.readVa g ctx rec 256 with
    | none => .error 0x04
    | some lr0 =>
      let lr := if successor then lrAsSuccessor lr0 else lr0
      let st := recordStatus lr
      if c.ended then .error 0x05
      else if st ≠ 0 then .error st
      else match (if lrNtask lr = 0 then some 0 else s.readVa g ctx (lrTasktab lr) (16 * lrNtask lr)) with
        | none => .error 0x04
        | some x =>
          let es := (List.range (lrNtask lr)).map (fun k => bits x (128 * k) 128)
          if es.any (taskBad (lrNtask lr)) then .error 0x15
          else
            let st := s.formStatus c.world lr successor
            if st ≠ 0 then .error st else .ok (lr, es.map taskOf)

end Sys2Proof.Machine
end

