-- ==== Sys2Proof/Machine/ControlRegs.lean ====
section
/-! DEFINITION. The control registers that SCSRR and SCSRW reach (R81 to R87, R267, R416 to R419, R433). -/

namespace Sys2Proof.Machine

/-- PATHS (R87). -/
def Pick.pathsReg (p : Pick) : BitVec 64 :=
  BitVec.ofNat 64 ((List.range 8).map (fun n => ((p.path n).counter % 64) * 2 ^ (8 * n))).sum

/-- TSTAT: MODE is the live mode bit (R414, R417). -/
def Pick.tstat (p : Pick) : Word :=
  let r := p.trec
  BitVec.ofNat 32 ((if p.mode then 1 else 0) + (if r.src then 2 else 0) + (if r.async then 4 else 0) +
    (if r.blk then 8 else 0) + (if r.skip then 16 else 0) + r.ob.toNat * 256 + r.owb.toNat * 65536)

/-- A trap-record register (R416 to R418). -/
def Pick.trapReg (p : Pick) (n : Nat) : Option Word :=
  let r := p.trec
  match n with
  | 0x100 => some (r.cause.setWidth 32)
  | 0x101 => some (r.tval.setWidth 32)
  | 0x102 => some (r.tval.extractLsb' 32 32)
  | 0x103 => some r.tmask
  | 0x104 => some r.tfrag
  | 0x105 => some r.tspc
  | 0x106 => some p.tstat
  | 0x107 => some r.tfmtr
  | 0x108 => some (r.tinst.extractLsb' 0 32)
  | 0x109 => some (r.tinst.extractLsb' 32 32)
  | 0x10A => some (r.tinst.extractLsb' 64 32)
  | _ =>
    if 0x110 ≤ n ∧ n < 0x118 then some (tget 0xFFFFFFFF r.tlpc (n - 0x110))
    else if 0x118 ≤ n ∧ n < 0x120 then some (tget 0 r.tlfmt (n - 0x118))
    else if 0x120 ≤ n ∧ n < 0x130 then some (tget 0 r.tkf (n - 0x120))
    else none

/-- A context control register (R419). -/
def Context.ctlReg (c : Context) (num n : Nat) : Option Word :=
  match n with
  | 0x140 => some (BitVec.ofNat 32 (num % 65536 + c.world * 65536))
  | 0x141 => some c.tvec
  | 0x142 => some (c.twin.setWidth 32)
  | 0x143 => some (c.chk.setWidth 32)
  | 0x144 => some (c.sbase.setWidth 32)
  | 0x145 => some (c.sbase.extractLsb' 32 32)
  | 0x146 => some (c.lbase.setWidth 32)
  | 0x147 => some (c.lbase.extractLsb' 32 32)
  | 0x148 => some (c.bkctl.setWidth 32)
  | _ =>
    if 0x14C ≤ n ∧ n < 0x150 then some (tget 0 c.bkl (n - 0x14C))
    else if n = 0x150 ∨ n = 0x151 then some (tget 0 c.bks (n - 0x150))
    else none

/-- What SCSRR reads, none for an unallocated number. -/
def State.ctlRead (s : State) (n : Nat) : Option Word :=
  let p := s.pick
  match n with
  | 0x000 => some p.fmtr
  | 0x001 => some p.tcfg
  | 0x002 => some p.seed
  | 0x003 => some (p.wb.setWidth 32)
  | 0x004 => some (p.gang.setWidth 32)
  | 0x005 => some (p.gang.extractLsb' 32 32)
  | 0x006 => some (p.pathsReg.setWidth 32)
  | 0x007 => some (p.pathsReg.extractLsb' 32 32)
  | 0x008 => some (p.fmask.setWidth 32)
  | 0x009 => some (p.fmask.extractLsb' 32 32)
  | 0x158 => some ((s.dieAt s.team.die).cycles.setWidth 32)
  | 0x159 => some p.cych
  | 0x15A => some (p.cycd.setWidth 32)
  | _ => p.trapReg n <|> s.ctx.ctlReg s.team.ctx n

/-- The latch that a read of CYCL sets (R433). -/
def State.cycLatch (s : State) (n : Nat) : State :=
  if n = 0x158 then
    s.setPick { s.pick with
      cych := (s.dieAt s.team.die).cycles.extractLsb' 32 32
      cycd := BitVec.ofNat 4 s.team.die }
  else s

/-- A write of a trap-record register in trap mode: the pick after it, or none for ILL_OPERAND (R417, R418, R426). -/
def Pick.trapWrite (p : Pick) (n : Nat) (v : Word) : Option Pick :=
  let r := p.trec
  if n = 0x105 then (if v.toNat % 4 = 0 then some { p with trec := { r with tspc := v } } else none)
  else if n = 0x106 then
    let owb := v.extractLsb' 16 10
    if owb.toNat % 16 ≠ 0 ∨ 960 < owb.toNat then none
    else some { p with trec := { r with skip := v.getLsbD 4, ob := v.extractLsb' 8 8 ||| 1, owb } }
  else if n = 0x107 then
    (if fmtrBad (fmtrClean v) then none else some { p with trec := { r with tfmtr := fmtrClean v } })
  else if 0x110 ≤ n ∧ n < 0x118 then
    if !r.blk || (r.tlpc.lookup (n - 0x110)).isNone then some p
    else if v.toNat % 12 = 0 then some { p with trec := { r with tlpc := tins (n - 0x110) v r.tlpc } }
    else none
  else if 0x118 ≤ n ∧ n < 0x120 then
    (if fmtrBad (fmtrClean v) then none
     else some { p with trec := { r with tlfmt := tins (n - 0x118) (fmtrClean v) r.tlfmt } })
  else if 0x120 ≤ n ∧ n < 0x130 then
    some { p with
      trec := { r with tkf := tins (n - 0x120) v r.tkf }
      queue := match p.queue with
        | b :: bs =>
          (if b.started && r.blk then { b with kWritten := b.kWritten ||| (1#16 <<< (n - 0x120))
                                               kPoison := b.kPoison &&& ~~~(1#16 <<< (n - 0x120)) } else b) :: bs
        | [] => [] }
  else some p

/-- Whether a number names a trap-record register. -/
def isTrapReg (n : Nat) : Bool :=
  decide (0x100 ≤ n ∧ n ≤ 0x10A) || decide (0x110 ≤ n ∧ n < 0x130)

/-- Whether a number names a context control register. -/
def isCtxReg (n : Nat) : Bool := decide (0x140 ≤ n ∧ n ≤ 0x148) || decide (0x14C ≤ n ∧ n ≤ 0x151)

/-- Whether a number names any control register. -/
def isCtlReg (n : Nat) : Bool := decide (n < 0x00A) || isTrapReg n || isCtxReg n || decide (0x158 ≤ n ∧ n ≤ 0x15A)

/-- A write of one of the registers 0x000 to 0x009 (R259, R267): the pick after it, or none for ILL_OPERAND. -/
def Pick.ctlWrite (p : Pick) (n : Nat) (v : Word) : Option Pick :=
  match n with
  | 0x000 => if fmtrBad (fmtrClean v) then none else some { p with fmtr := fmtrClean v }
  | 0x001 => if tcfgBad (tcfgClean v) then none else some { p with tcfg := tcfgClean v }
  | 0x002 => some { p with seed := v }
  | 0x004 => some { p with gang := p.gang.extractLsb' 32 32 ++ v }
  | 0x005 => some { p with gang := (0#16 ++ v.setWidth 16 : BitVec 32) ++ p.gang.setWidth 32 }
  | 0x008 => some { p with fmask := clearFmask p.fmask false v }
  | 0x009 => some { p with fmask := clearFmask p.fmask true v }
  | _ => some p

end Sys2Proof.Machine
end

