-- ==== Sys2Proof/Machine/ScalarAlu.lean ====
section
/-! DEFINITION. S-stream arithmetic, logic and comparison (R236 to R239). -/

namespace Sys2Proof.Machine

/-- w(d) := f(w(a), w(b)). -/
def State.alu2 (s : State) (d a b : BitVec 6) (f : Word → Word → Word) : Out :=
  s.withOperands [a, b] [d] fun w => .next ((s.setS d (f (w a) (w b))).advance)

/-- w(d) := f(w(a)). -/
def State.alu1 (s : State) (d a : BitVec 6) (f : Word → Word) : Out :=
  s.withOperands [a] [d] fun w => .next ((s.setS d (f (w a))).advance)

/-- The shift count of R236: b[4:0]. -/
def sh5 (b : Word) : Nat := (b.extractLsb' 0 5).toNat

/-- Leading zero bits of a word; 32 for 0 (R236, R281). -/
def clz (a : Word) : Nat := if a = 0 then 32 else 31 - a.toNat.log2

/-- The number of one bits of a word (R236, R281). -/
def popcount (a : Word) : Nat := popc a.toNat 32

/-- R236: bits [63:32] of the signed product. -/
def mulHigh (a b : Word) : Word := wordOf ((a.toInt * b.toInt) / 2 ^ 32)

/-- R236: bits [63:32] of the unsigned product. -/
def mulHighU (a b : Word) : Word := BitVec.ofNat 32 (a.toNat * b.toNat / 2 ^ 32)

/-- SADD (R236). -/
def execSadd (d a b : BitVec 6) (s : State) : Out := s.alu2 d a b (· + ·)

/-- SSUB (R236). -/
def execSsub (d a b : BitVec 6) (s : State) : Out := s.alu2 d a b (· - ·)

/-- SMUL (R236). -/
def execSmul (d a b : BitVec 6) (s : State) : Out := s.alu2 d a b (· * ·)

/-- SMULH (R236). -/
def execSmulh (d a b : BitVec 6) (s : State) : Out := s.alu2 d a b mulHigh

/-- SMULHU (R236). -/
def execSmulhu (d a b : BitVec 6) (s : State) : Out := s.alu2 d a b mulHighU

/-- SAND (R236). -/
def execSand (d a b : BitVec 6) (s : State) : Out := s.alu2 d a b (· &&& ·)

/-- SOR (R236). -/
def execSor (d a b : BitVec 6) (s : State) : Out := s.alu2 d a b (· ||| ·)

/-- SXOR (R236). -/
def execSxor (d a b : BitVec 6) (s : State) : Out := s.alu2 d a b (· ^^^ ·)

/-- SSHL (R236). -/
def execSshl (d a b : BitVec 6) (s : State) : Out := s.alu2 d a b fun x y => x <<< sh5 y

/-- SSHR (R236). -/
def execSshr (d a b : BitVec 6) (s : State) : Out := s.alu2 d a b fun x y => x >>> sh5 y

/-- SSRA (R236). -/
def execSsra (d a b : BitVec 6) (s : State) : Out := s.alu2 d a b fun x y => x.sshiftRight (sh5 y)

/-- SMIN (R236). -/
def execSmin (d a b : BitVec 6) (s : State) : Out := s.alu2 d a b fun x y => if x.slt y then x else y

/-- SMAX (R236). -/
def execSmax (d a b : BitVec 6) (s : State) : Out := s.alu2 d a b fun x y => if x.slt y then y else x

/-- SMINU (R236). -/
def execSminu (d a b : BitVec 6) (s : State) : Out := s.alu2 d a b fun x y => if x.ult y then x else y

/-- SMAXU (R236). -/
def execSmaxu (d a b : BitVec 6) (s : State) : Out := s.alu2 d a b fun x y => if x.ult y then y else x

/-- SCLZ (R236). -/
def execSclz (d a : BitVec 6) (s : State) : Out := s.alu1 d a fun x => BitVec.ofNat 32 (clz x)

/-- SPOPC (R236). -/
def execSpopc (d a : BitVec 6) (s : State) : Out := s.alu1 d a fun x => BitVec.ofNat 32 (popcount x)

/-- SSEL (R236). -/
def execSsel (d a b : BitVec 6) (p : BitVec 3) (s : State) : Out :=
  s.alu2 d a b fun x y => if s.pick.b p then x else y

/-- SCMP (R237). -/
def execScmp (n : BitVec 3) (a b : BitVec 6) (c : BitVec 3) (s : State) : Out :=
  s.withOperands [a, b] [] fun w =>
    .next ((s.setPick (s.pick.setB n (cond c.toNat (w a) (w b)))).advance)

/-- SADDI (R238). -/
def execSaddi (d a : BitVec 6) (i : BitVec 14) (s : State) : Out := s.alu1 d a (· + i.signExtend 32)

/-- SANDI (R238). -/
def execSandi (d a : BitVec 6) (i : BitVec 14) (s : State) : Out := s.alu1 d a (· &&& i.signExtend 32)

/-- SORI (R238). -/
def execSori (d a : BitVec 6) (i : BitVec 14) (s : State) : Out := s.alu1 d a (· ||| i.signExtend 32)

/-- SXORI (R238). -/
def execSxori (d a : BitVec 6) (i : BitVec 14) (s : State) : Out := s.alu1 d a (· ^^^ i.signExtend 32)

/-- SSHLI; a count above 31 traps (R238). -/
def execSshli (d a : BitVec 6) (i : BitVec 14) (s : State) : Out :=
  if 31 < i.toNat then s.trapS .illOperand s.opc6 else s.alu1 d a (· <<< i.toNat)

/-- SSHRI; a count above 31 traps (R238). -/
def execSshri (d a : BitVec 6) (i : BitVec 14) (s : State) : Out :=
  if 31 < i.toNat then s.trapS .illOperand s.opc6 else s.alu1 d a (· >>> i.toNat)

/-- SLUI (R239). -/
def execSlui (d : BitVec 6) (i : BitVec 20) (s : State) : Out :=
  s.withOperands [] [d] fun _ => .next ((s.setS d (i ++ 0#12 : BitVec 32)).advance)

end Sys2Proof.Machine
end

