-- ==== Sys2Proof/Machine/LaneInt.lean ====
section
/-! DEFINITION. Lane integer arithmetic, selection, logic, shifts and bit fields (R276 to R283). -/

namespace Sys2Proof.Machine

/-- clamp of R277. -/
def clampInt (x lo hi : Int) : Int := max lo (min hi x)

/-- res of R277: the exact result x under SAT. -/
def satRes (x : Int) (sat : Nat) : Word :=
  match sat with
  | 1 => wordOf (clampInt x (-2 ^ 31) (2 ^ 31 - 1))
  | 2 => wordOf (clampInt x 0 (2 ^ 32 - 1))
  | _ => wordOf x

/-- An operation of R277 on the signed, or under `.US` the unsigned, values of its operands. -/
def satOp (f : Int → Int → Int → Int) (sat : BitVec 2) (a b c : Word) : Word :=
  if sat = 2 then satRes (f a.toNat b.toNat c.toNat) 2 else satRes (f a.toInt b.toInt c.toInt) sat.toNat

/-- VADD (R277). -/
def execVadd (h : Hd) (d : BitVec 8) (a b : Src) (sat : BitVec 2) (s : State) : Out :=
  s.laneOp h d [a, b] 4 fun _ v => satOp (fun x y _ => x + y) sat (v 0) (v 1) 0

/-- VSUB (R277). -/
def execVsub (h : Hd) (d : BitVec 8) (a b : Src) (sat : BitVec 2) (s : State) : Out :=
  s.laneOp h d [a, b] 4 fun _ v => satOp (fun x y _ => x - y) sat (v 0) (v 1) 0

/-- VMUL (R277). -/
def execVmul (h : Hd) (d : BitVec 8) (a b : Src) (s : State) : Out :=
  s.laneOp h d [a, b] 6 fun _ v => v 0 * v 1

/-- VMULH (R277). -/
def execVmulh (h : Hd) (d : BitVec 8) (a b : Src) (s : State) : Out :=
  s.laneOp h d [a, b] 6 fun _ v => mulHigh (v 0) (v 1)

/-- VMULHU (R277). -/
def execVmulhu (h : Hd) (d : BitVec 8) (a b : Src) (s : State) : Out :=
  s.laneOp h d [a, b] 6 fun _ v => mulHighU (v 0) (v 1)

/-- VMAD (R277). -/
def execVmad (h : Hd) (d : BitVec 8) (a b c : Src) (sat : BitVec 2) (s : State) : Out :=
  s.laneOp h d [a, b, c] 6 fun _ v => satOp (fun x y z => x * y + z) sat (v 0) (v 1) (v 2)

/-- VMIN (R277). -/
def execVmin (h : Hd) (d : BitVec 8) (a b : Src) (s : State) : Out :=
  s.laneOp h d [a, b] 4 fun _ v => if (v 0).slt (v 1) then v 0 else v 1

/-- VMAX (R277). -/
def execVmax (h : Hd) (d : BitVec 8) (a b : Src) (s : State) : Out :=
  s.laneOp h d [a, b] 4 fun _ v => if (v 0).slt (v 1) then v 1 else v 0

/-- VMINU (R277). -/
def execVminu (h : Hd) (d : BitVec 8) (a b : Src) (s : State) : Out :=
  s.laneOp h d [a, b] 4 fun _ v => if (v 0).ult (v 1) then v 0 else v 1

/-- VMAXU (R277). -/
def execVmaxu (h : Hd) (d : BitVec 8) (a b : Src) (s : State) : Out :=
  s.laneOp h d [a, b] 4 fun _ v => if (v 0).ult (v 1) then v 1 else v 0

/-- VABS (R277). -/
def execVabs (h : Hd) (d : BitVec 8) (a : Src) (sat : BitVec 1) (s : State) : Out :=
  s.laneOp h d [a] 4 fun _ v => satRes ((v 0).toInt.natAbs : Int) sat.toNat

/-- VNEG (R277). -/
def execVneg (h : Hd) (d : BitVec 8) (a : Src) (sat : BitVec 1) (s : State) : Out :=
  s.laneOp h d [a] 4 fun _ v => satRes (-(v 0).toInt) sat.toNat

/-- A comparison into a lane predicate (R274, R278, R307). -/
def State.laneCmp (s : State) (h : Hd) (p : BitVec 3) (srcs : List Src) (lat : Nat)
    (f : Nat → (Nat → Word) → Bool) : Out :=
  let xs := srcs.map (fun x => (x, 1))
  s.laneGate h.pi h.pn [] xs fun s m val =>
    s.laneCommit h.stall m xs (writePred p m (fun i => f i (fun slot => val slot 0 i)) lat) nextL

/-- VICMP (R278). -/
def execVicmp (h : Hd) (p : BitVec 3) (a b : Src) (cc : BitVec 3) (s : State) : Out :=
  s.laneCmp h p [a, b] 4 fun _ v => cond cc.toNat (v 0) (v 1)

/-- VSEL (R279). -/
def execVsel (h : Hd) (d : BitVec 8) (a b : Src) (q : BitVec 3) (nq : BitVec 1) (s : State) : Out :=
  s.laneGate h.pi h.pn [q.toNat] [(a, 1), (b, 1)] fun s m val =>
    s.laneCommit h.stall m [(a, 1), (b, 1)]
      (writeTo d m (fun i => if s.predLane 10 q.toNat i != (nq == 1) then val 0 0 i else val 1 0 i) 4) nextL

/-- The trap of an instruction that is allocated and not provided (R215, R216, R280). -/
def State.unimplOpt (s : State) (h : Hd) : Out := s.trapL .unimplOpt s.opc (s.lanesActive h.pi h.pn)

/-- VDIV (R280). -/
def execVdiv (h : Hd) (_ : BitVec 8) (_ _ _ : Src) (_ : BitVec 19) (s : State) : Out := s.unimplOpt h

/-- VDIVU (R280). -/
def execVdivu (h : Hd) (_ : BitVec 8) (_ _ _ : Src) (_ : BitVec 19) (s : State) : Out := s.unimplOpt h

/-- VREM (R280). -/
def execVrem (h : Hd) (_ : BitVec 8) (_ _ _ : Src) (_ : BitVec 19) (s : State) : Out := s.unimplOpt h

/-- VREMU (R280). -/
def execVremu (h : Hd) (_ : BitVec 8) (_ _ _ : Src) (_ : BitVec 19) (s : State) : Out := s.unimplOpt h

/-- VAND (R281). -/
def execVand (h : Hd) (d : BitVec 8) (a b : Src) (s : State) : Out :=
  s.laneOp h d [a, b] 4 fun _ v => v 0 &&& v 1

/-- VOR (R281). -/
def execVor (h : Hd) (d : BitVec 8) (a b : Src) (s : State) : Out :=
  s.laneOp h d [a, b] 4 fun _ v => v 0 ||| v 1

/-- VXOR (R281). -/
def execVxor (h : Hd) (d : BitVec 8) (a b : Src) (s : State) : Out :=
  s.laneOp h d [a, b] 4 fun _ v => v 0 ^^^ v 1

/-- VANDN (R281). -/
def execVandn (h : Hd) (d : BitVec 8) (a b : Src) (s : State) : Out :=
  s.laneOp h d [a, b] 4 fun _ v => v 0 &&& ~~~v 1

/-- A shift of R281 by a constant or by SB[4:0]. -/
def State.laneShift (s : State) (h : Hd) (d : BitVec 8) (a b : Src) (n : BitVec 5) (i : BitVec 1)
    (f : Word → Nat → Word) : Out :=
  if i = 1 then s.laneOp h d [a] 4 fun _ v => f (v 0) n.toNat
  else s.laneOp h d [a, b] 4 fun _ v => f (v 0) (sh5 (v 1))

/-- VSHL (R281). -/
def execVshl (h : Hd) (d : BitVec 8) (a b : Src) (n : BitVec 5) (i : BitVec 1) (s : State) : Out :=
  s.laneShift h d a b n i (· <<< ·)

/-- VSHR (R281). -/
def execVshr (h : Hd) (d : BitVec 8) (a b : Src) (n : BitVec 5) (i : BitVec 1) (s : State) : Out :=
  s.laneShift h d a b n i (· >>> ·)

/-- VSRA (R281). -/
def execVsra (h : Hd) (d : BitVec 8) (a b : Src) (n : BitVec 5) (i : BitVec 1) (s : State) : Out :=
  s.laneShift h d a b n i BitVec.sshiftRight

/-- VCLZ (R281). -/
def execVclz (h : Hd) (d : BitVec 8) (a : Src) (s : State) : Out :=
  s.laneOp h d [a] 6 fun _ v => BitVec.ofNat 32 (clz (v 0))

/-- VPOPC (R281). -/
def execVpopc (h : Hd) (d : BitVec 8) (a : Src) (s : State) : Out :=
  s.laneOp h d [a] 6 fun _ v => BitVec.ofNat 32 (popcount (v 0))

/-- VBREV (R281). -/
def execVbrev (h : Hd) (d : BitVec 8) (a : Src) (s : State) : Out := s.laneOp h d [a] 6 fun _ v => (v 0).reverse

/-- POS and LEN of R282: from the fields, or from register t. -/
def fieldOf (r : BitVec 1) (pos len : BitVec 5) (t : Word) : Nat × Nat :=
  if r = 1 then (bits t.toNat 0 5, bits t.toNat 8 5 + 1) else (pos.toNat, len.toNat + 1)

/-- VBFX of R282: f, or its sign extension. -/
def bitExtract (a : Word) (pos len : Nat) (sgn : Bool) : Word :=
  let f := bits a.toNat pos len
  if sgn ∧ len < 32 then wordOf (sextN f len) else BitVec.ofNat 32 f

/-- VBFI of R282. -/
def bitInsert (a b : Word) (pos len : Nat) : Word :=
  let fm := BitVec.ofNat 32 ((2 ^ len - 1) * 2 ^ pos)
  (b &&& ~~~fm) ||| (BitVec.ofNat 32 (a.toNat * 2 ^ pos) &&& fm)

/-- VBFX (R282). -/
def execVbfx (h : Hd) (d : BitVec 8) (a b : Src) (pos len : BitVec 5) (sgn r : BitVec 1) (s : State) : Out :=
  s.laneOp h d (if r = 1 then [a, b] else [a]) 6 fun _ v =>
    let (p, l) := fieldOf r pos len (v 1)
    bitExtract (v 0) p l (sgn == 1)

/-- VBFI (R282). -/
def execVbfi (h : Hd) (d : BitVec 8) (a b c : Src) (pos len : BitVec 5) (r : BitVec 1) (s : State) : Out :=
  s.laneOp h d (if r = 1 then [a, b, c] else [a, b]) 6 fun _ v =>
    let (p, l) := fieldOf r pos len (v 2)
    bitInsert (v 0) (v 1) p l

/-- VPRMB of R283: σ gives the selector nibble of each byte. -/
def permBytes (a b : Word) (sel : Nat → Nat) : Word :=
  let src := a.toNat + b.toNat * 2 ^ 32
  let one (k : Nat) : Nat := if sel k ≥ 8 then 0 else bits src (8 * sel k) 8
  BitVec.ofNat 32 (one 0 + one 1 * 2 ^ 8 + one 2 * 2 ^ 16 + one 3 * 2 ^ 24)

/-- VPRMB (R283). -/
def execVprmb (h : Hd) (d : BitVec 8) (a b c : Src) (sel : BitVec 16) (i : BitVec 1) (s : State) : Out :=
  if i = 1 then s.laneOp h d [a, b] 6 fun _ v => permBytes (v 0) (v 1) (fun k => bits sel.toNat (4 * k) 4)
  else s.laneOp h d [a, b, c] 6 fun _ v => permBytes (v 0) (v 1) (fun k => bits (v 2).toNat (8 * k) 4)

/-- clmul of R281. -/
def clmul (a b : Word) : BitVec 64 :=
  (List.range 32).foldl (fun (x : BitVec 64) j => if a.getLsbD j then x ^^^ (b.setWidth 64 <<< j) else x) 0

/-- VCLMUL (R281). -/
def execVclmul (h : Hd) (d : BitVec 8) (a b : Src) (s : State) : Out :=
  s.laneOp h d [a, b] 6 fun _ v => (clmul (v 0) (v 1)).setWidth 32

/-- VCLMULH (R281). -/
def execVclmulh (h : Hd) (d : BitVec 8) (a b : Src) (s : State) : Out :=
  s.laneOp h d [a, b] 6 fun _ v => (clmul (v 0) (v 1)).extractLsb' 32 32

end Sys2Proof.Machine
end

