-- ==== Sys2Proof/Machine/Numbers.lean ====
section
/-! DEFINITION. Number formats and arithmetic: extended values, decoding and encoding of every format, FP32 helpers,
the special functions and the rounding sequence (R108 to R143, R305). -/

namespace Sys2Proof.Machine

/-- An extended value (R111): a real one is not 0. The flag is the sign, set for negative. -/
inductive Ext where
  | nan (neg : Bool)
  | inf (neg : Bool)
  | zero (neg : Bool)
  | real (q : ℚ)
deriving DecidableEq, Repr

/-- 2^k. -/
def pow2 (k : Int) : ℚ := if 0 ≤ k then ((2 ^ k.toNat : ℕ) : ℚ) else 1 / ((2 ^ (-k).toNat : ℕ) : ℚ)

/-- The exponent of a positive number: the largest e with 2^e at most it. -/
def ilog2 (q : ℚ) : Int :=
  let l : Int := (q.num.natAbs.log2 : Int) - (q.den.log2 : Int)
  if pow2 l ≤ q then l else l - 1

/-- The largest integer at most q. -/
def floorQ (q : ℚ) : Int := q.num / (q.den : Int)

/-- The magnitude of a number. -/
def absQ (q : ℚ) : ℚ := if q < 0 then -q else q

/-- The extended value of an exact result; an exact 0 is +0 (R127). -/
def Ext.ofRat (q : ℚ) : Ext := if q = 0 then .zero false else .real q

/-- The sign of an extended value. -/
def Ext.neg : Ext → Bool
  | .nan s => s
  | .inf s => s
  | .zero s => s
  | .real q => decide (q < 0)

/-- The value with its sign inverted. -/
def Ext.negate : Ext → Ext
  | .nan s => .nan (!s)
  | .inf s => .inf (!s)
  | .zero s => .zero (!s)
  | .real q => .real (-q)

/-- Whether a value is NaN. -/
def Ext.isNan : Ext → Bool
  | .nan _ => true
  | _ => false

/-- Whether a value is a zero. -/
def Ext.isZero : Ext → Bool
  | .zero _ => true
  | _ => false

/-- The real number a finite value is. -/
def Ext.toRat : Ext → ℚ
  | .real q => q
  | _ => 0

/-- add (R305). -/
def Ext.add (p q : Ext) : Ext :=
  match p, q with
  | .nan _, _ => .nan false
  | _, .nan _ => .nan false
  | .inf a, .inf b => if a = b then .inf a else .nan false
  | .inf a, _ => .inf a
  | _, .inf b => .inf b
  | .zero a, .zero b => .zero (a && b)
  | x, y => Ext.ofRat (x.toRat + y.toRat)

/-- mul (R305). -/
def Ext.mul (p q : Ext) : Ext :=
  let s := p.neg != q.neg
  match p, q with
  | .nan _, _ => .nan false
  | _, .nan _ => .nan false
  | .inf _, .zero _ => .nan false
  | .zero _, .inf _ => .nan false
  | .inf _, _ => .inf s
  | _, .inf _ => .inf s
  | .real a, .real b => .real (a * b)
  | _, _ => .zero s

/-- The quotient of VQNT (R311). -/
def Ext.div (v s : Ext) : Ext :=
  let g := v.neg != s.neg
  match v, s with
  | .nan _, _ => .nan false
  | _, .nan _ => .nan false
  | .zero _, .zero _ => .nan false
  | _, .zero _ => .inf g
  | .inf _, .inf _ => .nan false
  | _, .inf _ => .zero g
  | .inf _, _ => .inf g
  | .zero _, _ => .zero g
  | .real a, .real b => .real (a / b)

/-- The product of an element and a scale under R137, an exact 0 being +0. -/
def Ext.scaled (v s : Ext) : Ext :=
  match v.mul s with
  | .zero _ => .zero false
  | x => x

/-- The order of R306: −Inf below every finite value below +Inf, −0 below +0; NaN is below nothing. -/
def Ext.below (p q : Ext) : Bool :=
  match p, q with
  | .nan _, _ => false
  | _, .nan _ => false
  | .inf a, .inf b => a && !b
  | .inf a, _ => a
  | _, .inf b => !b
  | .zero a, .zero b => a && !b
  | x, y => decide (x.toRat < y.toRat)

/-- A format with its parameters (R108, R114, R116, R119). -/
inductive Fmt where
  /-- A minifloat: exponent and fraction bits, bias, special policy; subnormals, tie away, overflow to infinity; a fixed
  float follows R113 and R125 for fixed formats. -/
  | mf (e m : Nat) (bias : Nat) (spec : Nat) (subn tie ovf fixed : Bool)
  /-- An integer of w bits with an offset; a fixed one follows R125 for fixed formats. -/
  | int (w : Nat) (signed : Bool) (off : Int) (tie fixed : Bool)
  /-- Codes of w bits with the values listed by rising code; a NaN code; the code of NaN when there is none is that of
  the element nearest 0, or of the largest (scales). -/
  | set (w : Nat) (vals : List (Nat × ℚ)) (nan : Option Nat) (tie scale : Bool)
deriving DecidableEq, Repr

/-- FP32. -/
def f32 : Fmt := .mf 8 23 127 0 true false true true

/-- BF16. -/
def bf16 : Fmt := .mf 8 7 127 0 true false true true

/-- FP16. -/
def f16 : Fmt := .mf 5 10 15 0 true false true true

/-- A fixed integer format. -/
def fixedInt (w : Nat) : Fmt := .int w true 0 false true

/-- The integer whose n planes a BPN element stores (R130). -/
def bpnFmt (n : Nat) (signed : Bool) : Fmt := .int n signed 0 false true

/-- The format of a draft's word and table (R119 to R123). -/
def draftFmt (x : Nat) (table : List Word) : Fmt :=
  let w := bits x 2 5
  let tie := bit x 30
  match bits x 0 2 with
  | 0 => .mf (bits x 11 4) (bits x 15 4) (bits x 19 8) (bits x 27 2) (bit x 29) tie (bit x 31) false
  | 1 => .int w (bit x 7) (sextN (bits x 32 17) 17) tie false
  | 2 =>
    let nan := if bit x 49 then some (bits x 50 8) else none
    let vals := ((table.take (2 ^ w)).zipIdx).map (fun (e, c) =>
      (c, (sextN (bits e.toNat 0 13) 13 : ℚ) * pow2 (sextN (bits e.toNat 13 7) 7)))
    .set w (vals.filter (fun e => some e.1 != nan)) nan tie false
  | _ =>
    let sm := bits x 8 3
    let bias : Int := bits x 19 8
    let nan := if bit x 49 then some (2 ^ w - 1) else none
    let val (c : Nat) : ℚ :=
      if bit x 7 then ((2 ^ sm + c % 2 ^ sm : ℕ) : ℚ) * pow2 ((c / 2 ^ sm : ℕ) - bias - sm)
      else pow2 ((c : Int) - bias)
    .set w (((List.range (2 ^ w)).filter (fun c => some c != nan)).map (fun c => (c, val c))) nan tie true

/-- The width of a format (R131). -/
def Fmt.width : Fmt → Nat
  | .mf e m _ _ _ _ _ _ => 1 + e + m
  | .int w _ _ _ _ => w
  | .set w _ _ _ _ => w

/-- Whether a format is a scale draft. -/
def Fmt.isScale : Fmt → Bool
  | .set _ _ _ _ s => s
  | _ => false

/-- Whether a format's values are integers: a fixed or a draft INT. -/
def Fmt.isInt : Fmt → Bool
  | .int _ _ _ _ _ => true
  | _ => false

/-- Whether a format is a minifloat draft or fixed float. -/
def Fmt.isMf : Fmt → Bool
  | .mf _ _ _ _ _ _ _ _ => true
  | _ => false

/-! ## Decoding (R122, R123, R130) -/

/-- decode_fmt. -/
def Fmt.decode (f : Fmt) (c0 : Nat) : Ext :=
  let c := c0 % 2 ^ f.width
  match f with
  | .mf e m bias spec subn _ _ _ =>
    let s := bit c (e + m)
    let x := bits c m e
    let fr := bits c 0 m
    let top := 2 ^ e - 1
    let sign : ℚ := if s then -1 else 1
    if spec = 0 ∧ x = top ∧ fr = 0 then .inf s
    else if spec = 0 ∧ x = top then .nan s
    else if spec = 1 ∧ x = top ∧ fr = 2 ^ m - 1 then .nan s
    else if x = 0 ∧ fr = 0 then .zero s
    else if x = 0 ∧ subn then .real (sign * fr * pow2 (1 - (bias : Int) - m))
    else if x = 0 then .zero s
    else .real (sign * ((2 ^ m + fr : ℕ) : ℚ) * pow2 ((x : Int) - bias - m))
  | .int w signed off _ _ =>
    let v : Int := (if signed then sextN c w else (c : Int)) + off
    Ext.ofRat v
  | .set _ vals nan _ _ =>
    if some c = nan then .nan false else Ext.ofRat ((vals.lookup c).getD 0)

/-! ## Encoding (R124 to R130) -/

/-- The nearer of two neighbours, the second on a tie when hi is set. -/
def nearer (x lo hi : ℚ) (tieHi : Bool) : Bool :=
  if x - lo < hi - x then false else if hi - x < x - lo then true else tieHi

/-- The stochastic choice of R128 between a below and b above: whether b is taken. -/
def stochUp (x a b : ℚ) (u : Nat) : Bool := decide ((u : ℚ) < (x - a) / (b - a) * 16777216)

/-- The largest finite code of a minifloat, without its sign. -/
def mfMaxCode (e m spec : Nat) : Nat :=
  let top := (2 ^ e - 1) * 2 ^ m
  if spec = 0 then top - 1 else if spec = 1 then top + 2 ^ m - 2 else top + 2 ^ m - 1

/-- The magnitude of a minifloat code without its sign. -/
def mfMag (m : Nat) (bias : Nat) (c : Nat) : ℚ :=
  if c < 2 ^ m then (c : ℚ) * pow2 (1 - (bias : Int) - m)
  else ((2 ^ m + c % 2 ^ m : ℕ) : ℚ) * pow2 ((c / 2 ^ m : ℕ) - (bias : Int) - m)

/-- The codes next below and above a magnitude that is less than the largest finite one; equal when it is exact. -/
def mfAround (m bias : Nat) (subn : Bool) (a : ℚ) : Nat × Nat :=
  let em : Int := 1 - (bias : Int)
  if !subn ∧ a < pow2 em then (0, 2 ^ m)
  else
    let e := max (ilog2 a) em
    let k := floorQ (a / pow2 (e - m))
    let c := ((e + bias) * 2 ^ m + k - 2 ^ m).toNat
    if (k : ℚ) * pow2 (e - m) = a then (c, c) else (c, c + 1)

/-- A magnitude rounded into a minifloat (R124 to R126, R128): the code without its sign. -/
def mfRound (e m bias spec : Nat) (subn tie ovf fixed : Bool) (neg : Bool) (a : ℚ) (rnd : Nat) (sat : Bool) (u : Nat) : Nat :=
  let mc := mfMaxCode e m spec
  let mv := mfMag m bias mc
  let sp := pow2 ((mc / 2 ^ m : ℕ) - (bias : Int) - m)
  let ovfl := match rnd with
    | 1 => false
    | 2 => neg && decide (mv < a)
    | 3 => !neg && decide (mv < a)
    | _ => decide (mv + sp / 2 ≤ a)
  if ovfl then (if (fixed || ovf) && !sat then (2 ^ e - 1) * 2 ^ m else mc)
  else if mv ≤ a then mc
  else
    let (cl, ch) := mfAround m bias subn a
    let vl := mfMag m bias cl
    let vh := mfMag m bias ch
    if cl = ch then cl
    else
      let tieHi :=
        if fixed then (if rnd = 4 then true else decide (cl % 2 = 1))
        else if tie then true
        else if cl % 2 = 0 ∧ ch % 2 = 0 then Config.freeTie (e + m * 16 + bias * 256 + (if neg then 65536 else 0)) a
        else decide (cl % 2 = 1)
      let up := match rnd with
        | 1 => false
        | 2 => neg
        | 3 => !neg
        | 5 => if neg then !stochUp (-a) (-vh) (-vl) u else stochUp a vl vh u
        | _ => nearer a vl vh tieHi
      if up then ch else cl

/-- An integer code chosen for a real (R124, R125). -/
def intRound (w : Nat) (signed : Bool) (off : Int) (tie fixed : Bool) (x : ℚ) (rnd u : Nat) : Nat :=
  let lo : Int := (if signed then -2 ^ (w - 1) else 0) + off
  let hi : Int := lo + 2 ^ w - 1
  let fl := floorQ x
  let code (v : Int) : Nat := ((v - off) % 2 ^ w).toNat
  let v : Int :=
    if (fl : ℚ) = x then fl
    else
      let away := decide (0 < x)
      let tieHi := if (if fixed then rnd == 4 else tie) then away else decide (code fl % 2 = 1)
      let up := match rnd with
        | 1 => decide (x < 0)
        | 2 => false
        | 3 => true
        | 5 => stochUp x fl (fl + 1) u
        | _ => nearer x fl (fl + 1) tieHi
      if up then fl + 1 else fl
  code (max lo (min hi v))

/-- The lowest code of a value of a set. -/
def codeOf (vals : List (Nat × ℚ)) (v : ℚ) : Nat := ((vals.find? (fun e => e.2 == v)).map (·.1)).getD 0

/-- A code of a value set chosen for a real, which may be 0 for the element nearest 0 (R124, R125, R129). The two parts of
the third clause of R125 are read under TIE 0 and TIE 1 (log 56). -/
def setRound (vals : List (Nat × ℚ)) (tie : Bool) (x : ℚ) (rnd u : Nat) : Nat :=
  let vs := vals.map (·.2)
  let lo := ((vs.filter (fun v => decide (v ≤ x))).max?).getD ((vs.min?).getD 0)
  let hi := ((vs.filter (fun v => decide (x ≤ v))).min?).getD ((vs.max?).getD 0)
  let cl := codeOf vals lo
  let ch := codeOf vals hi
  if lo = hi then cl
  else if lo > x then cl
  else if hi < x then ch
  else
    let lower := decide (ch < cl)
    let tieHi :=
      if tie then (if absQ lo = absQ hi then lower else decide (absQ lo < absQ hi))
      else if cl % 2 = ch % 2 then lower else decide (cl % 2 = 1)
    let up := match rnd with
      | 1 => decide (x < 0)
      | 2 => false
      | 3 => true
      | 5 => stochUp x lo hi u
      | _ => nearer x lo hi tieHi
    if up then ch else cl

/-- The code of the value of a format nearest 0, or of 0 (R129). -/
def Fmt.zeroCode : Fmt → Nat
  | .mf _ _ _ _ _ _ _ _ => 0
  | .int w signed off tie fixed => intRound w signed off tie fixed 0 0 0
  | .set _ vals _ tie _ => setRound vals tie 0 0 0

/-- encode_fmt (R130). -/
def Fmt.encode (f : Fmt) (x : Ext) (rnd : Nat) (sat : Bool) (u : Nat) : Nat :=
  match f with
  | .mf e m bias spec subn tie ovf fixed =>
    let sg (s : Bool) (c : Nat) : Nat := c + if s then 2 ^ (e + m) else 0
    match x with
    | .nan s =>
      if fixed then (2 ^ e - 1) * 2 ^ m + 2 ^ (m - 1)
      else if spec = 2 then sg s (mfMaxCode e m spec) else sg s (2 ^ (e + m) - 1)
    | .inf s => if spec = 0 ∧ ovf ∧ !sat then sg s ((2 ^ e - 1) * 2 ^ m) else sg s (mfMaxCode e m spec)
    | .zero s => sg s 0
    | .real q => sg (decide (q < 0)) (mfRound e m bias spec subn tie ovf fixed (decide (q < 0)) (absQ q) rnd sat u)
  | .int w signed off tie fixed =>
    match x with
    | .nan _ => f.zeroCode
    | .inf s => if s then intRound w signed off tie fixed ((-2 ^ w : Int) + off : Int) 0 0
                else intRound w signed off tie fixed ((2 ^ w : Int) + off : Int) 0 0
    | .zero _ => f.zeroCode
    | .real q => intRound w signed off tie fixed q rnd u
  | .set _ vals nan tie scale =>
    let vs := vals.map (·.2)
    let mx := codeOf vals ((vs.max?).getD 0)
    let mn := codeOf vals ((vs.min?).getD 0)
    match x with
    | .nan _ => (match nan with | some c => c | none => if scale then mx else f.zeroCode)
    | .inf s => if s then mn else mx
    | .zero _ => if scale then mn else f.zeroCode
    | .real q => if scale && decide (q < 0) then mn else setRound vals tie q rnd u

/-! ## FP32 (R130, R303) -/

/-- fp32: the value of an FP32 word. -/
def fp32 (w : Word) : Ext := f32.decode w.toNat

/-- fp: an extended value encoded as FP32 in a rounding mode, SAT ignored. -/
def fpEnc (x : Ext) (rnd u : Nat) : Word := BitVec.ofNat 32 (f32.encode x rnd false u)

/-- round_fp32_rne. -/
def roundFp32 (x : Ext) : Word := fpEnc x 0 0

/-! ## Special functions (R142) -/

/-- The integer square root of n below 4^k, by bits. -/
def isqrtBits (n : Nat) : Nat → Nat → Nat
  | 0, r => r
  | k + 1, r =>
    let t := r + 2 ^ k
    isqrtBits n k (if t * t ≤ n then t else r)

/-- A positive number whose square root rounds as that of q does: exact where the root is, else between neighbours that
lie far closer than FP32 values and halves of them. -/
def sqrtNear (q : ℚ) : ℚ :=
  let k : Nat := 200
  let n := (floorQ (q * pow2 (2 * k))).toNat
  let r := isqrtBits n (n.log2 / 2 + 1) 0
  if ((r * r : ℕ) : ℚ) = q * pow2 (2 * k) then (r : ℚ) * pow2 (-(k : Int)) else ((2 * r + 1 : ℕ) : ℚ) * pow2 (-(k : Int) - 1)

/-- ln 2 times 2^240, below. -/
def ln2Fix : Nat := 1224685061431752149387114016819916847747660333428801675508466606222838698

/-- Σ t^k / k! for a t of 240 fraction bits, from term k on. -/
def expFix (t : Nat) : Nat → Nat → Nat → Nat
  | 0, _, _ => 0
  | fuel + 1, k, term => term + expFix t fuel (k + 1) (term * t / 2 ^ 240 / (k + 1))

/-- 2^q to about 230 bits; exact for an integer q. -/
def exp2Near (q : ℚ) : ℚ :=
  let n := floorQ q
  if (n : ℚ) = q then pow2 n
  else
    let f := (floorQ ((q - n) * pow2 240)).toNat
    ((2 * expFix (f * ln2Fix / 2 ^ 240) 80 0 (2 ^ 240) + 1 : ℕ) : ℚ) * pow2 (n - 241)

/-- Σ z^(2k+1) / (2k+1) for a z of 240 fraction bits; p is z^(2k+1). -/
def atanhFix (z2 : Nat) : Nat → Nat → Nat → Nat
  | 0, _, _ => 0
  | fuel + 1, k, p => p / (2 * k + 1) + atanhFix z2 fuel (k + 1) (p * z2 / 2 ^ 240)

/-- log₂ of a positive number to about 225 bits; exact for a power of two. -/
def log2Near (q : ℚ) : ℚ :=
  let e := ilog2 q
  let m := q / pow2 e
  if m = 1 then (e : ℚ)
  else
    let z := (floorQ ((m - 1) / (m + 1) * pow2 240)).toNat
    let ln := 2 * atanhFix (z * z / 2 ^ 240) 90 0 z
    (e : ℚ) + (ln : ℚ) / (ln2Fix : ℚ)

/-- VRCP of an extended value. -/
def rcpExt : Ext → Ext
  | .nan _ => .nan false
  | .inf s => .zero s
  | .zero s => .inf s
  | .real q => .real (1 / q)

/-- VRSQ. -/
def rsqExt : Ext → Ext
  | .nan _ => .nan false
  | .inf s => if s then .nan false else .zero false
  | .zero s => .inf s
  | .real q => if q < 0 then .nan false else .real (sqrtNear (1 / q))

/-- VSQRT. -/
def sqrtExt : Ext → Ext
  | .nan _ => .nan false
  | .inf s => if s then .nan false else .inf false
  | .zero s => .zero s
  | .real q => if q < 0 then .nan false else .real (sqrtNear q)

/-- VEXP2; far outside the range of FP32 the result is decided without the series. -/
def exp2Ext : Ext → Ext
  | .nan _ => .nan false
  | .inf s => if s then .zero false else .inf false
  | .zero _ => .real 1
  | .real q => if 128 ≤ q then .inf false else if q ≤ -150 then .zero false else .real (exp2Near q)

/-- VLOG2. -/
def log2Ext : Ext → Ext
  | .nan _ => .nan false
  | .inf s => if s then .nan false else .inf false
  | .zero _ => .inf true
  | .real q => if q < 0 then .nan false else Ext.ofRat (log2Near q)

/-- A special function of an FP32 word. -/
def special (f : Ext → Ext) (a : Word) : Word := roundFp32 (f (fp32 a))

/-! ## Stochastic rounding (R133) -/

/-- seed_step. -/
def seedStep (x0 : Word) : Word :=
  let x := if x0 = 0 then 0x6A09E667 else x0
  let x := x ^^^ (x <<< 13)
  let x := x ^^^ (x >>> 17)
  x ^^^ (x <<< 5)

/-- draw. -/
def drawBits (s : Word) (e : Nat) : Nat :=
  let h := s ^^^ (0x9E3779B9 * BitVec.ofNat 32 (e + 1))
  let h := (h ^^^ (h >>> 16)) * 0x85EBCA6B
  let h := (h ^^^ (h >>> 13)) * 0xC2B2AE35
  let h := h ^^^ (h >>> 16)
  (h >>> 8).toNat

/-! ## Bit planes (R118) -/

/-- The value of an element of n stored planes read at p planes. -/
def bpnRead (n p : Nat) (signed ctr : Bool) (c : Nat) : Ext :=
  let p' := min p n
  let t := c % 2 ^ n / 2 ^ (n - p')
  let v : Int := (if signed then sextN t p' else (t : Int)) * 2 ^ (n - p')
  Ext.ofRat ((v + (if ctr && decide (p' < n) then 2 ^ (n - p' - 1) else 0) : Int) : ℚ)

/-! ## Dot products (R137, R138) -/

/-- Whether a value is infinite. -/
def Ext.isInf : Ext → Bool
  | .inf _ => true
  | _ => false

/-- The contribution of a group: the products of element pairs and the scale product (R137). -/
def groupSum (pairs : List (Ext × Ext)) (sa sb : Ext) : Ext :=
  let ps := pairs.map (fun (a, b) => a.mul b)
  let s := sa.mul sb
  if ps.any Ext.isNan || s.isNan then .nan false
  else
    let pos := ps.any (fun x => x.isInf && !x.neg)
    let neg := ps.any (fun x => x.isInf && x.neg)
    let sum := (ps.map Ext.toRat).sum
    if pos && neg then .nan false
    else if (pos || neg) && s.isZero then .nan false
    else if s.isInf && !(pos || neg) && sum == 0 then .nan false
    else if pos || neg then .inf (neg != s.neg)
    else if s.isInf then .inf ((decide (sum < 0)) != s.neg)
    else Ext.ofRat (sum * s.toRat)

/-- One accumulation step: an exact 0 leaves the accumulator (R138, R386). -/
def accumulate (acc : Word) (c : Ext) : Word := if c.isZero then acc else roundFp32 ((fp32 acc).add c)

end Sys2Proof.Machine
end

