-- ==== Sys2Proof/Machine/LaneMove.lean ====
section
/-! DEFINITION. Lane moves, predicates and cross-lane instructions (R284 to R292). -/

namespace Sys2Proof.Machine

/-! ## Moves (R284 to R287) -/

/-- VMOV (R284). -/
def execVmov (h : Hd) (d : BitVec 8) (a : Src) (s : State) : Out := s.laneOp h d [a] 4 fun _ v => v 0

/-- VMOVI (R284). -/
def execVmovi (h : Hd) (d : BitVec 8) (imm : Word) (s : State) : Out := s.laneOp h d [] 4 fun _ _ => imm

/-- The state in which an instruction that serialises issues (R287): every fixed-latency write has taken effect. -/
def State.serialise (s : State) : State := s.setPick (s.pick.advanceTo s.pick.lastDue)

/-- The register code of a register-indirect operand. -/
def regOf (x : Word) : Nat := bits x.toNat 0 8

/-- The source lane of VMOVRX. -/
def laneOf (x : Word) : Nat := bits x.toNat 8 5

/-- Register g, lane j, as a register-indirect read by lane i finds it (R285). -/
def State.indirect (s : State) (g j i : Nat) : Word :=
  if g = 239 then 0 else if g < 239 then s.vLane 6 g j i else s.kLane 6 (g - 240) i

/-- Whether the word that a register-indirect read delivers is poisoned (R430). -/
def State.indirectBad (s : State) (g j : Nat) : Bool :=
  if g < 239 then (s.pick.name g).poison.getLsbD j
  else match s.pick.blocks with
    | b :: _ => decide (240 ≤ g) && b.kPoison.getLsbD (g - 240)
    | [] => false

/-- Whether results wait to be written to the register that code g names. -/
def State.indirectPending (s : State) (g : Nat) : Bool :=
  if g < 239 then !(s.pick.pendingOn (.vreg g)).isEmpty
  else decide (240 ≤ g) && !(s.pick.pendingOn (.kreg (g - 240))).isEmpty

/-- VMOVRX (R285, R287). A pending variable-latency result of the register is checked under scoreboarding as a direct
read's is (R106); a poisoned word traps, but in trap mode reads as 0 (R430). -/
def execVmovrx (h : Hd) (d : BitVec 8) (a : Src) (s0 : State) : Out :=
  s0.serialise.laneGate h.pi h.pn [] [(a, 1)] fun s m val =>
    let sel (i : Nat) : Nat × Nat := (regOf (val 0 0 i), laneOf (val 0 0 i))
    let wait := (lanesOf m).filter (fun i => s.indirectPending (sel i).1)
    let bad := (lanesOf m).filter (fun i => s.indirectBad (sel i).1 (sel i).2)
    let tval (i : Nat) : BitVec 64 := BitVec.ofNat 64 ((sel i).1 + (if (sel i).1 < 239 then (sel i).2 * 256 else 0))
    if s.chk 1 && !wait.isEmpty then s.trapL .stallShort (tval (wait.headD 0)) (BitVec.ofNat 32 (maskOf wait))
    else if !bad.isEmpty && !s.pick.mode then s.trapL .dataPoison (tval (bad.headD 0)) (BitVec.ofNat 32 (maskOf bad))
    else s.laneCommit h.stall m [(a, 1)]
      (writeTo d m (fun i => if bad.contains i then 0 else s.indirect (sel i).1 (sel i).2 i) 8) nextL

/-- VMOVXR (R286, R287). -/
def execVmovxr (h : Hd) (a b : Src) (s0 : State) : Out :=
  s0.serialise.laneGate h.pi h.pn [] [(a, 1), (b, 1)] fun s m val =>
    let ls := (lanesOf m).filter (fun i => decide (regOf (val 0 0 i) < 239))
    let ns := (ls.map (fun i => regOf (val 0 0 i))).dedup
    s.laneCommit h.stall m [(a, 1), (b, 1)]
      (ns.map (fun n =>
        let mm := BitVec.ofNat 32 (maskOf (ls.filter (fun i => regOf (val 0 0 i) == n)))
        { dest := .vreg n, mask := mm, vals := lanesWith mm (val 1 0), lat := some 8 })) nextL

/-! ## Predicates (R288) -/

/-- PSET (R288). -/
def execPset (h : Hd) (p : BitVec 3) (a : Src) (src : BitVec 2) (s : State) : Out :=
  if src.toNat < 2 then s.laneCmp h p [] 2 fun _ _ => src == 1
  else s.laneCmp h p [a] 2 fun _ v => if src = 2 then (v 0).getLsbD 0 else v 0 != 0

/-- A predicate instruction over lane predicates. -/
def State.predOp (s : State) (h : Hd) (p : BitVec 3) (qs : List (BitVec 3)) (f : Nat → (Nat → Bool) → Bool) : Out :=
  s.laneGate h.pi h.pn (qs.map (·.toNat)) [] fun s m _ =>
    s.laneCommit h.stall m []
      (writePred p m (fun i => f i (fun k => s.predLane (10 + k) ((qs[k]?).getD 0).toNat i)) 2) nextL

/-- PAND (R288). -/
def execPand (h : Hd) (p qa : BitVec 3) (na : BitVec 1) (qb : BitVec 3) (nb : BitVec 1) (s : State) : Out :=
  s.predOp h p [qa, qb] fun _ v => (v 0 != (na == 1)) && (v 1 != (nb == 1))

/-- POR (R288). -/
def execPor (h : Hd) (p qa : BitVec 3) (na : BitVec 1) (qb : BitVec 3) (nb : BitVec 1) (s : State) : Out :=
  s.predOp h p [qa, qb] fun _ v => (v 0 != (na == 1)) || (v 1 != (nb == 1))

/-- PXOR (R288). -/
def execPxor (h : Hd) (p qa : BitVec 3) (na : BitVec 1) (qb : BitVec 3) (nb : BitVec 1) (s : State) : Out :=
  s.predOp h p [qa, qb] fun _ v => (v 0 != (na == 1)) != (v 1 != (nb == 1))

/-- PNOT (R288). -/
def execPnot (h : Hd) (p qa : BitVec 3) (s : State) : Out := s.predOp h p [qa] fun _ v => !v 0

/-- PMK (R288). -/
def execPmk (h : Hd) (p : BitVec 3) (a : Src) (s : State) : Out :=
  s.laneCmp h p [a] 2 fun i v => (v 0).getLsbD i

/-! ## Cross-lane (R289 to R292) -/

/-- The value of VOTE from the active lanes and those whose test holds (R290). -/
def voteValue (kind : Nat) (act yes : Word) : Word :=
  match kind with
  | 0 => yes
  | 1 => if yes = 0 then 0 else 1
  | 2 => if yes = act then 1 else 0
  | _ => BitVec.ofNat 32 (lanesOf yes).length

/-- VOTE (R290). -/
def execVote (h : Hd) (d : BitVec 8) (q : BitVec 3) (nq : BitVec 1) (kind : BitVec 2) (s : State) : Out :=
  s.laneGate h.pi h.pn [q.toNat] [] fun s m _ =>
    let yes := BitVec.ofNat 32 (maskOf ((lanesOf m).filter (fun i => s.predLane 10 q.toNat i != (nq == 1))))
    s.laneCommit h.stall m [] (writeTo d m (fun _ => voteValue kind.toNat m yes) 10) nextL

/-- The identity of an operation of R291. -/
def redIdentity (op : Nat) : Word :=
  match op with
  | 1 => 0x7FFFFFFF
  | 2 => 0x80000000
  | 3 => 0xFFFFFFFF
  | 5 => 0xFFFFFFFF
  | 8 => 0x80000000
  | 9 => 0x7F800000
  | 10 => 0xFF800000
  | _ => 0

/-- The canonical FP32 NaN (R130). -/
def nanWord : Word := 0x7FC00000

/-- step of R291. -/
def redStep (op : Nat) (x y : Word) : Word :=
  match op with
  | 0 => x + y
  | 1 => if x.slt y then x else y
  | 2 => if x.slt y then y else x
  | 3 => if x.ult y then x else y
  | 4 => if x.ult y then y else x
  | 5 => x &&& y
  | 6 => x ||| y
  | 7 => x ^^^ y
  | _ =>
    if (fp32 x).isNan || (fp32 y).isNan then nanWord
    else if op = 8 then roundFp32 ((fp32 x).add (fp32 y))
    else if op = 9 then (if (fp32 y).below (fp32 x) then y else x)
    else if (fp32 x).below (fp32 y) then y else x

/-- The running values over lanes in ascending order: lane with the value before and after it (R291). -/
def scanLanes (op : Nat) (a : Nat → Word) : List Nat → Word → List (Nat × Word × Word)
  | [], _ => []
  | i :: is, acc => (i, acc, redStep op acc (a i)) :: scanLanes op a is (redStep op acc (a i))

/-- The value of VREDK (R291). -/
def redLanes (op : Nat) (a : Nat → Word) (is : List Nat) : Word :=
  is.foldl (fun acc i => redStep op acc (a i)) (redIdentity op)

/-- VREDK (R291). -/
def execVredk (h : Hd) (d : BitVec 8) (a : Src) (op : BitVec 4) (s : State) : Out :=
  s.laneGate h.pi h.pn [] [(a, 1)] fun s m val =>
    s.laneCommit h.stall m [(a, 1)] (writeTo d m (fun _ => redLanes op.toNat (val 0 0) (lanesOf m)) 10) nextL

/-- VSCAN (R291). -/
def execVscan (h : Hd) (d : BitVec 8) (a : Src) (op : BitVec 4) (excl : BitVec 1) (s : State) : Out :=
  s.laneGate h.pi h.pn [] [(a, 1)] fun s m val =>
    let rows := scanLanes op.toNat (val 0 0) (lanesOf m) (redIdentity op.toNat)
    let out (i : Nat) : Word :=
      match rows.lookup i with
      | some (x, y) => if excl = 1 then x else y
      | none => 0
    s.laneCommit h.stall m [(a, 1)] (writeTo d m out 10) nextL

/-- The reads of SA by VLANE: those lanes j that some lane of a mask reads, and the lanes that read them (R292). -/
def laneReaders (f : Src) (m : Word) (j : Nat → Nat) (bad : Nat → Bool) : Word :=
  BitVec.ofNat 32 (maskOf ((lanesOf m).filter (fun i => ((permLane f.pat.toNat f.prm.toNat (j i)).map bad).getD false)))

/-- VLANE (R292). The gate checks SB for the lanes that read it and SA for the source lanes that b names; poison of SA that
reaches inactive lanes alone is latent (R430). -/
def execVlane (h : Hd) (d : BitVec 8) (a b : Src) (s : State) : Out :=
  s.laneGate h.pi h.pn [] [(b, 1)] fun s m val =>
    let j (i : Nat) : Nat := bits (val 0 0 i).toNat 0 5
    let code := a.reg.toNat
    let tval (hit : Word) : BitVec 64 :=
      BitVec.ofNat 64 (code + if code < 239 then
        ((permLane a.pat.toNat a.prm.toNat (j ((lanesOf hit).headD 0))).getD 0) * 256 else 0)
    let all : Word := BitVec.allOnes 32
    match (if s.chk 1 then s.scoreSrc a 1 else none) with
    | some (c, _, _) => s.trapL c (tval (laneReaders a all j (fun _ => true))) (laneReaders a all j (fun _ => true))
    | none =>
      let bad (w : Word) : Word := if code < 239 then laneReaders a w j ((s.pick.name code).poison.getLsbD)
        else if s.indirectBad code 0 then w else 0
      let hit := bad m
      if hit ≠ 0 then s.trapL .dataPoison (tval hit) hit
      else (if bad all = 0 then s else s.count s.team.die 0x204 1).laneCommit h.stall m [(a, 1), (b, 1)]
        (writeTo d m (fun i => s.permRead 1 a 0 (j i)) 10) nextL

end Sys2Proof.Machine
end

