-- ==== Sys2Proof/Machine/LaneFloat.lean ====
section
/-! DEFINITION. Lane float arithmetic, special functions and conversions (R302 to R312), and the format that a code
names in a team (R108, R109, R131). -/

namespace Sys2Proof.Machine

/-! ## Formats by code -/

/-- What a format code names in a team. -/
inductive FmtGet where
  | fmt (f : Fmt)
  /-- The slot is being bound: issues that name it stall (R499). -/
  | wait
  /-- No reference to a bound draft: SLOT_UNBOUND (R109). -/
  | unbound
  /-- BPN-S or BPN-U, which has no width of its own. -/
  | bpn (signed : Bool)

/-- The format of a code for a team (R108, R109). -/
def State.fmtGet (s : State) (t : Team) (code : Nat) : FmtGet :=
  match code with
  | 8 => .fmt f32
  | 9 => .fmt bf16
  | 10 => .fmt f16
  | 11 => .fmt (fixedInt 8)
  | 12 => .fmt (fixedInt 32)
  | 13 => .bpn true
  | 14 => .bpn false
  | 15 => .fmt (fixedInt 16)
  | n =>
    let x := s.slotAt t.die t.loom n
    if x.loading.isSome then .wait
    else if !t.refs.getLsbD n then .unbound
    else match x.bound with
      | some d => .fmt (draftFmt d.word.toNat d.table)
      | none => .unbound

/-! ## Rounding (R302, R303) -/

/-- The lane FMTR of lane i (R62). -/
def State.laneFmtr (s : State) (i : Nat) : Nat := (s.pick.ls.strand (i / 4)).fmtr.toNat

/-- The rounding mode of lane i (R302). -/
def State.rmOf (s : State) (rm : BitVec 4) (i : Nat) : Nat :=
  if rm = 0 then bits (s.laneFmtr i) 16 3 else rm.toNat - 1

/-- The draw of lane i (R134). -/
def State.drawOf (s : State) (i : Nat) : Nat := drawBits s.pick.seed i

/-- SEED advances when an active lane rounds stochastically (R134). -/
def seedAfter (m : Word) (mode : Nat → Nat) (s : State) : State :=
  if (lanesOf m).any (fun i => mode i == 5) then s.setPick { s.pick with seed := seedStep s.pick.seed } else s

/-- A float operation whose exact result is rounded by R302 (R304, R305). -/
def State.floatOp (s : State) (h : Hd) (d : BitVec 8) (srcs : List Src) (rm : BitVec 4)
    (f : (Nat → Word) → Ext) : Out :=
  let xs := srcs.map (fun x => (x, 1))
  s.laneGate h.pi h.pn [] xs fun s m val =>
    s.laneCommit h.stall m xs
      (writeTo d m (fun i => fpEnc (f (fun slot => val slot 0 i)) (s.rmOf rm i) (s.drawOf i)) 6) nextL
      (seedAfter m (s.rmOf rm))

/-- VFADD (R305). -/
def execVfadd (h : Hd) (d : BitVec 8) (a b : Src) (rm : BitVec 4) (s : State) : Out :=
  s.floatOp h d [a, b] rm fun v => (fp32 (v 0)).add (fp32 (v 1))

/-- VFSUB (R305). -/
def execVfsub (h : Hd) (d : BitVec 8) (a b : Src) (rm : BitVec 4) (s : State) : Out :=
  s.floatOp h d [a, b] rm fun v => (fp32 (v 0)).add (fp32 (v 1)).negate

/-- VFMUL (R305). -/
def execVfmul (h : Hd) (d : BitVec 8) (a b : Src) (rm : BitVec 4) (s : State) : Out :=
  s.floatOp h d [a, b] rm fun v => (fp32 (v 0)).mul (fp32 (v 1))

/-- VFMA (R305). -/
def execVfma (h : Hd) (d : BitVec 8) (a b c : Src) (rm : BitVec 4) (s : State) : Out :=
  s.floatOp h d [a, b, c] rm fun v => ((fp32 (v 0)).mul (fp32 (v 1))).add (fp32 (v 2))

/-- VFMIN of two words, or VFMAX (R306). -/
def fpick (max_ : Bool) (a b : Word) : Word :=
  let x := fp32 a
  let y := fp32 b
  if x.isNan && y.isNan then nanWord
  else if x.isNan then b
  else if y.isNan then a
  else if max_ then (if x.below y then b else a)
  else if y.below x then b else a

/-- VFMIN (R306). -/
def execVfmin (h : Hd) (d : BitVec 8) (a b : Src) (s : State) : Out :=
  s.laneOp h d [a, b] 6 fun _ v => fpick false (v 0) (v 1)

/-- VFMAX (R306). -/
def execVfmax (h : Hd) (d : BitVec 8) (a b : Src) (s : State) : Out :=
  s.laneOp h d [a, b] 6 fun _ v => fpick true (v 0) (v 1)

/-- The conditions of R307. -/
def fcond (c : Nat) (a b : Word) : Bool :=
  let x := fp32 a
  let y := fp32 b
  let un := x.isNan || y.isNan
  let eq := (x.isZero && y.isZero) || x == y
  let lt := !(x.isZero && y.isZero) && x.below y
  match c with
  | 0 => !un && eq
  | 1 => un || !eq
  | 2 => !un && lt
  | 3 => !un && (lt || eq)
  | 4 => !un && !(lt || eq)
  | 5 => !un && !lt
  | 6 => un
  | _ => !un

/-- VFCMP (R307). -/
def execVfcmp (h : Hd) (p : BitVec 3) (a b : Src) (cc : BitVec 3) (s : State) : Out :=
  s.laneCmp h p [a, b] 6 fun _ v => fcond cc.toNat (v 0) (v 1)

/-- The class mask of R308. -/
def fclass (a : Word) : Word :=
  let sub := decide (bits a.toNat 23 8 = 0)
  let k := match fp32 a with
    | .nan _ => 8
    | .inf s => if s then 0 else 7
    | .zero s => if s then 3 else 4
    | .real q => if q < 0 then (if sub then 2 else 1) else if sub then 5 else 6
  1 <<< k

/-- VFCLASS (R308). -/
def execVfclass (h : Hd) (d : BitVec 8) (a : Src) (s : State) : Out := s.laneOp h d [a] 6 fun _ v => fclass (v 0)

/-- VRCP (R142, R309). -/
def execVrcp (h : Hd) (d : BitVec 8) (a : Src) (s : State) : Out := s.laneOp h d [a] 14 fun _ v => special rcpExt (v 0)

/-- VRSQ (R142, R309). -/
def execVrsq (h : Hd) (d : BitVec 8) (a : Src) (s : State) : Out := s.laneOp h d [a] 14 fun _ v => special rsqExt (v 0)

/-- VSQRT (R142, R309). -/
def execVsqrt (h : Hd) (d : BitVec 8) (a : Src) (s : State) : Out := s.laneOp h d [a] 14 fun _ v => special sqrtExt (v 0)

/-- VEXP2 (R142, R309). -/
def execVexp2 (h : Hd) (d : BitVec 8) (a : Src) (s : State) : Out := s.laneOp h d [a] 14 fun _ v => special exp2Ext (v 0)

/-- VLOG2 (R142, R309). -/
def execVlog2 (h : Hd) (d : BitVec 8) (a : Src) (s : State) : Out := s.laneOp h d [a] 14 fun _ v => special log2Ext (v 0)

/-! ## Conversions (R310 to R312) -/

/-- A format code in the instruction, or the field of the lane FMTR at bit lo (R310). -/
def State.cvtCode (s : State) (fromFmtr : BitVec 1) (code : BitVec 4) (lo i : Nat) : Nat :=
  if fromFmtr = 1 then bits (s.laneFmtr i) lo 4 else code.toNat

/-- The codes that a conversion names on one side with the lanes each serves: an explicit one even with no lane
active. -/
def cvtUses (fromFmtr : BitVec 1) (m : Word) (code : Nat → Nat) : List (Nat × Word) :=
  if fromFmtr = 1 then
    (((lanesOf m).map code).eraseDups).map (fun c =>
      (c, BitVec.ofNat 32 (maskOf ((lanesOf m).filter (fun i => code i == c)))))
  else [(code 0, m)]

/-- The formats that an instruction uses are at hand: else it stalls or traps (R109, R310, R499). Of several codes that fail, which
gives the cause no rule says: the model takes the first, the source's before the target's, of the lowest lane first, and TMASK
holds the lanes of that code (log 60). -/
def State.withFormats (s : State) (uses : List (Nat × Word)) (k : Unit → Out) : Out :=
  let got : List (Nat × Word × FmtGet) := uses.map (fun (c, m) => (c, m, s.fmtGet s.team c))
  if got.any (fun e => match e.2.2 with | .wait => true | _ => false) then .next s
  else
    match got.find? (fun e => match e.2.2 with | .bpn _ => true | .unbound => true | _ => false) with
    | some (_, m, .bpn _) => s.trapL .illOperand s.opc m
    | some (c, m, _) => s.trapL .slotUnbound (BitVec.ofNat 64 c) m
    | none => k ()

/-- A format at hand. -/
def State.fmtOf (s : State) (code : Nat) : Fmt :=
  match s.fmtGet s.team code with
  | .fmt f => f
  | _ => f32

/-- The lane value of a code (R312). -/
def codeWord (f : Fmt) (c : Nat) : Word :=
  match f with
  | .int w true _ _ _ => wordOf (sextN c w)
  | _ => BitVec.ofNat 32 c

/-- A conversion (R310 to R312): f forms the exact value from the decoded source and the scale. -/
def State.convert (s : State) (h : Hd) (d : BitVec 8) (srcs : List Src) (dt ds : BitVec 1) (rm ft fs : BitVec 4)
    (f : Ext → Ext → Ext) : Out :=
  let xs := srcs.map (fun x => (x, 1))
  s.laneGate h.pi h.pn [] xs fun s m val =>
    let sc := s.cvtCode ds fs 0
    let tc := s.cvtCode dt ft 12
    s.withFormats (cvtUses ds m sc ++ cvtUses dt m tc) fun _ =>
      let one (i : Nat) : Word :=
        let t := s.fmtOf (tc i)
        let x := f ((s.fmtOf (sc i)).decode (val 0 0 i).toNat) (fp32 (val 1 0 i))
        codeWord t (t.encode x (s.rmOf rm i) (bit (s.laneFmtr i) 19) (s.drawOf i))
      s.laneCommit h.stall m xs (writeTo d m one 8) nextL (seedAfter m (s.rmOf rm))

/-- VCVT (R311). -/
def execVcvt (h : Hd) (d : BitVec 8) (a : Src) (dt ds : BitVec 1) (rm ft fs : BitVec 4) (s : State) : Out :=
  s.convert h d [a] dt ds rm ft fs fun v _ => v

/-- VQNT (R311). -/
def execVqnt (h : Hd) (d : BitVec 8) (a b : Src) (dt ds : BitVec 1) (rm ft fs : BitVec 4) (s : State) : Out :=
  s.convert h d [a, b] dt ds rm ft fs Ext.div

/-- VDQT (R311). -/
def execVdqt (h : Hd) (d : BitVec 8) (a b : Src) (dt ds : BitVec 1) (rm ft fs : BitVec 4) (s : State) : Out :=
  s.convert h d [a, b] dt ds rm ft fs Ext.mul

end Sys2Proof.Machine
end

