-- ==== Sys2Proof/Machine/Buffers.lean ====
section
/-! DEFINITION. Buffer records, element placement and the conversion stage (R157 to R162). -/

namespace Sys2Proof.Machine

/-! ## Fields of a buffer record, as the number of its 320 bits (R157) -/

/-- BASE. -/
def bBase (x : Nat) : Nat := bits x 0 56
/-- EXTENT. -/
def bExtent (x : Nat) : Nat := bits x 56 40
/-- ENC. -/
def bEnc (x : Nat) : Nat := bits x 96 6
/-- EW. -/
def bEw (x : Nat) : Nat := bits x 102 4
/-- ILV. -/
def bIlv (x : Nat) : Nat := bits x 106 4
/-- SMODE. -/
def bSmode (x : Nat) : Nat := bits x 110 4
/-- SBL. -/
def bSbl (x : Nat) : Nat := bits x 114 4
/-- SFMT. -/
def bSfmt (x : Nat) : Nat := bits x 118 4
/-- TFMT. -/
def bTfmt (x : Nat) : Nat := bits x 122 4
/-- ORP. -/
def bOrp (x : Nat) : Nat := bits x 126 2
/-- SBASE. -/
def bSbase (x : Nat) : Nat := bits x 128 56
/-- OBASE. -/
def bObase (x : Nat) : Nat := bits x 184 56
/-- PITCH. -/
def bPitch (x : Nat) : Nat := bits x 240 16
/-- NPL. -/
def bNpl (x : Nat) : Nat := bits x 256 4
/-- RPL. -/
def bRpl (x : Nat) : Nat := bits x 260 4
/-- EFMT. -/
def bEfmt (x : Nat) : Nat := bits x 264 4
/-- SXT. -/
def bSxt (x : Nat) : Bool := bit x 268
/-- SCR. -/
def bScr (x : Nat) : Bool := bit x 269
/-- WRO. -/
def bWro (x : Nat) : Bool := bit x 270
/-- STRIDE, 0 meaning 1. -/
def bStride (x : Nat) : Nat := max 1 (bits x 272 32)

/-- The element width in bits by EW. -/
def bWidth (x : Nat) : Nat :=
  match bEw x with
  | 0 => 2 | 1 => 4 | 2 => 6 | 3 => 8 | 4 => 12 | 5 => 16 | 6 => 24 | _ => 32

/-! ## The checks of R158 -/

/-- How the checks of a record end. -/
inductive RecBad where
  /-- ILL_OPERAND with the condition number. -/
  | operand (n : Nat)
  /-- SLOT_UNBOUND with the code. -/
  | slot (code : Nat)
  /-- A slot it names is being bound: the issue stalls. -/
  | wait
  /-- PERM: a store refused. -/
  | perm
deriving DecidableEq, Repr

/-- Condition 2: a RES field nonzero or a reserved code. -/
def recReserved (x : Nat) : Bool :=
  decide (5 ≤ bEnc x ∨ 8 ≤ bEw x ∨ 5 ≤ bIlv x ∨ 3 ≤ bSmode x ∨ bOrp x = 3 ∨ 9 ≤ bNpl x ∨ 9 ≤ bRpl x) ||
  bit x 271 || bits x 304 16 != 0

/-- Whether a scale format is allowed (R135). -/
def State.scaleFmt (s : State) (t : Team) (code : Nat) : Bool :=
  match code with
  | 8 => true
  | 9 => true
  | 10 => true
  | n => decide (n < 8) && (match s.fmtGet t n with | .fmt f => f.isMf || f.isScale | _ => false)

/-- The width of the element format of a record. -/
def State.efmtWidth (s : State) (t : Team) (x : Nat) : Nat :=
  match s.fmtGet t (bEfmt x) with
  | .fmt f => f.width
  | _ => 0

/-- Conditions 3 to 12, in list order. -/
def State.recConditions (s : State) (t : Team) (x : Nat) : List (Nat × Bool) :=
  let enc := bEnc x
  let ilv := bIlv x
  [ (3, bBase x % 4 != 0),
    (4, enc == 0 && (bEw x != 7 || bEfmt x != 0 || bTfmt x != 0 || bSmode x != 0 || bSbl x != 0 || bSfmt x != 0 ||
      bSbase x != 0 || bObase x != 0)),
    (5, enc == 1 && (bEw x == 7 || bEfmt x != 0 || bTfmt x != 0)),
    (6, enc == 2 && ((bEfmt x != 13 && bEfmt x != 14) || ilv != 1 || bPitch x != 0 || bEw x != 0 || bNpl x == 0)),
    (7, ilv == 1 && enc != 2),
    (8, (enc == 3 || enc == 4) && (bEfmt x == 13 || bEfmt x == 14 || decide (bWidth x < s.efmtWidth t x))),
    (9, enc == 4 && ((decide (bSmode x < 2) && bSbl x != 4 && bSbl x != 5) || !s.scaleFmt t (bSfmt x))),
    (10, decide (enc < 4) && (bSmode x != 0 || bSbl x != 0 || bSfmt x != 0 || bSbase x != 0 || bObase x != 0)),
    (11, (decide (2 ≤ ilv) && decide (1 < bStride x)) || (ilv == 3 && bPitch x != 0) ||
      (ilv == 4 && (!bScr x || bPitch x != 16 || bEw x != 7 || bBase x % 1024 != 0))),
    (12, bTfmt x == 13 || bTfmt x == 14) ]

/-- The slot codes that a record's ENC uses. -/
def recSlots (x : Nat) : List Nat :=
  ((if 2 ≤ bEnc x then [bTfmt x] else []) ++ (if 3 ≤ bEnc x then [bEfmt x] else []) ++
    (if bEnc x = 4 then [bSfmt x] else [])).filter (· < 8)

/-- The checks of a record used for loads, or for stores (R158). The index check comes before the record is read. -/
def State.recBad (s : State) (t : Team) (x : Nat) (store : Bool) : Option RecBad :=
  if recReserved x then some (.operand 2)
  else
    match (recSlots x).findSome? (fun c => match s.fmtGet t c with
      | .wait => some RecBad.wait
      | .fmt _ => none
      | _ => some (RecBad.slot c)) with
    | some b => some b
    | none =>
      match (s.recConditions t x).find? (·.2) with
      | some (n, _) => some (.operand n)
      | none => if store && (bEnc x == 4 || bWro x) then some .perm else none

/-! ## Element placement (R159, R160) -/

/-- morton of R159. -/
def morton (row col : Nat) : Nat :=
  (List.range 16).foldl (fun a k => a + (if bit col k then 2 ^ (2 * k) else 0) + (if bit row k then 2 ^ (2 * k + 1) else 0)) 0

/-- Where an element lies: at a bit offset from BASE, or as bit e of the planes of a BPN block. -/
inductive Place where
  | lin (off : Nat)
  | planes (q : Nat)
deriving DecidableEq, Repr

/-- The element of index i (R159). -/
def recPlace (x i : Nat) : Place :=
  let two := decide (2 ≤ bIlv x) || bPitch x != 0
  let row := if two then bits i 16 16 else 0
  let col := if two then bits i 0 16 else i
  let w := bWidth x
  match bIlv x with
  | 0 => .lin (row * bPitch x * 512 + col * bStride x * w)
  | 1 => .planes (col * bStride x)
  | 2 => .lin (row / 16 * bPitch x * 8192 + col / 16 * 256 * w + (row % 16 * 16 + col % 16) * w)
  | 3 => .lin (morton row col * w)
  | _ => .lin (row * 8192 + 32 * ((col + row) % 256))

/-- Whether an element is in range (R159). -/
def recInRange (x : Nat) : Place → Bool
  | .lin off => decide (off + bWidth x ≤ 8 * bExtent x)
  | .planes q => decide (32 * bNpl x * (q / 256 + 1) ≤ bExtent x)

/-- The element that a clamped read names (R160): the highest position wholly in range. -/
def recClamp (x : Nat) : Option Place :=
  if bIlv x = 1 then
    let n := bExtent x / (32 * bNpl x)
    if n = 0 then none else some (.planes (256 * n - 1))
  else
    let n := 8 * bExtent x / bWidth x
    if n = 0 then none else some (.lin ((n - 1) * bWidth x))

/-- The element that a load of an index reads, if any (R159, R160). -/
def recAt (x i : Nat) : Option Place :=
  let p := recPlace x i
  if recInRange x p || bOrp x == 0 then some p else if bOrp x = 1 then recClamp x else none

/-- A run of bytes: in global memory or scratch, from an address. -/
structure Piece where
  global : Bool
  addr : Nat
  len : Nat
deriving DecidableEq, Repr

/-- The byte that holds the first bit of an element. -/
def recAddr (x : Nat) : Place → Nat
  | .lin off => bBase x + off / 8
  | .planes q => bBase x + 32 * bNpl x * (q / 256) + q % 256 / 8

/-- The bytes of an element. -/
def recPieces (x : Nat) (p : Place) : List Piece :=
  match p with
  | .lin off => [⟨!bScr x, recAddr x p, (off % 8 + bWidth x + 7) / 8⟩]
  | .planes _ => (List.range (bNpl x)).map (fun k => ⟨!bScr x, recAddr x p + 32 * k, 1⟩)

/-- The storage position of an element (R162). -/
def recPos (x : Nat) : Place → Nat
  | .lin off => off / bWidth x
  | .planes q => q

/-- The bytes of one scale of a format (R162). -/
def scaleBytes (f : Fmt) : Nat := if f.width ≤ 8 then 1 else if f.width ≤ 16 then 2 else 4

/-- The scale of an element with ENC 4, and its side-list entry (R162): in global memory. -/
def recExtra (x : Nat) (sf : Fmt) (p : Place) : List Piece :=
  if bEnc x ≠ 4 then []
  else
    let q := recPos x p
    let a := if bSmode x = 2 then bSbase x else bSbase x + scaleBytes sf * (q / 2 ^ bSbl x)
    ⟨true, a, scaleBytes sf⟩ :: (if bSmode x = 1 then [⟨true, bObase x + 8 * (q / 32), 8⟩] else [])

/-! ## The conversion stage (R161, R162) -/

/-- The stored bits of an element from the numbers of its pieces. -/
def recBits (x : Nat) (p : Place) (vs : List Nat) : Nat :=
  match p with
  | .lin off => bits (vs.headD 0) (off % 8) (bWidth x)
  | .planes q => (vs.zipIdx).foldl (fun a (v, k) => a + if bit v (q % 8) then 2 ^ (bNpl x - 1 - k) else 0) 0

/-- What a NaN that no encoding settles becomes: the canonical NaN of the format, or the element nearest 0 (R162). -/
def Fmt.nanOrZero (f : Fmt) : Nat :=
  match f with
  | .mf _ _ _ spec _ _ _ _ => if spec = 2 then f.zeroCode else f.encode (.nan false) 0 false 0
  | .int _ _ _ _ _ => f.zeroCode
  | .set _ _ nan _ _ => nan.getD f.zeroCode

/-- The exact value of an element of ENC 2 to 4 from its bits c, the scale's bits and the side-list entry; none where
the side list is malformed (R161, R162). planes and ctr stand for FMTR. -/
def recExact (x : Nat) (ef sf : Fmt) (p : Place) (c : Nat) (extra : List Nat) (planes : Nat) (ctr : Bool) : Option Ext :=
  match bEnc x with
  | 2 => some (bpnRead (bNpl x) planes (bEfmt x == 13) ctr c)
  | 3 => some (ef.decode (bits c 0 ef.width))
  | _ =>
    let v := (ef.decode (bits c 0 ef.width)).scaled (sf.decode (bits (extra.headD 0) 0 sf.width))
    if bSmode x ≠ 1 then some v
    else
      let e := (extra[1]?).getD 0
      let cnt := bits e 48 2
      let entries := ([(bits e 0 8, bits e 16 16), (bits e 8 8, bits e 32 16)] : List (Nat × Nat)).take cnt
      if cnt = 3 ∨ entries.any (fun k => decide (32 ≤ k.1)) then none
      else some ((entries.filter (fun k => k.1 == recPos x p % 32)).foldl (fun a k => a.add (bf16.decode k.2)) v)

/-- The planes that a load through a record reads: RPL, or PA + 1 of the FMTR (R161). -/
def recPlanes (x fmtr : Nat) : Nat := if bRpl x = 0 then bits fmtr 20 3 + 1 else bRpl x

/-- The lane value of a load (R161). -/
def recLoad (x : Nat) (tf ef sf : Fmt) (p : Place) (vs extra : List Nat) (fmtr u : Nat) : Word :=
  let c := recBits x p vs
  match bEnc x with
  | 0 => BitVec.ofNat 32 c
  | 1 => if bSxt x then wordOf (sextN c (bWidth x)) else BitVec.ofNat 32 c
  | _ => codeWord tf (match recExact x ef sf p c extra (recPlanes x fmtr) (bit fmtr 26) with
    | some v => tf.encode v (bits fmtr 16 3) (bit fmtr 19) u
    | none => tf.nanOrZero)

/-- +0 of the target format: what an out-of-range lane reads (R160). -/
def recZero (x : Nat) (tf : Fmt) : Word := if bEnc x < 2 then 0 else codeWord tf (tf.encode (.zero false) 0 false 0)

/-- The element bits of a store (R161). -/
def recStore (x : Nat) (tf ef : Fmt) (v : Word) : Nat :=
  match bEnc x with
  | 0 => v.toNat
  | 1 => bits v.toNat 0 (bWidth x)
  | 2 => (bpnFmt (bNpl x) (bEfmt x == 13)).encode (tf.decode v.toNat) 0 false 0
  | _ => ef.encode (tf.decode v.toNat) 0 false 0

/-- The formats of a record's codes. -/
def State.recFmts (s : State) (t : Team) (x : Nat) : Fmt × Fmt × Fmt :=
  let get (c : Nat) : Fmt := match s.fmtGet t c with | .fmt f => f | _ => f32
  (get (bTfmt x), get (bEfmt x), get (bSfmt x))

/-- One byte to write: where, the bits written, their values. -/
structure Poke where
  global : Bool
  addr : Nat
  mask : Byte
  val : Byte
deriving DecidableEq, Repr

/-- The bits that a store of an element's bits c changes (R154, R161). -/
def recPokes (x : Nat) (p : Place) (c : Nat) : List Poke :=
  match p with
  | .lin off =>
    let m := (2 ^ bWidth x - 1) * 2 ^ (off % 8)
    let v := c % 2 ^ bWidth x * 2 ^ (off % 8)
    (List.range ((off % 8 + bWidth x + 7) / 8)).map (fun k =>
      ⟨!bScr x, recAddr x p + k, BitVec.ofNat 8 (bits m (8 * k) 8), BitVec.ofNat 8 (bits v (8 * k) 8)⟩)
  | .planes q => (List.range (bNpl x)).map (fun k =>
      ⟨!bScr x, recAddr x p + 32 * k, 1#8 <<< (q % 8), (if bit c (bNpl x - 1 - k) then 1#8 else 0#8) <<< (q % 8)⟩)

/-- The resolved byte of a write to global memory, with the bits and values it takes. -/
def State.pokePa (s : State) (k : Poke) : Option (Nat × Byte × Byte) :=
  match s.resolve s.ctx rightW k.addr 1 with
  | .ok (pa :: _, _) => some (pa, k.mask, k.val)
  | _ => none

/-- The words of memory and of a team's scratch that bytes written at one go take. -/
def State.pokeUnits (s : State) (t : Nat) (ks : List Poke) : List (List Bits) :=
  memUnits ((ks.filter (·.global)).filterMap s.pokePa) ++
    scrUnits t ((ks.filter (fun k => !k.global)).map (fun k => (k.addr, k.mask, k.val)))

end Sys2Proof.Machine
end

