-- ==== Sys2Proof/Machine/EngineBase.lean ====
section
/-! DEFINITION. What every engine operation shares: reading and writing by an engine agent, plans of writes, execution
checks and the order of failures (R330 to R336). -/

namespace Sys2Proof.Machine

/-- How an operation ends without its effect. -/
inductive EFail where
  /-- A cause at a step of R333. -/
  | fail (step : Nat) (c : Cause)
  /-- A replayable translation fault (R336): stage 2, level, address, VA, ACC. -/
  | xlate (stage2 : Bool) (lvl addr va acc : Nat)
  /-- A lost die would be touched (R487). -/
  | lost (die : Nat)
  /-- The die of this address refuses: PERM at step 0, and a record of KIND 7 (R473). -/
  | foreign (pa : Nat)
deriving DecidableEq, Repr

/-- One write of an engine: the bits of an element or word, by byte, or a tile word. -/
inductive EWrite where
  | elem (ks : List Poke)
  | tile (w : Nat) (v : Word)
deriving DecidableEq, Repr

/-- The bytes of a write that is no tile word. -/
def EWrite.pokes : EWrite → List Poke
  | .elem ks => ks
  | .tile _ _ => []

/-- The failure of a data access: on a write or on a read. -/
abbrev EErr := Bool × AccErr

/-- What an operation does: its writes, the first failure of its data accesses, its reply, what the counters take. -/
structure Plan where
  writes : List EWrite := []
  bad : Option EErr := none
  reply : Nat := 0
  counts : List (Nat × Nat) := []
  /-- On failure the writes are what the operation leaves; else each word holds its prior value or the written one. -/
  settled : Bool := false
  /-- The bytes read (R451). -/
  read : Nat := 0

/-- The failure as the end of the operation (R336). -/
def EErr.toFail (e : EErr) : EFail :=
  match e.2 with
  | .high _ => .fail 0 .xlate
  | .refused _ none => .fail 0 .perm
  | .refused _ (some pa) => .foreign pa
  | .poisoned _ => .fail 0 .dataPoison
  | .lost d _ => .lost d
  | .xlate st lvl a va => .xlate st lvl a va (if e.1 then 5 else 4)

/-- The agent of an operation (R171): what its COP's pick knew happens before it (R179). -/
def State.opAgent (s : State) (o : Op) : Agent :=
  let (loose, looseSince) := s.looseOf (s.teamAt (o.pick / 64))
  { cls := o.path, pick := o.pick, path := o.path, batch := o.batch, seq := o.xseq, knows := o.ids, loose, looseSince
    caps := o.caps }

/-- The formats of an operation as they were when it issued (R378, R499): the loom's slots hold what was bound then. -/
def State.asIssued (s : State) (o : Op) : State :=
  let t := o.pick / 64
  let m := s.teamAt t
  (o.binds.foldl (fun s e => s.setSlotAt m.die m.loom e.1 { bound := some e.2 }) s).setTeamAt t
    { m with refs := BitVec.ofNat 8 (maskOf (o.binds.map (·.1))) }

/-- Field of the descriptor copy. -/
def Op.f (o : Op) (lo n : Nat) : Nat := bits o.desc lo n

/-- A check that fails at a step. -/
def need (ok : Bool) (step : Nat) (c : Cause) : Except EFail Unit := if ok then .ok () else .error (.fail step c)

/-- Some format codes are bound for the team (step 1 of R333). -/
def State.boundAll (s : State) (codes : List Nat) : Except EFail Unit :=
  need (codes.all (fun c => match s.fmtGet s.team c with | .unbound => false | .wait => false | _ => true)) 1 .slotUnbound

/-- The format of a code, which is bound and no BPN. -/
def State.fmtD (s : State) (c : Nat) : Fmt := match s.fmtGet s.team c with | .fmt f => f | _ => f32

/-- Whether a code is BPN. -/
def isBpn (c : Nat) : Bool := c == 13 || c == 14

/-! ## Reading -/

/-- The number of the bytes of a piece as the operation reads it. -/
def State.engPiece (s : State) (g : Agent) (p : Piece) : Except EErr Nat :=
  if p.global then
    match s.resolve s.ctx rightR p.addr p.len with
    | .error e => .error (false, e)
    | .ok (pas, _) => if s.poisoned pas then .error (false, .poisoned p.addr) else .ok (s.readPas g pas)
  else if s.team.scratchBad p.addr p.len then .error (false, .poisoned p.addr)
  else .ok (s.readScr g s.pick.team p.addr p.len)

/-- Several pieces. -/
def State.engPieces (s : State) (g : Agent) : List Piece → Except EErr (List Nat)
  | [] => .ok []
  | p :: ps =>
    match s.engPiece g p with
    | .error e => .error e
    | .ok v =>
      match s.engPieces g ps with
      | .error e => .error e
      | .ok vs => .ok (v :: vs)

/-- Bits [b + w − 1 : b] counted from a scratch byte. -/
def State.engBits (s : State) (g : Agent) (base b w : Nat) : Except EErr Nat :=
  match s.engPiece g ⟨false, base + b / 8, (b % 8 + w + 7) / 8⟩ with
  | .error e => .error e
  | .ok v => .ok (bits v (b % 8) w)

/-- A tile word as the operation reads it. -/
def State.engTile (s : State) (g : Agent) (w : Nat) : Except EErr Word :=
  if s.team.tilePoison.contains w then .error (false, .poisoned w)
  else .ok (s.readTile g s.pick.team w)

/-! ## Writing -/

/-- The write of w bits c at bit offset b from a byte address. -/
def bitPokes (global : Bool) (base b w c : Nat) : EWrite :=
  let m := (2 ^ w - 1) * 2 ^ (b % 8)
  let v := c % 2 ^ w * 2 ^ (b % 8)
  .elem ((List.range ((b % 8 + w + 7) / 8)).map (fun k =>
    ⟨global, base + b / 8 + k, BitVec.ofNat 8 (bits m (8 * k) 8), BitVec.ofNat 8 (bits v (8 * k) 8)⟩))

/-- The bytes of a number written whole. -/
def bytePokes (global : Bool) (base n v : Nat) : EWrite :=
  .elem (((leBytes n v).zipIdx).map (fun (x, k) => ⟨global, base + k, 0xFF, x⟩))

/-- The first failure that global writes meet in translation. -/
def State.writeErr (s : State) (right : Nat) (ws : List EWrite) : Option EErr :=
  (ws.flatMap EWrite.pokes).findSome? (fun k =>
    if k.global then (match s.resolve s.ctx right k.addr 1 with
      | .ok _ => none
      | .error e => some (true, e)) else none)

/-- Whether a failure is a replayable translation fault. -/
def EErr.replays (e : EErr) : Bool := match e.2 with | .xlate _ _ _ _ => true | _ => false

/-- The plan of independent elements: what each writes, or how its data failed; the writes ask for a right. A replayable
fault goes first. -/
def State.planOf (s : State) (els : List (Except EErr (List EWrite))) (reply : List EWrite → Nat)
    (counts : List (Nat × Nat)) (right : Nat := rightW) : Plan :=
  let good (e : Except EErr (List EWrite)) : Except EErr (List EWrite) :=
    match e with
    | .ok ws => (match s.writeErr right ws with | some x => .error x | none => .ok ws)
    | .error x => .error x
  let els1 := els.map good
  let errs := els1.filterMap (fun e => match e with | .error x => some x | .ok _ => none)
  let ws := (els1.filterMap (fun e => match e with | .ok w => some w | .error _ => none)).flatten
  { writes := ws, bad := errs.find? EErr.replays <|> errs.head?, reply := reply ws, counts }

/-- The number of different entries. -/
def countDistinct (l : List Nat) : Nat :=
  match l.insertionSort (fun a b => a ≤ b) with
  | [] => 0
  | x :: xs => (xs.foldl (fun (n, last) y => if y = last then (n, y) else (n + 1, y)) (1, x)).1

/-- The bytes that hold written bits, each counted once, at most 2^32 − 1. -/
def bytesWritten (ws : List EWrite) : Nat :=
  min (2 ^ 32 - 1) (countDistinct ((ws.flatMap EWrite.pokes).map (fun k => 2 * k.addr + if k.global then 1 else 0)))

/-- The touched dies of the writes (R485). -/
def State.touchWrites (s : State) (ws : List EWrite) : State :=
  s.touchDies s.team.ctx ((ws.flatMap EWrite.pokes).foldl (fun t k =>
    if k.global then (match s.resolve s.ctx rightW k.addr 1 with | .ok (_, m) => t ||| m | .error _ => t) else t) 0)

/-- The words that writes take, each at one go (R174). -/
def State.writeUnits (s : State) (ws : List EWrite) : List (List Bits) :=
  let t := s.pick.team
  s.pokeUnits t (ws.flatMap EWrite.pokes) ++ ws.filterMap (fun w => match w with
    | .tile a v => some [(tileLoc t a, BitVec.allOnes 32, v)]
    | .elem _ => none)

/-- The value that a pending lane load takes where it reads its words now, and the writes that it finds. -/
def State.lateValue (s : State) (x : LateLoad) : Word × List Nat :=
  let (loose, looseSince) := s.looseOf s.team
  let g : Agent := { cls := 0, pick := s.cur, path := 0, lane := x.lane, loose, looseSince }
  let num (cs : List (Nat × Nat)) : Nat := ofLe (s.look g false cs).1
  let vs := x.cells.map num
  let v : Word := match x.via with
    | none => BitVec.ofNat 32 (vs.headD 0 / 2 ^ (32 * x.part))
    | some (r, i, fmtr, u) =>
      let (tf, ef, sf) := s.recFmts s.team r
      match recAt r i with
      | some p => recLoad r tf ef sf p vs (x.extra.map num) fmtr u
      | none => recZero r tf
  (v, (x.cells ++ x.extra).flatMap (fun cs => (s.look g false cs).2))

/-- An engine of the pick has written words: a lane's load of them that is still pending may find the new values, by free
choice (R181). -/
def State.lateReads (s : State) (locs : List Nat) : State :=
  let hit (q : Pending) (x : LateLoad) : Bool := q.mask.getLsbD x.lane &&
    (x.cells ++ x.extra).any (fun cs => cs.any (fun c => locs.contains c.1)) && s.free 39 (Nat.pair q.seq x.lane)
  let hits := s.pick.pending.flatMap (fun q => q.late.filter (hit q))
  if hits.isEmpty then s
  else
    let again (q : Pending) : Pending :=
      { q with vals := (q.late.filter (hit q)).foldl (fun v x => tput 0 v x.lane (s.lateValue x).1) q.vals }
    let s1 := s.setPick { s.pick with pending := s.pick.pending.map again }
    hits.foldl (fun s' x => s'.mark (64 * s.cur + x.lane) (s.lateValue x).2) s1

/-- Writes made, each word at one go (R174). -/
def State.putWrites (s : State) (g : Agent) (ws : List EWrite) : State :=
  let us := s.writeUnits ws
  let pages := s.pagesAt s.ctx (((ws.flatMap EWrite.pokes).filter (·.global)).map (·.addr))
  ((s.touchWrites ws).putUnits { g with pages } [] us).lateReads (us.flatMap (fun u => u.map (·.1)))

/-- What tells a write of an operation from its others: its first byte and bits there. -/
def EWrite.mark : EWrite → Nat
  | .elem ks => let k := ks.headD ⟨false, 0, 0, 0⟩; Nat.pair (2 * k.addr + if k.global then 1 else 0) k.mask.toNat
  | .tile a _ => a

/-- Some of the writes made: each word or element holds its prior value or the one the operation writes, by free choice
(R357, R391, R428, R454). -/
def State.putSome (s : State) (g : Agent) (ws : List EWrite) : State :=
  s.putWrites g (ws.filter (fun w => match w with
    | .elem _ => s.free 16 w.mark
    | .tile _ _ => s.free 17 w.mark))

/-! ## Issue-time checks of descriptors (R332) -/

/-- One field of a descriptor: low bit, width, and whether its value is illegal. -/
abbrev FieldCheck := Nat × Bool

/-- A field that the function does not use must be zero. -/
def unusedField (desc lo n : Nat) : FieldCheck := (lo, bits desc lo n != 0)

/-- The lowest bit number of the first failing field. -/
def firstBad (cs : List FieldCheck) : Option Nat :=
  ((cs.filter (·.2)).map (·.1)).min?

/-- The write region of an operation: bytes of scratch from an address, with a length. -/
abbrev Region := List (Nat × Nat)

/-- A buffer record named by an operation (steps 1 and 2 of R333): its 320 bits. -/
def State.engRecord (s : State) (o : Op) (idx : Nat) (perm : Nat → Bool) : Except EFail Nat :=
  if lrNbrec o.lr ≤ idx then .error (.fail 2 .illOperand)
  else
    match s.engPiece (s.opAgent o) ⟨true, lrBrtab o.lr + 40 * idx, 40⟩ with
    | .error e => .error e.toFail
    | .ok x =>
      match s.recBad s.team x false with
      | some (.operand _) => .error (.fail 2 .illOperand)
      | some (.slot _) => .error (.fail 1 .slotUnbound)
      | some .wait => .error (.fail 1 .slotUnbound)
      | some .perm => .error (.fail 2 .perm)
      | none => if perm x then .error (.fail 2 .perm) else .ok x

/-- The scratch granules that elements of a record lie in, as a region. -/
def granulesOf (x : Nat) (ps : List Place) : Region :=
  if !bScr x then []
  else (((ps.flatMap (recPieces x)).flatMap (fun q => [q.addr / 256, (q.addr + q.len - 1) / 256])).eraseDups).map
    (fun g => (256 * g, 256))

/-- Whether a record is two-dimensional (R159, R341). -/
def recTwo (x : Nat) : Bool := decide (2 ≤ bIlv x) || bPitch x != 0

/-- A scratch region lies in the window (step 5). -/
def State.inWindow (s : State) (a n : Nat) : Bool := s.team.inRange a n

end Sys2Proof.Machine
end

