-- ==== Sys2Proof/Machine/Issue.lean ====
section
/-! DEFINITION. What stands before an instruction's effect: which streams may issue, fetching, breakpoints, decoding
and the distance check. -/

namespace Sys2Proof.Machine

/-- What the issue of a stream comes to: an instruction to execute in a state, or an outcome already. -/
inductive Ready where
  | go (i : Instr) (s : State)
  | done (o : Out)

/-- Whether a pick stands still as a whole: not resident, parked, with a trap to be delivered, or with an unanswered
fault (R95, R422, R423, R469). -/
def Pick.frozen (p : Pick) : Bool :=
  !p.live || p.parked || p.held.isSome || (p.dieLost != 0 && !p.mode) ||
  (match p.wait with | .fault _ => true | .ended => true | .stopped => true | _ => false) ||
  p.ls.frags.any (fun f => f.hold.isSome)

/-- Whether a team's picks issue: it runs, drains or is on its way to a safe point. -/
def TeamPhase.issues : TeamPhase → Bool
  | .running => true
  | .draining _ _ => true
  | .saving _ _ _ => true
  | _ => false

/-- Whether a team has been told to save (R454): its picks stop at safe points. -/
def TeamPhase.isSaving : TeamPhase → Bool
  | .saving _ _ _ => true
  | _ => false

/-- Whether a fragment is at a lane safe point (R66): it waits at a REGANG, is held after a SAFEPT, is at LEND, or
has not issued since the block started. -/
def LaneSet.fragSafe (l : LaneSet) (f : Fragment) : Bool :=
  f.waitAt.isSome || f.hold.isSome || !l.fragLive f || f.members.all (fun n => !(l.strand n).issued) ||
  f.members.all (fun n => (l.strand n).safept.isSome || (l.strand n).atLend)

/-- Whether every fragment of a pick is at a safe point; in trap mode the handler queue must be empty (R66, R429). -/
def Pick.lanesSafe (p : Pick) : Bool :=
  if p.mode then p.hqueue.isEmpty else !p.running || p.lanes.frags.all p.lanes.fragSafe

/-- The bytes at a code address, with the check of the fetch right and the dies touched (R245, R462, R485). -/
def State.fetch (s : State) (base : BitVec 64) (off : Word) (n : Nat) : Except AccErr (List Nat × Nat) :=
  s.resolve s.ctx rightX ((base + off.setWidth 64).toNat) n

/-- Who fetches for the pick in execution: what was written before its launch was submitted is seen whole, a later store
at an unspecified time, word by word (R146). -/
def State.fetchAgent (s : State) : Agent := { cls := 10, pick := s.cur, since := (s.launchAt s.team.launch).subW }

/-- The number of fetched bytes. -/
def State.fetched (s : State) (pas : List Nat) : Nat := s.readPas s.fetchAgent pas

/-- Which of the enabled breakpoints matches an address (R432). -/
def matchBreak (en : Nat) (regs : Tab Word) (n : Nat) (a : Word) : Option Nat :=
  (List.range n).find? (fun k => bit en k && tget 0 regs k == a)

/-- The S-stream's next instruction (R46, R215, R245, R432). A stream that may not issue leaves the state as it is. -/
def State.issueScalar (s0 : State) (key : Nat) : Ready :=
  let s := { s0 with cur := key }
  let p := s.pick
  if p.frozen || !s.team.phase.issues || s.team.phase.isSaving || p.wait != .none then .done (.next s0)
  else match s.fetch s.ctx.sbase p.spc 4 with
    | .error e => .done ({ s with inst := 0 }.scalarFails e 3 9)
    | .ok (pas, dies) =>
      let w : Word := BitVec.ofNat 32 (s.fetched pas)
      let s1 := { s with inst := w.setWidth 96 }.touchDies s.team.ctx dies
      match (if p.mode || p.bkExempt then none else matchBreak (s.ctx.bkctl.toNat / 16) s.ctx.bks 2 p.spc) with
      | some n => .done (s1.trapS .breakpoint (BitVec.ofNat 64 (0x104 + n)))
      | none =>
        if s.poisoned pas then .done (s1.trapS .dataPoison ((s.ctx.sbase + p.spc.setWidth 64)))
        else match decodeScalar w with
          | .ok i => .go i s1
          | .illOpcode => .go (.unallocatedEncoding false) s1
          | .illOperand => .done (s1.trapS .illOperand s1.opc6)

/-- How a lane fetch that cannot be made ends (R250, R469, R487). -/
def State.laneFetchFails (s : State) (e : AccErr) (landing : Bool := false) : Out :=
  match e with
  | .high va => s.trapL .xlate (BitVec.ofNat 64 va) 0
  | .refused va own => (s.worldRefused own).trapL .perm (BitVec.ofNat 64 va) 0
  | .poisoned va => s.trapL .dataPoison (BitVec.ofNat 64 va) 0
  | .lost d _ => .next (s.touchLost s.cur d)
  | .xlate st lvl addr va => s.suspendLane st lvl addr va 3 9 landing

/-- The lanes of the current masks of these strands. -/
def LaneSet.lanesOf (l : LaneSet) (strands : List Nat) : Word :=
  BitVec.ofNat 32 (maskOf ((List.range 32).filter
    (fun i => strands.contains (i / 4) && (l.strand (i / 4)).mask.getLsbD (i % 4))))

/-- Whether an instruction restarts the distance count (R68). -/
def isSafept : Instr → Bool
  | .safept _ _ => true
  | _ => false

/-- Whether an instruction stops at step 2 or 5 of R215, before the distance check. -/
def State.stopsEarly (s : State) : Instr → Bool
  | .vdiv .. => true
  | .vdivu .. => true
  | .vrem .. => true
  | .vremu .. => true
  | .vaccr _ _ _ t => decide (lrTiles s.team.lr ≤ t.toNat)
  | .vaccw _ _ _ t _ => decide (lrTiles s.team.lr ≤ t.toNat)
  | _ => false

/-- The status words of aborted transactions reach their registers (R324). -/
def Pick.paid (p : Pick) : Pick :=
  p.owed.foldl (fun (p : Pick) (n, i, v) =>
    let q := p.allocName n
    q.setName n ((q.name n).write (1 <<< i) [(i, v)])) { p with owed := [] }

/-- The same before the lanes issue again; the first bank in which one finds no register, with the registers asked for. -/
def State.payOwed (s : State) : Except (Nat × Nat) State :=
  let p := s.pick
  match s.shortBank p (p.owed.map (·.1)) with
  | some b => .error b
  | none => .ok (s.setPick p.paid)

/-- The next instruction of a fragment (R59, R63, R68, R105, R215, R432). -/
def State.issueLane (s0 : State) (key frag : Nat) : Ready :=
  let sa := { s0 with cur := key, frag := frag }
  let f := sa.fragment
  let pa := sa.pick
  if pa.frozen || !sa.team.phase.issues || !pa.running || f.waitAt.isSome || !pa.ls.fragLive f ||
      (sa.team.phase.isSaving && !pa.mode && pa.ls.fragSafe f) then .done (.next s0)
  else
    let p := pa.advanceTo pa.nextLane
    match (sa.setPick p).payOwed with
    | .error b => .done (.next (sa.setPick { p with parkWant := some b }))
    | .ok s =>
    let p := s.pick
    let lpc := (p.ls.fragPc f).getD 0
    match s.fetch s.ctx.lbase lpc 12 with
    | .error e => .done ({ s with inst := 0 }.laneFetchFails e)
    | .ok (pas, dies) =>
      let w : BitVec 96 := BitVec.ofNat 96 (s.fetched pas)
      let s1 := { s with inst := w }.touchDies s.team.ctx dies
      match (if p.mode || f.exempt then none else matchBreak s.ctx.bkctl.toNat s.ctx.bkl 4 lpc) with
      | some n => .done (s1.trapL .breakpoint (BitVec.ofNat 64 (0x100 + n)) 0)
      | none =>
        if s.poisoned pas then
          .done (s1.trapL .dataPoison (s.ctx.lbase + lpc.setWidth 64) 0)
        else match decodeLane w with
          | .illOpcode => .go (.unallocatedEncoding true) s1
          | .illOperand => .done (s1.trapL .illOperand s1.opc 0)
          | .ok i =>
            let far := f.members.filter (fun n => decide (4096 ≤ (p.ls.strand n).dist))
            if s.chk 3 && !p.mode && !isSafept i && !s.stopsEarly i && !far.isEmpty then
              .done (s1.trapL .safeptDist (BitVec.ofNat 64 (maskOf far)) (p.ls.lanesOf far))
            else .go i s1

/-- Step 1 or 3 of R215 on a word of either stream: ILL_OPCODE. -/
def execUnallocatedEncoding (lane : Bool) (s : State) : Out :=
  if lane then s.trapL .illOpcode s.opc 0 else s.trapS .illOpcode s.opc6

/-- A launch record as a number: one role of one pick, 4 KiB of scratch, one tile, FP32 formats (R434). -/
def sampleRecord : Nat :=
  0x8B000001 + 2 ^ 260 + 16 * 2 ^ 288 + 2 ^ 304 + 0x03F08888 * 2 ^ 320 + (1 + 8 * 256) * 2 ^ 480

/-- The page tables of a world whose stage 2 maps the first GiB of die 0 to itself, and of a context that does the
same in stage 1 (R460, R461): level-0 tables at 0x1000 and 0x4000. -/
def sampleTables : List (Nat × Nat) :=
  [(0x1000, 0x2003), (0x2000, 0x3003), (0x3000, 0x1D), (0x4000, 0x5003), (0x5000, 0x6003), (0x6000, 0x1D)]

/-- A context, a resident team of one pick on loom 0 of die 0, its translation, and code bytes at its SPC or at the LPC
of a started block, with the pick next on the agenda. This stands for a program's load and start (log 8). -/
def State.placeProgram (s : State) (lane : Bool) (code : List Byte) : State :=
  let t := s.nextTeam
  let mem := sampleTables.foldl (fun m e => wrBytes m e.1 (leBytes 8 e.2)) s.mem
  let block : Block := { target := 0, capBase := 16, fmtr := 0x03F08888, batches := [1, 1, 1, 1, 1, 1, 1, 1],
                         started := true }
  let p : Pick := { live := true, team := t, spc := 0, fmtr := 0x03F08888, reservation := 8, seed := 0 }
  let p : Pick := if lane then { p with queue := [block], lanes := LaneSet.start 0 0x03F08888 0 } else p
  { s with
    mem := wrBytes mem (if lane then 0x20000 else 0x10000) code
    dies := tput {} s.dies 0 { s.dieAt 0 with st := 2, world := 1, s2root := 0x1000 }
    ctxs := tput {} s.ctxs 0 { (s.ctxAt 0) with
      live := true, ended := false, world := 1, st := 0, s1root := 0x4000, sbase := 0x10000, lbase := 0x20000 }
    teams := tput {} s.teams t { phase := .running, lr := sampleRecord, picks := [64 * t] }
    picks := tput {} s.picks (64 * t) p
    nextTeam := t + 1
    dev := { s.dev with powered := true, phase := 6, ioLost := false }
    agenda := [if lane then .lane (64 * t) 0 else .scalar (64 * t)] }

end Sys2Proof.Machine
end

