-- ==== Sys2Proof/Machine/LaneControl.lean ====
section
/-! DEFINITION. Lane control transfer, lane blocks and fragments (R49, R50, R54 to R61, R293 to R301). -/

namespace Sys2Proof.Machine

/-- The LPC of the instruction in execution. -/
def State.lpc (s : State) : Word := (s.pick.ls.fragPc s.fragment).getD 0

/-- The address off instructions on from the one in execution (R204). -/
def State.laneRelative (s : State) (off : BitVec 12) : Word := s.lpc + wordOf (12 * off.toInt)

/-- The groups of strand n in a given order of addresses: the lanes of a mask by the address each chose (R54). -/
def laneGroups (n : Nat) (lanes : BitVec 4) (order : List Word) (choose : Nat → Word) : List (Word × BitVec 4) :=
  (order.map (fun t =>
    (t, BitVec.ofNat 4 (maskOf ((List.range 4).filter (fun j => lanes.getLsbD j && choose (4 * n + j) == t)))))).filter
    (fun g => g.2 != 0)

/-- A strand moves to its one group, or pushes the reconvergence entry and the other groups and goes on with the
first (R55). -/
def Strand.diverge (x : Strand) (rcv : Word) : List (Word × BitVec 4) → Strand
  | [] => x
  | [(t, _)] => { x with lpc := some t }
  | (t, m) :: rest =>
    { x with
      lpc := some t
      mask := m
      rca := some rcv
      stack := rest.map (fun g => ⟨some g.1, g.2, some rcv, x.fmtr⟩) ++ ⟨some rcv, x.mask, x.rca, x.fmtr⟩ :: x.stack }

/-- Whether the groups that strands form differ within or across them (R54). -/
def differ (gs : List (List (Word × BitVec 4))) : Bool :=
  gs.any (fun g => decide (1 < g.length)) || decide (1 < ((gs.flatMap (fun g => g.map (·.1))).eraseDups).length)

/-- The strands of the fragment whose pushes would pass 32 entries (R57). -/
def State.overflowing (s : State) (groups : Nat → List (Word × BitVec 4)) : List Nat :=
  s.fragment.members.filter (fun n =>
    decide (2 ≤ (groups n).length ∧ 32 < (s.pick.ls.strand n).stack.length + (groups n).length))

/-- A transfer of R54 to R57: the uniformity check, the stack check, then the writes and the moves. -/
def State.transfer (s : State) (stall : BitVec 4) (u : Bool) (m : Word) (srcs : List (Src × Nat)) (ws : List Write)
    (rcv : Word) (groups : Nat → List (Word × BitVec 4)) : Out :=
  let over_ := s.overflowing groups
  if u && s.chk 2 && differ (s.fragment.members.map groups) then s.trapL .uniform 0 m
  else if !over_.isEmpty then s.trapL .rstackOvf (BitVec.ofNat 64 (maskOf over_)) (s.pick.ls.lanesOf over_)
  else s.laneCommit stall m srcs ws (fun n x => x.diverge rcv (groups n))

/-- The pairs of a VBR in use: predicate field and target. -/
def brPairs (s : State) (ps : List (BitVec 4)) (ts : List (BitVec 12)) (np : BitVec 2) : List (BitVec 4 × Word) :=
  ((ps.zip ts).take (np.toNat + 1)).map (fun (p, t) => (p, s.laneRelative t))

/-- Whether pair k's predicate is true for lane i. -/
def State.pairTrue (s : State) (k : Nat) (p : BitVec 4) (i : Nat) : Bool :=
  s.predLane (10 + k) (p.extractLsb' 0 3).toNat i != p.getLsbD 3

/-- The address a lane takes (R54). -/
def State.brChoice (s : State) (pairs : List (BitVec 4 × Word)) (i : Nat) : Word :=
  (((pairs.zipIdx).find? (fun (e, k) => s.pairTrue k e.1 i)).map (fun e => e.1.2)).getD (s.lpc + 12)

/-- VBR (R54 to R57, R293). -/
def execVbr (stall : BitVec 4) (p0 p1 p2 p3 : BitVec 4) (t0 t1 t2 t3 rcv : BitVec 12) (np : BitVec 2) (u : BitVec 1)
    (s : State) : Out :=
  let pairs := brPairs s [p0, p1, p2, p3] [t0, t1, t2, t3] np
  s.laneGate 0 0 (pairs.map (fun e => (e.1.extractLsb' 0 3).toNat)) [] fun s m _ =>
    let order := (pairs.map (·.2) ++ [s.lpc + 12]).eraseDups
    s.transfer stall (u == 1) m [] [] (s.laneRelative rcv)
      (fun n => laneGroups n (s.pick.ls.strand n).mask order (s.brChoice pairs))

/-- The landing check of one target (R296): fine, bad for a reason, or a failure that is served first. A word with VLAND's OPC
counts as VLAND whatever its other fields hold: the model's choice (log 60). -/
def State.landingOf (s : State) (t : Word) : Except AccErr (Option Nat) :=
  if t.toNat % 12 ≠ 0 then .ok (some 0)
  else match s.fetch s.ctx.lbase t 12 with
    | .error (.xlate st lvl addr va) =>
      if s.fragment.noServe.contains (va / 65536) then .ok (some 1) else .error (.xlate st lvl addr va)
    | .error (.lost d va) => .error (.lost d va)
    | .error _ => .ok (some 1)
    | .ok (pas, _) =>
      if s.poisoned pas then .ok (some 1)
      else if bits (s.fetched pas) 86 10 = 0x282 then .ok none
      else .ok (some 2)

/-- The landing check of every active lane (R296): the bad lanes with their reasons. -/
def State.landingAll (s : State) (tgt : Nat → Word) : List Nat → Except AccErr (List (Nat × Nat))
  | [] => .ok []
  | i :: is =>
    match s.landingOf (tgt i) with
    | .error e => .error e
    | .ok r =>
      match s.landingAll tgt is with
      | .error e => .error e
      | .ok l => .ok (match r with | some k => (i, k) :: l | none => l)

/-- The dies that the landing checks touch (R485). -/
def State.landingDies (s : State) (tgt : Nat → Word) (m : Word) : Nat :=
  (lanesOf m).foldl (fun d i => match s.fetch s.ctx.lbase (tgt i) 12 with
    | .ok (_, n) => d ||| n
    | .error _ => d) 0

/-- Indirect transfers: the landing check, then k (R296). -/
def State.landed (s0 : State) (m : Word) (tgt : Nat → Word) (k : State → Out) : Out :=
  let s := s0.touchDies s0.team.ctx (s0.landingDies tgt m)
  match s0.landingAll tgt (lanesOf m) with
  | .error e => s0.laneFetchFails e true
  | .ok [] => k s
  | .ok bad => s.trapL .landing (BitVec.ofNat 64 (maskOf (bad.map (·.2)))) (BitVec.ofNat 32 (maskOf (bad.map (·.1))))

/-- The groups of VJMP and VCALL in strand n: distinct targets of the active lanes ascending, then the lanes that PI
and PN switch off, at the next instruction (R294, R295). -/
def State.jumpGroups (s : State) (m : Word) (tgt : Nat → Word) (n : Nat) : List (Word × BitVec 4) :=
  let x := s.pick.ls.strand n
  let act : BitVec 4 := (m.toNat / 2 ^ (4 * n) : Nat)
  let order := (((List.range 4).filter (fun j => act.getLsbD j)).map (fun j => tgt (4 * n + j))).insertionSort
    (fun a b => a.toNat ≤ b.toNat)
  let off := x.mask &&& ~~~act
  laneGroups n act order.eraseDups tgt ++ (if off = 0 then [] else [(s.lpc + 12, off)])

/-- VJMP (R294). -/
def execVjmp (h : Hd) (a : Src) (rcv : BitVec 12) (u : BitVec 1) (s : State) : Out :=
  s.laneGate h.pi h.pn [] [(a, 1)] fun s m val =>
    s.landed m (val 0 0) fun s =>
      s.transfer h.stall (u == 1) m [(a, 1)] [] (s.laneRelative rcv) (s.jumpGroups m (val 0 0))

/-- VCALL (R295). -/
def execVcall (h : Hd) (d : BitVec 8) (a : Src) (off : BitVec 12) (u ind : BitVec 1) (s : State) : Out :=
  if ind = 1 then
    s.laneGate h.pi h.pn [] [(a, 1)] fun s m val =>
      s.landed m (val 0 0) fun s =>
        s.transfer h.stall (u == 1) m [(a, 1)] (writeTo d m (fun _ => s.lpc + 12) 4) (s.lpc + 12)
          (s.jumpGroups m (val 0 0))
  else
    s.laneGate h.pi h.pn [] [] fun s m _ =>
      s.transfer h.stall false m [] (writeTo d m (fun _ => s.lpc + 12) 4) (s.lpc + 12)
        (s.jumpGroups m (fun _ => s.laneRelative off))

/-- VLAND (R297). -/
def execVland (stall : BitVec 4) (s : State) : Out := s.laneCommit stall s.fragLanes [] [] nextL

/-- VNOP (R297). -/
def execVnop (h : Hd) (s : State) : Out := s.laneCommit h.stall (s.lanesActive h.pi h.pn) [] [] nextL

/-- SAFEPT (R68, R300). -/
def execSafept (stall : BitVec 4) (idx : BitVec 16) (s : State) : Out :=
  s.laneCommit stall s.fragLanes [] [] (fun n x => { nextL n x with dist := 0, safept := some idx })

/-- The fragment in execution changed by f. -/
def State.onFragment (s : State) (f : Fragment → Fragment) : State :=
  let l := s.pick.ls
  s.setPick (s.pick.setLs { l with frags := l.frags.set s.frag (f s.fragment) })

/-- REGANG (R60, R298): with one live fragment it completes at once, else the fragment waits. -/
def execRegang (stall : BitVec 4) (s : State) : Out :=
  let l := s.pick.ls
  if (l.frags.filter l.fragLive).length ≤ 1 then s.laneCommit stall s.fragLanes [] [] nextL
  else
    (s.onFragment (fun f => { f with waitAt := some s.lpc, waitStall := stall.toNat })).laneCommit 1 s.fragLanes [] []
      (fun _ x => x)

/-- The transactions of lanes of the fragment in execution abort within an instruction. -/
def Pick.abortAll (p : Pick) (bad : List (Nat × Nat × Nat × Bool)) : Pick :=
  (bad.foldl (fun p (i, c, k, r) => p.abortRegs i c k r) p).abortFrozen p.txs (bad.map (·.1))

/-- The moves of strands when transactions of some lanes abort within the instruction: a strand with lanes left moves as
the others do. -/
def moveAborting (txs : List (Nat × Tx)) (lanes : List Nat) (move : Nat → Strand → Strand) (n : Nat) (x : Strand) :
    Strand :=
  let y := x.leaveTxs n txs lanes
  if y.mask = 0#4 then y else move n y

/-- Lanes leave every mask of their strands; what is left of a strand goes on (R58, R299). -/
def endLanes (lanes : List Nat) (n : Nat) (x : Strand) : Strand :=
  let y := (lanes.filter (fun i => i / 4 = n)).foldl (fun x i => x.dropLane (i % 4) 0) x
  if y.mask = 0#4 then y else nextL n y

/-- LEND (R58, R194, R299). A lane of a handler block that aborts a transaction of the frozen block stays at LEND. -/
def execLend (h : Hd) (s : State) : Out :=
  s.laneGate h.pi h.pn [] [] fun s m _ =>
    let txs := s.pick.txs
    let mine := s.pick.modeTxs
    let ins := (lanesOf m).filter (fun i => (txs.lookup i).isSome)
    let outs := (lanesOf m).filter (fun i => (txs.lookup i).isNone)
    let stays (n : Nat) : Bool := ins.any (fun i => i / 4 == n && (mine.lookup i).isNone)
    s.laneCommit h.stall m [] []
      (moveAborting mine ins (fun n x => if stays n then x else endLanes outs n x))
      (fun s => s.setPick (s.pick.abortAll (ins.map (fun i => (i, 4, 1, false)))))

/-! ## Blocks and fragments as the device moves them -/

/-- Whether the pick's lane side may move: it is not frozen and its team issues. -/
def State.laneLive (s : State) : Bool := !s.pick.frozen && s.team.phase.issues

/-- BLOCK_START (R48, R49): the oldest queued block starts when none runs. -/
def execBlockStart (s : State) : Out :=
  let p := s.pick
  match p.blocks with
  | b :: bs =>
    if b.started || !s.laneLive || (s.team.phase.isSaving && !p.mode) then .next s
    else .next ((s.setPick ((p.setBlocks ({ b with started := true, since := s.nextW } :: bs)).setLs
      (LaneSet.start b.target b.fmtr s.fresh))).learn (lanesKey s.cur) b.knows)
  | [] => .next s

/-- The registers that a block's copy-back writes, with their values (R50). -/
def Block.copies (b : Block) : List (Nat × Word) :=
  ((List.range 16).filter (fun n => b.kWritten.getLsbD n && !(b.atW0 && n == 0))).map
    (fun n => (b.capBase + n, tget 0 b.k n))

/-- The registers that a copy-back leaves poisoned: the k-register was (R430). -/
def Block.badCopies (b : Block) : List Nat :=
  (b.copies.filter (fun e => b.kPoison.getLsbD (e.1 - b.capBase))).map (·.1)

/-- The write records that happen before what covers a block (R53, R179): those that its lanes made or acquired. -/
def State.blockIds (s : State) (b : Block) : List Nat :=
  (s.wlog.filter (fun r => r.known.any (fun k => decide (64 * s.cur ≤ k ∧ k < 64 * s.cur + 34)) &&
    !(r.cls == 0 && r.pick == s.cur && decide (r.id < b.since)))).map (·.id)

/-- BLOCK_END (R50, R61, R165, R318): every strand is at LEND, the block's variable-latency results and k-register writes
have been written, the copy-back is made, and the batches the block was attached to let it go. -/
def execBlockEnd (s : State) : Out :=
  let p0 := s.pick
  match p0.blocks with
  | b0 :: _ =>
    if !b0.started || !s.laneLive || p0.ls.strandMask Strand.atLend != 255 then .next s
    else
      let p := p0.flushInOrder (fun q => match q.dest with | .kreg _ => true | .nothing => false | _ => q.isVar)
      match p.blocks with
      | b :: bs =>
        let cs := b.copies
        let names := cs.map (·.1)
        let ids := s.blockIds b
        let e : Ended := {
          base := b.capBase
          prior := cs.foldl (fun (t : Tab Word) (c : Nat × Word) => tins c.1 (tget 0 p.sregs c.1) t) []
          ids }
        let p1 := { (p.setBlocks bs).setLs {} with
          sregs := cs.foldl (fun (t : Tab Word) (c : Nat × Word) => tput 0 t c.1 c.2) p.sregs
          spoison := p.spoison.filter (fun r => !names.contains r) ++ b.badCopies }
        let p2 := if p.mode then { p1 with huncovered := p1.huncovered ++ [e] }
          else { p1 with uncovered := p1.uncovered ++ [e] }
        .next (s.setPick (p2.blockLeave b))
      | [] => .next s
  | [] => .next s

/-- REGANG_RELEASE (R60, R298): every live fragment waits, so those at one address merge and go on after it. -/
def execRegangRelease (s : State) : Out :=
  let p := s.pick
  let l := p.ls
  let live := l.frags.filter l.fragLive
  if !s.laneLive || !p.running || live.isEmpty || live.any (fun f => f.waitAt.isNone) then .next s
  else
    let move (l : LaneSet) (n : Nat) : LaneSet := l.setStrand n (Strand.settle (nextL n (l.strand n)))
    let merge (a : Option Word) : Fragment :=
      { strands := (live.filter (fun f => f.waitAt == a)).foldl (fun m f => m ||| f.strands) 0, lastIssue := s.fresh }
    let l1 := (live.flatMap Fragment.members).foldl move l
    let fs := ((live.map (·.waitAt)).eraseDups).map merge ++ l.frags.filter (fun f => !l.fragLive f)
    let stall := live.foldl (fun a f => max a f.waitStall) 1
    .next (s.setPick { p.setLs ({ l1 with frags := fs }).repartition with nextLane := max p.nextLane (p.clk + stall) })

/-- ISSUE_AGING_RISE (R63): a fragment passed over for 64 clks rises one class, up to the highest. -/
def execIssueAgingRise (frag : Nat) (s : State) : Out :=
  match s.pick.ls.frags[frag]? with
  | some f =>
    if 64 ≤ f.passed ∧ s.pick.running then
      .next ({ s with frag }.onFragment (fun f => { f with rise := min 3 (f.rise + 1), passed := 0 }))
    else .next s
  | none => .next s

end Sys2Proof.Machine
end

