-- ==== Sys2Proof/Machine/LaneMem.lean ====
section
/-! DEFINITION. Lane loads, stores, atomics, fences, transactions and accumulator access (R149, R150, R194 to R200, R313
to R329). -/

namespace Sys2Proof.Machine

/-! ## Accesses of one lane -/

/-- The access of one active lane: the address it is named by, its bytes, bytes it reads beside (scale and side list),
and whether ORP 0 refuses it. -/
structure LAcc where
  lane : Nat
  addr : Nat
  pieces : List Piece
  extra : List Piece := []
  oor : Bool := false

/-- The lane agent of a path: 0 LD, 1 ST (R171). -/
def State.laneAgent (s : State) (path i : Nat) : Agent :=
  let (loose, looseSince) := s.looseOf s.team
  match s.pick.blocks with
  | b :: _ => { cls := 0, pick := s.cur, path, batch := (b.batches[path]?).getD 1, seq := b.xseq, lane := i, loose, looseSince }
  | [] => { cls := 0, pick := s.cur, path, lane := i, loose, looseSince }

/-- A lane's load with its attributes (R173). -/
def State.laneReader (s : State) (i : Nat) (y : Sync) (inv : Bool) : Agent := { (s.laneAgent 0 i).as y with inv }

/-- The batch that an operation of the running block joins (R165). -/
def State.laneBatch (s : State) (path : Nat) : Nat := (s.laneAgent path 0).batch

/-- The transaction of a lane. A lane whose frozen fragment has one open is in it while a handler block runs: no rule
excepts the handler from R194 (log 48). -/
def State.txOf (s : State) (i : Nat) : Option Tx := s.pick.txs.lookup i

/-- The right that an access of a lane asks for (R462). -/
def State.laneRight (s : State) (need i : Nat) : Nat := if (s.txOf i).isSome then rightRW else need

/-- The first failure of an access in translation. -/
def State.laneErr (s : State) (need : Nat) (a : LAcc) : Option AccErr :=
  let one (r : Nat) (p : Piece) : Option AccErr :=
    if p.global then (match s.resolve s.ctx r p.addr p.len with | .ok _ => none | .error e => some e) else none
  a.pieces.findSome? (one (s.laneRight need a.lane)) <|> a.extra.findSome? (one (s.laneRight rightR a.lane))

/-- The physical bytes of pieces, with the touched dies. -/
def State.piecePas (s : State) (need : Nat) (ps : List Piece) : List Nat × Nat :=
  ps.foldl (fun (l, t) p =>
    if p.global then (match s.resolve s.ctx need p.addr p.len with
      | .ok (pas, m) => (l ++ pas, t ||| m)
      | .error _ => (l, t)) else (l, t)) ([], 0)

/-- Whether an access has a nonzero address bit in [63:56] (R144). -/
def LAcc.high (a : LAcc) : Bool := (a.pieces ++ a.extra).any (fun p => p.global && decide (2 ^ 56 < p.addr + p.len))

/-- Whether an access touches scratch. -/
def LAcc.scratch (a : LAcc) : Bool := a.pieces.any (fun p => !p.global)

/-- Whether an access reads a poisoned word of memory or scratch. -/
def State.laneBad (s : State) (need : Nat) (a : LAcc) : Bool :=
  let words (ps : List Piece) : Bool :=
    s.poisoned (s.piecePas rightR (ps.filter (·.global))).1 ||
    ps.any (fun p => !p.global && s.team.inRange p.addr p.len && s.team.scratchBad p.addr p.len)
  (need &&& rightR != 0 && words a.pieces) || words a.extra

/-- The violation of a scratch access (R149): 1 out of range, 2 ill-timed. -/
def State.violation (s : State) (a : LAcc) : Nat :=
  let t := s.team
  let sc := a.pieces.filter (fun p => !p.global)
  if sc.any (fun p => !t.inRange p.addr p.len) then 1
  else if sc.any (fun p => t.inflight.any (fun x =>
    decide (x.lo ≤ (p.addr + p.len - 1) / 256 ∧ p.addr / 256 ≤ x.hi))) then 2
  else 0

/-- The CODE with which an access aborts its transaction, if it does (R194). No rule says which of several causes counts:
this takes scratch, then the order of R315 (log 48). -/
def State.txBad (s : State) (need align : Nat) (a : LAcc) : Option Nat :=
  if a.scratch then some 0x02
  else if a.addr % align ≠ 0 then some 0x18
  else if a.high then some 0x19
  else if a.oor then some 0x1C
  else match s.laneErr need a with
    | some (.xlate _ lvl _ _) => some (if lvl = 5 then 0x1A else 0x19)
    | some (.high _) => some 0x19
    | some (.refused _ _) => some 0x02
    | some (.poisoned _) => some 0x1B
    | some (.lost _ _) => none
    | none =>
      if ((s.piecePas need a.pieces).1 ++ (s.piecePas rightR a.extra).1).any (fun x => isHost x || isRemote x) then some 0x02
      else if s.laneBad need a then some 0x1B
      else none

/-! ## Read and write sets (R195, R196) -/

/-- Lines added to a set; none when there would be more than 4. -/
def addLines (old new : List Nat) : Option (List Nat) :=
  let l := (old ++ new).eraseDups
  if l.length ≤ 4 then some l else none

/-- Whether two transactions conflict (R196). -/
def Tx.conflicts (x y : Tx) : Bool :=
  x.wlines.any (fun l => y.rlines.contains l || y.wlines.contains l) || y.wlines.any x.rlines.contains

/-- The lanes that abort by R196: each that conflicts with a lower one that stays. A lane that conflicts only with a lane that
itself aborts in the same check stays: the rule does not say, it is the model's choice (log 60). -/
def conflictLosers (txs : List (Nat × Tx)) : List Nat :=
  ((List.range 32).foldl (fun (stay, lose) i =>
    match txs.lookup i with
    | none => (stay, lose)
    | some x => if stay.any (fun (y : Tx) => x.conflicts y) then (stay, lose ++ [i]) else (stay ++ [x], lose))
    (([], []) : List Tx × List Nat)).2

/-- A transaction with the lines of an access added, or none (R195). -/
def Tx.access (x : Tx) (write : Bool) (pas : List Nat) : Option Tx :=
  let ls := (pas.map (paHome · / 128)).eraseDups
  if write then (addLines x.wlines ls).map (fun l => { x with wlines := l })
  else (addLines x.rlines ls).map (fun l => { x with rlines := l })

/-- What the checks leave of a memory instruction: the accesses that take place, the transactions that abort (lane,
cause, code, RETRY), the lanes switched off, the dies touched, and the transactions with their new lines. -/
structure MemRes where
  live : List LAcc
  aborts : List (Nat × Nat × Nat × Bool)
  oor : Word
  late : Word
  touched : Nat
  txs : List (Nat × Tx)

/-- The lanes of accesses. -/
def accMask (l : List LAcc) : Word := BitVec.ofNat 32 (maskOf (l.map (·.lane)))

/-- The address of the lowest lane of accesses. -/
def accAddr (l : List LAcc) : BitVec 64 := BitVec.ofNat 64 ((l.head?).map (·.addr) |>.getD 0)

/-- Whether an address breaks an alignment; 0 stands for one that no address meets. -/
def unaligned (align a : Nat) : Bool := align == 0 || a % align != 0

/-- Checks 3 to 7 of R315, then R149, R195 and R196, over the accesses of the active lanes in ascending order: a trap, a
suspension, or k on what takes place. need is the right asked for, align the alignment of lanes outside transactions,
txAlign inside them; acc and agent are the codes of R470. -/
def State.memChecks (s : State) (need align txAlign acc path : Nat) (accs : List LAcc) (k : MemRes → Out) : Out :=
  let ins := accs.filter (fun a => (s.txOf a.lane).isSome)
  let outs := accs.filter (fun a => (s.txOf a.lane).isNone)
  let err := outs.map (fun a => (a, s.laneErr need a))
  let pick (f : AccErr → Bool) : List LAcc := (err.filter (fun e => (e.2.map f).getD false)).map (·.1)
  let lost := accs.filterMap (fun a => match s.laneErr need a with | some (.lost d _) => some d | _ => none)
  let mis := outs.filter (fun a => unaligned align a.addr)
  let hi := outs.filter LAcc.high
  let oors := outs.filter (·.oor)
  if !mis.isEmpty then s.trapL .misalign (accAddr mis) (accMask mis)
  else if !hi.isEmpty then s.trapL .xlate (accAddr hi) (accMask hi)
  else if !oors.isEmpty then s.trapL .bounds (accAddr oors) (accMask oors)
  else match err.findSome? (fun (a, e) => match e with | some (.xlate st lvl ad _) => some (st, lvl, ad, a.addr) | _ => none) with
    | some (st, lvl, ad, va) => s.suspendLane st lvl ad va acc path false
        (accMask (pick (fun e => match e with | .xlate _ _ _ _ => true | _ => false)))
    | none =>
      let refused := pick (fun e => match e with | .refused _ _ => true | _ => false)
      let owns := err.filterMap (fun e => match e.2 with | some (.refused _ (some pa)) => some pa | _ => none)
      let bad := outs.filter (s.laneBad need)
      if !refused.isEmpty then (owns.foldl (fun s pa => s.worldRefused (some pa)) s).trapL .perm (accAddr refused) (accMask refused)
      else match lost with
        | d :: _ => .next (s.touchLost s.cur d)
        | [] =>
          if !bad.isEmpty then s.trapL .dataPoison (accAddr bad) (accMask bad)
          else
            let off (n : Nat) : List LAcc := outs.filter (fun a => s.violation a == n)
            let faults := ins.filterMap (fun a => (s.txBad need txAlign a).map (fun c => (a.lane, 4, c, false)))
            let ins1 := ins.filter (fun a => (s.txBad need txAlign a).isNone)
            let write := need &&& rightW != 0
            let grown := ins1.map (fun a => (a, (s.txOf a.lane).bind (fun x =>
              x.access write ((s.piecePas need a.pieces).1 ++ (s.piecePas rightR a.extra).1))))
            let full := grown.filterMap (fun (a, x) => if x.isNone then some (a.lane, 2, 0, false) else none)
            let gone := (faults ++ full).map (·.1)
            let txs := (s.pick.txs.filter (fun e => !gone.contains e.1)).map (fun e =>
              (e.1, ((grown.find? (fun g => g.1.lane == e.1)).bind (·.2)).getD e.2))
            let losers := conflictLosers txs
            let live := (outs.filter (fun a => s.violation a == 0)) ++
              ins1.filter (fun a => !gone.contains a.lane && !losers.contains a.lane)
            k { live
                aborts := faults ++ full ++ losers.map (fun i => (i, 1, 0, true))
                oor := accMask (off 1)
                late := accMask (off 2)
                touched := live.foldl (fun t a => t ||| (s.piecePas need a.pieces).2 ||| (s.piecePas rightR a.extra).2) 0
                txs := txs.filter (fun e => !losers.contains e.1) }

/-- Transactions of lanes outside the fragment abort in their strands; the fragments part when the instruction ends. -/
def Pick.abortOthers (p : Pick) (txs : List (Nat × Tx)) (lanes : List Nat) : Pick := p.setLs (p.ls.leaveTxs txs lanes)

/-- The locations of the bytes of a piece, with their places in the word. -/
def State.pieceCells (s : State) (p : Piece) : List (Nat × Nat) :=
  if p.global then (match s.resolve s.ctx rightR p.addr p.len with
    | .ok (pas, _) => s.memCells pas
    | .error _ => [])
  else scrCells s.pick.team p.addr p.len

/-- Later accesses of lanes to words: what those lanes still have to load of them, issued before the write numbered so, is
settled (R175). -/
def Pick.supersede (p : Pick) (before : Nat) (accs : List (Nat × List Nat)) : Pick :=
  let met (x : LateLoad) : Bool := accs.any (fun a => a.1 == x.lane &&
    (x.cells ++ x.extra).any (fun cs => cs.any (fun c => a.2.contains c.1)))
  if p.pending.all (·.late.isEmpty) then p
  else { p with pending := p.pending.map (fun (q : Pending) =>
    if q.seq < before then { q with late := q.late.filter (fun x => !met x) } else q) }

/-- The words that lanes' accesses touch. -/
def State.accWords (s : State) (live : List LAcc) : List (Nat × List Nat) :=
  live.map (fun a => (a.lane, ((a.pieces ++ a.extra).flatMap (fun p => (s.pieceCells p).map (·.1))).eraseDups))

/-- A memory instruction ends: its writes, the sets of its transactions, its effect on memory, the aborts and the lanes
switched off; then the strands move. It counts the bytes of its elements, of their scales and of their side-list entries
(R451). -/
def State.memCommit (s : State) (stall : BitVec 4) (m : Word) (srcs : List (Src × Nat)) (ws : List Write) (r : MemRes)
    (eff : State → State) : Out :=
  let txs := s.pick.modeTxs
  let mine := s.fragment.members
  let first := s.pick.pseq
  let lanes := r.aborts.map (·.1)
  let ins := lanes.filter (fun i => mine.contains (i / 4))
  let others := lanes.filter (fun i => !mine.contains (i / 4))
  let off := lanesOf (r.oor ||| r.late)
  let bytes := (r.live.map (fun a => ((a.pieces ++ a.extra).map (·.len)).sum)).sum
  let scr := r.live.flatMap (fun a => ((a.pieces ++ a.extra).filter (fun q => !q.global)).map (fun q => (q.addr, q.len)))
  let counted := (ws.zipIdx).map (fun (w, k) => { w with bytes := if k = 0 then bytes else 0, scr : Write })
  s.laneCommit stall m srcs counted (moveAborting txs ins (endLanes off)) fun s =>
    let p1 := s.pick.supersede first (s.accWords r.live)
    let s1 := s.setPick { p1 with txs := p1.txs.map (fun e => (e.1, (r.txs.lookup e.1).getD e.2)) }
    let s2 := (eff s1).touchDies s.team.ctx r.touched
    let p := (s2.pick.abortAll r.aborts).abortOthers txs others
    let n (c : Nat) (w : Word) (s : State) : State := if w = 0 then s else s.count s.team.die c (popc w.toNat 32)
    n 0x008 r.oor (n 0x009 r.late (s2.setPick { p with fmask := addFmask p.fmask r.oor r.late }))

/-! ## Reading and writing -/

/-- The bits of a resolved byte that a transaction has stored, with their values (R195). -/
def Tx.own (x : Tx) (a : Nat) : Byte × Byte :=
  match x.writes.find? (fun b => b.1 == memLoc a) with
  | some b => ((b.2.1 >>> (8 * (a % 4))).setWidth 8, (b.2.2 >>> (8 * (a % 4))).setWidth 8)
  | none => (0, 0)

/-- The resolved bytes of a piece of global memory. -/
def State.pieceBytes (s : State) (need : Nat) (p : Piece) : List Nat :=
  match s.resolve s.ctx need p.addr p.len with
  | .ok (pas, _) => pas
  | .error _ => []

/-- The number of the bytes of a piece as a lane reads it, at one go in a synchronising access: its own transaction's stores
first (R195). -/
def State.pieceVal (s : State) (g : Agent) (p : Piece) : Nat :=
  let joint := g.ord != 0
  if p.global then
    let pas := s.pieceBytes rightR p
    match s.txOf g.lane with
    | none => s.readPas g pas joint
    | some x => ofLe ((pas.zip (s.look g false (s.memCells pas)).1).map (fun (a, v) =>
        let (m, w) := x.own a
        (v &&& ~~~m) ||| (w &&& m)))
  else s.readScr g s.pick.team p.addr p.len joint

/-- What a lane's read of a piece leaves behind: outside transactions what any read does; inside, the bits read for the
validation (R195). s0 is the state it reads. -/
def State.notePiece (s0 s : State) (g : Agent) (y : Sync) (p : Piece) : State :=
  let joint := y.ord != 0
  let pas := s0.pieceBytes rightR p
  match s0.txOf g.lane with
  | none =>
    if p.global then (s0.noteLook s g y joint (s0.memCells pas)).heal pas
    else s0.noteLook s g y joint (scrCells s0.pick.team p.addr p.len)
  | some x =>
    let open_ := pas.filter (fun a => (x.own a).1 != 0xFF)
    let cells := s0.memCells open_
    let vs := (s0.look g false cells).1
    let bits_ := packBits ((open_.zip (cells.zip vs)).map (fun (a, c, v) => (c.1, c.2, ~~~(x.own a).1, v)))
    let s1 := (s0.noteLook s g .plain false cells).heal open_
    s1.setPick { s1.pick with txs := s1.pick.txs.map (fun e =>
      if e.1 = g.lane then (e.1, { e.2 with reads := e.2.reads ++ bits_ }) else e) }

/-- What the loads of lanes leave behind: those of the access as its attributes say, scale and side-list reads as plain
ones; an `.INV` load's promise covers the words of memory that it read (R156, R465). -/
def State.noteLoads (s0 s : State) (live : List LAcc) (y : Sync) (inv : Bool) : State :=
  let s1 := live.foldl (fun s a =>
    a.extra.foldl (fun s p => s0.notePiece s (s0.laneAgent 0 a.lane) .plain p)
      (a.pieces.foldl (fun s p => s0.notePiece s (s0.laneReader a.lane y inv) y p) s)) s
  let locs := (live.filter (fun a => (s0.txOf a.lane).isNone)).flatMap (fun a => ((a.pieces.filter (·.global)).flatMap
    (fun p => ((s0.pieceBytes rightR p).filter (fun x => !isHost x)).map (fun x => memLoc (paHome x)))))
  if !inv ∨ locs.isEmpty then s1
  else
    let t := s1.team
    let l := s1.launchAt t.launch
    s1.setLaunchAt t.launch { l with invs := l.invs ++ (locs.eraseDups).map (fun x => (t.lrec, x)) }

/-- What the loads of lanes outside transactions are made of, for register g of a group (R181); via says how an element of a
buffer record is. -/
def State.lateLoads (s : State) (live : List LAcc) (g : Nat) (via : Nat → Option (Nat × Nat × Nat × Nat) := fun _ => none) :
    List LateLoad :=
  (live.filter (fun a => (s.txOf a.lane).isNone)).map (fun a =>
    ⟨a.lane, a.pieces.map s.pieceCells, a.extra.map s.pieceCells, g, via a.lane⟩)

/-- The writes of a variable-latency result of the LD path: one per member of its group; with no lane to write, an
operation that only completes. -/
def State.loadWrites (s : State) (d : BitVec 8) (n : Nat) (mask : Word) (val : Nat → Nat → Word)
    (late : Nat → List LateLoad := fun _ => []) : List Write :=
  let b := s.laneBatch 0
  match destOf d with
  | some (.vreg r) =>
    if mask = 0 then [{ dest := .nothing, mask := 0, vals := [], lat := none, path := 0, batch := b }]
    else (List.range n).map (fun g =>
      { dest := .vreg (r + g), mask, vals := lanesWith mask (val g), lat := none, path := 0, batch := b, late := late g })
  | _ => [{ dest := .nothing, mask := 0, vals := [], lat := none, path := 0, batch := b }]

/-- A transactional load is complete before its fragment goes on (R318). -/
def State.settleTxLoad (s : State) (d : BitVec 8) (n : Nat) (live : List LAcc) : State :=
  if live.any (fun a => (s.txOf a.lane).isSome) then
    s.setPick (s.pick.flush (fun q => match q.dest with
      | .vreg r => decide (d.toNat ≤ r ∧ r < d.toNat + n)
      | _ => false))
  else s

/-- A load ends: the lanes that take part take val, other lanes in fixed take theirs. -/
def State.loadCommit (s : State) (h : Hd) (d : BitVec 8) (n : Nat) (m : Word) (srcs : List (Src × Nat)) (r : MemRes)
    (fixed : Word) (val : Nat → Nat → Word) (y : Sync) (inv : Bool) (eff : State → State)
    (via : Nat → Option (Nat × Nat × Nat × Nat) := fun _ => none) : Out :=
  let mask := accMask r.live ||| fixed
  s.memCommit h.stall m srcs (s.loadWrites d n mask val (fun g => s.lateLoads r.live g via)) r
    (fun s1 => (s.noteLoads (eff s1) r.live y inv).settleTxLoad d n r.live)

/-- The stores of the lanes outside transactions, and the write buffers of the others. -/
def State.storeLanes (s0 s : State) (live : List LAcc) (y : Sync) (pokes : Nat → List Poke) : State :=
  live.foldl (fun s a =>
    let ks := pokes a.lane
    let pages := s0.pagesAt s0.ctx ((ks.filter (·.global)).map (·.addr))
    match s0.txOf a.lane with
    | none => s.storeSync { s0.laneAgent 1 a.lane with pages } y (s0.pokeUnits s.pick.team ks)
    | some _ =>
      let us := packBits ((ks.filterMap s0.pokePa).map (fun e => (memLoc e.1, e.1 % 4, e.2)))
      s.setPick { s.pick with txs := s.pick.txs.map (fun e =>
        if e.1 = a.lane then (e.1, { e.2 with writes := us.foldl addBits e.2.writes, pages := e.2.pages ++ pages }) else e) }) s

/-- A store ends: an operation of the ST path. -/
def State.storeCommit (s : State) (h : Hd) (m : Word) (srcs : List (Src × Nat)) (r : MemRes) (y : Sync)
    (pokes : Nat → List Poke) : Out :=
  s.memCommit h.stall m srcs [{ dest := .nothing, mask := 0, vals := [], lat := none, path := 1, batch := s.laneBatch 1 }]
    r (fun s1 => s.storeLanes s1 r.live y pokes)

/-! ## Accesses by address (R313 to R317) -/

/-- The bytes of SIZE. -/
def sizeBytes (size : Nat) : Nat := 2 ^ size

/-- The registers of SIZE. -/
def sizeRegs (size : Nat) : Nat := if size = 3 then 2 else if size = 4 then 4 else 1

/-- The address of a lane (R314): global from a pair of registers, or in scratch. -/
def laneAddr (scratch : Bool) (off : BitVec 17) (lo hi : Word) : Nat :=
  if scratch then (((lo.toNat : Int) + off.toInt) % 2 ^ 32).toNat
  else (((hi.toNat * 2 ^ 32 + lo.toNat : Nat) + off.toInt : Int) % 2 ^ 64).toNat

/-- The accesses of the active lanes of an instruction that names addresses. -/
def directAccs (scratch : Bool) (off : BitVec 17) (n : Nat) (m : Word) (val : Nat → Nat → Nat → Word) : List LAcc :=
  (lanesOf m).map (fun i =>
    let a := laneAddr scratch off (val 0 0 i) (val 0 1 i)
    { lane := i, addr := a, pieces := [⟨!scratch, a, n⟩] })

/-- The alignment of check 3 of R315; no address meets that of a synchronising access of other than 4 or 8 bytes
(R173). -/
def alignOf (sync : Bool) (n : Nat) : Nat := if sync then (if n = 4 ∨ n = 8 then n else 0) else min n 4

/-- The attributes of a lane instruction. -/
def syncOf (ord scp : BitVec 3) (rmt : BitVec 1) : Sync := { ord := ord.toNat, scp := scp.toNat, rmt := rmt == 1 }

/-- VLDA and VLDS (R314 to R316). -/
def State.directLoad (s : State) (h : Hd) (d : BitVec 8) (a : Src) (off : BitVec 17) (y : Sync) (inv : Bool)
    (size : BitVec 3) (scratch : Bool) : Out :=
  let n := sizeBytes size.toNat
  let srcs := [(a, if scratch then 1 else 2)]
  s.laneGate h.pi h.pn [] srcs fun s m val =>
    let accs := directAccs scratch off n m val
    s.memChecks rightR (alignOf (y.ord != 0) n) (min n 4) 0 0 accs fun r =>
      let v (g i : Nat) : Word :=
        match accs.find? (fun x => x.lane == i) with
        | some x => BitVec.ofNat 32 ((x.pieces.map (s.pieceVal (s.laneReader i y inv))).headD 0 / 2 ^ (32 * g))
        | none => 0
      s.loadCommit h d (sizeRegs size.toNat) m srcs r 0 v y inv id

/-- VSTA and VSTS (R314, R315, R317). -/
def State.directStore (s : State) (h : Hd) (a b : Src) (off : BitVec 17) (y : Sync) (size : BitVec 3) (scratch : Bool) :
    Out :=
  let n := sizeBytes size.toNat
  let srcs := [(a, if scratch then 1 else 2), (b, sizeRegs size.toNat)]
  s.laneGate h.pi h.pn [] srcs fun s m val =>
    let accs := directAccs scratch off n m val
    s.memChecks rightW (alignOf (y.ord != 0) n) (min n 4) 1 1 accs fun r =>
      let bytes (i : Nat) : List Byte := (List.range n).map (fun k =>
        BitVec.ofNat 8 ((val 1 (k / 4) i).toNat / 2 ^ (8 * (k % 4))))
      let pokes (i : Nat) : List Poke :=
        match accs.find? (fun x => x.lane == i) with
        | some x => ((bytes i).zipIdx).map (fun (v, k) => ⟨!scratch, x.addr + k, 0xFF, v⟩)
        | none => []
      s.storeCommit h m srcs r y pokes

/-- VLDA (R316). Read counts change no value (R155). -/
def execVlda (h : Hd) (d : BitVec 8) (a : Src) (off : BitVec 17) (ord scp : BitVec 3) (rmt inv : BitVec 1)
    (_rc : BitVec 4) (_rcl : BitVec 1) (size : BitVec 3) (s : State) : Out :=
  s.directLoad h d a off (syncOf ord scp rmt) (inv == 1) size false

/-- VSTA (R317). -/
def execVsta (h : Hd) (a b : Src) (off : BitVec 17) (ord scp size : BitVec 3) (s : State) : Out :=
  s.directStore h a b off (syncOf ord scp 0) size false

/-- VLDS (R316). -/
def execVlds (h : Hd) (d : BitVec 8) (a : Src) (off : BitVec 17) (ord scp size : BitVec 3) (s : State) : Out :=
  s.directLoad h d a off (syncOf ord scp 0) false size true

/-- VSTS (R317). -/
def execVsts (h : Hd) (a b : Src) (off : BitVec 17) (ord scp size : BitVec 3) (s : State) : Out :=
  s.directStore h a b off (syncOf ord scp 0) size true

/-! ## Accesses through a buffer record -/

/-- The record that a lane instruction names, checked (check 1 of R315); index gives the element index of a lane. Where
every active lane is in a transaction, a store refused by the record aborts them (R194). The reads of the record touch
its die (R485). Which agent reads the record no rule says, nor what happens where its own bytes cannot be read: the model takes
lane 0's, active or not, and suspends or traps with all active lanes in TMASK and the record's address in TVAL (log 60). -/
def State.withRecord (s : State) (stall : BitVec 4) (m : Word) (srcs : List (Src × Nat)) (brec : BitVec 8) (path : Nat)
    (store : Bool) (index : Nat → Word) (k : State → Nat → Out) : Out :=
  if lrNbrec s.team.lr ≤ brec.toNat then s.trapL .illOperand 1 m
  else
    let a := lrBrtab s.team.lr + 40 * brec.toNat
    match s.resolve s.ctx rightR a 40 with
    | .error (.xlate st lvl ad va) => s.suspendLane st lvl ad va 0 path false m
    | .error (.high va) => s.trapL .xlate (BitVec.ofNat 64 va) m
    | .error (.refused va own) => (s.worldRefused own).trapL .perm (BitVec.ofNat 64 va) m
    | .error (.poisoned va) => s.trapL .dataPoison (BitVec.ofNat 64 va) m
    | .error (.lost d _) => .next (s.touchLost s.cur d)
    | .ok (pas, dies) =>
      if s.poisoned pas then s.trapL .dataPoison (BitVec.ofNat 64 a) m
      else
        let g := s.laneAgent path 0
        let x := s.readPas g pas
        let s1 := (s.notePas g .plain false pas).touchDies s.team.ctx dies
        match s.recBad s.team x store with
        | some .wait => .next s
        | some (.operand n) => s1.trapL .illOperand (BitVec.ofNat 64 n) m
        | some (.slot c) => s1.trapL .slotUnbound (BitVec.ofNat 64 c) m
        | some .perm =>
          let va := match lanesOf m with | [] => 0 | i :: _ => recAddr x (recPlace x (index i).toNat)
          let txs := lanesOf m
          if m ≠ 0 ∧ txs.all (fun i => (s.txOf i).isSome) then
            s1.laneCommit stall m srcs [] (moveAborting s.pick.modeTxs txs nextL)
              (fun s => s.setPick (s.pick.abortAll (txs.map (fun i => (i, 4, 0x1A, false)))))
          else s1.trapL .perm (BitVec.ofNat 64 va) m
        | none => k s1 x

/-- Whether a synchronising access goes through a record whose ENC is not 0 (check 2 of R315); inside a transaction ORD
is ignored (R194). -/
def State.syncEnc (s : State) (m : Word) (ord : BitVec 3) (x : Nat) : Bool :=
  ord != 0 && bEnc x != 0 && (m == 0 || (lanesOf m).any (fun i => (s.txOf i).isNone))

/-- VLD (R314 to R316, R160, R161). -/
def execVld (h : Hd) (d : BitVec 8) (a : Src) (brec : BitVec 8) (ord scp : BitVec 3) (rmt inv : BitVec 1)
    (_rc : BitVec 4) (_rcl : BitVec 1) (s : State) : Out :=
  s.laneGate h.pi h.pn [] [(a, 1)] fun s m val =>
    s.withRecord h.stall m [(a, 1)] brec 0 false (val 0 0) fun s x =>
      if s.syncEnc m ord x then s.trapL .illOperand s.opc m
      else
        let y := syncOf ord scp rmt
        let (tf, ef, sf) := s.recFmts s.team x
        let place (i : Nat) : Option Place := recAt x (val 0 0 i).toNat
        let accs := (lanesOf m).filterMap (fun i => (place i).map (fun p =>
          ({ lane := i, addr := recAddr x p, pieces := recPieces x p, extra := recExtra x sf p
             oor := !recInRange x p } : LAcc)))
        let zeros := (lanesOf m).filter (fun i => (place i).isNone)
        s.memChecks rightR 1 1 0 0 accs fun r =>
          let v (_ i : Nat) : Word :=
            match place i with
            | some p => recLoad x tf ef sf p ((recPieces x p).map (s.pieceVal (s.laneReader i y (inv == 1))))
                ((recExtra x sf p).map (s.pieceVal (s.laneAgent 0 i))) (s.laneFmtr i) (s.drawOf i)
            | none => recZero x tf
          s.loadCommit h d 1 m [(a, 1)] r (BitVec.ofNat 32 (maskOf zeros)) v y (inv == 1)
            (if bEnc x < 2 then id else seedAfter m (s.rmOf 0))
            (fun i => some (x, (val 0 0 i).toNat, s.laneFmtr i, s.drawOf i))

/-- VST (R314, R315, R317, R160, R161). -/
def execVst (h : Hd) (a b : Src) (brec : BitVec 8) (ord scp : BitVec 3) (s : State) : Out :=
  s.laneGate h.pi h.pn [] [(a, 1), (b, 1)] fun s m val =>
    s.withRecord h.stall m [(a, 1), (b, 1)] brec 1 true (val 0 0) fun s x =>
      if s.syncEnc m ord x then s.trapL .illOperand s.opc m
      else
        let (tf, ef, _) := s.recFmts s.team x
        let place (i : Nat) : Option Place :=
          let p := recPlace x (val 0 0 i).toNat
          if recInRange x p || bOrp x == 0 then some p else none
        let accs := (lanesOf m).filterMap (fun i => (place i).map (fun p =>
          ({ lane := i, addr := recAddr x p, pieces := recPieces x p, oor := !recInRange x p } : LAcc)))
        s.memChecks rightW 1 1 1 1 accs fun r =>
          let pokes (i : Nat) : List Poke :=
            match place i with
            | some p => recPokes x p (recStore x tf ef (val 1 0 i))
            | none => []
          s.storeCommit h m [(a, 1), (b, 1)] r (syncOf ord scp 0) pokes

/-- The dies that the fills of a prefetch touch (R319, R485): each active lane's element of a record in memory is filled, or
dropped by free choice; one that would fail a later check is dropped. -/
def State.fillDies (s : State) (x : Nat) (m : Word) (index : Nat → Nat) : Nat :=
  ((lanesOf m).filter (fun i => !bScr x && (s.txOf i).isNone && s.free 38 i)).foldl (fun t i =>
    match recAt x (index i) with
    | none => t
    | some p =>
      let ps := recPieces x p
      if !recInRange x p || (ps.findSome? (fun q => match s.resolve s.ctx rightR q.addr q.len with
          | .ok _ => none
          | .error e => some e)).isSome then t
      else t ||| (s.piecePas rightR ps).2) 0

/-- VPFT (R319): check 1 alone; no value changes. With every active lane in a transaction it does nothing (R194). -/
def execVpft (h : Hd) (a : Src) (brec : BitVec 8) (_rc : BitVec 4) (_rcl : BitVec 1) (s : State) : Out :=
  s.laneGate h.pi h.pn [] [(a, 1)] fun s m val =>
    if m ≠ 0 ∧ (lanesOf m).all (fun i => (s.txOf i).isSome) then s.laneCommit h.stall m [(a, 1)] [] nextL
    else s.withRecord h.stall m [(a, 1)] brec 0 false (val 0 0) fun s x =>
      s.laneCommit h.stall m [(a, 1)]
        [{ dest := .nothing, mask := 0, vals := [], lat := none, path := 0, batch := s.laneBatch 0 }] nextL
        (fun s1 => s1.touchDies s.team.ctx (s.fillDies x m (fun i => (val 0 0 i).toNat)))

/-! ## Atomics (R320, R321) -/

/-- The value written back by AOP (R320) for n bytes: old, the operand or the expected value, the new value of CAS. -/
def atomNew (aop n old b c : Nat) : Nat :=
  let w := 8 * n
  let less (x y : Nat) : Bool := decide (sextN x w < sextN y w)
  match aop with
  | 0 => (old + b) % 2 ^ w
  | 1 => (roundFp32 ((fp32 (BitVec.ofNat 32 old)).add (fp32 (BitVec.ofNat 32 b)))).toNat
  | 2 => if less b old then b else old
  | 3 => if less old b then b else old
  | 4 => min old b
  | 5 => max old b
  | 6 => old &&& b
  | 7 => old ||| b
  | 8 => old ^^^ b
  | 9 => b
  | _ => if old = b then c else old

/-- The value of some full binary tree of rounded additions over words (R192). -/
def State.treeSum (s : State) (tag : Nat) : Nat → List Word → Word
  | 0, l => l.headD 0
  | k + 1, l =>
    match l with
    | [] => 0
    | [x] => x
    | [x, y] => roundFp32 ((fp32 x).add (fp32 y))
    | l =>
      let i := s.freeN 13 (Nat.pair tag (2 * k)) % l.length
      let l1 := l.eraseIdx i
      let j := s.freeN 13 (Nat.pair tag (2 * k + 1)) % l1.length
      s.treeSum tag k (roundFp32 ((fp32 ((l[i]?).getD 0)).add (fp32 ((l1[j]?).getD 0))) :: l1.eraseIdx j)

/-- One lane's atomic: the old value and the state (R188). upd: a near FADD without destination, which may combine with
others in any order before anything else accesses the line (R192); kept: it holds the line update-only (R191). -/
def State.atomLane (s0 s : State) (g : Agent) (y : Sync) (aop n : Nat) (a : LAcc) (b c : Nat) (upd kept : Bool) :
    State × Nat :=
  if a.scratch then s.modify g y (scrCells s.pick.team a.addr n) [] (fun old => atomNew aop n old b c)
  else
    let pas := s0.pieceBytes rightRW ⟨true, a.addr, n⟩
    let cells := s.memCells pas
    let twin := otherCopies pas cells
    let locs := (cells.map (·.1)).eraseDups
    let sr := if kept ∧ !(s.fadds.any (fun f => locs.contains f.loc && f.kind != aop)) then s else s.recall locs
    let entry (l old : Nat) : NearAdds :=
      let now := BitVec.ofNat 32 old
      (sr.fadds.find? (fun f => f.loc == l && (!upd || f.now == now))).getD ⟨l, aop, now, now, [], []⟩
    let sum (old : Nat) : Word :=
      let e := entry (locs.headD 0) old
      s.treeSum g.lane (e.operands.length + 2) (e.prior :: BitVec.ofNat 32 b :: e.operands)
    let (s1, old) := sr.modify { g with pages := s0.pagesAt s0.ctx [a.addr] } y cells twin (fun old =>
      if upd then (sum old).toNat else atomNew aop n old b c)
    if !kept then (s1, old)
    else
      let loom := 64 * s.team.die + s.team.loom
      let next (l : Nat) : NearAdds :=
        let e := entry l old
        if upd then { e with now := sum old, operands := BitVec.ofNat 32 b :: e.operands, looms := loom :: e.looms }
        else { e with looms := loom :: e.looms }
      ({ s1 with fadds := locs.map next ++ s1.fadds.filter (fun f => !locs.contains f.loc) }, old)

/-- Where the accesses of a VATOM lie: the first byte of each in memory or scratch. -/
def State.atomPlaces (s : State) (n : Nat) (live : List LAcc) : List Nat :=
  live.map (fun a => if a.scratch then a.addr else (s.pieceBytes rightRW ⟨true, a.addr, n⟩).headD 0)

/-- The lanes of a VATOM, in an order of no rule where two of them name one place (R172, R321): the old value of
each. -/
def State.atomLanes (s0 s : State) (y : Sync) (aop n : Nat) (upd kept : Bool) (live : List LAcc) (opnd : Nat → Nat × Nat) :
    State × List (Nat × Nat) :=
  let order := if (s0.atomPlaces n live).Nodup then live
    else live.insertionSort (fun a b => s0.freeN 14 a.lane ≤ s0.freeN 14 b.lane)
  order.foldl (fun (s, olds) a =>
    let (b, c) := opnd a.lane
    let (s1, old) := s0.atomLane s (s0.laneAgent 0 a.lane) y aop n a b c upd kept
    (s1, (a.lane, old) :: olds)) (s, [])

/-- VATOM (R320, R321). In the host window all but ADD, XCHG and CAS trap (R465); where that check stands among those of R315
no rule says: the model makes it after check 7 (log 60). -/
def execVatom (h : Hd) (d : BitVec 8) (a b : Src) (off : BitVec 17) (ord scp : BitVec 3) (aop : BitVec 4) (far : BitVec 1)
    (size : BitVec 3) (asp : BitVec 1) (s : State) : Out :=
  let n := sizeBytes size.toNat
  let w := n / 4
  let scratch := asp == 1
  let srcs := [(a, if scratch then 1 else 2), (b, if aop = 10 then 2 * w else w)]
  s.laneGate h.pi h.pn [] srcs fun s m val =>
    let accs := directAccs scratch off n m val
    let ins := accs.filter (fun x => (s.txOf x.lane).isSome)
    let outs := accs.filter (fun x => (s.txOf x.lane).isNone)
    s.memChecks rightRW n n 2 0 outs fun r =>
      let num (g i : Nat) : Nat := (val 1 g i).toNat + if w = 2 then (val 1 (g + 1) i).toNat * 2 ^ 32 else 0
      let opnd (i : Nat) : Nat × Nat := (num 0 i, if aop = 10 then num w i else 0)
      let y : Sync := { ord := max 1 ord.toNat, scp := scp.toNat }
      let kept := far == 0 && decide (aop.toNat < 9) && d.toNat == 239 && !scratch
      let upd := kept && aop == 1
      let run (s1 : State) := s.atomLanes s1 y aop.toNat n upd kept r.live opnd
      let olds := (run s).2
      let v (g i : Nat) : Word := BitVec.ofNat 32 ((olds.lookup i).getD 0 / 2 ^ (32 * g))
      let refused := outs.filter (fun x => !scratch &&
        (s.pieceBytes rightRW ⟨true, x.addr, n⟩).any isHost && !(aop == 0 || aop == 9 || aop == 10))
      if !refused.isEmpty then s.trapL .perm (accAddr refused) (accMask refused)
      else s.memCommit h.stall m srcs (s.loadWrites d w (accMask r.live) v)
        { r with aborts := ins.map (fun x => (x.lane, 4, 0x02, false)) ++ r.aborts }
        (fun s1 => (run s1).1)

/-! ## Fences (R318, R322) -/

/-- The variable-latency results issued so far are written (R318), with what was issued before them to the same names
(R105). -/
def Pick.awaitLoads (p : Pick) : Pick := p.flushInOrder (fun q => q.isVar && q.dest != .nothing)

/-- The ordering effect of a fence of an agent (R178): an acquire fence turns what its relaxed reads found into acquires, a
release fence makes ready what its later relaxed writes release, and recalls as R191 says. -/
def State.fence (s : State) (g : Agent) (kind scp : Nat) : State :=
  let s1 :=
    if kind = 2 ∨ kind = 4 then
      let rels := ((s.pickAt g.pick).rlxSeen.filter (fun e => e.1 == g.key)).map (·.2)
      s.learnFor g ((rels.filter (fun x => s.inScope x.scope x.pick g.pick && s.inScope scp g.pick x.pick)).flatMap
        (fun x => s.orderedIds x.scope scp x.ids))
    else s
  if kind = 3 ∨ kind = 4 then
    let p := s1.pickAt g.pick
    (s1.setPickAt g.pick { p with relFence := p.relFence ++ [(g.key, ⟨g.pick, scp, s1.knownIds g⟩)] }).recallLoom g.pick scp
  else s1

/-- VFENCE (R178, R194, R318, R322). -/
def execVfence (h : Hd) (kind scp : BitVec 3) (s : State) : Out :=
  s.laneGate h.pi h.pn [] [] fun s m _ =>
    let txs := s.pick.txs
    let ins := (lanesOf m).filter (fun i => (txs.lookup i).isSome)
    let outs := (lanesOf m).filter (fun i => (txs.lookup i).isNone)
    let s1 := s.setPick s.pick.awaitLoads
    s1.laneCommit h.stall m [] [] (moveAborting s.pick.modeTxs ins nextL) (fun s =>
      let s2 := s.setPick (s.pick.abortAll (ins.map (fun i => (i, 4, 0x02, false))))
      outs.foldl (fun s i => s.fence (s.laneAgent 0 i) kind.toNat scp.toNat) s2)

/-! ## Transactions (R323 to R326) -/

/-- What TXBEGIN does in a strand none of whose lanes is in a transaction (R323). -/
def Strand.txBegin (x : Strand) (rejoin : Word) : Strand :=
  { x with
    stack := ⟨some rejoin, x.mask, x.rca, x.fmtr⟩ :: x.stack
    rca := some rejoin
    lpc := x.lpc.map (· + 12) }

/-- TXBEGIN (R194, R323). A strand with a lane in a transaction loses such lanes and stays at the TXBEGIN. -/
def execTxbegin (stall : BitVec 4) (d : BitVec 8) (off : BitVec 12) (s : State) : Out :=
  let p := s.pick
  let l := p.ls
  let rejoin := s.laneRelative off
  let lanes (n : Nat) : List Nat := ((List.range 4).filter (fun j => (l.strand n).mask.getLsbD j)).map (4 * n + ·)
  let nested (n : Nat) : Bool := (lanes n).any (fun i => (p.txs.lookup i).isSome)
  let ok := s.fragment.members.filter (fun n => !nested n)
  let full := ok.filter (fun n => decide (32 ≤ (l.strand n).stack.length))
  if !full.isEmpty then s.trapL .rstackOvf (BitVec.ofNat 64 (maskOf full)) (l.lanesOf full)
  else
    let bad := (s.fragment.members.flatMap lanes).filter (fun i => (p.txs.lookup i).isSome)
    let into := ok.flatMap lanes
    let m := BitVec.ofNat 32 (maskOf into)
    s.laneCommit stall s.fragLanes [] (writeTo d m (fun _ => 0) 4)
      (fun n x => if ok.contains n then x.txBegin rejoin else moveAborting p.modeTxs bad (fun _ x => x) n x)
      (fun s =>
        let p1 := s.pick.abortAll (bad.map (fun i => (i, 4, 0x02, false)))
        s.setPick { p1 with txs := p1.txs ++ into.map (fun i =>
          (i, { status := d, height := (l.strand (i / 4)).stack.length + 1, handler := p.mode : Tx })) })

/-- The write buffer of a transaction as words of memory, each with its copy (R466). -/
def Tx.unit (x : Tx) : List Bits :=
  x.writes.flatMap (fun b => (if paMirrored b.1 then [paHome b.1, paTwin b.1] else [b.1]).map (fun l => (l, b.2)))

/-- The words of the lines of a transaction (R195). -/
def Tx.words (x : Tx) : List Nat :=
  ((x.rlines ++ x.wlines).eraseDups).flatMap (fun l => (List.range 32).map (fun k => 128 * l + 4 * k))

/-- A write record with words that it leaves as they are, as a read-modify-write of them: v gives the word before (R198). -/
def WRec.cover (r : WRec) (v : Nat → Word) (locs : List Nat) : WRec :=
  { r with cells := r.cells.map (fun c => if locs.contains c.loc then
        { c with mask := BitVec.allOnes 32, new := mix (v c.loc) c.mask c.new, prior := v c.loc } else c) ++
      (locs.filter (fun l => (r.at_ l).isNone)).map (fun l => ⟨l, BitVec.allOnes 32, v l, v l⟩) }

/-- The commit of a lane's transaction as one read-modify-write of every word of its lines, at device scope (R197, R198): at its
place in coherence order the words read hold what was read; or none. -/
def State.commitTx (s : State) (i : Nat) (x : Tx) : Option State :=
  let y : Sync := { ord := 4, scp := 4 }
  let g := { (s.laneAgent 1 i).as y with pages := x.pages }
  let all := BitVec.allOnes 32
  let ws := (x.words.map (fun l => (l, all, 0))).foldl addBits
    ((x.reads.map (fun b => (b.1, b.2.1, 0))).foldl addBits x.unit) |>.map (fun b => (b.1, b.2.1))
  let at_ := s.placeOf g ws
  let newer : List Nat := match at_ with
    | some n => (upTo n s.wlog).map WRec.id
    | none => []
  let seen := lookBack (fun r => newer.contains r.id) s.wlog (ws.map (fun w => (w.1, w.2, s.wordAt w.1)))
  let now (l : Nat) : Word := ((seen.1.find? (fun b => b.1 == l)).map (·.2.2)).getD 0
  if x.reads.all (fun b => now b.1 &&& b.2.1 == b.2.2 &&& b.2.1) then
    let locs := ws.map (·.1)
    let rels := s.relsOf g y ++ (s.wlog.filter (fun r => seen.2.contains r.id)).flatMap (·.rels)
    let s1 := s.putUnit g rels true at_ x.unit
    let s2 : State := { s1 with wlog := s1.wlog.map (fun r => if r.id = s.nextW then r.cover now x.words else r) }
    some ((((s2.mark g.key seen.2).reach g locs).recallRelease g y).acquire g y locs seen.2)
  else none

/-- Whether the commit of a lane finds a line locked by a commit of another pick, by free choice where one may be under
way (R197). -/
def State.lineLocked (s : State) (i : Nat) (x : Tx) : Bool :=
  let mine := x.rlines ++ x.wlines
  s.picks.any (fun e => e.1 != s.cur && e.2.live && e.2.txs.any (fun t => (t.2.rlines ++ t.2.wlines).any mine.contains)) &&
    s.free 34 i

/-- The commits of lanes in ascending order: the state and the lanes that abort (R197). -/
def State.commitTxs (s : State) : List Nat → State × List Nat
  | [] => (s, [])
  | i :: is =>
    match s.txOf i with
    | none => s.commitTxs is
    | some x =>
      match (if s.lineLocked i x then none else s.commitTx i x) with
      | some s1 =>
        ((s1.setPick { s1.pick with txs := s1.pick.txs.filter (fun e => e.1 != i) }).count s1.team.die 0x00A 1).commitTxs is
      | none =>
        let (t, l) := s.commitTxs is
        (t, i :: l)

/-- TXEND (R197, R325). -/
def execTxend (stall : BitVec 4) (s : State) : Out :=
  let m := s.fragLanes
  let txs := s.pick.txs
  let lose := conflictLosers txs
  let mine := s.fragment.members
  let fine := (lanesOf m).filter (fun i => (txs.lookup i).isSome && !lose.contains i)
  let fails := (s.commitTxs fine).2
  let aborts := lose ++ fails
  s.laneCommit stall m [] []
    (moveAborting s.pick.modeTxs (aborts.filter (fun i => mine.contains (i / 4))) nextL)
    (fun s =>
      let s1 := (s.commitTxs fine).1
      s1.setPick ((s1.pick.abortAll (aborts.map (fun i => (i, 1, 0, true)))).abortOthers s1.pick.modeTxs
        (aborts.filter (fun i => !mine.contains (i / 4)))))

/-- TXABORT (R326). -/
def execTxabort (h : Hd) (code : BitVec 8) (s : State) : Out :=
  s.laneGate h.pi h.pn [] [] fun s m _ =>
    let ins := (lanesOf m).filter (fun i => (s.pick.txs.lookup i).isSome)
    s.laneCommit h.stall m [] [] (moveAborting s.pick.modeTxs ins nextL)
      (fun s => s.setPick (s.pick.abortAll (ins.map (fun i => (i, 3, code.toNat, false)))))

/-! ## Accumulator access (R328, R329) -/

/-- The tile word that a lane names (R328). -/
def tileWord (tile : BitVec 4) (a : Word) : Nat := tile.toNat * 16384 + bits a.toNat 8 7 * 128 + bits a.toNat 0 7

/-- The lanes that would read a poisoned tile word trap (R328). TVAL has no rule there: it is free. -/
def State.tileGate (s : State) (m : Word) (w : Nat → Nat) (k : Unit → Out) : Out :=
  let bad := (lanesOf m).filter (fun i => s.team.tilePoison.contains (w i))
  if bad.isEmpty then k () else s.trapL .dataPoison ((s.freeW 15 0 ++ s.freeW 15 1 : BitVec 64)) (BitVec.ofNat 32 (maskOf bad))

/-- What lanes' reads of tile words leave behind (R175). -/
def State.noteTiles (s0 s : State) (path : Nat) (w : Nat → Nat) (lanes : List Nat) : State :=
  lanes.foldl (fun s i =>
    let g := s0.laneAgent path i
    s.mark g.key (s0.lookAt g [(tileLoc s0.pick.team (w i), BitVec.allOnes 32)]).2) s

/-- Lanes access tile words: what they still have to load of them is settled (R175). -/
def State.settleTiles (s : State) (before : Nat) (w : Nat → Nat) (lanes : List Nat) : State :=
  s.setPick (s.pick.supersede before (lanes.map (fun i => (i, [tileLoc s.pick.team (w i)]))))

/-- VACCR (R80, R328): variable-latency, of no batch (R164). -/
def execVaccr (h : Hd) (d : BitVec 8) (a : Src) (mt : BitVec 4) (s : State) : Out :=
  if lrTiles s.team.lr ≤ mt.toNat then s.trapL .illOperand s.opc 0
  else s.laneGate h.pi h.pn [] [(a, 1)] fun s m val =>
    let w (i : Nat) : Nat := tileWord mt (val 0 0 i)
    s.tileGate m w fun _ =>
      let ws := match destOf d with
        | some (.vreg r) => [{ dest := .vreg r, mask := m, lat := none
                               vals := lanesWith m (fun i => s.readTile (s.laneAgent 0 i) s.pick.team (w i))
                               late := (lanesOf m).map (fun i =>
                                 ⟨i, [(List.range 4).map (fun k => (tileLoc s.pick.team (w i), k))], [], 0, none⟩) : Write }]
        | _ => []
      s.laneCommit h.stall m [(a, 1)] ws nextL (fun s1 => s.noteTiles (s1.settleTiles s.pick.pseq w (lanesOf m)) 0 w (lanesOf m))

/-- VACCW of one lane: a write, or with ADD a read and a write that the write of another agent may come between (R329). -/
def State.accWrite (s : State) (add : Bool) (w i : Nat) (v : Word) : State :=
  let g := s.laneAgent 1 i
  let t := s.pick.team
  if add then (s.noteTiles s 1 (fun _ => w) [i]).writeTile g t w (roundFp32 ((fp32 (s.readTile g t w)).add (fp32 v)))
  else s.writeTile g t w v

/-- What lanes below have written to a tile word in this instruction comes before what lane i does to it (R328). -/
def State.orderTile (s : State) (since w i : Nat) : State :=
  let loc := tileLoc s.pick.team w
  s.learn (s.laneAgent 1 i).key ((s.wlog.filter (fun r => decide (since ≤ r.id) && (r.at_ loc).isSome)).map (·.id))

/-- VACCW (R80, R328): the lanes in ascending order. -/
def execVaccw (h : Hd) (a b : Src) (mt : BitVec 4) (add : BitVec 1) (s : State) : Out :=
  if lrTiles s.team.lr ≤ mt.toNat then s.trapL .illOperand s.opc 0
  else s.laneGate h.pi h.pn [] [(a, 1), (b, 1)] fun s m val =>
    let w (i : Nat) : Nat := tileWord mt (val 0 0 i)
    s.tileGate (if add = 1 then m else 0) w fun _ =>
      s.laneCommit h.stall m [(a, 1), (b, 1)] [] nextL fun s1 =>
        (lanesOf m).foldl (fun s i => (s.orderTile s1.nextW (w i) i).accWrite (add == 1) (w i) i (val 1 0 i))
          (s1.settleTiles s.pick.pseq w (lanesOf m))

end Sys2Proof.Machine
end

