-- ==== Sys2Proof/Machine/Gather.lean ====
section
/-! DEFINITION. The gather engine: GA.GATH, GA.SCAT and GA.SEGRED (R358 to R360). -/

namespace Sys2Proof.Machine

/-- The element size in bytes. -/
def Op.gaSize (o : Op) : Nat := 2 ^ o.f 152 2

/-- The issue-time checks of a gather descriptor (R332, R358). -/
def gaFields (func d : Nat) : List FieldCheck :=
  let z := 2 ^ bits d 152 2
  let seg := func == 0x2A
  [ (0, bits d 0 56 % z != 0), unusedField d 57 7, (64, bits d 64 20 % 4 != 0), unusedField d 84 12,
    (96, bits d 96 20 % z != 0), unusedField d 116 12, (128, bits d 128 20 == 0), unusedField d 148 4,
    (154, if seg then decide (9 ≤ bits d 154 4) else bits d 154 4 != 0), (158, !seg && bit d 158),
    (160, bits d 160 32 == 0), unusedField d 192 64 ]

/-- The write region of a gather operation (R359, R360). -/
def Op.gaRegion (o : Op) : Region :=
  if o.func = 0x28 then [(o.f 96 20, o.gaSize * o.f 128 20)]
  else if bit o.desc 56 then [(o.f 0 56, o.gaSize * o.f 160 32)] else []

/-- The identity of an AOP for values of n bytes (R291, R360). -/
def aopIdentity (aop n : Nat) : Nat :=
  match aop with
  | 1 => 0x80000000
  | 2 => 2 ^ (8 * n - 1) - 1
  | 3 => 2 ^ (8 * n - 1)
  | 4 => 2 ^ (8 * n) - 1
  | 6 => 2 ^ (8 * n) - 1
  | _ => 0

/-- The whole effect of a gather operation: the checks of R333, then the elements. -/
def State.gaPlan (s : State) (o : Op) : Except EFail Plan := do
  let z := o.gaSize
  let n := o.f 128 20
  let lim := o.f 160 32
  let gb := o.f 0 56
  let gs := bit o.desc 56
  let la := o.f 96 20
  let aop := o.f 154 4
  need (o.func != 0x2A || o.f 152 2 == 2 || (o.f 152 2 == 3 && aop != 1)) 3 .illOperand
  need (s.inWindow (o.f 64 20) (4 * n) && s.inWindow la (z * n) && (!gs || s.inWindow gb (z * lim))) 5 .bounds
  let all ← (match s.engPieces (s.opAgent o) ((List.range n).map (fun i => ⟨false, o.f 64 20 + 4 * i, 4⟩)) with
    | .error e => .error e.toFail
    | .ok l => .ok l.zipIdx)
  need (bit o.desc 159 || all.all (fun e => decide (e.1 < lim))) 5 .bounds
  let idx := all.filter (fun e => decide (e.1 < lim))
  let read (global : Bool) (a : Nat) : Except EErr Nat := s.engPiece (s.opAgent o) ⟨global, a, z⟩
  let els := match o.func with
    | 0x28 => idx.map (fun (t, i) => (read (!gs) (gb + z * t)).map (fun v => [bytePokes false (la + z * i) z v]))
    | 0x29 => idx.map (fun (t, i) => (read false (la + z * i)).map (fun v => [bytePokes (!gs) (gb + z * t) z v]))
    | _ => (idx.map (·.1)).dedup.map (fun t => do
        let start ← if bit o.desc 158 then .ok (aopIdentity aop z) else read (!gs) (gb + z * t)
        let vs ← (idx.filter (fun e => e.1 == t)).mapM (fun e => read false (la + z * e.2))
        .ok [bytePokes (!gs) (gb + z * t) z (vs.foldl (fun acc v => atomNew aop z acc v 0) start)])
  .ok { s.planOf els (fun _ => idx.length) [] (if o.func = 0x2A then rightRW else rightW) with read := 4 * n + z * idx.length }

end Sys2Proof.Machine
end

