-- ==== Sys2Proof/Machine/Shuttle.lean ====
section
/-! DEFINITION. The shuttle engine: descriptors, write regions and the effect of SH.COPY, SH.TLD, SH.TST, SH.QNT and
SH.FILL (R337 to R344). -/

namespace Sys2Proof.Machine

/-! ## The descriptor (R337, R338) -/

/-- ADDR0, an address in the space SCR0 names. -/
def Op.shA0 (o : Op) : Nat := o.f 0 56
/-- ADDR1. -/
def Op.shA1 (o : Op) : Nat := o.f 64 56
/-- LEN. -/
def Op.shLen (o : Op) : Nat := o.f 128 32
/-- TADDR. -/
def Op.shTaddr (o : Op) : Nat := o.f 200 20
/-- TFMT. -/
def Op.shTfmt (o : Op) : Nat := o.f 222 4
/-- ROWS and COLS. -/
def Op.shShape (o : Op) : Nat × Nat := (o.f 256 16, o.f 272 16)
/-- BADDR. -/
def Op.shBaddr (o : Op) : Nat := o.f 228 20
/-- BAR. -/
def Op.shBar (o : Op) : Bool := bit o.desc 226

/-- The issue-time checks of a shuttle descriptor (R332, R338): function 0 COPY, 1 TLD, 2 TST, 3 QNT, 4 FILL. For nonzero bits
[191:176] of SH.QNT, above THETA, the failing field is taken to begin at 160 with the rest of its word: no rule says so, the
model's choice (log 60). -/
def shFields (fn d : Nat) : List FieldCheck :=
  let tile := fn == 1 || fn == 2 || fn == 3
  let scrBad (lo s : Nat) : Bool := bits d lo 56 % 4 != 0 || (bit d s && bits d (lo + 20) 36 != 0)
  let un (use : Bool) (lo n : Nat) (bad : Bool) : FieldCheck := if use then (lo, bad) else unusedField d lo n
  [ un (!tile) 0 56 (scrBad 0 56), un (!tile) 56 1 false, unusedField d 57 7,
    un (fn == 0) 64 56 (scrBad 64 120), un (fn == 0) 120 1 false, unusedField d 121 7,
    un (!tile) 128 32 (bits d 128 32 == 0 || bits d 128 32 % 4 != 0),
    (if fn = 4 then (160, false) else if fn = 3 then (160, bits d 176 16 != 0) else unusedField d 160 32),
    un tile 192 8 false,
    un tile 200 20 (bits d 200 20 % 4 != 0 || (bits d 220 2 == 1 && bits d 200 20 % 1024 != 0)),
    un tile 220 2 (decide (2 ≤ bits d 220 2)),
    un tile 222 4 (isBpn (bits d 222 4)),
    unusedField d 227 1,
    (228, bit d 226 && bits d 228 20 % 8 != 0),
    unusedField d 248 8,
    un tile 256 16 (bits d 256 16 == 0),
    un tile 272 16 (bits d 272 16 == 0),
    un tile 288 16 false,
    un tile 304 16 false,
    un tile 320 16 (bits d 220 2 == 1 && bits d 320 16 != 0),
    unusedField d 336 176 ]

/-! ## The tile in scratch (R341) -/

/-- The bit offset of tile element (r, c) of width w from byte TADDR. -/
def Op.shBit (o : Op) (w r c : Nat) : Nat :=
  let tp := o.f 320 16
  let p := if tp = 0 then 32 * ((o.shShape.2 * w + 31) / 32) else 32 * tp
  if o.f 220 2 = 0 then r * p + c * w else 8192 * r + 32 * ((c * w / 32 + r) % 256) + c * w % 32

/-- The bytes from TADDR to the one that holds the furthest bit of an element. -/
def Op.shExtent (o : Op) (w : Nat) : Nat :=
  let (rows, cols) := o.shShape
  let last := if o.f 220 2 = 0 then o.shBit w (rows - 1) (cols - 1)
    else ((List.range cols).map (o.shBit w (rows - 1))).foldl max 0
  (last + w + 7) / 8

/-! ## Copies and fills (R339, R340) -/

/-- Whether two byte ranges of one space overlap. -/
def overlaps (a b n : Nat) : Bool := decide (a < b + n ∧ b < a + n)

/-- Byte i of the destination of an overlapping copy: the source byte before the operation, or what the operation wrote
there. dist is how far the destination lies above the source. -/
def State.copyByte (s : State) (src : List Byte) (dist : Int) : Nat → Nat → Byte
  | 0, i => (src[i]?).getD 0
  | fuel + 1, i =>
    let j : Int := i - dist
    if j < 0 ∨ (src.length : Int) ≤ j ∨ s.free 18 (Nat.pair i fuel) then (src[i]?).getD 0
    else s.copyByte src dist fuel j.toNat

/-- The plan of SH.COPY. -/
def State.copyPlan (s : State) (o : Op) : Plan :=
  let g := s.opAgent o
  let n := o.shLen
  let gs := !bit o.desc 56
  let gd := !bit o.desc 120
  if gs == gd && overlaps o.shA0 o.shA1 n then
    match s.engPieces g ((List.range (n / 4)).map (fun i => ⟨gs, o.shA0 + 4 * i, 4⟩)) with
    | .error e => { bad := some e }
    | .ok ws =>
      let src := ws.flatMap (leBytes 4)
      let dist : Int := (o.shA1 : Int) - o.shA0
      { s.planOf ((List.range (n / 4)).map (fun i => .ok [.elem ((List.range 4).map (fun k =>
          ⟨gd, o.shA1 + 4 * i + k, 0xFF, if dist = 0 then (src[4 * i + k]?).getD 0
            else s.copyByte src dist n (4 * i + k)⟩))])) (fun _ => n) [] with read := n }
  else
    { s.planOf ((List.range (n / 4)).map (fun i =>
        match s.engPiece g ⟨gs, o.shA0 + 4 * i, 4⟩ with
        | .error e => .error e
        | .ok v => .ok [bytePokes gd (o.shA1 + 4 * i) 4 v])) (fun _ => n) [] with read := n }

/-- The plan of SH.FILL. -/
def State.fillPlan (s : State) (o : Op) : Plan :=
  let n := o.shLen
  s.planOf ((List.range (n / 4)).map (fun i => .ok [bytePokes (!bit o.desc 56) (o.shA0 + 4 * i) 4 (o.f 160 32)]))
    (fun _ => n) []

/-! ## Tiles and records (R341 to R343) -/

/-- The record element of tile element (r, c). -/
def Op.shPlace (o : Op) (x r c : Nat) : Place :=
  recPlace x (if recTwo x then (o.f 288 16 + r) * 65536 + (o.f 304 16 + c) else o.f 304 16 + c)

/-- The tile elements in row order with their numbers. -/
def Op.shElems (o : Op) : List (Nat × Nat × Nat) :=
  let (rows, cols) := o.shShape
  (List.range rows).flatMap (fun r => (List.range cols).map (fun c => (r, c, r * cols + c)))

/-- The write region of a shuttle operation (R335, R339 to R344): for SH.TST through a record in scratch what it writes
there (R150); SH.QNT has none, as R344 says. -/
def State.shRegion (s : State) (fn : Nat) (o : Op) : Region :=
  match fn with
  | 0 => if bit o.desc 120 then [(o.shA1, o.shLen)] else []
  | 4 => if bit o.desc 56 then [(o.shA0, o.shLen)] else []
  | 1 => match s.fmtGet s.team o.shTfmt with
    | .fmt f => [(o.shTaddr, o.shExtent f.width)]
    | _ => []
  | 2 => match s.engRecord o (o.f 192 8) (fun x => bEnc x == 4 || bWro x) with
    | .ok x => granulesOf x ((o.shElems.map (fun (r, c, _) => o.shPlace x r c)).filter (recInRange x))
    | .error _ => []
  | _ => []

/-- The shape rules of step 3 that the three tile functions share. -/
def Op.shShapeOk (o : Op) (x w : Nat) : Bool :=
  let (rows, cols) := o.shShape
  (recTwo x || (rows == 1 && o.f 288 16 == 0)) &&
  decide (o.f 288 16 + rows ≤ 65536 ∧ o.f 304 16 + cols ≤ 65536) &&
  (o.f 220 2 == 0 || decide (cols * w ≤ 8192))

/-- Whether the bytes of an element of a record in scratch lie in the window (step 5). -/
def State.placeInWindow (s : State) (x : Nat) (p : Place) : Bool :=
  !bScr x || (recPieces x p).all (fun q => s.inWindow q.addr q.len)

/-- The element that a read under ORP takes: none for +0 (R160). -/
def recSource (x : Nat) (p : Place) : Option Place :=
  if recInRange x p then some p else if bOrp x = 1 then recClamp x else none

/-- Step 5 for a barrier object (R335). -/
def State.shBarOk (s : State) (o : Op) : Bool := !o.shBar || s.inWindow o.shBaddr 8

/-- The element that SH.TLD writes from the record element at a place (R342). -/
def State.tldCode (s : State) (o : Op) (x : Nat) (p : Place) (e : Nat) : Except EErr Nat :=
  let g := s.opAgent o
  let tf := s.fmtD o.shTfmt
  let (_, ef, sf) := s.recFmts s.team x
  match recSource x p with
  | none => .ok (if bEnc x < 2 then 0 else tf.encode (.zero false) 0 false 0)
  | some q =>
    match s.engPieces g (recPieces x q) with
    | .error er => .error er
    | .ok vs =>
      match s.engPieces g (recExtra x sf q) with
      | .error er => .error er
      | .ok ex =>
        let c := recBits x q vs
        let fm := o.fmtr.toNat
        if bEnc x = 0 then .ok c
        else if bEnc x = 1 then .ok (if bSxt x then (wordOf (sextN c (bWidth x))).toNat else c)
        else .ok (match recExact x ef sf q c ex (recPlanes x fm) (bit fm 26) with
          | some v => tf.encode v (bits fm 16 3) (bit fm 19) (drawBits o.seed e)
          | none => tf.nanOrZero)

/-- SH.TLD (R342). -/
def State.tldPlan (s : State) (o : Op) : Except EFail Plan := do
  s.boundAll [o.shTfmt]
  let w := (s.fmtD o.shTfmt).width
  let x ← s.engRecord o (o.f 192 8) (fun _ => false)
  need (o.shShapeOk x w && (decide (2 ≤ bEnc x) || o.shTfmt == 12)) 3 .illOperand
  let els := o.shElems.map (fun (r, c, e) => (r, c, e, o.shPlace x r c))
  need (s.inWindow o.shTaddr (o.shExtent w) && s.shBarOk o &&
    els.all (fun (_, _, _, p) => (bOrp x != 0 || recInRange x p) &&
      (match recSource x p with | some q => s.placeInWindow x q | none => true))) 5 .bounds
  let reads := (els.map (fun (_, _, _, p) => ((recPieces x p).map (·.len)).sum)).sum
  .ok { s.planOf (els.map (fun (r, c, e, p) =>
    match s.tldCode o x p e with
    | .error er => .error er
    | .ok v => .ok [bitPokes false o.shTaddr (o.shBit w r c) w v])) bytesWritten [] with read := reads }

/-- The padding of a BPN tensor's last block that an operation writes as zero (R117): positions above the last one that it
writes, to the end of the block. No rule says where a tensor in a record ends: from which position on the block is padding, if at
all, is free (log 47). -/
def State.recPadding (s : State) (x : Nat) (qs : List Nat) : List Nat :=
  let top := qs.foldl max 0
  if bEnc x = 2 ∧ !qs.isEmpty then
    let n := 255 - top % 256
    let k := s.freeTo 33 (top / 256) n
    (List.range k).map (fun i => top + 1 + (n - k) + i)
  else []

/-- SH.TST (R343). -/
def State.tstPlan (s : State) (o : Op) : Except EFail Plan := do
  s.boundAll [o.shTfmt]
  let tf := s.fmtD o.shTfmt
  let w := tf.width
  let x ← s.engRecord o (o.f 192 8) (fun x => bEnc x == 4 || bWro x)
  need (o.shShapeOk x w && (decide (2 ≤ bEnc x) || o.shTfmt == 12)) 3 .illOperand
  let els := o.shElems.map (fun (r, c, _) => (r, c, o.shPlace x r c))
  let ins := els.filter (fun (_, _, p) => recInRange x p)
  let padding := (s.recPadding x (ins.map (fun (_, _, p) => recPos x p))).map Place.planes
  need (s.inWindow o.shTaddr (o.shExtent w) && s.shBarOk o && padding.all (s.placeInWindow x) &&
    els.all (fun (_, _, p) => if recInRange x p then s.placeInWindow x p else bOrp x != 0)) 5 .bounds
  let (_, ef, _) := s.recFmts s.team x
  let elems := ins.map (fun (r, c, p) =>
    match s.engBits (s.opAgent o) o.shTaddr (o.shBit w r c) w with
    | .error er => .error er
    | .ok v => .ok [EWrite.elem (recPokes x p (recStore x tf ef (BitVec.ofNat 32 v)))])
  let pad := padding.map (fun p => .ok [EWrite.elem (recPokes x p 0)])
  .ok { s.planOf (elems ++ pad) bytesWritten [] with
    read := (els.length * w + 7) / 8 }

/-! ## Quantising (R344) -/

/-- The greatest m with m and −m values of a format, or its greatest value when it has no negative one. -/
def Fmt.symmetricMax (f : Fmt) : Option ℚ :=
  let top (l : List ℚ) : Option ℚ := (l.filter (fun v => decide (0 < v))).max?
  match f with
  | .mf e m bias spec _ _ _ _ => some (mfMag m bias (mfMaxCode e m spec))
  | .int w signed off _ _ =>
    let lo : Int := (if signed then -2 ^ (w - 1) else 0) + off
    let hi : Int := lo + 2 ^ w - 1
    let m : Int := if lo < 0 then min hi (-lo) else hi
    if 0 < m then some (m : ℚ) else none
  | .set _ vals _ _ _ =>
    let vs := vals.map (·.2)
    if vs.any (fun v => decide (v < 0)) then top (vs.filter (fun v => vs.contains (-v))) else top vs

/-- The finite magnitude of a value. -/
def Ext.finiteAbs : Ext → Option ℚ
  | .real q => some (absQ q)
  | .zero _ => some 0
  | _ => none

/-- An element that SH.QNT works on: record position, element number, place, exact value. -/
structure QElem where
  q : Nat
  e : Nat
  p : Place
  x : Ext

/-- The group of positions that is worked out by itself: a scale block, a side-list block, or one element. -/
def qntGroup (x q : Nat) : Nat := match bSmode x with | 0 => q / 2 ^ bSbl x | 1 => q / 32 | _ => q

/-- The outliers of a side-list block: at most two, of greatest magnitude, ties to the lower position. -/
def outliers (theta : Ext) (es : List QElem) : List QElem :=
  match theta with
  | .real t =>
    if t ≤ 0 then []
    else
      let mu := ((es.filterMap (fun k => k.x.finiteAbs)).sum) / 32
      let cand := es.filter (fun k => match k.x.finiteAbs with | some a => decide (t * mu < a) | none => false)
      let a (k : QElem) : ℚ := k.x.finiteAbs.getD 0
      let top := (cand.insertionSort (fun k l => a l < a k ∨ (a k = a l ∧ k.q ≤ l.q))).take 2
      es.filter (fun k => top.any (fun l => l.q == k.q))
  | _ => []

/-- The side-list entry of a block with these outliers in ascending position. -/
def sideEntry (os : List QElem) : Nat :=
  let val (k : QElem) : Nat := bf16.encode k.x 0 false 0
  match os with
  | [] => 0
  | [a] => a.q % 32 + val a * 2 ^ 16 + 2 ^ 48
  | a :: b :: _ => a.q % 32 + b.q % 32 * 2 ^ 8 + val a * 2 ^ 16 + val b * 2 ^ 32 + 2 * 2 ^ 48

/-- What SH.QNT writes for one scale block, of number h, with its outliers. An element of ±0 gives the exact quotient 0, encoded as
+0 (R111, R127). -/
def State.qntBlock (s : State) (o : Op) (x h : Nat) (m : ℚ) (os es : List QElem) : Except EErr (List EWrite) :=
  let (_, ef, sf) := s.recFmts s.team x
  let z := scaleBytes sf
  let fm := o.fmtr.toNat
  let out (k : QElem) : Bool := os.any (fun l => l.q == k.q)
  let elems (sc : Ext) : List EWrite := es.map (fun k =>
    let c := if out k || sc.isZero then ef.encode (.zero false) 0 false 0
      else ef.encode (if k.x.isZero then .zero false else k.x.div sc) (bits fm 16 3) (bit fm 19) (drawBits o.seed k.e)
    .elem (recPokes x k.p c))
  if bSmode x = 2 then
    match s.engPiece (s.opAgent o) ⟨true, bSbase x, z⟩ with
    | .error er => .error er
    | .ok v => .ok (elems (sf.decode (bits v 0 sf.width)))
  else
    let amax := ((es.filter (fun k => !out k)).filterMap (fun k => k.x.finiteAbs)).foldl (fun a v => if a < v then v else a) 0
    let sc := sf.encode (Ext.ofRat (amax / m)) 3 true 0
    .ok (bytePokes true (bSbase x + z * h) z sc :: elems (sf.decode sc))

/-- SH.QNT (R344). -/
def State.qntPlan (s : State) (o : Op) : Except EFail Plan := do
  s.boundAll [o.shTfmt]
  let tf := s.fmtD o.shTfmt
  let w := tf.width
  let x ← s.engRecord o (o.f 192 8) bWro
  let (_, ef, _) := s.recFmts s.team x
  let els := o.shElems.map (fun (r, c, e) => (r, c, e, o.shPlace x r c))
  let qs := els.map (fun (_, _, _, p) => recPos x p)
  let whole (b : Nat) : Bool := (qs.map (· / b)).dedup.all (fun h => (List.range b).all (fun k =>
    qs.contains (b * h + k) || !recInRange x (.lin ((b * h + k) * bWidth x))))
  need (bEnc x == 4 && bIlv x == 0 && decide (bits x 272 32 ≤ 1) && o.shShapeOk x w && ef.symmetricMax.isSome &&
    (bSmode x == 2 || whole (2 ^ bSbl x)) && (bSmode x != 1 || whole 32)) 3 .illOperand
  need (s.inWindow o.shTaddr (o.shExtent w) && s.shBarOk o &&
    els.all (fun (_, _, _, p) => !recInRange x p || s.placeInWindow x p)) 5 .bounds
  let read := (els.filter (fun (_, _, _, p) => recInRange x p)).map (fun (r, c, e, p) =>
    (recPos x p, (s.engBits (s.opAgent o) o.shTaddr (o.shBit w r c) w).map (fun v => (⟨recPos x p, e, p, tf.decode v⟩ : QElem))))
  let m := ef.symmetricMax.getD 1
  let theta := f16.decode (o.f 160 16)
  let one (g : Nat) : Except EErr (List EWrite) := do
    let es ← (read.filter (fun k => qntGroup x k.1 == g)).mapM (·.2)
    let es := es.insertionSort (fun a b => a.q ≤ b.q)
    let os := if bSmode x = 1 then outliers theta es else []
    let side := if bSmode x = 1 && (match theta with | .real t => decide (0 < t) | _ => false) then
      [bytePokes true (bObase x + 8 * g) 8 (sideEntry os)] else []
    let hs := if bSmode x = 2 then [0] else (es.map (fun k => k.q / 2 ^ bSbl x)).dedup
    let parts ← hs.mapM (fun h => s.qntBlock o x h m os
      (if bSmode x = 2 then es else es.filter (fun k => k.q / 2 ^ bSbl x == h)))
    .ok (side ++ parts.flatten)
  .ok { s.planOf ((read.map (fun k => qntGroup x k.1)).dedup.map one) bytesWritten [] with read := (read.length * w + 7) / 8 }

/-- The whole effect of a shuttle operation, after steps 1 to 6 of R333. -/
def State.shPlan (s : State) (o : Op) : Except EFail Plan :=
  let reg (global : Bool) (a : Nat) : Bool := global || s.inWindow a o.shLen
  match o.func with
  | 0x00 => do
    need (reg (!bit o.desc 56) o.shA0 && reg (!bit o.desc 120) o.shA1 && s.shBarOk o) 5 .bounds
    .ok (s.copyPlan o)
  | 0x01 => s.tldPlan o
  | 0x02 => s.tstPlan o
  | 0x03 => s.qntPlan o
  | _ => do
    need (reg (!bit o.desc 56) o.shA0 && s.shBarOk o) 5 .bounds
    .ok (s.fillPlan o)

end Sys2Proof.Machine
end

