-- ==== Sys2Proof/Machine/Matrix.lean ====
section
/-! DEFINITION. The matrix engine: descriptors, operand layouts, format rules, and the effect of MX.MMA, MX.MMAJ, MX.UNF,
MX.MV, MX.OUT, MX.ZERO and MX.ST (R136 to R140, R345 to R357). -/

namespace Sys2Proof.Machine

/-! ## The descriptor (R345, R346) -/

/-- Resolved M, N and K. -/
def Op.mxDims (o : Op) : Nat × Nat × Nat :=
  let t := o.tcfg.toNat
  let or (x d : Nat) : Nat := if x = 0 then d else x
  (or (o.f 4 8) (bits t 0 7 + 1), or (o.f 12 8) (bits t 7 7 + 1), or (o.f 20 15) (16 * (bits t 14 10 + 1)))

/-- Resolved A layout. -/
def Op.mxAlay (o : Op) : Nat := if bit o.desc 38 then o.f 36 2 else bits o.tcfg.toNat 24 2
/-- Resolved B layout. -/
def Op.mxBlay (o : Op) : Nat := if bit o.desc 41 then o.f 39 2 else bits o.tcfg.toNat 26 2
/-- SC. -/
def Op.mxSc (o : Op) : Bool := bit o.desc 42
/-- The scale block length of SBL. -/
def Op.mxBlock (o : Op) : Nat := if bit o.desc 43 then 32 else 16
/-- SFMT. -/
def Op.mxSfmt (o : Op) : Nat := o.f 44 4
/-- SCNT. -/
def Op.mxScnt (o : Op) : Nat := o.f 224 16
/-- FA, FB, FC and FD of the snapshot. -/
def Op.fa (o : Op) : Nat := bits o.fmtr.toNat 0 4
/-- FB. -/
def Op.fb (o : Op) : Nat := bits o.fmtr.toNat 4 4
/-- FC. -/
def Op.fc (o : Op) : Nat := bits o.fmtr.toNat 8 4
/-- FD. -/
def Op.fd (o : Op) : Nat := bits o.fmtr.toNat 12 4

/-- Which descriptor fields a matrix function uses, by their low bits (R346). -/
def mxUses (func : Nat) : List Nat :=
  match func with
  | 0x12 => [0, 4, 12, 20, 35, 39, 41, 52, 64, 96, 208, 288, 304, 320, 384]
  | 0x13 => [0, 4, 12, 20, 35, 36, 38, 42, 43, 44, 48, 56, 64, 128, 192, 224, 256, 272]
  | 0x14 => [0, 4, 12, 20, 35, 39, 41, 42, 43, 44, 52, 56, 96, 160, 208, 224, 256, 272]
  | 0x16 => [0, 4, 12, 36, 38, 56, 64, 192, 240, 256, 272]
  | _ => [0, 4, 12, 20, 35, 36, 38, 39, 41, 42, 43, 44, 48, 52, 64, 96, 128, 160, 192, 208, 224]

/-- The issue-time checks of a matrix descriptor with the team's number of tiles. -/
def mxFields (func tiles d : Nat) : List FieldCheck :=
  let used := mxUses func
  let f (lo n : Nat) (bad : Bool) : FieldCheck := if used.contains lo then (lo, bad) else unusedField d lo n
  let nosc (lo n : Nat) : Bool := !bit d 42 && bits d lo n != 0
  let lay (lo own : Nat) : Bool := if bit d own then bits d lo 2 == 3 else bits d lo 2 != 0
  let addr (lo : Nat) : Bool := bits d lo 20 % 4 != 0
  [ f 0 4 (decide (tiles ≤ bits d 0 4)),
    f 4 8 (decide (128 < bits d 4 8) || (func == 0x13 && decide (8 < bits d 4 8))),
    f 12 8 (decide (128 < bits d 12 8)), f 20 15 (decide (16384 < bits d 20 15)), f 35 1 false,
    f 36 2 (lay 36 38), f 38 1 false, f 39 2 (lay 39 41), f 41 1 false, f 42 1 false,
    f 43 1 (nosc 43 1), f 44 4 (nosc 44 4), f 48 4 (decide (9 ≤ bits d 48 4)), f 52 4 (decide (9 ≤ bits d 52 4)),
    f 56 8 false, f 64 20 (addr 64), unusedField d 84 12, f 96 20 (addr 96), unusedField d 116 12,
    f 128 20 (addr 128 || nosc 128 20), unusedField d 148 12, f 160 20 (addr 160 || nosc 160 20), unusedField d 180 12,
    f 192 16 false, f 208 16 false, f 224 16 (nosc 224 16), f 240 1 false, unusedField d 241 15,
    f 256 16 false, f 272 16 false, f 288 16 false, f 304 16 false, f 320 16 false ] ++
  (List.range 10).map (fun k => if func = 0x12 then (336 + 4 * k, false) else unusedField d (336 + 4 * k) 4) ++
  [ unusedField d 376 8, f 384 16 false, unusedField d 400 112 ]

/-- The checks with a resolved M that the TCFG gives (R346: MX.MV takes at most 8 rows). -/
def Op.mxChecks (o : Op) (tiles : Nat) : List FieldCheck :=
  mxFields o.func tiles o.desc ++ (if o.func = 0x13 ∧ 8 < o.mxDims.1 then [(4, true)] else [])

/-! ## Operand layouts (R347) -/

/-- A scratch operand: address, layout, width or planes, pitch, rows of the outer dimension and length of the inner one.
Elements run along the inner dimension; across is set where the layout's outer dimension is the other one. -/
structure Operand where
  addr : Nat
  diag : Bool
  bpn : Bool
  w : Nat
  pitch : Nat
  outer : Nat
  inner : Nat

/-- The bit offset of the element at (outer a, inner b). -/
def Operand.off (x : Operand) (a b : Nat) : Nat :=
  if x.bpn then
    let p := if x.pitch = 0 then 32 * x.w * ((x.inner + 255) / 256) else 4 * x.pitch
    8 * (a * p + 32 * x.w * (b / 256) + b % 256 / 8) + b % 8
  else if x.diag then 8192 * a + 32 * ((b * x.w / 32 + a) % 256) + b * x.w % 32
  else a * (if x.pitch = 0 then 32 * ((x.inner * x.w + 31) / 32) else 32 * x.pitch) + b * x.w

/-- The bytes from the address to the furthest bit of any element. -/
def Operand.extent (x : Operand) : Nat :=
  let bits := if x.bpn then x.off (x.outer - 1) (x.inner - 1) + 256 * (x.w - 1) + 1
    else if x.diag then ((List.range x.inner).map (x.off (x.outer - 1))).foldl max 0 + x.w
    else x.off (x.outer - 1) (x.inner - 1) + x.w
  (bits + 7) / 8

/-- Whether the diagonal conditions hold, and a BPN operand runs along k. -/
def Operand.ok (x : Operand) (alongK : Bool) : Bool :=
  (!x.diag || (x.addr % 1024 == 0 && x.pitch == 0 && decide (x.inner * x.w ≤ 8192))) && (!x.bpn || (alongK && !x.diag))

/-- The stored bits of an element: its code, or its planes, the most significant first. -/
def State.operandBits (s : State) (g : Agent) (x : Operand) (a b : Nat) : Except EErr Nat :=
  let at_ := x.off a b
  if x.bpn then
    match (List.range x.w).mapM (fun k => s.engBits g x.addr (at_ + 256 * k) 1) with
    | .error e => .error e
    | .ok vs => .ok (vs.foldl (fun c v => 2 * c + v) 0)
  else s.engBits g x.addr at_ x.w

/-- The value of an element of an operand with format code f and p planes to read. -/
def State.operandVal (s : State) (g : Agent) (x : Operand) (f p : Nat) (ctr : Bool) (a b : Nat) : Except EErr Ext :=
  (s.operandBits g x a b).map (fun c =>
    if x.bpn then bpnRead x.w p (f == 13) ctr c else (s.fmtD f).decode c)

/-- The operand A of a function, along k for rows. -/
def Op.operandA (o : Op) (m k w : Nat) (bpn : Bool) : Operand :=
  let across := o.mxAlay == 1
  { addr := o.f 64 20, diag := o.mxAlay == 2, bpn, w, pitch := o.f 192 16
    outer := if across then k else m, inner := if across then m else k }

/-- The operand B. -/
def Op.operandB (o : Op) (k n w : Nat) (bpn : Bool) : Operand :=
  let along := o.mxBlay != 0
  { addr := o.f 96 20, diag := o.mxBlay == 2, bpn, w, pitch := o.f 208 16
    outer := if along then n else k, inner := if along then k else n }

/-- The record element of B element (k, j), or of tile element (i, j) for MX.ST. -/
def Op.mxPlace (o : Op) (x row col : Nat) : Place := recPlace x ((o.f 256 16 + row) * 65536 + (o.f 272 16 + col))

/-- The write region of MX.ST (R356): through a record in scratch what it writes there (R150). -/
def State.mxRegion (s : State) (o : Op) : Region :=
  let (m, n, _) := o.mxDims
  if o.func ≠ 0x16 then []
  else if bit o.desc 240 then
    match s.engRecord o (o.f 56 8) (fun x => bEnc x == 4 || bWro x) with
    | .ok x => granulesOf x (((List.range m).flatMap (fun i => (List.range n).map (o.mxPlace x i))).filter (recInRange x))
    | .error _ => []
  else match s.fmtGet s.team o.fd with
    | .fmt f => [(o.f 64 20, (o.operandA m n f.width false).extent)]
    | _ => []

/-! ## Format rules (R139, R140, R348) -/

/-- Whether a code names the 16-bit class, the narrow classes, or no matrix operand. -/
def State.mxClass (s : State) (c : Nat) : Option Bool :=
  if isBpn c then some false
  else if c = 8 ∨ c = 12 then none
  else
    let f := s.fmtD c
    if f.isScale then none else some (decide (8 < f.width))

/-- Whether a code names an integer operand (R140). -/
def State.mxInt (s : State) (c : Nat) : Bool := isBpn c || (s.fmtD c).isInt

/-- R139 and R140 for operands of codes a and b; scaled: scales are supplied. -/
def State.mxFormats (s : State) (a b fc : Nat) (scaled : Bool) : Bool :=
  (match s.mxClass a, s.mxClass b with
   | some x, some y => x == y && !(x && scaled)
   | _, _ => false) &&
  (fc == 8 || (fc == 12 && !scaled && s.mxInt a && s.mxInt b))

/-- The NPL rule of R348 for a code. -/
def nplOk (c npl : Nat) : Bool := isBpn c == (npl != 0)

/-- The width of an operand: its format's, or its stored planes. -/
def State.mxWidth (s : State) (c npl : Nat) : Nat := if isBpn c then npl else (s.fmtD c).width

/-! ## Contributions (R137, R138) -/

/-- One element of B as a group takes it: value, scale block (none for an exact 0 that no element supplies), scale. -/
abbrev BElem := Ext × Option Nat × Ext

/-- The contribution of a group: elements of A with their scale, elements of B. Elements of one group that lie in
different scale blocks of a record contribute block by block (DEDUCED, log 13). -/
def contribution (as : List Ext) (sa : Ext) (bs : List BElem) : Ext :=
  let first : Option Nat × Ext := ((bs.find? (fun b => b.2.1.isSome)).map (·.2)).getD (none, .real 1)
  let bs := bs.map (fun b => if b.2.1.isNone then (b.1, first) else b)
  let keys := (bs.map (·.2.1)).dedup
  let ps := as.zip bs
  let part (k : Option Nat) : Ext :=
    let l := ps.filter (fun p => p.2.2.1 == k)
    groupSum (l.map (fun p => (p.1, p.2.1))) sa (((l.head?).map (fun p => p.2.2.2)).getD (.real 1))
  match keys.map part with
  | [] => .zero false
  | c :: cs => cs.foldl Ext.add c

/-- The accumulator after each group, the value before the first one included, and the failure met. -/
def accumulated (int : Bool) : Word → List (Except EErr (List Ext × Ext)) → List (Except EErr (List BElem)) →
    List Word × Option EErr
  | acc, a :: as, b :: bs =>
    match a, b with
    | .ok (xs, sa), .ok ys =>
      let c := contribution xs sa ys
      let (l, e) := accumulated int (if int then acc + wordOf (floorQ c.toRat) else accumulate acc c) as bs
      (acc :: l, e)
    | .error e, _ => ([acc], some e)
    | _, .error e => ([acc], some e)
  | acc, _, _ => ([acc], none)

/-- The word of a tile element. -/
def mxWord (tile i j : Nat) : Nat := tile * 16384 + i * 128 + j

/-- The plan of a product: rows of A and columns of B in groups, over the M × N elements of a tile (R349, R357). -/
def State.productPlan (s : State) (o : Op) (m n : Nat) (as : List (List (Except EErr (List Ext × Ext))))
    (bs : List (List (Except EErr (List BElem)))) : Plan :=
  let tile := o.f 0 4
  let el (i j : Nat) : Nat × List Word × Option EErr :=
    let w := mxWord tile i j
    match (if bit o.desc 35 then .ok 0 else s.engTile (s.opAgent o) w) with
    | .error e => (w, [], some e)
    | .ok v => (w, accumulated (o.fc == 12) v ((as[i]?).getD []) ((bs[j]?).getD []))
  let els := (List.range m).flatMap (fun i => (List.range n).map (el i))
  let errs := els.filterMap (fun e => e.2.2)
  match errs.find? EErr.replays <|> errs.head? with
  | none => { writes := els.filterMap (fun e => (e.2.1.getLast?).map (.tile e.1)) }
  | some er =>
    { writes := els.filterMap (fun e => (e.2.1[s.freeN 19 e.1 % max 1 e.2.1.length]?).map (.tile e.1)), bad := some er }

/-- The k of group g of length b. -/
def groupKs (k b g : Nat) : List Nat := ((List.range b).map (b * g + ·)).filter (· < k)

/-- The groups of a row of A. -/
def rowGroups (k b : Nat) (val : Nat → Except EErr Ext) (scale : Nat → Except EErr Ext) :
    List (Except EErr (List Ext × Ext)) :=
  (List.range ((k + b - 1) / b)).map (fun g =>
    match (groupKs k b g).mapM val with
    | .error e => .error e
    | .ok xs => (scale g).map (fun sa => (xs, sa)))

/-- The groups of a column of B. -/
def colGroups (k b : Nat) (val : Nat → Except EErr BElem) : List (Except EErr (List BElem)) :=
  (List.range ((k + b - 1) / b)).map (fun g => (groupKs k b g).mapM val)

/-- Scale number i of the scales at an address. -/
def State.mxScale (s : State) (g : Agent) (o : Op) (base i : Nat) : Except EErr Ext :=
  let f := s.fmtD o.mxSfmt
  let z := scaleBytes f
  (s.engPiece g ⟨false, base + z * i, z⟩).map (fun v => f.decode (bits v 0 f.width))

/-- The scale bytes of n rows. -/
def State.mxScaleBytes (s : State) (o : Op) (n : Nat) : Nat := scaleBytes (s.fmtD o.mxSfmt) * n * o.mxScnt

/-- Column j of B in scratch, in groups; read by the lead (R349, R351). -/
def State.scratchCol (s : State) (lead : Op) (x : Operand) (k b j : Nat) : List (Except EErr (List BElem)) :=
  let p := bits lead.fmtr.toNat 23 3 + 1
  let g := (s.opAgent lead)
  colGroups k b (fun kk =>
    let (a, i) := if lead.mxBlay = 0 then (kk, j) else (j, kk)
    match s.operandVal g x lead.fb p (bit lead.fmtr.toNat 26) a i with
    | .error e => .error e
    | .ok v =>
      if lead.mxSc then (s.mxScale g lead (lead.f 160 20) (j * lead.mxScnt + kk / lead.mxBlock)).map
        (fun sc => (v, some (kk / lead.mxBlock), sc))
      else .ok (v, some (kk / b), .real 1))

/-- Row i of A in scratch, in groups. -/
def State.scratchRow (s : State) (o : Op) (x : Operand) (k b i : Nat) : List (Except EErr (List Ext × Ext)) :=
  let p := bits o.fmtr.toNat 20 3 + 1
  rowGroups k b (fun kk =>
      let (a, c) := if o.mxAlay = 1 then (kk, i) else (i, kk)
      s.operandVal (s.opAgent o) x o.fa p (bit o.fmtr.toNat 26) a c)
    (fun g => if o.mxSc then s.mxScale (s.opAgent o) o (o.f 128 20) (i * o.mxScnt + g) else .ok (.real 1))

/-- The group length of operands of code a (R139). -/
def State.mxGroup (s : State) (a block : Nat) : Nat := if s.mxClass a = some true then 4 else block

/-- The scale format rule, and the scale count (steps 3 and 4). -/
def State.mxScalesOk (s : State) (o : Op) : Bool := !o.mxSc || s.scaleFmt s.team o.mxSfmt

/-- Step 4. -/
def Op.mxCountOk (o : Op) (k : Nat) : Bool := !o.mxSc || o.mxScnt == (k + o.mxBlock - 1) / o.mxBlock

/-- MX.MMA and MX.MMAJ (R349, R351): B comes from the lead. -/
def State.mmaPlan (s : State) (o lead : Op) : Except EFail Plan := do
  let (m, n, k) := o.mxDims
  s.boundAll ([o.fa, o.fb, o.fc] ++ if o.mxSc then [o.mxSfmt] else [])
  let wa := s.mxWidth o.fa (o.f 48 4)
  let wb := s.mxWidth o.fb (o.f 52 4)
  let xa := o.operandA m k wa (isBpn o.fa)
  let xb := lead.operandB k n wb (isBpn o.fb)
  need (s.mxFormats o.fa o.fb o.fc o.mxSc && nplOk o.fa (o.f 48 4) && nplOk o.fb (o.f 52 4) && s.mxScalesOk o &&
    xa.ok (o.mxAlay == 0) && xb.ok (o.mxBlay == 1)) 3 .illOperand
  need (o.mxCountOk k) 4 .scaleCount
  need (s.inWindow xa.addr xa.extent && s.inWindow xb.addr xb.extent &&
    (!o.mxSc || (s.inWindow (o.f 128 20) (s.mxScaleBytes o m) && s.inWindow (o.f 160 20) (s.mxScaleBytes o n)))) 5 .bounds
  let b := s.mxGroup o.fa o.mxBlock
  let leadS := { s with cur := lead.pick }
  .ok { s.productPlan o m n ((List.range m).map (s.scratchRow o xa k b)) ((List.range n).map (leadS.scratchCol lead xb k b)) with
    read := (m * k * wa + k * n * wb + 7) / 8 + if o.mxSc then s.mxScaleBytes o m + s.mxScaleBytes o n else 0 }

/-! ## MX.UNF (R352) -/

/-- A 4-bit field of R345 from bit 336 upward. -/
def Op.uf (o : Op) (n : Nat) : Nat := o.f (336 + 4 * n) 4

/-- OH and OW; 0 where the filter does not fit. -/
def Op.unfOut (o : Op) : Nat × Nat :=
  let out (size pad0 pad1 taps stride dil : Nat) : Nat :=
    let x : Int := (size : Int) + pad0 + pad1 - (dil + 1) * taps - 1
    if x < 0 then 0 else (x / (stride + 1)).toNat + 1
  (out (o.f 288 16) (o.uf 6) (o.uf 8) (o.uf 0) (o.uf 2) (o.uf 4), out (o.f 304 16) (o.uf 7) (o.uf 9) (o.uf 1) (o.uf 3) (o.uf 5))

/-- The tensor position of A(i, k), none outside the input. -/
def Op.unfPos (o : Op) (i k : Nat) : Option Nat :=
  let ic := o.f 320 16
  let sf := o.uf 1 + 1
  let p := o.f 384 16 + i
  let (oh, ow) := (p / o.unfOut.2, p % o.unfOut.2)
  let (r, q, c) := (k / ic / sf, k / ic % sf, k % ic)
  let h : Int := (oh * (o.uf 2 + 1) : ℕ) - (o.uf 6 : Int) + (r * (o.uf 4 + 1) : ℕ)
  let w : Int := (ow * (o.uf 3 + 1) : ℕ) - (o.uf 7 : Int) + (q * (o.uf 5 + 1) : ℕ)
  if 0 ≤ h ∧ h < o.f 288 16 ∧ 0 ≤ w ∧ w < o.f 304 16 then some ((h.toNat * o.f 304 16 + w.toNat) * ic + c) else none

/-- MX.UNF (R352). -/
def State.unfPlan (s : State) (o : Op) : Except EFail Plan := do
  let (m, n, k) := o.mxDims
  s.boundAll [o.fa, o.fb, o.fc]
  let wb := s.mxWidth o.fb (o.f 52 4)
  let xb := o.operandB k n wb (isBpn o.fb)
  let (oh, ow) := o.unfOut
  need (s.mxFormats o.fa o.fb o.fc false && !isBpn o.fa && nplOk o.fb (o.f 52 4) && xb.ok (o.mxBlay == 1) &&
    k == (o.uf 0 + 1) * (o.uf 1 + 1) * o.f 320 16 &&
    decide (1 ≤ oh ∧ 1 ≤ ow ∧ 1 ≤ o.f 288 16 ∧ 1 ≤ o.f 304 16 ∧ 1 ≤ o.f 320 16 ∧ o.f 384 16 + m ≤ oh * ow)) 3 .illOperand
  let wa := (s.fmtD o.fa).width
  let far := ((List.range m).flatMap (fun i => (List.range k).filterMap (o.unfPos i))).foldl (fun a q => max a (q + 1)) 0
  need (s.inWindow (o.f 64 20) ((far * wa + 7) / 8) && s.inWindow xb.addr xb.extent) 5 .bounds
  let b := s.mxGroup o.fa 16
  let val (i kk : Nat) : Except EErr Ext :=
    match o.unfPos i kk with
    | none => .ok (.zero false)
    | some q => (s.engBits (s.opAgent o) (o.f 64 20) (q * wa) wa).map (s.fmtD o.fa).decode
  .ok { s.productPlan o m n ((List.range m).map (fun i => rowGroups k b (val i) (fun _ => .ok (.real 1))))
    ((List.range n).map (s.scratchCol o xb k b)) with read := (m * k * wa + k * n * wb + 7) / 8 }

/-! ## MX.MV (R353) -/

/-- One weight of MX.MV. -/
def State.mvElem (s : State) (o : Op) (x kk j : Nat) : Except EErr BElem :=
  let (_, ef, sf) := s.recFmts s.team x
  match recSource x (o.mxPlace x j kk) with
  | none => .ok (.zero false, none, .real 1)
  | some q =>
    match s.engPieces (s.opAgent o) (recPieces x q) with
    | .error e => .error e
    | .ok vs =>
      let v := ef.decode (bits (recBits x q vs) 0 ef.width)
      if bEnc x = 4 then
        match s.engPieces (s.opAgent o) (recExtra x sf q) with
        | .error e => .error e
        | .ok ex => .ok (v, some (recPos x q / 2 ^ bSbl x), sf.decode (bits (ex.headD 0) 0 sf.width))
      else .ok (v, some 0, .real 1)

/-- MX.MV (R353). -/
def State.mvPlan (s : State) (o : Op) : Except EFail Plan := do
  let (m, n, k) := o.mxDims
  s.boundAll ([o.fa, o.fc] ++ if o.mxSc then [o.mxSfmt] else [])
  let x ← s.engRecord o (o.f 56 8) (fun _ => false)
  let wa := s.mxWidth o.fa (o.f 48 4)
  let xa := o.operandA m k wa (isBpn o.fa)
  let bsc := bEnc x == 4
  need ((bEnc x == 3 || (bsc && bSmode x == 0)) && recTwo x && (bIlv x == 0 || bIlv x == 2) &&
    (!bsc || o.f 272 16 % 2 ^ bSbl x == 0) && s.mxFormats o.fa (bEfmt x) o.fc (o.mxSc || bsc) && nplOk o.fa (o.f 48 4) &&
    s.mxScalesOk o && xa.ok (o.mxAlay == 0) && (!(o.mxSc && bsc) || o.mxBlock == 2 ^ bSbl x)) 3 .illOperand
  need (o.mxCountOk k) 4 .scaleCount
  let places := (List.range n).flatMap (fun j => (List.range k).map (fun kk => o.mxPlace x j kk))
  need (s.inWindow xa.addr xa.extent && (!o.mxSc || s.inWindow (o.f 128 20) (s.mxScaleBytes o m)) &&
    places.all (fun p => (bOrp x != 0 || recInRange x p) &&
      (match recSource x p with | some q => s.placeInWindow x q | none => true))) 5 .bounds
  let b := s.mxGroup o.fa (if bsc then 2 ^ bSbl x else o.mxBlock)
  .ok { s.productPlan o m n ((List.range m).map (s.scratchRow o xa k b))
    ((List.range n).map (fun j => colGroups k b (fun kk => s.mvElem o x kk j))) with
    read := (m * k * wa + k * n * bWidth x + 7) / 8 }

/-! ## MX.OUT (R354) -/

/-- The side-list entries of the positions of row i of A: k with each value, in ascending k, or how the list is
malformed. -/
def State.outRow (s : State) (o : Op) (x k i : Nat) : Except EErr (Option (List (Nat × Ext))) :=
  let qs := (List.range k).map (fun kk => (kk, recPos x (o.mxPlace x i kk)))
  let blocks := (qs.map (fun e => e.2 / 32)).dedup
  match blocks.mapM (fun h => (s.engPiece (s.opAgent o) ⟨true, bObase x + 8 * h, 8⟩).map (fun v => (h, v))) with
  | .error e => .error e
  | .ok es =>
    let used (v : Nat) : List (Nat × Nat) :=
      ([(bits v 0 8, bits v 16 16), (bits v 8 8, bits v 32 16)] : List (Nat × Nat)).take (bits v 48 2)
    if es.any (fun e => bits e.2 48 2 == 3 || (used e.2).any (fun u => decide (32 ≤ u.1))) then .ok none
    else .ok (some (qs.flatMap (fun (kk, q) =>
      ((used ((es.lookup (q / 32)).getD 0)).filter (fun u => u.1 == q % 32)).map (fun u => (kk, bf16.decode u.2)))))

/-- MX.OUT (R354). -/
def State.outPlan (s : State) (o : Op) : Except EFail Plan := do
  let (m, n, k) := o.mxDims
  s.boundAll ([o.fa, o.fb, o.fc] ++ if o.mxSc then [o.mxSfmt] else [])
  let x ← s.engRecord o (o.f 56 8) (fun _ => false)
  let wb := s.mxWidth o.fb (o.f 52 4)
  let xb := o.operandB k n wb (isBpn o.fb)
  need (bEnc x == 4 && bSmode x == 1 && o.f 272 16 % 32 == 0 && o.fc == 8 && s.mxFormats o.fa o.fb o.fc o.mxSc &&
    nplOk o.fa 0 && nplOk o.fb (o.f 52 4) && s.mxScalesOk o && xb.ok (o.mxBlay == 1)) 3 .illOperand
  let rows ← (match (List.range m).mapM (s.outRow o x k) with
    | .error e => .error e.toFail
    | .ok l => .ok l)
  need (rows.all Option.isSome) 3 .illOperand
  need (o.mxCountOk k) 4 .scaleCount
  need (s.inWindow xb.addr xb.extent && (!o.mxSc || s.inWindow (o.f 160 20) (s.mxScaleBytes o n))) 5 .bounds
  let row (i : Nat) : List (Nat × Ext) := ((rows[i]?).getD none).getD []
  let p := bits o.fmtr.toNat 23 3 + 1
  let belem (kk j : Nat) : Except EErr (Ext × Ext) :=
    let (a, c) := if o.mxBlay = 0 then (kk, j) else (j, kk)
    match s.operandVal (s.opAgent o) xb o.fb p (bit o.fmtr.toNat 26) a c with
    | .error e => .error e
    | .ok v => if o.mxSc then (s.mxScale (s.opAgent o) o (o.f 160 20) (j * o.mxScnt + kk / o.mxBlock)).map (fun sc => (v, sc))
      else .ok (v, .real 1)
  let el (i j : Nat) : List (Except EErr (List Ext × Ext)) × List (Except EErr (List BElem)) :=
    ((row i).map (fun (_, v) => .ok ([v], .real 1)),
     (row i).map (fun (kk, _) => (belem kk j).map (fun (v, sc) => [(v, some 0, sc)])))
  let tile := o.f 0 4
  let els := (List.range m).flatMap (fun i => (List.range n).map (fun j =>
    let w := mxWord tile i j
    match (if bit o.desc 35 then .ok 0 else s.engTile (s.opAgent o) w) with
    | .error e => ((w, [], some e) : Nat × List Word × Option EErr)
    | .ok v => (w, accumulated false v (el i j).1 (el i j).2)))
  let errs := els.filterMap (fun e => e.2.2)
  match errs.find? EErr.replays <|> errs.head? with
  | none => .ok { writes := els.filterMap (fun e => (e.2.1.getLast?).map (.tile e.1)) }
  | some er => .ok {
      writes := els.filterMap (fun e => (e.2.1[s.freeN 19 e.1 % max 1 e.2.1.length]?).map (.tile e.1)), bad := some er }

/-! ## MX.ZERO and MX.ST (R355, R356) -/

/-- MX.ZERO (R355). -/
def Op.zeroPlan (o : Op) : Plan :=
  { writes := (ones (bits o.wa.toNat 0 16) 16).flatMap (fun t => (List.range 16384).map (fun w => .tile (t * 16384 + w) 0)) }

/-- MX.ST (R356). -/
def State.stPlan (s : State) (o : Op) : Except EFail Plan := do
  let (m, n, _) := o.mxDims
  let cells := (List.range m).flatMap (fun i => (List.range n).map (fun j => (i, j)))
  let tile := o.f 0 4
  let fm := o.fmtr.toNat
  if bit o.desc 240 then
    s.boundAll [o.fc]
    let x ← s.engRecord o (o.f 56 8) (fun x => bEnc x == 4 || bWro x)
    let (_, ef, _) := s.recFmts s.team x
    need ((o.fc == 8 || o.fc == 12) && !isBpn o.fd && (bEnc x == 0 || bEnc x == 3) && recTwo x) 3 .illOperand
    need (cells.all (fun (i, j) => let p := o.mxPlace x i j
      if recInRange x p then s.placeInWindow x p else bOrp x != 0)) 5 .bounds
    .ok (s.planOf ((cells.filter (fun (i, j) => recInRange x (o.mxPlace x i j))).map (fun (i, j) =>
      match s.engTile (s.opAgent o) (mxWord tile i j) with
      | .error e => .error e
      | .ok v => .ok [.elem (recPokes x (o.mxPlace x i j)
          (if bEnc x = 0 then v.toNat else ef.encode ((s.fmtD o.fc).decode v.toNat) 0 false 0))]))
      (fun _ => 0) [])
  else
    s.boundAll [o.fc, o.fd]
    let f := s.fmtD o.fd
    let xd := o.operandA m n f.width false
    need ((o.fc == 8 || o.fc == 12) && !isBpn o.fd && xd.ok false) 3 .illOperand
    need (s.inWindow xd.addr xd.extent) 5 .bounds
    .ok (s.planOf (cells.map (fun (i, j) =>
      match s.engTile (s.opAgent o) (mxWord tile i j) with
      | .error e => .error e
      | .ok v =>
        let at_ := if o.mxAlay = 1 then xd.off j i else xd.off i j
        .ok [bitPokes false xd.addr at_ f.width (f.encode ((s.fmtD o.fc).decode v.toNat) (bits fm 16 3) (bit fm 19)
          (drawBits o.seed (i * n + j)))])) (fun _ => 0) [])

/-- The whole effect of a matrix operation; lead supplies B of a joint one. -/
def State.mxPlan (s : State) (o lead : Op) : Except EFail Plan :=
  match o.func with
  | 0x12 => s.unfPlan o
  | 0x13 => s.mvPlan o
  | 0x14 => s.outPlan o
  | 0x15 => .ok o.zeroPlan
  | 0x16 => s.stPlan o
  | _ => s.mmaPlan o lead

end Sys2Proof.Machine
end

