-- ==== Sys2Proof/Machine/Sscb.lean ====
section
/-! DEFINITION. The SSCB sequencer: SS.RUN and the answer of SS.PEEK (R380 to R392). -/

namespace Sys2Proof.Machine

/-! ## The descriptor (R381, R382) -/

/-- N, P, NH and T. -/
def Op.ssDims (o : Op) : Nat × Nat × Nat × Nat := (o.f 0 9, o.f 16 8, o.f 24 5, o.f 32 16)

/-- The chunk length L. -/
def Op.ssL (o : Op) : Nat := 16 * 2 ^ o.f 48 2

/-- NOY and DON. -/
def Op.ssNoy (o : Op) : Bool := bit o.desc 53
/-- DON. -/
def Op.ssDon (o : Op) : Bool := bit o.desc 52

/-- The issue-time checks of an SS.RUN descriptor. -/
def ssFields (tiles d : Nat) : List FieldCheck :=
  let n := bits d 0 9
  let nh := bits d 24 5
  let four (lo w : Nat) : FieldCheck := (lo, bits d lo w % 4 != 0)
  let when_ (b : Bool) (lo w : Nat) : FieldCheck := (lo, bits d lo w % 4 != 0 || (b && bits d lo w != 0))
  let noy := bit d 53
  let nod := !bit d 52
  [ (0, n == 0 || decide (256 < n) || decide (tiles < bits d 68 4 + nh * ((n + 127) / 128))), unusedField d 9 7,
    (16, bits d 16 8 == 0 || decide (128 < bits d 16 8)), (24, nh == 0 || decide (16 < nh)), unusedField d 29 3,
    (32, bits d 32 16 == 0), (48, bits d 48 2 == 3), unusedField d 54 2, unusedField d 72 24,
    four 96 20, unusedField d 116 12, four 128 20, unusedField d 148 12, four 160 20, unusedField d 180 12,
    four 192 20, unusedField d 212 12, when_ noy 224 20, unusedField d 244 12, when_ nod 256 20, unusedField d 276 12,
    four 288 16, four 304 16, four 320 16, when_ noy 336 16, four 352 20, unusedField d 372 12, four 384 20,
    unusedField d 404 12, when_ noy 416 20, unusedField d 436 12, when_ nod 448 20, unusedField d 468 556 ]

/-! ## Where the arrays lie (R383) -/

/-- The address of row t of x of head h. -/
def Op.ssX (o : Op) (h t : Nat) : Nat := o.f 96 20 + h * o.f 352 20 + t * o.f 288 16
/-- The address of the δ of head h at step t. -/
def Op.ssD (o : Op) (h t : Nat) : Nat := o.f 128 20 + h * o.f 384 20 + 4 * t
/-- The address of B_t. -/
def Op.ssB (o : Op) (t : Nat) : Nat := o.f 160 20 + t * o.f 304 16
/-- The address of C_t. -/
def Op.ssC (o : Op) (t : Nat) : Nat := o.f 192 20 + t * o.f 320 16
/-- The address of row t of y of head h. -/
def Op.ssY (o : Op) (h t : Nat) : Nat := o.f 224 20 + h * o.f 416 20 + t * o.f 336 16
/-- The address of D of head h. -/
def Op.ssDD (o : Op) (h : Nat) : Nat := o.f 256 20 + h * o.f 448 20

/-- The tile word of state element (n, p) of head h. -/
def Op.ssWord (o : Op) (h n p : Nat) : Nat :=
  let nt := (o.f 0 9 + 127) / 128
  mxWord (o.f 68 4 + h * nt + n / 128) (n % 128) p

/-- Heads and steps. -/
def Op.ssRows (o : Op) : List (Nat × Nat) :=
  let (_, _, nh, t) := o.ssDims
  (List.range nh).flatMap (fun h => (List.range t).map (fun k => (h, k)))

/-- The write region of SS.RUN (R384). -/
def State.ssRegion (s : State) (o : Op) : Region :=
  if o.ssNoy then []
  else match s.fmtGet s.team (o.f 64 4) with
    | .fmt f => o.ssRows.map (fun (h, t) => (o.ssY h t, (o.ssDims.2.1 * f.width + 7) / 8))
    | _ => []

/-! ## Arithmetic (R386) -/

/-- round_fp32_rne of a product. -/
def mulr (a b : Ext) : Word := roundFp32 (a.mul b)

/-- exp2r. -/
def exp2r (x : Word) : Word := special exp2Ext x

/-- dotg with group length g. -/
def dotg (g : Nat) : Nat → List (Ext × Ext) → Word → Word
  | 0, _, acc => acc
  | fuel + 1, l, acc =>
    if l.isEmpty then acc
    else dotg g fuel (l.drop g) (accumulate acc (groupSum (l.take g) (.real 1) (.real 1)))

/-- dotg of two vectors from +0. -/
def dot (g : Nat) (u v : List Ext) : Word := dotg g (u.length + 1) (u.zip v) 0

/-- The operands of one head: x rows, δ words, B and C rows, D, by step. -/
structure SsIn where
  x : Nat → List Ext
  d : Nat → Word
  b : Nat → List Ext
  c : Nat → List Ext
  dd : List Word

/-- Column p of a state of rows. -/
def column (h : List (List Word)) (p : Nat) : List Ext := h.map (fun r => fp32 ((r[p]?).getD 0))

/-- The sequence lam of a chunk. -/
def ssLam (d : Nat → Word) (t0 : Nat) : Nat → List Word
  | 0 => []
  | 1 => [d t0]
  | j + 2 => let l := ssLam d t0 (j + 1)
    l ++ [roundFp32 ((fp32 (l.getLastD 0)).add (fp32 (d (t0 + j + 1))))]

/-- One chunk of L steps from t0 in chunked form (R387): the y rows in FP32 and the new state. -/
def ssChunk (g cols : Nat) (y don : Bool) (i : SsIn) (t0 len : Nat) (h : List (List Word)) :
    List (List Word) × List (List Word) :=
  let lam := ssLam i.d t0 len
  let lm (j : Nat) : Ext := fp32 ((lam[j]?).getD 0)
  let decay (j k : Nat) : Word := exp2r (roundFp32 ((lm j).add (lm k).negate))
  let xs (t p : Nat) : Ext := ((i.x t)[p]?).getD (.zero false)
  let steps := List.range len
  let rows := if y then steps.map (fun j =>
      let ws := (List.range (j + 1)).map (fun k => mulr (fp32 (dot g (i.c (t0 + j)) (i.b (t0 + k)))) (fp32 (decay j k)))
      (List.range cols).map (fun p =>
        let acc := (ws.zipIdx).foldl (fun acc (w, k) => accumulate acc ((fp32 w).mul (xs (t0 + k) p))) 0
        let acc := accumulate acc (fp32 (mulr (fp32 (exp2r ((lam[j]?).getD 0))) (fp32 (dot g (i.c (t0 + j)) (column h p)))))
        if don then accumulate acc ((fp32 ((i.dd[p]?).getD 0)).mul (xs (t0 + j) p)) else acc)) else []
  let last := fp32 (exp2r (lam.getLastD 0))
  let hn := (h.zipIdx).map (fun (r, n) => (r.zipIdx).map (fun (v, p) =>
    steps.foldl (fun acc k =>
      accumulate acc ((fp32 (mulr (((i.b (t0 + k))[n]?).getD (.zero false)) (fp32 (decay (len - 1) k)))).mul (xs (t0 + k) p)))
      (mulr last (fp32 v))))
  (rows, hn)

/-- One step t in recurrent form (R388): the y row in FP32 and the new state. -/
def ssStep (g cols : Nat) (y don : Bool) (i : SsIn) (t : Nat) (h : List (List Word)) :
    List (List Word) × List (List Word) :=
  let a := fp32 (exp2r (i.d t))
  let xs (p : Nat) : Ext := ((i.x t)[p]?).getD (.zero false)
  let hn := (h.zipIdx).map (fun (r, n) => (r.zipIdx).map (fun (v, p) =>
    accumulate (mulr a (fp32 v)) ((((i.b t)[n]?).getD (.zero false)).mul (xs p))))
  let row := (List.range cols).map (fun p =>
    let acc := dot g (i.c t) (column hn p)
    if don then accumulate acc ((fp32 ((i.dd[p]?).getD 0)).mul (xs p)) else acc)
  (if y then [row] else [], hn)

/-- The parts of T steps: first step, length, and whether in chunked form (R385). -/
def ssParts (total len : Nat) (frec : Bool) : List (Nat × Nat × Bool) :=
  let n := if frec then 0 else total / len
  (List.range n).map (fun k => (k * len, len, true)) ++
    (List.range (total - n * len)).map (fun k => (n * len + k, 1, false))

/-! ## Execution (R384, R385, R391) -/

/-- A row of elements packed from a scratch address, decoded; reads with different tags are accesses of their own. -/
def State.ssRow (s : State) (o : Op) (tag : Nat) (f : Fmt) (a n : Nat) : Except EErr (List Ext) :=
  (List.range n).mapM (fun k => (s.engBits { s.opAgent o with tag } a (k * f.width) f.width).map f.decode)

/-- Words from a scratch address. -/
def State.ssWords (s : State) (o : Op) (tag a n : Nat) : Except EErr (List Word) :=
  (List.range n).mapM (fun k => (s.engPiece { s.opAgent o with tag } ⟨false, a + 4 * k, 4⟩).map (BitVec.ofNat 32))

/-- One part of a head's run, or the failure its reads meet. Each row of each operand is read for itself (R172). -/
def State.ssPart (s : State) (o : Op) (h : Nat) (part : Nat × Nat × Bool) (st : List (List Word)) :
    Except EErr (List (List Word) × List (List Word)) := do
  let (n, p, _, _) := o.ssDims
  let (t0, len, chunk) := part
  let ts := (List.range len).map (t0 + ·)
  let tag (operand t : Nat) : Nat := 1 + Nat.pair operand (Nat.pair h t)
  let fx := s.fmtD (o.f 56 4)
  let fb := s.fmtD (o.f 60 4)
  let xs ← ts.mapM (fun t => s.ssRow o (tag 0 t) fx (o.ssX h t) p)
  let ds ← s.ssWords o (tag 1 t0) (o.ssD h t0) len
  let bs ← ts.mapM (fun t => s.ssRow o (tag 2 t) fb (o.ssB t) n)
  let cs ← if chunk || !o.ssNoy then ts.mapM (fun t => s.ssRow o (tag 3 t) fb (o.ssC t) n) else .ok []
  let dd ← if o.ssDon && !o.ssNoy then s.ssWords o (tag 4 t0) (o.ssDD h) p else .ok []
  let g := if s.mxClass (o.f 60 4) = some true then 4 else 16
  let i : SsIn := { x := fun t => (xs[t - t0]?).getD [], d := fun t => (ds[t - t0]?).getD 0,
                    b := fun t => (bs[t - t0]?).getD [], c := fun t => (cs[t - t0]?).getD [], dd }
  .ok (if chunk then ssChunk g p (!o.ssNoy) o.ssDon i t0 len st else ssStep g p (!o.ssNoy) o.ssDon i t0 st)

/-- The team's scratch and tiles as they were before words of them failed: what is read already fails no more. -/
def State.unpoisoned (s : State) : State := s.setTeam { s.team with scratchPoison := [], tilePoison := [] }

/-- What a head has after each part: steps done, first step and y rows of the part, state; and the failure that stops it. What
an SS.PEEK has shown to be complete is past failing (R392). -/
def State.ssRun (s : State) (o : Op) (h : Nat) : List (Nat × Nat × Bool) → List (List Word) →
    List (Nat × Nat × List (List Word) × List (List Word)) × Option EErr
  | [], _ => ([], none)
  | part :: parts, st =>
    let last := part.1 + part.2.1
    match (if h = 0 ∧ last ≤ o.res then s.unpoisoned else s).ssPart o h part st with
    | .error e => ([], some e)
    | .ok (ys, st') =>
      let (l, e) := s.ssRun o h parts st'
      ((last, part.1, ys, st') :: l, e)

/-- The writes of the y rows of a part of head h. -/
def State.ssYs (s : State) (o : Op) (h t0 : Nat) (rows : List (List Word)) : List EWrite :=
  let f := s.fmtD (o.f 64 4)
  (rows.zipIdx).flatMap (fun (r, j) => (r.zipIdx).map (fun (v, p) =>
    bitPokes false (o.ssY h (t0 + j)) (p * f.width) f.width (f.encode (fp32 v) 0 (bit o.fmtr.toNat 19) 0)))

/-- The writes of the state of head h. -/
def Op.ssState (o : Op) (h : Nat) (st : List (List Word)) : List EWrite :=
  (st.zipIdx).flatMap (fun (r, n) => (r.zipIdx).map (fun (v, p) => .tile (o.ssWord h n p) v))

/-- The initial state of head h. -/
def State.ssInit (s : State) (o : Op) (h : Nat) : Except EErr (List (List Word)) :=
  let (n, p, _, _) := o.ssDims
  (List.range n).mapM (fun a => (List.range p).mapM (fun b =>
    if bit o.desc 51 then .ok 0 else s.engTile (s.opAgent o) (o.ssWord h a b)))

/-- The run of a head: its initial state, what it has after each part, and the failure that stops it. -/
def State.ssHead (s : State) (o : Op) (h : Nat) :
    List (List Word) × List (Nat × Nat × List (List Word) × List (List Word)) × Option EErr :=
  match (if h = 0 ∧ o.res ≠ 0 then s.unpoisoned else s).ssInit o h with
  | .error e => ([], [], some e)
  | .ok st => (st, s.ssRun o h (ssParts o.ssDims.2.2.2 o.ssL (bit o.desc 50)) st)

/-- The plan of SS.RUN: the reply is T. On failure each head stands after some part, and later y elements are prior or
final (R391). -/
def State.ssPlan (s : State) (o : Op) : Except EFail Plan := do
  let (n, p, nh, t) := o.ssDims
  let (fx, fb, fy) := (o.f 56 4, o.f 60 4, o.f 64 4)
  s.boundAll [fx, fb, fy]
  let w (c : Nat) : Nat := (s.fmtD c).width
  let rowOk (lo l c : Nat) : Bool := decide (4 * ((l * w c + 31) / 32) ≤ o.f lo 16)
  need (!isBpn fx && !isBpn fb && !isBpn fy && (s.mxClass fb).isSome &&
    (t == 1 || (rowOk 288 p fx && rowOk 304 n fb && rowOk 320 n fb && (o.ssNoy || rowOk 336 p fy)))) 3 .illOperand
  let len (l c : Nat) : Nat := (l * w c + 7) / 8
  need (o.ssRows.all (fun (h, k) => s.inWindow (o.ssX h k) (len p fx) && s.inWindow (o.ssD h k) 4 &&
    s.inWindow (o.ssB k) (len n fb) && s.inWindow (o.ssC k) (len n fb) && (o.ssNoy || s.inWindow (o.ssY h k) (len p fy)) &&
    (!o.ssDon || s.inWindow (o.ssDD h) (4 * p)))) 5 .bounds
  let heads := (List.range nh).map (fun h => (h, s.ssHead o h))
  match heads.findSome? (fun x => x.2.2.2) with
  | none => .ok {
      writes := heads.flatMap (fun (h, st, l, _) =>
        l.flatMap (fun (_, t0, ys, _) => s.ssYs o h t0 ys) ++ o.ssState h ((l.getLast?.map (fun x => x.2.2.2)).getD st))
      reply := t, counts := [(5, nh * t)]
      read := nh * t * (len p fx + 4) + 2 * t * len n fb + (if o.ssDon then 4 * nh * p else 0) }
  | some e => .ok {
      writes := heads.flatMap (fun (h, st, l, _) =>
        let told := if h = 0 then (l.filter (fun x => decide (x.1 ≤ o.res))).length else 0
        let k := told + s.freeTo 20 h (l.length - told)
        (l.take k).flatMap (fun (_, t0, ys, _) => s.ssYs o h t0 ys) ++
        ((l.drop k).flatMap (fun (_, t0, ys, _) => s.ssYs o h t0 ys)).filter (fun x => s.free 21 x.mark) ++
        o.ssState h (((l.take k).getLast?.map (fun x => x.2.2.2)).getD st))
      bad := some e, settled := true }

/-! ## SS.PEEK (R392) -/

/-- The SS.RUN operations of a team that have not completed, oldest first. -/
def State.ssRuns (s : State) (t : Nat) : List (Nat × Op) :=
  (s.ops.filter (fun e => e.2.pick / 64 == t && e.2.func == 0x40 && e.2.phase != .abandoned)).insertionSort
    (fun a b => a.2.ord ≤ b.2.ord)

/-- Steps of an SS.RUN whose state update is complete: how far it has come is not fixed (log 12), but it does not go back, and
not past a check or a part that stops it; a chunk counts at once. -/
def State.ssProgress (s0 : State) (o : Op) : Nat :=
  let s := s0.asIssued o
  match o.phase, s.ssPlan o with
  | .running, .ok _ =>
    let marks := (0 :: (s.ssHead o 0).2.1.map (·.1)).filter (o.res ≤ ·)
    (marks[s0.freeN 22 0 % max 1 marks.length]?).getD o.res
  | _, _ => o.res

/-- The 16 bytes of the answer as a number, and the state that remembers the progress told. -/
def State.peekAnswer (s : State) : Nat × State :=
  let l := s.ssRuns s.pick.team
  match l with
  | [] => (0, s)
  | (k, o) :: _ =>
    let d := s.ssProgress o
    let t := o.ssDims.2.2.2
    let form := bit o.desc 50 || decide (t / o.ssL * o.ssL ≤ d)
    (min l.length 65535 + d * 2 ^ 32 + (if form && decide (d < t) then 2 ^ 48 else 0), s.setOp k { o with res := d })

end Sys2Proof.Machine
end

