-- ==== Sys2Proof/Machine/Effects.lean ====
section
/-! DEFINITION. The effect of an operation of the loom's engines by its function, and what an operation that stops leaves
behind (R333, R428, R454). -/

namespace Sys2Proof.Machine

/-- The plan of an operation of SH, MX, GA or SS; the pick of the operation is in focus. -/
def State.opPlan (s0 : State) (o : Op) : Except EFail Plan :=
  let s := s0.asIssued o
  if o.func < 0x10 then s.shPlan o
  else if o.func < 0x28 then
    s.mxPlan o (((o.joint.head?).bind s.opAt).getD o)
  else if o.func < 0x30 then s.gaPlan o
  else if o.func = 0x40 then s.ssPlan o
  else .ok {}

/-! ## What an operation reads (R31, R175, R191, R398, R485) -/

/-- The pieces of the element bits of w from bit b on of a scratch address. -/
def bitPiece (base b w : Nat) : Piece := ⟨false, base + b / 8, (b % 8 + w + 7) / 8⟩

/-- The pieces of a scratch operand's elements. -/
def Operand.pieces (x : Operand) : List Piece :=
  (List.range x.outer).flatMap (fun a => (List.range x.inner).flatMap (fun b =>
    if x.bpn then (List.range x.w).map (fun k => bitPiece x.addr (x.off a b + 256 * k) 1) else [bitPiece x.addr (x.off a b) x.w]))

/-- The pieces of elements that a record serves, with their scales and side-list entries. -/
def State.recReads (s : State) (x : Nat) (ps : List Place) : List Piece :=
  let (_, _, sf) := s.recFmts s.team x
  (ps.filterMap (recSource x)).flatMap (fun q => recPieces x q ++ recExtra x sf q)

/-- The buffer record that an operation uses: its index, or none. -/
def Op.recIdx (o : Op) : Option Nat :=
  match o.func with
  | 0x01 => some (o.f 192 8)
  | 0x02 => some (o.f 192 8)
  | 0x03 => some (o.f 192 8)
  | 0x13 => some (o.f 56 8)
  | 0x14 => some (o.f 56 8)
  | 0x16 => if bit o.desc 240 then some (o.f 56 8) else none
  | _ => none

/-- The bytes of that record. -/
def Op.recPiece (o : Op) : List Piece :=
  match o.recIdx with
  | some n => if n < lrNbrec o.lr then [⟨true, lrBrtab o.lr + 40 * n, 40⟩] else []
  | none => []

/-- That record, or 0 where it cannot be had. -/
def State.opRec (s : State) (o : Op) : Nat :=
  match (o.recIdx).map (fun n => s.engRecord o n (fun _ => false)) with
  | some (.ok x) => x
  | _ => 0

/-- What an SS.RUN reads of scratch, row by row, with the tags of the accesses. -/
def State.ssReads (s : State) (o : Op) : List (Nat × List Piece) :=
  let (n, p, nh, t) := o.ssDims
  let tag (operand h t : Nat) : Nat := 1 + Nat.pair operand (Nat.pair h t)
  let row (a l c : Nat) : List Piece := (List.range l).map (fun i => bitPiece a (i * (s.fmtD c).width) (s.fmtD c).width)
  let words (a l : Nat) : List Piece := (List.range l).map (fun i => ⟨false, a + 4 * i, 4⟩)
  (List.range nh).flatMap (fun h => (ssParts t o.ssL (bit o.desc 50)).flatMap (fun (t0, len, chunk) =>
    let ts := (List.range len).map (t0 + ·)
    ts.map (fun i => (tag 0 h i, row (o.ssX h i) p (o.f 56 4))) ++ [(tag 1 h t0, words (o.ssD h t0) len)] ++
    ts.map (fun i => (tag 2 h i, row (o.ssB i) n (o.f 60 4))) ++
    (if chunk || !o.ssNoy then ts.map (fun i => (tag 3 h i, row (o.ssC i) n (o.f 60 4))) else []) ++
    if o.ssDon && !o.ssNoy then [(tag 4 h t0, words (o.ssDD h) p)] else []))

/-- The data that an operation reads by pieces, but for its record; the state shows its formats as issued. -/
def State.opPieces (s : State) (o : Op) : List Piece :=
  let (m, n, k) := o.mxDims
  let words (a len : Nat) (global : Bool) : List Piece := (List.range ((len + 3) / 4)).map (fun i => ⟨global, a + 4 * i, 4⟩)
  let x := s.opRec o
  let opA := (o.operandA m k (s.mxWidth o.fa (o.f 48 4)) (isBpn o.fa)).pieces
  let opB := (o.operandB k n (s.mxWidth o.fb (o.f 52 4)) (isBpn o.fb)).pieces
  let scales (base rows : Nat) : List Piece := if o.mxSc then words base (s.mxScaleBytes o rows) false else []
  let tile := o.shElems.map (fun (r, c, _) => bitPiece o.shTaddr (o.shBit (s.fmtD o.shTfmt).width r c) (s.fmtD o.shTfmt).width)
  let bar : List Piece := if o.shBar then [⟨false, o.shBaddr, 8⟩] else []
  let lead := ((o.joint.head?).bind s.opAt).all (fun l => l.pick == o.pick)
  match o.func with
  | 0x00 => words o.shA0 o.shLen (!bit o.desc 56) ++ bar
  | 0x01 => s.recReads x (o.shElems.map (fun (r, c, _) => o.shPlace x r c)) ++ bar
  | 0x02 => tile ++ bar
  | 0x03 => tile ++ bar ++ (if bSmode x = 2 then [⟨true, bSbase x, scaleBytes (s.recFmts s.team x).2.2⟩] else [])
  | 0x04 => bar
  | 0x10 => opA ++ opB ++ scales (o.f 128 20) m ++ scales (o.f 160 20) n
  | 0x11 => opA ++ scales (o.f 128 20) m ++ if lead then opB ++ scales (o.f 160 20) n else []
  | 0x12 => opB ++ (List.range m).flatMap (fun i => ((List.range k).filterMap (o.unfPos i)).map (fun q =>
      bitPiece (o.f 64 20) (q * (s.fmtD o.fa).width) (s.fmtD o.fa).width))
  | 0x13 => opA ++ scales (o.f 128 20) m ++
      s.recReads x ((List.range n).flatMap (fun j => (List.range k).map (fun kk => o.mxPlace x j kk)))
  | 0x14 => opB ++ scales (o.f 160 20) n ++ (((List.range m).flatMap (fun i => (List.range k).map (fun kk =>
      recPos x (o.mxPlace x i kk) / 32))).eraseDups).map (fun h => ⟨true, bObase x + 8 * h, 8⟩)
  | 0x40 => (s.ssReads o).flatMap (·.2)
  | _ =>
    if o.path = 4 then
      let idx := words (o.f 64 20) (4 * o.f 128 20) false
      let els : List Nat := match s.engPieces (s.opAgent o) idx with | .ok l => l.filter (fun t => decide (t < o.f 160 32)) | _ => []
      let base := els.eraseDups.map (fun t => (⟨!bit o.desc 56, o.f 0 56 + o.gaSize * t, o.gaSize⟩ : Piece))
      let loc := (List.range (o.f 128 20)).map (fun i => (⟨false, o.f 96 20 + o.gaSize * i, o.gaSize⟩ : Piece))
      idx ++ if o.func = 0x28 then base else if o.func = 0x29 then loc else loc ++ if bit o.desc 158 then [] else base
    else if o.path = 5 ∧ o.func ≠ 0x33 ∧ o.func ≠ 0x34 then words (o.f 32 56) (if o.func = 0x30 then o.f 160 32 *
      (if o.f 24 2 = 3 then 2 else 4) else o.f 160 32) (!bit o.desc 28)
    else []

/-- The tile words that an operation reads. -/
def Op.tileReads (o : Op) : List Nat :=
  let (m, n, _) := o.mxDims
  let cells := (List.range m).flatMap (fun i => (List.range n).map (fun j => mxWord (o.f 0 4) i j))
  if o.func = 0x16 then cells
  else if o.func = 0x15 then []
  else if o.path = 3 then (if bit o.desc 35 then [] else cells)
  else if o.func = 0x40 ∧ !bit o.desc 51 then
    (List.range (o.ssDims.2.2.1)).flatMap (fun h => (List.range o.ssDims.1).flatMap (fun a =>
      (List.range o.ssDims.2.1).map (fun b => o.ssWord h a b)))
  else []

/-- The resolved bytes of the pieces that lie in global memory, with the touched dies, where they resolve. -/
def State.foundPas (s : State) (ps : List Piece) : List (List Nat × Nat) :=
  (ps.filter (·.global)).filterMap (fun p => match s.resolve s.ctx rightR p.addr p.len with
    | .ok x => some x
    | .error _ => none)

/-- The bytes of pieces and tile words, as locations and places. -/
def State.readCells (s : State) (ps : List Piece) (tiles : List Nat) : List (Nat × Nat) :=
  let t := s.pick.team
  s.memCells ((s.foundPas ps).flatMap (·.1)) ++ ((ps.filter (fun p => !p.global)).flatMap (fun p => scrCells t p.addr p.len)) ++
    tiles.flatMap (fun w => (List.range 4).map (fun k => (tileLoc t w, k)))

/-- The pieces that an operation reads; with no data where a check stopped it. -/
def State.allPieces (s : State) (o : Op) (data : Bool) : List Piece :=
  o.recPiece ++ if data then (s.asIssued o).opPieces o else []

/-- The records that the reads of an operation come from (R175): those of an SS.RUN, which are unordered among themselves, row by
row (R172). -/
def State.opSaw (s : State) (o : Op) (data : Bool) : List Nat :=
  let g := s.opAgent o
  let tiles := if data then o.tileReads else []
  if o.func = 0x40 ∧ data then
    (s.look g false (s.readCells [] tiles)).2 ++ ((s.asIssued o).ssReads o).flatMap (fun (tag, ps) =>
      (s.look { g with tag } false (s.readCells ps [])).2)
  else (s.look g false (s.readCells (s.allPieces o data) tiles)).2

/-- Operations of the same agent that issued before one and have not completed must not find, in words that it has read, what is
newer than it found there (R172, R175). -/
def State.capEarlier (s : State) (o : Op) (locs saw : List Nat) : State :=
  let newer (l : Nat) : List Nat := ((s.wlog.filter (fun r => (r.at_ l).isSome)).takeWhile (fun r => !saw.contains r.id)).map (·.id)
  let before (e : Op) : Bool := e.pick == o.pick && e.path == o.path && e.phase != .abandoned && decide (e.ord < o.ord)
  if s.ops.any (fun e => before e.2) then
    let caps := locs.map (fun l => (l, newer l, s.nextW))
    { s with ops := s.ops.map (fun e => if before e.2 then (e.1, { e.2 with caps := e.2.caps ++ caps }) else e) }
  else s

/-- What the reads of an operation leave behind; with no data where a check stopped it: the dies touched (R485), what the agent
saw (R175), lines recalled (R191), copies healed (R466). -/
def State.noteOp (s : State) (o : Op) (data : Bool) : State :=
  let ps := s.allPieces o data
  let g := s.opAgent o
  let locs := ((s.readCells ps (if data then o.tileReads else [])).map (·.1)).eraseDups
  let found := s.foundPas ps
  let saw := s.opSaw o data
  let s1 := s.touchDies s.team.ctx (found.foldl (fun m x => m ||| x.2) 0)
  (((s1.mark g.key saw).reach g locs).heal (found.flatMap (·.1))).capEarlier o locs saw

/-- Whether an operation must wait for one of the same agent that issued before it: one of the two writes a word that the other
touches (R172, R175). -/
def State.opWaits (s : State) (o : Op) : Bool :=
  let words (e : Op) : List Nat × List Nat :=
    let x := { s with cur := e.pick }
    let data := match x.opPlan e with | .ok _ => true | .error _ => false
    let writes := match x.opPlan e with | .ok p => (x.writeUnits p.writes).flatMap (fun u => u.map (·.1)) | .error _ => []
    (((x.readCells (x.allPieces e data) (if data then e.tileReads else [])).map (·.1)).eraseDups, writes)
  let earlier := s.ops.filter (fun e => e.2.pick == o.pick && e.2.path == o.path && e.2.phase != .abandoned &&
    decide (e.2.ord < o.ord))
  !earlier.isEmpty && (
    let (r, w) := words o
    earlier.any (fun e => let (r1, w1) := words e.2; w1.any (fun l => r.contains l || w.contains l) || r1.any w.contains))

/-- The writes that stand when an operation ends without completing. -/
def State.putPart (s : State) (o : Op) (p : Plan) : State :=
  if p.settled then s.putWrites (s.opAgent o) p.writes else s.putSome (s.opAgent o) p.writes

/-- An operation stops: each destination word holds its prior value or one that the operation writes (R428, R454). -/
def State.settleOp (s : State) (o : Op) : State :=
  let old := s.pickAt o.pick
  let s1 := { s with cur := o.pick }.setPickAt o.pick { old with team := o.pick / 64 }
  match s1.opPlan o with
  | .error _ => s
  | .ok p => { (s1.putPart o p).setPickAt o.pick old with cur := s.cur }

/-- The operations of a team that have started stop. -/
def State.settleOps (s : State) (t : Nat) : State :=
  (s.ops.filter (fun e => e.2.pick / 64 == t && (match e.2.phase with
    | .running => true
    | .faulted _ => true
    | _ => false))).foldl (fun s e => s.settleOp e.2) s

end Sys2Proof.Machine
end

