-- ==== Sys2Proof/Machine/Teams.lean ====
section
/-! DEFINITION. The life of a team: admission and placement, team start, the end of a pick and of a team, completion
records, dependency edges, pre-emption, save and resume. -/

namespace Sys2Proof.Machine

/-! ## Time and registers of a team -/

/-- Time in ns on a die's counter, the fabric clock being 1.8 GHz (R33, R433). -/
def State.ns (s : State) (die : Nat) : Nat := (s.dieAt die).cycles.toNat * 5 / 9

/-- s1 to s15 at team start (R44), a successor's coordinates being its predecessor's above the team level (R401). -/
def Team.startRegs (m : Team) (n : Nat) : Tab Word :=
  let (r, q) := lrRoleOf m.lr n
  let tl := lrTeamLevel m.lr
  let lv := (List.range 8).map (fun l => if l < tl then 0 else if l = tl then n else (m.coords[l]?).getD 0)
  let vs := [m.index, n, r, q] ++ lv ++ [m.die * 256 + m.loom, m.total, lrP m.lr]
  (vs.zipIdx).foldl (fun t (v, i) => tput 0 t (i + 1) (BitVec.ofNat 32 v)) []

/-- A pick at team start (R44, R86). RES bits of the record's FMTR and TCFG are dropped: the model's choice (log 60). -/
def Team.freshPick (m : Team) (t n slot : Nat) : Pick :=
  let (r, q) := lrRoleOf m.lr n
  { live := true, team := t, index := n, role := r, qidx := q, slot, reservation := lrRegs m.lr r
    spc := BitVec.ofNat 32 (lrEntry m.lr r), sregs := m.startRegs n
    fmtr := fmtrClean (lrFmtr m.lr), tcfg := tcfgClean (lrTcfg m.lr)
    seed := lrSeed m.lr ^^^ BitVec.ofNat 32 (64 * m.index + n) }

/-! ## Places on looms (R40, R443, R444) -/

/-- The next free pick slot: in the quadrant with the most free slots, the lowest (R444). -/
def nextSlot (used : List Nat) : Option Nat :=
  let free (q : Nat) : Nat := 24 - (used.filter (fun k => k / 24 == q)).length
  let q := [0, 1, 2, 3].foldl (fun a q => if free a < free q then q else a) 0
  ((List.range 24).map (24 * q + ·)).find? (fun k => !used.contains k)

/-- The slots of n picks, in ascending pick index. -/
def placeSlots : Nat → List Nat → List Nat
  | 0, _ => []
  | n + 1, used =>
    match nextSlot used with
    | some k => k :: placeSlots n (k :: used)
    | none => []

/-- The instance of a domain (3: loom) that holds a loom. -/
def instOf (dom die loom : Nat) : Nat :=
  if dom ≤ 3 then 64 * die + loom else if dom = 4 then 64 * die + loom / 8 else if dom = 5 then die else 0

/-- Whether two placed teams of a launch agree with the levels above the team level (R40). below counts the teams in
one child of the level. -/
def pairOk (i d l j d' l' : Nat) : Nat → Nat → List Nat → Bool
  | _, _, [] => true
  | c, below, w :: ws =>
    let all := below * max (lvCount w) 1
    (i / all != j / all ||
      (instOf (lvDom w) d l == instOf (lvDom w) d' l' &&
        (!lvSpread w || i / below == j / below || instOf c d l != instOf c d' l'))) &&
    pairOk i d l j d' l' (lvDom w) all ws

/-- Whether a team of a launch may lie on a loom beside those placed already. -/
def placeOk (lr i die loom : Nat) (placed : List (Nat × Nat × Nat)) : Bool :=
  placed.all (fun (j, d', l') => j == i || pairOk i die loom j d' l' 3 1 (lrUpper lr))

/-- Scratch and tiles that a resident team takes. -/
def Team.takes (m : Team) : Nat × Nat :=
  if m.succWait then (roundUp m.keptScr 65536, m.keptTiles) else (lrScratch m.lr, lrTiles m.lr)

/-- The slots and words that a team needs (R443, R457). -/
def Team.needs (m : Team) : List (Nat × Nat) :=
  let own := (ones (lrDmask m.lr).toNat 8).map (fun n => (n, lrDword m.lr n))
  own ++ m.slotWords.filter (fun e => own.all (fun o => o.1 != e.1))

/-- A draft of a world's store by its word (R498). -/
def State.draftOf (s : State) (world word : Nat) : Option Draft :=
  (s.worldAt world).drafts.find? (fun d => d.word.toNat == word)

/-- Whether a slot serves a need: bound to the word, or free to be bound to it. -/
def State.slotServes (s : State) (world die loom self : Nat) (need : Nat × Nat) : Bool :=
  let x := s.slotAt die loom need.1
  let refs := ((s.residents die loom).filter (fun e => e.1 != self && e.2.refs.getLsbD need.1)).length
  x.loading.isNone && ((x.bound.map (fun d => d.word.toNat)) == some need.2 ||
    (refs == 0 && (s.draftOf world need.2).isSome))

/-- Whether a loom can take a team of this record, the team numbered self not counted (R443). -/
def State.admits (s : State) (world lr : Nat) (needs : List (Nat × Nat)) (die loom self : Nat) : Bool :=
  let rs := (s.residents die loom).filter (fun e => e.1 != self)
  let picks := rs.flatMap (fun e => e.2.picks)
  let need := lrReserve lr
  (s.partitionDies world).contains die && decide (loom < 40) &&
  decide (picks.length + lrP lr ≤ 96) &&
  decide ((picks.map (fun k => (s.pickAt k).reserve)).sum + need ≤ 1023) &&
  (List.range 4).all (fun b =>
    decide ((picks.map (fun k => max (s.pickAt k).reserve ((s.pickAt k).holds b))).sum + need ≤ 1024)) &&
  decide ((rs.map (fun e => e.2.takes.1)).sum + lrScratch lr ≤ 2 ^ 20) &&
  decide ((rs.map (fun e => e.2.takes.2)).sum + lrTiles lr ≤ 16) &&
  needs.all (s.slotServes world die loom self)

/-- The pick slots in use on a loom but for a team's. -/
def State.usedSlots (s : State) (die loom self : Nat) : List Nat :=
  ((s.residents die loom).filter (fun e => e.1 != self)).flatMap (fun e => e.2.picks.map (fun k => (s.pickAt k).slot))

/-- A team takes its slot references; slots that are not bound to the word begin to load, and the team waits for them
(R443, R499, R500). -/
def State.takeSlots (s : State) (t : Nat) : State :=
  let m := s.teamAt t
  let world := (s.ctxAt m.ctx).world
  let bind (x : State × Bool) (e : Nat × Nat) : State × Bool :=
    let sl := x.1.slotAt m.die m.loom e.1
    if (sl.bound.map (fun d => d.word.toNat)) = some e.2 then x
    else (x.1.setSlotAt m.die m.loom e.1
      { sl with loading := x.1.draftOf world e.2, waiters := sl.waiters ++ [(t, 0)], asked := x.1.fresh }, true)
  let (s1, waits) := m.needs.foldl bind (s, false)
  s1.setTeamAt t { m with
    refs := BitVec.ofNat 8 (maskOf (m.needs.map (·.1))) ||| m.refs
    slotWords := []
    phase := if waits then .binding else .running
    started := (s.dieAt m.die).cycles.toNat }

/-! ## The successor's picks (R399 to R401) -/

/-- A successor pick that inherits: the start values, with what the predecessor handed on in their place. -/
def Team.heirPick (m : Team) (t n : Nat) (old : Pick) : Pick :=
  let p := m.freshPick t n old.slot
  let scount := bits m.inherit 8 10
  { p with
    sregs := (List.range scount).foldl (fun r i => tput 0 r i (tget 0 old.sregs i)) p.sregs
    spoison := old.spoison.filter (fun i => decide (i < scount))
    fmtr := if bit m.inherit 49 then old.fmtr else p.fmtr
    names := old.names
    paths := old.paths
    pending := old.pending
    puts := old.puts
    dieLost := old.dieLost
    lastS := old.lastS
    pseq := old.pseq
    xfences := old.xfences
    xseq := old.xseq }

/-- The successor's picks are made: heirs keep their slots, the others take free ones. -/
def State.buildSuccessor (s : State) (t : Nat) : State :=
  let m := s.teamAt t
  let keys := (List.range (lrP m.lr)).map (64 * t + ·)
  let kept := m.picks
  let used := s.usedSlots m.die m.loom t ++ kept.map (fun k => (s.pickAt k).slot)
  let fresh_ := keys.filter (fun k => !kept.contains k)
  let slots := fresh_.zip (placeSlots fresh_.length used)
  let s1 := keys.foldl (fun s k =>
    let n := k - 64 * t
    s.setPickAt k (if kept.contains k then m.heirPick t n (s.pickAt k)
      else m.freshPick t n ((slots.lookup k).getD 0))) s
  s1.setTeamAt t { m with picks := keys, succWait := false, li := 0, by_ := 0 }

/-! ## Starting a team (R42 to R44, R445, R457) -/

/-- How far a team index has come. -/
def Launch.life (l : Launch) (i : Nat) : TeamLife := tget .unstarted l.lives i

/-- Whether an edge is met for team i (R447). -/
def Launch.edgeMet (l : Launch) (i e : Nat) : Bool :=
  let (_, cnt, map) := lrEdge l.lr e
  if map = 0 then decide (cnt ≤ i) || l.met.contains (e, i) else l.met.contains (e, 2 ^ 32)

/-- Whether every edge of team i is met. -/
def Launch.edgesMet (l : Launch) (i : Nat) : Bool := (List.range (lrNdep l.lr)).all (l.edgeMet i)

/-- Whether a team index waits for a start: 0 saved, 1 discarded, 2 unstarted. -/
def State.startKind (s : State) (l : Launch) (i : Nat) : Option Nat :=
  match l.life i with
  | .finished => none
  | .unstarted => if l.edgesMet i then some 2 else none
  | .live t =>
    let m := s.teamAt t
    match m.phase with
    | .saved _ _ =>
      if m.slotWords.all (fun e => (s.draftOf (s.ctxAt m.ctx).world e.2).isSome) then some 0 else none
    | .discarded => some 1
    | _ => none

/-- The first index from i on, of at most fuel, that waits for a start of this kind. -/
def State.firstOf (s : State) (l : Launch) (kind : Nat) : Nat → Nat → Option Nat
  | 0, _ => none
  | fuel + 1, i => if s.startKind l i = some kind then some i else s.firstOf l kind fuel (i + 1)

/-- The indices of a launch that have neither finished nor a place now. -/
def State.toStart (s : State) (l : Launch) : List Nat :=
  (List.range l.total).filter (fun i =>
    match l.life i with
    | .finished => false
    | .unstarted => true
    | .live t => (match (s.teamAt t).phase with | .saved _ _ => true | .discarded => true | _ => false))

/-- The first team of a launch that is ready: saved before discarded before unstarted, by index (R445). -/
def State.firstReady (s : State) (ln : Nat) : Option Nat :=
  let l := s.launchAt ln
  let c := s.ctxAt l.ctx
  if !c.live || c.ended || c.st != 0 || l.ended then none
  else s.firstOf l 0 l.total 0 <|> s.firstOf l 1 l.total 0 <|> s.firstOf l 2 l.total 0

/-- The record and needs with which a team index would start. -/
def State.startShape (s : State) (l : Launch) (i : Nat) : Nat × List (Nat × Nat) × Nat :=
  match l.life i with
  | .live t => ((s.teamAt t).lr, (s.teamAt t).needs, t)
  | _ => (l.lr, ({ lr := l.lr } : Team).needs, 0)

/-- Whether an FM.REQ of an earlier clk still waits at a loom's format manager: admissions come after it (R500). Of two
admissions of one clk the order by pick slot shows nowhere, since no slot that loads serves another admission. -/
def State.formatBusy (s : State) (die loom : Nat) : Bool :=
  s.ops.any (fun e =>
    let m := s.teamAt (e.2.pick / 64)
    e.2.func == 0x61 && e.2.phase == .queued && m.die == die && m.loom == loom &&
      e.2.arrived.any (fun c => decide (c < (s.dieAt 12).cycles.toNat)))

/-- Whether a ready team may start on a loom now: its hierarchy, the loom and its format manager allow it. -/
def State.canStart (s : State) (ln i die loom : Nat) : Bool :=
  let l := s.launchAt ln
  let (lr, needs, t) := s.startShape l i
  placeOk l.lr i die loom l.placed && s.admits (s.ctxAt l.ctx).world lr needs die loom t && !s.formatBusy die loom

/-! ## Registers at a resume, and the backing area (R94, R95, R97, R100) -/

/-- The bytes of a lane register. -/
def Name.bytes (x : Name) : List Byte := (List.range 32).flatMap (fun i => leBytes 4 (tget 0 x.val i).toNat)

/-- A pick is parked with these names spilled to places that translation gave (R95). -/
def State.parkAt (s : State) (key : Nat) (q : Pick) (at_ : List (Nat × List Nat)) : State :=
  let s1 := at_.foldl (fun s e => s.storePas deviceAgent e.2 (q.name e.1).bytes) s
  let m := s.teamAt q.team
  let s2 := s1.setPickAt key { q with parked := true, parkOrd := s.fresh, spilled := q.spilled ++ at_.map (·.1) }
  (s2.count m.die 0x006 1).count m.die 0x007 at_.length

/-- Where name n of a pick is spilled (R97). -/
def State.spillAt (s : State) (key n : Nat) : Nat :=
  let p := s.pickAt key
  let m := s.teamAt p.team
  (s.ctxAt m.ctx).rbBase + 0x8000 * (96 * (40 * m.die + m.loom) + p.slot) + 128 * n

/-- The names that a pick holds beyond its reservation, the highest numbers first (R95). -/
def Pick.surplusNames (p : Pick) : List Nat :=
  (List.range 4).flatMap (fun b =>
    let ns := ((List.range 239).reverse).filter (fun n => n % 4 == b && (p.name n).st == .allocated && !p.spilled.contains n)
    ns.take (ns.length - p.reserve))

/-- The victim of a bank (R94): of the picks that hold surplus registers there, the lowest class, the latest team start,
the highest slot. Picks that have yet to get their registers back after a resume are left out. -/
def State.victim (s : State) (die loom bank : Nat) (rest : List Nat := []) : Option Nat :=
  let ks := (s.loomPicks die loom).filter (fun k =>
    let p := s.pickAt k
    !p.parked && !rest.contains k && decide (p.reserve < p.holds bank))
  let key (k : Nat) : Nat × Nat × Nat :=
    let p := s.pickAt k
    let m := s.teamAt p.team
    (3 - m.prio, m.startOrd, p.slot)
  let before (a b : Nat × Nat × Nat) : Bool :=
    decide (a.1 < b.1) || (a.1 == b.1 && (decide (a.2.1 < b.2.1) || (a.2.1 == b.2.1 && decide (a.2.2 < b.2.2))))
  ks.foldl (fun v k => match v with
    | none => some k
    | some u => if before (key u) (key k) then some k else some u) none

/-- The places in the backing area of some names of a pick, or the first failure of translation. -/
def State.spillPlaces (s : State) (key : Nat) (ns : List Nat) (need : Nat) : Except AccErr (List (Nat × List Nat)) :=
  ns.mapM (fun n => (s.resolve2 (s.ctxAt (s.teamAt (s.pickAt key).team).ctx) need (s.spillAt key n) 128).map (fun r => (n, r.1)))

/-- A transfer to or from the backing area meets a failure: a fault is raised once (R97). R470 has no agent code for a
transfer: the record gives the scalar agent's (log 52). An address that stage 2 maps to a refused remote address leaves the
transfer undone (log 52). -/
def State.raiseSpill (s : State) (key need : Nat) : AccErr → State
  | .xlate st lvl a va =>
    let who : Nat ⊕ (Nat × BitVec 8) ⊕ Nat := .inr (.inl (key, 0))
    if (s.ctxAt (s.teamAt (s.pickAt key).team).ctx).faults.any (fun f => f.who == who) then s
    else (s.suspend key who st lvl a va (if need = rightW then 5 else 4) 8).1
  | .lost d _ => s.touchLost key d
  | _ => s

/-- A transfer of names to or from the backing area, or the fault that it raises. -/
def State.backing (s : State) (key : Nat) (ns : List Nat) (need : Nat) (k : List (Nat × List Nat) → State) : State :=
  match s.spillPlaces key ns need with
  | .ok at_ => k at_
  | .error e => s.raiseSpill key need e

/-- The name that the 128 bytes of a spill hold (R97). -/
def State.spilledName (s : State) (pas : List Nat) : Name :=
  { st := .allocated
    val := (List.range 32).foldl (fun t i => tput 0 t i
      (BitVec.ofNat 32 (s.readPas deviceAgent ((pas.drop (4 * i)).take 4)))) []
    poison := BitVec.ofNat 32 (maskOf ((List.range 32).filter (fun i => s.poisoned ((pas.drop (4 * i)).take 4)))) }

/-- A parked pick with its spilled names read back from these places (R96, R100). -/
def State.unparked (s : State) (key : Nat) (at_ : List (Nat × List Nat)) : Pick :=
  let p := at_.foldl (fun (p : Pick) e => p.setName e.1 (s.spilledName e.2)) (s.pickAt key)
  { p with parked := false, spilled := [] }

/-- The parked picks of a list get their names back, one after the other (R100). -/
def State.unparkAll (k : State → State) : List Nat → State → State
  | [], s => k s
  | x :: xs, s =>
    if (s.pickAt x).parked then
      s.backing x (s.pickAt x).spilled rightR fun at_ => (s.setPickAt x (s.unparked x at_)).unparkAll k xs
    else s.unparkAll k xs

/-- The first bank of a loom whose picks hold or reserve more registers than it has, those in rest counted with their
reservations alone (R88). -/
def State.overfull (s : State) (die loom : Nat) (rest : List Nat) : Option Nat :=
  (List.range 4).find? (fun b => decide (1024 < ((s.loomPicks die loom).map (fun k =>
    let p := s.pickAt k
    if rest.contains k then p.reserve else max p.reserve (p.holds b))).sum))

/-- While the picks of a loom hold more than it has, R94's victim is parked; or the pick whose spill does not translate,
with the failure. -/
def State.parkVictims (s : State) (die loom : Nat) (rest : List Nat) : Nat → Except (Nat × AccErr) State
  | 0 => .ok s
  | fuel + 1 =>
    match (s.overfull die loom rest).bind (fun b => s.victim die loom b rest) with
    | none => .ok s
    | some v =>
      let q := (s.pickAt v).drain
      match s.spillPlaces v q.surplusNames rightW with
      | .error e => .error (v, e)
      | .ok at_ => (s.parkAt v q at_).parkVictims die loom rest fuel

/-- The picks of a resumed team get the registers of their saved names, in ascending order; those beyond a reservation draw on
the surplus, and R94's victims are parked where it is empty (R94, R100). -/
def State.fitPicks (s : State) (die loom : Nat) : List Nat → Except (Nat × AccErr) State
  | [] => .ok s
  | _ :: rest => do
    let s1 ← s.parkVictims die loom rest (s.loomPicks die loom).length
    s1.fitPicks die loom rest

/-- A saved pick in the slot it starts in again: what had stopped goes on. -/
def Pick.resumed (p : Pick) (slot : Nat) : Pick :=
  { p with slot, wait := match p.wait with | .stopped => .none | w => w }

/-- The team starts on the loom: a new team, a discarded one from its beginning, a saved one where it stood. -/
def State.startOne (s : State) (ln i die loom : Nat) : State :=
  let l := s.launchAt ln
  let slots := s.usedSlots die loom 0
  let (t, m0) : Nat × Team := match l.life i with
    | .live t => (t, s.teamAt t)
    | _ => (s.nextTeam, { ctx := l.ctx, launch := ln, index := i, lr := l.lr, lrec := l.lrec, total := l.total,
                          coords := levelCoords l.lr i 0, prio := lrPri l.lr })
  let saved := match m0.phase with | .saved _ _ => true | _ => false
  let m := { m0 with die, loom, startOrd := if saved && !m0.succWait then m0.startOrd else s.fresh }
  let s1 : State := { s with nextTeam := if t = s.nextTeam then t + 1 else s.nextTeam }
  let s2 := (s1.setLaunchAt ln { l with
    lives := tput .unstarted l.lives i (.live t)
    runW := l.runW <|> some s.nextW
    placed := (i, die, loom) :: l.placed.filter (fun e => e.1 != i) }).touchDies l.ctx (2 ^ die)
  let s3 :=
    if saved then
      let keys := m.picks
      let c := s2.ctxAt l.ctx
      let img := match m0.phase with | .saved o _ => o | _ => 0
      let s4 := (s2.setCtxAt l.ctx { c with saveUsed := c.saveUsed.filter (fun e => e.1 != img) }).setTeamAt t m
      (keys.zip (placeSlots keys.length slots)).foldl
        (fun s e => s.setPickAt e.1 ((s.pickAt e.1).resumed e.2)) s4
    else
      let keys := (List.range (lrP m.lr)).map (64 * t + ·)
      let s4 := (s2.freshTeamLog t).setTeamAt t { m with
        picks := keys, li := 0, by_ := 0, scratch := [], tiles := [], scratchPoison := [], tilePoison := [],
        foor := false, flate := false, fpicks := 0, flanes := 0, goneMask := 0 }
      (keys.zip (placeSlots keys.length slots)).foldl
        (fun s e => s.setPickAt e.1 (m.freshPick t (e.1 - 64 * t) e.2)) s4
  let s5 := if m.succWait then s3.buildSuccessor t else s3
  let s6 := (s5.teamAt t).picks.foldl (fun s k => s.learn (scalarKey k) l.carry) s5
  s6.takeSlots t

/-- Whether launch a is considered before launch b (R445). -/
def Launch.before (a b : Launch) : Bool :=
  decide (lrPri b.lr < lrPri a.lr) || (lrPri a.lr == lrPri b.lr && decide (a.order < b.order))

/-- The looms of the partition that a launch may use. -/
def State.launchLooms (s : State) (ln : Nat) : List (Nat × Nat) :=
  (s.partitionDies (s.ctxAt (s.launchAt ln).ctx).world).flatMap (fun d => (List.range 40).map (fun l => (d, l)))

/-- The first loom of a world's partition on which a ready team can start. -/
def State.firstLoom (s : State) (ln i : Nat) : Option (Nat × Nat) :=
  (s.launchLooms ln).find? (fun x => s.canStart ln i x.1 x.2)

/-- A placement of these teams of a cooperative launch together, if there is one: every loom is tried for every team
(R445). -/
def State.findPlan (s : State) (ln : Nat) : List Nat → Option (List (Nat × Nat × Nat))
  | [] => some []
  | i :: is => (s.launchLooms ln).findSome? (fun x =>
    if s.canStart ln i x.1 x.2 then ((s.startOne ln i x.1 x.2).findPlan ln is).map ((i, x.1, x.2) :: ·) else none)

/-- Whether a launch could start a team now; a cooperative one all its teams together (R445). -/
def State.couldStart (s : State) (ln : Nat) : Bool :=
  let l := s.launchAt ln
  match s.firstReady ln with
  | none => false
  | some i =>
    if lrCoop l.lr then
      let todo := s.toStart l
      todo.all (fun j => (s.startKind l j).isSome) && (s.findPlan ln todo).isSome
    else (s.firstLoom ln i).isSome

/-- Whether some launch considered earlier could start a team now (R445). -/
def State.earlierStarts (s : State) (ln : Nat) : Bool :=
  let l := s.launchAt ln
  let w := (s.ctxAt l.ctx).world
  s.launches.any (fun e => e.1 != ln && e.2.before l && (s.ctxAt e.2.ctx).world == w && s.couldStart e.1)

/-- Every team of a cooperative launch starts where its plan puts it, if all of them can (R445, R65). -/
def State.startPlan (s : State) (ln : Nat) : List (Nat × Nat × Nat) → Option State
  | [] => some s
  | (i, d, l) :: ps => if s.canStart ln i d l then (s.startOne ln i d l).startPlan ln ps else none

/-- The registers of the teams that a plan has started, where some were saved: victims are parked (R94, R100). A spill that does
not translate raises its fault, and the start waits for the service (R97); s is the state before. -/
def State.fitPlan (s s1 : State) (ln : Nat) (plan : List (Nat × Nat × Nat)) : State :=
  let teamOf (i : Nat) : Nat := match (s1.launchAt ln).life i with | .live t => t | _ => 0
  let wasSaved (i : Nat) : Bool := match (s.launchAt ln).life i with
    | .live t => (match (s.teamAt t).phase with | .saved _ _ => true | _ => false)
    | _ => false
  let saved := plan.filter (fun e => wasSaved e.1)
  match saved.foldlM (fun x e => x.fitPicks e.2.1 e.2.2 (s1.teamAt (teamOf e.1)).picks) s1 with
  | .ok s2 => s2
  | .error (v, e) =>
    let at_ := saved.foldl (fun s e =>
      let t := teamOf e.1
      s.setTeamAt t { s.teamAt t with die := e.2.1, loom := e.2.2 }) s
    at_.raiseSpill v rightW e

/-- TEAM_START (R43, R443, R445): the distributor starts a ready team on a loom. For a cooperative launch the event
names the place of one more team; the teams start together with the last of them. -/
def execTeamStart (launch team die loom : Nat) (s : State) : Out :=
  let l := s.launchAt launch
  if s.firstReady launch = none || s.earlierStarts launch then .next s
  else if lrCoop l.lr then
    let todo := s.toStart l
    if !todo.contains team || todo.any (fun i => (s.startKind l i).isNone) then .next s
    else
      let plan := l.plan.filter (fun e => todo.contains e.1 && e.1 != team) ++ [(team, die, loom)]
      if plan.length < todo.length then .next (s.setLaunchAt launch { l with plan })
      else match (s.setLaunchAt launch { l with plan := [] }).startPlan launch plan with
        | some s1 => .next ((s.setLaunchAt launch { l with plan := [] }).fitPlan s1 launch plan)
        | none => .next (s.setLaunchAt launch { l with plan := [] })
  else if s.firstReady launch = some team && s.canStart launch team die loom then
    .next (s.fitPlan (s.startOne launch team die loom) launch [(team, die, loom)])
  else .next s

/-! ## The end of a team (R45, R71 to R73, R454) -/

/-- Whether a pick's operation waits at the rendezvous latch (R350). -/
def Op.atLatch (o : Op) : Bool := o.func == 0x11 && o.phase == .latched && o.joint.isEmpty && o.fail.isNone

/-- The operations of a team that have not completed. -/
def State.teamOps (s : State) (t : Nat) : List (Nat × Op) :=
  s.ops.filter (fun e => e.2.pick / 64 == t && e.2.phase != .abandoned)

/-- A pre-emption record (R458); one whose bytes cannot be written is dropped (log 9). -/
def State.prqRecord (s : State) (t out image : Nat) : State :=
  let m := s.teamAt t
  let c := s.ctxAt m.ctx
  let rdv := (s.teamOps t).any (fun e => e.2.atLatch)
  let x := m.index + out * 2 ^ 32 + (if rdv then 2 ^ 35 else 0) + m.die % 16 * 2 ^ 36 + m.loom % 64 * 2 ^ 40 +
    (s.launchAt m.launch).lnum * 2 ^ 64 + (s.dieAt m.die).cycles.toNat * 2 ^ 128 + image * 2 ^ 192
  let s1 := s.setCtxAt m.ctx { c with prqCount := c.prqCount + 1 }
  match s1.resolve (s1.ctxAt m.ctx) rightW (c.prqrec + 32 * c.prqCount) 32 with
  | .error _ => s1
  | .ok (pas, _) => s1.storePas deviceAgent pas (leBytes 32 x)

/-- When every decision of a request has been carried out the context is stopped (R450). -/
def State.prqCheck (s : State) (ctx : Nat) : State :=
  let c := s.ctxAt ctx
  if c.st = 1 ∧ !(s.teams.any (fun e => e.2.ctx == ctx && e.2.phase.resident)) then
    s.setCtxAt ctx { c with st := 2, prqdone := if c.prqWaiting then 0 else c.prqCount, prqgo := false, prqWaiting := false }
  else s

/-- A team whose last pick ended waits to publish (R45, R454). -/
def State.teamEnds (s : State) (t : Nat) : State :=
  let m := s.teamAt t
  let s0 := s.releaseRefs t 0
  let m1 := { s0.teamAt t with phase := .done (if m.fpicks = 0 then 1 else 2), inflight := [], tiles := [], scratch := [],
                                endOrd := s.fresh }
  let s1 := s0.setTeamAt t m1
  match m.phase with
  | .draining _ out => ((s1.setTeamAt t { m1 with pre := 1 }).prqRecord t out 0).prqCheck m.ctx
  | .saving _ img _ =>
    let c := s1.ctxAt m.ctx
    (((s1.setCtxAt m.ctx { c with saveUsed := c.saveUsed.filter (fun e => e.1 != img) }).setTeamAt t
      { m1 with pre := 1 }).prqRecord t 1 0).prqCheck m.ctx
  | _ => if (s1.ctxAt m.ctx).st = 1 then (s1.prqRecord t 5 0).prqCheck m.ctx else s1

/-- Step 3 of R45: the pick's registers and slot are free; its FMASK goes into the summary; the team ends with its last
pick. -/
def State.pickEnds (s : State) (key : Nat) : State :=
  let p := s.pickAt key
  let m := s.teamAt p.team
  let m1 := { m.addFmask p.fmask with
    picks := m.picks.filter (· != key)
    goneMask := m.goneMask ||| BitVec.ofNat 64 (2 ^ p.index)
    by_ := m.by_ + p.moved }
  let s1 := ((s.countAborts key).setTeamAt p.team m1).setPickAt key {}
  if m1.picks.isEmpty then s1.teamEnds p.team else s1

/-- A completion record (R71). -/
def Team.complRecord (m : Team) (status cause die stamp : Nat) : Nat :=
  status + cause * 2 ^ 8 + m.pre % 4 * 2 ^ 16 + (if m.foor then 2 ^ 18 else 0) + (if m.flate then 2 ^ 19 else 0) +
    min m.precnt 15 * 2 ^ 20 + m.fpicks % 256 * 2 ^ 24 + m.flanes.toNat * 2 ^ 32 + die * 2 ^ 64 + stamp % 2 ^ 56 * 2 ^ 72

/-- A completion record is written at a base plus 16 × index in one store that releases these write records at device
scope (R73). A record whose bytes cannot be written is dropped (log 9). -/
def State.writeCompletion (s : State) (ctx base index x : Nat) (ids : List Nat) : State :=
  match s.resolve (s.ctxAt ctx) rightW (base + 16 * index) 16 with
  | .error _ => s
  | .ok (pas, _) =>
    let s1 := s.learn deviceAgent.key ids
    s1.putUnits (deviceAgent.as { ord := 3, scp := 4 }) [⟨0, 4, s1.nextW :: s1.knownIds deviceAgent⟩]
      [(memUnits (wholeBytes pas (leBytes 16 x))).flatten]

/-- A team index has finally published; a launch all of whose teams have has ended (R448). -/
def State.finishIndex (s : State) (ln i : Nat) : State :=
  let l := s.launchAt ln
  let lives := tput .unstarted l.lives i .finished
  s.setLaunchAt ln { l with lives, ended := decide ((lives.filter (fun e => e.2 == .finished)).length = l.total) }

/-- The STATUS at a completion record, with the write records that a device-scope acquire of it orders (R447); 0 when it
cannot be read. -/
def State.statusAt (s : State) (ctx va : Nat) : Nat × List Nat :=
  match s.resolve (s.ctxAt ctx) rightR va 16 with
  | .error _ => (0, [])
  | .ok (pas, _) =>
    let (vs, ids) := s.look deviceAgent true (s.memCells pas)
    let rels := (s.relsSeen { ord := 2, scp := 4 } [] ids).filter (fun x => s.inScope x.scope x.pick 0)
    ((vs.headD 0).toNat, ids ++ rels.flatMap (·.ids))

/-- Whether a STATUS breaks an edge (R448). -/
def breaks (st : Nat) : Bool := decide (4 ≤ st ∧ st ≤ 7)

/-- Whether an edge of an unstarted team is broken: its NOT_STARTED is due (R448). -/
def State.brokenFor (s : State) (l : Launch) (i : Nat) : Bool :=
  (List.range (lrNdep l.lr)).any (fun e =>
    let (base, cnt, map) := lrEdge l.lr e
    (List.range cnt).any (fun k => (map != 0 || k == i) && breaks (s.statusAt l.ctx (base + 16 * k)).1))

/-- Whether a launch's task table has to be written back before a team's record: it is the last of the launch to end, the
others having ended, and those that never started being about to publish (R520). Where an unstarted team's edges are open the
team is not yet the last (log 60). -/
def State.awaitsTable (s : State) (m : Team) : Bool :=
  let l := s.launchAt m.launch
  !l.tasks.isEmpty && !l.wroteBack && (List.range l.total).all (fun i => i == m.index ||
    match l.life i with
    | .finished => true
    | .unstarted => (s.ctxAt m.ctx).ended || s.brokenFor l i
    | .live u => match (s.teamAt u).phase with
      | .done _ => decide ((s.teamAt u).endOrd ≤ m.endOrd)
      | .published => true
      | _ => false)

/-- COMPLETION_PUBLISH (R71 to R73, R403, R520): the focus team's record is written once its stores are complete, its
chain before it has published, and, for the last of a launch, the task table is back. -/
def execCompletionPublish (s : State) : Out :=
  let t := s.cur / 64
  let m := s.teamAt t
  match m.phase with
  | .done status =>
    let waits := m.waitOps.any (fun o => ((s.opAt o).map (fun x => x.phase != .abandoned)).getD false)
    let chain := m.pred != 0 && (match (s.teamAt m.pred).phase with | .done _ => true | _ => false)
    let stopping := s.ops.any (fun e => e.2.pick / 64 == t && e.2.phase == .abandoned)
    if waits || chain || stopping || (status != 3 && ((s.teamOps t).length != 0 || s.awaitsTable m)) then .next s
    else
      let s1 := s.writeCompletion m.ctx (lrCompl m.lr) m.index
        (m.complRecord status m.cause.toNat m.die (s.dieAt m.die).cycles.toNat) (m.carry ++ s.teamIds t)
      let s2 := s1.setTeamAt t { phase := .published, ctx := m.ctx, launch := m.launch, index := m.index }
      .next (if status = 3 then s2 else s2.finishIndex m.launch m.index)
  | _ => .next s

/-! ## Dependency edges (R447, R448) -/

/-- A team that never started publishes (R72, R448): NOT_STARTED, or the status with which its context ended; that the latter
too shows die 12 and its counter is the model's choice (log 60). -/
def State.publishUnstarted (s : State) (ln i status cause : Nat) : State :=
  let l := s.launchAt ln
  let x := ({} : Team).complRecord status cause 12 (s.dieAt 12).cycles.toNat
  (s.writeCompletion l.ctx (lrCompl l.lr) i x []).finishIndex ln i

/-- The first record of an edge, of n, whose STATUS breaks it. -/
def State.brokenAt (s : State) (ctx base : Nat) : Nat → Nat → Option (Nat × Nat)
  | 0, _ => none
  | n + 1, i =>
    let st := (s.statusAt ctx (base + 16 * i)).1
    if breaks st then some (i, st) else s.brokenAt ctx base n (i + 1)

/-- The unstarted teams of a launch publish NOT_STARTED. -/
def State.notStarted (s : State) (ln : Nat) (is : List Nat) : State :=
  is.foldl (fun s i => if (s.launchAt ln).life i = .unstarted then s.publishUnstarted ln i 7 0 else s) s

/-- One edge is examined: records that complete it are noted; one that breaks it is reported once and its dependents
publish NOT_STARTED, the whole launch when it is cooperative (R448). -/
def State.examineEdge (s : State) (ln e : Nat) : State :=
  let l := s.launchAt ln
  let (base, cnt, map) := lrEdge l.lr e
  let n := if map = 0 then min cnt l.total else cnt
  let stat (i : Nat) := s.statusAt l.ctx (base + 16 * i)
  let ok (i : Nat) : Bool := (stat i).1 == 1 || (stat i).1 == 2
  let met :=
    if map = 0 then ((List.range n).filter (fun i => ok i && !l.met.contains (e, i))).map (fun i => (e, i))
    else if (List.range n).all ok && !l.met.contains (e, 2 ^ 32) then [(e, 2 ^ 32)] else []
  let ids := if met.isEmpty then [] else (List.range n).flatMap (fun i => if ok i then (stat i).2 else [])
  let s1 := if met.isEmpty then s else s.setLaunchAt ln { l with met := l.met ++ met, carry := (l.carry ++ ids).dedup }
  let l1 := s1.launchAt ln
  if map = 1 && l1.met.contains (e, 2 ^ 32) then s1
  else match s1.brokenAt l.ctx base n 0 with
    | none => s1
    | some (i, st) =>
      let s2 := if l1.broken.contains e then s1
        else (s1.report (faultMsg 4 l.ctx (s.ctxAt l.ctx).world 12 0 l.lnum 0 0 (e + i * 2 ^ 32 + st * 2 ^ 64))).setLaunchAt
          ln { l1 with broken := e :: l1.broken }
      if map = 1 || lrCoop l.lr then s2.notStarted ln (List.range l.total)
      else s2.notStarted ln ((List.range n).filter (fun i => breaks (stat i).1))

/-- DEPENDENCY_EDGE_CHECK (R447, R448). The teams of an ended context that never started, or were taken off, publish
with its status (R72, R428). -/
def execDependencyEdgeCheck (launch : Nat) (s : State) : Out :=
  let l := s.launchAt launch
  let c := s.ctxAt l.ctx
  if l.total = 0 || l.ended then .next s
  else if c.ended then
    .next ((List.range l.total).foldl (fun s i =>
      if (s.launchAt launch).life i = .unstarted then s.publishUnstarted launch i c.endStatus
        (if c.endStatus = 4 then c.endCause else 0) else s) s)
  else if l.lives.any (fun e => e.2 != .finished) && lrCoop l.lr then .next s
  else .next ((List.range (lrNdep l.lr)).foldl (fun s e => s.examineEdge launch e) s)

/-! ## Pre-emption (R450 to R454) -/

/-- The size of a team's save image (R456). -/
def imageBytes (lr : Nat) : Nat := 4096 + 53248 * lrP lr + 256 * lrScru lr + 65536 * lrTiles lr

/-- S of R452 in ns. -/
def saveTime (lr : Nat) : ℚ := 2000 + (imageBytes lr : ℚ) / 128

/-- The decision of R452: 1 DRAIN, 2 DISCARD, 3 SAVE. -/
def decideTeam (m : Team) (alw : BitVec 2) (e d : ℚ) : Nat :=
  let part (x n : Nat) : Option ℚ := if n = 0 then none else some ((x : ℚ) / (256 * n : ℕ))
  let f : Option ℚ := match part m.li (lrExpli m.lr), part m.by_ (lrExpby m.lr) with
    | some a, some b => some (max a b)
    | some a, none => some a
    | none, b => b
  let sv := saveTime m.lr
  let drains := match f with
    | some f => decide (0 < f) && alw.getLsbD 0 &&
        (let g := min f (15 / 16)
         decide (e * (1 - g) / g + sv ≤ d))
    | none => false
  if m.succWait then 3
  else if drains then 1
  else if lrRestart m.lr && alw.getLsbD 1 && decide (e ≤ sv) then 2
  else 3

/-- Room in a save area of this size for n more bytes beside the images in use: the lowest offset that is free. -/
def saveRoom (size n : Nat) (used : List (Nat × Nat)) : Option Nat :=
  let starts := 0 :: used.map (fun e => e.1 + e.2)
  let ok := starts.filter (fun o => decide (o + n ≤ size) && used.all (fun e => decide (o + n ≤ e.1 ∨ e.1 + e.2 ≤ o)))
  if n = 0 then none else ok.min?

/-- The bytes that a team's completed accesses have moved (R451). -/
def State.bytesOf (s : State) (m : Team) : Nat := m.by_ + (m.picks.map (fun k => (s.pickAt k).moved)).sum

/-- The unanswered faults of some picks, and of their operations where those stop too, lapse (R454). -/
def State.lapseFaults (s : State) (ctx : Nat) (picks : List Nat) (opsToo : Bool) : State :=
  let c := s.ctxAt ctx
  let lapsed (f : FaultRec) : Bool := match f.who with
    | .inl k => picks.contains k
    | .inr (.inl (k, _)) => picks.contains k
    | .inr (.inr k) => opsToo && (s.opAt k).any (fun o => picks.contains o.pick)
  s.setCtxAt ctx { c with faults := c.faults.filter (fun f => !lapsed f) }

/-- A discard (R454): the team leaves its loom and is ready to start from its beginning. -/
def State.discardTeam (s : State) (t : Nat) : State :=
  let m := s.teamAt t
  let s0 := ((s.lapseFaults m.ctx m.picks true).settleOps t).prqRecord t 2 0
  let s1 := { s0 with ops := s0.ops.filter (fun e => e.2.pick / 64 != t) }
  let s2 := ((s1.dropPicks m.picks).releaseRefs t 0)
  let s3 := (s2.freshTeamLog t).setTeamAt t { s2.teamAt t with
    carry := (s2.teamAt t).carry ++ s2.teamIds t
    phase := .discarded, pre := 2, picks := [], inflight := [], scratch := [], tiles := [], barNow := [], barPast := [],
    succWait := false, slotWords := [] }
  let l := s3.launchAt m.launch
  (s3.setLaunchAt m.launch { l with
    regrant := (l.regrant ++ (l.granted.filter (fun e => e.1 == t)).map (·.2)).insertionSort (· ≤ ·)
    granted := l.granted.filter (fun e => e.1 != t)
    placed := l.placed.filter (fun e => e.1 != m.index)
    tasks := l.tasks.map (fun k => if k.issued && !k.done && k.holder == t then { k with issued := false } else k) })

/-- An action is decided for a team and begun (R454). -/
def State.decided (s : State) (t action deadline : Nat) : State :=
  let m := { s.teamAt t with precnt := min 15 ((s.teamAt t).precnt + 1) }
  let c := s.ctxAt m.ctx
  match action with
  | 1 => s.setTeamAt t { m with phase := .draining deadline 1, pre := 1 }
  | 2 => (s.setTeamAt t m).discardTeam t
  | _ =>
    let n := imageBytes m.lr
    match saveRoom c.saveSize n c.saveUsed with
    | some o => (s.setCtxAt m.ctx { c with saveUsed := (o, n) :: c.saveUsed }).setTeamAt t
        { m with phase := .saving 3 o n, pre := 3 }
    | none => s.setTeamAt t { m with phase := if m.succWait then m.phase else .draining deadline 5, pre := 1 }

/-- A pre-emption request of a context begins, or waits for the one in progress (R450, R452): its teams are decided, those of
a cooperative launch alike. -/
def State.preempt (s : State) (ctx : Nat) : State :=
  let c := s.ctxAt ctx
  if !c.live || c.ended then s
  else if c.prqgo then s.setCtxAt ctx { c with prqWaiting := true }
  else
    let now := fun (m : Team) => s.ns m.die
    let act (m : Team) : Nat := decideTeam { m with by_ := s.bytesOf m } c.prqalw (((s.dieAt m.die).cycles.toNat - m.started : ℕ) * 5 / 9) (c.prqdl * 1000 : ℕ)
    let ts := s.teams.filter (fun e => e.2.ctx == ctx && e.2.phase.resident)
    let action (e : Nat × Team) : Nat :=
      if lrCoop (s.launchAt e.2.launch).lr then
        let acts := (ts.filter (fun x => x.2.launch == e.2.launch)).map (fun x => act x.2)
        if acts.all (· == 1) then 1 else if acts.all (· == 2) then 2 else 3
      else act e.2
    let s1 := s.setCtxAt ctx { c with st := 1, prqgo := true, prqCount := 0 }
    (ts.foldl (fun s e => s.decided e.1 (action e) (now e.2 + c.prqdl * 1000)) s1).prqCheck ctx

/-- The contexts with teams on some of these dies. -/
def State.ctxsOn (s : State) (mask : BitVec 12) : List Nat :=
  ((s.teams.filter (fun e => e.2.phase.resident && mask.getLsbD e.2.die)).map (fun e => e.2.ctx)).eraseDups

/-- PREEMPT_REQUEST (R450): of one context through PRQGO, or of every context with teams on a set of dies. -/
def execPreemptRequest (who : PrqScope) (s : State) : Out :=
  match who with
  | .context ctx => .next (s.preempt ctx)
  | .dies mask => .next ((s.ctxsOn mask).foldl State.preempt s)

/-- DRAIN_TURNS_SAVE (R454): the focus team's drain becomes a save when D ≤ S. -/
def execDrainTurnsSave (s : State) : Out :=
  let t := s.cur / 64
  let m := s.teamAt t
  match m.phase with
  | .draining deadline 1 =>
    if decide (((deadline : ℚ) - (s.ns m.die : ℚ)) ≤ saveTime m.lr) then
      let c := s.ctxAt m.ctx
      let n := imageBytes m.lr
      match saveRoom c.saveSize n c.saveUsed with
      | some o => .next ((s.setCtxAt m.ctx { c with saveUsed := (o, n) :: c.saveUsed }).setTeamAt t
          { m with phase := .saving 4 o n, pre := 3 })
      | none => .next (s.setTeamAt t { m with phase := .draining deadline 5 })
    else .next s
  | _ => .next s

end Sys2Proof.Machine
end

