-- ==== Sys2Proof/Machine/ScalarControl.lean ====
section
/-! DEFINITION. S-stream control: branches, the window, lane blocks, paths and fences, barriers, pick state, control
registers and traps (R246 to R261, R267 to R271). -/

namespace Sys2Proof.Machine

/-- The address off words on from the instruction in execution. -/
def State.relative (s : State) (off : Int) : Word := s.pick.spc + wordOf (4 * off)

/-- SBR (R246). -/
def execSbr (neg : BitVec 1) (b : BitVec 3) (o : BitVec 22) (s : State) : Out :=
  if s.pick.b b != (neg == 1) then .next (s.goto (s.relative o.toInt)) else .next s.advance

/-- SJ: SBR with neg 0 and bidx 0, always taken (R246). -/
def execSj (o : BitVec 22) (s : State) : Out := .next (s.goto (s.relative o.toInt))

/-- SCALL (R247). -/
def execScall (d : BitVec 6) (i : BitVec 20) (s : State) : Out :=
  s.withOperands [] [d] fun _ => .next ((s.setS d (s.pick.spc + 4)).goto (s.relative i.toInt))

/-- SRET (R248). -/
def execSret (a : BitVec 6) (s : State) : Out :=
  s.withOperands [a] [] fun w =>
    if (w a).toNat % 4 ≠ 0 then s.trapS .misalign ((w a).setWidth 64) else .next (s.goto (w a))

/-- SWIN (R249). -/
def execSwin (i : BitVec 20) (s : State) : Out :=
  if i.toNat % 16 ≠ 0 ∨ 960 < i.toNat then s.trapS .illOperand s.opc6
  else .next (s.setPick { s.pick with wb := i.setWidth 10 }).advance

/-- Whether the drain of an XFENCE that names a class in its target set is still going on (R254). Class 0 is the lane
class, named by LD or ST. -/
def Pick.drains (p : Pick) (cls : Nat) : Bool :=
  p.xfences.any (fun x => !x.drained && (if cls = 0 then x.tgt &&& 3 != 0 else x.tgt.getLsbD cls))

/-- The registers that an LGO captures. -/
def captured (cb : BitVec 6) : List (BitVec 6) := (List.range 16).map (fun i => cb + BitVec.ofNat 6 i)

/-- LGO (R47, R48, R165, R250, R415): the window is captured, the block queued, and the LD and ST batches then open hold
it. -/
def execLgo (cb : BitVec 6) (t : BitVec 20) (s : State) : Out :=
  if 48 < cb.toNat then s.trapS .illOperand s.opc6
  else s.withOperands (captured cb) [] fun w =>
    let p := s.pick
    if 4 ≤ p.blocks.length ∨ p.drains 0 then s.stall
    else
      let b : Block := {
        target := BitVec.ofNat 32 (12 * t.toNat)
        capBase := p.abs cb
        k := (List.range 16).foldl (fun f i => tput 0 f i (w (cb + BitVec.ofNat 6 i))) []
        fmtr := p.fmtr
        batches := (List.range 8).map (fun n => (p.path n).opened.num)
        xseq := p.xseq
        knows := s.knownIds s.scalarAgent
        atW0 := cb == 0 }
      let join (p : Pick) (n : Nat) : Pick :=
        let x := p.path n
        p.setPath n { x with opened := { x.opened with blocks := x.opened.blocks + 1 } }
      .next (s.setPick ((join (join p 0) 1).setBlocks (p.blocks ++ [b]))).advance

/-- The blocks that ended in the mode the pick is in are covered: their windows are free and their accesses happen
before what follows (R51 to R53). -/
def State.coverBlocks (s : State) : State :=
  let p := s.pick
  let es := if p.mode then p.huncovered else p.uncovered
  (s.learn (scalarKey s.cur) (es.flatMap (·.ids))).setPick (if p.mode then { p with huncovered := [] } else { p with uncovered := [] })

/-- LWAIT (R51, R251, R415). -/
def execLwait (n : BitVec 20) (s : State) : Out :=
  if 3 < n.toNat then s.trapS .illOperand s.opc6
  else if n.toNat < s.pick.blocks.length then s.stall
  else .next s.coverBlocks.advance

/-- PCLOSE (R165, R252). -/
def execPclose (p : BitVec 3) (s : State) : Out :=
  if 63 ≤ (s.pick.path p.toNat).counter then s.stall else .next (s.setPick (s.pick.pclose p.toNat)).advance

/-- The retired batches of a path are covered: their accesses, and what those acquired, happen before what follows, and
their in-flight marks go (R150, R167, R179). -/
def State.coverBatches (s : State) (path : Nat) : State :=
  let x := s.pick.path path
  let ids := (s.wlog.filter (fun r => r.pick == s.cur && r.path == path && decide (r.batch ≤ x.retired))).map (·.id) ++
    (x.acq.filter (fun e => decide (e.1 ≤ x.retired))).flatMap (·.2)
  let s0 := if x.acq.isEmpty then s
    else s.setPick (s.pick.setPath path { x with acq := x.acq.filter (fun e => decide (x.retired < e.1)) })
  let s1 := s0.learn (scalarKey s.cur) ids
  let m := s1.team
  if m.inflight.isEmpty then s1
  else s1.setTeam { m with
    inflight := m.inflight.filter (fun e => !(e.pick == s.cur && e.path == path && decide (e.batch ≤ x.retired))) }

/-- The oldest pending cause of a path traps and is cleared (R168). -/
def State.trapCause (s : State) (path : Nat) : Option Out :=
  let x := s.pick.path path
  match x.causes with
  | [] => none
  | (_, c, v) :: cs => some ((s.setPick (s.pick.setPath path { x with causes := cs })).trapS c v)

/-- PWAIT (R167, R168, R253). -/
def execPwait (a : BitVec 6) (p : BitVec 3) (s : State) : Out :=
  s.withOperands [a] [] fun w =>
    if (w a).toNat < (s.pick.path p.toNat).counter then s.stall
    else match s.trapCause p.toNat with
      | some o => o
      | none => .next (s.coverBatches p.toNat).advance

/-- XFENCE (R181, R182, R254). -/
def execXfence (scp : BitVec 3) (t f : BitVec 8) (s : State) : Out :=
  if t = 0 ∨ f = 0 ∨ 5 < scp.toNat then s.trapS .illOperand s.opc6
  else
    let p := s.pick
    let q := p.xseq + 1
    let lane (m : BitVec 8) : BitVec 8 := if m &&& 3 = 0 then m else m ||| 3
    let order (r : WRec) : WRec :=
      if (lane f).getLsbD r.cls && r.known.contains (scalarKey s.cur) && s.inScope scp.toNat s.cur r.pick then
        { r with fenced := (s.cur, lane t, q) :: r.fenced }
      else r
    let s1 := s.setPick { p with xseq := q, xfences := p.xfences ++ [⟨f, t, scp, false⟩] }
    .next ({ s1 with wlog := s1.wlog.map order } : State).advance

/-- FENCE (R178, R255). Every earlier scalar access is already performed (R244). -/
def execFence (scp kind : BitVec 3) (s : State) : Out :=
  if kind.toNat < 2 ∨ 4 < kind.toNat ∨ 5 < scp.toNat then s.trapS .illOperand s.opc6
  else .next (s.fence s.scalarAgent kind.toNat scp.toNat).advance

/-- An object that begins anew has lost what arrived and completed (R257). -/
def Team.dropBar (m : Team) (a : Nat) : Team :=
  { m with barNow := tput [] m.barNow a []
           barPast := tput [] m.barPast a []
           inflight := m.inflight.map (fun x => if x.onto = some a then { x with onto := none } else x) }

/-- BARINIT (R256, R257). -/
def execBarinit (a : BitVec 6) (e : BitVec 8) (s : State) : Out :=
  if e = 0 then s.trapS .illOperand s.opc6
  else s.withOperands [a] [] fun w => s.withBar (w a) false fun n =>
    .next ((s.setTeam (s.team.dropBar n)).putBar s.scalarAgent s.pick.team n (e.toNat * 256)).advance

/-- BARARR (R170, R256, R258). -/
def execBararr (a b : BitVec 6) (s : State) : Out :=
  s.withOperands [a, b] [] fun w => s.withBar (w a) true fun n =>
    let o := s.team.bar n
    let xb := o.xb + (w b).toInt
    if o.arr = o.expa ∨ xbOut xb then s.trapS .illOperand s.opc6
    else .next (s.barUpdate s.scalarAgent s.pick.team n { o with arr := (o.arr + 1) % 256, xb } (s.knownIds s.scalarAgent)).advance

/-- BARWAIT (R170, R256, R258). -/
def execBarwait (a b : BitVec 6) (s : State) : Out :=
  s.withOperands [a, b] [] fun w => s.withBar (w a) true fun n =>
    if (s.team.bar n).phase = (w b).getLsbD 0 then s.stall
    else .next (s.learn (scalarKey s.cur) (s.orderedIds 1 1 (tget [] s.team.barPast n))).advance

/-- SETFMT (R83, R259). -/
def execSetfmt (a b : BitVec 6) (s : State) : Out :=
  s.withOperands [a, b] [] fun w =>
    let v := fmtrClean (masked s.pick.fmtr (w a) (w b))
    if w b = 0 then .next s.advance
    else if fmtrBad v then s.trapS .illOperand s.opc6
    else .next (s.setPick { s.pick with fmtr := v }).advance

/-- STCFG (R83, R259). -/
def execStcfg (a b : BitVec 6) (s : State) : Out :=
  s.withOperands [a, b] [] fun w =>
    let v := tcfgClean (masked s.pick.tcfg (w a) (w b))
    if w b = 0 then .next s.advance
    else if tcfgBad v then s.trapS .illOperand s.opc6
    else .next (s.setPick { s.pick with tcfg := v }).advance

/-- GANG (R260). -/
def execGang (a b : BitVec 6) (s : State) : Out :=
  s.withOperands [a, b] [] fun w =>
    .next (s.setPick { s.pick with gang := 0#16 ++ (w b).setWidth 16 ++ w a }).advance

/-- The waiting SEXIT or RETIRE closes each path's open batch as PCLOSE would, once (R168); none when a counter stands at
63. -/
def Pick.closeOnce (p : Pick) : Option Pick :=
  if p.closing then some p
  else if (List.range 8).any (fun n => decide (63 ≤ (p.path n).counter)) then none
  else some { p.closeAll with closing := true }

/-- The lowest path with a pending cause traps (R168). -/
def State.trapLowest (s : State) : Option Out := (List.range 8).findSome? s.trapCause

/-- Step 2 of R45, and of RETIRE for a pick whose paths are not handed on (R398): open batches close, a pending cause
traps once every counter is zero, and k goes on from there. -/
def State.drainPaths (s : State) (k : State → Out) : Out :=
  match s.pick.closeOnce with
  | none => s.stall
  | some p =>
    let s1 := s.setPick p
    if (List.range 8).any (fun n => (p.path n).counter != 0) then .next s1
    else match s1.trapLowest with
      | some o => o
      | none => k s1

/-- SEXIT (R45, R168, R261). -/
def execSexit (s : State) : Out :=
  if !s.pick.blocks.isEmpty then
    (if s.pick.mode then s.stall
     else match s.pick.closeOnce with
       | some p => .next (s.setPick p)
       | none => s.stall)
  else
    let p := s.pick
    let p1 := if p.mode then { p.queue.foldl Pick.blockLeave p with queue := [], lanes := {} } else p
    (s.setPick p1).drainPaths fun s1 => .next ((s1.count s.team.die 0x001 1).pickEnds s.cur)

/-- SNOP (R271). -/
def execSnop (s : State) : Out := .next s.advance

/-- SCSRR (R81, R267, R416). -/
def execScsrr (d : BitVec 6) (r : BitVec 12) (s : State) : Out :=
  match s.ctlRead r.toNat with
  | none => s.trapS .illOperand s.opc6
  | some v => s.withOperands [] [d] fun _ => .next ((s.cycLatch r.toNat).setS d v).advance

/-- SCSRW (R81, R267, R415 to R419). -/
def execScsrw (a : BitVec 6) (r : BitVec 12) (s : State) : Out :=
  let n := r.toNat
  if !isCtlReg n then s.trapS .illOperand s.opc6
  else if isCtxReg n || (isTrapReg n && !s.pick.mode) then s.trapS .perm 0
  else s.withOperands [a] [] fun w =>
    match (if isTrapReg n then s.pick.trapWrite n (w a) else s.pick.ctlWrite n (w a)) with
    | none => s.trapS .illOperand s.opc6
    | some p => .next (s.setPick p).advance

/-- TRAP (R269). -/
def execTrap (c : BitVec 8) (s : State) : Out := s.trapSNext .breakpoint (c.setWidth 64)

/-- TRET (R270, R427). -/
def execTret (s : State) : Out :=
  if !s.pick.mode then s.trapS .perm 0
  else if !s.pick.hqueue.isEmpty then s.stall
  else .next ((s.coverBlocks.returnFromTrap).count s.team.die 0x001 1)

end Sys2Proof.Machine
end

