-- ==== Sys2Proof/Machine/Engines.lean ====
section
/-! DEFINITION. The COP instructions: issue of engine operations with their checks (R263 to R265, R330 to R335). -/

namespace Sys2Proof.Machine

/-- The path of a function by func7 (R164, R214). -/
def copPath (func : Nat) : Nat :=
  if func < 0x10 then 2 else if func < 0x28 then 3 else if func < 0x30 then 4 else if func < 0x40 then 5
  else if func < 0x48 then 6 else 7

/-- The operations on a loom that wait in a unit's queue. -/
def State.queuedOn (s : State) (die loom path : Nat) : Nat :=
  (s.ops.filter (fun e =>
    let t := s.teamAt (e.2.pick / 64)
    e.2.path == path && e.2.phase == .queued && t.die == die && t.loom == loom && e.2.func != 0x41)).length

/-- The places of a unit's queue (R334). -/
def queuePlaces : Nat → Nat
  | 2 => 32
  | 3 => 8
  | 6 => 4
  | _ => 16

/-- Whether the unit's queue has no place for an operation; SS.PEEK takes none (R392). -/
def State.queueFull (s : State) (func : Nat) : Bool :=
  func != 0x41 && decide (queuePlaces (copPath func) ≤ s.queuedOn s.team.die s.team.loom (copPath func))

/-- Where a function's record or answer lies: 0 in w(a), 1 in w(b), 2 nowhere; its size and whether it is read (R330). -/
def copRecord (func : Nat) : Nat × Nat × Bool :=
  if func < 0x10 then (0, 64, true)
  else if func = 0x15 then (2, 1, false)
  else if func < 0x28 then (0, 64, true)
  else if func < 0x40 then (0, 32, true)
  else if func = 0x40 then (0, 128, true)
  else if func = 0x41 then (0, 16, false)
  else if func = 0x48 then (0, 8, false)
  else if func = 0x49 then (0, 16, true)
  else if func = 0x50 then (0, 8, false)
  else if func < 0x60 then (2, 1, false)
  else if func = 0x60 then (1, 16, false)
  else (1, 16, true)

/-- The issue-time checks of a collective descriptor (R332, R362). -/
def coFields (func d : Nat) : List FieldCheck :=
  let red := func == 0x30
  let bc := func == 0x31
  let sig := func == 0x34
  let f (used : Bool) (lo n : Nat) (bad : Bool) : FieldCheck := if used then (lo, bad) else unusedField d lo n
  let len := bits d 160 32
  [ f (!red) 12 9 false, unusedField d 21 3, f red 24 2 false, f red 26 2 (bits d 26 2 == 3), f (!sig) 28 1 false,
    f (red || bc) 29 1 false, unusedField d 30 2, f (!sig) 32 56 (bits d 32 56 % 4 != 0), unusedField d 88 8,
    (96, bits d 96 56 % (if sig then 8 else 4) != 0), unusedField d 152 8,
    f (!sig) 160 32 (len == 0 || (!red && len % 4 != 0)), f sig 192 64 false ]

/-- The bytes of a CO operation's local data. -/
def Op.coLen (o : Op) : Nat := if o.func = 0x30 then o.f 160 32 * (if o.f 24 2 = 3 then 2 else 4) else o.f 160 32

/-- The write region of an operation (R335). -/
def State.writeRegion (s : State) (o : Op) : Region :=
  if o.func < 0x10 then s.shRegion o.func o
  else if o.func < 0x28 then s.mxRegion o
  else if o.func < 0x30 then o.gaRegion
  else match o.func with
    | 0x30 => if bit o.desc 29 then [(o.f 96 56, o.coLen)] else []
    | 0x31 => if bit o.desc 29 then [(o.f 96 56, o.coLen)] else []
    | 0x33 => if bit o.desc 28 then [(o.f 32 56, o.coLen)] else []
    | 0x40 => s.ssRegion o
    | 0x41 => [(o.wa.toNat, 16)]
    | 0x48 => [(o.wa.toNat, 8)]
    | 0x50 => [(o.wa.toNat, 8)]
    | 0x60 => [(o.wb.toNat, 16)]
    | 0x61 => [(o.wb.toNat + 8, 8)]
    | _ => []

/-- The issue-time field checks of a function on its descriptor and snapshots. -/
def State.copFields (s : State) (o : Op) : List FieldCheck :=
  let tiles := lrTiles s.team.lr
  if o.func < 0x10 then shFields o.func o.desc
  else if o.func = 0x15 then []
  else if o.func < 0x28 then o.mxChecks tiles
  else if o.func < 0x30 then gaFields o.func o.desc
  else if o.func < 0x40 then coFields o.func o.desc
  else if o.func = 0x40 then ssFields tiles o.desc
  else if o.func = 0x49 then [unusedField o.desc 64 64]
  else []

/-- The issue-time checks of a register operand: the cause, TVAL being 0 (R330, R332, R346, R350). -/
def State.copOperandBad (s : State) (o : Op) : Option Cause :=
  match o.func with
  | 0x15 => if (ones (bits o.wa.toNat 0 16) 16).any (fun t => decide (lrTiles s.team.lr ≤ t)) then some .illOperand else none
  | 0x11 =>
    let m := bits o.gang.toNat 0 48
    if !bit m s.pick.index || popc m 48 < 2 || decide (6 < popc m 48) || decide (2 ^ lrP s.team.lr ≤ m) then
      some .jointMismatch else none
  | 0x51 => if 4096 ≤ o.wa.toNat then some .illOperand else none
  | 0x52 => if 4096 ≤ o.wa.toNat then some .illOperand else none
  | 0x60 => if 8 ≤ o.wa.toNat then some .illOperand else none
  | 0x61 => if 8 ≤ o.wa.toNat then some .illOperand else none
  | _ => none

/-- The format codes that an operation names in its descriptor or its snapshot (R499). -/
def Op.codes (o : Op) : List Nat :=
  let sc := if o.mxSc then [o.mxSfmt] else []
  match o.func with
  | 0x01 => [o.shTfmt]
  | 0x02 => [o.shTfmt]
  | 0x03 => [o.shTfmt]
  | 0x10 => [o.fa, o.fb, o.fc] ++ sc
  | 0x11 => [o.fa, o.fb, o.fc] ++ sc
  | 0x12 => [o.fa, o.fb, o.fc]
  | 0x13 => [o.fa, o.fc] ++ sc
  | 0x14 => [o.fa, o.fb, o.fc] ++ sc
  | 0x16 => if bit o.desc 240 then [o.fc] else [o.fc, o.fd]
  | 0x40 => [o.f 56 4, o.f 60 4, o.f 64 4]
  | _ => []

/-- Whether a slot that an operation names is being bound. -/
def State.codesWait (s : State) (o : Op) : Bool :=
  o.codes.any (fun c => match s.fmtGet s.team c with | .wait => true | _ => false)

/-- The granules of a region set in flight for an operation (R150, R335). -/
def Op.marks (o : Op) (k : Nat) (r : Region) : List Inflight :=
  (r.filter (fun (a, n) => decide (a < 2 ^ 20 ∧ 0 < n))).map (fun (a, n) =>
    { op := k, pick := o.pick, path := o.path, batch := o.batch, lo := a / 256, hi := min 4095 ((a + n - 1) / 256) })

/-- The drafts bound to the slots that the team refers to (R378, R499). -/
def State.boundSlots (s : State) : List (Nat × Draft) :=
  let m := s.team
  (ones m.refs.toNat 8).filterMap (fun n =>
    let x := s.slotAt m.die m.loom n
    if x.loading.isSome then none else x.bound.map (fun d => (n, d)))

/-- The issue reply, and the sequence number a collective takes (R330, R363). -/
def State.takeSeq (s : State) (o : Op) : Nat × State :=
  if o.func = 0x30 ∨ o.func = 0x31 then
    let c := s.ctx
    let g := o.f 0 12
    let n := tget 0 c.cseq g
    (n, s.setCtxAt s.team.ctx { c with cseq := tput 0 c.cseq g (n + 1) })
  else (0, s)

/-- The in-flight bits of an operation whose record could not be read at its issue are set once it can be (R150). -/
def State.markLate (s : State) (k : Nat) (o : Op) : State :=
  let s1 : State := { s with cur := o.pick }
  let m := s.teamAt (o.pick / 64)
  if m.inflight.any (fun x => x.op == k) then s
  else s.setTeamAt (o.pick / 64) { m with inflight := m.inflight ++ o.marks k (s1.writeRegion o) }

/-- Steps 2 to 4 of R264 and the reply of R265: the operation is in flight. SS.PEEK is answered as it is accepted (R392). -/
def State.issueOp (s : State) (o : Op) (d : BitVec 6) : State :=
  let k := s.nextOp
  let (seq, s1) := s.takeSeq o
  let (told, s1) := if o.func = 0x41 then s1.peekAnswer else (0, s1)
  let o1 := { o with cseq := seq, ord := k, phase := if o.func = 0x11 then .latched else .queued, told
                     ids := s.knownIds s.scalarAgent, binds := s.boundSlots }
  let p := s1.pick
  let p1 := { p with seed := if bits p.fmtr.toNat 16 3 = 5 then seedStep p.seed else p.seed }.opJoin o.path o.batch
  let s2 := ({ s1 with ops := s1.ops ++ [(k, o1)], nextOp := k + 1 }).setPick p1
  let s3 := s2.setTeam { s2.team with inflight := s2.team.inflight ++ o1.marks k (s.writeRegion o) }
  if o.blocking then
    (s3.setPick { s3.pick with
      wait := .cop k (if d = 0 then none else some (s3.pick.abs d)) (s3.pick.spc + 4), bkExempt := false }).count
      s3.team.die 0x001 1
  else (s3.setS d (BitVec.ofNat 32 seq)).advance

/-- The operation that a COP would issue, with its descriptor as the scalar agent reads it. -/
def State.copOp (s : State) (func : Nat) (wa wb : Word) (blk : BitVec 1) (desc : Nat) : Op :=
  let p := s.pick
  { pick := s.cur, func, path := copPath func, batch := (p.path (copPath func)).opened.num, wa, wb, desc
    fmtr := p.fmtr, tcfg := p.tcfg, gang := p.gang, seed := p.seed, blocking := blk == 1
    xseq := p.xseq, inst := s.inst.setWidth 32, lr := s.team.lr }

/-- A COP (R263 to R265, R331, R332): it stalls until its unit takes it and no drain or binding holds it, is checked, and
issues. -/
def State.cop (s : State) (func : Nat) (d a b : BitVec 6) (blk : BitVec 1) : Out :=
  s.withOperands [a, b] [d] fun w =>
    let (where_, size, read) := copRecord func
    let at_ := (if where_ = 1 then w b else w a).toNat
    let o := s.copOp func (w a) (w b) blk (if read then s.readScr s.scalarAgent s.pick.team at_ size else 0)
    if s.pick.drains o.path || s.queueFull func || s.codesWait o then s.stall
    else if where_ ≠ 2 ∧ at_ % size ≠ 0 then s.trapS .misalign (BitVec.ofNat 64 at_)
    else if where_ ≠ 2 ∧ !s.team.inRange at_ size then s.trapS .bounds (BitVec.ofNat 64 at_)
    else if read && s.team.scratchBad at_ size then s.trapS .dataPoison (BitVec.ofNat 64 at_)
    else
      let s1 := if read then s.noteLook s s.scalarAgent .plain false (scrCells s.pick.team at_ size) else s
      match firstBad (s.copFields o) with
      | some n => s1.trapS .illOperand (BitVec.ofNat 64 n)
      | none =>
        match s.copOperandBad o with
        | some c => s1.trapS c 0
        | none => .next (s1.issueOp o d)

/-- The issue of SH.COPY (R339). -/
def execShCopy (d a : BitVec 6) (blk : BitVec 1) (s : State) : Out := s.cop 0x00 d a 0 blk

/-- The issue of SH.TLD (R342). -/
def execShTld (d a : BitVec 6) (blk : BitVec 1) (s : State) : Out := s.cop 0x01 d a 0 blk

/-- The issue of SH.TST (R343). -/
def execShTst (d a : BitVec 6) (blk : BitVec 1) (s : State) : Out := s.cop 0x02 d a 0 blk

/-- The issue of SH.QNT (R344). -/
def execShQnt (d a : BitVec 6) (blk : BitVec 1) (s : State) : Out := s.cop 0x03 d a 0 blk

/-- The issue of SH.FILL (R340). -/
def execShFill (d a : BitVec 6) (blk : BitVec 1) (s : State) : Out := s.cop 0x04 d a 0 blk

/-- The issue of MX.MMA (R349). -/
def execMxMma (d a : BitVec 6) (blk : BitVec 1) (s : State) : Out := s.cop 0x10 d a 0 blk

/-- The issue of MX.MMAJ (R350). -/
def execMxMmaj (d a : BitVec 6) (blk : BitVec 1) (s : State) : Out := s.cop 0x11 d a 0 blk

/-- The issue of MX.UNF (R352). -/
def execMxUnf (d a : BitVec 6) (blk : BitVec 1) (s : State) : Out := s.cop 0x12 d a 0 blk

/-- The issue of MX.MV (R353). -/
def execMxMv (d a : BitVec 6) (blk : BitVec 1) (s : State) : Out := s.cop 0x13 d a 0 blk

/-- The issue of MX.OUT (R354). -/
def execMxOut (d a : BitVec 6) (blk : BitVec 1) (s : State) : Out := s.cop 0x14 d a 0 blk

/-- The issue of MX.ZERO (R355). -/
def execMxZero (d a : BitVec 6) (blk : BitVec 1) (s : State) : Out := s.cop 0x15 d a 0 blk

/-- The issue of MX.ST (R356). -/
def execMxSt (d a : BitVec 6) (blk : BitVec 1) (s : State) : Out := s.cop 0x16 d a 0 blk

/-- The issue of GA.GATH (R359). -/
def execGaGath (d a : BitVec 6) (blk : BitVec 1) (s : State) : Out := s.cop 0x28 d a 0 blk

/-- The issue of GA.SCAT (R359). -/
def execGaScat (d a : BitVec 6) (blk : BitVec 1) (s : State) : Out := s.cop 0x29 d a 0 blk

/-- The issue of GA.SEGRED (R360). -/
def execGaSegred (d a : BitVec 6) (blk : BitVec 1) (s : State) : Out := s.cop 0x2A d a 0 blk

/-- The issue of CO.ALLRED (R364). -/
def execCoAllred (d a : BitVec 6) (blk : BitVec 1) (s : State) : Out := s.cop 0x30 d a 0 blk

/-- The issue of CO.BCAST (R365). -/
def execCoBcast (d a : BitVec 6) (blk : BitVec 1) (s : State) : Out := s.cop 0x31 d a 0 blk

/-- The issue of CO.PUT (R366). -/
def execCoPut (d a : BitVec 6) (blk : BitVec 1) (s : State) : Out := s.cop 0x32 d a 0 blk

/-- The issue of CO.GET (R366). -/
def execCoGet (d a : BitVec 6) (blk : BitVec 1) (s : State) : Out := s.cop 0x33 d a 0 blk

/-- The issue of CO.SIGNAL (R367). -/
def execCoSignal (d a : BitVec 6) (blk : BitVec 1) (s : State) : Out := s.cop 0x34 d a 0 blk

/-- The issue of SS.RUN (R380). -/
def execSsRun (d a : BitVec 6) (blk : BitVec 1) (s : State) : Out := s.cop 0x40 d a 0 blk

/-- The issue of SS.PEEK (R392). -/
def execSsPeek (d a : BitVec 6) (blk : BitVec 1) (s : State) : Out := s.cop 0x41 d a 0 blk

/-- The issue of WD.NEXT (R369). -/
def execWdNext (d a : BitVec 6) (blk : BitVec 1) (s : State) : Out := s.cop 0x48 d a 0 blk

/-- The issue of WD.LAUNCH (R371). -/
def execWdLaunch (d a : BitVec 6) (blk : BitVec 1) (s : State) : Out := s.cop 0x49 d a 0 blk

/-- The issue of TK.NEXT (R373). -/
def execTkNext (d a : BitVec 6) (blk : BitVec 1) (s : State) : Out := s.cop 0x50 d a 0 blk

/-- The issue of TK.DONE (R374). -/
def execTkDone (d a : BitVec 6) (blk : BitVec 1) (s : State) : Out := s.cop 0x51 d a 0 blk

/-- The issue of TK.ADD (R376). -/
def execTkAdd (d a b : BitVec 6) (blk : BitVec 1) (s : State) : Out := s.cop 0x52 d a b blk

/-- The issue of FM.QUERY (R377). -/
def execFmQuery (d a b : BitVec 6) (blk : BitVec 1) (s : State) : Out := s.cop 0x60 d a b blk

/-- The issue of FM.REQ (R378). -/
def execFmReq (d a b : BitVec 6) (blk : BitVec 1) (s : State) : Out := s.cop 0x61 d a b blk

end Sys2Proof.Machine
end

