-- ==== Sys2Proof/Machine/Collective.lean ====
section
/-! DEFINITION. The collective engine: groups, operands sent and received, and the effect of CO operations (R361 to R368,
R484). -/

namespace Sys2Proof.Machine

/-- A group as the table gives it: ranks, own rank, device and context of each rank. -/
structure Group where
  nr : Nat
  mine : Nat
  ranks : List (Nat × Nat)

/-- Bytes that stage 2 alone translates, as the operation reads them. -/
def State.engRead2 (s : State) (o : Op) (ia n : Nat) : Except EFail Nat :=
  match s.resolve2 s.ctx rightR ia n with
  | .error e => .error (EErr.toFail (false, e))
  | .ok (pas, _) => if s.poisoned pas then .error (.fail 0 .dataPoison) else .ok (s.readPas (s.opAgent o) pas)

/-- The dies that a read by IA touches. -/
def State.diesAt (s : State) (ia n : Nat) : Nat :=
  match s.resolve2 s.ctx rightR ia n with
  | .error _ => 0
  | .ok (_, m) => m

/-- The reads of the group table's entry and of its rank list touch their dies (R485). -/
def State.noteGroup (s : State) (o : Op) : State :=
  let c := s.ctx
  let a := c.cgBase + 16 * o.f 0 12
  if c.cgCount ≤ o.f 0 12 then s
  else match s.engRead2 o a 16 with
    | .error _ => s.touchDies s.team.ctx (s.diesAt a 16)
    | .ok e => s.touchDies s.team.ctx (s.diesAt a 16 ||| s.diesAt (bits e 64 56) (4 * bits e 0 10))

/-- The group that an operation names (steps 3 of R361 and R484). -/
def State.coGroup (s : State) (o : Op) : Except EFail Group := do
  let c := s.ctx
  need (decide (o.f 0 12 < c.cgCount)) 3 .illOperand
  let e ← s.engRead2 o (c.cgBase + 16 * o.f 0 12) 16
  let nr := bits e 0 10
  let mine := bits e 10 9
  need (nr != 0 && decide (nr ≤ 512 ∧ mine < nr) && bits e 19 45 == 0 && bits e 120 8 == 0) 3 .illOperand
  let l ← s.engRead2 o (bits e 64 56) (4 * nr)
  let rs := (List.range nr).map (fun r => bits l (32 * r) 32)
  need (rs.all (fun x => bits x 9 7 == 0)) 3 .illOperand
  need (o.func == 0x30 || decide (o.f 12 9 < nr)) 3 .illOperand
  .ok ⟨nr, mine, rs.map (fun x => (bits x 0 9, bits x 16 16))⟩

/-- What DT, OP, LEN, function and root must agree in (R363). -/
def Op.coShape (o : Op) : Nat := o.func + o.f 24 4 * 2 ^ 8 + o.coLen * 2 ^ 16 + (if o.func = 0x31 then o.f 12 9 * 2 ^ 60 else 0)

/-- Where a rank lies: on this device a context that may be served, one that is refused, a lost device, or elsewhere. -/
inductive Peer where
  | here (ctx : Nat)
  | refused
  | lost
  | away
deriving DecidableEq, Repr

/-- A rank as the fabric of this device sees it (R368, R484): before DEVID is written every device is lost to it, and with no
plane in service every other one (R517). -/
def State.peerAt (s : State) (e : Nat × Nat) : Peer :=
  if s.dev.devid.isNone || s.dev.lostPeers.contains e.1 then .lost
  else if s.dev.devid != some e.1 then (if s.planesUp then .away else .lost)
  else
    let c := s.ctxAt e.2
    if c.live && !c.ended && c.world == s.ctx.world then .here e.2 else .refused

/-- The first rank that refuses or is lost, with the case of R484. -/
def State.groupRefusal (s : State) (g : Group) : Option (Nat × Nat) :=
  (g.ranks.zipIdx).findSome? (fun (e, r) => match s.peerAt e with
    | .refused => some (1, r)
    | .lost => some (2, r)
    | _ => none)

/-- A collective operation is to end with COLL_ERR; its fault record goes out (R368, R484). -/
def State.collErr (s : State) (k case rank : Nat) : State :=
  match s.opAt k with
  | none => s
  | some o =>
    if o.fail.isSome ∨ o.path ≠ 5 then s
    else ((s.setOp k { o with fail := some (0, .collErr), res := 1 }).reportPick o.pick 6 (case % 16 + rank % 512 * 16)).count
      12 (0x101 + 1024 * (s.ctxAt (s.teamAt (o.pick / 64)).ctx).world) 1

/-- The operations of a collective in a context. -/
def State.collOps (s : State) (ctx group seq : Nat) : List Nat :=
  (s.ops.filter (fun e => (e.2.func == 0x30 || e.2.func == 0x31) && e.2.f 0 12 == group && e.2.cseq == seq &&
    e.2.phase != .abandoned && (s.teamAt (e.2.pick / 64)).ctx == ctx)).map (·.1)

/-- A rank of a collective cannot take part, the translation of its own address being refused or its die lost: the others end
with COLL_ERR, those that have joined and those that will (R368). -/
def State.collSpread (s : State) (k : Nat) (o : Op) (case : Nat) : State :=
  if o.func ≠ 0x30 ∧ o.func ≠ 0x31 then s
  else match s.coGroup o with
  | .error _ => s
  | .ok g => g.ranks.foldl (fun s e => match s.peerAt e with
    | .here c =>
      let x := s.ctxAt c
      ((s.collOps c (o.f 0 12) o.cseq).filter (· != k)).foldl (fun s k' => s.collErr k' case g.mine)
        (s.setCtxAt c { x with collFails := (o.f 0 12, o.cseq, case, g.mine) :: x.collFails })
    | _ => s) s

/-- How a collective that an operation joins has ended already, if it has (R368). -/
def State.collFailed (s : State) (o : Op) : Option (Nat × Nat) :=
  (s.ctx.collFails.find? (fun e => e.1 == o.f 0 12 && e.2.1 == o.cseq)).map (fun e => e.2.2)

/-- A collective ends with COLL_ERR at this rank and at every rank of it on this device. -/
def State.collErrAll (s : State) (k : Nat) (o : Op) (g : Group) (case rank : Nat) : State :=
  g.ranks.foldl (fun s e => match s.peerAt e with
    | .here c => (s.collOps c (o.f 0 12) o.cseq).foldl (fun s k' => s.collErr k' case rank) s
    | _ => s) (s.collErr k case rank)

/-- An operand reaches a context (R363). -/
def Context.takeOperand (c : Context) (group seq rank shape : Nat) (data : List Byte) : Context :=
  { c with colls := (group, seq, rank, shape, data) :: c.colls.filter (fun x => !(x.1 == group && x.2.1 == seq && x.2.2.1 == rank)) }

/-- Step 5 for local scratch. -/
def State.coWindow (s : State) (o : Op) : Bool :=
  (!bit o.desc 28 || o.func == 0x34 || s.inWindow (o.f 32 56) o.coLen) &&
    (!bit o.desc 29 || s.inWindow (o.f 96 56) o.coLen)

/-- Local bytes of an operation from LADDR. -/
def State.coLocal (s : State) (o : Op) : Except EFail (List Byte) := do
  let n := o.coLen
  match s.engPieces (s.opAgent o) ((List.range ((n + 3) / 4)).map (fun i => ⟨!bit o.desc 28, o.f 32 56 + 4 * i, min 4 (n - 4 * i)⟩)) with
  | .error e => .error e.toFail
  | .ok vs => .ok ((vs.flatMap (leBytes 4)).take n)

/-- A collective operation sends its operand to every rank (R363): the checks first. -/
def State.sendOperand (s : State) (k : Nat) (o : Op) : Except EFail State := do
  let g ← s.coGroup o
  let root := o.func == 0x30 || g.mine == o.f 12 9
  need (root || o.f 32 56 == 0) 3 .illOperand
  need (s.coWindow o) 5 .bounds
  match s.groupRefusal g, s.collFailed o with
  | some (case, rank), _ => .ok (s.collErrAll k o g case rank)
  | none, some (case, rank) => .ok (s.collErr k case rank)
  | none, none => do
    let data ← if root then s.coLocal o else .ok []
    let s1 := g.ranks.foldl (fun s e => match s.peerAt e with
      | .here c => s.setCtxAt c ((s.ctxAt c).takeOperand (o.f 0 12) o.cseq g.mine o.coShape data)
      | _ => s) s
    .ok ((s1.noteOp o root).setOp k { o with sent := true })

/-- One element of an ALLRED: the fold over the ranks (R364). -/
def reduceElem (dt op : Nat) (xs : List Nat) : Nat :=
  let fold (f : Word → Word → Word) (ws : List Word) : Word := match ws with | [] => 0 | w :: ws => ws.foldl f w
  let words := xs.map (BitVec.ofNat 32)
  let wide := xs.map (fun x => BitVec.ofNat 32 (x * 65536))
  let sum (a b : Word) : Word := roundFp32 ((fp32 a).add (fp32 b))
  match dt, op with
  | 3, 0 => bf16.encode (fp32 (fold sum wide)) 0 false 0
  | 3, 1 => (fold (fpick false) wide).toNat / 65536
  | 3, _ => (fold (fpick true) wide).toNat / 65536
  | 2, 0 => (fold sum words).toNat
  | 2, 1 => (fold (fpick false) words).toNat
  | 2, _ => (fold (fpick true) words).toNat
  | _, 0 => (fold (· + ·) words).toNat
  | 0, 1 => (fold (fun a b => if b.slt a then b else a) words).toNat
  | 0, _ => (fold (fun a b => if a.slt b then b else a) words).toNat
  | _, 1 => (fold (fun a b => if b.ult a then b else a) words).toNat
  | _, _ => (fold (fun a b => if a.ult b then b else a) words).toNat

/-- The operands of an operation's collective received so far. -/
def State.operands (s : State) (o : Op) : List (Nat × Nat × List Byte) :=
  (s.ctx.colls.filter (fun x => x.1 == o.f 0 12 && x.2.1 == o.cseq)).map (fun x => x.2.2)

/-- What ALLRED or BCAST writes once every operand is there. -/
def State.collPlan (s : State) (o : Op) (g : Group) : Plan :=
  let xs := s.operands o
  let data (r : Nat) : List Byte := (xs.lookup r).map (·.2) |>.getD []
  let z := if o.func = 0x30 ∧ o.f 24 2 = 3 then 2 else 4
  let el (r i : Nat) : Nat := ofLe (((data r).drop (z * i)).take z)
  let n := o.coLen / z
  s.planOf ((List.range n).map (fun i =>
    .ok [bytePokes (!bit o.desc 29) (o.f 96 56 + z * i) z
      (if o.func = 0x30 then reduceElem (o.f 24 2) (o.f 26 2) ((List.range g.nr).map (fun r => el r i)) else el (o.f 12 9) i)]))
    (fun _ => 0) []

/-- The bytes at an address of a peer's context, with the dies touched, or the case of R484: its die is lost, or its
translation refuses. -/
def State.peerPas (s : State) (c need a n : Nat) : Except Nat (List Nat × Nat) :=
  match s.resolve (s.ctxAt c) need a n with
  | .ok x => .ok x
  | .error (.lost _ _) => .error 2
  | .error _ => .error 3

/-- Whether an earlier one-sided operation of the pick to the same peer and group is still going on (R363, R367). -/
def State.putPending (s : State) (o : Op) : Bool :=
  s.ops.any (fun e => e.2.pick == o.pick && e.2.func == 0x32 && e.2.f 0 21 == o.f 0 21 && decide (e.2.ord < o.ord))

/-- A CO.SIGNAL at a physical address (R367): a release of these writes at system scope, and the addition, as one far
atomic. -/
def State.signalAt (s : State) (g : Agent) (pas : List Nat) (v : Nat) (ids : List Nat) : State :=
  let cells := s.memCells pas
  ((s.recall (cells.map (·.1))).modify g { ord := 3, scp := 5 } cells (otherCopies pas cells) (fun old => old + v)
    [⟨g.pick, 5, s.nextW :: ids⟩]).1

/-- What a CO.SIGNAL of an operation releases: what happened before its COP, and the pick's earlier CO.PUTs to the same peer
and group. -/
def State.signalIds (s : State) (o : Op) : List Nat :=
  o.ids ++ ((s.pickAt o.pick).puts.filter (fun e => e.1 == o.f 0 21)).map (·.2)

/-- A CO.PUT has made the writes numbered from n on. -/
def State.notePut (s : State) (o : Op) (n : Nat) : State :=
  let p := s.pickAt o.pick
  s.setPickAt o.pick { p with puts := p.puts ++ (List.range (s.nextW - n)).map (fun k => (o.f 0 21, n + k)) }

/-- The words that a CO.GET writes locally. -/
def Op.gotWrites (o : Op) (bs : List Byte) : List (Except EErr (List EWrite)) :=
  (List.range ((bs.length + 3) / 4)).map (fun i =>
    let w := (bs.drop (4 * i)).take 4
    .ok [bytePokes (!bit o.desc 28) (o.f 32 56 + 4 * i) w.length (ofLe w)])

/-- An address in each 64 KiB page of a run of bytes. -/
def pagesFrom (a n : Nat) : List Nat :=
  (List.range ((a + n - 1) / 65536 + 1 - a / 65536)).map (fun k => 65536 * (a / 65536 + k))

/-- How a CO operation proceeds when it can complete: its plan, a state with the effect already made, an end with
COLL_ERR, or it has to wait. -/
inductive CoEnd where
  | plan (p : Plan)
  | got (s : State) (p : Plan)
  | done (s : State)
  | coll (case rank : Nat)
  | wait

/-- The first rank whose operand is missing and that will not come: refused or lost. -/
def State.missingRank (s : State) (o : Op) (g : Group) : Option (Nat × Nat) :=
  (g.ranks.zipIdx).findSome? (fun (e, r) =>
    if ((s.operands o).lookup r).isSome then none
    else match s.peerAt e with
      | .refused => some (1, r)
      | .lost => some (2, r)
      | _ => none)

/-- The completion of a CO operation that has started (R363 to R368). -/
def State.coEnd (s : State) (o : Op) : Except EFail CoEnd := do
  let g ← s.coGroup o
  if o.func = 0x30 ∨ o.func = 0x31 then
    let xs := s.operands o
    if !(List.range g.nr).all (fun r => (xs.lookup r).isSome) then
      match s.missingRank o g with
      | some (case, r) => .ok (.coll case r)
      | none => .ok .wait
    else if xs.any (fun x => x.2.1 != o.coShape) then .ok (.coll (s.freeN 23 0) (s.freeN 23 1))
    else .ok (.plan { s.collPlan o g with read := o.coLen })
  else do
    need (s.coWindow o) 5 .bounds
    let r := o.f 12 9
    let x := o.f 96 56
    match s.peerAt ((g.ranks[r]?).getD (0, 0)), o.func with
    | .refused, _ => .ok (.coll 1 r)
    | .lost, _ => .ok (.coll 2 r)
    | .here c, 0x32 => do
      let data ← s.coLocal o
      match s.peerPas c rightW x o.coLen with
      | .error case => .ok (.coll case r)
      | .ok (pas, m) =>
        let g := { s.opAgent o with pages := s.pagesAt (s.ctxAt c) (pagesFrom x o.coLen) }
        .ok (.done ((((s.noteOp o true).storePas g pas data).notePut o s.nextW).touchDies (s.teamAt (o.pick / 64)).ctx m))
    | .here c, 0x33 =>
      match s.peerPas c rightR x o.coLen with
      | .error case => .ok (.coll case r)
      | .ok (pas, m) =>
        if s.poisoned pas then .error (.fail 0 .dataPoison)
        else .ok (.got ((s.notePas (s.opAgent o) .plain false pas).touchDies s.team.ctx m)
          { s.planOf (o.gotWrites (leBytes o.coLen (s.readPas (s.opAgent o) pas))) (fun _ => 0) [] with read := o.coLen })
    | .here c, _ =>
      if s.putPending o then .ok .wait
      else match s.peerPas c rightRW x 8 with
        | .error case => .ok (.coll case r)
        | .ok (pas, m) =>
          if s.poisoned pas then .error (.fail 0 .dataPoison)
          else
            let g := { s.opAgent o with pages := s.pagesAt (s.ctxAt c) [x] }
            .ok (.done ((s.signalAt g pas (o.f 192 64) (s.signalIds o)).touchDies s.team.ctx m))
    | .away, 0x32 => do
      let _ ← s.coLocal o
      .ok (.done (s.noteOp o true))
    | .away, 0x33 =>
      match o.got with
      | none => .ok .wait
      | some bs => .ok (.plan { s.planOf (o.gotWrites (bs.take o.coLen)) (fun _ => 0) [] with read := o.coLen })
    | .away, _ => .ok (if s.putPending o then .wait else .done s)

end Sys2Proof.Machine
end

