-- ==== Sys2Proof/Machine/EngineEvents.lean ====
section
/-! DEFINITION. Events of the engines: an operation starts, a rendezvous forms, an operation completes; the work
distributor, the task unit and the format manager (R166, R333 to R336, R350, R351, R369 to R378, R520). -/

namespace Sys2Proof.Machine

/-! ## Starting (R334) -/

/-- The operations of a unit of the loom of a team in some phase. -/
def State.unitOps (s : State) (t path : Nat) (ph : OpPhase) : List (Nat × Op) :=
  let m := s.teamAt t
  s.ops.filter (fun e => e.2.path == path && e.2.phase == ph &&
    (s.teamAt (e.2.pick / 64)).die == m.die && (s.teamAt (e.2.pick / 64)).loom == m.loom)

/-- Whether an operation is the next of its unit in order. -/
def State.isNext (s : State) (o : Op) : Bool :=
  (s.unitOps (o.pick / 64) o.path .queued).all (fun e => e.2.func == 0x41 || decide (o.ord ≤ e.2.ord))

/-- Whether the unit of a queued operation takes it now: up to 8 shuttle and 4 gather operations, the oldest matrix
operation or SS.RUN when none runs. Queries of the WQ units and SS.PEEK do not start. -/
def State.canRun (s : State) (o : Op) : Bool :=
  let running := (s.unitOps (o.pick / 64) o.path .running).length
  match o.path with
  | 2 => decide (running < 8)
  | 3 => s.isNext o && running == 0
  | 4 => decide (running < 4)
  | 5 => true
  | 6 => o.func == 0x40 && s.isNext o && running == 0
  | _ => false

/-- An operation waits for the answer to a translation fault (R336, R469). -/
def State.suspendOp (s : State) (k : Nat) (o : Op) (st : Bool) (lvl addr va acc : Nat) : State :=
  let (s1, fid) := s.suspend o.pick (.inr (.inr k)) st lvl addr va acc o.path
  s1.setOp k { o with phase := .faulted fid }

/-- A retired team that waits for an operation takes over what it wrote (R403). -/
def State.carryOn (s : State) (k pick id0 : Nat) : State :=
  { s with teams := s.teams.map (fun e =>
    if e.2.waitOps.contains k then
      (e.1, { e.2 with
        waitOps := e.2.waitOps.filter (· != k)
        carry := e.2.carry ++ (s.wlog.filter (fun r => decide (id0 ≤ r.id) && r.pick == pick)).map (·.id) })
    else e) }

/-- An operation completes in its batch, with the cause and TVAL of a failure or with its reply; a blocking COP gets the
reply or the trap (R166, R168, R265). id0 is the first write record that the operation made. -/
def State.finishOp (s : State) (k : Nat) (o : Op) (cause : Option (Cause × BitVec 64)) (reply id0 : Nat) : State :=
  let s1 := ({ s with ops := s.ops.filter (fun e => e.1 != k) } : State).carryOn k o.pick id0
  let p := s1.pick
  let other := s1.setPick (p.opLeave o.path o.batch cause)
  match p.wait with
  | .cop k' reg next =>
    if k' = k then
      let s2 := s1.setPick { p.opLeave o.path o.batch none with wait := .none, spc := next }
      match cause with
      | none =>
        let ids := (s2.wlog.filter (fun r => decide (id0 ≤ r.id) && r.pick == o.pick)).map (·.id)
        let s3 := match reg with
          | some r => s2.setS (BitVec.ofNat 6 (r - p.wb.toNat)) (BitVec.ofNat 32 reply)
          | none => s2
        s3.learn (scalarKey s3.cur) ids
      | some (c, v) => { s2 with inst := o.inst.setWidth 96 }.takeTrap { cause := c, tval := v, src := true, tspc := next }
    else other
  | _ => other

/-- TVAL of a failed operation (R333). -/
def Op.tval (o : Op) (step : Nat) : BitVec 64 := BitVec.ofNat 64 (step * 2 ^ 27 + o.func * 2 ^ 20 + o.wa.toNat % 2 ^ 20)

/-- An operation fails at a step (R168, R333); the others of a collective whose rank's own address is refused end with it
(R368). id0 is the first write record that it made. -/
def State.failOp (s : State) (k : Nat) (o : Op) (step : Nat) (c : Cause) (id0 : Nat := s.nextW) : State :=
  let s1 := if c = .dataPoison then s.count s.team.die 0x203 1 else s
  let s2 := if (o.func = 0x30 ∨ o.func = 0x31) ∧ step = 0 ∧ (c = .xlate ∨ c = .perm) then s1.collSpread k o 3 else s1
  s2.finishOp k o (some (c, o.tval step)) 0 id0

/-- An operation that cannot go on: it waits for an answer, is abandoned with a lost die, or fails; one whose fault was
refused fails with the cause of the refusal. -/
def State.stopOp (s : State) (k : Nat) (o : Op) (e : EFail) : State :=
  match e with
  | .fail step c => s.failOp k o step c
  | .foreign pa => (s.worldRefused (some pa)).failOp k o 0 .perm
  | .lost d => ((s.collSpread k o 2).touchLost o.pick d).setOp k { o with phase := .abandoned }
  | .xlate st lvl a va acc =>
    match o.fail with
    | some (0, c) => s.failOp k o 0 c
    | _ => s.suspendOp k o st lvl a va acc

/-- ENGINE_OPERATION_START (R334): the unit takes an operation. The participants of a rendezvous start as one; a collective
sends its operand; a query reaches its unit (R370). -/
def execEngineOperationStart (op : Nat) (s0 : State) : Out :=
  match s0.opAt op with
  | none => .next s0
  | some o =>
    if o.phase = .queued ∧ o.path = 7 ∧ o.arrived.isNone then
      .next (s0.setOp op { o with arrived := some (s0.dieAt 12).cycles.toNat })
    else if o.phase ≠ .queued ∨ !s0.canRun o then .next s0
    else
      let s := { s0 with cur := o.pick }
      let start (s : State) (k : Nat) : State :=
        match s.opAt k with
        | some x => s.setOp k { x with phase := .running }
        | none => s
      let s1 := if o.joint.isEmpty then start s op else o.joint.foldl start s
      if o.func = 0x30 ∨ o.func = 0x31 then
        match s1.opAt op with
        | none => .next s1
        | some o1 =>
          let s2 := s1.noteGroup o1
          match s2.sendOperand op o1 with
          | .ok s3 => .next s3
          | .error e => .next (s2.stopOp op o1 e)
      else .next s1

/-! ## Rendezvous (R350, R351) -/

/-- The resolved B fields and the FMTR that the participants of a rendezvous must share. -/
def Op.jointKey (o : Op) : List Nat :=
  let (_, n, k) := o.mxDims
  [o.fmtr.toNat, n, k, o.mxBlay, o.f 96 20, o.f 208 16, o.f 52 4, o.f 42 1, o.f 43 1, o.f 44 4, o.f 160 20, o.f 224 16]

/-- The oldest waiting MX.MMAJ of each pick of a team. -/
def State.oldestWaiting (s : State) (t : Nat) : List (Nat × Op) :=
  let l := (s.teamOps t).filter (fun e => e.2.atLatch)
  l.filter (fun e => l.all (fun f => f.2.pick != e.2.pick || decide (e.2.ord ≤ f.2.ord)))

/-- Operations that fail at step 6. -/
def State.jointFail (s : State) (ks : List Nat) : State :=
  ks.foldl (fun s k => match s.opAt k with
    | some o => s.setOp k { o with fail := some (6, .jointMismatch) }
    | none => s) s

/-- Operations that form a rendezvous, the lead first: they take their place in the engine order. -/
def State.jointForm (s : State) (ks : List Nat) : State :=
  let s1 := ks.foldl (fun s k => match s.opAt k with
    | some o => s.setOp k { o with joint := ks, ord := s.nextOp, phase := .queued }
    | none => s) s
  { s1 with nextOp := s1.nextOp + 1 }

/-- Whether a pick has arrived at the retire latch: it issues nothing more of its team's (R351, R398, log 59). -/
def Pick.retires (p : Pick) : Bool :=
  match p.wait with
  | .latch _ _ _ _ _ => true
  | _ => false

/-- One comparison of the latch of a team that has an outcome (R350, R351). -/
def State.rendezvous (s : State) (t : Nat) : Option State :=
  let old := s.oldestWaiting t
  let m := s.teamAt t
  let named (o : Op) : List Nat := ones (bits o.gang.toNat 0 48) 48
  let at_ (n : Nat) : Option (Nat × Op) := old.find? (fun e => e.2.pick % 64 == n)
  let mask (o : Op) : Nat := bits o.gang.toNat 0 48
  let gone (n : Nat) : Bool := (at_ n).isNone && (m.goneMask.getLsbD n || (s.pickAt (64 * t + n)).retires)
  let outcome (o : Op) : Option State :=
    let here := (named o).filterMap at_
    if here.any (fun e => mask e.2 != mask o) then some (s.jointFail (here.map (·.1)))
    else if (named o).all (fun n => (at_ n).isSome) then
      (if here.all (fun e => e.2.jointKey == o.jointKey) then some (s.jointForm (here.map (·.1)))
       else some (s.jointFail (here.map (·.1))))
    else if (named o).any gone then
      some (s.jointFail (((s.teamOps t).filter (fun e => e.2.atLatch && (named e.2).any gone)).map (·.1)))
    else none
  old.findSome? (fun e => outcome e.2)

/-- RENDEZVOUS_FORM (R350, R351) at the focus team. -/
def execRendezvousForm (s : State) : Out := .next ((s.rendezvous (s.cur / 64)).getD s)

/-! ## The engines of a loom -/

/-- The barrier that a shuttle operation completes onto (R170, R335): the state, or a failure at step 0. -/
def State.ontoBarrier (s : State) (k : Nat) (o : Op) (y id0 : Nat) : Except Cause State :=
  let t := s.pick.team
  let a := o.shBaddr
  let b := s.team.bar a
  let xb := b.xb - (y : Int)
  if s.team.scratchBad a 8 then .error .dataPoison
  else if xbOut xb then .error .illOperand
  else
    let ids := (s.wlog.filter (fun r => decide (id0 ≤ r.id) && r.pick == o.pick)).map (·.id)
    let s1 := s.setTeam { s.team with
      inflight := s.team.inflight.map (fun x => if x.op = k then { x with onto := some a } else x) }
    .ok (s1.barUpdate (s.opAgent o) t a { b with xb } ids)

/-- Counters that an operation of a path adds to (R451, R483). -/
def State.countOp (s : State) (o : Op) (p : Plan) : State :=
  let n := p.writes.foldl (fun a w => match w with | .elem ks => a + ks.length | .tile _ _ => a + 4) 0
  let s1 := s.setTeam { s.team with by_ := s.team.by_ + n + p.read }
  let s2 := p.counts.foldl (fun s e => s.count s.team.die e.1 e.2) s1
  if o.path = 2 then s2.count s2.team.die 0x003 p.reply
  else if o.path = 4 then s2.count s2.team.die 0x004 p.reply else s2

/-- A plan carried out: what it writes and how the operation ends. -/
def State.carryOut (s : State) (k : Nat) (o : Op) (p : Plan) : State :=
  match o.fail with
  | some (0, c) => (s.putPart o p).failOp k o 0 c s.nextW
  | some (step, c) => s.failOp k o step c
  | none =>
    match p.bad with
    | some e =>
      (match e.toFail with
       | .fail step c => (s.putPart o p).failOp k o step c s.nextW
       | .foreign pa => ((s.putPart o p).worldRefused (some pa)).failOp k o 0 .perm s.nextW
       | x => s.stopOp k o x)
    | none =>
      let s1 := (s.putWrites (s.opAgent o) p.writes).countOp o p
      if o.path = 2 && o.shBar then
        match s1.ontoBarrier k o p.reply s.nextW with
        | .error c => s1.failOp k o 0 c s.nextW
        | .ok s2 => s2.finishOp k o none p.reply s.nextW
      else s1.finishOp k o none p.reply s.nextW

/-- An operation of SH, MX, GA or SS completes; its pick is in focus. -/
def State.completeEngine (s0 : State) (k : Nat) : State :=
  match s0.opAt k with
  | none => s0
  | some o =>
    let s := { s0 with cur := o.pick }
    match s.opPlan o with
    | .error e => (s.noteOp o false).stopOp k o e
    | .ok p => ((s.noteOp o true).markLate k o).carryOut k o p

/-- A collective is over: its operands are dropped. -/
def State.dropOperands (s : State) (o : Op) : State :=
  let n := s.team.ctx
  let c := s.ctxAt n
  if o.func = 0x30 ∨ o.func = 0x31 then
    s.setCtxAt n { c with
      colls := c.colls.filter (fun e => !(e.1 == o.f 0 12 && e.2.1 == o.cseq))
      collFails := c.collFails.filter (fun e => !(e.1 == o.f 0 12 && e.2.1 == o.cseq)) }
  else s

/-- A CO operation completes; BY counts what it read and wrote (R451). -/
def State.completeCo (s0 : State) (k : Nat) (o : Op) : State :=
  let s := ({ s0 with cur := o.pick } : State).noteGroup o
  let made (x : State) (p : Plan) : State :=
    if p.bad.isNone then
      ((((x.putWrites (s.opAgent o) p.writes).dropOperands o).count 12 (0x100 + 1024 * s.ctx.world) 1).countOp o p).finishOp
        k o none 0 s.nextW
    else x.carryOut k o p
  match o.fail with
  | some (step, c) => (s.dropOperands o).failOp k o step c
  | none =>
    match s.coEnd o with
    | .error e => s.stopOp k o e
    | .ok .wait => s0
    | .ok (.coll case rank) =>
      (match s.coGroup o with
       | .ok g => if o.func = 0x30 ∨ o.func = 0x31 then s.collErrAll k o g case rank else s.collErr k case rank
       | .error _ => s.collErr k case rank)
    | .ok (.done s1) =>
      ((s1.count 12 (0x100 + 1024 * s.ctx.world) 1).countOp o { read := if o.func = 0x32 then 2 * o.coLen else 16 }).finishOp
        k o none 0 s.nextW
    | .ok (.got s1 p) => made s1 p
    | .ok (.plan p) => made s p

/-! ## Work distributor (R369 to R371) -/

/-- An answer in scratch, its bytes counted (R451). -/
def State.answer (s : State) (o : Op) (a n v : Nat) : State :=
  (s.storeScratch (s.opAgent o) s.pick.team a (leBytes n v)).countOp o { read := n }

/-- WD.NEXT: the next tile of the grid (R369, R370). -/
def State.nextTile (s : State) : Nat × State :=
  let m := s.team
  let l := s.launchAt m.launch
  let (gx, gy) := lrGrid l.lr
  let grant (q : Nat) : Nat := q % gx + q / gx * 2 ^ 16 + q * 2 ^ 32
  match l.regrant with
  | q :: qs => (grant q, s.setLaunchAt m.launch { l with regrant := qs, granted := (s.pick.team, q) :: l.granted })
  | [] =>
    if l.gridNext < gx * gy then
      (grant l.gridNext, s.setLaunchAt m.launch
        { l with gridNext := l.gridNext + 1, granted := (s.pick.team, l.gridNext) :: l.granted })
    else (0xFFFFFFFF + gx * gy * 2 ^ 32, s)

/-- The queue that a WD.LAUNCH joins: its context, its number and the record's address, or a status (R371, R436, R441,
R442). -/
def State.enqueueTarget (s : State) (o : Op) : Except Nat (Nat × Nat × Nat × State) :=
  let c := s.ctx
  let q := o.f 56 8
  let i := o.f 0 56
  if q < 16 then
    (if (tget ({} : Queue) c.queues q).base = 0 then .error 0x01 else .ok (s.team.ctx, q, i, s))
  else if 32 ≤ q then .error 0x01
  else
    let e := (tget 0xFFFFFFFF c.portals (q - 16)).toNat
    if e = 0xFFFFFFFF then .error 0x01
    else
      let f := tget ({} : Filter) s.filters e
      let w := f.word.toNat
      if !bit w 68 || bits w 0 16 != c.world || bits w 16 16 != s.team.ctx || decide (bits w 160 16 ≤ i) || f.budget == 0 then
        .error 0x30
      else .ok (bits w 48 16, bits w 64 4, bits w 96 56 + 256 * i,
        { s with filters := tput {} s.filters e { f with budget := f.budget - 1 } })

/-- WD.LAUNCH arrives at the scheduling processor (R371, R439): it joins its queue or is answered at once. -/
def State.enqueue (s : State) (k : Nat) (o : Op) : State :=
  match s.enqueueTarget o with
  | .error st =>
    let s1 := if st = 0x30 then s.count 12 (0x003 + 1024 * s.ctx.world) 1 else s
    s1.finishOp k o none st s.nextW
  | .ok (ctx, q, rec, s1) =>
    let c := s1.ctxAt ctx
    let x := tget ({} : Queue) c.queues q
    if x.base = 0 then s1.finishOp k o none 0x01 s.nextW
    else if 64 ≤ x.device.length then s1.finishOp k o none 0x02 s.nextW
    else (s1.setCtxAt ctx { c with queues := tput {} c.queues q { x with device := x.device ++ [(k, rec)] } }).setOp k
      { o with phase := .running, res := x.tail.toNat }

/-! ## Task unit (R372 to R376, R520) -/

/-- Whether a task may be handed out. -/
def Task.ready (t : Task) : Bool := t.dep == 0 && !t.issued && !t.done

/-- The ready task of highest PRI, the lowest id among equals. -/
def bestTask (l : List Task) : Option (Nat × Task) :=
  (l.zipIdx).foldl (fun b (t, i) => if !t.ready then b else match b with
    | some (_, u) => if u.pri < t.pri then some (i, t) else b
    | none => some (i, t)) none

/-- TK.NEXT: the answer and the state. -/
def State.nextTask (s : State) : Nat × State :=
  let m := s.team
  let l := s.launchAt m.launch
  if l.frozen then (0xFFFFFFFD, s)
  else match bestTask l.tasks with
    | some (i, t) => (i + t.pri * 2 ^ 12 + t.arg.toNat * 2 ^ 32,
        s.setLaunchAt m.launch { l with tasks := l.tasks.set i { t with issued := true, holder := s.pick.team } })
    | none => (if l.tasks.all (·.done) then 0xFFFFFFFF else 0xFFFFFFFE, s)

/-- The decrements of a TK.DONE: tasks, successors made ready, and the successor whose count was 0. -/
def decrements : List Task → List Nat → Nat → List Task × Nat × Option Nat
  | l, [], n => (l, n, none)
  | l, i :: is, n =>
    let t := (l[i]?).getD {}
    if t.dep = 0 then (l, n, some i)
    else decrements (l.set i { t with dep := t.dep - 1 }) is (if t.dep = 1 then n + 1 else n)

/-- TK.DONE (R374, R375). -/
def State.taskDone (s : State) (k : Nat) (o : Op) : State :=
  let m := s.team
  let l := s.launchAt m.launch
  let i := o.wa.toNat
  match l.tasks[i]? with
  | none => s.failOp k o 3 .illOperand
  | some t =>
    if l.frozen then s.failOp k o 0 .depUnderflow
    else
      let (l1, n, bad) := decrements (l.tasks.set i { t with done := true }) (t.succ.take t.ns) 0
      match bad with
      | none => (s.setLaunchAt m.launch { l with tasks := l1 }).finishOp k o none n s.nextW
      | some j => ((s.setLaunchAt m.launch { l with tasks := l1, frozen := true }).reportPick o.pick 3
          (i + j * 2 ^ 16)).failOp k o 0 .depUnderflow

/-- TK.ADD (R375, R376). -/
def State.taskAdd (s : State) (k : Nat) (o : Op) : State :=
  let m := s.team
  let l := s.launchAt m.launch
  let i := o.wa.toNat
  let n := o.wb.toNat
  match l.tasks[i]? with
  | none => s.failOp k o 3 .illOperand
  | some t =>
    if t.issued || t.done || n == 0 || decide (4095 < n ∨ 4096 ≤ t.dep + n) then s.failOp k o 3 .illOperand
    else if l.frozen then s.failOp k o 0 .depUnderflow
    else (s.setLaunchAt m.launch { l with tasks := l.tasks.set i { t with dep := t.dep + n } }).finishOp k o none (t.dep + n)
      s.nextW

/-- The 16 bytes of a task entry (R372); RES and the successors out of use keep what the table holds. -/
def Task.bytes (t : Task) : Nat :=
  t.dep + t.pri * 2 ^ 12 + t.ns * 2 ^ 14 + (if t.issued then 2 ^ 17 else 0) + (if t.done then 2 ^ 18 else 0) +
    ((t.succ.zipIdx).map (fun (x, k) => x * 2 ^ (32 + 12 * k))).sum + t.arg.toNat * 2 ^ 96

/-- TASK_TABLE_WRITEBACK (R520): every team of the launch has ended or published. A table that cannot be written is left
(log 9). -/
def execTaskTableWriteback (launch : Nat) (s : State) : Out :=
  let l := s.launchAt launch
  let ended (t : Nat) : Bool := match (s.teamAt t).phase with
    | .done _ => true
    | .published => true
    | _ => false
  let all := decide (l.lives.length = l.total) && l.lives.all (fun e => match e.2 with
    | .finished => true
    | .live t => ended t
    | .unstarted => false)
  if l.tasks.isEmpty || l.wroteBack || !all then .next s
  else
    let bs := l.tasks.flatMap (fun t => leBytes 16 t.bytes)
    let s1 := s.setLaunchAt launch { l with wroteBack := true }
    match s1.resolve (s1.ctxAt l.ctx) rightW (lrTasktab l.lr) bs.length with
    | .error _ => .next s1
    | .ok (pas, m) => .next ((s1.storePas deviceAgent pas bs).touchDies l.ctx m)

/-! ## Format manager (R377, R378, R499, R500) -/

/-- FM.QUERY: the answer. -/
def State.slotAnswer (s : State) (n : Nat) : Nat :=
  let m := s.team
  let x := s.slotAt m.die m.loom n
  let bound := if x.loading.isSome then none else x.bound
  ((bound.map (fun d => d.word.toNat)).getD 0) + (if bound.isSome then 2 ^ 64 else 0) +
    (if m.refs.getLsbD n then 2 ^ 65 else 0) + s.slotRefs m.die m.loom n % 2 ^ 16 * 2 ^ 72

/-- What FM.REQ comes to: a status at once, or a binding to wait for (R378); where the slot is being bound, status 3 for
another word, whoever asks (R500). -/
def State.slotRequest (s : State) (k : Nat) (o : Op) : State :=
  let m := s.team
  let n := o.wa.toNat
  let w := bits o.desc 0 64
  let x := s.slotAt m.die m.loom n
  let decide_ (s : State) (st : Nat) : State := s.setOp k { o with phase := .running, sent := true, res := st }
  let held := m.refs.getLsbD n
  let wordIs (d : Option Draft) : Bool := (d.map (fun d => d.word.toNat)) == some w
  match x.loading with
  | some d =>
    if wordIs (some d) then (s.setSlotAt m.die m.loom n { x with waiters := x.waiters ++ [(s.pick.team, k)] }).setOp k
      { o with phase := .running, res := 1 }
    else decide_ s 3
  | none =>
    if wordIs x.bound then decide_ (s.setTeam { m with refs := m.refs ||| (1#8 <<< n) }) 1
    else match s.draftOf s.ctx.world w with
      | none => decide_ s 2
      | some d =>
        if held then decide_ s 4
        else if s.slotRefs m.die m.loom n ≠ 0 then decide_ s 3
        else ((s.setSlotAt m.die m.loom n { x with loading := some d, waiters := x.waiters ++ [(s.pick.team, k)], asked := s.fresh }).setTeam
          { m with refs := m.refs ||| (1#8 <<< n) }).setOp k { o with phase := .running, res := 0 }

/-- Whether an operation in execution reads the configuration of slot n: it names the slot, itself or by its buffer record,
and the slot was bound when it issued (step 2 of R499). -/
def State.readsSlot (s : State) (die loom n : Nat) (o : Op) : Bool :=
  let m := s.teamAt (o.pick / 64)
  let s1 := ({ s with cur := o.pick } : State).asIssued o
  m.die == die && m.loom == loom && o.binds.any (fun e => e.1 == n) &&
    (match o.phase with | .running => true | .faulted _ => true | _ => false) &&
    (o.codes.contains n || (o.recIdx.isSome && (recSlots (s1.opRec o)).contains n))

/-- Whether a load of slot n of a loom may end: the loads asked for earlier have (R499), and what reads the slot has
drained. -/
def State.loadTurn (s : State) (die loom n : Nat) : Bool :=
  let x := s.slotAt die loom n
  (List.range 8).all (fun j =>
    let y := s.slotAt die loom j
    y.loading.isNone || decide (x.asked < y.asked) || (x.asked == y.asked && decide (n ≤ j))) &&
  s.ops.all (fun e => !s.readsSlot die loom n e.2)

/-- SLOT_BIND_COMPLETE (R499, R500): the slot being drained and the loom's earlier loads done, the draft is in the slot; the teams that wait for it hold it, those at admission run
once nothing else of theirs loads, and requests are answered. -/
def execSlotBindComplete (die loom slot : Nat) (s : State) : Out :=
  let x := s.slotAt die loom slot
  match x.loading with
  | none => .next s
  | some d =>
    if !s.loadTurn die loom slot then .next s
    else
    let s1 := s.setSlotAt die loom slot { bound := some d }
    let one (s : State) (w : Nat × Nat) : State :=
      let m := s.teamAt w.1
      if w.2 = 0 then
        let loads := m.needs.any (fun e => (s.slotAt die loom e.1).waiters.any (fun y => y.1 == w.1 && y.2 == 0))
        if m.phase = .binding ∧ !loads then s.setTeamAt w.1 { m with phase := .running } else s
      else match s.opAt w.2 with
        | some o => if o.phase = .running then
            (s.setTeamAt w.1 { m with refs := m.refs ||| (1#8 <<< slot) }).setOp w.2 { o with sent := true } else s
        | none => s
    .next ((x.waiters.foldl one s1).dropRemoved die loom slot)

/-! ## Queries and the end of any operation -/

/-- What a query asks of its unit within one clk: TK.DONE before TK.ADD, each in ascending task id, before the rest in
ascending team and pick (R370, R375); requests to the format manager by pick slot (R500). -/
def State.queryRank (s : State) (o : Op) : Nat :=
  let p := s.pickAt o.pick
  let m := s.teamAt (o.pick / 64)
  match o.func with
  | 0x51 => o.wa.toNat
  | 0x52 => 2 ^ 40 + o.wa.toNat
  | 0x60 => p.slot
  | 0x61 => p.slot
  | _ => 2 ^ 41 + 64 * m.index + p.index

/-- The unit that answers a query: the distributor, the scheduling processor, the task unit, or the format manager of a
loom. -/
def State.queryUnit (s : State) (o : Op) : Nat × Nat :=
  let m := s.teamAt (o.pick / 64)
  if o.func < 0x50 then (o.func, m.launch) else if o.func < 0x60 then (0x50, m.launch) else (0x60, 64 * m.die + m.loom)

/-- Whether a query acts next at its unit: the clk of its arrival is over, and no other arrived before it, or in the same
clk with a lower rank (R334, R370, R375, R500); of two in one clk that name one task the one accepted first goes first, which no
rule says: the model's choice (log 60). -/
def State.queryTurn (s : State) (o : Op) : Bool :=
  match o.arrived with
  | none => false
  | some c =>
    decide (c < (s.dieAt 12).cycles.toNat) && s.ops.all (fun e =>
      match e.2.arrived with
      | none => true
      | some c' => e.2.phase != .queued || s.queryUnit e.2 != s.queryUnit o || decide (c < c') ||
          (c == c' && (decide (s.queryRank o < s.queryRank e.2) || (s.queryRank o == s.queryRank e.2 && decide (o.ord ≤ e.2.ord)))))

/-- A query of a WQ unit, or SS.PEEK, acts (R334, R392). -/
def State.query (s : State) (k : Nat) (o : Op) : State :=
  let n := s.nextW
  match o.func with
  | 0x41 => (s.answer o o.wa.toNat 16 o.told).finishOp k o none (o.told % 2 ^ 32) n
  | 0x48 => let (v, s1) := s.nextTile; (s1.answer o o.wa.toNat 8 v).finishOp k o none (v % 2 ^ 32) n
  | 0x49 => s.enqueue k o
  | 0x50 => let (v, s1) := s.nextTask; (s1.answer o o.wa.toNat 8 v).finishOp k o none (v % 2 ^ 32) n
  | 0x51 => s.taskDone k o
  | 0x52 => s.taskAdd k o
  | 0x60 =>
    let v := s.slotAnswer o.wa.toNat
    (s.answer o o.wb.toNat 16 v).finishOp k o none (bits v 64 1) n
  | _ => s.slotRequest k o

/-- PATH_OPERATION_COMPLETE (R166): an operation completes, or comes to where it must wait; one of an agent's operations takes
effect before a later one on the same words (R172). One that was stopped leaves what
R428 allows; the participants of a rendezvous complete together. -/
def execPathOperationComplete (op : Nat) (s : State) : Out :=
  match s.opAt op with
  | none => .next s
  | some o =>
    match o.phase with
    | .abandoned => .next (({ s.settleOp o with ops := s.ops.filter (fun e => e.1 != op) } : State).carryOn op o.pick s.nextW)
    | .faulted _ => .next s
    | .latched => if o.fail.isSome then .next (s.completeEngine op) else .next s
    | .queued =>
      if o.func = 0x41 ∨ (o.path = 7 ∧ s.queryTurn o) then .next ({ s with cur := o.pick }.query op o) else .next s
    | .running =>
      if o.path = 5 then .next (s.completeCo op o)
      else if o.path = 7 then
        let s1 := { s with cur := o.pick }
        if o.sent then
          if o.func = 0x61 then .next ((s1.answer o (o.wb.toNat + 8) 8 o.res).finishOp op o none o.res s.nextW)
          else .next (s1.finishOp op o none o.res s.nextW)
        else .next s
      else if o.joint.isEmpty then .next (if s.opWaits o then s else s.completeEngine op)
      else .next (o.joint.reverse.foldl State.completeEngine s)

end Sys2Proof.Machine
end

