-- ==== Sys2Proof/Machine/Submit.lean ====
section
/-! DEFINITION. The scheduling processor: submissions, portal budgets, and the answers to translation faults
(R437 to R442, R471). -/

namespace Sys2Proof.Machine

/-! ## Submissions (R436 to R440) -/

/-- A submission accepted: its status is 0 and its launch number (R440); else its status and 0. carry is what happens
before every access of the launch. -/
def State.submit (s : State) (g : Agent) (ctx rec : Nat) (carry : List Nat) : State × Nat × Nat :=
  let w := (s.ctxAt ctx).world
  let s0 := s.count 12 (0x002 + 1024 * w) 1
  match s0.validate g ctx rec false with
  | .error st => (s0, st, 0)
  | .ok (lr, tasks) =>
    let c := s0.ctxAt ctx
    let ln := s0.nextLaunch
    let s1 : State := { s0 with nextLaunch := ln + 1 }
    let s2 := s1.setCtxAt ctx { c with nextLnum := c.nextLnum + 1 }
    (s2.setLaunchAt ln { ctx, lnum := c.nextLnum, lrec := rec, lr, order := ln, total := lrTotal lr, tasks, carry
                         subW := s0.nextW }, 0, c.nextLnum)

/-- One entry of a ring (R438, R439): the status goes out in one 16-byte store. An entry that cannot be read is refused
with REC_FAULT, and one that cannot be written is left (log 9). -/
def State.ringEntry (s : State) (ctx q : Nat) : State :=
  let c := s.ctxAt ctx
  let x := tget ({} : Queue) c.queues q
  let va := x.base + 32 * (x.head.toNat % 2 ^ x.log2)
  let lrec := (s.readVa deviceAgent ctx va 32).map (fun e => bits e 0 56)
  let (s1, st, n) : State × Nat × Nat := match lrec with
    | none => (s.count 12 (0x002 + 1024 * c.world) 1, 0x04, 0)
    | some a => s.submit deviceAgent ctx a (s.knownIds deviceAgent)
  let s2 := match s1.resolve (s1.ctxAt ctx) rightW (va + 16) 16 with
    | .error _ => s1
    | .ok (pas, _) => s1.putUnits (deviceAgent.as { ord := 3, scp := 5 }) [⟨0, 5, s1.nextW :: s1.knownIds deviceAgent⟩]
        [(memUnits (wholeBytes pas (leBytes 8 st ++ leBytes 8 n))).flatten]
  let c2 := s2.ctxAt ctx
  s2.setCtxAt ctx { c2 with queues := tput {} c2.queues q { x with head := x.head + 1 } }

/-- One device enqueue (R439, R371, R442): the status is kept for the operation that asked. -/
def State.deviceEntry (s : State) (ctx q k rec : Nat) (rest : List (Nat × Nat)) : State :=
  let c := s.ctxAt ctx
  let x := tget ({} : Queue) c.queues q
  let s0 := s.setCtxAt ctx { c with queues := tput {} c.queues q { x with device := rest } }
  match s0.opAt k with
  | none => (s0.submit deviceAgent ctx rec (s0.knownIds deviceAgent)).1
  | some o =>
    let own := decide (o.f 56 8 < 16)
    let (s1, st, _) := s0.submit (if own then s0.opAgent o else deviceAgent) ctx rec (if own then o.ids else [])
    s1.setOp k { o with sent := true, res := st }

/-- A write of QTAIL: entries more than 2^QLOG2 ahead of QHEAD do not count (R439, log 51). -/
def Queue.ring (x : Queue) (v : Word) : Queue :=
  { x with tail := v, upto := if 2 ^ x.log2 < (v - x.head).toNat then x.head + BitVec.ofNat 32 (2 ^ x.log2) else v }

/-- SUBMISSION (R439): the next entry of a queue in order. A device enqueue stands in the order at its arrival. -/
def execSubmission (ctx q : Nat) (s : State) : Out :=
  let c := s.ctxAt ctx
  let x := tget ({} : Queue) c.queues q
  if !c.live || x.base = 0 then .next s
  else match x.device with
    | (k, rec) :: rest =>
      let turn := match s.opAt k with
        | some o => decide (BitVec.ofNat 32 o.res = x.head)
        | none => true
      if turn || x.head = x.upto then .next (s.deviceEntry ctx q k rec rest) else .next (s.ringEntry ctx q)
    | [] => if x.head = x.upto then .next s else .next (s.ringEntry ctx q)

/-- RATE_BUDGET_REFILL (R442): one enqueue comes back to the bucket of a filter entry, up to RATE. -/
def execRateBudgetRefill (portal : Nat) (s : State) : Out :=
  let f := tget ({} : Filter) s.filters portal
  let rate := bits f.word.toNat 176 16
  .next { s with filters := tput {} s.filters portal { f with budget := min rate (f.budget + 1) } }

/-! ## Placement that became impossible (R446) -/

/-- The status that a submission of the record would now give: 0x17 where a draft has left the store, 0x24 or 0x25 where the
partition is too small, or 0; an accepted record keeps passing the other checks (R436, R446). -/
def State.placeStatus (s : State) (world lr : Nat) : Nat := s.formStatus world lr false

/-- Whether the teams of a list can all be given looms beside those placed already, as the hierarchy asks. -/
def placeAll (lr : Nat) (looms : List (Nat × Nat)) : List Nat → List (Nat × Nat × Nat) → Bool
  | [], _ => true
  | i :: is, placed => looms.any (fun (d, l) => placeOk lr i d l placed && placeAll lr looms is ((i, d, l) :: placed))

/-- Whether what is left of a launch can no longer be placed in the world's partition. -/
def State.stuck (s : State) (world : Nat) (l : Launch) : Bool :=
  let dies := s.partitionDies world
  let looms := dies.flatMap (fun d => (List.range 40).map (fun n => (d, n)))
  let todo := s.toStart l
  !todo.isEmpty && (coopFit dies.length l.lr || !placeAll l.lr looms todo l.placed)

/-- The distributor checks the launches of a world after a change of its partition. -/
def State.placeCheck (s : State) (world : Nat) : State :=
  s.launches.foldl (fun s e =>
    let l := e.2
    let c := s.ctxAt l.ctx
    if c.world = world ∧ c.live ∧ !c.ended ∧ !l.ended ∧ s.stuck world l then
      s.report (faultMsg 5 l.ctx world 12 0 l.lnum 0 0 (s.placeStatus world l.lr))
    else s) s

/-! ## Answers to translation faults (R471) -/

/-- The unanswered fault that a response names: a stage-1 one on the context's own page, a stage-2 one from the
hypervisor. -/
def State.faultFor (s : State) (ctx fid : Nat) (hyp : Bool) : Option FaultRec :=
  (s.ctxAt ctx).faults.find? (fun f => f.fid == fid && f.stage2 == hyp)

/-- The state without that fault. -/
def State.dropFault (s : State) (ctx fid : Nat) : State :=
  let c := s.ctxAt ctx
  s.setCtxAt ctx { c with faults := c.faults.filter (fun f => f.fid != fid) }

/-- A fragment set with the hold of a fault lifted, and pages of landing targets that are not served (R296). -/
def LaneSet.unhold (l : LaneSet) (fid : Nat) (pages : List Nat) : LaneSet :=
  { l with frags := l.frags.map (fun (f : Fragment) =>
      if f.hold = some fid then { f with hold := none, noServe := pages ++ f.noServe } else f) }

/-- What a fault held goes on (ACT 0), or meets its landing check with a page that is not served. -/
def State.releaseFault (s0 : State) (ctx : Nat) (f : FaultRec) (pages : List Nat) : State :=
  let s := s0.dropFault ctx f.fid
  match f.who with
  | .inl k =>
    let p := s.pickAt k
    if p.wait = .fault f.fid then s.setPickAt k { p with wait := .none } else s
  | .inr (.inl (k, strands)) =>
    if strands = 0 then s
    else
      let p := s.pickAt k
      s.setPickAt k { p with lanes := p.lanes.unhold f.fid pages, hlanes := p.hlanes.unhold f.fid pages }
  | .inr (.inr k) =>
    match s.opAt k with
    | none => s
    | some o =>
      if o.phase = .faulted f.fid then
        (s.setOp k { o with phase := if o.path = 5 ∧ !o.sent ∧ o.func < 0x32 then .queued else .running }).markLate k o
      else s

/-- A refused access ends with a cause (ACT 1 and 2): a trap, the end of an operation at step 0, a bad landing target, or
the end of the context where registers cannot be moved. -/
def State.refuseFault (s0 : State) (ctx : Nat) (f : FaultRec) (c : Cause) : State :=
  let s := { s0.releaseFault ctx f (if f.landing then [f.va / 65536] else []) with inst := f.inst }
  let back (t : State) : State := { t with cur := s0.cur, inst := s0.inst }
  match f.who with
  | .inl k =>
    let s1 := { s with cur := k }
    back (s1.takeTrap { cause := c, tval := BitVec.ofNat 64 f.va, src := true, tspc := s1.pick.spc })
  | .inr (.inl (k, strands)) =>
    let s1 := { s with cur := k }
    if f.landing then back s
    else
      let r : TrapReq :=
        { cause := c, tval := BitVec.ofNat 64 f.va, tmask := f.lanes, frag := strands, src := false, tspc := s1.pick.spc }
      if strands = 0 then back (s1.endByTrap k r 0 0) else back (s1.takeTrap r)
  | .inr (.inr k) =>
    match s.opAt k with
    | none => back s
    | some o => back (s.setOp k { o with fail := some (0, c), phase := .running })

/-- XRESP_REPLAY (R471). -/
def execXrespReplay (ctx fid : Nat) (hyp : Bool) (s : State) : Out :=
  match s.faultFor ctx fid hyp with
  | none => .next s
  | some f => .next (s.releaseFault ctx f [])

/-- XRESP_XLATE (R471). -/
def execXrespXlate (ctx fid : Nat) (hyp : Bool) (s : State) : Out :=
  match s.faultFor ctx fid hyp with
  | none => .next s
  | some f => .next (s.refuseFault ctx f .xlate)

/-- XRESP_PERM (R471). -/
def execXrespPerm (ctx fid : Nat) (hyp : Bool) (s : State) : Out :=
  match s.faultFor ctx fid hyp with
  | none => .next s
  | some f => .next (s.refuseFault ctx f .perm)

/-- XRESP_REFUSE (R471): ACT 3 is refused and changes nothing. -/
def execXrespRefuse (_ctx _fid : Nat) (_hyp : Bool) (s : State) : Out := .next s

/-! ## Invalidation (R467, R468) -/

/-- An invalidation begins: of the range that INVADDR and INVCNT give. -/
def State.invalidate (s : State) (ctx kind : Nat) : State :=
  let c := s.ctxAt ctx
  if !c.live || c.invgo != 0 then s
  else s.setCtxAt ctx { c with invgo := kind, invRun := (c.invaddr, c.invcnt.toNat, s.nextW) }

/-- INVALIDATE_STAGE1 (R468). -/
def execInvalidateStage1 (ctx : Nat) (s : State) : Out := .next (s.invalidate ctx 1)

/-- INVALIDATE_STAGE2 (R468), a hypervisor write. -/
def execInvalidateStage2 (ctx : Nat) (s : State) : Out := .next (s.invalidate ctx 2)

/-- Whether a write went through a translation that a finished invalidation removed: of a context's range by VA, or of a
world's by IA (R468). Every write through the range so far counts (log 61). -/
def State.usedRemoved (s : State) (ctx : Nat) (r : WRec) : Bool :=
  let c := s.ctxAt ctx
  let own := (s.teamAt (r.pick / 64)).ctx
  if c.invgo = 1 then own == ctx && r.pages.any (fun e => coversPage c.invRun e.1)
  else c.invgo == 2 && (s.ctxAt own).world == c.world && r.pages.any (fun e => coversPage c.invRun e.2)

/-- INVALIDATION_COMPLETE (R467, R468): no cache holds an entry of the range that was overwritten before the invalidation
began; a stage-2 one covers every context of the world. What went through a removed entry has been performed at system scope. -/
def execInvalidationComplete (ctx : Nat) (s0 : State) : Out :=
  let s : State := { s0 with wlog := s0.wlog.map (fun r => if s0.usedRemoved ctx r then { r with done := true } else r) }
  let c := s.ctxAt ctx
  let s1 := s.setCtxAt ctx { c with invgo := 0, invs := if c.invgo = 1 then c.invRun :: c.invs else c.invs }
  let w := s1.worldAt c.world
  .next (if c.invgo = 2 then s1.setWorldAt c.world { w with invs := c.invRun :: w.invs } else s1)

end Sys2Proof.Machine
end

