-- ==== Sys2Proof/Machine/Worlds.lean ====
section
/-! DEFINITION. Dies and their worlds, contexts, drafts, the world's logs, attestation and device interfaces (R472, R479,
R482, R483, R493, R496 to R504, R511 to R515). -/

namespace Sys2Proof.Machine

/-- Whether the functions answer: bring-up is done and the device is not in the safe state (R489, R490). -/
def State.ready (s : State) : Bool := s.dev.powered && s.dev.phase == 6 && !s.dev.fail

/-- A function. -/
def State.fnAt (s : State) (n : Nat) : Function := tget ({} : Function) s.fns n

/-- The state with a function replaced. -/
def State.setFnAt (s : State) (n : Nat) (f : Function) : State := { s with fns := tput {} s.fns n f }

/-- A link direction or port. -/
def State.linkAt (s : State) (n : Nat) : Link := tget ({} : Link) s.links n

/-- The state with a link replaced. -/
def State.setLinkAt (s : State) (n : Nat) (l : Link) : State := { s with links := tput {} s.links n l }

/-- Whether a VF of a world has its interface CONFIG_LOCKED or in RUN (R514). -/
def State.worldLocked (s : State) (world : Nat) : Bool :=
  world != 0 && s.fns.any (fun e => e.1 != 0 && e.2.world == world && (e.2.tdisp == 1 || e.2.tdisp == 2))

/-! ## Dies (R472) -/

/-- The dies that hold a world: being scrubbed for it, assigned to it or being released from it. -/
def State.holders (s : State) (world : Nat) : List Nat :=
  (List.range 12).filter (fun n =>
    let d := s.dieAt n
    (d.st == 1 && d.pendingWorld == world) || ((d.st == 2 || d.st == 3) && d.world == world))

/-- DIE_ASSIGN (R472, R498, R504): CMD 1 with a world. With its first die the world gets its keys and an empty store. -/
def execDieAssign (die world : Nat) (s : State) : Out :=
  let d := s.dieAt die
  let hs := s.holders world
  if !s.ready || 12 ≤ die || d.lost || d.st != 0 || world = 0 || 65536 ≤ world ||
      hs.any (fun n => (s.dieAt n).s2root != d.s2root) then .next s
  else
    let w := s.worldAt world
    let s1 := if hs.isEmpty then s.setWorldAt world { w with drafts := [], chain := 0, keyed := true, invs := [(0, 0, s.nextW)] } else s
    .next (s1.setDieAt die { d with st := 1, pendingWorld := world })

/-- DIE_RELEASE (R472, R514): CMD 2. -/
def execDieRelease (die : Nat) (s : State) : Out :=
  let d := s.dieAt die
  if !s.ready || d.st != 2 || s.worldLocked d.world then .next s
  else .next ((s.setDieAt die { d with st := 3 }).placeCheck d.world)

/-- The memory homed on a die is gone from the list. -/
def State.wipeDie (s : State) (die : Nat) : State :=
  let home (a : Nat) : Bool := isDram a && homeDie a == die
  { s with
    mem := s.mem.filter (fun c => !home c.1)
    poison := s.poison.filter (fun w => !home (4 * w))
    wlog := s.wlog.filter (fun r => r.cells.all (fun c => locTeam c.loc != 0 || !home c.loc))
    slots := s.slots.filter (fun e => e.1 / 512 != die) }

/-- DIE_SCRUB_COMPLETE (R472, R483): the die's memory reads as zeros, its counters start from 0, its world is latched. -/
def execDieScrubComplete (die : Nat) (s : State) : Out :=
  let d := s.dieAt die
  if d.st != 1 then .next s
  else .next (((s.wipeDie die).setDieAt die
    { d with st := 2, world := d.pendingWorld, pendingWorld := 0, counters := [], gen := false }).placeCheck d.pendingWorld)

/-- Whether a team holds a die back from its release: resident there, or saved in a context that has touched it. -/
def State.heldBy (s : State) (die : Nat) (m : Team) : Bool :=
  (m.phase.resident && m.die == die) ||
  (match m.phase with
   | .saved _ _ => (s.ctxAt m.ctx).tdmask.getLsbD die
   | _ => false)

/-- DIE_RELEASE_COMPLETE (R472, R498, R500, R504): the keys are erased; with its last die the world's store and keys
go. -/
def execDieReleaseComplete (die : Nat) (s : State) : Out :=
  let d := s.dieAt die
  if d.st != 3 || s.teams.any (fun e => s.heldBy die e.2) then .next s
  else
    let s1 := (s.setDieAt die { d with st := 0, world := 0, left := (d.world, s.nextW) :: d.left })
    let s2 := { s1 with slots := s1.slots.filter (fun e => e.1 / 512 != die) }
    if (s2.holders d.world).isEmpty then
      .next (s2.setWorldAt d.world { s2.worldAt d.world with drafts := [], keyed := false, dumpKey := none, sweeping := false })
    else .next s2

/-! ## Rekeying (R479) -/

/-- REKEY (R479): the sweep to the other generation; a second one is refused until it has ended. -/
def execRekey (world : Nat) (s : State) : Out :=
  let w := s.worldAt world
  if !w.keyed || w.sweeping then .next s
  else .next ((s.holders world).foldl (fun s n => s.setDieAt n { s.dieAt n with gen := !(s.dieAt n).gen })
    (s.setWorldAt world { w with sweeping := true }))

/-- REKEY_SWEEP_COMPLETE (R479): the old keys are erased. No value that an access returns changes. -/
def execRekeySweepComplete (world : Nat) (s : State) : Out :=
  .next (s.setWorldAt world { s.worldAt world with sweeping := false })

/-! ## Contexts (R511) -/

/-- Whether entry CTXc is free: no context, or one that has ended with nothing left to publish. -/
def State.ctxFree (s : State) (ctx : Nat) : Bool :=
  let c := s.ctxAt ctx
  !c.live || (c.ended && s.teams.all (fun e => e.2.ctx != ctx || !e.2.phase.unpublished) &&
    s.launches.all (fun e => e.2.ctx != ctx || e.2.ended))

/-- CONTEXT_CREATE (R437, R511). -/
def execContextCreate (ctx fn slot world : Nat) (s : State) : Out :=
  let f := s.fnAt fn
  if !s.ready || 4096 ≤ ctx || 256 ≤ slot || fn = 0 || 12 < fn || !f.enabled || world = 0 || f.world != world ||
      !s.ctxFree ctx then .next s
  else .next (s.setCtxAt ctx { live := true, world, fn, slot, invs := [(0, 0, s.nextW)] })

/-- CONTEXT_END_HOST (R511). -/
def execContextEndHost (ctx : Nat) (s : State) : Out :=
  if !s.ready || !(s.ctxAt ctx).live then .next s else .next (s.endContext ctx 6 0)

/-- Every context of a function ends with ENDED_HOST. -/
def State.endFunction (s : State) (fn : Nat) : State :=
  (s.ctxs.filter (fun e => e.2.live && e.2.fn == fn)).foldl (fun s e => s.endContext e.1 6 0) s

/-! ## Drafts (R496 to R498, R501) -/

/-- Bytes of host memory at a host address (R464). -/
def State.hostBytes (s : State) (a n : Nat) : List Byte := rdBytes s.mem (0x4000000000000 + a) n

/-- The bytes of a hash, most significant first. -/
def hashBytes (h : BitVec 384) : List Byte := (leBytes 48 h.toNat).reverse

/-- Whether a table entry word keeps the limits of R120. -/
def tableWordOk (x : Nat) : Bool :=
  decide (-4095 ≤ sextN x 13 ∧ sextN (x / 8192) 7 ≤ 40 ∧ -40 ≤ sextN (x / 8192) 7) && bits x 20 12 == 0

/-- Whether the bytes of a manifest have the form of R496. -/
def manifestOk (bs : List Byte) : Bool :=
  let at_ (o n : Nat) : Nat := ofLe ((bs.drop o).take n)
  let w := at_ 8 8
  let ntab := at_ 0x14 4
  let ilen := at_ 0x18 4
  let img := roundUp (0x40 + 4 * ntab) 64
  at_ 0 4 == 0x31465244 && at_ 4 2 == 1 && at_ 6 2 == 0 && at_ 0x1C 4 == 0 && draftWordOk w &&
  ntab == (if bits w 0 2 = 2 then 2 ^ bits w 2 5 else 0) && ilen % 64 == 0 && decide (64 ≤ ilen ∧ ilen ≤ 262144) &&
  bs.length == img + ilen + 96 && ((bs.drop (0x40 + 4 * ntab)).take (img - (0x40 + 4 * ntab))).all (· == 0) &&
  (List.range ntab).all (fun c => tableWordOk (at_ (0x40 + 4 * c) 4))

/-- The number of drafts among the kinds of minimum SVNs (R493). -/
def draftKind : Nat := 5

/-- The status of a load by a function and what the store then holds (R497). Whether the host answers the read is its own
affair: a free choice; a function whose IDE stream failed gets no answer (R513). -/
def State.loadDraft (s : State) (fn : Nat) : Nat × Option Draft :=
  let f := s.fnAt fn
  let (world, addr, len) := (f.world, f.dladdr, f.dllen)
  if world = 0 then (1, none)
  else if len < 224 ∨ 270336 < len ∨ 2 ^ 50 < addr + len ∨ f.ideDropped ∨ s.free 35 addr then (2, none)
  else
    let bs := s.hostBytes addr len
    let at_ (o n : Nat) : Nat := ofLe ((bs.drop o).take n)
    let ds := (s.worldAt world).drafts
    let d : Draft := { word := BitVec.ofNat 64 (at_ 8 8)
                       table := (List.range (at_ 0x14 4)).map (fun c => BitVec.ofNat 32 (at_ (0x40 + 4 * c) 4))
                       ilen := at_ 0x18 4, meas := Config.sha384 bs }
    if !manifestOk bs then (3, none)
    else if !Config.sigValid (bs.take (len - 96)) (bs.drop (len - 96)) then (4, none)
    else if at_ 0x10 4 < tget 0 s.dev.minSvn draftKind then (5, none)
    else if ds.any (fun x => x.word == d.word) then (6, none)
    else if 32 ≤ ds.length ∨ 2 ^ 22 < (ds.map (·.ilen)).sum + d.ilen then (7, none)
    else (0, some d)

/-- The draft chain extended by an event (R502). -/
def World.extend (w : World) (event : List Byte) : World := { w with chain := Config.sha384 (hashBytes w.chain ++ event) }

/-- DRAFT_LOAD (R497, R498): the request begins to run, DLGO reading 1; then it ends. -/
def execDraftLoad (fn : Nat) (s : State) : Out :=
  let f := s.fnAt fn
  if !s.ready || 2 ≤ f.dlgo then .next s
  else if f.dlgo = 0 then .next (s.setFnAt fn { f with dlgo := 1 })
  else
    let (st, d) := s.loadDraft fn
    let s1 := s.setFnAt fn { f with dlstat := st, dlgo := 0 }
    match d with
    | none => .next s1
    | some d =>
      let w := s1.worldAt f.world
      .next (s1.setWorldAt f.world ({ w with drafts := w.drafts ++ [d] }.extend (1 :: hashBytes d.meas)))

/-- DRAFT_REMOVE (R497, R498, R501): the request begins to run, DLGO reading 2; then it ends. A slot that no team refers to
loses the draft at once. -/
def execDraftRemove (fn : Nat) (s : State) : Out :=
  let f := s.fnAt fn
  let w := s.worldAt f.world
  if !s.ready || f.dlgo = 1 then .next s
  else if f.dlgo = 0 then .next (s.setFnAt fn { f with dlgo := 2 })
  else if f.world = 0 || w.drafts.all (fun d => d.word.toNat != f.dladdr) then
    .next (s.setFnAt fn { f with dlstat := 8, dlgo := 0 })
  else
    let w1 := { w with drafts := w.drafts.filter (fun d => d.word.toNat != f.dladdr) }.extend (2 :: leBytes 8 f.dladdr)
    let s1 := (s.setFnAt fn { f with dlstat := 0, dlgo := 0 }).setWorldAt f.world w1
    .next (s1.slots.foldl (fun s e =>
      if (s.dieAt (e.1 / 512)).world = f.world then s.dropRemoved (e.1 / 512) (e.1 % 512 / 8) (e.1 % 8) else s) s1)

/-! ## Counters and the observation log (R482, R483) -/

/-- Whether a counter is listed for a die. -/
def counterListed (die c : Nat) : Bool :=
  if die < 12 then
    decide (c ≤ 0x00D) || decide (0x100 ≤ c ∧ c ≤ 0x107) || decide (0x200 ≤ c ∧ c ≤ 0x206) ||
    decide (0x300 ≤ c ∧ c < 0x30C) || decide (0x380 ≤ c ∧ c < 0x3A1)
  else die == 12 && (decide (c ≤ 3) || decide (0x010 ≤ c ∧ c < 0x034) || decide (0x040 ≤ c ∧ c < 0x064) ||
    decide (0x070 ≤ c ∧ c < 0x094) || c == 0x100 || c == 0x101)

/-- The counters that the model counts. Of the others (what caches, links, clocks, ECC and matrix engines did) no step of
the model fixes the count: a read finds them grown by a free number (log 16). -/
def counterExact (die c : Nat) : Bool :=
  if die < 12 then [0, 1, 3, 4, 5, 6, 7, 8, 9, 0xA, 0xB, 0xC, 0xD, 0x107, 0x202, 0x203, 0x204, 0x205, 0x206].contains c ||
    (decide (0x300 ≤ c ∧ c < 0x30C) && decide (2 ≤ c % 4)) || decide (0x381 ≤ c ∧ c < 0x3A1)
  else c == 2 || c == 3 || decide (0x070 ≤ c ∧ c < 0x094) || c == 0x100 || c == 0x101

/-- Where a counter of a die is held: those of the I/O die per world (R483). -/
def counterKey (die world c : Nat) : Nat := if die = 12 then c + 1024 * world else c

/-- The aborts of the picks on a die that its counter has not taken yet (R483). -/
def State.openAborts (s : State) (die : Nat) : Nat :=
  ((s.picks.filter (fun e => (s.teamAt e.2.team).die == die)).map (fun e => e.2.aborts)).sum

/-- A counter of a die for a world (R483). -/
def State.counterOf (s : State) (die world c : Nat) : BitVec 64 :=
  if !counterListed die c then 0
  else
    let v := tget 0 (s.dieAt die).counters (counterKey die world c)
    if die < 12 ∧ c = 0x00B then BitVec.ofNat 64 (min (2 ^ 64 - 1) (v.toNat + s.openAborts die)) else v

/-- A counter that the model does not fix has grown by a free number when it is read (log 16). -/
def State.growCounter (s : State) (die world c : Nat) : State :=
  if !counterListed die c || counterExact die c then s
  else s.count die (counterKey die world c) (s.freeN 24 c)

/-- An entry joins a world's log, a ring of 4096, and its hash (R482). -/
def World.observe (w : World) (e : ObsEntry) : World :=
  let x := e.ctr + e.fn * 2 ^ 16 + e.die * 2 ^ 20 + e.stamp % 2 ^ 96 * 2 ^ 32
  { w with obs := (w.obs ++ [e]).drop (w.obs.length + 1 - 4096)
           obsHash := Config.sha384 (hashBytes w.obsHash ++ leBytes 16 x) }

/-- Whether a function takes a TLP (R513): none while its stream is dropped; one of the stream must name a key set that is
live for the receiver, old or new. -/
def State.takesTlp (s : State) (fn : Nat) (set : Option Nat) : Bool :=
  !(s.fnAt fn).ideDropped && (match set with
    | none => true
    | some k => (s.fnAt fn).ideLive.contains (false, k))

/-- COUNTER_READ (R482, R483) of the counter that a function has selected. The allow-list that governs is that of the
world that holds the die; for the I/O die, the function's. -/
def execCounterRead (tlp : ReadTlp) (s : State) : Out :=
  let fn := tlp.fn
  let f := s.fnAt fn
  let c := f.cntsel % 1024
  let die := f.cntsel / 1024 % 16
  if !s.ready || !s.takesTlp fn tlp.set then .next s
  else
    let w := if die < 12 then (s.dieAt die).world else f.world
    let x := s.worldAt w
    if w != 0 && bit x.allow c then
      let s1 := s.growCounter die w c
      .next (s1.setFnAt fn { f with cntval := s1.counterOf die w c })
    else
      let s1 := s.setFnAt fn { f with cntval := 0 }
      if w = 0 then .next s1
      else .next (s1.setWorldAt w (x.observe ⟨c, fn, die, (s.dieAt 12).cycles.toNat⟩))

/-- ALLOW_LIST_WRITE (R482, R511, R514): a word of the allow-list; a change is logged. No rule gives DIE of such an entry:
it is free. -/
def execAllowListWrite (fn world word val : Nat) (s : State) : Out :=
  let x := s.worldAt world
  let new := setBits x.allow (32 * word) 32 val
  let sets := (List.range 1024).any (fun k => bit new k && !bit x.allow k)
  if !s.ready || fn != 0 || 32 ≤ word || world = 0 || new = x.allow || (sets && s.worldLocked world) then .next s
  else .next (s.setWorldAt world ({ x with allow := new }.observe
    ⟨0x3FF, fn, s.freeN 25 0 % 16, (s.dieAt 12).cycles.toNat⟩))

/-! ## Attestation, policy and versions (R493, R502 to R504) -/

/-- The configuration image with the repair maps applied (R494, R495, R502): REPAIR enables the looms after repair. -/
def State.repairedImage (s : State) : List Byte :=
  let at_ (n : Nat) : List Byte :=
    let l := (s.dieAt n).loomMap
    if l.isEmpty then (s.dev.image.drop (0x10 + 8 * n)).take 8 else leBytes 8 (maskOf l)
  s.dev.image.take 0x10 ++ (List.range 12).flatMap at_ ++ s.dev.image.drop 0x70

/-- A measurement of a function (R502); those of layouts that no rule gives hash what they cover (log 7). -/
def State.measurement (s : State) (fn i : Nat) : Option (BitVec 384) :=
  let w := s.worldAt (s.fnAt fn).world
  let words (l : List Nat) : BitVec 384 := Config.sha384 (l.flatMap (leBytes 8))
  match i with
  | 1 => some ((s.dev.images[0]?).getD 0)
  | 2 => some (Config.sha384 s.repairedImage)
  | 3 => some ((s.dev.images[1]?).getD 0)
  | 4 => some ((s.dev.images[2]?).getD 0)
  | 5 => some (Config.sha384 (hashBytes Config.identity ++ ((List.range 6).map (tget 0 s.dev.minSvn)).flatMap (leBytes 8)))
  | _ =>
    if fn = 0 then none
    else match i with
      | 0x10 => some (w.policy.setWidth 384)
      | 0x11 => some w.chain
      | 0x12 => some w.obsHash
      | 0x13 => some (words ((List.range 12).map (fun n =>
          let d := s.dieAt n
          if d.world = (s.fnAt fn).world then d.world + d.st * 2 ^ 16 else 0) ++
          (List.range 73).map (fun l => (((s.linkAt l).slots.filter (fun e => e.2.getLsbD 4 &&
            (tget 0 (s.linkAt l).map (e.2.toNat % 16)).toNat == (s.fnAt fn).world)).length))))
      | _ => none

/-- SPDM_REQUEST (R502, R504). -/
def execSpdmRequest (fn : Nat) (req : SpdmReq) (s : State) : Out :=
  let f := s.fnAt fn
  if !s.ready || 12 < fn || (fn != 0 && !f.enabled) then .next s
  else match req with
    | .negotiate brainpool => .next (s.setFnAt fn { f with negotiated := brainpool, session := false })
    | .keyExchange => .next (if f.negotiated then s.setFnAt fn { f with session := true } else s)
    | .measurement i =>
      (match s.measurement fn i with
       | some v => .next (if f.negotiated then s.setFnAt fn { f with answers := f.answers ++ [(i, v)] } else s)
       | none => .next s)
    | .dumpKey key => .next (if f.session ∧ fn ≠ 0 ∧ f.world ≠ 0 then
        s.setWorldAt f.world { s.worldAt f.world with dumpKey := some key } else s)
    | .certificate slot => .next (if f.negotiated ∧ slot = 0 then
        s.setFnAt fn { f with certs := f.certs ++ [Config.identityChain] } else s)

/-- TENANT_POLICY_SET (R503): over a secured session, while the world has no context. -/
def execTenantPolicySet (fn val : Nat) (s : State) : Out :=
  let f := s.fnAt fn
  if !s.ready || fn = 0 || !f.session || f.world = 0 || 4 ≤ val ||
      s.ctxs.any (fun e => e.2.world == f.world && e.2.live && !s.ctxFree e.1) then .next s
  else .next (s.setWorldAt f.world { s.worldAt f.world with policy := BitVec.ofNat 32 val })

/-- The SVN of the image of a kind that runs: of the configuration image at 0x008 (R493, R494). -/
def State.runningSvn (s : State) (kind : Nat) : Nat :=
  if kind = 1 then ofLe ((s.dev.image.drop 8).take 4) else tget 0 s.dev.imageSvn kind

/-- SVN_RAISE (R493): on the physical function's secured session, never above the SVN of the image that runs; no image of
the drafts' kind does. -/
def execSvnRaise (kind val : Nat) (s : State) : Out :=
  if !s.ready || !(s.fnAt 0).session || kind = 0 || draftKind < kind || 2 ^ 32 ≤ val || val ≤ tget 0 s.dev.minSvn kind ||
      (kind != draftKind && decide (s.runningSvn kind < val)) then .next s
  else .next { s with dev := { s.dev with minSvn := tput 0 s.dev.minSvn kind val } }

/-! ## IDE and TDISP (R513, R514) -/

/-- IDE_KEY_SET_GO (R513): a key set becomes live in a direction; the transmitter switches to it. -/
def execIdeKeySetGo (fn set : Nat) (tx : Bool) (s : State) : Out :=
  let f := s.fnAt fn
  if !s.ready || !f.session || 2 ≤ set then .next s
  else .next (s.setFnAt fn { f with
    ideLive := (tx, set) :: f.ideLive.filter (· != (tx, set)), ideTx := if tx then set else f.ideTx, ideDropped := false })

/-- IDE_KEY_SET_STOP (R513): the set is erased. -/
def execIdeKeySetStop (fn set : Nat) (tx : Bool) (s : State) : Out :=
  let f := s.fnAt fn
  if !s.ready || !f.session then .next s else .next (s.setFnAt fn { f with ideLive := f.ideLive.filter (· != (tx, set)) })

/-- IDE_INTEGRITY_FAILURE (R513, R514). -/
def execIdeIntegrityFailure (fn : Nat) (s : State) : Out :=
  if !s.ready || (s.fnAt fn).ideLive.isEmpty then .next s
  else
    let s1 := s.endFunction fn
    .next (s1.setFnAt fn { s1.fnAt fn with ideDropped := true, tdisp := if fn = 0 then (s1.fnAt fn).tdisp else 3 })

/-- Whether a function is a VF that can be a device interface. -/
def State.isVf (s : State) (fn : Nat) : Bool := s.ready && decide (1 ≤ fn ∧ fn ≤ 12) && (s.fnAt fn).enabled

/-- LOCK_INTERFACE (R514). -/
def execLockInterface (fn : Nat) (s : State) : Out :=
  let f := s.fnAt fn
  .next (if s.isVf fn && f.tdisp == 0 then s.setFnAt fn { f with tdisp := 1 } else s)

/-- START_INTERFACE (R514). -/
def execStartInterface (fn : Nat) (s : State) : Out :=
  let f := s.fnAt fn
  .next (if s.isVf fn && f.tdisp == 1 then s.setFnAt fn { f with tdisp := 2 } else s)

/-- STOP_INTERFACE (R514). -/
def execStopInterface (fn : Nat) (s : State) : Out :=
  if !s.isVf fn then .next s
  else
    let s1 := s.endFunction fn
    .next (s1.setFnAt fn { s1.fnAt fn with tdisp := 0 })

/-! ## Whose requests a die takes (R473, R492) -/

/-- Whether a request that carries a world identifier reaches the memory, the LLC or the looms of the die of an address; 0
is none. -/
def State.delivers (s : State) (world pa : Nat) : Bool :=
  isDram pa && world != 0 && (s.dieAt (homeDie pa)).world == world

/-- A load of device memory by the firmware of the scheduling processor or the management controller: it leaves through the
I/O die's own agent, which has no world identifier, so no die delivers it, and the refusal is reported (R473, R492). -/
def State.firmwareLoad (s : State) (pa : Nat) : Option Byte × State :=
  if s.delivers 0 pa then (some (rdByte s.mem pa), s)
  else (none, s.report (faultMsg 7 0 (s.dieAt (homeDie pa)).world (homeDie pa) 0 0 0 0 (homeDie pa * 2 ^ 16 + pa % 2 ^ 64 * 2 ^ 64)))

/-- ATS_INVALIDATION (R515): the host translation of a page goes from the function's cache. -/
def execAtsInvalidation (fn page : Nat) (s : State) : Out :=
  let f := s.fnAt fn
  .next (s.setFnAt fn { f with ats := f.ats.filter (· != page) })

end Sys2Proof.Machine
end

