-- ==== Sys2Proof/Machine/Failure.lean ====
section
/-! DEFINITION. What fails: dies, links, memory words, peers; and what arrives from other devices (R31, R32, R368, R464,
R473, R484 to R487, R517). -/

namespace Sys2Proof.Machine

/-! ## Collectives whose peer is gone (R368, R484) -/

/-- A CO operation that has not failed ends with COLL_ERR; a collective does so at every rank. -/
def State.collLost (s : State) (k case rank : Nat) : State :=
  match s.opAt k with
  | none => s
  | some o =>
    if o.func = 0x30 ∨ o.func = 0x31 then
      match ({ s with cur := o.pick } : State).coGroup o with
      | .ok g => { ({ s with cur := o.pick } : State).collErrAll k o g case rank with cur := s.cur }
      | .error _ => s.collErr k case rank
    else s.collErr k case rank

/-- The CO operations in flight. -/
def State.coOps (s : State) : List (Nat × Op) :=
  s.ops.filter (fun e => e.2.path == 5 && e.2.phase != .abandoned && e.2.fail.isNone)

/-- PEER_DEVICE_LOSS (R368, R464, R517): remote accesses to the device are refused, and operations that involve it end. -/
def execPeerDeviceLoss (dev : Nat) (s : State) : Out :=
  if !s.ready then .next s
  else
    let s1 : State := { s with dev := { s.dev with
      lostPeers := if s.dev.lostPeers.contains dev then s.dev.lostPeers else s.dev.lostPeers ++ [dev]
      peers := s.dev.peers.filter (fun e => e.1 != dev) } }
    .next (s1.coOps.foldl (fun s e =>
      match ({ s with cur := e.2.pick } : State).coGroup e.2 with
      | .error _ => s
      | .ok g =>
        match (g.ranks.zipIdx).find? (fun (x, r) => x.1 == dev && (e.2.func == 0x30 || e.2.func == 0x31 || r == e.2.f 12 9)) with
        | some (_, r) => s.collLost e.1 2 r
        | none => s) s1)

/-! ## Loss of a die (R31, R466, R487) -/

/-- Whether an operation's next access would touch a lost die. -/
def State.opLost (s : State) (o : Op) : Bool :=
  let s1 : State := { s with cur := o.pick }
  if o.path = 5 then (match s1.coEnd o with | .error (.lost _) => true | _ => false)
  else match s1.opPlan o with
  | .error (.lost _) => true
  | .error _ => false
  | .ok p => match p.bad with
    | some (_, .lost _ _) => true
    | _ => false

/-- Whether a team is retiring: every pick is at the retire latch, or the successor has formed and not started (R404). -/
def State.retiring (s : State) (m : Team) : Bool :=
  m.phase == .successor ||
    (m.phase.resident && !m.picks.isEmpty && m.picks.all (fun k => (s.pickAt k).retires))

/-- Whether the save image of a team cannot be reached any more. -/
def State.imageLost (s : State) (m : Team) (off size : Nat) : Bool :=
  match s.resolve2 (s.ctxAt m.ctx) rightR ((s.ctxAt m.ctx).saveBase + off) size with
  | .error (.lost _ _) => true
  | _ => false

/-- What a context that has touched a lost die comes to (steps 3 and 4 of R487): a team on the die ends, and one that is
retiring (R404). -/
def State.loseContext (s : State) (ctx die : Nat) : State :=
  let mine := s.teams.filter (fun e => e.2.ctx == ctx)
  let here := mine.filter (fun e => e.2.phase.resident && (e.2.die == die || s.retiring e.2))
  let coll := s.coOps.filter (fun e => here.any (fun t => t.1 == e.2.pick / 64))
  let gone (s : State) (e : Nat × Op) : State :=
    match ({ s with cur := e.2.pick } : State).coGroup e.2 with
    | .ok g => (s.collErr e.1 4 g.mine).collLost e.1 2 g.mine
    | .error _ => s.collErr e.1 4 0
  let s1 := coll.foldl gone s
  let s2 := here.foldl (fun s e =>
    let t := s.stopTeam e.1 5 Cause.dieLost.code
    t.setTeamAt e.1 { t.teamAt e.1 with die }) s1
  let dead := mine.filter (fun e => match e.2.phase with
    | .saved off size => s2.imageLost e.2 off size
    | _ => false)
  let s3 := dead.foldl (fun s e =>
    let img := match e.2.phase with | .saved off _ => off | _ => 0
    let c := s.ctxAt ctx
    let t := (s.setCtxAt ctx { c with saveUsed := c.saveUsed.filter (fun u => u.1 != img) }).stopTeam e.1 5 Cause.dieLost.code
    t.setTeamAt e.1 { t.teamAt e.1 with die }) s2
  let mask := s3.lostMask
  let s4 : State := { s3 with picks := s3.picks.map (fun e =>
    if (s3.teamAt e.2.team).ctx = ctx then (e.1, e.2.loseDies mask) else e) }
  let s5 : State := { s4 with ops := s4.ops.map (fun e =>
    if (s4.teamAt (e.2.pick / 64)).ctx = ctx ∧ e.2.phase = .running ∧ s4.opLost e.2 then
      (e.1, { e.2 with phase := .abandoned }) else e) }
  s5.prqCheck ctx

/-- A die is lost (R487). -/
def State.loseDie (s : State) (die : Nat) : State :=
  let d := s.dieAt die
  if 12 ≤ die || d.lost then s
  else
    let s1 := s.setDieAt die { d with lost := true, st := 4 }
    let s2 : State := { s1 with dev := { s1.dev with
      degraded := s1.dev.degraded ||| BitVec.ofNat 13 (2 ^ die + 2 ^ partner die) } }
    let cs := s2.ctxs.filter (fun e => e.2.live && !e.2.ended && e.2.tdmask.getLsbD die)
    (cs.foldl (fun s e => s.loseContext e.1 die) s2).placeCheck d.world

/-- DIE_LOSS (R487). -/
def execDieLoss (die : Nat) (s : State) : Out := if s.ready then .next (s.loseDie die) else .next s

/-- IO_DIE_LOSS (R31): nothing is defined from here to the next power-on. -/
def execIoDieLoss (s : State) : Out := .next { s with dev := { s.dev with ioLost := true } }

/-! ## Links (R16, R32) -/

/-- The die-to-die edges in table order. -/
def dieEdges : List (Nat × Nat) :=
  [(0, 1), (1, 2), (3, 4), (4, 5), (6, 7), (7, 8), (9, 10), (10, 11), (0, 6), (1, 7), (2, 8), (3, 9), (4, 10), (5, 11),
   (2, 12), (3, 12), (8, 12), (9, 12)]

/-- The dies that the I/O die reaches, after so many rounds over the edges in service. -/
def State.reached (s : State) : Nat → List Nat
  | 0 => [12]
  | n + 1 =>
    let l := s.reached n
    let more := (dieEdges.zipIdx).flatMap (fun ((a, b), e) =>
      if (s.linkAt (2 * e)).down then []
      else (if l.contains a then [b] else []) ++ (if l.contains b then [a] else []))
    (l ++ more).eraseDups

/-- The dies that the I/O die no longer reaches are lost (R32). -/
def State.loseUnreached (s : State) : State :=
  let l := s.reached 12
  ((List.range 12).filter (fun n => !l.contains n)).foldl State.loseDie s

/-- An edge of the die-to-die fabric goes down. -/
def State.edgeDown (s : State) (edge : Nat) : State :=
  ((s.setLinkAt (2 * edge) { s.linkAt (2 * edge) with down := true, training := false }).setLinkAt (2 * edge + 1)
    { s.linkAt (2 * edge + 1) with down := true, training := false }).loseUnreached

/-- LINK_FAILURE (R32) of a die-to-die edge. -/
def execLinkFailure (edge : Nat) (s : State) : Out :=
  if !s.ready || 18 ≤ edge then .next s else .next (s.edgeDown edge)

/-- SCALEUP_LANE_LOSS (R517): a port runs on one lane; one that has a single lane left is out of service. -/
def execScaleupLaneLoss (port : Nat) (s : State) : Out :=
  let l := s.linkAt (36 + port)
  if 36 ≤ port then .next s
  else .next (s.setLinkAt (36 + port) (if l.width ≤ 2 then { l with down := true } else { l with width := 2 }))

/-- The number of a die's edge to another among its edges in ascending partner die (R483). -/
def edgeRank (die other : Nat) : Nat :=
  (dieEdges.filter (fun (a, b) => (a == die && decide (b < other)) || (b == die && decide (a < other)))).length

/-- Counter 0x300 + 4e + k of the dies of a die-to-die edge (R483). -/
def State.countEdge (s : State) (edge k : Nat) : State :=
  let (a, b) := dieEdges.getD edge (12, 12)
  let one (s : State) (x y : Nat) : State := if x < 12 then s.count x (0x300 + 4 * edgeRank x y + k) 1 else s
  one (one s a b) b a

/-- LINK_LEVEL_RETRY (R32, R517): the flit is repaired and the retry counted; at a port for the world whose flit it was, by
free choice among those served (R483). -/
def execLinkLevelRetry (link : Nat) (s : State) : Out :=
  let worlds := ((s.dies.map (fun e => e.2.world)).filter (· != 0)).eraseDups
  if link < 36 then .next (s.countEdge (link / 2) 2)
  else if link < 72 then
    .next (s.count 12 (0x070 + (link - 36) + 1024 * ((worlds[s.freeN 37 0 % max 1 worlds.length]?).getD 0)) 1)
  else .next s

/-! ## Soft errors (R234, R328, R430, R466, R478, R486) -/

/-- A word number joins a list of poisoned ones. -/
def addPoison (l : List Nat) (n : Nat) : List Nat := if l.contains n then l else n :: l

/-- A word of DRAM is poisoned. -/
def State.poisonWord (s : State) (pa : Nat) : State :=
  if isDram pa then { s with poison := addPoison s.poison (pa / 4) } else s

/-- A tag fails (R478): every word of its unit, a line or a compressed block, is poisoned; the world of the die gets an
integrity event, and the die counts it. -/
def State.tagFails (s : State) (pa : Nat) (compressed : Bool) : State :=
  let n := if compressed then 256 else 128
  let base := pa - pa % n
  let die := homeDie pa
  let w := (s.dieAt die).world
  let s1 := (List.range (n / 4)).foldl (fun s k => s.poisonWord (base + 4 * k)) s
  let s2 := if w = 0 then s1 else s1.setWorldAt w { s1.worldAt w with integrity := (s1.worldAt w).integrity ++ [(die, base)] }
  s2.count die 0x206 1

/-- A block's k-register is poisoned. -/
def poisonK (n : Nat) : List Block → List Block
  | b :: bs => { b with kPoison := b.kPoison ||| (1#16 <<< n) } :: bs
  | [] => []

/-- UNCORRECTABLE_ERROR (R478, R486). A mirrored word is served from the partner and its home copy rewritten, unless both
copies fail (R466). -/
def execUncorrectableError (site : ErrorSite) (s : State) : Out :=
  let onPick (k : Nat) (f : Pick → Pick) : Out :=
    let p := s.pickAt k
    if !p.live then .next s else .next ((s.setPickAt k (f p)).count (s.teamAt p.team).die 0x202 1)
  let onTeam (t : Nat) (f : Team → Team) : Out :=
    let m := s.teamAt t
    if !m.phase.resident then .next s else .next ((s.setTeamAt t (f m)).count m.die 0x202 1)
  match site with
  | .mem pa => if isDram pa then .next ((s.poisonWord pa).count (homeDie pa) 0x202 1) else .next s
  | .mirror pa both =>
    if !isDram pa then .next s
    else
      let s1 := (s.poisonWord pa).count (homeDie pa) 0x202 1
      .next (if both then (s1.poisonWord (paTwin pa)).count (partner (homeDie pa)) 0x202 1 else s1)
  | .scalar k r => if 1024 ≤ r then .next s else onPick k (fun p => { p with spoison := addPoison p.spoison r })
  | .laneWord k r i => onPick k (fun p =>
      let x := p.name r
      if x.st = .allocated ∧ i < 32 ∧ r < 239 then p.setName r { x with poison := x.poison ||| (1 <<< i) } else p)
  | .predWord k n => onPick k (fun p =>
      if 1 ≤ n ∧ n ≤ 7 then { p with ppoison := tput 0 p.ppoison n (BitVec.allOnes 32) } else p)
  | .kWord k frozen n => onPick k (fun p =>
      if 16 ≤ n then p
      else if frozen then (if p.mode ∧ p.trec.blk then { p with queue := poisonK n p.queue } else p)
      else if p.running then p.setBlocks (poisonK n p.blocks) else p)
  | .tile t w => onTeam t (fun m => if w < 16384 * lrTiles m.lr then { m with tilePoison := addPoison m.tilePoison w } else m)
  | .scratch t w => onTeam t (fun m =>
      if 4 * w < 256 * lrScru m.lr then { m with scratchPoison := addPoison m.scratchPoison w } else m)
  | .tag pa compressed => if isDram pa then .next (s.tagFails pa compressed) else .next s

/-- PATROL_SCRUB (R486): the pass over a stack ends. -/
def execPatrolScrub (die : Nat) (s : State) : Out :=
  if 12 ≤ die || (s.dieAt die).lost then .next s else .next (s.count die 0x205 1)

/-! ## Requests from other devices (R464, R473) -/

/-- The bytes of an IA for a request of a world: refused where no die is latched to it or its stage 2 fails. -/
def State.remotePas (s : State) (world ia need n : Nat) : Option (List Nat) :=
  if (s.partitionDies world).isEmpty then none
  else match s.resolve2 { world } need ia n with
    | .ok (pas, _) => if pas.any isRemote then none else some pas
    | .error _ => none

/-- A refused request of a world that this device does not serve raises a fault record with the physical address requested
(R449, R464, R473). -/
def State.remoteRefused (s : State) (world ia : Nat) : State :=
  if (s.partitionDies world).isEmpty then
    let pa := 2 ^ 51 + (s.dev.devid.getD 0) * 2 ^ 42 + ia % 2 ^ 42
    s.report (faultMsg 7 0 0 12 0 0 0 0 (world % 65536 + 12 * 2 ^ 16 + 2 ^ 20 + pa * 2 ^ 64))
  else s

/-- REMOTE_ACCESS_ARRIVAL (R464): a read answers without changing this device. -/
def execRemoteAccessArrival (world ia : Nat) (req : RemoteReq) (s : State) : Out :=
  if !s.ready || s.dev.devid.isNone || 2 ^ 42 ≤ ia then .next s
  else match req with
    | .read n => .next (if (s.remotePas world ia rightR n).isNone then s.remoteRefused world ia else s)
    | .write bs =>
      (match s.remotePas world ia rightW bs.length with
       | none => .next (s.remoteRefused world ia)
       | some pas => .next (s.storePas peerAgent pas bs))
    | .add v =>
      (match s.remotePas world ia rightRW 8 with
       | none => .next (s.remoteRefused world ia)
       | some pas =>
         if s.poisoned pas then .next s
         else .next (s.signalAt peerAgent pas v.toNat (s.knownIds peerAgent)))

/-! ## Messages of collectives (R363 to R368, R484) -/

/-- COLLECTIVE_MESSAGE_ARRIVAL (R484): delivered to a live context of the sender's world; one that is not delivered leaves
nothing here. -/
def execCollectiveMessageArrival (world ctx : Nat) (msg : CollMsg) (s : State) : Out :=
  let c := s.ctxAt ctx
  if !s.ready || s.dev.devid.isNone || !c.live || c.ended || c.world != world then .next s
  else match msg with
    | .operand group seq rank shape data => .next (s.setCtxAt ctx (c.takeOperand group seq rank shape data))
    | .put va data =>
      (match s.peerPas ctx rightW va data.length with
       | .error _ => .next s
       | .ok (pas, _) => .next (s.storePas peerAgent pas data))
    | .getReply k data =>
      (match s.opAt k with
       | some o => if o.func = 0x33 ∧ o.phase = .running ∧ (s.teamAt (o.pick / 64)).ctx = ctx then
           .next (s.setOp k { o with got := some data }) else .next s
       | none => .next s)
    | .refusal k case rank =>
      (match s.opAt k with
       | some o => if o.path = 5 ∧ (s.teamAt (o.pick / 64)).ctx = ctx ∧ 1 ≤ case ∧ case ≤ 3 then
           .next (s.collLost k case rank) else .next s
       | none => .next s)
    | .signal va v =>
      (match s.peerPas ctx rightRW va 8 with
       | .error _ => .next s
       | .ok (pas, _) =>
         if va % 8 ≠ 0 ∨ s.poisoned pas then .next s
         else .next (s.signalAt peerAgent pas v.toNat (s.knownIds peerAgent)))

end Sys2Proof.Machine
end

