-- ==== Sys2Proof/Machine/Power.lean ====
section
/-! DEFINITION. Bring-up and reset, power and clocks, links and time (R31, R433, R476, R489 to R495, R505 to R508, R516,
R517). -/

namespace Sys2Proof.Machine

/-! ## The configuration image (R494, R495) -/

/-- A field of the configuration image. -/
def State.cfg (s : State) (off n : Nat) : Nat := ofLe ((s.dev.image.drop off).take n)

/-- The loom clock in MHz of an operating point. -/
def State.oppClock (s : State) (i : Nat) : Nat := s.cfg (0x90 + 4 * i) 2

/-- Whether an operating point is in the table (R494). -/
def State.oppValid (s : State) (i : Nat) : Bool := decide (i < 32) && s.cfg (0x90 + 4 * i) 4 != 0

/-- Whether a grant may name an operating point: it is in the table, and a clock above the nominal 2000 MHz is granted only
where FLAGS of the image allows the boost clock (R506). -/
def State.grantable (s : State) (i : Nat) : Bool := s.oppValid i && (decide (s.oppClock i ≤ 2000) || bit (s.cfg 6 2) 0)

/-- Whether the image keeps its layout (IMG_FORM). -/
def State.imageForm (s : State) : Bool :=
  let len := s.cfg 0x0C 4
  let used := (List.range 32).filter s.oppValid
  s.cfg 0 4 == 0x31464350 && s.cfg 4 2 == 1 && decide (s.cfg 6 2 ≤ 1) && len % 8 == 0 && decide (0x110 ≤ len) &&
  s.dev.image.length == len + 96 &&
  (List.range 12).all (fun n => popc (s.cfg (0x10 + 8 * n) 8) 42 == 40) &&
  used == List.range used.length && used.all (fun i => decide (s.oppClock i ≤ 2200)) &&
  (used.drop 1).all (fun i => decide (s.oppClock (i - 1) < s.oppClock i))

/-- The enabled physical looms of a die after repair, in ascending order, or the number that fail beyond the spares
(R495). -/
def State.repaired (s : State) (die : Nat) : Except Nat (List Nat) :=
  let on_ := ones (s.cfg (0x10 + 8 * die) 8) 42
  let bad (p : Nat) : Bool := s.dev.loomFails.contains (die, p)
  let failing := on_.filter bad
  let spares := (List.range 42).filter (fun p => !on_.contains p && !bad p)
  if spares.length < failing.length then .error failing.length
  else .ok ((List.range 42).filter (fun p => (on_.contains p && !bad p) || (spares.take failing.length).contains p))

/-! ## Bring-up (R489 to R491) -/

/-- The first failure that a phase meets: UNIT, REASON, DETAIL. What the self-tests, the training and the signatures and
layouts of the other images come to is the part's own (`selfTest`, `imageFault`, `loomFails`). -/
def State.phaseFailure (s : State) (phase : Nat) : Option (Nat × Nat × Nat) :=
  let test (rs : List Nat) : Option (Nat × Nat × Nat) := s.dev.selfTest.find? (fun e => rs.contains e.2.1)
  let img (k : Nat) : Option (Nat × Nat × Nat) :=
    match s.dev.imageFault.lookup k with
    | some r => some (15, r, k)
    | none => if tget 0 s.dev.imageSvn k < tget 0 s.dev.minSvn k then some (15, 0x04, k) else none
  match phase with
  | 0 => test [0x01, 0x0A]
  | 1 =>
    let len := s.cfg 0x0C 4
    if !Config.sigValid (s.dev.image.take len) ((s.dev.image.drop len).take 96) then some (15, 0x02, 1)
    else if !s.imageForm then some (15, 0x03, 1)
    else if s.cfg 8 4 < tget 0 s.dev.minSvn 1 then some (15, 0x04, 1)
    else img 2
  | 2 =>
    ((List.range 12).findSome? (fun n => match s.repaired n with
      | .error k => some (n, 0x05, k)
      | .ok _ => none)) <|> test [0x06]
  | 3 => test [0x07, 0x08]
  | 4 => img 3 <|> img 4
  | _ => none

/-- The safe state (R490). -/
def State.safeState (s : State) (phase : Nat) (f : Nat × Nat × Nat) : State :=
  { s with dev := { s.dev with phase, fail := true, unit := f.1, reason := f.2.1, detail := f.2.2 } }

/-- The looms after repair. -/
def State.mapLooms (s : State) : State :=
  (List.range 12).foldl (fun s n => match s.repaired n with
    | .ok l => s.setDieAt n { s.dieAt n with loomMap := l }
    | .error _ => s) s

/-- Scale-up port training: a port that finds no partner stays down (R489). -/
def State.trainPorts (s : State) : State :=
  (List.range 36).foldl (fun s p =>
    s.setLinkAt (36 + p) { s.linkAt (36 + p) with down := !s.dev.portPartners.contains p }) s

/-- What a phase that meets no failure leaves. -/
def State.phaseWork (s : State) (phase : Nat) : State :=
  match phase with
  | 2 => s.mapLooms
  | 5 => s.trainPorts
  | _ => s

/-- Whether the device is in bring-up. -/
def State.booting (s : State) : Bool :=
  s.dev.powered && !s.dev.fail && !s.dev.ioLost && decide (s.dev.phase < 6)

/-- A bring-up phase ends: in the next one, or in the safe state. -/
def State.bootPhase (s : State) : State :=
  match s.phaseFailure s.dev.phase with
  | some f => s.safeState s.dev.phase f
  | none =>
    let s1 := s.phaseWork s.dev.phase
    { s1 with dev := { s1.dev with phase := s.dev.phase + 1 } }

/-- So many phases of bring-up, from where it stands. -/
def State.bringUp (s : State) : Nat → State
  | 0 => s
  | n + 1 => if s.booting then (s.bootPhase).bringUp n else s

/-- The status word (R491), as FNSTAT, the extended capability and the MCTP status response give it. -/
def State.statusWord (s : State) : Word :=
  BitVec.ofNat 32 (s.dev.phase % 16 + (if s.dev.fail then 16 else 0) + s.dev.unit % 16 * 2 ^ 8 +
    s.dev.reason % 256 * 2 ^ 16 + s.dev.detail % 256 * 2 ^ 24)

/-- The device with nothing in it: what lasts is the flash and the fuses, what the part's tests come to, and the model's
own fields. -/
def State.cleared (s : State) (powered : Bool) : State :=
  { State.reset with
    fresh := s.fresh
    agenda := s.agenda
    dev := { powered, minSvn := s.dev.minSvn, image := s.dev.image, imageFault := s.dev.imageFault
             loomFails := s.dev.loomFails, selfTest := s.dev.selfTest, images := s.dev.images, imageSvn := s.dev.imageSvn
             peers := s.dev.peers, peerPlanes := s.dev.peerPlanes, portPartners := s.dev.portPartners
             cabling := s.dev.cabling } }

/-- POWER_ON (R489): power good; the phases then run in order. -/
def execPowerOn (s : State) : Out :=
  if s.dev.powered && !s.dev.ioLost then .next s else .next (s.cleared true)

/-- BOOT_PHASE_TIMEOUT (R490): the phase of bring-up that runs exceeds its bound. -/
def execBootPhaseTimeout (s : State) : Out :=
  if s.booting then .next (s.safeState s.dev.phase (15, 0x09, 0)) else .next s

/-- What a fundamental reset keeps of a die: its cycle counter goes on while the device is powered (R433), and a lost die
stays lost until a power cycle (R472). -/
def Die.keptBy (old new : Die) : Die :=
  if old.lost then { new with cycles := old.cycles, lost := true, st := 4 } else { new with cycles := old.cycles }

/-- FUNDAMENTAL_RESET (R490): the device goes through bring-up again. -/
def execFundamentalReset (s : State) : Out :=
  if !s.dev.powered then .next s
  else .next ((List.range 13).foldl (fun t n => t.setDieAt n ((s.dieAt n).keptBy (t.dieAt n))) (s.cleared true))

/-- POWER_LOSS (R490): all device state is lost. -/
def execPowerLoss (s : State) : Out := .next (s.cleared false)

/-! ## Time (R433, R516) -/

/-- A fabric clk at a die: its cycle counter adds 1 (R433), and of a compute die the counter of its operating point
(R483). -/
def State.clkDie (s : State) (n : Nat) : State :=
  let s1 := s.setDieAt n { s.dieAt n with cycles := (s.dieAt n).cycles + 1 }
  if n < 12 then s1.count n (0x381 + (s.dieAt n).point) 1 else s1

/-- CYCLE_COUNTER_INCREMENT (R433, R483), while the device is powered. -/
def execCycleCounterIncrement (s : State) : Out :=
  if !s.dev.powered then .next s else .next ((List.range 13).foldl State.clkDie s)

/-- SMPGO (R516): the I/O die's counter is latched, and each die's when the sample reaches it, SMPOFFn later, within 2
fabric clks; it reaches no lost die (R487). The model writes them at once (log 17). -/
def execSmpgo (s : State) : Out :=
  if !s.ready then .next s
  else .next ((List.range 13).foldl (fun t n =>
    let d := s.dieAt n
    let v := if n = 12 then d.cycles
      else d.cycles + BitVec.ofNat 64 (s.cfg (0x70 + 2 * n) 2) + BitVec.ofNat 64 (s.freeN 27 n % 5) - 2
    if d.lost then t else t.setDieAt n { t.dieAt n with smp := v }) s)

/-- PTM_EXCHANGE (R516): both registers as one pair. -/
def execPtmExchange (ns : Nat) (s : State) : Out :=
  if !s.ready then .next s
  else .next { s with dev := { s.dev with ptmHost := BitVec.ofNat 64 ns, ptmCyc := (s.dieAt 12).cycles } }

/-! ## Power (R505 to R508) -/

/-- The links of a die's edges and, for the I/O die, its ports. -/
def dieLinks (die : Nat) : List Nat :=
  ((dieEdges.zipIdx).filter (fun (e, _) => e.1 == die || e.2 == die)).flatMap (fun (_, i) => [2 * i, 2 * i + 1])

/-- A requested width is applied, and the link retrains (R507). -/
def Link.retrain (l : Link) : Link :=
  match l.wantWidth with
  | some w => { l with width := w, wantWidth := none, training := true }
  | none => l

/-- What the budgets of the dies and the reserve of the I/O die and the stacks may come to, in W (R505). -/
def powerLimit : Nat := 5600

/-- The power of a die at full activity at an operating point of the table. -/
def State.pointPower (s : State) (i : Nat) : Nat := Config.fullPower (s.cfg (0x90 + 4 * i) 4)

/-- Whether floors of the dies keep the budget at full activity (R505). -/
def State.floorsFit (s : State) (floors : List Nat) : Bool :=
  decide ((floors.map s.pointPower).sum + Config.powerReserve.val ≤ powerLimit)

/-- Whether grants to dies 0 to 11 are such as the arbiter makes (R505): points that may be granted, none below its floor; the
budgets within the limit; above the floors by demand, so that a die stands above its floor only where no die of more demand has
a lower point, but for one at the highest point (log 31). -/
def State.grantOk (s : State) (gs : List PowerGrant) : Bool :=
  let floor (n : Nat) : Nat := (s.dieAt n).floor
  let top (p : Nat) : Bool := !s.grantable (p + 1)
  gs.length == 12 && (gs.zipIdx).all (fun (g, n) => s.grantable g.point && decide (floor n ≤ g.point)) &&
  decide ((gs.map (·.budget)).sum + Config.powerReserve.val ≤ powerLimit) &&
  (gs.zipIdx).all (fun (a, n) => a.point == floor n ||
    gs.all (fun b => decide (b.demand ≤ a.demand ∨ a.point ≤ b.point) || top b.point))

/-- POWER_GRANT (R505 to R508): a die with a width request pending keeps its point while the width changes, which its edges
count (R483); one whose throttling condition lasts stays as it is. A grant out of the arbiter's bounds is never made. -/
def execPowerGrant (grants : List PowerGrant) (s : State) : Out :=
  if !s.ready || !s.grantOk grants then .next s
  else
    let s1 := (grants.zipIdx).foldl (fun t (g, n) =>
      let d := t.dieAt n
      let keeps := d.hot || (dieLinks n).any (fun l => (s.linkAt l).wantWidth.isSome)
      if d.lost then t
      else if keeps then t.setDieAt n { d with budget := g.budget }
      else t.setDieAt n { d with granted := g.point, budget := g.budget, throttled := false }) s
    let edges := (List.range 18).filter (fun e => (s1.linkAt (2 * e)).wantWidth.isSome)
    .next (edges.foldl (fun t e => t.countEdge e 3) { s1 with links := s1.links.map (fun e => (e.1, e.2.retrain)) })

/-- OPERATING_POINT_CHANGE (R506): the granted point takes effect. Nothing else changes. -/
def execOperatingPointChange (die : Nat) (s : State) : Out :=
  let d := s.dieAt die
  if 12 ≤ die || d.throttled then .next s else .next (s.setDieAt die { d with point := d.granted })

/-- THERMAL_THROTTLE (R508): the lowest operating point while the condition lasts, until the first grant after it takes the
die back. -/
def execThermalThrottle (cond : Throttle) (s : State) : Out :=
  let d := s.dieAt cond.die
  if !s.ready || 12 ≤ cond.die then .next s
  else .next (s.setDieAt cond.die (if cond.clears then { d with hot := false } else { d with point := 0, throttled := true, hot := true }))

/-- LINK_WIDTH_REQUEST (R507): full (4), half (2) or quarter (1) of an edge, in both directions; 2 lanes (4) or 1 (2) of a
scale-up port. The next grant applies it. -/
def execLinkWidthRequest (link width : Nat) (s : State) : Out :=
  let ask (s : State) (l : Nat) : State := s.setLinkAt l { s.linkAt l with wantWidth := some width }
  if !s.ready then .next s
  else if link < 36 ∧ (width = 4 ∨ width = 2 ∨ width = 1) then .next (ask (ask s (link / 2 * 2)) (link / 2 * 2 + 1))
  else if 36 ≤ link ∧ link < 72 ∧ (width = 4 ∨ width = 2) then .next (ask s link)
  else .next s

/-- LINK_RETRAIN_COMPLETE (R32, R507): the link serves at its new width, or goes down. -/
def execLinkRetrainComplete (link : Nat) (ok : Bool) (s : State) : Out :=
  let l := s.linkAt link
  if !l.training then .next s
  else if ok then .next (s.setLinkAt link { l with training := false })
  else if link < 36 then .next (s.edgeDown (link / 2))
  else .next (s.setLinkAt link { l with training := false, down := true })

/-- WVCOMMIT (R476): the link takes up its shadow tables at a frame boundary. -/
def execWvcommit (link : Nat) (s : State) : Out :=
  let l := s.linkAt link
  if !l.commit then .next s
  else .next (s.setLinkAt link { l with map := l.shMap, slots := l.shSlots, commit := false })

/-- The scale-up ports that find themselves cabled to another port of their plane than DEVID's (R517). -/
def State.miscabled (s : State) (val : Nat) : List Nat :=
  (List.range 36).filter (fun p => match s.dev.cabling.lookup p with
    | some x => x != val
    | none => false)

/-- DEVID_WRITE (R511, R517): written once, before any remote or collective traffic. A port that its plane finds cabled to
another port stays out of service, and the management controller logs it. -/
def execDevidWrite (val : Nat) (s : State) : Out :=
  if !s.ready || 512 ≤ val || s.dev.devid.isSome then .next s
  else
    let s1 := (s.miscabled val).foldl (fun t p => t.setLinkAt (36 + p) { t.linkAt (36 + p) with down := true }) s
    .next { s1 with dev := { s1.dev with devid := some val, cableLog := s1.dev.cableLog ++ s.miscabled val } }

end Sys2Proof.Machine
end

