-- ==== Sys2Proof/Machine/Image.lean ====
section
/-! DEFINITION. The save image of a team, written and read back (R456, R457). -/

namespace Sys2Proof.Machine

/-! ## The save image (R456) -/

/-- Fields at rising offsets with zeros between them, size bytes in all. -/
def layOut : Nat → Nat → List (Nat × List Byte) → List Byte
  | _, size, [] => List.replicate size 0
  | pos, size, (off, bs) :: fs =>
    List.replicate (off - pos) 0 ++ bs ++ layOut (off + bs.length) (size - (off - pos) - bs.length) fs

/-- One strand in 528 bytes: LPC, lane FMTR, mask, depth, count, flags, and its stack; none is all ones. The packing of
the first 16 bytes is the model's (log 10). -/
def strandBytes (x : Strand) (frag : Nat) : List Byte :=
  let pc (a : Option Word) := leBytes 4 (a.getD 0xFFFFFFFF).toNat
  layOut 0 528 [(0, pc x.lpc ++ leBytes 4 x.fmtr.toNat ++ leBytes 1 x.mask.toNat ++ leBytes 1 x.stack.length ++
    leBytes 2 x.dist ++ leBytes 4 (frag + (if x.issued then 256 else 0) + (match x.safept with | some i => 512 + i.toNat * 65536 | none => 0))),
    (16, (x.stack.take 32).flatMap (fun e => pc e.pc ++ pc e.rca ++ leBytes 4 e.fmtr.toNat ++ leBytes 4 e.mask.toNat))]

/-- The eight strands of a set. -/
def laneBytes (l : LaneSet) : List Byte :=
  (List.range 8).flatMap (fun n => strandBytes (l.strand n) (l.frags.findIdx (fun f => f.strands.getLsbD n)))

/-- The k-frame of a block with its written marks, in 128 bytes. -/
def frameBytes (q : List Block) : List Byte :=
  match q with
  | b :: _ => layOut 0 128 [(0, (List.range 16).flatMap (fun n => leBytes 4 (tget 0 b.k n).toNat) ++ leBytes 2 b.kWritten.toNat)]
  | [] => List.replicate 128 0

/-- A lane block queue in 128 bytes. -/
def queueBytes (q : List Block) : List Byte :=
  layOut 0 128 (((q.take 4).zipIdx).map (fun (b, i) => (32 * i,
    leBytes 4 b.target.toNat ++ leBytes 4 b.capBase ++ leBytes 4 b.fmtr.toNat ++ b.batches.flatMap (leBytes 2))))

/-- The pending causes of a path. -/
def causeBytes (x : PathState) : List Byte :=
  layOut 0 512 [(0, (x.causes.take 64).flatMap (fun (n, c, v) => leBytes 8 (c.code + n % 2 ^ 24 * 256 + v.toNat % 2 ^ 32 * 2 ^ 32)))]

/-- The section of one pick, 0xD000 bytes. -/
def pickBytes (p : Pick) : List Byte :=
  let saved := (List.range 239).filter (fun n => (p.name n).st == .allocated)
  layOut 0 0xD000 [
    (0, (List.range 1024).flatMap (fun i => leBytes 4 (tget 0 p.sregs i).toNat)),
    (0x1000, leBytes 4 p.spc.toNat ++ leBytes 4 p.wb.toNat ++ leBytes 4 p.bpred.toNat ++ leBytes 4 p.fmtr.toNat ++
      leBytes 4 p.tcfg.toNat ++ leBytes 4 p.seed.toNat ++ leBytes 8 p.gang.toNat ++ leBytes 8 p.pathsReg.toNat ++
      leBytes 8 p.fmask.toNat ++ leBytes 4 p.tstat.toNat ++ leBytes 4 p.cych.toNat ++ leBytes 4 p.cycd.toNat),
    (0x1100, (List.range 8).flatMap (fun n => causeBytes (p.path n))),
    (0x2100, (List.range 48).flatMap (fun n => leBytes 4 ((p.trapReg (0x100 + n)).getD 0).toNat)),
    (0x2200, laneBytes p.lanes),
    (0x3280, frameBytes p.queue),
    (0x3300, queueBytes p.queue),
    (0x3380, queueBytes p.hqueue ++ laneBytes p.hlanes),
    (0x4480, frameBytes p.hqueue),
    (0x4500, (List.range 7).flatMap (fun n => leBytes 4 (tget 0 p.preds (n + 1)).toNat)),
    (0x4520, leBytes 32 (maskOf saved)),
    (0x4560, (List.range 239).flatMap (fun n => leBytes 4 (p.name n).poison.toNat)),
    (0x5880, (List.range 239).flatMap (fun n => (List.range 32).flatMap (fun i => leBytes 4 (tget 0 (p.name n).val i).toNat)))]

/-- One waiting MX.MMAJ in 96 bytes; the packing is the model's (log 10). -/
def jointBytes (s : State) (o : Op) : List Byte :=
  layOut 0 96 [(0, leBytes 4 (s.pickAt o.pick).index ++ leBytes 64 o.desc ++ leBytes 4 o.fmtr.toNat ++ leBytes 4 o.tcfg.toNat ++
    leBytes 8 o.gang.toNat ++ leBytes 4 o.seed.toNat ++ leBytes 4 o.batch)]

/-- Whether a team's granule has its in-flight bit set (R150). -/
def Team.granuleBusy (m : Team) (g : Nat) : Bool := m.inflight.any (fun x => decide (x.lo ≤ g ∧ g ≤ x.hi))

/-- The image of a team. -/
def State.imageOf (s : State) (t : Nat) : List Byte :=
  let m := s.teamAt t
  let joint := (s.teamOps t).filter (fun e => e.2.atLatch)
  layOut 0 4096 [
    (0, leBytes 4 0x31535650 ++ leBytes 2 1 ++ leBytes 2 ((if joint.isEmpty then 0 else 1) + if m.succWait then 2 else 0) ++
      leBytes 8 (s.launchAt m.launch).lnum ++ leBytes 4 m.index ++ leBytes 1 (lrP m.lr) ++ leBytes 1 (lrTiles m.lr) ++
      leBytes 2 (lrScru m.lr) ++ leBytes 8 m.lrec ++ leBytes 8 m.li ++ leBytes 8 (s.bytesOf m) ++ leBytes 1 m.precnt),
    (0x40, (List.range 8).flatMap (fun n => leBytes 8 (((s.slotAt m.die m.loom n).bound.filter
      (fun _ => m.refs.getLsbD n)).map (fun d => d.word.toNat) |>.getD 0))),
    (0x100, leBytes 512 (maskOf ((List.range 4096).filter m.granuleBusy))),
    (0x300, (joint.take 8).flatMap (fun e => jointBytes s e.2))] ++
  (List.range (lrP m.lr)).flatMap (fun n => pickBytes (s.pickAt (64 * t + n))) ++
  rdBytes m.scratch 0 (256 * lrScru m.lr) ++
  (List.range (16384 * lrTiles m.lr)).flatMap (fun i => leBytes 4 (tget 0 m.tiles i).toNat)

/-! ## Reading an image back (R456, R457)

A field takes the value that the image holds; one out of its range makes the image bad. What the image has no field for
comes from the saved team (log 10). -/

/-- The number of n bytes at an offset of some bytes. -/
abbrev Img := Nat → Nat → Nat

/-- Bytes as an image. -/
def imgOf (bs : List Byte) : Img := fun off n => ofLe ((bs.drop off).take n)

/-- An image from an offset on. -/
def Img.from (rd : Img) (off : Nat) : Img := fun o n => rd (off + o) n

/-- A word. -/
def Img.word (rd : Img) (off : Nat) : Word := BitVec.ofNat 32 (rd off 4)

/-- The words at an offset as a table. -/
def Img.words (rd : Img) (off n : Nat) : Tab Word := (List.range n).foldl (fun t i => tput 0 t i (rd.word (off + 4 * i))) []

/-- An address in lane code, or all ones for none. -/
def Img.lpc (rd : Img) (off : Nat) : Option Word := if rd off 4 = 0xFFFFFFFF then none else some (rd.word off)

/-- Whether a word is no address in lane code nor all ones. -/
def Img.lpcBad (rd : Img) (off : Nat) : Bool := rd off 4 != 0xFFFFFFFF && rd off 4 % 12 != 0

/-- The whole number nearest below `top` that has these low bits. -/
def widen (top low n : Nat) : Nat := top - (top + 2 ^ n - low % 2 ^ n) % 2 ^ n

/-- A strand from its 528 bytes, with the fragment it is in; nfrag stands for none. -/
def Strand.fromImg (x : Strand) (rd : Img) (nfrag : Nat) : Option (Strand × Nat) :=
  let depth := rd 9 1
  let flags := rd 12 4
  let bad := rd.lpcBad 0 || fmtrOff (rd.word 4) || decide (16 ≤ rd 8 1) || decide (32 < depth) || decide (nfrag < flags % 256) ||
    (List.range depth).any (fun k =>
      let at_ := 16 + 16 * k
      rd.lpcBad at_ || rd.lpcBad (at_ + 4) || fmtrOff (rd.word (at_ + 8)) || decide (16 ≤ rd (at_ + 12) 4))
  if bad then none
  else some ({ x with
    lpc := rd.lpc 0
    fmtr := rd.word 4
    mask := BitVec.ofNat 4 (rd 8 1)
    dist := rd 10 2
    issued := bit flags 8
    safept := if bit flags 9 then some (BitVec.ofNat 16 (flags / 65536)) else none
    stack := (List.range depth).map (fun k =>
      let at_ := 16 + 16 * k
      ⟨rd.lpc at_, BitVec.ofNat 4 (rd (at_ + 12) 1), rd.lpc (at_ + 4), rd.word (at_ + 8)⟩) }, flags % 256)

/-- A strand set; one without fragments has no block in execution, and nothing is read. -/
def LaneSet.fromImg (l : LaneSet) (rd : Img) : Option LaneSet :=
  if l.frags.isEmpty then some l
  else match (List.range 8).mapM (fun n => (l.strand n).fromImg (rd.from (528 * n)) l.frags.length) with
    | none => none
    | some xs => some {
        strands := (xs.zipIdx).foldl (fun t (x, n) => tput {} t n x.1) []
        frags := (l.frags.zipIdx).map (fun (f, i) => { f with
          strands := BitVec.ofNat 8 (maskOf ((List.range 8).filter (fun n => (xs[n]?).any (fun x => x.2 == i)))) }) }

/-- A block of a queue from its 32 bytes; its batches are those of the team. -/
def Block.fromImg (b : Block) (rd : Img) : Option Block :=
  if rd 0 4 % 12 ≠ 0 ∨ 1024 ≤ rd 4 4 ∨ fmtrOff (rd.word 8) ∨
      (b.batches.zipIdx).any (fun (n, i) => rd (12 + 2 * i) 2 != n % 65536) then none
  else some { b with target := rd.word 0, capBase := rd 4 4, fmtr := rd.word 8 }

/-- A queue of blocks, and the k-frame of its first. -/
def queueFromImg (q : List Block) (rd frame : Img) : Option (List Block) :=
  match (q.zipIdx).mapM (fun (b, i) => b.fromImg (rd.from (32 * i))) with
  | some (b :: bs) => some ({ b with k := frame.words 0 16, kWritten := BitVec.ofNat 16 (frame 64 2) } :: bs)
  | r => r

/-- A cause by its code (R420). -/
def causeOf (n : Nat) : Option Cause :=
  [Cause.illOpcode, .illOperand, .unimplOpt, .stallShort, .deadRead, .frameHazard, .landing, .uniform, .rstackOvf, .safeptDist,
    .misalign, .xlate, .perm, .dataPoison, .bounds, .slotUnbound, .scaleCount, .jointMismatch, .depUnderflow, .succShape,
    .dieLost, .collErr, .breakpoint].find? (fun c => c.code == n)

/-- The pending causes of a path: entries up to the first of code 0. -/
def PathState.fromImg (x : PathState) (rd : Img) : Option PathState :=
  let used := ((List.range 64).takeWhile (fun k => rd (8 * k) 1 != 0)).mapM (fun k =>
    (causeOf (rd (8 * k) 1)).map (fun c => (widen x.opened.num (rd (8 * k + 1) 3) 24, c, BitVec.ofNat 64 (rd (8 * k + 4) 4))))
  used.map (fun l => { x with causes := l })

/-- Whether a trap record breaks a range (R417, R418): RES bits, OB, OWB, TFMTR but for its reset value outside trap mode, TLPC,
and the formats of the frozen strands. -/
def TrapRec.imgBad (r : TrapRec) (mode : Bool) (rd : Img) : Bool :=
  let w := fun n => rd.word (4 * n)
  let st := rd 0x18 4
  decide (256 ≤ rd 0 4) || decide (2 ^ 24 ≤ rd 0x10 4) || rd 0x14 4 % 4 != 0 || bits st 5 3 != 0 || !bit st 8 ||
  bits st 26 6 != 0 || bits st 16 10 % 16 != 0 || decide (960 < bits st 16 10) ||
  (fmtrOff (w 7) && (mode || w 7 != 0)) ||
  (List.range 8).any (fun n =>
    if (r.tlpc.lookup n).isNone then w (16 + n) != 0xFFFFFFFF
    else (w (16 + n)).toNat % 12 != 0 || (r.blk && fmtrOff (w (24 + n))))

/-- The trap record, MODE apart (R417). -/
def TrapRec.fromImg (r : TrapRec) (rd : Img) : TrapRec :=
  let w := fun n => rd.word (4 * n)
  let tfrag := rd 0x10 4
  let st := rd 0x18 4
  { r with
    cause := BitVec.ofNat 8 (rd 0 4), tval := BitVec.ofNat 64 (rd 4 8), tmask := w 3
    frag := BitVec.ofNat 8 tfrag, atLend := BitVec.ofNat 8 (tfrag / 2 ^ 8), waitRg := BitVec.ofNat 8 (tfrag / 2 ^ 16)
    tspc := w 5, src := bit st 1, async := bit st 2, blk := bit st 3, skip := bit st 4
    ob := BitVec.ofNat 8 (st / 2 ^ 8), owb := BitVec.ofNat 10 (st / 2 ^ 16)
    tfmtr := w 7, tinst := BitVec.ofNat 96 (rd 0x20 12)
    tlpc := r.tlpc.map (fun e => (e.1, w (16 + e.1)))
    tlfmt := r.tlfmt.map (fun e => (e.1, w (24 + e.1)))
    tkf := r.tkf.map (fun e => (e.1, w (32 + e.1))) }

/-- The lane registers that an image marks as saved. -/
def namesFromImg (rd : Img) : Tab Name :=
  ((List.range 239).filter (fun n => bit (rd 0x4520 32) n)).map (fun n =>
    (n, { st := .allocated, val := rd.words (0x5880 + 128 * n) 32, poison := rd.word (0x4560 + 4 * n) }))

/-- A pick from its section. PATHS must show the counters that the kept batches give. -/
def Pick.fromImg (p : Pick) (rd : Img) : Option Pick :=
  let st := rd 0x2118 4
  let bad := rd 0x1000 4 % 4 != 0 || rd 0x1004 4 % 16 != 0 || decide (960 < rd 0x1004 4) || decide (256 ≤ rd 0x1008 4) ||
    rd 0x1008 4 % 2 == 0 || fmtrOff (rd.word 0x100C) ||
    tcfgBad (rd.word 0x1010) || rd 0x1010 4 != (tcfgClean (rd.word 0x1010)).toNat || decide (2 ^ 48 ≤ rd 0x1018 8) ||
    rd 0x1020 8 != p.pathsReg.toNat || rd 0x1030 4 != st || decide (13 ≤ rd 0x1038 4) ||
    p.trec.imgBad p.mode (rd.from 0x2100) || bits (rd 0x4520 32) 239 17 != 0 || bit st 0 != p.mode
  if bad then none
  else
    let paths := (List.range 8).mapM (fun n => (p.path n).fromImg (rd.from (0x1100 + 512 * n)))
    let q := queueFromImg p.queue (rd.from 0x3300) (rd.from 0x3280)
    let hq := queueFromImg p.hqueue (rd.from 0x3380) (rd.from 0x4480)
    match paths, q, hq, p.lanes.fromImg (rd.from 0x2200), p.hlanes.fromImg (rd.from 0x3400) with
    | some ps, some queue, some hqueue, some lanes, some hlanes => some { p with
        sregs := rd.words 0 1024
        spc := rd.word 0x1000, wb := BitVec.ofNat 10 (rd 0x1004 4), bpred := BitVec.ofNat 8 (rd 0x1008 4)
        fmtr := rd.word 0x100C, tcfg := rd.word 0x1010, seed := rd.word 0x1014, gang := BitVec.ofNat 64 (rd 0x1018 8)
        fmask := BitVec.ofNat 64 (rd 0x1028 8), cych := rd.word 0x1034, cycd := BitVec.ofNat 4 (rd 0x1038 4)
        paths := (ps.zipIdx).foldl (fun t (x, n) => tput {} t n x) []
        trec := p.trec.fromImg (rd.from 0x2100)
        queue, hqueue, lanes, hlanes
        preds := (List.range 7).foldl (fun t n => tput 0 t (n + 1) (rd.word (0x4500 + 4 * n))) []
        names := namesFromImg rd }
    | _, _, _, _, _ => none

/-- A waiting MX.MMAJ from its 96 bytes: its pick and batch as the team has them; its snapshots are register values (R85,
R350). -/
def Op.fromImg (o : Op) (rd : Img) (index : Nat) : Option Op :=
  if rd 0 4 ≠ index ∨ rd 88 4 ≠ o.batch % 2 ^ 32 ∨ fmtrOff (rd.word 68) ∨ tcfgBad (rd.word 72) ∨
      rd.word 72 ≠ tcfgClean (rd.word 72) then none
  else some { o with desc := rd 4 64, fmtr := rd.word 68, tcfg := rd.word 72, gang := BitVec.ofNat 64 (rd 76 8), seed := rd.word 84 }

/-- The in-flight marks by an image's bits: those of the team where a bit is set, and one of no operation for each further
bit. -/
def inflightFromImg (l : List Inflight) (x : Nat) : List Inflight :=
  (ones x 4096).flatMap (fun g =>
    match l.filter (fun i => decide (i.lo ≤ g ∧ g ≤ i.hi)) with
    | [] => [{ op := 0, pick := 0, path := 8, batch := 0, lo := g, hi := g }]
    | is => is.map (fun i => { i with lo := g, hi := g }))

/-- Whether a header names another team than the one saved, or breaks a range. -/
def State.headBad (s : State) (m : Team) (joint : Bool) (rd : Img) : Bool :=
  rd 0 4 != 0x31535650 || rd 4 2 != 1 || rd 6 2 != (if joint then 1 else 0) + (if m.succWait then 2 else 0) ||
  rd 8 8 != (s.launchAt m.launch).lnum || rd 0x10 4 != m.index || rd 0x14 1 != lrP m.lr || rd 0x15 1 != lrTiles m.lr ||
  rd 0x16 2 != lrScru m.lr || rd 0x18 8 != m.lrec || decide (15 < rd 0x30 1)

/-- A saved team as its image holds it; none when a field is out of range. -/
def State.fromImg (s : State) (t : Nat) (rd : Img) : Option State :=
  let m := s.teamAt t
  let joint := ((s.teamOps t).filter (fun e => e.2.atLatch)).take 8
  let scr := 4096 + 0xD000 * lrP m.lr
  if s.headBad m (!joint.isEmpty) rd then none
  else
    let picks := m.picks.mapM (fun k => ((s.pickAt k).fromImg (rd.from (4096 + 0xD000 * (k % 64)))).map (fun p => (k, p)))
    let ops := (joint.zipIdx).mapM (fun (e, i) =>
      (e.2.fromImg (rd.from (0x300 + 96 * i)) (s.pickAt e.2.pick).index).map (fun o => (e.1, o)))
    match picks, ops with
    | some ps, some os =>
      let s1 := ps.foldl (fun s e => s.setPickAt e.1 { e.2 with moved := 0 }) s
      let s2 := os.foldl (fun s e => s.setOp e.1 e.2) s1
      let bytes := (List.range (256 * lrScru m.lr)).foldl (fun x a => wrByte x a (BitVec.ofNat 8 (rd (scr + a) 1))) []
      some (s2.setTeamAt t { m with
        li := rd 0x20 8, by_ := rd 0x28 8, precnt := rd 0x30 1
        slotWords := ((List.range 8).map (fun n => (n, rd (0x40 + 8 * n) 8))).filter (fun e => e.2 != 0)
        inflight := inflightFromImg m.inflight (rd 0x100 512)
        scratch := bytes
        tiles := rd.words (scr + 256 * lrScru m.lr) (16384 * lrTiles m.lr) })
    | _, _ => none

end Sys2Proof.Machine
end

