-- ==== Sys2Proof/Machine/Save.lean ====
section
/-! DEFINITION. Saving a team for pre-emption and resuming a context (R66, R67, R100, R453 to R458). -/

namespace Sys2Proof.Machine

/-! ## Safe points and live sets (R66, R67, R100) -/

/-- The live names and predicates at a pick's safe point: none means everything the pick has written, which is also what
the model saves where a table entry cannot be read (R100 is silent, log 53). -/
def State.liveSet (s : State) (key : Nat) : Option (Nat × Nat) :=
  let p := s.pickAt key
  let m := s.teamAt p.team
  let l := p.lanes
  if p.mode || !p.running then none
  else
    let frag (f : Fragment) : Option (List Nat) :=
      let live := f.members.filter (fun n => !(l.strand n).atLend)
      if live.isEmpty || f.hold.isSome || f.waitAt.isSome then none
      else live.mapM (fun n => (l.strand n).safept.map (·.toNat))
    match l.frags.mapM frag with
    | none => none
    | some idx =>
      let is := idx.flatten.dedup
      if is.any (fun i => decide (lrNsafe m.lr ≤ i)) then none
      else (is.mapM (fun i => s.readVa deviceAgent m.ctx (lrSafetab m.lr + 32 * i) 32)).map
        (fun es => (es.foldl (fun a e => a ||| bits e 0 239) 0, es.foldl (fun a e => a ||| bits e 240 7) 0))

/-- A pick as it is saved (R100, R200, R454): results delivered, transactions aborted with PREEMPT, names and predicates
reduced to the live set. -/
def State.savedPick (s : State) (key : Nat) : Pick :=
  let p := s.pickAt key
  let p1 := ((p.abortLanes (p.txs.map (·.1)) 5 0 true).drain.flush (fun _ => true)).paid
  let (names, preds) : Tab Name × Tab Word := match s.liveSet key with
    | none => (p1.names.filter (fun e => e.2.st == .allocated), p1.preds)
    | some (v, q) => (p1.names.filter (fun e => e.2.st == .allocated && bit v e.1),
                      p1.preds.filter (fun e => bit q (e.1 - 1)))
  let clear (l : LaneSet) : LaneSet := { l with frags := l.frags.map (fun (f : Fragment) => { f with hold := none }) }
  { p1 with names, preds, spilled := [], parked := false, parkWant := none, closing := false
            wait := match p1.wait with | .cop k r n => .cop k r n | _ => .stopped
            lanes := clear p1.lanes, hlanes := clear p1.hlanes }

/-- Whether a pick has stopped at a safe point (R66, R429, R454). One that waits for an MX.MMAJ at the rendezvous latch
has: R453 takes that case out of R265's rule for a save (log 60). -/
def State.stoppable (s : State) (p : Pick) : Bool :=
  (match p.wait with | .cop k _ _ => (s.opAt k).any Op.atLatch | _ => true) && p.held.isNone && p.lanesSafe

/-- The image of a team is written and its loom released; unanswered faults of its picks lapse. An image that cannot be
written is dropped (log 9). -/
def State.writeImage (t out off size : Nat) (s : State) : State :=
  let m := s.teamAt t
  let c := s.ctxAt m.ctx
  let words := (ones m.refs.toNat 8).filterMap (fun n =>
    (s.slotAt m.die m.loom n).bound.map (fun d => (n, d.word.toNat)))
  let s1 := m.picks.foldl (fun s k => (s.setPickAt k (s.savedPick k)).countAborts k) s
  let s2 := match s1.resolve2 c rightW (c.saveBase + off) size with
    | .error _ => s1
    | .ok (pas, _) => s1.storePas deviceAgent pas (s1.imageOf t)
  let s3 := s2.lapseFaults m.ctx m.picks false
  let s4 := ((s3.prqRecord t out off).releaseRefs t 0).count m.die 0x00D 1
  let l := s4.launchAt m.launch
  let s5 := s4.setTeamAt t { s4.teamAt t with phase := .saved off size, slotWords := words }
  (s5.setLaunchAt m.launch { l with placed := l.placed.filter (fun e => e.1 != m.index) }).prqCheck m.ctx

/-- TEAM_SAVE (R454): when every pick of the focus team stands at a safe point and what it has outstanding is complete,
names that parked picks have spilled are read back from the backing area (R100) and the image is written. A spill that does
not translate raises its fault, and the save waits for the service (R97). -/
def execTeamSave (s : State) : Out :=
  let t := s.cur / 64
  let m := s.teamAt t
  match m.phase with
  | .saving out off size =>
    if !(m.picks.all (fun k => s.stoppable (s.pickAt k))) || (s.teamOps t).any (fun e => !e.2.atLatch) then .next s
    else .next (s.unparkAll (State.writeImage t out off size) m.picks)
  | _ => .next s

/-- A saved team as its image holds it (R456, R457); none when the image cannot be read, or a field is out of range. -/
def State.restore (s : State) (t : Nat) : Option State :=
  let m := s.teamAt t
  match m.phase with
  | .saved off size =>
    match s.resolve2 (s.ctxAt m.ctx) rightR ((s.ctxAt m.ctx).saveBase + off) size with
    | .error _ => none
    | .ok (pas, _) => if s.poisoned pas then none else s.fromImg t (imgOf (s.look deviceAgent false (s.memCells pas)).1)
  | _ => some s

/-- RESUME (R437, R457): a stopped context whose S1ROOT and RBBASE have been written runs again, and its saved teams, read
back from their images, become ready to start. A team whose slot words have left the store is reported (R501); a bad image
ends the context, whose teams publish ENDED_HOST (R456). -/
def execResume (ctx : Nat) (s : State) : Out :=
  let c := s.ctxAt ctx
  if !c.live || c.ended || c.st != 2 || !c.s1Written || !c.rbWritten then .next s
  else
    let saved := (s.teams.filter (fun e => e.2.ctx == ctx && (match e.2.phase with | .saved _ _ => true | _ => false))).map (·.1)
    match saved.foldlM State.restore s with
    | none => .next (s.endContext ctx 6 0)
    | some s1 =>
      let stuck := saved.filter (fun t => (s1.teamAt t).slotWords.any (fun w => (s1.draftOf c.world w.2).isNone))
      .next (stuck.foldl (fun s t => s.report (faultMsg 5 ctx c.world 12 0 (s.launchAt (s.teamAt t).launch).lnum
        (s.teamAt t).index 0 0x17)) (s1.setCtxAt ctx { c with st := 0 }))

end Sys2Proof.Machine
end

