-- ==== Sys2Proof/Machine/HostWrite.lean ====
section
/-! DEFINITION. Writes of the host and the hypervisor to the device's register pages (R419, R437, R441, R468, R472, R474,
R509 to R511, R514, R517, R518). -/

namespace Sys2Proof.Machine

/-- A write to one of the context control registers, by its number (R419, R503), its RES bits ignored (R9): the context
after it, or none where the interface refuses it. -/
def Context.ctlWrite (c : Context) (nobrk : Bool) (n v : Nat) : Option Context :=
  let w : Word := BitVec.ofNat 32 v
  if 2 ^ 32 ≤ v then none
  else match n with
    | 0x141 => if v % 4 = 0 then some { c with tvec := w } else none
    | 0x142 => if v % 16 = 0 ∧ v % 1024 ≤ 960 then some { c with twin := BitVec.ofNat 10 v } else none
    | 0x143 => some { c with chk := BitVec.ofNat 4 v }
    | 0x144 => if v % 4 = 0 then some { c with sbase := c.sbase.extractLsb' 32 32 ++ w } else none
    | 0x145 => some { c with sbase := w ++ c.sbase.setWidth 32 }
    | 0x146 => if v % 64 = 0 then some { c with lbase := c.lbase.extractLsb' 32 32 ++ w } else none
    | 0x147 => some { c with lbase := w ++ c.lbase.setWidth 32 }
    | 0x148 => if nobrk then none else some { c with bkctl := BitVec.ofNat 6 v }
    | _ =>
      if 0x14C ≤ n ∧ n < 0x150 then some { c with bkl := tput 0 c.bkl (n - 0x14C) w }
      else if n = 0x150 ∨ n = 0x151 then some { c with bks := tput 0 c.bks (n - 0x150) w }
      else none

/-- A write to a register of queue q (R437). -/
def Context.queueWrite (c : Context) (q off v : Nat) : Option Context :=
  let x := tget ({} : Queue) c.queues q
  let put (x : Queue) : Option Context := some { c with queues := tput {} c.queues q x }
  match off with
  | 0x00 => if v < 2 ^ 56 ∧ v % (32 * 2 ^ x.log2) = 0 then put { x with base := v } else none
  | 0x08 => if 4 ≤ v ∧ v ≤ 12 ∧ x.base % (32 * 2 ^ v) = 0 then put { x with log2 := v } else none
  | 0x10 => if v < 2 ^ 32 then put (x.ring (BitVec.ofNat 32 v)) else none
  | _ => none

/-- A write to a plain register of a context interface page (R437, R468); hyp: through the physical function. -/
def Context.pageWrite (c : Context) (hyp nobrk : Bool) (off v : Nat) : Option Context :=
  let when_ (b : Bool) (x : Context) : Option Context := if b then some x else none
  if off < 0x048 ∧ off % 4 = 0 then c.ctlWrite nobrk (0x140 + off / 4) v
  else if 0x100 ≤ off ∧ off < 0x300 then c.queueWrite ((off - 0x100) / 32) ((off - 0x100) % 32) v
  else if 0x300 ≤ off ∧ off < 0x340 ∧ off % 4 = 0 then
    when_ (hyp && decide (v < 4096 ∨ v = 0xFFFFFFFF))
      { c with portals := tput 0xFFFFFFFF c.portals ((off - 0x300) / 4) (BitVec.ofNat 32 v) }
  else match off with
    | 0x0A0 => when_ (c.st == 2 && v % 2048 == 0 && decide (v < 2 ^ 52)) { c with s1root := v, s1Written := true }
    | 0x404 => when_ (decide (1 ≤ v ∧ v < 65536)) { c with prqdl := v }
    | 0x408 => when_ (decide (v < 4)) { c with prqalw := BitVec.ofNat 2 v }
    | 0x410 => when_ (v % 32 == 0 && decide (v < 2 ^ 56)) { c with prqrec := v }
    | 0x480 => when_ (hyp && decide (v < 2 ^ 52)) { c with saveBase := v }
    | 0x488 => when_ (hyp && decide (v < 2 ^ 64)) { c with saveSize := v }
    | 0x490 => when_ (hyp && v % 65536 == 0 && decide (v < 2 ^ 52)) { c with rbBase := v, rbWritten := true }
    | 0x500 => when_ (v % 65536 == 0 && decide (v < 2 ^ 56)) { c with invaddr := v }
    | 0x508 => when_ (decide (v < 2 ^ 32)) { c with invcnt := BitVec.ofNat 32 v }
    | 0x520 => when_ (hyp && decide (v < 2 ^ 52)) { c with dumpBase := v }
    | 0x528 => when_ (hyp && decide (v < 2 ^ 64)) { c with dumpSize := v }
    | 0x530 => when_ (hyp && decide (v < 2 ^ 52)) { c with cgBase := v }
    | 0x538 => when_ (hyp && decide (v ≤ 4096)) { c with cgCount := v }
    | _ => none

/-- A write to a context interface page. A register that starts something does so as its own event does; a write that is
refused leaves everything as it is. -/
def State.ctxPageWrite (s : State) (ctx : Nat) (hyp : Bool) (off v : Nat) : Out :=
  let c := s.ctxAt ctx
  if !s.ready || !c.live then .next s
  else match off with
    | 0x084 => if v = 1 then execResume ctx s else .next s
    | 0x400 => if v = 1 then execPreemptRequest (.context ctx) s else .next s
    | 0x50C => if v = 1 then execInvalidateStage1 ctx s
      else if v = 2 ∧ hyp then execInvalidateStage2 ctx s else .next s
    | 0x510 =>
      if 2 ^ 18 ≤ v then .next s
      else match v / 65536 with
        | 0 => execXrespReplay ctx (v % 65536) hyp s
        | 1 => execXrespXlate ctx (v % 65536) hyp s
        | 2 => execXrespPerm ctx (v % 65536) hyp s
        | _ => execXrespRefuse ctx (v % 65536) hyp s
    | _ => match c.pageWrite hyp ((s.worldAt c.world).policy.getLsbD 1) off v with
      | some c1 => .next (s.setCtxAt ctx c1)
      | none => .next s

/-- A write to a function page (R510). DLGO ignores one while a request runs (R497). A write of CNTSEL with a bit of
[31:14], which are zero, is refused whole: the model's choice (log 54). -/
def State.fnPageWrite (s : State) (fn off v : Nat) : Out :=
  let f := s.fnAt fn
  if !s.ready || 12 < fn || (fn != 0 && !f.enabled) then .next s
  else match off with
    | 0x010 => .next (if v < 2 ^ 64 then s.setFnAt fn { f with dladdr := v } else s)
    | 0x018 => .next (if v < 2 ^ 32 then s.setFnAt fn { f with dllen := v } else s)
    | 0x01C =>
      if f.dlgo ≠ 0 then .next s
      else if v = 1 then execDraftLoad fn s
      else if v = 2 then execDraftRemove fn s else .next s
    | 0x040 => if v = 1 then execSmpgo s else .next s
    | 0x100 => .next (if v < 2 ^ 14 then s.setFnAt fn { f with cntsel := v } else s)
    | _ => .next s

/-- What a read of a function page gives (R491, R510); none is an Unsupported Request: no function page before phase 6,
none of a VF not enabled, none in the safe state (R490). CNTVAL is what COUNTER_READ left. -/
def State.fnPageRead (s : State) (fn off : Nat) : Option Nat :=
  let f := s.fnAt fn
  if !s.ready || 12 < fn || (fn != 0 && !f.enabled) then none
  else match off with
    | 0x000 => some s.statusWord.toNat
    | 0x004 => some (if fn = 0 then 0 else f.world)
    | 0x010 => some f.dladdr
    | 0x018 => some f.dllen
    | 0x01C => some f.dlgo
    | 0x020 => some f.dlstat
    | 0x0B0 => some s.dev.ptmHost.toNat
    | 0x0B8 => some s.dev.ptmCyc.toNat
    | 0x100 => some f.cntsel
    | 0x108 => some f.cntval.toNat
    | _ => some (if 0x048 ≤ off ∧ off < 0x0B0 ∧ off % 8 = 0 then (s.dieAt ((off - 0x048) / 8)).smp.toNat else 0)

/-- What a read of a register of queue q gives (R437). -/
def Context.queueRead (c : Context) (q off : Nat) : Nat :=
  let x := tget ({} : Queue) c.queues q
  match off with
  | 0x00 => x.base
  | 0x08 => x.log2
  | 0x0C => x.head.toNat
  | 0x10 => x.tail.toNat
  | _ => 0

/-- What a read of a context interface page gives (R437, R468); what holds no register there reads as zero. -/
def State.ctxPageRead (s : State) (ctx off : Nat) : Nat :=
  let c := s.ctxAt ctx
  if off < 0x048 ∧ off % 4 = 0 then ((c.ctlReg ctx (0x140 + off / 4)).map (·.toNat)).getD 0
  else if 0x100 ≤ off ∧ off < 0x300 then c.queueRead ((off - 0x100) / 32) ((off - 0x100) % 32)
  else if 0x300 ≤ off ∧ off < 0x340 ∧ off % 4 = 0 then (tget 0xFFFFFFFF c.portals ((off - 0x300) / 4)).toNat
  else match off with
    | 0x080 => c.st
    | 0x090 => c.tdmask.toNat
    | 0x0A0 => c.s1root
    | 0x400 => if c.prqgo then 1 else 0
    | 0x404 => c.prqdl
    | 0x408 => c.prqalw.toNat
    | 0x410 => c.prqrec
    | 0x418 => c.prqdone
    | 0x480 => c.saveBase
    | 0x488 => c.saveSize
    | 0x490 => c.rbBase
    | 0x500 => c.invaddr
    | 0x508 => c.invcnt.toNat
    | 0x50C => c.invgo
    | 0x520 => c.dumpBase
    | 0x528 => c.dumpSize
    | 0x530 => c.cgBase
    | 0x538 => c.cgCount
    | _ => 0

/-- What a read of a link's weave table gives: its shadow copy, and whether that waits to be taken up (R474, R476). -/
def Link.read (l : Link) (off : Nat) : Nat :=
  if off < 64 ∧ off % 4 = 0 then (tget 0 l.shMap (off / 4)).toNat
  else if 64 ≤ off ∧ off < 320 then (tget 0 l.shSlots (off - 64)).toNat
  else if off = 320 ∧ l.commit then 1 else 0

/-- What a read of the hypervisor block gives, at its offset from BAR0 (R472, R511). -/
def State.hypRead (s : State) (off : Nat) : Nat :=
  let word (base step : Nat) : Nat := (off - base) / step
  if 0x200000 ≤ off ∧ off < 0x2000C0 then
    let d := s.dieAt (word 0x200000 16)
    if off % 16 = 0 then d.world + d.st * 2 ^ 16 else if off % 16 = 8 then d.s2root else 0
  else if 0x200104 ≤ off ∧ off < 0x200134 ∧ off % 4 = 0 then (s.fnAt (word 0x200100 4)).world
  else if off = 0x200300 then s.dev.devid.getD 0xFFFFFFFF
  else if 0x200340 ≤ off ∧ off < 0x200364 ∧ off % 4 = 0 then tget 0 s.dev.gmode (word 0x200340 4)
  else if 0x200400 ≤ off ∧ off < 0x200430 ∧ off % 4 = 0 then (s.dieAt (word 0x200400 4)).floor
  else if off = 0x201000 then s.dev.alwsel
  else if 0x201080 ≤ off ∧ off < 0x201100 ∧ off % 4 = 0 then bits (s.worldAt s.dev.alwsel).allow (32 * word 0x201080 4) 32
  else if 0x204000 ≤ off ∧ off < 0x20D200 then (s.linkAt (word 0x204000 512)).read ((off - 0x204000) % 512)
  else if 0x210000 ≤ off ∧ off < 0x218000 ∧ off % 8 = 0 then
    let c := s.ctxAt (word 0x210000 8)
    c.fn + c.slot * 2 ^ 4 + c.world * 2 ^ 12 + (if c.live then 2 ^ 28 else 0) + (if c.ended then 2 ^ 29 else 0)
  else 0

/-- What lies at an offset of BAR0 of a function (R509): a page and the offset that its registers count from. A page of a
slot that no context has holds nothing (log 54). -/
def State.barTarget (s : State) (fn off : Nat) : Option (HostPage × Nat) :=
  if off < 0x1000 then some (.fnPage fn, off)
  else if off < 0x101000 then
    (s.ctxs.find? (fun e => e.2.live && e.2.fn == fn && e.2.slot == (off - 0x1000) / 0x1000)).map
      (fun e => (.ctxPage e.1 false, off % 0x1000))
  else if fn = 0 ∧ 0x200000 ≤ off ∧ off < 0x300000 then some (.hypBlock, off)
  else none

/-- What a read of BAR0 gives (R509); none is an Unsupported Request (R490), or no answer to a dropped TLP (R513). -/
def State.barRead (s : State) (fn off : Nat) : Option Nat :=
  if !s.ready || 12 < fn || (fn != 0 && !(s.fnAt fn).enabled) || (s.fnAt fn).ideDropped then none
  else match s.barTarget fn off with
    | some (.fnPage _, o) => s.fnPageRead fn o
    | some (.ctxPage c _, o) => some (s.ctxPageRead c o)
    | some (_, o) => some (s.hypRead o)
    | none => some 0

/-- The status word in the extended capability of the configuration space of function 0, and in the MCTP status response: it
can be read at every phase, in the safe state too (R490, R491). -/
def State.capabilityRead (s : State) (off : Nat) : Option Word := if s.dev.powered ∧ off = 0x08 then some s.statusWord else none

/-- The slots of a shadow or live weave table that are reserved to a world (R474). -/
def weaveReserved (map : Tab (BitVec 16)) (slots : Tab (BitVec 8)) (world : Nat) : Nat :=
  (slots.filter (fun e => e.1 % 16 != 0 && e.2.getLsbD 4 && (tget 0 map (e.2.toNat % 16)).toNat == world)).length

/-- Whether taking up a shadow table would lower the reserved slots of a locked world (R514). -/
def State.weaveLowers (s : State) (l : Link) : Bool :=
  s.fns.any (fun e => s.worldLocked e.2.world &&
    decide (weaveReserved l.shMap l.shSlots e.2.world < weaveReserved l.map l.slots e.2.world))

/-- A link's shadow table with a write in it; while the table waits to be taken up, one that would lower the reserved slots of
a locked world is refused (R514). -/
def State.putShadow (s : State) (link : Nat) (l : Link) : State := if l.commit && s.weaveLowers l then s else s.setLinkAt link l

/-- A write to a link's weave table registers, the RES bits of a slot ignored (R9, R474, R476, R511). -/
def State.weaveWrite (s : State) (link off v : Nat) : Out :=
  let l := s.linkAt link
  if 73 ≤ link then .next s
  else if off < 64 ∧ off % 4 = 0 then
    .next (if v < 65536 then s.putShadow link { l with shMap := tput 0 l.shMap (off / 4) (BitVec.ofNat 16 v) } else s)
  else if 64 ≤ off ∧ off < 320 then
    .next (if v < 256 ∧ (off - 64) % 16 ≠ 0 then
      s.putShadow link { l with shSlots := tput 0 l.shSlots (off - 64) (BitVec.ofNat 8 (v % 32)) } else s)
  else if off = 320 ∧ v = 1 ∧ !s.weaveLowers l then .next (s.setLinkAt link { l with commit := true })
  else .next s

/-- A write of VFWORLDv (R511, R514). -/
def State.vfWorldWrite (s : State) (fn v : Nat) : State :=
  let f := s.fnAt fn
  if fn = 0 ∨ 12 < fn ∨ f.enabled ∨ 65536 ≤ v ∨ f.tdisp = 1 ∨ f.tdisp = 2 ∨
      (v ≠ 0 ∧ s.fns.any (fun e => e.1 != fn && e.2.world == v)) then s
  else s.setFnAt fn { f with world := v }

/-- A write to the hypervisor block, at its offset from BAR0 (R511). A floor that would let the floors at full activity exceed
the budget is refused (R505, log 31). RES bits of DWCTLn are ignored (R9); a write of CTXc with a bit of [63:30], which are
zero, is refused whole: the model's choice (log 54). -/
def State.hypWrite (s : State) (off v : Nat) : Out :=
  let d (n : Nat) : Die := s.dieAt n
  if !s.ready then .next s
  else if 0x200000 ≤ off ∧ off < 0x2000C0 then
    let n := (off - 0x200000) / 16
    if off % 16 = 0 then
      (if 2 ^ 32 ≤ v then .next s
       else match bits v 19 2 with
         | 1 => execDieAssign n (v % 65536) s
         | 2 => execDieRelease n s
         | _ => .next s)
    else if off % 16 = 8 ∧ (d n).st = 0 ∧ v % 128 = 0 ∧ v < 2 ^ 52 then .next (s.setDieAt n { (d n) with s2root := v })
    else .next s
  else if 0x200100 ≤ off ∧ off < 0x200134 ∧ off % 4 = 0 then .next (s.vfWorldWrite ((off - 0x200100) / 4) v)
  else if off = 0x200300 then execDevidWrite v s
  else if 0x200340 ≤ off ∧ off < 0x200364 ∧ off % 4 = 0 then
    .next (if v < 3 ∧ s.dev.devid.isNone then
      { s with dev := { s.dev with gmode := tput 0 s.dev.gmode ((off - 0x200340) / 4) v } } else s)
  else if 0x200400 ≤ off ∧ off < 0x200430 ∧ off % 4 = 0 then
    let n := (off - 0x200400) / 4
    let floors := (List.range 12).map (fun k => if k = n then v else (d k).floor)
    .next (if s.oppValid v ∧ s.floorsFit floors then s.setDieAt n { (d n) with floor := v } else s)
  else if off = 0x201000 then .next (if v < 65536 then { s with dev := { s.dev with alwsel := v } } else s)
  else if 0x201080 ≤ off ∧ off < 0x201100 ∧ off % 4 = 0 then execAllowListWrite 0 s.dev.alwsel ((off - 0x201080) / 4) v s
  else if 0x204000 ≤ off ∧ off < 0x20D200 then s.weaveWrite ((off - 0x204000) / 512) ((off - 0x204000) % 512) v
  else if 0x210000 ≤ off ∧ off < 0x218000 ∧ off % 8 = 0 then
    let c := (off - 0x210000) / 8
    if bits v 30 34 ≠ 0 then .next s
    else if bit v 29 then execContextEndHost c s
    else if bit v 28 then execContextCreate c (bits v 0 4) (bits v 4 8) (bits v 12 16) s
    else .next s
  else .next s

/-- A message filter table entry without its RES bits (R9, R441). -/
def filterClean (v : Nat) : Nat := setBits (setBits (setBits v 69 27 0) 152 8 0) 192 64 0

/-- A write to the message filter table (R441). How full the bucket of a new entry starts is free, up to RATE (R442). -/
def State.filterWrite (s : State) (entry v : Nat) : State :=
  if 4096 ≤ entry ∨ 2 ^ 256 ≤ v then s
  else
    let f : Filter := { word := BitVec.ofNat 256 (filterClean v), budget := s.freeTo 29 0 (bits v 176 16) }
    { s with filters := tput {} s.filters entry f }

/-- The SR-IOV capability enables VFs 1 to n (R509, R511). -/
def State.enableVfs (s : State) (n : Nat) : State :=
  (List.range 12).foldl (fun s i => s.setFnAt (i + 1) { s.fnAt (i + 1) with enabled := decide (i < n) }) s

/-- The function whose TLP carries a write. -/
def State.pageFn (s : State) : HostPage → Nat
  | .ctxPage ctx hyp => if hyp then 0 else (s.ctxAt ctx).fn
  | .fnPage fn => fn
  | .bar fn => fn
  | .ats fn => fn
  | _ => 0

/-- A write to a register page. -/
def State.pageWrite (s : State) (page : HostPage) (off val : Nat) : Out :=
  match page with
  | .ctxPage ctx hyp => s.ctxPageWrite ctx hyp off val
  | .fnPage fn => s.fnPageWrite fn off val
  | .hypBlock => s.hypWrite off val
  | .filter entry => .next (if s.ready then s.filterWrite entry val else s)
  | .sriov => .next (if s.ready && decide (val ≤ 12) then s.enableVfs val else s)
  | .ats fn => .next (if s.ready && decide (fn ≤ 12) then
      s.setFnAt fn { s.fnAt fn with atsOn := bit val 0, ats := [] } else s)
  | .bar _ => .next s

/-- HOST_REGISTER_WRITE (R419, R437, R441, R468, R472, R509 to R511, R515), in a TLP that the function takes (R513); a VF that
is not enabled has no BAR. -/
def execHostRegisterWrite (page : HostPage) (off : Nat) (tlp : WriteTlp) (s : State) : Out :=
  if !s.takesTlp (s.pageFn page) tlp.set then .next s
  else match page with
    | .bar fn =>
      if 12 < fn || (fn != 0 && !(s.fnAt fn).enabled) then .next s
      else match s.barTarget fn off with
        | some (p, o) => s.pageWrite p o tlp.val
        | none => .next s
    | _ => s.pageWrite page off tlp.val

end Sys2Proof.Machine
end

