-- ==== Sys2Proof/Machine/PickEvents.lean ====
section
/-! DEFINITION. Events at a pick: results reach their registers, traps are delivered, drains end, parking and restoring
(R94 to R97, R105 to R107, R254, R422, R423). -/

namespace Sys2Proof.Machine

/-- VARIABLE_LATENCY_RESULT (R105, R107): the result of this number is written, after those of fixed latency that were
issued before it to the same register. -/
def execVariableLatencyResult (seq : Nat) (s : State) : Out :=
  let p := s.pick
  match p.pending.find? (fun q => q.isVar && q.seq == seq) with
  | none => .next s
  | some r =>
    if p.pending.any (fun q => !q.isVar && decide (q.seq < seq) && q.dest == r.dest) then .next s
    else .next (s.setPick (p.flush (fun q => q.isVar && q.seq == seq)))

/-- FIXED_LATENCY_WRITE (R105): the lane clk of the focus pick moves on to the next result that is due. -/
def execFixedLatencyWrite (s : State) : Out :=
  let p := s.pick
  match ((p.pending.filter (fun q => !q.isVar)).map (·.due)).min? with
  | none => .next s
  | some t => .next (s.setPick (p.advanceTo t))

/-- TRAP_DELIVERY (R265, R422): a trap that waited is delivered: a lane trap after a blocking COP, one of the S-stream after
the answer to a lane access that a fault holds, one of a parked pick once it is restored (R99). -/
def execTrapDelivery (s : State) : Out :=
  let p := s.pick
  let cop := match p.wait with | .cop _ _ _ => true | _ => false
  match p.held with
  | none => .next s
  | some r =>
    if p.parked || (!p.mode && (cop || (r.src && p.ls.frags.any (fun f => f.hold.isSome)))) then .next s
    else .next ({ s with inst := r.inst }.deliverTrap r)

/-- ASYNC_TRAP_DELIVERY (R423, R424): DIE_LOST is delivered at an instruction boundary, after any synchronous trap; a
blocking COP is at its end when its operation was abandoned, and one at the retire latch executes again. -/
def execAsyncTrapDelivery (s : State) : Out :=
  let p := s.pick
  let take (a : Word) : Out :=
    .next ((s.setPick { p with wait := .none, dieLost := 0 }).enterTrap
      { cause := .dieLost, tval := p.dieLost.setWidth 64, src := true, async := true, tspc := a })
  if !p.live || p.mode || p.parked || p.held.isSome || p.dieLost = 0 || p.ls.frags.any (fun f => f.hold.isSome) then .next s
  else match p.wait with
    | .none => take p.spc
    | .latch _ _ _ _ _ => take p.spc
    | .cop k _ next =>
      (match s.opAt k with
       | none => take next
       | some o => if o.phase = .abandoned then take next else .next s)
    | _ => .next s

/-- XFENCE_DRAIN_COMPLETE (R182, R254): the oldest drain of the focus pick has finished. -/
def execXfenceDrainComplete (s : State) : Out :=
  let p := s.pick
  let rec_ (l : List XfRec) : List XfRec := match l with
    | [] => []
    | x :: xs => if x.drained then x :: xs else { x with drained := true } :: xs
  match p.xfences with
  | [] => .next s
  | x :: xs => if x.drained then .next (s.setPick { p with xfences := xs }) else .next (s.setPick { p with xfences := rec_ (x :: xs) })

/-! ## Parking (R94 to R97) -/

/-- How many registers of a bank a waiting pick still lacks beyond what its reservation leaves it (R94). -/
def Pick.lacks (p : Pick) (bank : Nat) : Nat :=
  match p.parkWant with
  | some (b, c) => if b = bank then p.holds b + c - max p.reserve (p.holds b) else 0
  | none => 0

/-- PARK (R94, R95, R97): the focus pick asks for registers of a bank whose surplus does not hold them, and the victim's
surplus names are spilled. -/
def execPark (bank : Nat) (s : State) : Out :=
  let p := s.pick
  let m := s.team
  if p.parked || decide (p.lacks bank ≤ s.surplus m.die m.loom bank) then .next s
  else match s.victim m.die m.loom bank with
    | none => .next s
    | some v =>
      let q := (s.pickAt v).drain
      .next (s.backing v q.surplusNames rightW fun at_ => s.parkAt v q at_)

/-- PARK_RESTORE (R96): the focus pick, the first parked on its loom, gets its registers back once every bank has room for
them beside what other picks wait for. -/
def execParkRestore (s : State) : Out :=
  let p := s.pick
  let m := s.team
  let ks := s.loomPicks m.die m.loom
  let first := ks.all (fun k => !(s.pickAt k).parked || decide (p.parkOrd ≤ (s.pickAt k).parkOrd))
  let room := (List.range 4).all (fun b =>
    let n := (p.spilled.filter (fun x => x % 4 == b)).length + p.lacks b
    let wanted := ((ks.filter (fun k => !(s.pickAt k).parked)).map (fun k => (s.pickAt k).lacks b)).sum
    n == 0 || decide (n + wanted ≤ s.surplus m.die m.loom b))
  if !p.parked || !first || !room then .next s
  else .next (s.backing s.cur p.spilled rightR fun at_ => s.setPick (s.unparked s.cur at_))

end Sys2Proof.Machine
end

