-- ==== Sys2Proof/Machine/ScalarMem.lean ====
section
/-! DEFINITION. S-stream loads and stores (R240 to R244). -/

namespace Sys2Proof.Machine

/-- SLD.B (R240). -/
def execSldB (d b : BitVec 6) (o : BitVec 14) (s : State) : Out := s.scalarLoad d b o.toInt 1 true

/-- SLD.H (R240). -/
def execSldH (d b : BitVec 6) (o : BitVec 14) (s : State) : Out := s.scalarLoad d b o.toInt 2 true

/-- SLD.W (R240). -/
def execSldW (d b : BitVec 6) (o : BitVec 14) (s : State) : Out := s.scalarLoad d b o.toInt 4 true

/-- SST.B (R240). -/
def execSstB (v b : BitVec 6) (o : BitVec 14) (s : State) : Out := s.scalarStore v b o.toInt 1 true

/-- SST.H (R240). -/
def execSstH (v b : BitVec 6) (o : BitVec 14) (s : State) : Out := s.scalarStore v b o.toInt 2 true

/-- SST.W (R240). -/
def execSstW (v b : BitVec 6) (o : BitVec 14) (s : State) : Out := s.scalarStore v b o.toInt 4 true

/-- SLD.B.S (R240). -/
def execSldBS (d b : BitVec 6) (o : BitVec 14) (s : State) : Out := s.scalarLoad d b o.toInt 1 false

/-- SLD.H.S (R240). -/
def execSldHS (d b : BitVec 6) (o : BitVec 14) (s : State) : Out := s.scalarLoad d b o.toInt 2 false

/-- SLD.W.S (R240). -/
def execSldWS (d b : BitVec 6) (o : BitVec 14) (s : State) : Out := s.scalarLoad d b o.toInt 4 false

/-- SST.B.S (R240). -/
def execSstBS (v b : BitVec 6) (o : BitVec 14) (s : State) : Out := s.scalarStore v b o.toInt 1 false

/-- SST.H.S (R240). -/
def execSstHS (v b : BitVec 6) (o : BitVec 14) (s : State) : Out := s.scalarStore v b o.toInt 2 false

/-- SST.W.S (R240). -/
def execSstWS (v b : BitVec 6) (o : BitVec 14) (s : State) : Out := s.scalarStore v b o.toInt 4 false

/-- ORD, SCP and RMT of a synchronising load (R243). -/
def syncLoadOk (ord scp : BitVec 3) (rmt : BitVec 1) (global : Bool) : Bool :=
  decide (ord.toNat ≤ 2) && decide (scp.toNat ≤ 5) &&
  (rmt == 0 || (global && ord == 2 && (scp == 4 || scp == 5)))

/-- ORD, SCP and RMT of a synchronising store (R243). -/
def syncStoreOk (ord scp : BitVec 3) (rmt : BitVec 1) : Bool :=
  (ord == 0 || ord == 1 || ord == 3) && decide (scp.toNat ≤ 5) && rmt == 0

/-- SLD.W.ord.scp (R240, R243). -/
def execSldWSync (d b : BitVec 6) (ord scp : BitVec 3) (rmt : BitVec 1) (off : BitVec 7) (s : State) : Out :=
  if syncLoadOk ord scp rmt true then s.scalarLoad d b (4 * off.toNat : Nat) 4 true { ord := ord.toNat, scp := scp.toNat, rmt := rmt == 1 }
  else s.trapS .illOperand s.opc6

/-- SST.W.ord.scp (R240, R243). -/
def execSstWSync (v b : BitVec 6) (ord scp : BitVec 3) (rmt : BitVec 1) (off : BitVec 7) (s : State) : Out :=
  if syncStoreOk ord scp rmt then s.scalarStore v b (4 * off.toNat : Nat) 4 true { ord := ord.toNat, scp := scp.toNat, rmt := rmt == 1 }
  else s.trapS .illOperand s.opc6

/-- SLD.W.S.ord.scp (R240, R243). -/
def execSldWSSync (d b : BitVec 6) (ord scp : BitVec 3) (rmt : BitVec 1) (off : BitVec 7) (s : State) : Out :=
  if syncLoadOk ord scp rmt false then s.scalarLoad d b (4 * off.toNat : Nat) 4 false { ord := ord.toNat, scp := scp.toNat, rmt := rmt == 1 }
  else s.trapS .illOperand s.opc6

/-- SST.W.S.ord.scp (R240, R243). -/
def execSstWSSync (v b : BitVec 6) (ord scp : BitVec 3) (rmt : BitVec 1) (off : BitVec 7) (s : State) : Out :=
  if syncStoreOk ord scp rmt then s.scalarStore v b (4 * off.toNat : Nat) 4 false { ord := ord.toNat, scp := scp.toNat, rmt := rmt == 1 }
  else s.trapS .illOperand s.opc6

end Sys2Proof.Machine
end

