-- ==== Sys2Proof/Machine/Successor.lean ====
section
/-! DEFINITION. Successor kernels: RETIRE, the retire latch, the scrub and the successor's start (R393 to R404). -/

namespace Sys2Proof.Machine

/-! ## The inheritance record and the successor table (R394, R395) -/

/-- Range i of an inheritance record: first granule and number of granules. -/
def inhRange (x i : Nat) : Nat × Nat := (bits x (64 + 32 * i) 12, bits x (76 + 32 * i) 13)

/-- MAPr. -/
def inhMap (x r : Nat) : Nat := bits x (192 + 8 * r) 8

/-- Whether a granule is inherited. -/
def inhHas (x g : Nat) : Bool :=
  (List.range 4).any (fun i => let (a, n) := inhRange x i; decide (a ≤ g ∧ g < a + n))

/-- The inherited tiles, by their predecessor names in ascending order. -/
def inhTiles (x : Nat) : List Nat := ones (bits x 32 16) 16

/-- Whether a record breaks step 4 of R393 for a team that holds so many tiles. -/
def inhBad (x tiles : Nat) : Bool :=
  bits x 18 14 != 0 || bits x 50 14 != 0 || bits x 216 296 != 0 || decide (239 < bits x 0 8) ||
  (List.range 4).any (fun i =>
    let (a, n) := inhRange x i
    bits x (89 + 32 * i) 7 != 0 || (n != 0 && decide (4096 < a + n))) ||
  (List.range 3).any (fun r => bits x (194 + 8 * r) 5 != 0) || (inhTiles x).any (fun t => decide (tiles ≤ t))

/-- Whether an entry of the successor table breaks step 4. -/
def succBad (e : Nat) : Bool := !bit e 64 || bits e 56 8 != 0 || bits e 65 63 != 0 || bits e 0 56 % 256 != 0

/-- Whether a predecessor pick of a role and index is handed on to a successor of launch record lr (R396). -/
def handedOn (x lr role q : Nat) : Bool :=
  (List.range (lrNrole lr)).any (fun r =>
    !bit (inhMap x r) 7 && inhMap x r % 4 == role && decide (q < lrPicks lr r))

/-! ## What an operation touches (R398) -/

/-- The scratch that an operation reads or writes while it executes, beyond its write region. -/
def State.opReads (s : State) (o : Op) : Region :=
  let s1 : State := { s with cur := o.pick }
  (((s1.asIssued o).opPieces o).filter (fun q => !q.global)).map (fun q => (q.addr, q.len))

/-- The tiles that an operation reads or writes. -/
def Op.opTiles (o : Op) : List Nat :=
  if o.func = 0x15 then ones (bits o.wa.toNat 0 16) 16
  else if o.path = 3 then [o.f 0 4]
  else if o.func = 0x40 then (List.range (o.ssDims.2.2.1 * ((o.f 0 9 + 127) / 128))).map (o.f 68 4 + ·)
  else []

/-- Whether scratch from a on, n bytes, lies in part outside what a record hands on. -/
def scrOutside (x : Nat) (r : Nat × Nat) : Bool :=
  r.2 != 0 && (decide (2 ^ 20 < r.1 + r.2) ||
    !((List.range ((r.1 + r.2 - 1) / 256 - r.1 / 256 + 1)).all (fun i => inhHas x (r.1 / 256 + i))))

/-- Whether an operation touches state outside what a record hands on. -/
def State.opOutside (s : State) (x : Nat) (o : Op) : Bool :=
  (s.writeRegion o ++ s.opReads o).any (scrOutside x) ||
  o.opTiles.any (fun t => !(inhTiles x).contains t)

/-! ## RETIRE (R393, R396, R398) -/

/-- Who reads a successor's launch record for a pick: a WQ-class access (R397). -/
def State.recordAgent (s : State) (key : Nat) : Agent :=
  { cls := 7, pick := key, path := 7, seq := (s.pickAt key).xseq
    knows := s.knownIds { cls := 8, pick := key, seq := (s.pickAt key).xseq } }

/-- The launch record at an address as the device reads it for a pick (R397). -/
def State.readRecord (s : State) (key lrec : Nat) : Option Nat :=
  s.readVa (s.recordAgent key) (s.teamAt (s.pickAt key).team).ctx lrec 256

/-- RETIRE (R393). A successor whose launch record cannot be read hands nothing on yet; the latch refuses it. -/
def execRetire (a b : BitVec 6) (s0 : State) : Out :=
  if s0.pick.mode then s0.trapS .perm 0
  else s0.withOperands [a, b] [] fun w =>
    let n := (w b).toNat
    if n % 64 ≠ 0 then s0.trapS .misalign (BitVec.ofNat 64 n)
    else if !s0.team.inRange n 64 then s0.trapS .bounds (BitVec.ofNat 64 n)
    else if !s0.pick.blocks.isEmpty then s0.stall
    else
      let s := s0.coverBlocks
      let p := s.pick
      if s.team.scratchBad n 64 then s.trapS .dataPoison (BitVec.ofNat 64 n)
      else
        let x := s.readScr s.scalarAgent p.team n 64
        let s := s.noteLook s s.scalarAgent .plain false (scrCells p.team n 64)
        let va := lrSucctab s.team.lr + 16 * (w a).toNat
        if inhBad x (lrTiles s.team.lr) || decide (lrNsucc s.team.lr ≤ (w a).toNat) then s.trapS .illOperand s.opc6
        else match s.resolve s.ctx rightR va 16 with
          | .error e => s.scalarFails e 0 8
          | .ok (pas, m) =>
            if s.poisoned pas then s.trapS .dataPoison (BitVec.ofNat 64 va)
            else
              let e := s.readPas s.scalarAgent pas
              if succBad e then s.trapS .illOperand s.opc6
              else
                let s1 := (s.notePas s.scalarAgent .plain false pas).touchDies s.team.ctx m
                let lrec := bits e 0 56
                let kept := match s1.readRecord s1.cur lrec with
                  | some lr => handedOn x lr p.role p.qidx
                  | none => false
                let arrive (s : State) : Out := .next (s.setPick { s.pick with
                  wait := .latch (w a) (w b) (s.inst.setWidth 32) x lrec, bkExempt := false })
                if kept && bit x 48 then
                  if (s1.ops.filter (fun e => e.2.pick == s1.cur)).any (fun e => s1.opOutside x e.2) ||
                      p.pending.any (fun q => q.isVar && decide (q.path < 2) && q.scr.any (scrOutside x)) then .next s1
                  else arrive s1
                else s1.drainPaths arrive

/-! ## The retire latch (R397) -/

/-- Every arrived pick's RETIRE traps with SUCC_SHAPE. -/
def State.refuseRetire (s : State) (keys : List Nat) (v : Nat) : State :=
  { keys.foldl (fun s k =>
      let s1 := { s with cur := k }
      match s1.pick.wait with
      | .latch _ _ i _ _ =>
        ({ s1 with inst := i.setWidth 96 }.setPick { s1.pick with wait := .none }).takeTrap
          { cause := .succShape, tval := BitVec.ofNat 64 v, src := true, tspc := s1.pick.spc }
      | _ => s) s with cur := s.cur }

/-- The reason of the shape check (step 4), or 0. -/
def shapeReason (old lr x : Nat) : Nat :=
  let roles := List.range (lrNrole lr)
  let live := roles.filter (fun r => !bit (inhMap x r) 7)
  if decide (96 < lrP lr) || decide (1023 < lrReserve lr) || decide (2 ^ 20 < lrScratch lr) || decide (16 < lrTiles lr) then 3
  else if lrTiles lr < (inhTiles x).length then 4
  else if (List.range 4).any (fun i => let (a, n) := inhRange x i; n != 0 && decide (lrScru lr < a + n)) then 5
  else if live.any (fun r => decide (lrNrole old ≤ inhMap x r % 4)) ||
      live.any (fun r => live.any (fun q => q != r && inhMap x q % 4 == inhMap x r % 4)) ||
      (List.range 3).any (fun r => decide (lrNrole lr ≤ r) && inhMap x r != 0) then 6
  else 0

/-- The successor picks that inherit, with the predecessor pick of each. -/
def heirs (t old lr x : Nat) (keys : List Nat) : List (Nat × Nat) :=
  (List.range (lrP lr)).filterMap (fun n =>
    let (r, q) := lrRoleOf lr n
    let src := inhMap x r % 4
    let k := 64 * t + lrRoleBase old src + q
    if bit (inhMap x r) 7 || decide (lrNrole old ≤ src) || decide (lrPicks old src ≤ q) || !keys.contains k then none
    else some (n, k))

/-- What a handed-on pick keeps, as pick n of the successor (R399); with its paths go its lane accesses that have not
completed. -/
def Pick.handOn (p0 : Pick) (t n x : Nat) : Pick :=
  let p := p0.flush (fun q => !q.isVar)
  let paths := bit x 48
  { live := true, team := t, index := n, slot := p.slot
    sregs := p.sregs.filter (fun e => decide (e.1 < bits x 8 10))
    spoison := p.spoison.filter (fun i => decide (i < bits x 8 10))
    names := p.names.filter (fun e => decide (e.1 < bits x 0 8) && e.2.st == .allocated)
    fmtr := p.fmtr
    paths := if paths then p.paths else []
    pending := if paths then p.pending else []
    puts := if paths then p.puts else []
    pseq := p.pseq, xfences := p.xfences, xseq := p.xseq, dieLost := p.dieLost, lastS := p.lastS }

/-- An operation kept in flight, as the successor's (R398): its tiles have new names. -/
def Op.handOn (o : Op) (key : Nat) (tiles : List Nat) : Op :=
  let ren (n : Nat) : Nat := tiles.findIdx (· == n)
  { o with
    pick := key
    wa := if o.func = 0x15 then BitVec.ofNat 32 (maskOf (o.opTiles.map ren)) else o.wa
    desc := if o.func = 0x15 then o.desc else if o.path = 3 then setBits o.desc 0 4 (ren (o.f 0 4))
      else if o.func = 0x40 then setBits o.desc 68 4 (ren (o.f 68 4)) else o.desc }

/-- Waiting MX.MMAJ operations before the team's picks retire: those whose partners are all there form, the others fail
(R351, R398). -/
def State.settleLatch : Nat → Nat → State → State
  | 0, _, s => s
  | fuel + 1, t, s => match s.rendezvous t with
    | some s1 => State.settleLatch fuel t s1
    | none => s

/-- A mark on scratch granules in the inherited ranges (R399). -/
def Inflight.inherit (i : Inflight) (x : Nat) : List Inflight :=
  (List.range 4).filterMap (fun k =>
    let (a, n) := inhRange x k
    let lo := max i.lo a
    let hi := min i.hi (a + n - 1)
    if n ≠ 0 ∧ lo ≤ hi then some { i with lo, hi } else none)

/-- The agents of a pick: its scalar agent, its lanes, its paths. -/
def agentKeys (k : Nat) : List Nat := scalarKey k :: lanesKey k :: (List.range 6).map (fun c => 64 * k + 34 + c)

/-- A write record when team t becomes its successor of picks `all` (R402): what the predecessor's agents made, knew or read
is ordered before every access of the successor; the team's own memory is what it inherits, the tiles under new names. -/
def WRec.handOn (r : WRec) (t : Nat) (all : List Nat) (x : Nat) (tile : Nat → Option Nat) : WRec :=
  let mine (k : Nat) : Bool := k / 4096 == t
  let cell (c : WCell) : Option WCell :=
    let a := c.loc / 4 % 2 ^ 18
    if locTeam c.loc ≠ t then some c
    else if c.loc % 4 = 1 then (if inhHas x (a / 64) then some c else none)
    else (tile a).map (fun w => { c with loc := tileLoc t w })
  let keys := all.flatMap agentKeys
  let known := r.known.any mine
  let seen := r.seen.any mine
  { r with
    cells := r.cells.filterMap cell
    known := r.known.filter (fun k => !mine k) ++ if known then keys else []
    seen := r.seen.filter (fun k => !mine k) ++ if known || seen then keys else []
    fenced := r.fenced ++ if known then all.map (fun k => (k, 0xFF, 0)) else [] }

/-- The formation (R399, R400, R402): the successor takes the team's number, and a team of a new number publishes for
the predecessor. PRE of its record is 3 where a save was decided and not carried out before: no rule says, the model's choice
(log 22). -/
def State.formSuccessor (s0 : State) (t lr lrec x : Nat) : State :=
  let m0 := s0.teamAt t
  let s := State.settleLatch s0.ops.length t (s0.setTeamAt t { m0 with goneMask := BitVec.allOnes 64 })
  let m := s.teamAt t
  let keys := m.picks
  let g := s.nextTeam
  let hs := heirs t m.lr lr x keys
  let ipath := bit x 48
  let newKey (k : Nat) : Option Nat := (hs.find? (fun e => e.2 == k)).map (fun e => 64 * t + e.1)
  let tiles := inhTiles x
  let keptOps := (s.ops.filter (fun e => e.2.pick / 64 == t && e.2.phase != .abandoned)).map (·.1)
  let slotOk (n : Nat) : Bool := (lrDmask lr).getLsbD n &&
    ((s.slotAt m.die m.loom n).bound.map (fun d => d.word.toNat)) == some (lrDword lr n)
  let keep : BitVec 8 := m.refs &&& BitVec.ofNat 8 (maskOf ((List.range 8).filter slotOk))
  let ren (w : Nat) : Option Nat := if tiles.contains (w / 16384) then
    some (tiles.findIdx (· == w / 16384) * 16384 + w % 16384) else none
  let fm := keys.foldl (fun m k => m.addFmask (s.pickAt k).fmask) m
  let ghost : Team := { fm with
    phase := .done 3, scratch := [], scratchPoison := [], tiles := [], tilePoison := [], refs := 0, inflight := [], picks := []
    cause := 0, carry := m.carry ++ s.teamIds t, waitOps := keptOps, goneMask := 0, barNow := [], barPast := []
    pre := match m.phase with | .draining _ _ => 1 | _ => m.pre }
  let heir : Team := { m with
    phase := .successor, lr, lrec
    scratch := m.scratch.filter (fun e => inhHas x (e.1 / 256))
    scratchPoison := m.scratchPoison.filter (fun w => inhHas x (w / 64))
    tiles := m.tiles.filterMap (fun e => (ren e.1).map (fun a => (a, e.2)))
    tilePoison := m.tilePoison.filterMap ren
    inflight := if ipath then m.inflight.flatMap (fun i => match newKey i.pick with
      | some k => { i with pick := k }.inherit x
      | none => []) else []
    picks := (hs.map (fun e => 64 * t + e.1))
    foor := false, flate := false, fpicks := 0, flanes := 0, pre := 0, precnt := 0, cause := 0
    goneMask := 0, prio := lrPri lr, waitOps := [], pred := g
    keptScr := 256 * ((List.range 4).map (fun i => let (a, n) := inhRange x i; if n = 0 then 0 else a + n)).foldl max 0
    keptTiles := tiles.length, succWait := true, slotWords := [], inherit := x, carry := []
    barNow := m.barNow.filter (fun e => inhHas x (e.1 / 256)), barPast := m.barPast.filter (fun e => inhHas x (e.1 / 256)) }
  let all := (List.range (lrP lr)).map (64 * t + ·)
  let s1 := s.releaseRefs t keep
  let olds := hs.map (fun e => (e.1, s.pickAt e.2))
  let s2 := olds.foldl (fun s e => s.setPickAt (64 * t + e.1) (e.2.handOn t e.1 x)) (s1.dropPicks keys)
  let l := s2.launchAt m.launch
  let s3 : State := { s2 with
    nextTeam := g + 1
    ops := s2.ops.map (fun e => match (if e.2.pick / 64 = t then newKey e.2.pick else none) with
      | some k => (e.1, e.2.handOn k tiles)
      | none => e)
    wlog := (s2.wlog.map (fun r => r.handOn t all x ren)).filter (fun r => !r.cells.isEmpty) }
  let s4 := (((s3.setTeamAt g ghost).setTeamAt t { heir with refs := keep }).setLaunchAt m.launch { l with
    granted := l.granted.map (fun e => if e.1 = t then (g, e.2) else e) }).count m.die 0x001 keys.length
  match m.phase with
  | .draining dl out => (s4.prqRecord g out 0).decided t 3 dl
  | .saving _ img _ =>
    let c := s4.ctxAt m.ctx
    (s4.setCtxAt m.ctx { c with saveUsed := c.saveUsed.filter (fun e => e.1 != img) }).decided t 3 0
  | _ => s4

/-- RETIRE_LATCH_FORM (R397) at the focus team. -/
def execRetireLatchForm (s : State) : Out :=
  let t := s.cur / 64
  let m := s.teamAt t
  let at_ (k : Nat) : Option (Word × Word × Nat × Nat) := match (s.pickAt k).wait with
    | .latch a b _ x r => some (a, b, x, r)
    | _ => none
  match m.picks with
  | [] => .next s
  | k0 :: _ =>
    match at_ k0 with
    | none => .next s
    | some (a, b, x, lrec) =>
      if !m.phase.issues || m.picks.any (fun k => (at_ k).isNone || (s.pickAt k).parked) then .next s
      else if m.picks.any (fun k => match at_ k with | some (a', b', _, _) => a' != a || b' != b | none => true) then
        .next (s.refuseRetire m.picks 1)
      else match s.validate (s.recordAgent k0) m.ctx lrec true with
        | .error st => .next (s.refuseRetire m.picks (2 + st * 256))
        | .ok (lr, _) =>
          let r := shapeReason m.lr lr x
          if r ≠ 0 then .next (s.refuseRetire m.picks r)
          else .next (s.formSuccessor t lr lrec x)

/-- SUCCESSOR_START (R401) at the focus team: its loom admits what the successor needs beyond what it keeps. -/
def execSuccessorStart (s : State) : Out :=
  let t := s.cur / 64
  let m := s.teamAt t
  match m.phase with
  | .successor =>
    let world := (s.ctxAt m.ctx).world
    if !s.admits world m.lr m.needs m.die m.loom t then .next s
    else
      let s1 := s.buildSuccessor t
      let full (b : Nat) : Bool := decide (1024 <
        ((s1.loomPicks m.die m.loom).map (fun k => max (s1.pickAt k).reserve ((s1.pickAt k).holds b))).sum)
      if (List.range 4).any full then .next s
      else .next ((s1.setTeamAt t { s1.teamAt t with startOrd := s.fresh }).takeSlots t)
  | _ => .next s

end Sys2Proof.Machine
end

