-- ==== Sys2Proof/Machine/Dispatch.lean ====
section
/-! DEFINITION. The dispatch of every instruction and event to its meaning, one arm per constructor. -/

namespace Sys2Proof.Machine

/-- The meaning of an instruction or event in a state. -/
def exec (i : Instr) (s : State) : Host.Outcome State Fault Refusal :=
  match i with
  | .sadd d a b => Sys2Proof.Machine.execSadd d a b s
  | .ssub d a b => Sys2Proof.Machine.execSsub d a b s
  | .smul d a b => Sys2Proof.Machine.execSmul d a b s
  | .smulh d a b => Sys2Proof.Machine.execSmulh d a b s
  | .smulhu d a b => Sys2Proof.Machine.execSmulhu d a b s
  | .sand d a b => Sys2Proof.Machine.execSand d a b s
  | .sor d a b => Sys2Proof.Machine.execSor d a b s
  | .sxor d a b => Sys2Proof.Machine.execSxor d a b s
  | .sshl d a b => Sys2Proof.Machine.execSshl d a b s
  | .sshr d a b => Sys2Proof.Machine.execSshr d a b s
  | .ssra d a b => Sys2Proof.Machine.execSsra d a b s
  | .smin d a b => Sys2Proof.Machine.execSmin d a b s
  | .smax d a b => Sys2Proof.Machine.execSmax d a b s
  | .sminu d a b => Sys2Proof.Machine.execSminu d a b s
  | .smaxu d a b => Sys2Proof.Machine.execSmaxu d a b s
  | .sclz d a => Sys2Proof.Machine.execSclz d a s
  | .spopc d a => Sys2Proof.Machine.execSpopc d a s
  | .ssel d a b p => Sys2Proof.Machine.execSsel d a b p s
  | .scmp n a b c => Sys2Proof.Machine.execScmp n a b c s
  | .saddi d a imm => Sys2Proof.Machine.execSaddi d a imm s
  | .sandi d a imm => Sys2Proof.Machine.execSandi d a imm s
  | .sori d a imm => Sys2Proof.Machine.execSori d a imm s
  | .sxori d a imm => Sys2Proof.Machine.execSxori d a imm s
  | .sshli d a imm => Sys2Proof.Machine.execSshli d a imm s
  | .sshri d a imm => Sys2Proof.Machine.execSshri d a imm s
  | .slui d imm => Sys2Proof.Machine.execSlui d imm s
  | .sldB d b o => Sys2Proof.Machine.execSldB d b o s
  | .sldH d b o => Sys2Proof.Machine.execSldH d b o s
  | .sldW d b o => Sys2Proof.Machine.execSldW d b o s
  | .sstB v b o => Sys2Proof.Machine.execSstB v b o s
  | .sstH v b o => Sys2Proof.Machine.execSstH v b o s
  | .sstW v b o => Sys2Proof.Machine.execSstW v b o s
  | .sldWSync d b ord scp rmt off => Sys2Proof.Machine.execSldWSync d b ord scp rmt off s
  | .sstWSync v b ord scp rmt off => Sys2Proof.Machine.execSstWSync v b ord scp rmt off s
  | .sldBS d b o => Sys2Proof.Machine.execSldBS d b o s
  | .sldHS d b o => Sys2Proof.Machine.execSldHS d b o s
  | .sldWS d b o => Sys2Proof.Machine.execSldWS d b o s
  | .sstBS v b o => Sys2Proof.Machine.execSstBS v b o s
  | .sstHS v b o => Sys2Proof.Machine.execSstHS v b o s
  | .sstWS v b o => Sys2Proof.Machine.execSstWS v b o s
  | .sldWSSync d b ord scp rmt off => Sys2Proof.Machine.execSldWSSync d b ord scp rmt off s
  | .sstWSSync v b ord scp rmt off => Sys2Proof.Machine.execSstWSSync v b ord scp rmt off s
  | .sbr neg b o => Sys2Proof.Machine.execSbr neg b o s
  | .sj o => Sys2Proof.Machine.execSj o s
  | .scall d imm => Sys2Proof.Machine.execScall d imm s
  | .sret a => Sys2Proof.Machine.execSret a s
  | .swin imm => Sys2Proof.Machine.execSwin imm s
  | .lgo cb t => Sys2Proof.Machine.execLgo cb t s
  | .lwait n => Sys2Proof.Machine.execLwait n s
  | .pclose p => Sys2Proof.Machine.execPclose p s
  | .pwait a p => Sys2Proof.Machine.execPwait a p s
  | .xfence scp t f => Sys2Proof.Machine.execXfence scp t f s
  | .fence scp kind => Sys2Proof.Machine.execFence scp kind s
  | .barinit a e => Sys2Proof.Machine.execBarinit a e s
  | .bararr a b => Sys2Proof.Machine.execBararr a b s
  | .barwait a b => Sys2Proof.Machine.execBarwait a b s
  | .setfmt a b => Sys2Proof.Machine.execSetfmt a b s
  | .stcfg a b => Sys2Proof.Machine.execStcfg a b s
  | .gang a b => Sys2Proof.Machine.execGang a b s
  | .retire a b => Sys2Proof.Machine.execRetire a b s
  | .sexit => Sys2Proof.Machine.execSexit s
  | .snop => Sys2Proof.Machine.execSnop s
  | .scsrr d r => Sys2Proof.Machine.execScsrr d r s
  | .scsrw a r => Sys2Proof.Machine.execScsrw a r s
  | .trap c => Sys2Proof.Machine.execTrap c s
  | .tret => Sys2Proof.Machine.execTret s
  | .shCopy d a blk => Sys2Proof.Machine.execShCopy d a blk s
  | .shTld d a blk => Sys2Proof.Machine.execShTld d a blk s
  | .shTst d a blk => Sys2Proof.Machine.execShTst d a blk s
  | .shQnt d a blk => Sys2Proof.Machine.execShQnt d a blk s
  | .shFill d a blk => Sys2Proof.Machine.execShFill d a blk s
  | .mxMma d a blk => Sys2Proof.Machine.execMxMma d a blk s
  | .mxMmaj d a blk => Sys2Proof.Machine.execMxMmaj d a blk s
  | .mxUnf d a blk => Sys2Proof.Machine.execMxUnf d a blk s
  | .mxMv d a blk => Sys2Proof.Machine.execMxMv d a blk s
  | .mxOut d a blk => Sys2Proof.Machine.execMxOut d a blk s
  | .mxZero d a blk => Sys2Proof.Machine.execMxZero d a blk s
  | .mxSt d a blk => Sys2Proof.Machine.execMxSt d a blk s
  | .gaGath d a blk => Sys2Proof.Machine.execGaGath d a blk s
  | .gaScat d a blk => Sys2Proof.Machine.execGaScat d a blk s
  | .gaSegred d a blk => Sys2Proof.Machine.execGaSegred d a blk s
  | .coAllred d a blk => Sys2Proof.Machine.execCoAllred d a blk s
  | .coBcast d a blk => Sys2Proof.Machine.execCoBcast d a blk s
  | .coPut d a blk => Sys2Proof.Machine.execCoPut d a blk s
  | .coGet d a blk => Sys2Proof.Machine.execCoGet d a blk s
  | .coSignal d a blk => Sys2Proof.Machine.execCoSignal d a blk s
  | .ssRun d a blk => Sys2Proof.Machine.execSsRun d a blk s
  | .ssPeek d a blk => Sys2Proof.Machine.execSsPeek d a blk s
  | .wdNext d a blk => Sys2Proof.Machine.execWdNext d a blk s
  | .wdLaunch d a blk => Sys2Proof.Machine.execWdLaunch d a blk s
  | .tkNext d a blk => Sys2Proof.Machine.execTkNext d a blk s
  | .tkDone d a blk => Sys2Proof.Machine.execTkDone d a blk s
  | .tkAdd d a b blk => Sys2Proof.Machine.execTkAdd d a b blk s
  | .fmQuery d a b blk => Sys2Proof.Machine.execFmQuery d a b blk s
  | .fmReq d a b blk => Sys2Proof.Machine.execFmReq d a b blk s
  | .vadd h d a b sat => Sys2Proof.Machine.execVadd h d a b sat s
  | .vsub h d a b sat => Sys2Proof.Machine.execVsub h d a b sat s
  | .vmul h d a b => Sys2Proof.Machine.execVmul h d a b s
  | .vmulh h d a b => Sys2Proof.Machine.execVmulh h d a b s
  | .vmulhu h d a b => Sys2Proof.Machine.execVmulhu h d a b s
  | .vmad h d a b c sat => Sys2Proof.Machine.execVmad h d a b c sat s
  | .vmin h d a b => Sys2Proof.Machine.execVmin h d a b s
  | .vmax h d a b => Sys2Proof.Machine.execVmax h d a b s
  | .vminu h d a b => Sys2Proof.Machine.execVminu h d a b s
  | .vmaxu h d a b => Sys2Proof.Machine.execVmaxu h d a b s
  | .vabs h d a sat => Sys2Proof.Machine.execVabs h d a sat s
  | .vneg h d a sat => Sys2Proof.Machine.execVneg h d a sat s
  | .vicmp h p a b cc => Sys2Proof.Machine.execVicmp h p a b cc s
  | .vsel h d a b q nq => Sys2Proof.Machine.execVsel h d a b q nq s
  | .vdiv h d a b c m => Sys2Proof.Machine.execVdiv h d a b c m s
  | .vdivu h d a b c m => Sys2Proof.Machine.execVdivu h d a b c m s
  | .vrem h d a b c m => Sys2Proof.Machine.execVrem h d a b c m s
  | .vremu h d a b c m => Sys2Proof.Machine.execVremu h d a b c m s
  | .vand h d a b => Sys2Proof.Machine.execVand h d a b s
  | .vor h d a b => Sys2Proof.Machine.execVor h d a b s
  | .vxor h d a b => Sys2Proof.Machine.execVxor h d a b s
  | .vandn h d a b => Sys2Proof.Machine.execVandn h d a b s
  | .vshl h d a b n imm => Sys2Proof.Machine.execVshl h d a b n imm s
  | .vshr h d a b n imm => Sys2Proof.Machine.execVshr h d a b n imm s
  | .vsra h d a b n imm => Sys2Proof.Machine.execVsra h d a b n imm s
  | .vclz h d a => Sys2Proof.Machine.execVclz h d a s
  | .vpopc h d a => Sys2Proof.Machine.execVpopc h d a s
  | .vbrev h d a => Sys2Proof.Machine.execVbrev h d a s
  | .vbfx h d a b pos len sgn r => Sys2Proof.Machine.execVbfx h d a b pos len sgn r s
  | .vbfi h d a b c pos len r => Sys2Proof.Machine.execVbfi h d a b c pos len r s
  | .vprmb h d a b c sel imm => Sys2Proof.Machine.execVprmb h d a b c sel imm s
  | .vclmul h d a b => Sys2Proof.Machine.execVclmul h d a b s
  | .vclmulh h d a b => Sys2Proof.Machine.execVclmulh h d a b s
  | .vfadd h d a b rm => Sys2Proof.Machine.execVfadd h d a b rm s
  | .vfsub h d a b rm => Sys2Proof.Machine.execVfsub h d a b rm s
  | .vfmul h d a b rm => Sys2Proof.Machine.execVfmul h d a b rm s
  | .vfma h d a b c rm => Sys2Proof.Machine.execVfma h d a b c rm s
  | .vfmin h d a b => Sys2Proof.Machine.execVfmin h d a b s
  | .vfmax h d a b => Sys2Proof.Machine.execVfmax h d a b s
  | .vfcmp h p a b cc => Sys2Proof.Machine.execVfcmp h p a b cc s
  | .vfclass h d a => Sys2Proof.Machine.execVfclass h d a s
  | .vrcp h d a => Sys2Proof.Machine.execVrcp h d a s
  | .vrsq h d a => Sys2Proof.Machine.execVrsq h d a s
  | .vsqrt h d a => Sys2Proof.Machine.execVsqrt h d a s
  | .vexp2 h d a => Sys2Proof.Machine.execVexp2 h d a s
  | .vlog2 h d a => Sys2Proof.Machine.execVlog2 h d a s
  | .vcvt h d a dt ds rm ft fs => Sys2Proof.Machine.execVcvt h d a dt ds rm ft fs s
  | .vqnt h d a b dt ds rm ft fs => Sys2Proof.Machine.execVqnt h d a b dt ds rm ft fs s
  | .vdqt h d a b dt ds rm ft fs => Sys2Proof.Machine.execVdqt h d a b dt ds rm ft fs s
  | .vmov h d a => Sys2Proof.Machine.execVmov h d a s
  | .vmovi h d imm => Sys2Proof.Machine.execVmovi h d imm s
  | .vmovrx h d a => Sys2Proof.Machine.execVmovrx h d a s
  | .vmovxr h a b => Sys2Proof.Machine.execVmovxr h a b s
  | .pset h p a src => Sys2Proof.Machine.execPset h p a src s
  | .pand h p qa na qb nb => Sys2Proof.Machine.execPand h p qa na qb nb s
  | .por h p qa na qb nb => Sys2Proof.Machine.execPor h p qa na qb nb s
  | .pxor h p qa na qb nb => Sys2Proof.Machine.execPxor h p qa na qb nb s
  | .pnot h p qa => Sys2Proof.Machine.execPnot h p qa s
  | .pmk h p a => Sys2Proof.Machine.execPmk h p a s
  | .vote h d q nq kind => Sys2Proof.Machine.execVote h d q nq kind s
  | .vredk h d a op => Sys2Proof.Machine.execVredk h d a op s
  | .vscan h d a op excl => Sys2Proof.Machine.execVscan h d a op excl s
  | .vlane h d a b => Sys2Proof.Machine.execVlane h d a b s
  | .vbr stall p0 p1 p2 p3 t0 t1 t2 t3 rcv np u => Sys2Proof.Machine.execVbr stall p0 p1 p2 p3 t0 t1 t2 t3 rcv np u s
  | .vjmp h a rcv u => Sys2Proof.Machine.execVjmp h a rcv u s
  | .vland stall => Sys2Proof.Machine.execVland stall s
  | .vcall h d a off u ind => Sys2Proof.Machine.execVcall h d a off u ind s
  | .regang stall => Sys2Proof.Machine.execRegang stall s
  | .lend h => Sys2Proof.Machine.execLend h s
  | .safept stall idx => Sys2Proof.Machine.execSafept stall idx s
  | .vnop h => Sys2Proof.Machine.execVnop h s
  | .vld h d a brec ord scp rmt inv rc rcl => Sys2Proof.Machine.execVld h d a brec ord scp rmt inv rc rcl s
  | .vst h a b brec ord scp => Sys2Proof.Machine.execVst h a b brec ord scp s
  | .vlda h d a off ord scp rmt inv rc rcl size => Sys2Proof.Machine.execVlda h d a off ord scp rmt inv rc rcl size s
  | .vsta h a b off ord scp size => Sys2Proof.Machine.execVsta h a b off ord scp size s
  | .vlds h d a off ord scp size => Sys2Proof.Machine.execVlds h d a off ord scp size s
  | .vsts h a b off ord scp size => Sys2Proof.Machine.execVsts h a b off ord scp size s
  | .vpft h a brec rc rcl => Sys2Proof.Machine.execVpft h a brec rc rcl s
  | .vatom h d a b off ord scp aop far size asp => Sys2Proof.Machine.execVatom h d a b off ord scp aop far size asp s
  | .vfence h kind scp => Sys2Proof.Machine.execVfence h kind scp s
  | .txbegin stall d off => Sys2Proof.Machine.execTxbegin stall d off s
  | .txend stall => Sys2Proof.Machine.execTxend stall s
  | .txabort h code => Sys2Proof.Machine.execTxabort h code s
  | .vaccr h d a m => Sys2Proof.Machine.execVaccr h d a m s
  | .vaccw h a b m add => Sys2Proof.Machine.execVaccw h a b m add s
  | .variableLatencyResult seq => Sys2Proof.Machine.execVariableLatencyResult seq s
  | .pathOperationComplete op => Sys2Proof.Machine.execPathOperationComplete op s
  | .engineOperationStart op => Sys2Proof.Machine.execEngineOperationStart op s
  | .taskTableWriteback launch => Sys2Proof.Machine.execTaskTableWriteback launch s
  | .issueAgingRise frag => Sys2Proof.Machine.execIssueAgingRise frag s
  | .park bank => Sys2Proof.Machine.execPark bank s
  | .teamStart launch team die loom => Sys2Proof.Machine.execTeamStart launch team die loom s
  | .submission ctx q => Sys2Proof.Machine.execSubmission ctx q s
  | .dependencyEdgeCheck launch => Sys2Proof.Machine.execDependencyEdgeCheck launch s
  | .preemptRequest who => Sys2Proof.Machine.execPreemptRequest who s
  | .resume ctx => Sys2Proof.Machine.execResume ctx s
  | .slotBindComplete die loom slot => Sys2Proof.Machine.execSlotBindComplete die loom slot s
  | .xrespReplay ctx fid hyp => Sys2Proof.Machine.execXrespReplay ctx fid hyp s
  | .xrespXlate ctx fid hyp => Sys2Proof.Machine.execXrespXlate ctx fid hyp s
  | .xrespPerm ctx fid hyp => Sys2Proof.Machine.execXrespPerm ctx fid hyp s
  | .xrespRefuse ctx fid hyp => Sys2Proof.Machine.execXrespRefuse ctx fid hyp s
  | .invalidateStage1 ctx => Sys2Proof.Machine.execInvalidateStage1 ctx s
  | .invalidateStage2 ctx => Sys2Proof.Machine.execInvalidateStage2 ctx s
  | .invalidationComplete ctx => Sys2Proof.Machine.execInvalidationComplete ctx s
  | .dieAssign die world => Sys2Proof.Machine.execDieAssign die world s
  | .dieRelease die => Sys2Proof.Machine.execDieRelease die s
  | .dieScrubComplete die => Sys2Proof.Machine.execDieScrubComplete die s
  | .dieReleaseComplete die => Sys2Proof.Machine.execDieReleaseComplete die s
  | .wvcommit link => Sys2Proof.Machine.execWvcommit link s
  | .contextCreate ctx fn slot world => Sys2Proof.Machine.execContextCreate ctx fn slot world s
  | .contextEndHost ctx => Sys2Proof.Machine.execContextEndHost ctx s
  | .draftLoad fn => Sys2Proof.Machine.execDraftLoad fn s
  | .draftRemove fn => Sys2Proof.Machine.execDraftRemove fn s
  | .counterRead tlp => Sys2Proof.Machine.execCounterRead tlp s
  | .allowListWrite fn world word val => Sys2Proof.Machine.execAllowListWrite fn world word val s
  | .devidWrite val => Sys2Proof.Machine.execDevidWrite val s
  | .hostRegisterWrite page off tlp => Sys2Proof.Machine.execHostRegisterWrite page off tlp s
  | .powerGrant grants => Sys2Proof.Machine.execPowerGrant grants s
  | .operatingPointChange die => Sys2Proof.Machine.execOperatingPointChange die s
  | .linkWidthRequest link width => Sys2Proof.Machine.execLinkWidthRequest link width s
  | .linkRetrainComplete link ok => Sys2Proof.Machine.execLinkRetrainComplete link ok s
  | .thermalThrottle cond => Sys2Proof.Machine.execThermalThrottle cond s
  | .dieLoss die => Sys2Proof.Machine.execDieLoss die s
  | .linkFailure edge => Sys2Proof.Machine.execLinkFailure edge s
  | .scaleupLaneLoss port => Sys2Proof.Machine.execScaleupLaneLoss port s
  | .uncorrectableError site => Sys2Proof.Machine.execUncorrectableError site s
  | .patrolScrub die => Sys2Proof.Machine.execPatrolScrub die s
  | .rekey world => Sys2Proof.Machine.execRekey world s
  | .rekeySweepComplete world => Sys2Proof.Machine.execRekeySweepComplete world s
  | .remoteAccessArrival world ia req => Sys2Proof.Machine.execRemoteAccessArrival world ia req s
  | .ptmExchange ns => Sys2Proof.Machine.execPtmExchange ns s
  | .atsInvalidation fn page => Sys2Proof.Machine.execAtsInvalidation fn page s
  | .ideKeySetGo fn set tx => Sys2Proof.Machine.execIdeKeySetGo fn set tx s
  | .ideKeySetStop fn set tx => Sys2Proof.Machine.execIdeKeySetStop fn set tx s
  | .ideIntegrityFailure fn => Sys2Proof.Machine.execIdeIntegrityFailure fn s
  | .stopInterface fn => Sys2Proof.Machine.execStopInterface fn s
  | .spdmRequest fn req => Sys2Proof.Machine.execSpdmRequest fn req s
  | .tenantPolicySet fn val => Sys2Proof.Machine.execTenantPolicySet fn val s
  | .svnRaise kind val => Sys2Proof.Machine.execSvnRaise kind val s
  | .unallocatedEncoding lane => Sys2Proof.Machine.execUnallocatedEncoding lane s
  | .peerDeviceLoss dev => Sys2Proof.Machine.execPeerDeviceLoss dev s
  | .collectiveMessageArrival world ctx msg => Sys2Proof.Machine.execCollectiveMessageArrival world ctx msg s
  | .linkLevelRetry link => Sys2Proof.Machine.execLinkLevelRetry link s
  | .lockInterface fn => Sys2Proof.Machine.execLockInterface fn s
  | .startInterface fn => Sys2Proof.Machine.execStartInterface fn s
  | .rateBudgetRefill portal => Sys2Proof.Machine.execRateBudgetRefill portal s
  | .fixedLatencyWrite => Sys2Proof.Machine.execFixedLatencyWrite s
  | .rendezvousForm => Sys2Proof.Machine.execRendezvousForm s
  | .blockStart => Sys2Proof.Machine.execBlockStart s
  | .blockEnd => Sys2Proof.Machine.execBlockEnd s
  | .regangRelease => Sys2Proof.Machine.execRegangRelease s
  | .parkRestore => Sys2Proof.Machine.execParkRestore s
  | .completionPublish => Sys2Proof.Machine.execCompletionPublish s
  | .retireLatchForm => Sys2Proof.Machine.execRetireLatchForm s
  | .successorStart => Sys2Proof.Machine.execSuccessorStart s
  | .trapDelivery => Sys2Proof.Machine.execTrapDelivery s
  | .asyncTrapDelivery => Sys2Proof.Machine.execAsyncTrapDelivery s
  | .xfenceDrainComplete => Sys2Proof.Machine.execXfenceDrainComplete s
  | .teamSave => Sys2Proof.Machine.execTeamSave s
  | .drainTurnsSave => Sys2Proof.Machine.execDrainTurnsSave s
  | .smpgo => Sys2Proof.Machine.execSmpgo s
  | .powerOn => Sys2Proof.Machine.execPowerOn s
  | .bootPhaseTimeout => Sys2Proof.Machine.execBootPhaseTimeout s
  | .fundamentalReset => Sys2Proof.Machine.execFundamentalReset s
  | .ioDieLoss => Sys2Proof.Machine.execIoDieLoss s
  | .powerLoss => Sys2Proof.Machine.execPowerLoss s
  | .cycleCounterIncrement => Sys2Proof.Machine.execCycleCounterIncrement s

end Sys2Proof.Machine
end

