-- ==== Sys2Proof/Machine/Schedule.lean ====
section
/-! DEFINITION. What may move next when the agenda names nothing: events that are due, team starts, and the streams of
the quadrants. -/

namespace Sys2Proof.Machine

/-! ## The streams of a quadrant (R22, R63, R528) -/

/-- The quadrant of a pick: its die, loom and quarter of the pick slots (R22). -/
def State.quadrant (s : State) (p : Pick) : Nat :=
  let m := s.teamAt p.team
  (64 * m.die + m.loom) * 4 + p.slot / 24

/-- A priority class raised by so much, as a rank: 0 is the highest. A team told to save goes first (R446, R454). -/
def Team.rank (m : Team) (rise : Nat) : Nat := if m.phase.isSaving then 0 else 3 - min 3 (m.prio + rise)

/-- Whether a fragment is a candidate (R63). -/
def State.laneCandidate (s : State) (p : Pick) (f : Fragment) : Bool :=
  !p.frozen && (s.teamAt p.team).phase.issues && p.running && f.waitAt.isNone && p.ls.fragLive f

/-- Whether a pick's S-stream is a candidate (R63). -/
def State.scalarCandidate (s : State) (p : Pick) : Bool :=
  !p.frozen && (s.teamAt p.team).phase.issues && p.wait == .none

/-- The pipe of a lane instruction by its OPC (R104, R105): 0 INT, 1 FMA, 2 MEM. -/
def pipeOf (opc : Nat) : Nat := if 0x280 ≤ opc then 2 else if 0x100 ≤ opc ∧ opc ≤ 0x106 then 1 else 0

/-- The opcodes whose one source is the field at bit 53. -/
def oneSource : List Nat :=
  [0x00B, 0x00C, 0x087, 0x088, 0x089, 0x107, 0x108, 0x109, 0x10A, 0x10B, 0x10C, 0x180, 0x188, 0x18A, 0x200, 0x205,
    0x209, 0x20A, 0x281, 0x300, 0x304, 0x306, 0x380]

/-- The opcodes without a source. -/
def noSource : List Nat :=
  [0x189, 0x201, 0x202, 0x203, 0x204, 0x208, 0x280, 0x282, 0x284, 0x285, 0x286, 0x287, 0x308, 0x309, 0x30A, 0x30B]

/-- The source fields of a lane word of an opcode (R101, R202) that name registers, n being the word: where each lies, and the
registers of its group. -/
def sourcesOf (opc n : Nat) : List (Nat × Nat) :=
  let regs := if bits n 3 3 = 3 then 2 else if bits n 3 3 = 4 then 4 else 1
  let a := (53, 1)
  let b := (36, 1)
  let c := (19, 1)
  if [0x006, 0x103].contains opc then [a, b, c]
  else if opc = 0x00E then [a, b]
  else if [0x084, 0x085, 0x086].contains opc then (if bit n 5 then [a] else [a, b])
  else if opc = 0x08A then (if bit n 11 then [a] else [a, b])
  else if opc = 0x08B then (if bit n 11 then [a, b] else [a, b, c])
  else if opc = 0x08C then (if bit n 16 then [a, b] else [a, b, c])
  else if oneSource.contains opc then [a]
  else if opc = 0x283 then (if bit n 13 then [a] else [])
  else if opc = 0x302 then [(53, 2)]
  else if opc = 0x303 then [(53, 2), (36, regs)]
  else if opc = 0x305 then [a, (36, regs)]
  else if opc = 0x307 then [(53, if bit n 2 then 1 else 2), (36, if bits n 7 4 = 10 then 2 * regs else regs)]
  else if noSource.contains opc then []
  else [a, b]

/-- The bank vector of a lane word (R104): the banks of the v-registers that its sources name. -/
def banksOf (w : BitVec 96) : List Nat :=
  (((sourcesOf (w.extractLsb' 86 10).toNat w.toNat).flatMap (fun (at_, n) =>
    (List.range n).map (bits w.toNat (at_ + 9) 8 + ·))).filter (· < 239)).map (· % 4)

/-- The word that a fragment would issue next. -/
def State.laneWord (s0 : State) (key frag : Nat) : Option (BitVec 96) :=
  let s := { s0 with cur := key, frag := frag }
  match s.fetch s.ctx.lbase ((s.pick.ls.fragPc s.fragment).getD 0) 12 with
  | .ok (pas, _) => some (BitVec.ofNat 96 (s.fetched pas))
  | .error _ => none

/-- Whether two fragments may issue in one clk (R22): of different picks of one quadrant, on different pipes, with disjoint
bank vectors. -/
def State.pairs (s : State) (k f k2 f2 : Nat) : Bool :=
  k != k2 && s.quadrant (s.pickAt k) == s.quadrant (s.pickAt k2) &&
  (match s.laneWord k f, s.laneWord k2 f2 with
   | some w, some w2 => pipeOf (w.extractLsb' 86 10).toNat != pipeOf (w2.extractLsb' 86 10).toNat &&
      (banksOf w).all (fun b => !(banksOf w2).contains b)
   | _, _ => false)

/-- Actions ordered by rank, then by the time of the last issue (R63). -/
def byAge (l : List ((Nat × Nat) × Action)) : List Action :=
  (l.insertionSort (fun a b => decide (a.1.1 < b.1.1 ∨ (a.1.1 = b.1.1 ∧ a.1.2 ≤ b.1.2)))).map (·.2)

/-- A lane candidate with the first of others that R22 lets issue in the same clk (R63). -/
def State.withSecond (s : State) (l : List Action) (a : Action) : Action :=
  match a with
  | .lane k f =>
    (l.findSome? (fun b => match b with
      | .lane k2 f2 => if s.pairs k f k2 f2 then some (.pair k f k2 f2) else none
      | _ => none)).getD a
  | _ => a

/-- The lane candidates of a quadrant's picks, first to last, each with its second candidate (R22, R63). -/
def State.laneMoves (s : State) (ps : List (Nat × Pick)) : List Action :=
  let l := byAge (ps.flatMap (fun e => ((e.2.ls.frags.zipIdx).filter (fun x => s.laneCandidate e.2 x.1)).map
    (fun x => (((s.teamAt e.2.team).rank x.1.rise, x.1.lastIssue), Action.lane e.1 x.2))))
  l.map (s.withSecond l)

/-- The S-stream candidates of a quadrant's picks, first to last (R63). -/
def State.scalarMoves (s : State) (ps : List (Nat × Pick)) : List Action :=
  byAge ((ps.filter (fun e => s.scalarCandidate e.2)).map
    (fun e => (((s.teamAt e.2.team).rank (e.2.passedS / 64), e.2.lastS), Action.scalar e.1)))

/-- A list begun n places further on. -/
def turned {α : Type} (n : Nat) (l : List α) : List α := l.drop (n % l.length) ++ l.take (n % l.length)

/-- The streams when the agenda names none: the quadrants take turns, and in each the two kinds of stream. -/
def State.streamMoves (s : State) : List Action :=
  let quads := (s.picks.map (fun e => s.quadrant e.2)).eraseDups
  (turned (s.fresh / 2) quads).flatMap (fun q =>
    let ps := s.picks.filter (fun e => s.quadrant e.2 == q)
    if s.fresh % 2 = 0 then s.laneMoves ps ++ s.scalarMoves ps else s.scalarMoves ps ++ s.laneMoves ps)

/-- The fragments of a pick that are not the one chosen: passed over if they were candidates; the count is of consecutive
clks (R63). -/
def State.passFrags (s : State) (p : Pick) (chosen : List Nat) : Pick :=
  let l := p.ls
  let pass (x : Fragment × Nat) : Fragment :=
    if chosen.contains x.2 then x.1 else { x.1 with passed := if s.laneCandidate p x.1 then x.1.passed + 1 else 0 }
  p.setLs { l with frags := (l.frags.zipIdx).map pass }

/-- The other candidates of a quadrant are passed over when fragments of its picks issue (R63). -/
def State.passOthers (s : State) (key : Nat) (chosen : List (Nat × Nat)) : State :=
  let q := s.quadrant (s.pickAt key)
  let pass (e : Nat × Pick) : Nat × Pick :=
    if s.quadrant e.2 = q then (e.1, s.passFrags e.2 ((chosen.filter (fun c => c.1 == e.1)).map (·.2))) else e
  { s with picks := s.picks.map pass }

/-- The same for one fragment. -/
def State.passLanes (s : State) (key frag : Nat) : State := s.passOthers key [(key, frag)]

/-- The other S-streams of a quadrant are passed over when that of a pick issues (R63). -/
def State.passScalars (s : State) (key : Nat) : State :=
  let q := s.quadrant (s.pickAt key)
  let pass (e : Nat × Pick) : Nat × Pick :=
    if s.quadrant e.2 = q then
      (e.1, { e.2 with passedS := if e.1 != key && s.scalarCandidate e.2 then e.2.passedS + 1 else 0 })
    else e
  { s with picks := s.picks.map pass }

/-- What the choice of an action does to the candidates it passes over (R63). -/
def State.passOver (s : State) : Action → State
  | .scalar k => s.passScalars k
  | .lane k f => s.passLanes k f
  | .both k f => (s.passScalars k).passLanes k f
  | .pair k f k2 f2 => s.passOthers k [(k, f), (k2, f2)]
  | .event _ _ => s

/-! ## What is due -/

/-- Events at a pick that may be due. -/
def pickEvents (p : Pick) : List Instr :=
  let always : List Instr :=
    [.trapDelivery, .asyncTrapDelivery, .blockEnd, .blockStart, .regangRelease, .xfenceDrainComplete, .parkRestore]
  let parks : List Instr := match p.parkWant with | some b => [.park b.1] | none => []
  let results : List Instr := (p.pending.filter (·.isVar)).map (fun q => .variableLatencyResult q.seq)
  let rises : List Instr := ((p.ls.frags.zipIdx).filter (fun x => decide (64 ≤ x.1.passed))).map (fun x => .issueAgingRise x.2)
  always ++ parks ++ results ++ rises

/-- Events at a team that may be due. -/
def teamEvents : List Instr :=
  [.retireLatchForm, .successorStart, .rendezvousForm, .completionPublish, .drainTurnsSave, .teamSave]

/-- Events of units that may be due. -/
def State.deviceEvents (s : State) : List Instr :=
  let ops : List Instr := s.ops.flatMap (fun e => [.engineOperationStart e.1, .pathOperationComplete e.1])
  let launches : List Instr := s.launches.flatMap (fun e => [.dependencyEdgeCheck e.1, .taskTableWriteback e.1])
  let ctxs : List Instr := s.ctxs.flatMap (fun e => .invalidationComplete e.1 :: (List.range 16).map (fun q => .submission e.1 q))
  let dies : List Instr := s.dies.flatMap (fun e => [.dieScrubComplete e.1, .dieReleaseComplete e.1])
  let binds : List Instr := (s.slots.filter (fun e => e.2.loading.isSome)).map (fun e =>
    .slotBindComplete (e.1 / 512) (e.1 % 512 / 8) (e.1 % 8))
  let loads : List Instr := (s.fns.filter (fun e => e.2.dlgo == 1)).map (fun e => .draftLoad e.1)
  let removes : List Instr := (s.fns.filter (fun e => e.2.dlgo == 2)).map (fun e => .draftRemove e.1)
  ops ++ launches ++ ctxs ++ dies ++ binds ++ loads ++ removes

/-- The next team start of a launch, on the first loom that admits it. -/
def State.startMove (s : State) (ln : Nat) : List Instr :=
  match s.firstReady ln with
  | none => []
  | some i =>
    let l := s.launchAt ln
    if lrCoop l.lr then
      match ((s.findPlan ln (s.toStart l)).getD []).find? (fun e => l.plan.all (fun q => q.1 != e.1)) with
      | some (j, d, n) => [.teamStart ln j d n]
      | none => []
    else match s.firstLoom ln i with
      | some (d, n) => [.teamStart ln i d n]
      | none => []

/-- Events that the device's own units have ready. -/
def State.unitMoves (s : State) : List Action :=
  let picks : List Action := s.picks.flatMap (fun e => (pickEvents e.2).map (fun i => .event i e.1))
  let teams : List Action := s.teams.flatMap (fun e => teamEvents.map (fun i => .event i (64 * e.1)))
  let units : List Instr := s.deviceEvents ++ s.launches.flatMap (fun e => s.startMove e.1)
  picks ++ teams ++ units.map (fun i => .event i 0)

end Sys2Proof.Machine
end

