-- ==== Sys2Proof/Machine/Clk.lean ====
section
/-! DEFINITION. One move of the device: a stream issues, both streams of a pick issue in one clk, an event happens, or
nothing but a fabric clk passes. -/

namespace Sys2Proof.Machine

/-- What a stream's issue answers. -/
def runReady : Ready → Out
  | .go i s => exec i s
  | .done o => o

/-- Whether a pick stopped as a whole between two states: a trap, a hold, or the end of its team. -/
def State.stopped (s t : State) (k : Nat) : Bool :=
  (t.pickAt k).frozen || ((t.pickAt k).mode && !(s.pickAt k).mode) || !(t.teamAt (t.pickAt k).team).phase.issues

/-- Whether the S-stream instruction about to execute writes SEED (R267). -/
def Ready.writesSeed : Ready → Bool
  | .go (.scsrw _ r) _ => r == 0x002
  | _ => false

/-- The pick after both its streams issued: t the lane instruction's state with the FMASK bits of this clk, u the
S-stream instruction's (R134, R268, R528). -/
def Pick.joined (before t u : Pick) (writesSeed : Bool) : Pick :=
  { u with
    fmask := u.fmask ||| t.fmask
    seed := if writesSeed then u.seed else if u.seed = before.seed then t.seed else seedStep t.seed }

/-- Both streams of a pick issue in one clk (R528). The S-stream instruction sees the pick's SEED and FMASK of before the
clk. When the lane instruction traps or is held, the S-stream instruction takes its effect first; when the S-stream
instruction traps, the lane instruction has none. -/
def State.both (s : State) (k f : Nat) : Out :=
  let p := s.pickAt k
  match runReady ((s.setPickAt k { p with fmask := 0 }).issueLane k f) with
  | .next t =>
    if s.stopped t k then
      match runReady (s.issueScalar k) with
      | .next u => if s.stopped u k then .next u else runReady (u.issueLane k f)
      | o => o
    else
      let lane := t.pickAt k
      let r := { t.setPickAt k { lane with fmask := p.fmask, seed := p.seed } with fresh := t.fresh + 1 }.issueScalar k
      match runReady r with
      | .next u =>
        if s.stopped u k && !(u.pickAt k).ls.frags.any (fun f => f.hold.isSome) then runReady (s.issueScalar k)
        else .next (u.setPickAt k (p.joined lane (u.pickAt k) r.writesSeed))
      | o => o
  | o => o

/-- Two fragments issue in one clk (R22); where the second may not, the first issues alone. -/
def State.pairOf (s : State) (k f k2 f2 : Nat) : Out :=
  match runReady (s.issueLane k f) with
  | .next t => if s.pairs k f k2 f2 then runReady (({ t with fresh := t.fresh + 1 } : State).issueLane k2 f2) else .next t
  | o => o

/-- One move. An action that names an instruction as an event changes nothing. -/
def act (a : Action) (s : State) : Out :=
  match a with
  | .scalar k => runReady (s.issueScalar k)
  | .lane k f => runReady (s.issueLane k f)
  | .both k f => s.both k f
  | .pair k f k2 f2 => s.pairOf k f k2 f2
  | .event i k => if i.stream = 2 then exec i { s with cur := k } else .next s

/-- Whether an action may happen after the loss of the I/O die: only a power event (R31). -/
def powerAction : Action → Bool
  | .event .powerOn _ => true
  | .event .powerLoss _ => true
  | _ => false

/-- Whether a move changed anything but which stream was looked at. -/
def changed (s t : State) : Bool := decide ({ t with cur := s.cur, frag := s.frag, inst := s.inst } ≠ s)

/-- The first of these moves that changes the state; else a fabric clk passes. -/
def firstChange (s : State) : List Action → Out
  | [] => exec .cycleCounterIncrement s
  | a :: l =>
    let s1 := s.passOver a
    match act a s1 with
    | .next t => if changed s1 t then .next t else firstChange s l
    | _ => firstChange s l

/-- What moves when the agenda names nothing: a phase of bring-up; a fabric clk at every sixteenth step, and where nothing
else can move; else a unit or a stream that can. -/
def State.idle (s : State) : Out :=
  if s.booting then .next s.bootPhase
  else if s.fresh % 16 = 15 then exec .cycleCounterIncrement s
  else firstChange s (s.unitMoves ++ s.streamMoves)

end Sys2Proof.Machine
end

