-- ==== Sys2Proof/Machine/Step.lean ====
section
/-! DEFINITION. One step: the agenda says who moves; with nothing on it the device's own order does. -/

namespace Sys2Proof.Machine

/-- One step. Each draws its own free values (log 1). -/
def step (s : State) : Host.Outcome State Fault Refusal :=
  match s.agenda with
  | a :: rest =>
    if s.dev.ioLost && !powerAction a then .fault .deviceLost
    else act a ({ s with agenda := rest, fresh := s.fresh + 1 }.passOver a)
  | [] =>
    if s.dev.ioLost then .fault .deviceLost else { s with fresh := s.fresh + 1 }.idle

/-- The state with one instruction where the next step fetches: a context with one running pick whose code base maps
to its own memory, the instruction at the SPC, or at the LPC of a block just started, and the pick next on the
agenda (log 8). -/
def State.withFetchWord (s : State) (nbits w : Nat) : State :=
  s.placeProgram (nbits == 96) (leBytes (if nbits == 96 then 12 else 4) w)

end Sys2Proof.Machine
end

