-- ==== Sys2Proof/Safety.lean ====
section
/-! DEFINITION. The terms in which claims about the machine are made: completion, frames, the conditions under which an
instruction executes normally, taking a trap, and the invariant of memory. -/

namespace Sys2Proof.Machine

/-- The instruction answers a next state that satisfies P. -/
def Completes (i : Instr) (s : State) (P : State → Prop) : Prop := ∃ t, exec i s = .next t ∧ P t

/-- Every memory of the machine is in canonical form: the global one and the scratch of each team. -/
def MemInv (s : State) : Prop := Memory.wf s.mem = true ∧ ∀ k, Memory.wf (s.teamAt k).scratch = true

/-- Team numbers rise along their table, no two operations have one number, and the next one lies above them all. -/
def TablesInv (s : State) : Prop :=
  (s.teams.map (·.1)).Pairwise (· < ·) ∧ (s.ops.map (·.1)).Nodup ∧ ∀ e ∈ s.ops, e.1 < s.nextOp

/-! ## Frames -/

/-- Dies differ in counters alone, and those of one counter of one die by n, saturating (R483). -/
def Counted (s t : State) (die ctr n : Nat) : Prop :=
  (∀ k, { t.dieAt k with counters := (s.dieAt k).counters } = s.dieAt k) ∧
  ∀ k c, (tget 0 (t.dieAt k).counters c).toNat =
    if k = die ∧ c = ctr then min ((tget 0 (s.dieAt k).counters c).toNat + n) (2 ^ 64 - 1)
    else (tget 0 (s.dieAt k).counters c).toNat

/-- Nothing but the focus pick and counters of dies differs: memory, scratch, tiles, teams, contexts, operations,
launches, worlds and the other picks are as before. -/
def OnlyPick (s t : State) : Prop :=
  { t with picks := s.picks, dies := s.dies } = s ∧ ∀ k, k ≠ s.cur → t.pickAt k = s.pickAt k

/-- Of a pick, only the scalar words, their poison and the place in the S-stream differ. -/
def Pick.sameButScalars (p q : Pick) : Prop :=
  { q with sregs := p.sregs, spoison := p.spoison, spc := p.spc, bkExempt := p.bkExempt, lastS := p.lastS } = p

/-- The scalar words after a write of v to window register d: w0 discards it (R75), the poison of the word goes (R234). -/
def Pick.wrote (p q : Pick) (d : BitVec 6) (v : Word) : Prop :=
  (∀ n, tget 0 q.sregs n = if d ≠ 0 ∧ n = p.abs d then v else tget 0 p.sregs n) ∧
  ∀ n, n ∈ q.spoison ↔ n ∈ p.spoison ∧ ¬(d ≠ 0 ∧ n = p.abs d)

/-- What an S-stream instruction leaves that writes v to w(d) and goes on at pc: that register, the SPC and the die's
count of S-stream instructions change, and nothing else. -/
def ScalarDone (s t : State) (d : BitVec 6) (v pc : Word) : Prop :=
  OnlyPick s t ∧ Counted s t s.team.die 0x001 1 ∧ s.pick.sameButScalars t.pick ∧ s.pick.wrote t.pick d v ∧
  t.pick.spc = pc ∧ t.pick.bkExempt = false ∧ t.pick.lastS = s.fresh

/-- The address of the next instruction in sequence (R245). -/
def State.nextPc (s : State) : Word := BitVec.ofNat 32 (s.pick.spc.toNat + 4)

/-- The same as a write of w(d) by an instruction that goes on in sequence. -/
def ScalarWrote (s t : State) (d : BitVec 6) (v : Word) : Prop := ScalarDone s t d v s.nextPc

/-! ## When an S-stream instruction executes normally -/

/-- No register field stops the instruction or reads or writes either value: none lies in a capture window that frame
checking watches or whose copy-back is not yet covered, and none that is read is poisoned (R52, R234, R235). -/
def State.regsReady (s : State) (reads writes : List (BitVec 6)) : Bool :=
  (s.frameHit (reads ++ writes)).isNone && (s.poisonHit reads).isNone &&
  (reads ++ writes).all (fun r => r == 0 || (s.pick.priorOf (s.pick.abs r)).isNone)

/-- Every recorded write is ordered before an access of this agent, or the agent has read past it; no broken `.INV` promise
loosens its reads, no earlier command bounds them, and no mapping of a partner range confuses a word written: it reads what memory
holds, and what it writes is the newest (R156, R175, R180, R181, R466). -/
def State.settled (s : State) (g : Agent) : Bool :=
  s.wlog.all (fun r => !r.free g && r.cells.all (fun c => !s.confused c.loc)) && g.loose.isEmpty && g.caps.isEmpty

/-- Of a pick, only the scalar words, their poison, the place in the S-stream and what relaxed reads found differ. -/
def Pick.sameButSync (p q : Pick) : Prop :=
  { q with sregs := p.sregs, spoison := p.spoison, spc := p.spc, bkExempt := p.bkExempt, lastS := p.lastS,
           rlxSeen := p.rlxSeen } = p

/-- The recorded writes are the same but for which agents they are known to happen before, and which have read or missed them
(R175, R176, R186). -/
def SameLog (s t : State) : Prop :=
  t.wlog.map (fun r => { r with known := [], seen := [], missed := [] }) =
    s.wlog.map (fun r => { r with known := [], seen := [], missed := [] })

/-- Functions differ at most in the host translations that the I/O die holds (R515). -/
def HostCached (s t : State) : Prop :=
  ∀ k, { tget {} t.fns k with ats := (tget ({} : Function) s.fns k).ats } = tget ({} : Function) s.fns k

/-- A read met a poisoned home copy of a whole mirrored pair here (R466): the word is to be rewritten from its partner. -/
def State.mends (s : State) (pas : List Nat) (w : Nat) : Prop :=
  w ∈ s.poison ∧ ∃ a ∈ pas, paMirrored a = true ∧ paHome a / 4 = w ∧ paTwin a / 4 ∉ s.poison

/-- Memory after reads of these resolved addresses: the words that they mend take their partners' bytes and are no longer
poisoned; every other byte stays (R466). -/
def Mended (s t : State) (pas : List Nat) : Prop :=
  (∀ a, (s.mends pas (a / 4) → rdByte t.mem a = rdByte s.mem (paTwin a)) ∧
    (¬ s.mends pas (a / 4) → rdByte t.mem a = rdByte s.mem a)) ∧
  ∀ w, w ∈ t.poison ↔ w ∈ s.poison ∧ ¬ s.mends pas w

/-- An access touched these dies in a context (R485): the bits join its mask, and no other context differs. -/
def Touched (s t : State) (ctx m : Nat) : Prop :=
  ∀ k, t.ctxAt k = if k = ctx then { s.ctxAt k with tdmask := (s.ctxAt k).tdmask ||| BitVec.ofNat 13 m } else s.ctxAt k

/-- What a load of the scalar agent leaves (R175, R176, R178, R466, R485): v in w(d), the next instruction, the words mended
at the addresses it read, the dies touched, and of all else only the bookkeeping of what happens before what. -/
def Loaded (s t : State) (d : BitVec 6) (v : Word) (pas : List Nat) (m : Nat) : Prop :=
  { t with picks := s.picks, dies := s.dies, ctxs := s.ctxs, mem := s.mem, poison := s.poison, wlog := s.wlog,
           fadds := s.fadds, fns := s.fns } = s ∧ HostCached s t ∧
  (∀ k, k ≠ s.cur → t.pickAt k = s.pickAt k) ∧ SameLog s t ∧ Mended s t pas ∧ Touched s t s.team.ctx m ∧
  Counted s t s.team.die 0x001 1 ∧ s.pick.sameButSync t.pick ∧ s.pick.wrote t.pick d v ∧ t.pick.spc = s.nextPc

/-- Where bytes at resolved addresses lie, with their values: in a mirrored page twice (R466). -/
def placed (pas : List Nat) (vs : List Byte) : List (Nat × Byte) :=
  (pas.zip vs).flatMap (fun e => (paPlaces e.1).map (fun a => (a, e.2)))

/-- The bytes at resolved addresses take values, every other byte of memory stays, and a word written whole loses its
poison. -/
def MemWrote (s t : State) (pas : List Nat) (vs : List Byte) : Prop :=
  (∀ a, rdByte t.mem a = ((placed pas vs).lookup a).getD (rdByte s.mem a)) ∧
  ∀ w, w ∈ t.poison ↔ w ∈ s.poison ∧ ¬ ∀ j < 4, 4 * w + j ∈ pas.flatMap paPlaces

/-- No byte of memory changes but at these resolved addresses. -/
def MemKept (s t : State) (pas : List Nat) : Prop :=
  ∀ a, a ∉ pas.flatMap paPlaces → rdByte t.mem a = rdByte s.mem a

/-- The bytes of a team's scratch from an address on take values, every other byte of every scratch stays, and a word
written whole loses its poison; tiles, slots and the rest of the teams are as before. -/
def ScratchWrote (s t : State) (team a : Nat) (vs : List Byte) : Prop :=
  (∀ k, { t.teamAt k with scratch := (s.teamAt k).scratch, scratchPoison := (s.teamAt k).scratchPoison } = s.teamAt k) ∧
  (∀ k b, rdByte (t.teamAt k).scratch b =
    if k = team ∧ a ≤ b then (vs[b - a]?).getD (rdByte (s.teamAt k).scratch b) else rdByte (s.teamAt k).scratch b) ∧
  ∀ k w, w ∈ (t.teamAt k).scratchPoison ↔
    w ∈ (s.teamAt k).scratchPoison ∧ ¬ (k = team ∧ a ≤ 4 * w ∧ 4 * w + 4 ≤ a + vs.length)

/-- No byte of any scratch changes but n bytes of a team's from an address on, and the rest of the teams stays. -/
def ScratchKept (s t : State) (team a n : Nat) : Prop :=
  (∀ k, { t.teamAt k with scratch := (s.teamAt k).scratch, scratchPoison := (s.teamAt k).scratchPoison } = s.teamAt k) ∧
  ∀ k b, ¬ (k = team ∧ a ≤ b ∧ b < a + n) → rdByte (t.teamAt k).scratch b = rdByte (s.teamAt k).scratch b

/-- An S-stream store ends: the pick goes on, and besides what is stored and the bookkeeping of order nothing differs. -/
def Stored (s t : State) : Prop :=
  { t with picks := s.picks, dies := s.dies, ctxs := s.ctxs, teams := s.teams, mem := s.mem, poison := s.poison,
           wlog := s.wlog, nextW := s.nextW, fadds := s.fadds, fns := s.fns } = s ∧ HostCached s t ∧
  (∀ k, k ≠ s.cur → t.pickAt k = s.pickAt k) ∧ Counted s t s.team.die 0x001 1 ∧
  { t.pick with spc := s.pick.spc, bkExempt := s.pick.bkExempt, lastS := s.pick.lastS } = s.pick ∧ t.pick.spc = s.nextPc

/-- What an S-stream instruction leaves that changes its pick but for the fields f puts back, and goes on in sequence. -/
def PickStep (s t : State) (f : Pick → Pick → Pick) : Prop :=
  OnlyPick s t ∧ Counted s t s.team.die 0x001 1 ∧ t.pick.spc = s.nextPc ∧
  { f s.pick t.pick with spc := s.pick.spc, bkExempt := s.pick.bkExempt, lastS := s.pick.lastS } = s.pick

/-- The same where the bookkeeping of what happens before what may change too. -/
def PickStepSync (s t : State) (f : Pick → Pick → Pick) : Prop :=
  { t with picks := s.picks, dies := s.dies, wlog := s.wlog, fadds := s.fadds } = s ∧
  (∀ k, k ≠ s.cur → t.pickAt k = s.pickAt k) ∧ SameLog s t ∧ Counted s t s.team.die 0x001 1 ∧ t.pick.spc = s.nextPc ∧
  { f s.pick t.pick with spc := s.pick.spc, bkExempt := s.pick.bkExempt, lastS := s.pick.lastS } = s.pick

/-! ## Paths -/

/-- Whether every operation and block of a batch has completed. -/
def Batch.complete (b : Batch) : Prop := b.ops = 0 ∧ b.blocks = 0

/-- The batches that a path has closed retire in the order of closing as far as they are complete, and the causes of
failed ones become pending in that order (R166, R168). -/
def Retires (x y : PathState) (closed : List Batch) : Prop :=
  ∃ l1 l2, closed = l1 ++ l2 ∧ (∀ b ∈ l1, b.complete) ∧ (∀ b, l2.head? = some b → ¬ b.complete) ∧ y.closed = l2 ∧
    y.causes = x.causes ++ l1.filterMap (fun b => b.cause.map (fun c => (b.num, c.1, c.2))) ∧
    y.retired = ((l1.getLast?).map (·.num)).getD x.retired

/-- Nothing is outstanding on any path: no open batch holds anything and no closed one remains. -/
def Pick.pathsDone (p : Pick) : Bool :=
  (List.range 8).all (fun n =>
    let x := p.path n
    x.opened.ops == 0 && x.opened.blocks == 0 && x.opened.cause.isNone && x.closed.isEmpty)

/-- The same, and no cause is pending. -/
def Pick.pathsIdle (p : Pick) : Bool := p.pathsDone && (List.range 8).all (fun n => (p.path n).causes.isEmpty)

/-- Each path's open batch has closed and an empty one is open, as after PCLOSE, and of a pick nothing else differs but that it
waits at its end (R168). -/
def Closes (p q : Pick) : Prop :=
  q.closing = true ∧ { q with paths := p.paths, closing := p.closing } = p ∧
  ∀ n < 8, (q.path n).opened = { num := (p.path n).opened.num + 1 } ∧
    Retires (p.path n) (q.path n) ((p.path n).closed ++ [(p.path n).opened])

/-! ## Taking a trap -/

/-- The focus pick took a trap of this cause in normal mode (R422, R423): the record is formed, the handler is entered. -/
def TookTrap (s t : State) (c : Cause) (tval : BitVec 64) (tmask : Word) (src : Bool) (tspc : Word) : Prop :=
  t.pick.mode = true ∧ t.pick.spc = s.ctx.tvec ∧ t.pick.wb = s.ctx.twin ∧
  t.pick.trec.cause = BitVec.ofNat 8 c.code ∧ t.pick.trec.tval = tval ∧ t.pick.trec.tmask = tmask ∧
  t.pick.trec.src = src ∧ t.pick.trec.async = false ∧ t.pick.trec.tspc = tspc ∧ t.pick.trec.skip = false ∧
  t.pick.trec.ob = s.pick.bpred ∧ t.pick.trec.owb = s.pick.wb ∧ t.pick.trec.tfmtr = s.pick.fmtr

/-- The focus pick can take a trap at once: it is in normal mode, not parked (R99), no trap waits, and no fault holds a lane
access of it (R424). -/
def State.takesTraps (s : State) : Prop :=
  s.pick.mode = false ∧ s.pick.parked = false ∧ s.pick.held = none ∧ ∀ f ∈ s.pick.ls.frags, f.hold = none

/-- The instruction takes this trap instead of its effect, TSPC naming the instruction; memory is as before. -/
def TrapsS (i : Instr) (s : State) (c : Cause) (tval : BitVec 64) : Prop :=
  s.takesTraps → Completes i s fun t => TookTrap s t c tval 0 true s.pick.spc ∧ t.mem = s.mem ∧ t.teams = s.teams

/-! ## Engine commands -/

/-- The operation that a COP issues: its function, operands, the copy of its descriptor and the snapshots (R263, R264,
R331). -/
def State.copOf (s : State) (func : Nat) (a b : BitVec 6) (blk : BitVec 1) : Op :=
  let (where_, size, read) := copRecord func
  let at_ := (if where_ = 1 then s.pick.w b else s.pick.w a).toNat
  s.copOp func (s.pick.w a) (s.pick.w b) blk (if read then s.readScr s.scalarAgent s.pick.team at_ size else 0)

/-- Where a function's record or answer lies and its size, if it names one (R330). -/
def State.copPlace (s : State) (func : Nat) (a b : BitVec 6) : Option (Nat × Nat) :=
  let (where_, size, _) := copRecord func
  if where_ = 2 then none else some ((if where_ = 1 then s.pick.w b else s.pick.w a).toNat, size)

/-- A COP executes normally: no drain or full queue holds it, its record is aligned, in range and read without poison, and
every issue-time check passes (R264, R330, R332). -/
def State.copReady (s : State) (func : Nat) (d a b : BitVec 6) (blk : BitVec 1) : Bool :=
  s.regsReady [a, b] [d] && !s.pick.drains (copPath func) && !s.queueFull func &&
  (match s.copPlace func a b with
   | none => true
   | some (x, n) => decide (x % n = 0) && s.team.inRange x n && !s.team.scratchBad x n) &&
  (firstBad (s.copFields (s.copOf func a b blk))).isNone && (s.copOperandBad (s.copOf func a b blk)).isNone &&
  !s.codesWait (s.copOf func a b blk)

/-- The COP instructions by register operands, with func7 (R214). -/
def copForms (d a b : BitVec 6) (blk : BitVec 1) : List (Instr × Nat × BitVec 6) :=
  [(.shCopy d a blk, 0x00, 0), (.shTld d a blk, 0x01, 0), (.shTst d a blk, 0x02, 0), (.shQnt d a blk, 0x03, 0),
   (.shFill d a blk, 0x04, 0), (.mxMma d a blk, 0x10, 0), (.mxMmaj d a blk, 0x11, 0), (.mxUnf d a blk, 0x12, 0),
   (.mxMv d a blk, 0x13, 0), (.mxOut d a blk, 0x14, 0), (.mxZero d a blk, 0x15, 0), (.mxSt d a blk, 0x16, 0),
   (.gaGath d a blk, 0x28, 0), (.gaScat d a blk, 0x29, 0), (.gaSegred d a blk, 0x2A, 0), (.coAllred d a blk, 0x30, 0),
   (.coBcast d a blk, 0x31, 0), (.coPut d a blk, 0x32, 0), (.coGet d a blk, 0x33, 0), (.coSignal d a blk, 0x34, 0),
   (.ssRun d a blk, 0x40, 0), (.ssPeek d a blk, 0x41, 0), (.wdNext d a blk, 0x48, 0), (.wdLaunch d a blk, 0x49, 0),
   (.tkNext d a blk, 0x50, 0), (.tkDone d a blk, 0x51, 0), (.tkAdd d a b blk, 0x52, b), (.fmQuery d a b blk, 0x60, b),
   (.fmReq d a b blk, 0x61, b)]

/-- The S-stream instructions with register operands: those that each reads, those that it writes, and the condition under which
no check of its other fields stops it in normal mode. i, j, o, n, x, r, ord, scp and rmt stand for those fields. -/
def scalarForms (d a b : BitVec 6) (i : BitVec 14) (j : BitVec 20) (o : BitVec 7) (n : BitVec 3) (x : BitVec 8) (r : BitVec 12)
    (ord scp : BitVec 3) (rmt blk : BitVec 1) : List (Instr × List (BitVec 6) × List (BitVec 6) × Prop) :=
  let even : Prop := a.toNat % 2 = 0
  let pair := [a, a + 1]
  let ordLd (g : Prop) : Prop := ord.toNat ≤ 2 ∧ scp.toNat ≤ 5 ∧ (rmt = 1 → g ∧ ord = 2 ∧ (scp = 4 ∨ scp = 5))
  let ordSt : Prop := (ord = 0 ∨ ord = 1 ∨ ord = 3) ∧ scp.toNat ≤ 5 ∧ rmt = 0
  ([Instr.sadd d a b, .ssub d a b, .smul d a b, .smulh d a b, .smulhu d a b, .sand d a b, .sor d a b, .sxor d a b,
    .sshl d a b, .sshr d a b, .ssra d a b, .smin d a b, .smax d a b, .sminu d a b, .smaxu d a b, .ssel d a b n].map
    (fun e => (e, [a, b], [d], True))) ++
  ([Instr.sclz d a, .spopc d a, .saddi d a i, .sandi d a i, .sori d a i, .sxori d a i].map (fun e => (e, [a], [d], True))) ++
  [(.scmp n a b scp, [a, b], [], scp.toNat ≤ 5), (.sshli d a i, [a], [d], i.toNat ≤ 31), (.sshri d a i, [a], [d], i.toNat ≤ 31),
   (.slui d j, [], [d], True), (.scall d j, [], [d], True), (.sret a, [a], [], True)] ++
  ([Instr.sldB d a i, .sldH d a i, .sldW d a i].map (fun e => (e, pair, [d], even))) ++
  ([Instr.sstB d a i, .sstH d a i, .sstW d a i].map (fun e => (e, pair ++ [d], [], even))) ++
  ([Instr.sldBS d a i, .sldHS d a i, .sldWS d a i].map (fun e => (e, [a], [d], True))) ++
  ([Instr.sstBS d a i, .sstHS d a i, .sstWS d a i].map (fun e => (e, [a, d], [], True))) ++
  [(.sldWSync d a ord scp rmt o, pair, [d], even ∧ ordLd True), (.sstWSync d a ord scp rmt o, pair ++ [d], [], even ∧ ordSt),
   (.sldWSSync d a ord scp rmt o, [a], [d], ordLd False), (.sstWSSync d a ord scp rmt o, [a, d], [], ordSt),
   (.lgo a j, (List.range 16).map (fun k => a + BitVec.ofNat 6 k), [], a.toNat ≤ 48), (.pwait a n, [a], [], True),
   (.barinit a x, [a], [], x ≠ 0), (.bararr a b, [a, b], [], True), (.barwait a b, [a, b], [], True),
   (.setfmt a b, [a, b], [], True), (.stcfg a b, [a, b], [], True), (.gang a b, [a, b], [], True),
   (.scsrr d r, [], [d], isCtlReg r.toNat = true),
   (.scsrw a r, [a], [], isCtlReg r.toNat = true ∧ isCtxReg r.toNat = false ∧ isTrapReg r.toNat = false),
   (.retire a b, [a, b], [], True)] ++
  (copForms d a b blk).map (fun e => (e.1, [a, e.2.2], [d], True))

/-! ## Lane instructions -/

/-- Nothing that a lane instruction reads stops it: under scoreboarding no source is unwritten, freed or pending, and no
poison reaches an active lane (R92, R106, R430). -/
def State.laneReady (s : State) (pi : BitVec 3) (pn : BitVec 1) (preds : List Nat) (srcs : List (Src × Nat)) : Bool :=
  (!s.chk 1 || ((pi.toNat :: preds).all (fun n => (s.scorePred n).isNone) &&
    srcs.all (fun x => (s.scoreSrc x.1 x.2).isNone))) &&
  (s.poisonPred pi.toNat s.fragLanes).isNone &&
  preds.all (fun n => (s.poisonPred n (s.lanesActive pi pn)).isNone) &&
  srcs.all (fun x => (s.poisonSrc x.1 x.2 (s.lanesActive pi pn)).isNone)

/-- The name that a destination takes, if it is a lane register. -/
def destNames (d : Option Dest) : List Nat := (d.bind Dest.lane).toList

/-- The loom has registers for the names that an instruction of active lanes m writes, after its last reads (R90, R94). -/
def State.hasRoom (s : State) (m : Word) (srcs : List (Src × Nat)) (ns : List Nat) : Bool :=
  (s.shortBank ((freedBy srcs).foldl Pick.freeName s.pick) (if m = 0 then [] else ns)).isNone

/-- What a lane instruction leaves outside its pick: at most counters of dies and its team's count of lane
instructions. -/
def LaneFrame (s t : State) (m : Word) : Prop :=
  { t with picks := s.picks, teams := s.teams, dies := s.dies } = s ∧ (∀ k, k ≠ s.cur → t.pickAt k = s.pickAt k) ∧
  (∀ k, t.teamAt k = if k = s.pick.team ∧ m ≠ 0 then { s.teamAt k with li := (s.teamAt k).li + 1 } else s.teamAt k) ∧
  ∀ k, { t.dieAt k with counters := (s.dieAt k).counters } = s.dieAt k

/-- A pending result as a later instruction leaves it: lanes may be lost where the register is freed or written again
(R90, R107), and it is as it was where neither happens. -/
def Pending.kept (a b : Pending) (freed : List Nat) (dest : Option Dest) : Prop :=
  b = { a with mask := b.mask } ∧ b.mask &&& ~~~a.mask = 0 ∧
  ((∀ n ∈ freed, a.dest ≠ .vreg n) → some a.dest ≠ dest → b = a)

/-- The result that an instruction issues for a destination, due lat clks on unless an earlier one to it is due later
(R105): the values of the active lanes, or for a k-register that of the lowest one (R273). -/
def ResultFor (p : Pick) (q : Pending) (x : Dest) (m : Word) (lat : Nat) (val : Nat → Word) : Prop :=
  q.dest = x ∧ q.isVar = false ∧ q.mask = m ∧ p.clk + lat ≤ q.due ∧
  ((∀ e ∈ p.pending, e.dest = x → e.isVar = true) → q.due = p.clk + lat) ∧
  match x with
  | .kreg _ => tget 0 q.vals 0 = val ((lanesOf m).headD 0)
  | _ => ∀ i ∈ lanesOf m, tget 0 q.vals i = val i

/-- The lane register names after an instruction with sources xs that writes names ns in lanes m: its last-read bits free,
then each name written that holds no register takes one (R90). -/
def NamesAfter (p q : Pick) (xs : List (Src × Nat)) (ns : List Nat) (m : Word) : Prop :=
  ∀ n, q.name n =
    let x := if n ∈ freedBy xs ∧ (p.name n).st = .allocated then { st := .freed } else p.name n
    if n ∈ ns ∧ m ≠ 0 ∧ x.st ≠ .allocated then { st := .allocated } else x

/-- What a lane instruction leaves that issues with active lanes m, sources xs, at most one result and these moves of its
strands: the names that its last-read bits free, the name it allocates, the result, the strands, the clk before which
the pick issues no other lane instruction, SEED; and nothing else. -/
def LaneResult (s t : State) (stall : BitVec 4) (m : Word) (xs : List (Src × Nat)) (dest : Option Dest) (lat : Nat)
    (val : Nat → Word) (move : Nat → Strand → Strand) (seed : Word) : Prop :=
  let p := s.pick
  let q := t.pick
  LaneFrame s t m ∧
  { q with names := p.names, pending := p.pending, pseq := p.pseq, lanes := p.lanes, hlanes := p.hlanes,
           nextLane := p.nextLane, parkWant := p.parkWant, seed := p.seed } = p ∧
  q.nextLane = p.clk + max stall.toNat 1 ∧ q.seed = seed ∧
  (if p.mode then q.lanes = p.lanes else q.hlanes = p.hlanes) ∧
  (∀ n, q.ls.strand n = if n ∈ s.fragment.members then
      Strand.settle (move n { p.ls.strand n with dist := (p.ls.strand n).dist + 1, issued := true, safept := none })
    else p.ls.strand n) ∧
  NamesAfter p q xs (destNames dest) m ∧
  ∃ old new, q.pending = old ++ new ∧ List.Forall₂ (fun a b => Pending.kept a b (freedBy xs) dest) p.pending old ∧
    match dest with
    | none => new = []
    | some x => if m = 0 then new = [] else ∃ r, new = [r] ∧ ResultFor p r x m lat val

/-- The same for an instruction whose strands go on in sequence and that leaves SEED alone (R272). -/
def LaneWrote (s t : State) (h : Hd) (dest : Option Dest) (xs : List Src) (lat : Nat) (val : Nat → Word) : Prop :=
  LaneResult s t h.stall (s.lanesActive h.pi h.pn) (xs.map (fun x => (x, 1))) dest lat val nextL s.pick.seed

/-- A lane instruction with these predicate operands, sources and destination executes normally: nothing that it reads
stops it, and a register is there for what it writes. -/
def State.laneFit (s : State) (h : Hd) (preds : List Nat) (xs : List Src) (dest : Option Dest) : Bool :=
  s.laneReady h.pi h.pn preds (xs.map (fun x => (x, 1))) &&
  s.hasRoom (s.lanesActive h.pi h.pn) (xs.map (fun x => (x, 1))) (destNames dest)

/-- What source k of an instruction delivers to lane i (R218). -/
def State.srcVal (s : State) (xs : List Src) (i k : Nat) : Word := s.permRead k ((xs[k]?).getD Src.zero) 0 i

/-- Instruction e.1 with sources e.2.1 writes, lat e.2.2.1 clks on, the value that e.2.2.2 forms of its sources in each
active lane to destination code d (R272, R273), and nothing else. -/
def LaneDoes (s : State) (h : Hd) (d : BitVec 8) (e : Instr × List Src × Nat × (Nat → (Nat → Word) → Word)) : Prop :=
  s.laneFit h [] e.2.1 (destOf d) = true →
    Completes e.1 s fun t => LaneWrote s t h (destOf d) e.2.1 e.2.2.1 (fun i => e.2.2.2 i (s.srcVal e.2.1 i))

/-- The same into a lane predicate (R274). -/
def PredDoes (s : State) (h : Hd) (p : BitVec 3) (preds : List Nat)
    (e : Instr × List Src × Nat × (Nat → (Nat → Word) → Prop)) : Prop :=
  s.laneFit h preds e.2.1 (some (.pred p.toNat)) = true →
    Completes e.1 s fun t => ∃ v : Nat → Bool, (∀ i, v i = true ↔ e.2.2.2 i (s.srcVal e.2.1 i)) ∧
      LaneWrote s t h (some (.pred p.toNat)) e.2.1 e.2.2.1 (fun i => if v i then 1 else 0)

/-- The rounding mode of lane i under an RM field (R302). -/
def State.modeOf (s : State) (rm : BitVec 4) (i : Nat) : Nat :=
  if rm = 0 then (s.pick.ls.strand (i / 4)).fmtr.toNat / 2 ^ 16 % 8 else rm.toNat - 1

/-- SEED after an instruction of active lanes m: one step on if an active lane rounds stochastically (R134, R302). -/
def State.seedUsed (s : State) (m : Word) (mode : Nat → Nat) : Word :=
  if ∃ i ∈ lanesOf m, mode i = 5 then seedStep s.pick.seed else s.pick.seed

/-- Strand n when lanes have left it (R58, R324): those to which `keep` gives a number leave its current mask and the masks of
all but so many lowest entries of its stack. With a lane left it goes on in sequence; else it stays, to be popped. -/
def Strand.without (keep : Nat → Option Nat) (n : Nat) (x : Strand) : Strand :=
  let out (test : Nat → Bool) : BitVec 4 :=
    BitVec.ofNat 4 (maskOf ((List.range 4).filter (fun j => ((keep (4 * n + j)).map test).getD false)))
  let y := { x with
    mask := x.mask &&& ~~~out (fun _ => true)
    stack := x.stack.mapIdx (fun k e => { e with mask := e.mask &&& ~~~out (fun h => decide (k + h < x.stack.length)) }) }
  if y.mask = 0#4 then y else nextL n y

/-- The lanes of a mask leave every mask of their strands (R58). -/
def leaving (m : Word) (i : Nat) : Option Nat := if m.getLsbD i then some 0 else none

/-- The strands of a fragment go where a move takes them; the others stay. -/
def StrandsMove (s t : State) (move : Nat → Strand → Strand) : Prop :=
  ∀ n, t.pick.ls.strand n = if n ∈ s.fragment.members then
      Strand.settle (move n { s.pick.ls.strand n with
        dist := (s.pick.ls.strand n).dist + 1, issued := true, safept := none })
    else s.pick.ls.strand n

/-- Every lane of the running block reads what memory holds and writes last, on a path (0 LD, 1 ST). -/
def State.lanesSettled (s : State) (path : Nat) : Prop := ∀ i, s.settled (s.laneAgent path i) = true

/-- What a lane memory instruction may change outside its pick: memory and scratch with the bookkeeping of order and of
`.INV` promises, its team's count of lane instructions, counters of dies, and bits of the context's mask of touched dies. -/
def LaneMemFrame (s t : State) : Prop :=
  { t with picks := s.picks, teams := s.teams, dies := s.dies, ctxs := s.ctxs, mem := s.mem, poison := s.poison,
           wlog := s.wlog, nextW := s.nextW, fadds := s.fadds, launches := s.launches, fns := s.fns } = s ∧
  HostCached s t ∧
  (∀ k, k ≠ s.cur → t.pickAt k = s.pickAt k) ∧
  (∀ k, { t.teamAt k with li := (s.teamAt k).li, scratch := (s.teamAt k).scratch,
                          scratchPoison := (s.teamAt k).scratchPoison } = s.teamAt k) ∧
  (∀ k, { t.dieAt k with counters := (s.dieAt k).counters } = s.dieAt k) ∧
  (∀ k, { t.launchAt k with invs := (s.launchAt k).invs } = s.launchAt k) ∧
  ∀ k, { t.ctxAt k with tdmask := (s.ctxAt k).tdmask } = s.ctxAt k

/-- What a lane load leaves of memory: no byte differs but in the words mended at the addresses read, and no write is
recorded. -/
def LaneRead (s t : State) (pas : List Nat) : Prop :=
  Mended s t pas ∧ SameLog s t ∧ t.nextW = s.nextW ∧
  ∀ k, (t.teamAt k).scratch = (s.teamAt k).scratch ∧ (t.teamAt k).scratchPoison = (s.teamAt k).scratchPoison

/-- What a lane memory instruction with sources xs changes of its pick where no transaction is open: the names it frees and
allocates, pending results, k operations more in the batch of its path that its block is attached to (R165), what its
acquires brought, the strands, which a move takes on, the clk of the next lane instruction, SEED, and FMASK (R69). -/
def LanePickMoves (s t : State) (stall : BitVec 4) (seed : Word) (xs : List (Src × Nat)) (ns : List Nat) (m : Word)
    (path k : Nat) (move : Nat → Strand → Strand) (oor late : Word) : Prop :=
  { t.pick with names := s.pick.names, pending := s.pick.pending, pseq := s.pick.pseq, lanes := s.pick.lanes,
                hlanes := s.pick.hlanes, nextLane := s.pick.nextLane, parkWant := s.pick.parkWant, seed := s.pick.seed,
                paths := s.pick.paths, rlxSeen := s.pick.rlxSeen, fmask := s.pick.fmask } = s.pick ∧
  t.pick.fmask = s.pick.fmask ||| (late ++ oor : BitVec 64) ∧
  t.pick.nextLane = s.pick.clk + max stall.toNat 1 ∧ t.pick.seed = seed ∧ StrandsMove s t move ∧
  NamesAfter s.pick t.pick xs ns m ∧
  ∀ n, { t.pick.path n with acq := (s.pick.path n).acq } =
    if n = path then (s.pick.path n).onBatch (s.laneBatch path) (fun b => { b with ops := b.ops + k }) else s.pick.path n

/-- The same where no lane is switched off and the strands go on in sequence. -/
def LanePickFrame (s t : State) (stall : BitVec 4) (seed : Word) (xs : List (Src × Nat)) (ns : List Nat) (m : Word)
    (path k : Nat) : Prop :=
  LanePickMoves s t stall seed xs ns m path k nextL 0 0

/-- The results pending after an instruction with sources xs that issues these besides (R90, R107). What a lane still has to
load of words that it accesses now is settled (R175). -/
def PendingAfter (s t : State) (xs : List (Src × Nat)) (new : List Pending) : Prop :=
  ∃ old, t.pick.pending = old ++ new ∧
    List.Forall₂ (fun (a b : Pending) => b = { a with mask := b.mask, late := b.late } ∧ (∀ x ∈ b.late, x ∈ a.late) ∧
      b.mask &&& ~~~a.mask = 0 ∧
      ((∀ n ∈ freedBy xs, a.dest ≠ .vreg n) → (∀ r ∈ new, r.dest ≠ a.dest ∨ a.dest = .nothing) → b.mask = a.mask))
      s.pick.pending old

/-- Results of variable latency of a path (8 for none) pend for names d to d + regs − 1 in lanes m. -/
def VarResults (s t : State) (xs : List (Src × Nat)) (d regs : Nat) (m : Word) (path : Nat) (val : Nat → Nat → Word) : Prop :=
  ∃ new, PendingAfter s t xs new ∧ new.length = regs ∧
    ∀ g, g < regs → ∃ r, new[g]? = some r ∧ r.dest = .vreg (d + g) ∧ r.isVar = true ∧ r.path = path ∧
      (path < 2 → r.batch = s.laneBatch path) ∧ r.mask = m ∧ ∀ i ∈ lanesOf m, tget 0 r.vals i = val g i

/-- An operation of a path that delivers nothing to a register pends (R165). -/
def OpPends (s t : State) (xs : List (Src × Nat)) (path : Nat) : Prop :=
  ∃ r, PendingAfter s t xs [r] ∧ r.dest = .nothing ∧ r.isVar = true ∧ r.path = path ∧ r.batch = s.laneBatch path

/-- A bit of a byte that no store of the instruction writes stays: every bit of a byte at no place of a poke among them. at_
gives the places of a poke, rd and rd' read a byte before and after. -/
def PokesOnly (lanes : List Nat) (pokes : Nat → List Poke) (at_ : Poke → List Nat) (rd rd' : Nat → Byte) : Prop :=
  ∀ a b, (∀ i ∈ lanes, ∀ k ∈ pokes i, a ∈ at_ k → k.mask.getLsbD b = false) → (rd' a).getLsbD b = (rd a).getLsbD b

/-- A byte that stores of the instruction write holds what one of them writes there: of the only lane that writes it, or of one
of several (R317). -/
def PokesOne (lanes : List Nat) (pokes : Nat → List Poke) (at_ : Poke → List Nat) (rd' : Nat → Byte) : Prop :=
  ∀ i ∈ lanes, ∀ k ∈ pokes i, ∀ a ∈ at_ k,
    ∃ j ∈ lanes, ∃ k' ∈ pokes j, a ∈ at_ k' ∧ rd' a &&& k'.mask = k'.val &&& k'.mask

/-- The places of the byte that a poke of memory names. -/
def State.pokePlaces (s : State) (k : Poke) : List Nat :=
  if k.global then (match s.pokePa k with | some e => paPlaces e.1 | none => []) else []

/-- The place of a poke of scratch. -/
def Poke.scrPlaces (k : Poke) : List Nat := if k.global then [] else [k.addr]

/-- What a lane store leaves (R317): in memory and in its team's scratch no bit differs but those that its lanes write, one
operation more is on the ST path, and nothing else differs. Where no other agent's write is unordered before it, the bytes that it
writes hold what it writes. -/
def LaneStored (s t : State) (stall : BitVec 4) (xs : List (Src × Nat)) (m : Word) (pokes : Nat → List Poke) : Prop :=
  LaneMemFrame s t ∧ LanePickFrame s t stall s.pick.seed xs [] m 1 1 ∧ OpPends s t xs 1 ∧ t.launches = s.launches ∧
  PokesOnly (lanesOf m) pokes s.pokePlaces (rdByte s.mem) (rdByte t.mem) ∧
  PokesOnly (lanesOf m) pokes Poke.scrPlaces (rdByte s.team.scratch) (rdByte (t.teamAt s.pick.team).scratch) ∧
  (∀ k, k ≠ s.pick.team → (t.teamAt k).scratch = (s.teamAt k).scratch) ∧ (∀ w, w ∈ t.poison → w ∈ s.poison) ∧
  (s.lanesSettled 1 →
    PokesOne (lanesOf m) pokes s.pokePlaces (rdByte t.mem) ∧
    PokesOne (lanesOf m) pokes Poke.scrPlaces (rdByte (t.teamAt s.pick.team).scratch))

/-- A lane instruction takes this trap in normal mode instead of its effect: F's strands are named and keep their place
(R422). -/
def TrapsL (i : Instr) (s : State) (c : Cause) (tval : BitVec 64) (tmask : Word) : Prop :=
  s.takesTraps → s.pick.wait = .none →
    Completes i s fun t => TookTrap s t c tval tmask false s.pick.spc ∧ t.pick.trec.frag = s.fragment.strands ∧
      t.mem = s.mem ∧ t.teams = s.teams

/-- The integer result of R277 under SAT: wrapped, or clamped as signed or unsigned. -/
def saturated (sat : BitVec 2) (signed unsigned : Int) : Word :=
  if sat = 2 then BitVec.ofInt 32 (max 0 (min unsigned (2 ^ 32 - 1)))
  else if sat = 1 then BitVec.ofInt 32 (max (-2 ^ 31) (min signed (2 ^ 31 - 1)))
  else BitVec.ofInt 32 signed

/-! ## Events -/

/-- Nothing but the focus pick differs. -/
def PickMoves (s t : State) : Prop :=
  { t with picks := s.picks } = s ∧ ∀ k, k ≠ s.cur → t.pickAt k = s.pickAt k

/-- The result r of pick p has reached its destination in pick q: the words of its lanes, the bits of its lanes, or the
k-register; every other register, lane and bit is as before (R105, R107, R273, R274). -/
def Delivered (p q : Pick) (r : Pending) : Prop :=
  (∀ n, (q.name n).st = (p.name n).st) ∧
  (∀ n i, tget 0 (q.name n).val i = if r.dest = .vreg n ∧ (p.name n).st = .allocated ∧ r.mask.getLsbD i = true then
    tget 0 r.vals i else tget 0 (p.name n).val i) ∧
  (∀ n i, n ≠ 0 → (q.p n).getLsbD i = if r.dest = .pred n ∧ r.mask.getLsbD i = true then decide (tget 0 r.vals i ≠ 0)
    else (p.p n).getLsbD i) ∧
  ∀ n, q.k n = if r.dest = .kreg n ∧ r.mask ≠ 0 ∧ p.blocks ≠ [] then tget 0 r.vals 0 else p.k n

/-- The lane side of the mode that a pick is not in is as before (R415, R425). -/
def Pick.otherSide (p q : Pick) : Prop :=
  if p.mode then q.queue = p.queue ∧ q.lanes = p.lanes else q.hqueue = p.hqueue ∧ q.hlanes = p.hlanes

/-- Of a pick, only what results of lane instructions reach differs, and the results not yet written. -/
def Pick.sameButResults (p q : Pick) : Prop :=
  { q with names := p.names, preds := p.preds, ppoison := p.ppoison, pending := p.pending, queue := p.queue,
           hqueue := p.hqueue, paths := p.paths, clk := p.clk, moved := p.moved } = p

/-- The other operations are as before; one of the same agent that issued earlier may no longer find, in words that this one
has read, what is newer than it found there (R172, R175). -/
def OpsKept (s t : State) (k : Nat) : Prop :=
  ∀ j, j ≠ k → (t.opAt j).map (fun x => { x with caps := [] }) = (s.opAt j).map (fun x => { x with caps := [] })

/-- A result of a lane that pends stays; a load that has not been delivered may take what an engine writes meanwhile (R181). -/
def LoadsAnew (a b : Pending) : Prop :=
  b = { a with vals := b.vals } ∧ ∀ i, (∀ x ∈ a.late, x.lane ≠ i) → tget 0 b.vals i = tget 0 a.vals i

/-- Operation k of pick o.pick has ended with a reply: it is gone and left its batch; a pick that waited for it goes on
with the reply in its register (R166, R265). -/
def OpEnded (s t : State) (k : Nat) (o : Op) (reply : Nat) : Prop :=
  let q := t.pickAt o.pick
  let p := { s.pickAt o.pick with pending := q.pending }
  List.Forall₂ LoadsAnew (s.pickAt o.pick).pending q.pending ∧
  t.opAt k = none ∧ OpsKept s t k ∧ (∀ j, j ≠ o.pick → t.pickAt j = s.pickAt j) ∧
  ((∀ r n, p.wait ≠ .cop k r n) → q = p.opLeave o.path o.batch none) ∧
  ∀ r n, p.wait = .cop k r n →
    q.wait = .none ∧ q.spc = n ∧ q.paths = (p.opLeave o.path o.batch none).paths ∧
    { q with wait := p.wait, spc := p.spc, paths := p.paths, sregs := p.sregs, spoison := p.spoison,
             uncovered := p.uncovered, huncovered := p.huncovered } = p ∧
    (r = none → q.sregs = p.sregs) ∧
    ∀ x, r = some x → p.wb.toNat < x → x < p.wb.toNat + 64 → p.priorOf x = none →
      ∀ m, tget 0 q.sregs m = if m = x then BitVec.ofNat 32 reply else tget 0 p.sregs m

/-- Byte a of a space as an engine names it: of a team's scratch, or of memory at the address that translation gives. -/
def State.spaceByte (s : State) (team : Nat) (scr : Bool) (a pa : Nat) : Byte :=
  if scr then rdByte (s.teamAt team).scratch a else rdByte s.mem (s.servePa pa)

/-- n pieces of z bytes from an address on can be read in a context: pa gives where translation puts each byte. -/
def State.readsAt (s : State) (c : Context) (scr : Bool) (a z n : Nat) (pa : Nat → Nat) : Prop :=
  scr = false → ∀ i < n, ∃ m, s.resolve c rightR (a + z * i) z = .ok ((List.range z).map (fun j => pa (z * i + j)), m)

/-- The first n of these resolved bytes are different bytes, and none lies in a word of another mirroring. -/
def placesApart (pa : Nat → Nat) (n : Nat) : Prop :=
  ∀ i < n, ∀ j < n, (∀ a ∈ paPlaces (pa i), a ∈ paPlaces (pa j) → i = j) ∧
    (paHome (pa i) / 4 = paHome (pa j) / 4 → paMirrored (pa i) = paMirrored (pa j))

/-- n bytes from an address on can be written in a context with this right: pa gives where translation puts each, apart from
the others. -/
def State.writesAt (s : State) (c : Context) (right : Nat) (scr : Bool) (a n : Nat) (pa : Nat → Nat) : Prop :=
  scr = false → (∀ i < n, ∃ m, s.resolve c right (a + i) 1 = .ok ([pa i], m)) ∧ placesApart pa n

/-- Of n bytes from an address on, in a team's scratch or at these resolved places, those to which v gives a value take it;
every other byte of memory and of every scratch stays, and every tile. -/
def SpaceWrote (s t : State) (team : Nat) (scr : Bool) (a n : Nat) (pa : Nat → Nat) (v : Nat → Option Byte) : Prop :=
  (∀ j, (t.teamAt j).tiles = (s.teamAt j).tiles) ∧ (∀ j, ¬ (j = team ∧ scr = true) → (t.teamAt j).scratch = (s.teamAt j).scratch) ∧
  if scr then t.mem = s.mem ∧ ∀ b, rdByte (t.teamAt team).scratch b =
    ((if a ≤ b ∧ b < a + n then v (b - a) else none).getD (rdByte (s.teamAt team).scratch b))
  else (∀ i < n, ∀ x ∈ paPlaces (pa i), rdByte t.mem x = (v i).getD (rdByte s.mem x)) ∧
    ∀ x, (∀ i < n, x ∉ paPlaces (pa i)) → rdByte t.mem x = rdByte s.mem x

/-- An operation is under way by itself and nothing keeps it: no failure stands, none of its agent's earlier ones touches the
same words (R172), and its reads and writes are ordered after every recorded write. -/
def State.opFree (s : State) (o : Op) : Prop :=
  o.phase = .running ∧ o.joint = [] ∧ o.fail = none ∧ s.opWaits o = false ∧ s.settled (s.opAgent o) = true

/-- A unit's query k ended with a reply and its n answer bytes in its team's scratch (R369, R373, R377); every other byte
of scratch and all of memory stay. -/
def Answered (s t : State) (k : Nat) (o : Op) (reply a n v : Nat) : Prop :=
  OpEnded s t k o reply ∧ t.mem = s.mem ∧
  rdBytes (t.teamAt (s.pickAt o.pick).team).scratch a n = leBytes n v ∧
  (∀ b, b < a ∨ a + n ≤ b →
    rdByte (t.teamAt (s.pickAt o.pick).team).scratch b = rdByte (s.teamAt (s.pickAt o.pick).team).scratch b) ∧
  ∀ j, j ≠ (s.pickAt o.pick).team → (t.teamAt j).scratch = (s.teamAt j).scratch

end Sys2Proof.Machine
end

