-- ==== Sys2Proof/Certificates/Slice0/Obligations.lean ====
section
/-! DEFINITION. The statements about the machine, from the numbered rules of the manual. -/

open Sys2Proof Sys2Proof.Machine

/-! ## S-stream arithmetic -/

/-- R236, R237, R76: each ALU instruction writes the stated function of w(a) and w(b) to w(d), goes on in sequence and
changes nothing else; w0 discards the write. SCMP sets b(n) to the truth of its condition and changes nothing else; b0
discards the write. Their words decode so, and a nonzero field that must be zero does not decode. -/
def Obligations.ScalarAlu : Prop :=
  (∀ (d a b : BitVec 6) (p : BitVec 3),
     (∀ e ∈ ([
        (0x00, .sadd d a b), (0x01, .ssub d a b), (0x02, .smul d a b), (0x03, .smulh d a b), (0x04, .smulhu d a b),
        (0x08, .sand d a b), (0x09, .sor d a b), (0x0A, .sxor d a b), (0x0C, .sshl d a b), (0x0D, .sshr d a b),
        (0x0E, .ssra d a b), (0x10, .smin d a b), (0x11, .smax d a b), (0x12, .sminu d a b), (0x13, .smaxu d a b)] :
        List (BitVec 8 × Instr)),
        decodeWords [(0x01#6 ++ d ++ a ++ b ++ e.1 : BitVec 32)] = some e.2) ∧
     decodeWords [(0x01#6 ++ d ++ a ++ 0#6 ++ 0x18#8 : BitVec 32)] = some (.sclz d a) ∧
     decodeWords [(0x01#6 ++ d ++ a ++ 0#6 ++ 0x19#8 : BitVec 32)] = some (.spopc d a) ∧
     (b ≠ 0 → decodeWords [(0x01#6 ++ d ++ a ++ b ++ 0x18#8 : BitVec 32)] = none ∧
       decodeWords [(0x01#6 ++ d ++ a ++ b ++ 0x19#8 : BitVec 32)] = none) ∧
     decodeWords [(0x01#6 ++ d ++ a ++ b ++ 0x04#5 ++ p : BitVec 32)] = some (.ssel d a b p) ∧
     ∀ z n cc : BitVec 3, cc.toNat ≤ 5 →
       decodeWords [(0x01#6 ++ z ++ n ++ a ++ b ++ 0x08#5 ++ cc : BitVec 32)] =
         if z = 0 then some (.scmp n a b cc) else none) ∧
  (∀ (s : State) (d a b : BitVec 6),
     (s.regsReady [a, b] [d] = true →
       (∀ e ∈ ([
         (.sadd d a b, fun x y => BitVec.ofNat 32 (x.toNat + y.toNat)),
         (.ssub d a b, fun x y => BitVec.ofInt 32 ((x.toNat : Int) - y.toNat)),
         (.smul d a b, fun x y => BitVec.ofNat 32 (x.toNat * y.toNat)),
         (.smulh d a b, fun x y => (x.signExtend 64 * y.signExtend 64).extractLsb' 32 32),
         (.smulhu d a b, fun x y => (x.setWidth 64 * y.setWidth 64).extractLsb' 32 32),
         (.sand d a b, fun x y => x &&& y),
         (.sor d a b, fun x y => x ||| y),
         (.sxor d a b, fun x y => x ^^^ y),
         (.sshl d a b, fun x y => BitVec.ofNat 32 (x.toNat * 2 ^ (y.toNat % 32))),
         (.sshr d a b, fun x y => BitVec.ofNat 32 (x.toNat / 2 ^ (y.toNat % 32))),
         (.ssra d a b, fun x y => BitVec.ofInt 32 (x.toInt / 2 ^ (y.toNat % 32))),
         (.smin d a b, fun x y => if x.toInt ≤ y.toInt then x else y),
         (.smax d a b, fun x y => if x.toInt ≤ y.toInt then y else x),
         (.sminu d a b, fun x y => BitVec.ofNat 32 (min x.toNat y.toNat)),
         (.smaxu d a b, fun x y => BitVec.ofNat 32 (max x.toNat y.toNat))] : List (Instr × (Word → Word → Word))),
         Completes e.1 s fun t => ScalarWrote s t d (e.2 (s.pick.w a) (s.pick.w b))) ∧
       ∀ p : BitVec 3, Completes (.ssel d a b p) s fun t =>
         ScalarWrote s t d (if s.pick.b p then s.pick.w a else s.pick.w b)) ∧
     (s.regsReady [a] [d] = true →
       (∃ k, k ≤ 32 ∧ (∀ i, 32 - k ≤ i → i < 32 → (s.pick.w a).getLsbD i = false) ∧
         (k < 32 → (s.pick.w a).getLsbD (31 - k) = true) ∧
         Completes (.sclz d a) s fun t => ScalarWrote s t d (BitVec.ofNat 32 k)) ∧
       Completes (.spopc d a) s fun t => ScalarWrote s t d
         (BitVec.ofNat 32 (Finset.univ.filter (fun i : Fin 32 => (s.pick.w a).getLsbD i = true)).card))) ∧
  ∀ (s : State) (n : BitVec 3) (a b : BitVec 6), s.regsReady [a, b] [] = true →
    ∀ e ∈ ([
      (0, fun x y => x = y), (1, fun x y => x ≠ y), (2, fun x y => x.toInt < y.toInt), (3, fun x y => x.toInt ≥ y.toInt),
      (4, fun x y => x.toNat < y.toNat), (5, fun x y => x.toNat ≥ y.toNat)] : List (BitVec 3 × (Word → Word → Prop))),
      Completes (.scmp n a b e.1) s fun t =>
        OnlyPick s t ∧ Counted s t s.team.die 0x001 1 ∧ t.pick.spc = s.nextPc ∧
        { t.pick with bpred := s.pick.bpred, spc := s.pick.spc, bkExempt := s.pick.bkExempt, lastS := s.pick.lastS } = s.pick ∧
        (n ≠ 0 → (t.pick.b n = true ↔ e.2 (s.pick.w a) (s.pick.w b))) ∧
        ∀ m, (m ≠ n ∨ n = 0) → t.pick.b m = s.pick.b m

/-- R238, R239: the immediate forms write the stated function of w(a) and the immediate, and change nothing else; a
shift count above 31 traps. Their words decode so. -/
def Obligations.ScalarImmediate : Prop :=
  (∀ (d a : BitVec 6) (i : BitVec 14) (j : BitVec 20),
    (∀ e ∈ ([(0x02, .saddi d a i), (0x03, .sandi d a i), (0x04, .sori d a i), (0x05, .sxori d a i), (0x06, .sshli d a i),
             (0x07, .sshri d a i)] : List (BitVec 6 × Instr)),
      decodeWords [(e.1 ++ d ++ a ++ i : BitVec 32)] = some e.2) ∧
    decodeWords [(0x08#6 ++ d ++ j : BitVec 32)] = some (.slui d j)) ∧
  ∀ (s : State) (d a : BitVec 6) (i : BitVec 14),
    (s.regsReady [a] [d] = true →
      let x := s.pick.w a
      (∀ e ∈ ([
        (.saddi d a i, BitVec.ofInt 32 (x.toInt + i.toInt)),
        (.sandi d a i, x &&& BitVec.ofInt 32 i.toInt),
        (.sori d a i, x ||| BitVec.ofInt 32 i.toInt),
        (.sxori d a i, x ^^^ BitVec.ofInt 32 i.toInt)] : List (Instr × Word)),
        Completes e.1 s fun t => ScalarWrote s t d e.2) ∧
      (i.toNat ≤ 31 →
        (Completes (.sshli d a i) s fun t => ScalarWrote s t d (BitVec.ofNat 32 (x.toNat * 2 ^ i.toNat))) ∧
        Completes (.sshri d a i) s fun t => ScalarWrote s t d (BitVec.ofNat 32 (x.toNat / 2 ^ i.toNat)))) ∧
    (s.pick.mode = false → 31 < i.toNat →
      TrapsS (.sshli d a i) s .illOperand s.opc6 ∧ TrapsS (.sshri d a i) s .illOperand s.opc6) ∧
    (s.regsReady [] [d] = true → ∀ j : BitVec 20,
      Completes (.slui d j) s fun t => ScalarWrote s t d (BitVec.ofNat 32 (j.toNat * 2 ^ 12)))

/-! ## Scalar memory -/

/-- R240, R241, R243, R466, R485: a global load that translates and meets no lost word writes the zero-extended value
read at the address of its register pair plus offset to w(d): the little-endian bytes that memory holds, where every write
is ordered before it; no byte of memory changes but words mended from their mirror, and the dies it touches join the
context's mask; a synchronising one (ORD 1 or 2) reads the same bytes. A global store changes no byte but those of its
address, and writes the low bytes of w(v) there where it is ordered after every write. -/
def Obligations.GlobalAccess : Prop :=
  (∀ (s : State) (d base : BitVec 6) (off : BitVec 14) (ord scp : BitVec 3) (rmt : BitVec 1) (pas : List Nat) (m : Nat),
    ∀ e ∈ ([(.sldB d base off, 1), (.sldH d base off, 2), (.sldW d base off, 4),
            (.sldWSync d base ord scp rmt (off.setWidth 7), 4)] : List (Instr × Nat)),
    let sync : Prop := e.1 = .sldWSync d base ord scp rmt (off.setWidth 7)
    let o : Int := if e.1 = .sldWSync d base ord scp rmt (off.setWidth 7) then 4 * (off.setWidth 7).toNat else off.toInt
    let a := (((s.pick.w (base + 1)).toNat * 2 ^ 32 + (s.pick.w base).toNat + o) % 2 ^ 64).toNat
    ord.toNat ≤ 2 → scp.toNat ≤ 5 → (rmt = 1 → ord = 2 ∧ (scp = 4 ∨ scp = 5)) →
    base.toNat % 2 = 0 → s.regsReady [base, base + 1] [d] = true → a % e.2 = 0 →
    s.resolve s.ctx rightR a e.2 = .ok (pas, m) → s.poisoned pas = false →
    Completes e.1 s fun t => ∃ v, Loaded s t d v pas m ∧
      (¬ sync ∨ ord = 0 → t.pick.rlxSeen = s.pick.rlxSeen) ∧
      (s.settled s.scalarAgent = true → v = BitVec.ofNat 32 (ofLe (s.devBytes pas)))) ∧
  (∀ (s : State) (a : Nat), paMirrored a = false → s.devBytes [a] = [rdByte s.mem (a % 2 ^ 52)]) ∧
  ∀ (s : State) (v base : BitVec 6) (off : BitVec 14) (ord scp : BitVec 3) (pas : List Nat) (m : Nat),
    ∀ e ∈ ([(.sstB v base off, 1), (.sstH v base off, 2), (.sstW v base off, 4),
            (.sstWSync v base ord scp 0 (off.setWidth 7), 4)] : List (Instr × Nat)),
    let o : Int := if e.1 = .sstWSync v base ord scp 0 (off.setWidth 7) then 4 * (off.setWidth 7).toNat else off.toInt
    let a := (((s.pick.w (base + 1)).toNat * 2 ^ 32 + (s.pick.w base).toNat + o) % 2 ^ 64).toNat
    (ord = 0 ∨ ord = 1 ∨ ord = 3) → scp.toNat ≤ 5 →
    base.toNat % 2 = 0 → s.regsReady [base, base + 1, v] [] = true → a % e.2 = 0 →
    s.resolve s.ctx rightW a e.2 = .ok (pas, m) →
    Completes e.1 s fun t => Stored s t ∧ t.teams = s.teams ∧ MemKept s t pas ∧ Touched s t s.team.ctx m ∧
      (s.settled s.scalarAgent = true → MemWrote s t pas (leBytes e.2 (s.pick.w v).toNat))

/-- R240, R241, R145: a load from the team's scratch window, in range, writes the zero-extended value read to w(d), the
little-endian bytes that scratch holds where every write is ordered before it, and changes no byte; a store changes no
byte but those of its address, and writes the low bytes of w(v) there where it is ordered after every write. -/
def Obligations.ScratchAccess : Prop :=
  (∀ (s : State) (d base : BitVec 6) (off : BitVec 14) (ord scp : BitVec 3),
     ∀ e ∈ ([(.sldBS d base off, 1), (.sldHS d base off, 2), (.sldWS d base off, 4),
             (.sldWSSync d base ord scp 0 (off.setWidth 7), 4)] : List (Instr × Nat)),
     let o : Int := if e.1 = .sldWSSync d base ord scp 0 (off.setWidth 7) then 4 * (off.setWidth 7).toNat else off.toInt
     let a := (((s.pick.w base).toNat + o) % 2 ^ 32).toNat
     ord.toNat ≤ 2 → scp.toNat ≤ 5 → s.regsReady [base] [d] = true → a % e.2 = 0 →
     s.team.inRange a e.2 = true → s.team.scratchBad a e.2 = false →
     Completes e.1 s fun t => ∃ v, Loaded s t d v [] 0 ∧ t.mem = s.mem ∧ t.ctxs = s.ctxs ∧ t.fadds = s.fadds ∧
       (e.1 ≠ .sldWSSync d base ord scp 0 (off.setWidth 7) → t.pick.rlxSeen = s.pick.rlxSeen) ∧
       (s.settled s.scalarAgent = true → v = BitVec.ofNat 32 (ofLe (rdBytes s.team.scratch a e.2)))) ∧
  ∀ (s : State) (v base : BitVec 6) (off : BitVec 14) (ord scp : BitVec 3),
    ∀ e ∈ ([(.sstBS v base off, 1), (.sstHS v base off, 2), (.sstWS v base off, 4),
            (.sstWSSync v base ord scp 0 (off.setWidth 7), 4)] : List (Instr × Nat)),
    let o : Int := if e.1 = .sstWSSync v base ord scp 0 (off.setWidth 7) then 4 * (off.setWidth 7).toNat else off.toInt
    let a := (((s.pick.w base).toNat + o) % 2 ^ 32).toNat
    (ord = 0 ∨ ord = 1 ∨ ord = 3) → scp.toNat ≤ 5 → s.regsReady [base, v] [] = true → a % e.2 = 0 →
    s.team.inRange a e.2 = true →
    Completes e.1 s fun t => Stored s t ∧ t.mem = s.mem ∧ t.poison = s.poison ∧ t.ctxs = s.ctxs ∧
      ScratchKept s t s.pick.team a e.2 ∧
      (s.settled s.scalarAgent = true → ScratchWrote s t s.pick.team a (leBytes e.2 (s.pick.w v).toNat))

/-- R241, R243: the checks of a scalar access in their order: the codes of a synchronising form, an odd base of a global form,
then alignment, then for a global address bits [63:56], for a scratch address the window; a load of a poisoned word traps
with DATA_POISON. -/
def Obligations.ScalarAddressChecks : Prop :=
  ∀ (s : State) (d base : BitVec 6) (off : BitVec 14) (ord scp : BitVec 3) (rmt : BitVec 1) (o7 : BitVec 7),
    let loads (global : Bool) : Prop := ord.toNat ≤ 2 ∧ scp.toNat ≤ 5 ∧
      (rmt = 1 → global = true ∧ ord = 2 ∧ (scp = 4 ∨ scp = 5))
    let stores : Prop := (ord = 0 ∨ ord = 1 ∨ ord = 3) ∧ scp.toNat ≤ 5 ∧ rmt = 0
    (∀ e ∈ ([(.sldB d base off, false, 1, off.toInt, True), (.sldH d base off, false, 2, off.toInt, True),
             (.sldW d base off, false, 4, off.toInt, True), (.sstB d base off, true, 1, off.toInt, True),
             (.sstH d base off, true, 2, off.toInt, True), (.sstW d base off, true, 4, off.toInt, True),
             (.sldWSync d base ord scp rmt o7, false, 4, 4 * o7.toNat, loads true),
             (.sstWSync d base ord scp rmt o7, true, 4, 4 * o7.toNat, stores)] :
        List (Instr × Bool × Nat × Int × Prop)),
      let n := e.2.2.1
      let a := (((s.pick.w (base + 1)).toNat * 2 ^ 32 + (s.pick.w base).toNat + e.2.2.2.1) % 2 ^ 64).toNat
      (¬ e.2.2.2.2 ∨ base.toNat % 2 = 1 → TrapsS e.1 s .illOperand s.opc6) ∧
      (e.2.2.2.2 → base.toNat % 2 = 0 → s.regsReady (if e.2.1 then [base, base + 1, d] else [base, base + 1])
          (if e.2.1 then [] else [d]) = true →
        (a % n ≠ 0 → TrapsS e.1 s .misalign (BitVec.ofNat 64 a)) ∧
        (a % n = 0 → 2 ^ 56 ≤ a → TrapsS e.1 s .xlate (BitVec.ofNat 64 a)) ∧
        ∀ pas m, a % n = 0 → e.2.1 = false → s.resolve s.ctx rightR a n = .ok (pas, m) → s.poisoned pas = true →
          TrapsS e.1 s .dataPoison (BitVec.ofNat 64 a))) ∧
    ∀ e ∈ ([(.sldBS d base off, false, 1, off.toInt, True), (.sldHS d base off, false, 2, off.toInt, True),
            (.sldWS d base off, false, 4, off.toInt, True), (.sstBS d base off, true, 1, off.toInt, True),
            (.sstHS d base off, true, 2, off.toInt, True), (.sstWS d base off, true, 4, off.toInt, True),
            (.sldWSSync d base ord scp rmt o7, false, 4, 4 * o7.toNat, loads false),
            (.sstWSSync d base ord scp rmt o7, true, 4, 4 * o7.toNat, stores)] :
        List (Instr × Bool × Nat × Int × Prop)),
      let n := e.2.2.1
      let a := (((s.pick.w base).toNat + e.2.2.2.1) % 2 ^ 32).toNat
      (¬ e.2.2.2.2 → TrapsS e.1 s .illOperand s.opc6) ∧
      (e.2.2.2.2 → s.regsReady (if e.2.1 then [base, d] else [base]) (if e.2.1 then [] else [d]) = true →
        (a % n ≠ 0 → TrapsS e.1 s .misalign (BitVec.ofNat 64 a)) ∧
        (a % n = 0 → s.team.inRange a n = false → TrapsS e.1 s .bounds (BitVec.ofNat 64 a)) ∧
        (a % n = 0 → s.team.inRange a n = true → e.2.1 = false → s.team.scratchBad a n = true →
          TrapsS e.1 s .dataPoison (BitVec.ofNat 64 a)))

/-! ## S-stream control -/

/-- R246 to R249, R271: branches, calls, returns, the window and SNOP. Their words decode so; SJ is SBR with NEG 0 and
b0. -/
def Obligations.ScalarControl : Prop :=
  (∀ (neg : BitVec 1) (b : BitVec 3) (off : BitVec 22) (d a : BitVec 6) (i : BitVec 20),
    decodeWords [(0x20#6 ++ neg ++ b ++ off : BitVec 32)] =
      some (if neg = 0 ∧ b = 0 then .sj off else .sbr neg b off) ∧
    decodeWords [(0x21#6 ++ d ++ i : BitVec 32)] = some (.scall d i) ∧
    decodeWords [(0x22#6 ++ 0#6 ++ a ++ 0#14 : BitVec 32)] = some (.sret a) ∧
    decodeWords [(0x24#6 ++ 0#6 ++ i : BitVec 32)] = some (.swin i)) ∧
  ∀ s : State,
    (∀ (neg : BitVec 1) (b : BitVec 3) (off : BitVec 22),
      (Completes (.sbr neg b off) s fun t => ScalarDone s t 0 0
        (if s.pick.b b = (neg == 0) then BitVec.ofInt 32 (s.pick.spc.toNat + 4 * off.toInt) else s.nextPc)) ∧
      Completes (.sj off) s fun t => ScalarDone s t 0 0 (BitVec.ofInt 32 (s.pick.spc.toNat + 4 * off.toInt))) ∧
    (∀ (d : BitVec 6) (i : BitVec 20), s.regsReady [] [d] = true →
      Completes (.scall d i) s fun t => ScalarDone s t d s.nextPc (BitVec.ofInt 32 (s.pick.spc.toNat + 4 * i.toInt))) ∧
    (∀ a : BitVec 6, s.regsReady [a] [] = true →
      ((s.pick.w a).toNat % 4 = 0 → Completes (.sret a) s fun t => ScalarDone s t 0 0 (s.pick.w a)) ∧
      ((s.pick.w a).toNat % 4 ≠ 0 → s.pick.mode = false →
        TrapsS (.sret a) s .misalign (BitVec.ofNat 64 (s.pick.w a).toNat))) ∧
    (∀ i : BitVec 20,
      (i.toNat % 16 = 0 ∧ i.toNat ≤ 960 → Completes (.swin i) s fun t =>
        OnlyPick s t ∧ Counted s t s.team.die 0x001 1 ∧ t.pick.spc = s.nextPc ∧ t.pick.wb.toNat = i.toNat ∧
        { t.pick with wb := s.pick.wb, spc := s.pick.spc, bkExempt := s.pick.bkExempt, lastS := s.pick.lastS } = s.pick) ∧
      (¬ (i.toNat % 16 = 0 ∧ i.toNat ≤ 960) → s.pick.mode = false → TrapsS (.swin i) s .illOperand s.opc6)) ∧
    Completes .snop s fun t => ScalarDone s t 0 0 s.nextPc

/-- R47, R48, R51, R250, R251: LGO captures sixteen registers and queues the block, attached to the open LD and ST
batches; with four blocks queued, or a drain of the lane class, it stalls. LWAIT stalls until at most n blocks are left
and then covers those that ended. -/
def Obligations.LaneBlockCalls : Prop :=
  ∀ s : State,
    (∀ (cb : BitVec 6) (tgt : BitVec 20), cb.toNat ≤ 48 →
      s.regsReady ((List.range 16).map (fun i => cb + BitVec.ofNat 6 i)) [] = true →
      (4 ≤ s.pick.blocks.length ∨ s.pick.drains 0 = true → exec (.lgo cb tgt) s = .next s) ∧
      (s.pick.blocks.length < 4 → s.pick.drains 0 = false → Completes (.lgo cb tgt) s fun t =>
        PickStep s t (fun p q => { q with queue := p.queue, hqueue := p.hqueue, paths := p.paths }) ∧
        (∃ b : Block, t.pick.blocks = s.pick.blocks ++ [b] ∧ b.target.toNat = 12 * tgt.toNat ∧
          b.capBase = s.pick.wb.toNat + cb.toNat ∧ b.fmtr = s.pick.fmtr ∧ b.started = false ∧ b.kWritten = 0 ∧
          ∀ i < 16, tget 0 b.k i = s.pick.w (cb + BitVec.ofNat 6 i)) ∧
        (if s.pick.mode then t.pick.queue = s.pick.queue else t.pick.hqueue = s.pick.hqueue) ∧
        ∀ n, t.pick.path n = if n = 0 ∨ n = 1 then
          { s.pick.path n with opened := { (s.pick.path n).opened with blocks := (s.pick.path n).opened.blocks + 1 } }
          else s.pick.path n)) ∧
    (∀ (cb : BitVec 6) (tgt : BitVec 20), 48 < cb.toNat → s.pick.mode = false →
      TrapsS (.lgo cb tgt) s .illOperand s.opc6) ∧
    ∀ n : BitVec 20,
      (3 < n.toNat → s.pick.mode = false → TrapsS (.lwait n) s .illOperand s.opc6) ∧
      (n.toNat ≤ 3 → n.toNat < s.pick.blocks.length → exec (.lwait n) s = .next s) ∧
      (n.toNat ≤ 3 → s.pick.blocks.length ≤ n.toNat → Completes (.lwait n) s fun t =>
        PickStepSync s t (fun p q => { q with uncovered := p.uncovered, huncovered := p.huncovered }) ∧
        (if s.pick.mode then t.pick.huncovered = [] ∧ t.pick.uncovered = s.pick.uncovered
         else t.pick.uncovered = [] ∧ t.pick.huncovered = s.pick.huncovered))

/-- R165 to R168, R252, R253: PCLOSE closes the open batch and opens an empty one, and complete batches retire in order; a
counter of 63 stalls it. PWAIT stalls until the counter is at most w(a), then traps with the oldest pending cause, or
covers the retired batches. -/
def Obligations.PathBatches : Prop :=
  ∀ (s : State) (p : BitVec 3),
    (63 ≤ (s.pick.path p.toNat).counter → exec (.pclose p) s = .next s) ∧
    ((s.pick.path p.toNat).counter < 63 → Completes (.pclose p) s fun t =>
      PickStep s t (fun p q => { q with paths := p.paths }) ∧
      (let x := s.pick.path p.toNat
       let y := t.pick.path p.toNat
       y.opened = { num := x.opened.num + 1 } ∧ Retires x y (x.closed ++ [x.opened])) ∧
      ∀ n, n ≠ p.toNat → t.pick.path n = s.pick.path n) ∧
    ∀ a : BitVec 6, s.regsReady [a] [] = true →
      ((s.pick.w a).toNat < (s.pick.path p.toNat).counter → exec (.pwait a p) s = .next s) ∧
      ((s.pick.path p.toNat).counter ≤ (s.pick.w a).toNat →
        ((s.pick.path p.toNat).causes = [] → Completes (.pwait a p) s fun t =>
          { t with picks := s.picks, dies := s.dies, wlog := s.wlog, teams := s.teams } = s ∧ SameLog s t ∧
          (∀ k, k ≠ s.cur → t.pickAt k = s.pickAt k) ∧ t.pick.spc = s.nextPc ∧
          { t.pick with spc := s.pick.spc, bkExempt := s.pick.bkExempt, lastS := s.pick.lastS, paths := s.pick.paths } =
            s.pick ∧
          (∀ n, { t.pick.path n with acq := (s.pick.path n).acq } = s.pick.path n ∧
            ∀ y, y ∈ (t.pick.path n).acq ↔
              y ∈ (s.pick.path n).acq ∧ ¬ (n = p.toNat ∧ y.1 ≤ (s.pick.path n).retired)) ∧
          (∀ k, { t.teamAt k with inflight := (s.teamAt k).inflight } = s.teamAt k) ∧
          (∀ k, k ≠ s.pick.team → (t.teamAt k).inflight = (s.teamAt k).inflight) ∧
          ∀ x, x ∈ t.team.inflight ↔ x ∈ s.team.inflight ∧
            ¬ (x.pick = s.cur ∧ x.path = p.toNat ∧ x.batch ≤ (s.pick.path p.toNat).retired)) ∧
        ∀ n c v cs, (s.pick.path p.toNat).causes = (n, c, v) :: cs → s.takesTraps → Completes (.pwait a p) s fun t =>
          TookTrap s t c v 0 true s.pick.spc ∧ (∃ l, (t.pick.path p.toNat).causes = cs ++ l) ∧ t.mem = s.mem)

/-- R181, R182, R254, R255: XFENCE starts a drain of its source classes against its target classes and the S-stream goes
on; FENCE completes at once, every earlier scalar access being performed; either traps on a code or mask out of its
range. -/
def Obligations.Fences : Prop :=
  ∀ s : State,
    (∀ (scp : BitVec 3) (t f : BitVec 8),
      (t ≠ 0 ∧ f ≠ 0 ∧ scp.toNat ≤ 5 → Completes (.xfence scp t f) s fun u =>
        { u with picks := s.picks, dies := s.dies, wlog := s.wlog } = s ∧ (∀ k, k ≠ s.cur → u.pickAt k = s.pickAt k) ∧
        u.wlog.map (fun r => { r with fenced := [] }) = s.wlog.map (fun r => { r with fenced := [] }) ∧
        Counted s u s.team.die 0x001 1 ∧ u.pick.spc = s.nextPc ∧ u.pick.xseq = s.pick.xseq + 1 ∧
        u.pick.xfences = s.pick.xfences ++ [⟨f, t, scp, false⟩] ∧
        { u.pick with spc := s.pick.spc, bkExempt := s.pick.bkExempt, lastS := s.pick.lastS, xseq := s.pick.xseq, xfences := s.pick.xfences } =
          s.pick) ∧
      (¬ (t ≠ 0 ∧ f ≠ 0 ∧ scp.toNat ≤ 5) → s.pick.mode = false → TrapsS (.xfence scp t f) s .illOperand s.opc6)) ∧
    ∀ scp kind : BitVec 3,
      (2 ≤ kind.toNat ∧ kind.toNat ≤ 4 ∧ scp.toNat ≤ 5 → Completes (.fence scp kind) s fun u =>
        PickStepSync s u (fun p q => { q with relFence := p.relFence })) ∧
      (¬ (2 ≤ kind.toNat ∧ kind.toNat ≤ 4 ∧ scp.toNat ≤ 5) → s.pick.mode = false →
        TrapsS (.fence scp kind) s .illOperand s.opc6)

/-- R169, R170, R256: the barrier instructions check the address; BARINIT sets EXPA, which may not be 0, and clears the rest;
BARARR counts an arrival and its bytes, and flips the phase when every arrival and byte has come; one more arrival than
EXPA, or a byte balance out of its range, traps; BARWAIT stalls until the phase differs from the bit of w(b). -/
def Obligations.Barriers : Prop :=
  ∀ (s : State) (a : BitVec 6),
    let n := (s.pick.w a).toNat
    TrapsS (.barinit a 0) s .illOperand s.opc6 ∧
    (∀ e : BitVec 8, e ≠ 0 → s.regsReady [a] [] = true →
      (n % 8 ≠ 0 → TrapsS (.barinit a e) s .misalign (BitVec.ofNat 64 n)) ∧
      (n % 8 = 0 → s.team.inRange n 8 = false → TrapsS (.barinit a e) s .bounds (BitVec.ofNat 64 n))) ∧
    (∀ e : BitVec 8, e ≠ 0 → s.regsReady [a] [] = true → n % 8 = 0 → s.team.inRange n 8 = true →
      Completes (.barinit a e) s fun t => Stored s t ∧ t.mem = s.mem ∧ t.ctxs = s.ctxs ∧
        (∀ k, k ≠ s.pick.team → t.teamAt k = s.teamAt k) ∧
        { t.team with scratch := s.team.scratch, scratchPoison := s.team.scratchPoison, inflight := s.team.inflight,
                      barNow := s.team.barNow, barPast := s.team.barPast } = s.team ∧
        (∀ m, m < n ∨ n + 8 ≤ m → rdByte t.team.scratch m = rdByte s.team.scratch m) ∧
        rdNat t.team.scratch n 8 = e.toNat * 256 ∧ tget [] t.team.barNow n = [] ∧ tget [] t.team.barPast n = [] ∧
        t.team.inflight = s.team.inflight.map (fun x => if x.onto = some n then { x with onto := none } else x) ∧
        (t.team.bar n).expa = e.toNat ∧ (t.team.bar n).phase = false ∧ (t.team.bar n).arr = 0 ∧ (t.team.bar n).xb = 0) ∧
    ∀ b : BitVec 6, s.regsReady [a, b] [] = true →
      (s.pick.mode = false → n % 8 ≠ 0 → TrapsS (.bararr a b) s .misalign (BitVec.ofNat 64 n) ∧
        TrapsS (.barwait a b) s .misalign (BitVec.ofNat 64 n)) ∧
      (s.pick.mode = false → n % 8 = 0 → s.team.inRange n 8 = false → TrapsS (.bararr a b) s .bounds (BitVec.ofNat 64 n) ∧
        TrapsS (.barwait a b) s .bounds (BitVec.ofNat 64 n)) ∧
      (n % 8 = 0 → s.team.inRange n 8 = true → s.team.scratchBad n 8 = true →
        TrapsS (.bararr a b) s .dataPoison (BitVec.ofNat 64 n) ∧ TrapsS (.barwait a b) s .dataPoison (BitVec.ofNat 64 n)) ∧
      (n % 8 = 0 → s.team.inRange n 8 = true → s.team.scratchBad n 8 = false →
        let o := s.team.bar n
        let xb := o.xb + (s.pick.w b).toInt
        (o.arr = o.expa ∨ xb < -2 ^ 31 ∨ 2 ^ 31 ≤ xb → TrapsS (.bararr a b) s .illOperand s.opc6) ∧
        (o.arr ≠ o.expa → -2 ^ 31 ≤ xb → xb < 2 ^ 31 → Completes (.bararr a b) s fun t =>
          { t with picks := s.picks, dies := s.dies, teams := s.teams, wlog := s.wlog, nextW := s.nextW } = s ∧
          t.pick.spc = s.nextPc ∧
          { t.pick with spc := s.pick.spc, bkExempt := s.pick.bkExempt, lastS := s.pick.lastS } = s.pick ∧
          (∀ k, k ≠ s.pick.team → t.teamAt k = s.teamAt k) ∧
          (∀ m, m < n ∨ n + 8 ≤ m → rdByte t.team.scratch m = rdByte s.team.scratch m) ∧
          { t.team with scratch := s.team.scratch, inflight := s.team.inflight, barNow := s.team.barNow,
                        barPast := s.team.barPast } = s.team ∧ (t.team.bar n).expa = o.expa ∧
          if (o.arr + 1) % 256 = o.expa ∧ xb = 0 then
            (t.team.bar n).phase = !o.phase ∧ (t.team.bar n).arr = 0 ∧ (t.team.bar n).xb = 0
          else (t.team.bar n).phase = o.phase ∧ (t.team.bar n).arr = (o.arr + 1) % 256 ∧ (t.team.bar n).xb = xb) ∧
        (o.phase = (s.pick.w b).getLsbD 0 → exec (.barwait a b) s = .next s) ∧
        (o.phase ≠ (s.pick.w b).getLsbD 0 → Completes (.barwait a b) s fun t => PickStepSync s t (fun _ q => q)))

/-- R83, R259, R260: SETFMT and STCFG write the bits that the mask selects, with the reserved bits zero, unless a field
would hold a reserved code; a mask of zero changes nothing; GANG sets the 48 bits of its mask. -/
def Obligations.PickRegisters : Prop :=
  ∀ (s : State) (a b : BitVec 6), s.regsReady [a, b] [] = true →
    let x := s.pick.w a
    let m := s.pick.w b
    let f := ((s.pick.fmtr &&& ~~~m) ||| (x &&& m)) &&& 0x07FFFFFF#32
    let c := ((s.pick.tcfg &&& ~~~m) ||| (x &&& m)) &&& 0x0FFFFFFF#32
    let fBad := 6 ≤ f.toNat / 2 ^ 16 % 8 ∨ f.toNat / 2 ^ 20 % 8 = 0 ∨ f.toNat / 2 ^ 23 % 8 = 0
    let cBad := c.toNat / 2 ^ 24 % 4 = 3 ∨ c.toNat / 2 ^ 26 % 4 = 3
    (m = 0 → ∀ i ∈ [Instr.setfmt a b, .stcfg a b], Completes i s fun t => ScalarDone s t 0 0 s.nextPc) ∧
    (m ≠ 0 → ¬ fBad → Completes (.setfmt a b) s fun t =>
      PickStep s t (fun p q => { q with fmtr := p.fmtr }) ∧ t.pick.fmtr = f) ∧
    (m ≠ 0 → ¬ cBad → Completes (.stcfg a b) s fun t =>
      PickStep s t (fun p q => { q with tcfg := p.tcfg }) ∧ t.pick.tcfg = c) ∧
    (m ≠ 0 → s.pick.mode = false → (fBad → TrapsS (.setfmt a b) s .illOperand s.opc6) ∧
      (cBad → TrapsS (.stcfg a b) s .illOperand s.opc6)) ∧
    Completes (.gang a b) s fun t => PickStep s t (fun p q => { q with gang := p.gang }) ∧
      t.pick.gang.toNat = x.toNat + m.toNat % 2 ^ 16 * 2 ^ 32

/-- R9, R69, R81, R267, R416 to R419, R426, R433: what SCSRR reads from each control register, a read of CYCL latching the
high half and the die; what SCSRW writes, in either mode: FMTR, TCFG, SEED and GANG take the value without its reserved bits,
1s clear bits of FMASK, and a read-only register drops it; in trap mode the trap-record registers take what their fields
allow. A reserved code of FMTR or TCFG, and a value out of range of a trap-record register, traps with ILL_OPERAND, in trap
mode a nested trap (R428); a context register, and in normal mode a trap-record register, traps with PERM, an unallocated
number with ILL_OPERAND. -/
def Obligations.ControlRegisters : Prop :=
  (∀ (s : State) (d : BitVec 6), s.regsReady [] [d] = true →
     let p := s.pick
     let c := s.ctx
     let y := (s.dieAt s.team.die).cycles
     (∀ e ∈ ([
       (0x000, p.fmtr), (0x001, p.tcfg), (0x002, p.seed), (0x003, BitVec.ofNat 32 p.wb.toNat),
       (0x004, p.gang.extractLsb' 0 32), (0x005, p.gang.extractLsb' 32 32), (0x008, p.fmask.extractLsb' 0 32),
       (0x009, p.fmask.extractLsb' 32 32), (0x159, p.cych), (0x15A, BitVec.ofNat 32 p.cycd.toNat),
       (0x100, BitVec.ofNat 32 p.trec.cause.toNat), (0x101, p.trec.tval.extractLsb' 0 32),
       (0x102, p.trec.tval.extractLsb' 32 32), (0x103, p.trec.tmask), (0x105, p.trec.tspc), (0x107, p.trec.tfmtr),
       (0x141, c.tvec), (0x142, BitVec.ofNat 32 c.twin.toNat), (0x143, BitVec.ofNat 32 c.chk.toNat),
       (0x144, c.sbase.extractLsb' 0 32), (0x145, c.sbase.extractLsb' 32 32), (0x146, c.lbase.extractLsb' 0 32),
       (0x147, c.lbase.extractLsb' 32 32), (0x148, BitVec.ofNat 32 c.bkctl.toNat),
       (0x006, BitVec.ofNat 32 (((List.range 4).map (fun i => (p.path i).counter % 64 * 2 ^ (8 * i))).sum)),
       (0x007, BitVec.ofNat 32 (((List.range 4).map (fun i => (p.path (4 + i)).counter % 64 * 2 ^ (8 * i))).sum)),
       (0x104, BitVec.ofNat 32 (p.trec.frag.toNat + p.trec.atLend.toNat * 2 ^ 8 + p.trec.waitRg.toNat * 2 ^ 16)),
       (0x106, BitVec.ofNat 32 ((if p.mode then 1 else 0) + (if p.trec.src then 2 else 0) + (if p.trec.async then 4 else 0) +
         (if p.trec.blk then 8 else 0) + (if p.trec.skip then 16 else 0) + p.trec.ob.toNat * 2 ^ 8 + p.trec.owb.toNat * 2 ^ 16)),
       (0x108, p.trec.tinst.extractLsb' 0 32), (0x109, p.trec.tinst.extractLsb' 32 32), (0x10A, p.trec.tinst.extractLsb' 64 32),
       (0x140, BitVec.ofNat 32 (s.team.ctx % 2 ^ 16 + c.world * 2 ^ 16)), (0x150, tget 0 c.bks 0), (0x151, tget 0 c.bks 1)] :
       List (BitVec 12 × Word)), Completes (.scsrr d e.1) s fun t => ScalarWrote s t d e.2) ∧
     (∀ n < 16,
       (n < 8 → (Completes (.scsrr d (BitVec.ofNat 12 (0x110 + n))) s fun t =>
           ScalarWrote s t d (tget 0xFFFFFFFF p.trec.tlpc n)) ∧
         Completes (.scsrr d (BitVec.ofNat 12 (0x118 + n))) s fun t => ScalarWrote s t d (tget 0 p.trec.tlfmt n)) ∧
       (Completes (.scsrr d (BitVec.ofNat 12 (0x120 + n))) s fun t => ScalarWrote s t d (tget 0 p.trec.tkf n)) ∧
       (n < 4 → Completes (.scsrr d (BitVec.ofNat 12 (0x14C + n))) s fun t => ScalarWrote s t d (tget 0 c.bkl n))) ∧
     (Completes (.scsrr d 0x158) s fun t =>
       OnlyPick s t ∧ Counted s t s.team.die 0x001 1 ∧ t.pick.spc = s.nextPc ∧ p.wrote t.pick d (y.extractLsb' 0 32) ∧
       t.pick.cych = y.extractLsb' 32 32 ∧ t.pick.cycd = BitVec.ofNat 4 s.team.die ∧
       p.sameButScalars { t.pick with cych := p.cych, cycd := p.cycd }) ∧
     (p.mode = false → ∀ r : BitVec 12, isCtlReg r.toNat = false → TrapsS (.scsrr d r) s .illOperand s.opc6)) ∧
  (∀ (s : State) (a : BitVec 6), s.pick.mode = true → s.regsReady [a] [] = true →
    let r := s.pick.trec
    let v := s.pick.w a
    let f := v &&& 0x07FFFFFF#32
    let ok := ¬ (6 ≤ f.toNat / 2 ^ 16 % 8 ∨ f.toNat / 2 ^ 20 % 8 = 0 ∨ f.toNat / 2 ^ 23 % 8 = 0)
    let Takes (n : BitVec 12) (P : TrapRec → Prop) : Prop := Completes (.scsrw a n) s fun t =>
      PickStep s t (fun p q => { q with trec := p.trec }) ∧ P t.pick.trec
    let Nested (n : BitVec 12) : Prop := s.pick.parked = false → s.ctx.ended = false → (s.worldAt s.ctx.world).policy.getLsbD 0 = false →
      Completes (.scsrw a n) s fun t => (t.ctxAt s.team.ctx).ended = true ∧ (t.ctxAt s.team.ctx).endCause = 0x02
    (v.toNat % 4 = 0 → Takes 0x105 (fun x => x = { r with tspc := v })) ∧ (v.toNat % 4 ≠ 0 → Nested 0x105) ∧
    (let o := v.toNat / 2 ^ 16 % 2 ^ 10
     (o % 16 = 0 → o ≤ 960 → Takes 0x106 (fun x =>
       x = { r with skip := v.getLsbD 4, ob := BitVec.ofNat 8 (v.toNat / 2 ^ 8) ||| 1, owb := BitVec.ofNat 10 o })) ∧
     (o % 16 ≠ 0 ∨ 960 < o → Nested 0x106)) ∧
    (¬ ok → Nested 0x000) ∧ ((v.toNat / 2 ^ 24 % 4 = 3 ∨ v.toNat / 2 ^ 26 % 4 = 3) → Nested 0x001) ∧
    (ok → Takes 0x107 (fun x => x = { r with tfmtr := f })) ∧ (¬ ok → Nested 0x107) ∧
    (∀ n ∈ ([0x100, 0x101, 0x102, 0x103, 0x104, 0x108, 0x109, 0x10A] : List (BitVec 12)), Takes n (fun x => x = r)) ∧
    ∀ n < 16,
      (n < 8 →
        let live := r.blk = true ∧ (r.tlpc.lookup n).isSome = true
        let lpc := BitVec.ofNat 12 (0x110 + n)
        let lfm := BitVec.ofNat 12 (0x118 + n)
        (¬ live → Takes lpc (fun x => x = r)) ∧
        (live → v.toNat % 12 = 0 → Takes lpc (fun x => { x with tlpc := r.tlpc } = r ∧
          ∀ k, tget 0xFFFFFFFF x.tlpc k = if k = n then v else tget 0xFFFFFFFF r.tlpc k)) ∧
        (live → v.toNat % 12 ≠ 0 → Nested lpc) ∧
        (ok → Takes lfm (fun x => { x with tlfmt := r.tlfmt } = r ∧
          ∀ k, tget 0 x.tlfmt k = if k = n then f else tget 0 r.tlfmt k)) ∧
        (¬ ok → Nested lfm)) ∧
      Completes (.scsrw a (BitVec.ofNat 12 (0x120 + n))) s fun t =>
        PickStep s t (fun p q => { q with trec := p.trec, queue := p.queue }) ∧
        { t.pick.trec with tkf := r.tkf } = r ∧
        (∀ k, tget 0 t.pick.trec.tkf k = if k = n then v else tget 0 r.tkf k) ∧
        t.pick.queue.tail = s.pick.queue.tail ∧
        ∀ b bs, s.pick.queue = b :: bs → ∃ x, t.pick.queue = x :: bs ∧
          (b.started = true ∧ r.blk = true → { x with kWritten := b.kWritten, kPoison := b.kPoison } = b ∧
            ∀ i, x.kWritten.getLsbD i = (b.kWritten.getLsbD i || decide (i = n)) ∧
              x.kPoison.getLsbD i = (b.kPoison.getLsbD i && !decide (i = n))) ∧
          (¬ (b.started = true ∧ r.blk = true) → x = b)) ∧
  ∀ (s : State) (a : BitVec 6) (r : BitVec 12),
    (isCtlReg r.toNat = false → TrapsS (.scsrw a r) s .illOperand s.opc6) ∧
    (isCtxReg r.toNat = true ∨ isTrapReg r.toNat = true → TrapsS (.scsrw a r) s .perm 0) ∧
    (s.regsReady [a] [] = true →
      let v := s.pick.w a
      let f := v &&& 0x07FFFFFF#32
      let fBad := 6 ≤ f.toNat / 2 ^ 16 % 8 ∨ f.toNat / 2 ^ 20 % 8 = 0 ∨ f.toNat / 2 ^ 23 % 8 = 0
      let cBad := v.toNat / 2 ^ 24 % 4 = 3 ∨ v.toNat / 2 ^ 26 % 4 = 3
      (fBad → TrapsS (.scsrw a 0x000) s .illOperand s.opc6) ∧ (cBad → TrapsS (.scsrw a 0x001) s .illOperand s.opc6) ∧
      (¬ fBad →
        Completes (.scsrw a 0x000) s fun t => PickStep s t (fun p q => { q with fmtr := p.fmtr }) ∧ t.pick.fmtr = f) ∧
      (¬ cBad →
        Completes (.scsrw a 0x001) s fun t => PickStep s t (fun p q => { q with tcfg := p.tcfg }) ∧
          t.pick.tcfg = v &&& 0x0FFFFFFF#32) ∧
      (Completes (.scsrw a 0x002) s fun t => PickStep s t (fun p q => { q with seed := p.seed }) ∧ t.pick.seed = v) ∧
      (Completes (.scsrw a 0x004) s fun t => PickStep s t (fun p q => { q with gang := p.gang }) ∧
        t.pick.gang.extractLsb' 0 32 = v ∧ t.pick.gang.extractLsb' 32 32 = s.pick.gang.extractLsb' 32 32) ∧
      (Completes (.scsrw a 0x005) s fun t => PickStep s t (fun p q => { q with gang := p.gang }) ∧
        t.pick.gang.extractLsb' 0 32 = s.pick.gang.extractLsb' 0 32 ∧
        (t.pick.gang.extractLsb' 32 32).toNat = v.toNat % 2 ^ 16) ∧
      (Completes (.scsrw a 0x008) s fun t => PickStep s t (fun p q => { q with fmask := p.fmask }) ∧
        ∀ i, t.pick.fmask.getLsbD i = (s.pick.fmask.getLsbD i && !v.getLsbD i)) ∧
      (Completes (.scsrw a 0x009) s fun t => PickStep s t (fun p q => { q with fmask := p.fmask }) ∧
        ∀ i, t.pick.fmask.getLsbD i = (s.pick.fmask.getLsbD i && !(decide (32 ≤ i) && v.getLsbD (i - 32)))) ∧
      ∀ n ∈ ([0x003, 0x006, 0x007, 0x158, 0x159, 0x15A] : List (BitVec 12)),
        Completes (.scsrw a n) s fun t => ScalarDone s t 0 0 s.nextPc)

/-! ## Traps -/

/-- R269, R417, R422, R423: TRAP in normal mode is delivered with its code in TVAL and TSPC after it; the handler is
entered with an empty queue, and neither memory nor a scalar register changes. -/
def Obligations.TrapEntry : Prop :=
  ∀ (s : State) (c : BitVec 8), s.takesTraps →
    Completes (.trap c) s fun t =>
      TookTrap s t .breakpoint (BitVec.ofNat 64 c.toNat) 0 true s.nextPc ∧ t.pick.trec.tinst = s.inst ∧
      t.pick.hqueue = [] ∧ t.pick.sregs = s.pick.sregs ∧ t.pick.gang = s.pick.gang ∧ t.pick.seed = s.pick.seed ∧
      t.pick.tcfg = s.pick.tcfg ∧ t.pick.fmask = s.pick.fmask ∧ t.pick.queue.map (·.target) = s.pick.queue.map (·.target) ∧
      { t with picks := s.picks, dies := s.dies } = s ∧ ∀ k, k ≠ s.cur → t.pickAt k = s.pickAt k

/-- R270, R427: TRET in trap mode, with the handler queue empty, restores WB, b1 to b7, FMTR and the SPC from the trap
record, and each frozen strand not at LEND from its TLPC and TLFMT; in normal mode it traps with PERM; with handler
blocks queued it stalls. -/
def Obligations.TrapReturn : Prop :=
  ∀ s : State,
    (s.pick.mode = false → TrapsS .tret s .perm 0) ∧
    (s.pick.mode = true → s.pick.hqueue ≠ [] → exec .tret s = .next s) ∧
    (s.pick.mode = true → s.pick.hqueue = [] → Completes .tret s fun t =>
      let r := s.pick.trec
      t.pick.mode = false ∧ t.pick.wb = r.owb ∧ t.pick.fmtr = r.tfmtr ∧ t.pick.spc = r.tspc ∧
      (∀ n, n ≠ 0 → t.pick.b n = r.ob.getLsbD n.toNat) ∧ t.pick.sregs = s.pick.sregs ∧ t.pick.names = s.pick.names ∧
      t.pick.paths = s.pick.paths ∧ t.pick.gang = s.pick.gang ∧ t.pick.seed = s.pick.seed ∧ t.pick.fmask = s.pick.fmask ∧
      (r.blk = false → t.pick.lanes = s.pick.lanes ∧ t.pick.queue = s.pick.queue) ∧
      (r.blk = true → ∀ n < 8, t.pick.lanes.strand n =
        if (s.pick.lanes.strand n).lpc = none then s.pick.lanes.strand n
        else Strand.settle { s.pick.lanes.strand n with lpc := some (tget 0 r.tlpc n), fmtr := tget 0 r.tlfmt n }) ∧
      { t with picks := s.picks, dies := s.dies, wlog := s.wlog } = s ∧ SameLog s t ∧
      ∀ k, k ≠ s.cur → t.pickAt k = s.pickAt k)

/-- A trap and its return (R422, R423, R427): after TRAP in normal mode and TRET the pick goes on after the TRAP with the
scalar registers, predicates, window base and FMTR it had. -/
def Obligations.TrapThenReturn : Prop :=
  ∀ (s t : State) (c : BitVec 8), s.takesTraps → exec (.trap c) s = .next t →
    Completes .tret t fun u =>
      u.pick.mode = false ∧ u.pick.spc = s.nextPc ∧ u.pick.sregs = s.pick.sregs ∧ u.pick.wb = s.pick.wb ∧
      u.pick.fmtr = s.pick.fmtr ∧ (∀ n, u.pick.b n = s.pick.b n) ∧ u.mem = s.mem ∧ u.teams = s.teams

/-- R428, R99: a trap in trap mode of a pick that is not parked ends the context: its state is ended, no pick of its teams is
left, and its unpublished teams wait to publish ENDED_TRAP with the cause. -/
def Obligations.NestedTrapEndsContext : Prop :=
  ∀ (s : State) (c : BitVec 8), s.pick.mode = true → s.pick.parked = false → s.ctx.ended = false →
    (s.worldAt s.ctx.world).policy.getLsbD 0 = false →
    Completes (.trap c) s fun t =>
      (t.ctxAt s.team.ctx).ended = true ∧ (t.ctxAt s.team.ctx).st = 3 ∧ (t.ctxAt s.team.ctx).endStatus = 4 ∧
      (t.ctxAt s.team.ctx).endCause = 0x38 ∧ (t.ctxAt s.team.ctx).faults = [] ∧
      (∀ e ∈ s.teams, e.2.ctx = s.team.ctx → e.2.phase.unpublished = true →
        (t.teamAt e.1).phase = .done 4 ∧ (t.teamAt e.1).picks = []) ∧
      (∃ m : FaultMsg, t.faultLog = s.faultLog ++ [m] ∧ m.toNat % 256 = 2) ∧ t.mem = s.mem

/-- R45, R168, R261: SEXIT, in either mode, of a pick with no lane block of its mode and nothing outstanding on its paths ends
it: its registers are gone, its team goes on with the others, and the team's last pick leaves it waiting to publish. In trap
mode the frozen block and those queued behind it are dropped first, and leave their batches. Before that it waits: with a
block queued, in normal mode with each path's open batch closed once, which a counter of 63 holds up, in trap mode as it is;
and with a batch outstanding on some path. Once none is, a pending cause of the lowest path traps. -/
def Obligations.PickExit : Prop :=
  ∀ s : State,
    -- the pick without its frozen lane blocks, in trap mode
    let u : Pick := if s.pick.mode then { s.pick.queue.foldl Pick.blockLeave s.pick with queue := [], lanes := {} } else s.pick
    let full (p : Pick) : Prop := ∃ n < 8, 63 ≤ (p.path n).counter
    (s.pick.blocks ≠ [] →
      (s.pick.mode = true ∨ (s.pick.closing = false ∧ full s.pick) → exec .sexit s = .next s) ∧
      (s.pick.mode = false → s.pick.closing = false → ¬ full s.pick → Completes .sexit s fun t =>
        PickMoves s t ∧ Closes s.pick t.pick) ∧
      (s.pick.mode = false → s.pick.closing = true → Completes .sexit s fun t => PickMoves s t ∧ t.pick = s.pick)) ∧
    (s.pick.blocks = [] → u.closing = false → ¬ full u →
      (∃ n < 8, ∃ b ∈ (u.path n).closed ++ [(u.path n).opened], ¬ b.complete) → Completes .sexit s fun t =>
        PickMoves s t ∧ Closes u t.pick) ∧
    (s.pick.blocks = [] → u.closing = true → (∃ n < 8, (u.path n).closed ≠ []) → Completes .sexit s fun t =>
      PickMoves s t ∧ t.pick = u) ∧
    (∀ n k c v cs, s.pick.blocks = [] → s.pick.pathsDone = true → n < 8 → (s.pick.path n).causes = (k, c, v) :: cs →
      (∀ m < n, (s.pick.path m).causes = []) → s.takesTraps → Completes .sexit s fun t =>
        TookTrap s t c v 0 true s.pick.spc ∧ (t.pick.path n).causes = cs ∧ t.mem = s.mem ∧
        ∀ m, m ≠ n → (t.pick.path m).causes = (s.pick.path m).causes) ∧
    (s.pick.blocks = [] → u.pathsIdle = true → s.team.phase = .running → s.ctx.st ≠ 1 → Completes .sexit s fun t =>
      t.pickAt s.cur = {} ∧ (∀ k, k ≠ s.cur → t.pickAt k = s.pickAt k) ∧ t.mem = s.mem ∧
      (t.teamAt s.pick.team).picks = s.team.picks.filter (· != s.cur) ∧
      (t.teamAt s.pick.team).phase = (if s.team.picks.filter (· != s.cur) ≠ [] then .running
        else if s.team.fpicks = 0 ∧ s.pick.fmask = 0 then .done 1 else .done 2) ∧
      (t.teamAt s.pick.team).flanes = s.team.flanes ||| s.pick.fmask.setWidth 32 ||| s.pick.fmask.extractLsb' 32 32 ∧
      ∀ k, k ≠ s.pick.team → t.teamAt k = s.teamAt k)

/-- R393: RETIRE of a pick with no lane block, nothing on its paths and a legal record arrives at the latch and waits
there; it checks the record's alignment and place. In trap mode its PERM is a nested trap, which ends the context (R262,
R428). -/
def Obligations.RetireArrives : Prop :=
  (∀ (s : State) (a b : BitVec 6) (pas : List Nat) (m : Nat), s.pick.mode = false → s.regsReady [a, b] [] = true →
     let n := (s.pick.w b).toNat
     let u := s.coverBlocks
     let x := u.readScr u.scalarAgent s.pick.team n 64
     let v := u.noteLook u u.scalarAgent .plain false (scrCells s.pick.team n 64)
     let e := v.readPas v.scalarAgent pas
     (n % 64 ≠ 0 → TrapsS (.retire a b) s .misalign (BitVec.ofNat 64 n)) ∧
     (n % 64 = 0 → s.team.inRange n 64 = false → TrapsS (.retire a b) s .bounds (BitVec.ofNat 64 n)) ∧
     (n % 64 = 0 → s.team.inRange n 64 = true → s.pick.blocks ≠ [] → exec (.retire a b) s = .next s) ∧
     (n % 64 = 0 → s.team.inRange n 64 = true → u.settled u.scalarAgent = true → x = rdNat s.team.scratch n 64) ∧
     (n % 64 = 0 → s.team.inRange n 64 = true → s.pick.blocks = [] → s.team.scratchBad n 64 = false →
       inhBad x (lrTiles s.team.lr) = false → (s.pick.w a).toNat < lrNsucc s.team.lr → x.testBit 48 = false →
       v.resolve v.ctx rightR (lrSucctab s.team.lr + 16 * (s.pick.w a).toNat) 16 = .ok (pas, m) →
       s.poisoned pas = false → succBad e = false → s.pick.pathsIdle = true →
       Completes (.retire a b) s fun t => Mended s t pas ∧ Touched s t s.team.ctx m ∧ t.teams = s.teams ∧
         t.pick.spc = s.pick.spc ∧ t.pick.sregs = s.pick.sregs ∧ (∀ k, k ≠ s.cur → t.pickAt k = s.pickAt k) ∧
         t.pick.wait = .latch (s.pick.w a) (s.pick.w b) (s.inst.setWidth 32) x (e % 2 ^ 56))) ∧
  ∀ (s : State) (a b : BitVec 6), s.pick.mode = true → s.pick.parked = false → s.ctx.ended = false →
    (s.worldAt s.ctx.world).policy.getLsbD 0 = false →
    Completes (.retire a b) s fun t => (t.ctxAt s.team.ctx).ended = true ∧ (t.ctxAt s.team.ctx).endCause = 0x1A

/-! ## Engine commands -/

/-- R263 to R265, R331, R334, R378, R392: a COP that passes its checks puts one operation in flight, with its operands,
descriptor copy, snapshots and the slot bindings of that moment, counted in the open batch of its path; SS.PEEK is
answered as it is accepted; SEED advances when the snapshot rounds stochastically. Not blocking, it writes the issue reply
to w(d) and goes on; blocking, it waits. -/
def Obligations.CopIssue : Prop :=
  ∀ (s : State) (d a b : BitVec 6) (blk : BitVec 1), ∀ e ∈ copForms d a b blk,
    let o := s.copOf e.2.1 a e.2.2 blk
    (∀ x n, s.copPlace e.2.1 a e.2.2 = some (x, n) → s.team.inRange x n = true → s.settled s.scalarAgent = true →
      o.desc = if (copRecord e.2.1).2.2 = true then rdNat s.team.scratch x n else 0) ∧
    (s.copReady e.2.1 d a e.2.2 blk = true →
    Completes e.1 s fun t =>
      let coll := e.2.1 = 0x30 ∨ e.2.1 = 0x31
      let reply := if coll then tget 0 s.ctx.cseq (o.desc % 2 ^ 12) else 0
      (∃ o' : Op, t.ops = (if e.2.1 = 0x41 then s.peekAnswer.2.ops else s.ops) ++ [(s.nextOp, o')] ∧
        t.nextOp = s.nextOp + 1 ∧
        { o' with phase := o.phase, ord := o.ord, cseq := o.cseq, ids := o.ids, binds := o.binds, told := o.told } = o ∧
        o'.cseq = reply ∧ o'.phase = (if e.2.1 = 0x11 then .latched else .queued) ∧
        o'.told = (if e.2.1 = 0x41 then s.peekAnswer.1 else 0) ∧
        ∀ n x, (n, x) ∈ o'.binds ↔ n < 8 ∧ s.team.refs.getLsbD n = true ∧
          (s.slotAt s.team.die s.team.loom n).loading = none ∧ (s.slotAt s.team.die s.team.loom n).bound = some x) ∧
      t.mem = s.mem ∧
      (∀ k, (t.teamAt k).scratch = (s.teamAt k).scratch ∧ (t.teamAt k).tiles = (s.teamAt k).tiles) ∧
      t.pick.seed = (if s.pick.fmtr.toNat / 2 ^ 16 % 8 = 5 then seedStep s.pick.seed else s.pick.seed) ∧
      t.pick.path o.path = { s.pick.path o.path with
        opened := { (s.pick.path o.path).opened with ops := (s.pick.path o.path).opened.ops + 1 } } ∧
      (∀ n, n ≠ o.path → t.pick.path n = s.pick.path n) ∧
      (if blk = 1 then
        t.pick.spc = s.pick.spc ∧ t.pick.sregs = s.pick.sregs ∧
        t.pick.wait = .cop s.nextOp (if d = 0 then none else some (s.pick.abs d)) s.nextPc
      else t.pick.spc = s.nextPc ∧ t.pick.wait = s.pick.wait ∧ s.pick.wrote t.pick d (BitVec.ofNat 32 reply)))

/-- R330, R332, R421: the issue-time checks of a COP in their order: the place of its record or answer is aligned, then
in range, then the lowest failing field is named; nothing is put in flight. A COP whose engine does not accept it, or
that names a format slot being bound, stalls (R233, R254, R334, R499): nothing changes. The order between stalls and
descriptor checks is the model's reading (assumption log 25). -/
def Obligations.CopChecks : Prop :=
  ∀ (s : State) (d a b : BitVec 6) (blk : BitVec 1), ∀ e ∈ copForms d a b blk, s.regsReady [a, e.2.2] [d] = true →
    let o := s.copOf e.2.1 a e.2.2 blk
    (s.pick.drains (copPath e.2.1) = true ∨ s.queueFull e.2.1 = true ∨ s.codesWait o = true → exec e.1 s = .next s) ∧
    (s.pick.drains (copPath e.2.1) = false → s.queueFull e.2.1 = false → s.codesWait o = false →
     (∀ x n, s.copPlace e.2.1 a e.2.2 = some (x, n) →
       (x % n ≠ 0 → TrapsS e.1 s .misalign (BitVec.ofNat 64 x)) ∧
       (x % n = 0 → s.team.inRange x n = false → TrapsS e.1 s .bounds (BitVec.ofNat 64 x)) ∧
       (x % n = 0 → s.team.inRange x n = true → s.team.scratchBad x n = false →
         ∀ f, firstBad (s.copFields o) = some f → TrapsS e.1 s .illOperand (BitVec.ofNat 64 f))) ∧
     ∀ t, s.copPlace e.2.1 a e.2.2 = none → s.copOperandBad o = some t → firstBad (s.copFields o) = none →
       TrapsS e.1 s t 0)

/-- R52, R234, R235: with frame checking on, an S-stream instruction that names a register of an uncovered capture window traps
with FRAME_HAZARD and that register; otherwise one that reads a poisoned register traps with DATA_POISON, whose TVAL is the
model's choice (assumption log 60). With it off, a read
of such a register gives its value before or after the copy-back, and a write stands or is replaced by it; SADD goes on. -/
def Obligations.RegisterFaults : Prop :=
  (∀ (s : State) (d a b : BitVec 6) (i : BitVec 14) (j : BitVec 20) (o : BitVec 7) (n : BitVec 3) (x : BitVec 8)
      (c : BitVec 12) (ord scp : BitVec 3) (rmt blk : BitVec 1), s.pick.mode = false →
     ∀ e ∈ scalarForms d a b i j o n x c ord scp rmt blk, e.2.2.2 →
     (∀ r, s.frameHit (e.2.1 ++ e.2.2.1) = some r → s.chk 0 = true ∧ s.pick.inWindow (s.pick.abs r) = true ∧
       TrapsS e.1 s .frameHazard (BitVec.ofNat 64 (s.pick.abs r))) ∧
     ∀ r, s.frameHit (e.2.1 ++ e.2.2.1) = none → s.poisonHit e.2.1 = some r → s.pick.abs r ∈ s.pick.spoison ∧
       TrapsS e.1 s .dataPoison (BitVec.ofNat 64 r.toNat)) ∧
  ∀ (s : State) (d a b : BitVec 6), s.frameHit [a, b, d] = none → s.poisonHit [a, b] = none →
    Completes (.sadd d a b) s fun t => t.pick.spc = s.nextPc ∧ OnlyPick s t ∧
      ∃ x y : Word, (x = s.pick.w a ∨ s.pick.priorOf (s.pick.abs a) = some x) ∧
        (y = s.pick.w b ∨ s.pick.priorOf (s.pick.abs b) = some y) ∧
        ∀ n, tget 0 t.pick.sregs n = (if d ≠ 0 ∧ n = s.pick.abs d then x + y else tget 0 s.pick.sregs n) ∨
          (tget 0 t.pick.sregs n = tget 0 s.pick.sregs n ∧ n = s.pick.abs d ∧ (s.pick.priorOf n).isSome)

/-! ## Lane instructions -/

/-- R277, R272: each integer instruction writes the stated function of its sources to the active lanes of its destination,
four clks on, or six for a product; SAT wraps or clamps. -/
def Obligations.LaneInteger : Prop :=
  ∀ (s : State) (h : Hd) (d : BitVec 8) (a b c : Src) (sat : BitVec 2) (sat1 : BitVec 1), sat ≠ 3 → ∀ e ∈ ([
    (.vadd h d a b sat, [a, b], 4, fun _ v =>
      saturated sat ((v 0).toInt + (v 1).toInt) ((v 0).toNat + (v 1).toNat)),
    (.vsub h d a b sat, [a, b], 4, fun _ v =>
      saturated sat ((v 0).toInt - (v 1).toInt) ((v 0).toNat - (v 1).toNat)),
    (.vmul h d a b, [a, b], 6, fun _ v => BitVec.ofInt 32 ((v 0).toInt * (v 1).toInt)),
    (.vmulh h d a b, [a, b], 6, fun _ v => BitVec.ofInt 32 ((v 0).toInt * (v 1).toInt / 2 ^ 32)),
    (.vmulhu h d a b, [a, b], 6, fun _ v => BitVec.ofNat 32 ((v 0).toNat * (v 1).toNat / 2 ^ 32)),
    (.vmad h d a b c sat, [a, b, c], 6, fun _ v =>
      saturated sat ((v 0).toInt * (v 1).toInt + (v 2).toInt) ((v 0).toNat * (v 1).toNat + (v 2).toNat)),
    (.vmin h d a b, [a, b], 4, fun _ v => BitVec.ofInt 32 (min (v 0).toInt (v 1).toInt)),
    (.vmax h d a b, [a, b], 4, fun _ v => BitVec.ofInt 32 (max (v 0).toInt (v 1).toInt)),
    (.vminu h d a b, [a, b], 4, fun _ v => BitVec.ofNat 32 (min (v 0).toNat (v 1).toNat)),
    (.vmaxu h d a b, [a, b], 4, fun _ v => BitVec.ofNat 32 (max (v 0).toNat (v 1).toNat)),
    (.vabs h d a sat1, [a], 4, fun _ v => saturated (sat1.setWidth 2) |(v 0).toInt| 0),
    (.vneg h d a sat1, [a], 4, fun _ v => saturated (sat1.setWidth 2) (-(v 0).toInt) 0)] :
    List (Instr × List Src × Nat × (Nat → (Nat → Word) → Word))), LaneDoes s h d e

/-- R281 to R283: logic, shifts, counts, bit fields, byte permutes and carry-less products. -/
def Obligations.LaneBits : Prop :=
  ∀ (s : State) (h : Hd) (d : BitVec 8) (a b c : Src) (n pos len : BitVec 5) (sel : BitVec 16) (sgn : BitVec 1),
    let field (x : Word) (p l : Nat) : Nat := x.toNat / 2 ^ p % 2 ^ l
    let extract (x : Word) (p l : Nat) : Word :=
      if sgn = 1 ∧ l < 32 ∧ 2 ^ (l - 1) ≤ field x p l then BitVec.ofInt 32 (field x p l - 2 ^ l)
      else BitVec.ofNat 32 (field x p l)
    let insert (x y : Word) (p l : Nat) : Word :=
      let m := BitVec.ofNat 32 ((2 ^ l - 1) * 2 ^ p)
      (y &&& ~~~m) ||| (BitVec.ofNat 32 (x.toNat * 2 ^ p) &&& m)
    let permute (x y : Word) (g : Nat → Nat) : Word :=
      BitVec.ofNat 32 (((List.range 4).map (fun k =>
        (if 8 ≤ g k then 0 else (x.toNat + y.toNat * 2 ^ 32) / 2 ^ (8 * g k) % 2 ^ 8) * 2 ^ (8 * k))).sum)
    let carryless (x y : Word) (k : Nat) : Bool :=
      (List.range (k + 1)).foldl (fun p j => p ^^ (x.getLsbD j && y.getLsbD (k - j))) false
    ∀ e ∈ ([
    (.vand h d a b, [a, b], 4, fun _ v => v 0 &&& v 1),
    (.vor h d a b, [a, b], 4, fun _ v => v 0 ||| v 1),
    (.vxor h d a b, [a, b], 4, fun _ v => v 0 ^^^ v 1),
    (.vandn h d a b, [a, b], 4, fun _ v => v 0 &&& ~~~v 1),
    (.vshl h d a b n 0, [a, b], 4, fun _ v => BitVec.ofNat 32 ((v 0).toNat * 2 ^ ((v 1).toNat % 32))),
    (.vshl h d a b n 1, [a], 4, fun _ v => BitVec.ofNat 32 ((v 0).toNat * 2 ^ n.toNat)),
    (.vshr h d a b n 0, [a, b], 4, fun _ v => BitVec.ofNat 32 ((v 0).toNat / 2 ^ ((v 1).toNat % 32))),
    (.vshr h d a b n 1, [a], 4, fun _ v => BitVec.ofNat 32 ((v 0).toNat / 2 ^ n.toNat)),
    (.vsra h d a b n 0, [a, b], 4, fun _ v => BitVec.ofInt 32 ((v 0).toInt / 2 ^ ((v 1).toNat % 32))),
    (.vsra h d a b n 1, [a], 4, fun _ v => BitVec.ofInt 32 ((v 0).toInt / 2 ^ n.toNat)),
    (.vclz h d a, [a], 6, fun _ v => BitVec.ofNat 32 (if v 0 = 0 then 32 else 31 - Nat.log2 (v 0).toNat)),
    (.vpopc h d a, [a], 6, fun _ v =>
      BitVec.ofNat 32 (Finset.univ.filter (fun i : Fin 32 => (v 0).getLsbD i = true)).card),
    (.vbrev h d a, [a], 6, fun _ v => BitVec.ofFnLE (fun k : Fin 32 => (v 0).getLsbD (31 - k.val))),
    (.vbfx h d a b pos len sgn 0, [a], 6, fun _ v => extract (v 0) pos.toNat (len.toNat + 1)),
    (.vbfx h d a b 0 0 sgn 1, [a, b], 6, fun _ v => extract (v 0) ((v 1).toNat % 32) ((v 1).toNat / 256 % 32 + 1)),
    (.vbfi h d a b c pos len 0, [a, b], 6, fun _ v => insert (v 0) (v 1) pos.toNat (len.toNat + 1)),
    (.vbfi h d a b c 0 0 1, [a, b, c], 6, fun _ v =>
      insert (v 0) (v 1) ((v 2).toNat % 32) ((v 2).toNat / 256 % 32 + 1)),
    (.vprmb h d a b c sel 1, [a, b], 6, fun _ v => permute (v 0) (v 1) (fun k => sel.toNat / 2 ^ (4 * k) % 16)),
    (.vprmb h d a b c 0 0, [a, b, c], 6, fun _ v =>
      permute (v 0) (v 1) (fun k => (v 2).toNat / 2 ^ (8 * k) % 16)),
    (.vclmul h d a b, [a, b], 6, fun _ v => BitVec.ofFnLE (fun k : Fin 32 => carryless (v 0) (v 1) k.val)),
    (.vclmulh h d a b, [a, b], 6, fun _ v => BitVec.ofFnLE (fun k : Fin 32 => carryless (v 0) (v 1) (32 + k.val)))] :
    List (Instr × List Src × Nat × (Nat → (Nat → Word) → Word))), LaneDoes s h d e

/-- R278, R279, R288, R274: comparisons, PSET and PMK into a lane predicate, the predicate instructions over lane
predicates read at issue, and VSEL. A VICMP word with CC 6 or 7 decodes to ILL_OPCODE. -/
def Obligations.LanePredicates : Prop :=
  (∀ w : BitVec 96, w.extractLsb' 86 10 = 0x00D#10 → 6 ≤ (w.extractLsb' 0 3).toNat → decodeLane w = .illOpcode) ∧
  ∀ (s : State) (h : Hd) (d : BitVec 8) (p q r : BitVec 3) (nq nr : BitVec 1) (a b : Src),
    (∀ e ∈ ([
      (.vicmp h p a b 0, [a, b], 4, fun _ v => v 0 = v 1), (.vicmp h p a b 1, [a, b], 4, fun _ v => v 0 ≠ v 1),
      (.vicmp h p a b 2, [a, b], 4, fun _ v => (v 0).toInt < (v 1).toInt),
      (.vicmp h p a b 3, [a, b], 4, fun _ v => (v 0).toInt ≥ (v 1).toInt),
      (.vicmp h p a b 4, [a, b], 4, fun _ v => (v 0).toNat < (v 1).toNat),
      (.vicmp h p a b 5, [a, b], 4, fun _ v => (v 0).toNat ≥ (v 1).toNat),
      (.pset h p a 0, [], 2, fun _ _ => False), (.pset h p a 1, [], 2, fun _ _ => True),
      (.pset h p a 2, [a], 2, fun _ v => (v 0).toNat % 2 = 1), (.pset h p a 3, [a], 2, fun _ v => v 0 ≠ 0),
      (.pmk h p a, [a], 2, fun i v => (v 0).getLsbD i = true)] :
      List (Instr × List Src × Nat × (Nat → (Nat → Word) → Prop))), PredDoes s h p [] e) ∧
    (let A (i : Nat) : Prop := s.predLane 10 q.toNat i = (nq == 0)
     let B (i : Nat) : Prop := s.predLane 11 r.toNat i = (nr == 0)
     ∀ e ∈ ([
      (.pand h p q nq r nr, [], 2, fun i _ => A i ∧ B i), (.por h p q nq r nr, [], 2, fun i _ => A i ∨ B i),
      (.pxor h p q nq r nr, [], 2, fun i _ => ¬ (A i ↔ B i))] :
      List (Instr × List Src × Nat × (Nat → (Nat → Word) → Prop))), PredDoes s h p [q.toNat, r.toNat] e) ∧
    PredDoes s h p [q.toNat] (.pnot h p q, [], 2, fun i _ => s.predLane 10 q.toNat i = false) ∧
    (s.laneFit h [q.toNat] [a, b] (destOf d) = true → Completes (.vsel h d a b q nq) s fun t =>
      LaneWrote s t h (destOf d) [a, b] 4
        (fun i => if s.predLane 10 q.toNat i = (nq == 0) then s.srcVal [a, b] i 0 else s.srcVal [a, b] i 1))

/-- R216, R280: the instructions that the AZK-12 does not provide trap with UNIMPL_OPT, also with no lane active, and
an unallocated word of either stream traps with ILL_OPCODE (R215, R421). -/
def Obligations.NotProvided : Prop :=
  ∀ (s : State) (h : Hd) (d : BitVec 8) (a b c : Src) (m : BitVec 19),
    (∀ i ∈ ([.vdiv h d a b c m, .vdivu h d a b c m, .vrem h d a b c m, .vremu h d a b c m] : List Instr),
      TrapsL i s .unimplOpt (BitVec.ofNat 64 (s.inst.toNat / 2 ^ 86)) (s.lanesActive h.pi h.pn)) ∧
    TrapsL (.unallocatedEncoding true) s .illOpcode (BitVec.ofNat 64 (s.inst.toNat / 2 ^ 86)) 0 ∧
    (s.pick.mode = false → TrapsS (.unallocatedEncoding false) s .illOpcode (BitVec.ofNat 64 (s.inst.toNat / 2 ^ 26 % 64)))

/-- R102, R103, R218: with no result pending on it, a source delivers to lane i the word that its pattern names: of its own
lane, shifted, from one lane, by exclusive or, within its group of four, or with zeros shifted in; vz delivers 0 and a
k-register the same word to every lane. Pattern 7, which no decoded instruction holds, delivers the own lane by the model's
choice (assumption log 60). -/
def Obligations.LaneSources : Prop :=
  ∀ (s : State) (k : Nat) (f : Src) (i : Nat), i < 32 →
    let q := f.prm.toNat
    (f.reg.toNat < 239 → s.pick.pendingOn (.vreg f.reg.toNat) = [] →
      let v := (s.pick.name f.reg.toNat).val
      (f.pat = 0 ∨ f.pat = 7 → s.permRead k f 0 i = tget 0 v i) ∧
      (f.pat = 1 → s.permRead k f 0 i = tget 0 v ((i + 32 - q) % 32)) ∧
      (f.pat = 2 → s.permRead k f 0 i = tget 0 v q) ∧
      (f.pat = 3 → s.permRead k f 0 i = tget 0 v (i ^^^ q)) ∧
      (f.pat = 4 → s.permRead k f 0 i = tget 0 v (i ^^^ (2 ^ q - 1))) ∧
      (f.pat = 5 → s.permRead k f 0 i = tget 0 v (4 * (i / 4) + q % 4)) ∧
      (f.pat = 6 → s.permRead k f 0 i = if i < q then 0 else tget 0 v (i - q))) ∧
    (f.reg.toNat = 239 → s.permRead k f 0 i = 0) ∧
    (239 < f.reg.toNat → s.pick.pendingOn (.kreg (f.reg.toNat - 240)) = [] →
      s.permRead k f 0 i = s.pick.k (f.reg.toNat - 240))

/-- R284 to R287: VMOV and VMOVI; VMOVRX and VMOVXR issue once every fixed-latency write has taken effect. VMOVRX
delivers the register and lane that its source's data names; VMOVXR writes, eight clks on, the lane of the register that
its first source's data names, and frees no name beyond its last-read bits. -/
def Obligations.LaneMoves : Prop :=
  ∀ (s : State) (h : Hd) (d : BitVec 8) (a b : Src) (imm : Word),
    LaneDoes s h d (.vmov h d a, [a], 4, fun _ v => v 0) ∧ LaneDoes s h d (.vmovi h d imm, [], 4, fun _ _ => imm) ∧
    let u := s.serialise
    let m := u.lanesActive h.pi h.pn
    let g (i : Nat) : Nat := (u.srcVal [a, b] i 0).toNat % 256
    let j (i : Nat) : Nat := (u.srcVal [a, b] i 0).toNat / 256 % 32
    (u.laneFit h [] [a] (destOf d) = true →
      (∀ i ∈ lanesOf m, u.indirectPending (g i) = false ∧ u.indirectBad (g i) (j i) = false) →
      Completes (.vmovrx h d a) s fun t => LaneWrote u t h (destOf d) [a] 8 (fun i =>
        if g i < 239 then tget 0 (u.pick.name (g i)).val (j i) else if g i = 239 then 0 else u.pick.k (g i - 240))) ∧
    (let ls := (lanesOf m).filter (fun i => decide (g i < 239))
     u.laneReady h.pi h.pn [] [(a, 1), (b, 1)] = true →
     (u.shortBank ((freedBy [(a, 1), (b, 1)]).foldl Pick.freeName u.pick) (ls.map g).dedup).isNone = true →
     Completes (.vmovxr h a b) s fun t =>
      LaneFrame u t m ∧ StrandsMove u t nextL ∧ t.pick.nextLane = u.pick.clk + max h.stall.toNat 1 ∧
      { t.pick with names := u.pick.names, pending := u.pick.pending, pseq := u.pick.pseq, lanes := u.pick.lanes,
                    hlanes := u.pick.hlanes, nextLane := u.pick.nextLane, parkWant := u.pick.parkWant } = u.pick ∧
      NamesAfter u.pick t.pick [(a, 1), (b, 1)] (ls.map g) m ∧
      ∃ new, PendingAfter u t [(a, 1), (b, 1)] new ∧ new.length = (ls.map g).dedup.length ∧
        (∀ r ∈ new, r.isVar = false ∧ u.pick.clk + 8 ≤ r.due ∧ ∃ n, n < 239 ∧ r.dest = .vreg n ∧
          ∀ i, r.mask.getLsbD i = true ↔ i ∈ ls ∧ g i = n) ∧
        ∀ i ∈ ls, ∃ r ∈ new, r.dest = .vreg (g i) ∧ tget 0 r.vals i = u.srcVal [a, b] i 1)

/-- R290 to R292: the cross-lane instructions work over the active lanes alone, in ascending order: votes, reductions from
the identity of the operation, prefix forms of them, and reads of a lane that data names. -/
def Obligations.CrossLane : Prop :=
  ∀ (s : State) (h : Hd) (d : BitVec 8) (q : BitVec 3) (nq : BitVec 1) (a b : Src),
    let m := s.lanesActive h.pi h.pn
    let yes (i : Nat) : Bool := s.predLane 10 q.toNat i == (nq == 0)
    (s.laneFit h [q.toNat] [] (destOf d) = true →
      (Completes (.vote h d q nq 0) s fun t => ∃ w : Word, (∀ i < 32, w.getLsbD i = (m.getLsbD i && yes i)) ∧
        LaneWrote s t h (destOf d) [] 10 (fun _ => w)) ∧
      (Completes (.vote h d q nq 1) s fun t =>
        LaneWrote s t h (destOf d) [] 10 (fun _ => if ∃ i ∈ lanesOf m, yes i = true then 1 else 0)) ∧
      (Completes (.vote h d q nq 2) s fun t =>
        LaneWrote s t h (destOf d) [] 10 (fun _ => if ∀ i ∈ lanesOf m, yes i = true then 1 else 0)) ∧
      (Completes (.vote h d q nq 3) s fun t =>
        LaneWrote s t h (destOf d) [] 10 (fun _ => BitVec.ofNat 32 ((lanesOf m).filter yes).length))) ∧
    (let least (x y : Word) : Word := if (fp32 y).below (fp32 x) then y else x
     let most (x y : Word) : Word := if (fp32 x).below (fp32 y) then y else x
     let float (f : Word → Word → Word) (x y : Word) : Word :=
       if (fp32 x).isNan ∨ (fp32 y).isNan then 0x7FC00000 else f x y
     ∀ e ∈ ([
      (0, 0, fun x y => BitVec.ofNat 32 (x.toNat + y.toNat)),
      (1, 0x7FFFFFFF, fun x y => BitVec.ofInt 32 (min x.toInt y.toInt)),
      (2, 0x80000000, fun x y => BitVec.ofInt 32 (max x.toInt y.toInt)),
      (3, 0xFFFFFFFF, fun x y => BitVec.ofNat 32 (min x.toNat y.toNat)),
      (4, 0, fun x y => BitVec.ofNat 32 (max x.toNat y.toNat)),
      (5, 0xFFFFFFFF, fun x y => x &&& y), (6, 0, fun x y => x ||| y), (7, 0, fun x y => x ^^^ y),
      (8, 0x80000000, float (fun x y => roundFp32 ((fp32 x).add (fp32 y)))),
      (9, 0x7F800000, float least), (10, 0xFF800000, float most)] : List (BitVec 4 × Word × (Word → Word → Word))),
      let run (l : List Nat) : Word := l.foldl (fun acc i => e.2.2 acc (s.srcVal [a] i 0)) e.2.1
      s.laneFit h [] [a] (destOf d) = true →
        (Completes (.vredk h d a e.1) s fun t => LaneWrote s t h (destOf d) [a] 10 (fun _ => run (lanesOf m))) ∧
        (d.toNat ≤ 239 →
          (Completes (.vscan h d a e.1 0) s fun t =>
            LaneWrote s t h (destOf d) [a] 10 (fun i => run ((lanesOf m).filter (· ≤ i)))) ∧
          Completes (.vscan h d a e.1 1) s fun t =>
            LaneWrote s t h (destOf d) [a] 10 (fun i => run ((lanesOf m).filter (· < i))))) ∧
    (s.laneFit h [] [a, b] (destOf d) = true → (a.reg.toNat < 239 → (s.pick.name a.reg.toNat).poison = 0) →
      Completes (.vlane h d a b) s fun t =>
        LaneWrote s t h (destOf d) [a, b] 10 (fun i => s.permRead 1 a 0 ((s.permRead 0 b 0 i).toNat % 32)))

/-- R54 to R57, R293 to R296: VBR, VJMP and VCALL move each strand of the fragment by the addresses its lanes choose: to
the one address, or to the first group's with the reconvergence entry and the other groups pushed; VCALL leaves LPC + 12
in the called lanes. Bad landing targets trap before any lane moves; so do groups that differ where U and uniformity
checking ask for one, and pushes beyond 32 entries. TMASK and TVAL of the UNIFORM trap are the model's reading (assumption
log 20). -/
def Obligations.LaneTransfers : Prop :=
  ∀ (s : State) (h : Hd) (d : BitVec 8) (a : Src) (rcv : BitVec 12) (u : BitVec 1),
    (∀ (p0 p1 p2 p3 : BitVec 4) (t0 t1 t2 t3 : BitVec 12) (np : BitVec 2) (st : BitVec 4),
      let pairs := (([(p0, t0), (p1, t1), (p2, t2), (p3, t3)] : List (BitVec 4 × BitVec 12)).take (np.toNat + 1)).map
        (fun e => (e.1, BitVec.ofInt 32 (s.lpc.toNat + 12 * e.2.toInt)))
      let fall : Word := s.lpc + 12
      let choice (i : Nat) : Word := (((pairs.zipIdx).find? (fun e =>
        s.predLane (10 + e.2) (e.1.1.toNat % 8) i != e.1.1.getLsbD 3)).map (fun e => e.1.2)).getD fall
      let groups (n : Nat) := laneGroups n (s.pick.ls.strand n).mask ((pairs.map (·.2) ++ [fall]).eraseDups) choice
      s.laneReady 0 0 (pairs.map (fun e => e.1.toNat % 8)) [] = true → s.overflowing groups = [] →
      (u = 1 → s.chk 2 = true → differ (s.fragment.members.map groups) = false) →
      Completes (.vbr st p0 p1 p2 p3 t0 t1 t2 t3 rcv np u) s fun t =>
        LaneResult s t st (s.lanesActive 0 0) [] none 0 (fun _ => 0)
          (fun n x => x.diverge (BitVec.ofInt 32 (s.lpc.toNat + 12 * rcv.toInt)) (groups n)) s.pick.seed) ∧
    (∀ (p0 p1 p2 p3 : BitVec 4) (t0 t1 t2 t3 : BitVec 12) (np : BitVec 2) (st : BitVec 4),
      let pairs := (([(p0, t0), (p1, t1), (p2, t2), (p3, t3)] : List (BitVec 4 × BitVec 12)).take (np.toNat + 1)).map
        (fun e => (e.1, BitVec.ofInt 32 (s.lpc.toNat + 12 * e.2.toInt)))
      let fall : Word := s.lpc + 12
      let choice (i : Nat) : Word := (((pairs.zipIdx).find? (fun e =>
        s.predLane (10 + e.2) (e.1.1.toNat % 8) i != e.1.1.getLsbD 3)).map (fun e => e.1.2)).getD fall
      let groups (n : Nat) := laneGroups n (s.pick.ls.strand n).mask ((pairs.map (·.2) ++ [fall]).eraseDups) choice
      let uneven := u = 1 ∧ s.chk 2 = true ∧ differ (s.fragment.members.map groups) = true
      let i : Instr := .vbr st p0 p1 p2 p3 t0 t1 t2 t3 rcv np u
      s.laneReady 0 0 (pairs.map (fun e => e.1.toNat % 8)) [] = true →
        (uneven → TrapsL i s .uniform 0 (s.lanesActive 0 0)) ∧
        (¬ uneven → s.overflowing groups ≠ [] → TrapsL i s .rstackOvf
          (BitVec.ofNat 64 (maskOf (s.overflowing groups))) (s.pick.ls.lanesOf (s.overflowing groups)))) ∧
    (∀ (lanes : BitVec 4) (n : Nat) (order : List Word) (choose : Nat → Word), order.Nodup →
      ∀ j < 4, lanes.getLsbD j = true → choose (4 * n + j) ∈ order →
        ∀ g ∈ laneGroups n lanes order choose, (g.2.getLsbD j = true ↔ g.1 = choose (4 * n + j))) ∧
    (∀ (x : Strand) (r c : Word) (m m' : BitVec 4) (rest : List (Word × BitVec 4)),
      x.diverge r [(c, m)] = { x with lpc := some c } ∧
      ∀ c', x.diverge r ((c, m) :: (c', m') :: rest) = { x with
        lpc := some c, mask := m, rca := some r
        stack := ((c', m') :: rest).map (fun g => ⟨some g.1, g.2, some r, x.fmtr⟩) ++
          ⟨some r, x.mask, x.rca, x.fmtr⟩ :: x.stack }) ∧
    (let w := s.noteLatent [(a, 1)]
     let m := s.lanesActive h.pi h.pn
     let tgt (i : Nat) : Word := s.srcVal [a] i 0
     -- the landing checks touch the dies of what they read (R485)
     let v := s.touchDies s.team.ctx (w.landingDies tgt m)
     let groups := w.jumpGroups m tgt
     s.laneReady h.pi h.pn [] [(a, 1)] = true →
     ((∀ i ∈ lanesOf m, w.landingOf (tgt i) = .ok none) → w.overflowing groups = [] →
        (u = 1 → s.chk 2 = true → differ (s.fragment.members.map groups) = false) →
        (Completes (.vjmp h a rcv u) s fun t =>
          LaneResult v t h.stall m [(a, 1)] none 0 (fun _ => 0)
            (fun n x => x.diverge (BitVec.ofInt 32 (s.lpc.toNat + 12 * rcv.toInt)) (groups n)) s.pick.seed) ∧
        (s.hasRoom m [(a, 1)] (destNames (destOf d)) = true → d.toNat ≤ 239 →
          Completes (.vcall h d a 0 u 1) s fun t =>
            LaneResult v t h.stall m [(a, 1)] (destOf d) 4 (fun _ => s.lpc + 12)
              (fun n x => x.diverge (s.lpc + 12) (groups n)) s.pick.seed)) ∧
     ∀ bad, w.landingAll tgt (lanesOf m) = .ok bad → bad ≠ [] → ∀ i ∈ [Instr.vjmp h a rcv u, .vcall h d a 0 u 1],
       TrapsL i s .landing (BitVec.ofNat 64 (maskOf (bad.map (·.2)))) (BitVec.ofNat 32 (maskOf (bad.map (·.1))))) ∧
    (∀ off : BitVec 12,
      let m := s.lanesActive h.pi h.pn
      let groups := s.jumpGroups m (fun _ => BitVec.ofInt 32 (s.lpc.toNat + 12 * off.toInt))
      s.laneFit h [] [] (destOf d) = true → s.overflowing groups = [] → d.toNat ≤ 239 →
      Completes (.vcall h d a off 0 0) s fun t =>
        LaneResult s t h.stall m [] (destOf d) 4 (fun _ => s.lpc + 12)
          (fun n x => x.diverge (s.lpc + 12) (groups n)) s.pick.seed) ∧
    ∀ t : Word, t.toNat % 12 ≠ 0 → s.landingOf t = .ok (some 0)

/-- R58, R60, R68, R297 to R300: VLAND and VNOP only go on; SAFEPT restarts the distance count and leaves its index; REGANG
goes on with one live fragment and waits otherwise; LEND takes its active lanes out of every mask of their strands: a strand
with a lane left goes on in sequence, one with none pops its stack or ends, and those outside the fragment stay. -/
def Obligations.LaneSequence : Prop :=
  ∀ (s : State) (h : Hd) (st : BitVec 4) (idx : BitVec 16),
    let l := s.pick.ls
    let one := (l.frags.filter l.fragLive).length ≤ 1
    (Completes (.vland st) s fun t => LaneResult s t st s.fragLanes [] none 0 (fun _ => 0) nextL s.pick.seed) ∧
    (Completes (.vnop h) s fun t =>
      LaneResult s t h.stall (s.lanesActive h.pi h.pn) [] none 0 (fun _ => 0) nextL s.pick.seed) ∧
    (Completes (.safept st idx) s fun t => LaneResult s t st s.fragLanes [] none 0 (fun _ => 0)
      (fun n x => { nextL n x with dist := 0, safept := some idx }) s.pick.seed) ∧
    (one → Completes (.regang st) s fun t => LaneResult s t st s.fragLanes [] none 0 (fun _ => 0) nextL s.pick.seed) ∧
    (¬ one → s.frag < l.frags.length → s.fragment.members ≠ [] →
      (∀ n ∈ s.fragment.members, (l.strand n).lpc = some s.lpc ∧ (l.strand n).mask ≠ 0 ∧ (l.strand n).rca ≠ some s.lpc) →
      Completes (.regang st) s fun t => StrandsMove s t (fun _ x => x) ∧ t.mem = s.mem ∧
        ∃ f ∈ t.pick.ls.frags, f.members = s.fragment.members ∧ f.waitAt = some s.lpc) ∧
    (let m := s.lanesActive h.pi h.pn
     s.laneReady h.pi h.pn [] [] = true → (∀ i ∈ lanesOf m, s.pick.txs.lookup i = none) →
     Completes (.lend h) s fun t =>
      LaneResult s t h.stall m [] none 0 (fun _ => 0) (Strand.without (leaving m)) s.pick.seed ∧
      ∀ i ∈ lanesOf m, (t.pick.ls.strand (i / 4)).mask.getLsbD (i % 4) = false ∧
        ∀ e ∈ (t.pick.ls.strand (i / 4)).stack, e.mask.getLsbD (i % 4) = false)

/-! ## Lane floating point -/

/-- R303 to R309, R302, R134: the arithmetic forms an exact value of FP32 operands and rounds it once under RM or the lane
FMTR, SEED going on if a lane rounds stochastically; the minimum and maximum, comparisons, class masks and special
functions; and the table of special inputs of R142. -/
def Obligations.LaneFloat : Prop :=
  (∀ (s : State) (h : Hd) (d : BitVec 8) (a b c : Src) (rm : BitVec 4) (p : BitVec 3),
    (∀ e ∈ ([
      (.vfadd h d a b rm, [a, b], fun v => (fp32 (v 0)).add (fp32 (v 1))),
      (.vfsub h d a b rm, [a, b], fun v => (fp32 (v 0)).add (fp32 (v 1)).negate),
      (.vfmul h d a b rm, [a, b], fun v => (fp32 (v 0)).mul (fp32 (v 1))),
      (.vfma h d a b c rm, [a, b, c], fun v => ((fp32 (v 0)).mul (fp32 (v 1))).add (fp32 (v 2)))] :
      List (Instr × List Src × ((Nat → Word) → Ext))),
      s.laneFit h [] e.2.1 (destOf d) = true → Completes e.1 s fun t =>
        let m := s.lanesActive h.pi h.pn
        LaneResult s t h.stall m (e.2.1.map (fun x => (x, 1))) (destOf d) 6
          (fun i => fpEnc (e.2.2 (s.srcVal e.2.1 i)) (s.modeOf rm i) (drawBits s.pick.seed i)) nextL
          (s.seedUsed m (s.modeOf rm))) ∧
    (∀ e ∈ ([
      (.vfmin h d a b, [a, b], 6, fun _ v =>
        if (fp32 (v 0)).isNan ∧ (fp32 (v 1)).isNan then 0x7FC00000 else if (fp32 (v 0)).isNan then v 1
        else if (fp32 (v 1)).isNan then v 0 else if (fp32 (v 1)).below (fp32 (v 0)) then v 1 else v 0),
      (.vfmax h d a b, [a, b], 6, fun _ v =>
        if (fp32 (v 0)).isNan ∧ (fp32 (v 1)).isNan then 0x7FC00000 else if (fp32 (v 0)).isNan then v 1
        else if (fp32 (v 1)).isNan then v 0 else if (fp32 (v 0)).below (fp32 (v 1)) then v 1 else v 0),
      (.vfclass h d a, [a], 6, fun _ v =>
        let x := (v 0).toNat
        let neg := 2 ^ 31 ≤ x
        let e := x / 2 ^ 23 % 256
        let f := x % 2 ^ 23
        BitVec.ofNat 32 (2 ^ (if e = 255 then (if f ≠ 0 then 8 else if neg then 0 else 7)
          else if e = 0 then (if f ≠ 0 then (if neg then 2 else 5) else if neg then 3 else 4)
          else if neg then 1 else 6))),
      (.vrcp h d a, [a], 14, fun _ v => special rcpExt (v 0)), (.vrsq h d a, [a], 14, fun _ v => special rsqExt (v 0)),
      (.vsqrt h d a, [a], 14, fun _ v => special sqrtExt (v 0)),
      (.vexp2 h d a, [a], 14, fun _ v => special exp2Ext (v 0)),
      (.vlog2 h d a, [a], 14, fun _ v => special log2Ext (v 0))] :
      List (Instr × List Src × Nat × (Nat → (Nat → Word) → Word))), LaneDoes s h d e) ∧
    (let un (v : Nat → Word) : Prop := (fp32 (v 0)).isNan = true ∨ (fp32 (v 1)).isNan = true
     let zs (v : Nat → Word) : Prop := (fp32 (v 0)).isZero = true ∧ (fp32 (v 1)).isZero = true
     let eq (v : Nat → Word) : Prop := zs v ∨ fp32 (v 0) = fp32 (v 1)
     let lt (v : Nat → Word) : Prop := ¬ zs v ∧ (fp32 (v 0)).below (fp32 (v 1)) = true
     ∀ e ∈ ([
      (0, fun v => ¬ un v ∧ eq v), (1, fun v => un v ∨ ¬ eq v), (2, fun v => ¬ un v ∧ lt v),
      (3, fun v => ¬ un v ∧ (lt v ∨ eq v)), (4, fun v => ¬ un v ∧ ¬ (lt v ∨ eq v)), (5, fun v => ¬ un v ∧ ¬ lt v),
      (6, fun v => un v), (7, fun v => ¬ un v)] : List (BitVec 3 × ((Nat → Word) → Prop))),
      PredDoes s h p [] (.vfcmp h p a b e.1, [a, b], 6, fun _ v => e.2 v))) ∧
  ∀ e ∈ ([(0x00000000, 0x7F800000, 0x7F800000, 0x00000000, 0x3F800000, 0xFF800000),
          (0x80000000, 0xFF800000, 0xFF800000, 0x80000000, 0x3F800000, 0xFF800000),
          (0x7F800000, 0x00000000, 0x00000000, 0x7F800000, 0x7F800000, 0x7F800000),
          (0xFF800000, 0x80000000, 0x7FC00000, 0x7FC00000, 0x00000000, 0x7FC00000),
          (0x7FC00000, 0x7FC00000, 0x7FC00000, 0x7FC00000, 0x7FC00000, 0x7FC00000),
          (0x3F800000, 0x3F800000, 0x3F800000, 0x3F800000, 0x40000000, 0x00000000)] :
      List (Word × Word × Word × Word × Word × Word)),
    special rcpExt e.1 = e.2.1 ∧ special rsqExt e.1 = e.2.2.1 ∧ special sqrtExt e.1 = e.2.2.2.1 ∧
    special exp2Ext e.1 = e.2.2.2.2.1 ∧ special log2Ext e.1 = e.2.2.2.2.2

/-- R310 to R312: a conversion decodes each active lane's word in its source format, for VQNT divides by and for VDQT
multiplies with the FP32 scale, and encodes it in its target format; formats come from the instruction or the lane FMTR.
A format that names an unbound slot traps. -/
def Obligations.LaneConvert : Prop :=
  ∀ (s : State) (h : Hd) (d : BitVec 8) (a b : Src) (dt ds : BitVec 1) (rm ft fs : BitVec 4) (F G : Nat → Fmt),
    let m := s.lanesActive h.pi h.pn
    let fmtr (i : Nat) : Nat := (s.pick.ls.strand (i / 4)).fmtr.toNat
    let from_ (i : Nat) : Nat := if ds = 1 then fmtr i % 16 else fs.toNat
    let to_ (i : Nat) : Nat := if dt = 1 then fmtr i / 2 ^ 12 % 16 else ft.toNat
    ∀ e ∈ ([(.vcvt h d a dt ds rm ft fs, [a], fun v _ => v), (.vqnt h d a b dt ds rm ft fs, [a, b], Ext.div),
            (.vdqt h d a b dt ds rm ft fs, [a, b], Ext.mul)] : List (Instr × List Src × (Ext → Ext → Ext))),
      s.laneFit h [] e.2.1 (destOf d) = true →
      ((∀ i, i ∈ lanesOf m ∨ ds = 0 → s.fmtGet s.team (from_ i) = .fmt (F i)) →
       (∀ i, i ∈ lanesOf m ∨ dt = 0 → s.fmtGet s.team (to_ i) = .fmt (G i)) →
        Completes e.1 s fun t =>
          LaneResult s t h.stall m (e.2.1.map (fun x => (x, 1))) (destOf d) 8
            (fun i => codeWord (G i) ((G i).encode
              (e.2.2 ((F i).decode (s.srcVal e.2.1 i 0).toNat) (fp32 (s.srcVal e.2.1 i 1)))
              (s.modeOf rm i) ((fmtr i).testBit 19) (drawBits s.pick.seed i)))
            nextL (s.seedUsed m (s.modeOf rm))) ∧
      (ds = 0 → dt = 0 → s.fmtGet s.team fs.toNat = .unbound → (∃ f, s.fmtGet s.team ft.toNat = .fmt f) →
        TrapsL e.1 s .slotUnbound (BitVec.ofNat 64 fs.toNat) m)

/-! ## Lane memory -/

/-- R314 to R316, R149, R485: VLDA and VLDS read, for each active lane, the bytes at its address, with no transaction open
and every access passing the checks: member g of the destination group takes bytes 4g to 4g + 3, zero-extended, of what
memory holds where every write is ordered before the lanes; no byte changes but words mended from their mirror. With vz as
destination no register takes them and one operation of the path pends. Bytes are read when the access issues (assumption
log 6). -/
def Obligations.LaneLoads : Prop :=
  ∀ (s : State) (h : Hd) (d : BitVec 8) (a : Src) (off : BitVec 17) (ord scp size : BitVec 3) (rmt inv rcl : BitVec 1)
    (rc : BitVec 4) (pas : Nat → List Nat) (tm : Nat → Nat),
    let n := 2 ^ size.toNat
    let regs := if size = 3 then 2 else if size = 4 then 4 else 1
    let m := s.lanesActive h.pi h.pn
    let aligned (x : Nat) : Prop := (ord = 0 → x % min n 4 = 0) ∧ (ord ≠ 0 → (n = 4 ∨ n = 8) ∧ x % n = 0)
    let names := if d = 239 then [] else (List.range regs).map (d.toNat + ·)
    let ops := if m = 0 ∨ d = 239 then 1 else regs
    size.toNat ≤ 4 → d.toNat + regs ≤ 239 ∨ d = 239 → s.pick.txs = [] →
    (let u := s.noteLatent [(a, 2)]
     let g (i : Nat) : Nat :=
       (((s.permRead 0 a 1 i).toNat * 2 ^ 32 + (s.permRead 0 a 0 i).toNat + off.toInt) % 2 ^ 64).toNat
     s.laneReady h.pi h.pn [] [(a, 2)] = true → s.hasRoom m [(a, 2)] names = true →
     (∀ i ∈ lanesOf m, aligned (g i) ∧ u.resolve u.ctx rightR (g i) n = .ok (pas i, tm i) ∧ s.poisoned (pas i) = false) →
     Completes (.vlda h d a off ord scp rmt inv rc rcl size) s fun t =>
      LaneMemFrame s t ∧ LaneRead s t ((lanesOf m).flatMap pas) ∧
      LanePickFrame s t h.stall s.pick.seed [(a, 2)] names m 0 ops ∧
      (inv = 0 → t.launches = s.launches) ∧ (ord = 0 → t.pick.rlxSeen = s.pick.rlxSeen ∧ t.pick.path 0 =
        (s.pick.path 0).onBatch (s.laneBatch 0) (fun b => { b with ops := b.ops + ops })) ∧
      (m = 0 ∨ d = 239 → OpPends s t [(a, 2)] 0) ∧
      (m ≠ 0 → d ≠ 239 → ∃ val, VarResults s t [(a, 2)] d.toNat regs m 0 val ∧
        (s.lanesSettled 0 → ∀ g, ∀ i ∈ lanesOf m,
          val g i = BitVec.ofNat 32 (ofLe (s.devBytes (pas i)) / 2 ^ (32 * g)))) ∧
      ∀ k, (t.ctxAt k).tdmask = if k = s.team.ctx then
        (s.ctxAt k).tdmask ||| BitVec.ofNat 13 ((lanesOf m).foldl (fun x i => x ||| tm i) 0) else (s.ctxAt k).tdmask) ∧
    (let g (i : Nat) : Nat := (((s.permRead 0 a 0 i).toNat + off.toInt) % 2 ^ 32).toNat
     s.laneReady h.pi h.pn [] [(a, 1)] = true → s.hasRoom m [(a, 1)] names = true →
     (∀ i ∈ lanesOf m, aligned (g i) ∧ s.team.inRange (g i) n = true ∧ s.team.scratchBad (g i) n = false ∧
       ∀ x ∈ s.team.inflight, (g i + n - 1) / 256 < x.lo ∨ x.hi < g i / 256) →
     Completes (.vlds h d a off ord scp size) s fun t =>
      LaneMemFrame s t ∧ LaneRead s t [] ∧ t.ctxs = s.ctxs ∧ t.launches = s.launches ∧
      LanePickFrame s t h.stall s.pick.seed [(a, 1)] names m 0 ops ∧ (m = 0 ∨ d = 239 → OpPends s t [(a, 1)] 0) ∧
      (m ≠ 0 → d ≠ 239 → ∃ val, VarResults s t [(a, 1)] d.toNat regs m 0 val ∧
        (s.lanesSettled 0 → ∀ k, ∀ i ∈ lanesOf m,
          val k i = BitVec.ofNat 32 (ofLe (rdBytes s.team.scratch (g i) n) / 2 ^ (32 * k)))))

/-- R314, R315, R317, R149: VSTA and VSTS execute where no transaction is open and every access passes the checks. They write,
for each active lane, the bytes of the data source at its address: every byte that none writes stays, of memory and of scratch,
whatever the other agents do; where every write is ordered before the lanes each byte takes what its lane writes, a byte that
two lanes write the value of one of them; one operation joins the ST batch. Bytes are written when the access issues
(assumption log 6). -/
def Obligations.LaneStores : Prop :=
  ∀ (s : State) (h : Hd) (a b : Src) (off : BitVec 17) (ord scp size : BitVec 3),
    let n := 2 ^ size.toNat
    let regs := if size = 3 then 2 else if size = 4 then 4 else 1
    let m := s.lanesActive h.pi h.pn
    let aligned (x : Nat) : Prop := (ord = 0 → x % min n 4 = 0) ∧ (ord ≠ 0 → (n = 4 ∨ n = 8) ∧ x % n = 0)
    let pokes (global : Bool) (g : Nat → Nat) (i : Nat) : List Poke := (List.range n).map (fun k =>
      ⟨global, g i + k, 0xFF, BitVec.ofNat 8 ((s.permRead 1 b (k / 4) i).toNat / 2 ^ (8 * (k % 4)))⟩)
    size.toNat ≤ 4 → s.pick.txs = [] →
    (let u := s.noteLatent [(a, 2), (b, regs)]
     let g (i : Nat) : Nat :=
       (((s.permRead 0 a 1 i).toNat * 2 ^ 32 + (s.permRead 0 a 0 i).toNat + off.toInt) % 2 ^ 64).toNat
     s.laneReady h.pi h.pn [] [(a, 2), (b, regs)] = true →
     (∀ i ∈ lanesOf m, aligned (g i) ∧ ∃ r, u.resolve u.ctx rightW (g i) n = .ok r) →
     Completes (.vsta h a b off ord scp size) s fun t =>
      LaneStored u t h.stall [(a, 2), (b, regs)] m (pokes true g) ∧
      ∀ k, (t.teamAt k).scratch = (s.teamAt k).scratch) ∧
    (let u := s.noteLatent [(a, 1), (b, regs)]
     let g (i : Nat) : Nat := (((s.permRead 0 a 0 i).toNat + off.toInt) % 2 ^ 32).toNat
     s.laneReady h.pi h.pn [] [(a, 1), (b, regs)] = true →
     (∀ i ∈ lanesOf m, aligned (g i) ∧ s.team.inRange (g i) n = true ∧
       ∀ x ∈ s.team.inflight, (g i + n - 1) / 256 < x.lo ∨ x.hi < g i / 256) →
     Completes (.vsts h a b off ord scp size) s fun t =>
      LaneStored u t h.stall [(a, 1), (b, regs)] m (pokes false g) ∧ t.mem = s.mem ∧ t.ctxs = s.ctxs)

/-- R157 to R161, R313 to R319, R485: VLD and VST execute through a buffer record that passes its checks, with no transaction
open and every lane in range; VLD delivers through the conversion stage what memory holds where every write is ordered
before the lanes; VST writes the bits of its elements and leaves every other bit, whatever the other agents do; VPFT changes no
value, and of the dies it touches each beside those of its record is one of an element in range that an active lane names. A
record number beyond the table traps. Bytes are read and written when the access issues (assumption log 6). -/
def Obligations.BufferAccess : Prop :=
  ∀ (s : State) (h : Hd) (d : BitVec 8) (a b : Src) (brec : BitVec 8) (ord scp : BitVec 3) (rmt inv rcl : BitVec 1)
    (rc : BitVec 4) (pas : List Nat) (tm : Nat),
    let m := s.lanesActive h.pi h.pn
    let one := [(a, 1)]
    let two := [(a, 1), (b, 1)]
    -- the record as a path's lane agent reads it in a state, and the state after that
    let rec_ (u : State) (path : Nat) : Nat := u.readPas (u.laneAgent path 0) pas
    let read (u : State) (path : Nat) : State :=
      (u.notePas (u.laneAgent path 0) .plain false pas).touchDies s.team.ctx tm
    let table (u : State) (path : Nat) (store : Bool) : Prop := brec.toNat < lrNbrec s.team.lr ∧
      u.resolve u.ctx rightR (lrBrtab s.team.lr + 40 * brec.toNat) 40 = .ok (pas, tm) ∧ s.poisoned pas = false ∧
      s.recBad s.team (rec_ u path) store = none
    let place (x i : Nat) : Place := recPlace x (s.permRead 0 a 0 i).toNat
    let fits (v : State) (right : Nat) (q : Piece) : Prop :=
      if q.global then ∃ r, v.resolve v.ctx right q.addr q.len = .ok r ∧ (right = rightR → v.poisoned r.1 = false)
      else s.team.inRange q.addr q.len = true ∧ (right = rightR → s.team.scratchBad q.addr q.len = false) ∧
        ∀ y ∈ s.team.inflight, (q.addr + q.len - 1) / 256 < y.lo ∨ y.hi < q.addr / 256
    let got (v : State) (q : Piece) : Nat :=
      if q.global then ofLe (v.devBytes (v.pieceBytes rightR q)) else ofLe (rdBytes s.team.scratch q.addr q.len)
    (s.laneReady h.pi h.pn [] one = true → lrNbrec s.team.lr ≤ brec.toNat →
      TrapsL (.vld h d a brec ord scp rmt inv rc rcl) s .illOperand 1 m ∧
      (s.pick.txs = [] → TrapsL (.vpft h a brec rc rcl) s .illOperand 1 m)) ∧
    (∀ path, s.lanesSettled path → ∀ store, table s path store → rec_ s path = ofLe (s.devBytes pas)) ∧
    (let u := s.noteLatent one
     s.pick.txs = [] → s.laneReady h.pi h.pn [] one = true → table u 0 false →
      Completes (.vpft h a brec rc rcl) s fun t =>
        LaneMemFrame s t ∧ LaneRead s t pas ∧ t.launches = s.launches ∧
        (∃ x, Touched s t s.team.ctx (tm ||| x) ∧ ∀ k, x.testBit k = true → ∃ i ∈ lanesOf m, ∃ p,
          recAt (rec_ u 0) (s.permRead 0 a 0 i).toNat = some p ∧ recInRange (rec_ u 0) p = true ∧
          ∃ q ∈ recPieces (rec_ u 0) p, ∃ r, (read u 0).resolve s.ctx rightR q.addr q.len = .ok r ∧ r.2.testBit k = true) ∧
        LanePickFrame s t h.stall s.pick.seed one [] m 0 1 ∧ OpPends s t one 0) ∧
    (let u := s.noteLatent one
     let v := read u 0
     let x := rec_ u 0
     let fs := s.recFmts s.team x
     let names := if d = 239 then [] else [d.toNat]
     s.pick.txs = [] → ord = 0 ∨ bEnc x = 0 → d.toNat ≤ 239 →
      s.laneReady h.pi h.pn [] one = true → s.hasRoom m one names = true → table u 0 false →
      (∀ i ∈ lanesOf m, recInRange x (place x i) = true ∧ (∀ q ∈ recPieces x (place x i), fits v rightR q) ∧
        ∀ q ∈ recExtra x fs.2.2 (place x i), fits v rightR q) →
      Completes (.vld h d a brec ord scp rmt inv rc rcl) s fun t =>
        LaneMemFrame s t ∧ LaneRead s t (pas ++ (lanesOf m).flatMap (fun i =>
          (recPieces x (place x i) ++ recExtra x fs.2.2 (place x i)).flatMap (fun q =>
            if q.global then v.pieceBytes rightR q else []))) ∧
        LanePickFrame s t h.stall (if bEnc x < 2 then s.pick.seed else s.seedUsed m (s.modeOf 0)) one names m 0 1 ∧
        (m = 0 ∨ d = 239 → OpPends s t one 0) ∧
        (m ≠ 0 → d ≠ 239 → ∃ val, VarResults s t one d.toNat 1 m 0 val ∧
          (s.lanesSettled 0 → ∀ i ∈ lanesOf m, val 0 i = recLoad x fs.1 fs.2.1 fs.2.2 (place x i)
            ((recPieces x (place x i)).map (got v)) ((recExtra x fs.2.2 (place x i)).map (got v))
            (s.pick.ls.strand (i / 4)).fmtr.toNat (drawBits s.pick.seed i)))) ∧
    (let u := s.noteLatent two
     let v := read u 1
     let x := rec_ u 1
     let fs := s.recFmts s.team x
     s.pick.txs = [] → ord = 0 ∨ bEnc x = 0 → s.laneReady h.pi h.pn [] two = true → table u 1 true →
      (∀ i ∈ lanesOf m, recInRange x (place x i) = true ∧ ∀ q ∈ recPieces x (place x i), fits v rightW q) →
      Completes (.vst h a b brec ord scp) s fun t => LaneStored v t h.stall two m
        (fun i => recPokes x (place x i) (recStore x fs.1 fs.2.1 (s.permRead 1 b 0 i))))

/-- R315, R149, R70, R69, R58: a misaligned access of VLDA or VSTA traps with the address of the lowest lane that is; so does a
nonzero address bit in [63:56]. A scratch access of VLDS, VSTS or VATOM out of range, or in range but of a granule in flight,
takes place in no such lane and nothing traps: the lanes leave every mask of their strands and FMASK records them as OOR or
LATE, and the other lanes complete the instruction. -/
def Obligations.LaneAccessChecks : Prop :=
  ∀ (s : State) (h : Hd) (d : BitVec 8) (a b : Src) (off : BitVec 17) (ord scp size : BitVec 3) (rc aop : BitVec 4)
    (far : BitVec 1),
    let n := 2 ^ size.toNat
    let regs := if size = 3 then 2 else if size = 4 then 4 else 1
    let m := s.lanesActive h.pi h.pn
    size.toNat ≤ 4 → s.pick.txs = [] →
    (let g (i : Nat) : Nat :=
       (((s.permRead 0 a 1 i).toNat * 2 ^ 32 + (s.permRead 0 a 0 i).toNat + off.toInt) % 2 ^ 64).toNat
     let bad (p : Nat → Bool) : List Nat := (lanesOf m).filter (fun i => p (g i))
     let mis (x : Nat) : Bool := x % min n 4 != 0
     let far (x : Nat) : Bool := decide (2 ^ 56 < x + n)
     let first (p : Nat → Bool) : BitVec 64 := BitVec.ofNat 64 (((bad p).map g).headD 0)
     let mask (p : Nat → Bool) : Word := BitVec.ofNat 32 (maskOf (bad p))
     (s.laneReady h.pi h.pn [] [(a, 2)] = true →
       (bad mis ≠ [] → TrapsL (.vlda h d a off 0 scp 0 0 rc 0 size) s .misalign (first mis) (mask mis)) ∧
       (bad mis = [] → bad far ≠ [] → TrapsL (.vlda h d a off 0 scp 0 0 rc 0 size) s .xlate (first far) (mask far))) ∧
     (s.laneReady h.pi h.pn [] [(a, 2), (b, regs)] = true →
       (bad mis ≠ [] → TrapsL (.vsta h a b off 0 scp size) s .misalign (first mis) (mask mis)) ∧
       (bad mis = [] → bad far ≠ [] → TrapsL (.vsta h a b off 0 scp size) s .xlate (first far) (mask far)))) ∧
    (let g (i : Nat) : Nat := (((s.permRead 0 a 0 i).toNat + off.toInt) % 2 ^ 32).toNat
     let lanes (p : Nat → Bool) : Word := BitVec.ofNat 32 (maskOf ((lanesOf m).filter (fun i => p (g i))))
     let busy (x : Nat) : Bool := s.team.inflight.any (fun f => decide (f.lo ≤ (x + n - 1) / 256 ∧ x / 256 ≤ f.hi))
     let oor := lanes (fun x => !s.team.inRange x n)
     let late := lanes (fun x => s.team.inRange x n && busy x)
     let live := m &&& ~~~(oor ||| late)
     let aligned (x : Nat) : Prop := (ord = 0 → x % min n 4 = 0) ∧ (ord ≠ 0 → (n = 4 ∨ n = 8) ∧ x % n = 0)
     let clean (x : Nat) : Prop := s.team.inRange x n = true → s.team.scratchBad x n = false
     let move := Strand.without (leaving (oor ||| late))
     let w := n / 4
     let grp := if aop = 10 then 2 * w else w
     let names (k : Nat) : List Nat := if d = 239 then [] else (List.range k).map (d.toNat + ·)
     let ops (k : Nat) : Nat := if live = 0 ∨ d = 239 then 1 else k
     (s.laneReady h.pi h.pn [] [(a, 1), (b, regs)] = true → (∀ i ∈ lanesOf m, aligned (g i)) →
      Completes (.vsts h a b off ord scp size) s fun t =>
        LaneMemFrame s t ∧ t.mem = s.mem ∧ t.ctxs = s.ctxs ∧
        LanePickMoves s t h.stall s.pick.seed [(a, 1), (b, regs)] [] m 1 1 move oor late ∧ OpPends s t [(a, 1), (b, regs)] 1 ∧
        (∀ x, (∀ i ∈ lanesOf live, x < g i ∨ g i + n ≤ x) →
          rdByte (t.teamAt s.pick.team).scratch x = rdByte s.team.scratch x) ∧
        ∀ k, k ≠ s.pick.team → (t.teamAt k).scratch = (s.teamAt k).scratch) ∧
     (s.laneReady h.pi h.pn [] [(a, 1)] = true → d.toNat + regs ≤ 239 ∨ d = 239 →
      s.hasRoom live [(a, 1)] (names regs) = true → (∀ i ∈ lanesOf m, aligned (g i) ∧ clean (g i)) →
      Completes (.vlds h d a off ord scp size) s fun t =>
        LaneMemFrame s t ∧ LaneRead s t [] ∧ t.ctxs = s.ctxs ∧
        LanePickMoves s t h.stall s.pick.seed [(a, 1)] (names regs) live 0 (ops regs) move oor late ∧
        (live = 0 ∨ d = 239 → OpPends s t [(a, 1)] 0) ∧
        (live ≠ 0 → d ≠ 239 → ∃ val, VarResults s t [(a, 1)] d.toNat regs live 0 val ∧
          (s.lanesSettled 0 → ∀ k, ∀ i ∈ lanesOf live,
            val k i = BitVec.ofNat 32 (ofLe (rdBytes s.team.scratch (g i) n) / 2 ^ (32 * k))))) ∧
     (size = 2 ∨ size = 3 → aop.toNat ≤ 10 → ¬(aop = 1 ∧ size = 3) → s.laneReady h.pi h.pn [] [(a, 1), (b, grp)] = true →
      d.toNat + w ≤ 239 ∨ d = 239 → s.hasRoom live [(a, 1), (b, grp)] (names w) = true →
      (∀ i ∈ lanesOf m, g i % n = 0 ∧ clean (g i)) →
      Completes (.vatom h d a b off ord scp aop far size 1) s fun t =>
        LaneMemFrame s t ∧ t.mem = s.mem ∧ t.ctxs = s.ctxs ∧
        LanePickMoves s t h.stall s.pick.seed [(a, 1), (b, grp)] (names w) live 0 (ops w) move oor late ∧
        (live = 0 ∨ d = 239 → OpPends s t [(a, 1), (b, grp)] 0) ∧
        (live ≠ 0 → d ≠ 239 → ∃ val, VarResults s t [(a, 1), (b, grp)] d.toNat w live 0 val) ∧
        (∀ x, (∀ i ∈ lanesOf live, x < g i ∨ g i + n ≤ x) →
          rdByte (t.teamAt s.pick.team).scratch x = rdByte s.team.scratch x) ∧
        ∀ k, k ≠ s.pick.team → (t.teamAt k).scratch = (s.teamAt k).scratch))

/-- R188, R320, R321, R465: VATOM reads, at each active lane's place in memory or scratch, the old value into the destination
group and writes back what AOP forms of it and the operand; where two lanes name one place no order is fixed, and a
near FADD without destination may combine with others (R192). Bytes that no lane names stay. Where places differ
the lane order cannot be seen; where they coincide it is free (assumption logs 1 and 6). In the host window all but ADD, XCHG and
CAS trap. FADD of 64 bits does not decode. -/
def Obligations.LaneAtomics : Prop :=
  (∀ w : BitVec 96, w.extractLsb' 86 10 = 0x307#10 → w.extractLsb' 7 4 = 1#4 → w.extractLsb' 3 3 = 3#3 →
    decodeLane w = .illOperand) ∧
  ∀ (s : State) (h : Hd) (d : BitVec 8) (a b : Src) (off : BitVec 17) (ord scp size : BitVec 3) (aop : BitVec 4)
    (far : BitVec 1) (pas : Nat → List Nat) (tm : Nat → Nat),
    let n := 2 ^ size.toNat
    let w := n / 4
    let m := s.lanesActive h.pi h.pn
    let grp := if aop = 10 then 2 * w else w
    let names := if d = 239 then [] else (List.range w).map (d.toNat + ·)
    let num (g i : Nat) : Nat := (s.permRead 1 b g i).toNat + if w = 2 then (s.permRead 1 b (g + 1) i).toNat * 2 ^ 32 else 0
    let signed (x : Nat) : Int := (BitVec.ofNat (8 * n) x).toInt
    let new (i old : Nat) : Nat := match aop.toNat with
      | 0 => (old + num 0 i) % 2 ^ (8 * n)
      | 1 => (roundFp32 ((fp32 (BitVec.ofNat 32 old)).add (fp32 (BitVec.ofNat 32 (num 0 i))))).toNat
      | 2 => if signed (num 0 i) < signed old then num 0 i else old
      | 3 => if signed old < signed (num 0 i) then num 0 i else old
      | 4 => min old (num 0 i)
      | 5 => max old (num 0 i)
      | 6 => old &&& num 0 i
      | 7 => old ||| num 0 i
      | 8 => old ^^^ num 0 i
      | 9 => num 0 i
      | _ => if old = num 0 i then num w i else old
    let ops := if m = 0 ∨ d = 239 then 1 else w
    size = 2 ∨ size = 3 → aop.toNat ≤ 10 → ¬(aop = 1 ∧ size = 3) → d.toNat + w ≤ 239 ∨ d = 239 → s.pick.txs = [] →
    (let u := s.noteLatent [(a, 2), (b, grp)]
     let g (i : Nat) : Nat :=
       (((s.permRead 0 a 1 i).toNat * 2 ^ 32 + (s.permRead 0 a 0 i).toNat + off.toInt) % 2 ^ 64).toNat
     let old (i : Nat) : Nat := ofLe (s.devBytes (pas i))
     s.laneReady h.pi h.pn [] [(a, 2), (b, grp)] = true → s.hasRoom m [(a, 2), (b, grp)] names = true →
     (∀ i ∈ lanesOf m, g i % n = 0 ∧ u.resolve u.ctx rightRW (g i) n = .ok (pas i, tm i) ∧ s.poisoned (pas i) = false ∧
       ((∃ x ∈ pas i, isHost x = true) → aop = 0 ∨ aop = 9 ∨ aop = 10)) →
     Completes (.vatom h d a b off ord scp aop far size 0) s fun t =>
      LaneMemFrame s t ∧ LanePickFrame s t h.stall s.pick.seed [(a, 2), (b, grp)] names m 0 ops ∧
      t.launches = s.launches ∧ (∀ k, (t.teamAt k).scratch = (s.teamAt k).scratch) ∧
      (∀ x, (∀ i ∈ lanesOf m, x ∉ (pas i).flatMap paPlaces) → rdByte t.mem x = rdByte s.mem x) ∧
      (s.lanesSettled 0 →
        (∀ i ∈ lanesOf m, ∀ j ∈ lanesOf m, i ≠ j →
          List.Disjoint ((pas i).flatMap paPlaces) ((pas j).flatMap paPlaces)) →
        ¬ (far = 0 ∧ aop = 1 ∧ d = 239) →
        (∀ i ∈ lanesOf m, ((pas i).map paHome).map (rdByte t.mem) = leBytes n (new i (old i))) ∧
        (m ≠ 0 → d ≠ 239 → VarResults s t [(a, 2), (b, grp)] d.toNat w m 0
          (fun k i => BitVec.ofNat 32 (old i / 2 ^ (32 * k)))))) ∧
    ((∃ i ∈ lanesOf m, ∃ x ∈ pas i, isHost x = true) → ¬ (aop = 0 ∨ aop = 9 ∨ aop = 10) →
     let u := s.noteLatent [(a, 2), (b, grp)]
     let g (i : Nat) : Nat :=
       (((s.permRead 0 a 1 i).toNat * 2 ^ 32 + (s.permRead 0 a 0 i).toNat + off.toInt) % 2 ^ 64).toNat
     s.laneReady h.pi h.pn [] [(a, 2), (b, grp)] = true →
     (∀ i ∈ lanesOf m, g i % n = 0 ∧ u.resolve u.ctx rightRW (g i) n = .ok (pas i, tm i) ∧ s.poisoned (pas i) = false) →
     let bad := (lanesOf m).filter (fun i => (pas i).any isHost)
     TrapsL (.vatom h d a b off ord scp aop far size 0) s .perm (BitVec.ofNat 64 ((bad.map g).headD 0))
       (BitVec.ofNat 32 (maskOf bad))) ∧
    (let g (i : Nat) : Nat := (((s.permRead 0 a 0 i).toNat + off.toInt) % 2 ^ 32).toNat
     let old (i : Nat) : Nat := ofLe (rdBytes s.team.scratch (g i) n)
     s.laneReady h.pi h.pn [] [(a, 1), (b, grp)] = true → s.hasRoom m [(a, 1), (b, grp)] names = true →
     (∀ i ∈ lanesOf m, g i % n = 0 ∧ s.team.inRange (g i) n = true ∧ s.team.scratchBad (g i) n = false ∧
       ∀ x ∈ s.team.inflight, (g i + n - 1) / 256 < x.lo ∨ x.hi < g i / 256) →
     Completes (.vatom h d a b off ord scp aop far size 1) s fun t =>
      LaneMemFrame s t ∧ LanePickFrame s t h.stall s.pick.seed [(a, 1), (b, grp)] names m 0 ops ∧ t.mem = s.mem ∧
      t.launches = s.launches ∧ t.ctxs = s.ctxs ∧
      (∀ x, (∀ i ∈ lanesOf m, x < g i ∨ g i + n ≤ x) →
        rdByte (t.teamAt s.pick.team).scratch x = rdByte s.team.scratch x) ∧
      (s.lanesSettled 0 → (∀ i ∈ lanesOf m, ∀ j ∈ lanesOf m, i ≠ j → g i ≠ g j) →
        (∀ i ∈ lanesOf m, rdBytes (t.teamAt s.pick.team).scratch (g i) n = leBytes n (new i (old i))) ∧
        (m ≠ 0 → d ≠ 239 → VarResults s t [(a, 1), (b, grp)] d.toNat w m 0
          (fun k i => BitVec.ofNat 32 (old i / 2 ^ (32 * k))))))

/-- R105, R194 to R199, R318, R322 to R326: VFENCE outside transactions waits for every variable-latency result issued before
it, and for what was issued before those to the same names, and changes no byte of memory. TXBEGIN opens a transaction in the
lanes of each strand, pushes its rejoin point and zeroes the status register; TXEND writes the buffered bits of each
transaction whose reads hold and that conflicts with no other, and closes it; TXABORT ends the active lanes' transactions with
EXPLICIT and its code, in the status register or, where that name holds no register, owed to it. The lanes that it aborts
leave the masks above the entry of their TXBEGIN: a strand with a lane left goes on in sequence, one with none pops, and
resumes at A with that entry's lanes. No other lane is touched. One TXEND commits its lanes in one step (assumption log 23). -/
def Obligations.Transactions : Prop :=
  (∀ (s : State) (h : Hd) (kind scp : BitVec 3), s.laneReady h.pi h.pn [] [] = true → s.pick.txs = [] →
     Completes (.vfence h kind scp) s fun t =>
       let m := s.lanesActive h.pi h.pn
       LaneFrame { s with wlog := t.wlog, fadds := t.fadds } t m ∧ SameLog s t ∧ StrandsMove s t nextL ∧
       (∀ f ∈ t.fadds, f ∈ s.fadds) ∧
       { t.pick with names := s.pick.names, preds := s.pick.preds, ppoison := s.pick.ppoison, pending := s.pick.pending,
                     paths := s.pick.paths, lanes := s.pick.lanes, hlanes := s.pick.hlanes, queue := s.pick.queue,
                     hqueue := s.pick.hqueue, nextLane := s.pick.nextLane, parkWant := s.pick.parkWant,
                     moved := s.pick.moved, relFence := s.pick.relFence } = s.pick ∧
       (kind = 2 → t.pick.relFence = s.pick.relFence) ∧
       (kind = 3 ∨ kind = 4 → ∀ i ∈ lanesOf m, ∃ r, (64 * s.cur + i, r) ∈ t.pick.relFence ∧ r.pick = s.cur ∧
         r.scope = scp.toNat) ∧
       -- what it waits for: the loads, and what was issued before one to its name
       let awaited (q : Pending) : Bool := q.dest != .nothing &&
         (q.isVar || s.pick.pending.any (fun x => x.isVar && x.dest == q.dest && decide (q.seq < x.seq)))
       t.pick.pending = s.pick.pending.filter (fun q => !awaited q) ∧
       ∀ n, (s.pick.name n).st = .allocated → ∀ i < 32, tget 0 (t.pick.name n).val i =
         match (s.pick.pending.filter (fun q => awaited q && q.dest == .vreg n && q.mask.getLsbD i)).getLast? with
         | some q => tget 0 q.vals i
         | none => tget 0 (s.pick.name n).val i) ∧
  ∀ (s : State) (h : Hd) (st : BitVec 4) (d : BitVec 8) (off : BitVec 12) (code : BitVec 8),
    let f := s.fragLanes
    let m := s.lanesActive h.pi h.pn
    let A : Word := BitVec.ofInt 32 (s.lpc.toNat + 12 * off.toInt)
    ((∀ i ∈ lanesOf f, s.pick.txs.lookup i = none) →
      (∀ n ∈ s.fragment.members, (s.pick.ls.strand n).stack.length < 32) → d.toNat ≤ 239 →
      s.hasRoom f [] (destNames (destOf d)) = true →
      Completes (.txbegin st d off) s fun t =>
        LaneResult s (t.setPick { t.pick with txs := s.pick.txs }) st f [] (destOf d) 4 (fun _ => 0)
          (fun _ x => { x with stack := ⟨some A, x.mask, x.rca, x.fmtr⟩ :: x.stack, rca := some A,
                               lpc := x.lpc.map (· + 12) }) s.pick.seed ∧
        ∀ i, t.pick.txs.lookup i = if i ∈ lanesOf f then
          some { status := d, height := (s.pick.ls.strand (i / 4)).stack.length + 1, handler := s.pick.mode }
          else s.pick.txs.lookup i) ∧
    (let mine (i : Nat) (x : Tx) : Prop := i ∈ lanesOf f ∧ s.pick.txs.lookup i = some x
     conflictLosers s.pick.txs = [] → s.lanesSettled 1 → (∀ e ∈ s.picks, e.1 ≠ s.cur → e.2.txs = []) →
     (∀ i x, mine i x → (∀ c ∈ x.writes, c.1 % 4 = 0) ∧ (x.unit.map (·.1)).Nodup ∧
       (∀ c ∈ x.reads, s.wordAt c.1 &&& c.2.1 = c.2.2 &&& c.2.1) ∧
       ∀ j y, mine j y → j ≠ i → ∀ c ∈ x.unit, (∀ e ∈ y.reads, e.1 ≠ c.1) ∧ ∀ e ∈ y.unit, e.1 ≠ c.1) →
     Completes (.txend st) s fun t =>
      LaneMemFrame s t ∧ StrandsMove s t nextL ∧ t.launches = s.launches ∧ t.ctxs = s.ctxs ∧
      { t.pick with lanes := s.pick.lanes, hlanes := s.pick.hlanes, nextLane := s.pick.nextLane,
                    parkWant := s.pick.parkWant, txs := s.pick.txs, paths := s.pick.paths, rlxSeen := s.pick.rlxSeen } =
        s.pick ∧
      (∀ n, { t.pick.path n with acq := (s.pick.path n).acq } = s.pick.path n) ∧
      (∀ i, t.pick.txs.lookup i = if i ∈ lanesOf f then none else s.pick.txs.lookup i) ∧
      (∀ k, (t.teamAt k).scratch = (s.teamAt k).scratch) ∧
      (∀ a, (∀ i x, mine i x → ∀ c ∈ x.unit, c.1 ≠ memLoc a) → rdByte t.mem a = rdByte s.mem a) ∧
      ∀ i x, mine i x → ∀ c ∈ x.unit, t.wordAt c.1 = mix (s.wordAt c.1) c.2.1 c.2.2) ∧
    (s.laneReady h.pi h.pn [] [] = true → Completes (.txabort h code) s fun t =>
      -- lane i is in a transaction with status register n
      let aborts (i n : Nat) : Prop := i ∈ lanesOf m ∧ ∃ x, s.pick.txs.lookup i = some x ∧ x.status.toNat = n
      let word : Word := BitVec.ofNat 32 (3 + code.toNat * 256)
      LaneFrame s t m ∧ t.pick.nextLane = s.pick.clk + max h.stall.toNat 1 ∧
      { t.pick with names := s.pick.names, pending := s.pick.pending, lanes := s.pick.lanes, hlanes := s.pick.hlanes,
                    nextLane := s.pick.nextLane, parkWant := s.pick.parkWant, txs := s.pick.txs, owed := s.pick.owed,
                    aborts := s.pick.aborts, trec := s.pick.trec } = s.pick ∧
      t.pick.aborts = s.pick.aborts + ((lanesOf m).filter (fun i => (s.pick.txs.lookup i).isSome)).length ∧
      (s.pick.mode = false → t.pick.hlanes = s.pick.hlanes ∧ t.pick.trec = s.pick.trec) ∧
      (s.pick.mode = true → (∀ i ∈ lanesOf m, ∀ x, s.pick.txs.lookup i = some x → x.handler = true) →
        t.pick.lanes = s.pick.lanes ∧ t.pick.trec = s.pick.trec) ∧
      StrandsMove s t (Strand.without (fun i => if m.getLsbD i then (s.pick.modeTxs.lookup i).map (·.height) else none)) ∧
      (∀ n ∈ s.fragment.members, ∀ A e es, (s.pick.ls.strand n).stack = e :: es → e.pc = some A → e.mask ≠ 0 →
        e.rca ≠ some A → (∀ j < 4, (s.pick.ls.strand n).mask.getLsbD j = true → m.getLsbD (4 * n + j) = true ∧
          (s.pick.modeTxs.lookup (4 * n + j)).map (·.height) = some (es.length + 1)) →
        (t.pick.ls.strand n).lpc = some A ∧ (t.pick.ls.strand n).mask = e.mask ∧ (t.pick.ls.strand n).stack = es) ∧
      (∀ n, (t.pick.name n).st = (s.pick.name n).st ∧
        ∀ i, ¬ aborts i n → tget 0 (t.pick.name n).val i = tget 0 (s.pick.name n).val i) ∧
      List.Forall₂ (fun (a b : Pending) => b = { a with mask := b.mask } ∧ ∀ i, b.mask.getLsbD i = true ↔
        a.mask.getLsbD i = true ∧ ∀ n, a.dest = .vreg n → ¬ aborts i n) s.pick.pending t.pick.pending ∧
      (∀ e, e ∈ t.pick.owed ↔ e ∈ s.pick.owed ∨ ∃ i n, aborts i n ∧ n < 239 ∧ (s.pick.name n).st ≠ .allocated ∧
        e = (n, i, word)) ∧
      (∀ i, t.pick.txs.lookup i = if i ∈ lanesOf m then none else s.pick.txs.lookup i) ∧
      (∀ i n, aborts i n → n < 239 → (s.pick.name n).st = .allocated → tget 0 (t.pick.name n).val i = word) ∧
      ((∀ i ∈ lanesOf m, s.pick.txs.lookup i = none) →
        LaneResult s t h.stall m [] none 0 (fun _ => 0) nextL s.pick.seed))

/-- R80, R328: VACCR delivers the tile word that each active lane's row and column name; VACCW writes it, or adds to it in FP32,
lane after lane, and clears its poison. With vz as destination VACCR leaves nothing in a register. A tile that the team does
not hold traps. -/
def Obligations.LaneAccumulators : Prop :=
  ∀ (s : State) (h : Hd) (d : BitVec 8) (a b : Src) (mt : BitVec 4) (add : BitVec 1),
    let m := s.lanesActive h.pi h.pn
    let opc : BitVec 64 := BitVec.ofNat 64 (s.inst.toNat / 2 ^ 86)
    let w (i : Nat) : Nat :=
      mt.toNat * 16384 + (s.permRead 0 a 0 i).toNat / 256 % 128 * 128 + (s.permRead 0 a 0 i).toNat % 128
    (lrTiles s.team.lr ≤ mt.toNat →
      TrapsL (.vaccr h d a mt) s .illOperand opc 0 ∧ TrapsL (.vaccw h a b mt add) s .illOperand opc 0) ∧
    (mt.toNat < lrTiles s.team.lr →
      (let names := if d = 239 then [] else [d.toNat]
       s.laneReady h.pi h.pn [] [(a, 1)] = true → s.hasRoom m [(a, 1)] names = true → d.toNat ≤ 239 →
        (∀ i ∈ lanesOf m, w i ∉ s.team.tilePoison) →
        Completes (.vaccr h d a mt) s fun t => LaneFrame { s with wlog := t.wlog } t m ∧ SameLog s t ∧
          LanePickFrame s t h.stall s.pick.seed [(a, 1)] names m 8 0 ∧
          (m = 0 ∨ d = 239 → PendingAfter s t [(a, 1)] []) ∧
          (m ≠ 0 → d ≠ 239 → ∃ val, VarResults s t [(a, 1)] d.toNat 1 m 8 val ∧
            (s.lanesSettled 0 → ∀ i ∈ lanesOf m, val 0 i = tget 0 s.team.tiles (w i)))) ∧
      (s.laneReady h.pi h.pn [] [(a, 1), (b, 1)] = true →
        (add = 1 → ∀ i ∈ lanesOf m, w i ∉ s.team.tilePoison) →
        Completes (.vaccw h a b mt add) s fun t =>
          LanePickFrame s t h.stall s.pick.seed [(a, 1), (b, 1)] [] m 8 0 ∧ PendingAfter s t [(a, 1), (b, 1)] [] ∧
          { t with picks := s.picks, teams := s.teams, dies := s.dies, wlog := s.wlog, nextW := s.nextW } = s ∧
          (∀ k, k ≠ s.cur → t.pickAt k = s.pickAt k) ∧ (∀ k, k ≠ s.pick.team → t.teamAt k = s.teamAt k) ∧
          { t.teamAt s.pick.team with li := s.team.li, tiles := s.team.tiles, tilePoison := s.team.tilePoison } = s.team ∧
          (s.lanesSettled 1 → ∀ x, tget 0 (t.teamAt s.pick.team).tiles x = ((lanesOf m).filter (fun i => w i == x)).foldl (fun old i =>
            if add = 1 then roundFp32 ((fp32 old).add (fp32 (s.permRead 1 b 0 i))) else s.permRead 1 b 0 i)
            (tget 0 s.team.tiles x)) ∧
          (∀ x, (∀ i ∈ lanesOf m, w i ≠ x) → tget 0 (t.teamAt s.pick.team).tiles x = tget 0 s.team.tiles x) ∧
          ∀ x, x ∈ (t.teamAt s.pick.team).tilePoison ↔ x ∈ s.team.tilePoison ∧ ∀ i ∈ lanesOf m, w i ≠ x))

/-! ## Events at a pick -/

/-- R48 to R50, R60, R61, R63, R105, R107, R165, R298: results reach their registers, the variable-latency ones leaving
their batch, the fixed-latency ones as the lane clk moves on to them; BLOCK_START puts every strand at its block's
target; BLOCK_END, with every strand at LEND, copies the written k-registers back and takes the block from its
batches; REGANG_RELEASE moves every strand on once all live fragments wait, and those that waited together go on
together; ISSUE_AGING_RISE raises a fragment that was passed over for 64 clks by a class. Results of a block are delivered at its end at the
latest (assumption log 24). -/
def Obligations.LaneProgress : Prop :=
  (∀ (s : State) (r : Pending),
     (r.isVar = true → s.pick.pending.filter (fun x => x.isVar && x.seq == r.seq) = [r] →
       (∀ x ∈ s.pick.pending, x.isVar = false → x.seq < r.seq → x.dest ≠ r.dest) →
       Completes (.variableLatencyResult r.seq) s fun t =>
         PickMoves s t ∧ s.pick.sameButResults t.pick ∧ Delivered s.pick t.pick r ∧ t.pick.clk = s.pick.clk ∧
         t.pick.pending = s.pick.pending.filter (fun x => !(x.isVar && x.seq == r.seq)) ∧
         ∀ n, t.pick.path n = if n = r.path ∧ n < 2 then
           ((s.pick.path n).onBatch r.batch (fun b => { b with ops := b.ops - 1 })).settle else s.pick.path n) ∧
     (r.isVar = false → s.pick.clk < r.due → s.pick.pending.filter (fun x => !x.isVar && decide (x.due ≤ r.due)) = [r] →
       Completes .fixedLatencyWrite s fun t =>
         PickMoves s t ∧ s.pick.sameButResults t.pick ∧ Delivered s.pick t.pick r ∧ t.pick.clk = r.due ∧
         t.pick.pending = s.pick.pending.filter (fun x => !(!x.isVar && decide (x.due ≤ r.due))) ∧
         ∀ n, t.pick.path n = s.pick.path n)) ∧
  ∀ s : State,
    (∀ b bs, s.pick.blocks = b :: bs → b.started = false → s.laneLive = true →
      (s.team.phase.isSaving = false ∨ s.pick.mode = true) → Completes .blockStart s fun t =>
        PickMoves { s with wlog := t.wlog } t ∧ SameLog s t ∧ s.pick.otherSide t.pick ∧
        { t.pick with queue := s.pick.queue, hqueue := s.pick.hqueue, lanes := s.pick.lanes, hlanes := s.pick.hlanes } =
          s.pick ∧
        t.pick.blocks = { b with started := true, since := s.nextW } :: bs ∧
        (∀ n < 8, t.pick.ls.strand n = { lpc := some b.target, mask := 15, fmtr := b.fmtr }) ∧
        ∃ f, t.pick.ls.frags = [f] ∧ f.strands = 255 ∧ f.waitAt = none ∧ f.hold = none) ∧
    (∀ b bs, s.pick.blocks = b :: bs → b.started = true → s.laneLive = true →
      (∀ n < 8, (s.pick.ls.strand n).lpc = none) →
      (∀ q ∈ s.pick.pending, (q.isVar = false ∨ q.dest = .nothing) ∧ ∀ n, q.dest ≠ .kreg n) → Completes .blockEnd s fun t =>
        PickMoves s t ∧ s.pick.otherSide t.pick ∧ t.pick.blocks = bs ∧ t.pick.ls = {} ∧
        { t.pick with queue := s.pick.queue, hqueue := s.pick.hqueue, lanes := s.pick.lanes, hlanes := s.pick.hlanes,
                      sregs := s.pick.sregs, spoison := s.pick.spoison, paths := s.pick.paths,
                      uncovered := s.pick.uncovered, huncovered := s.pick.huncovered } = s.pick ∧
        (∀ r, tget 0 t.pick.sregs r =
          if ∃ n, n < 16 ∧ r = b.capBase + n ∧ b.kWritten.getLsbD n = true ∧ ¬ (b.atW0 = true ∧ n = 0) then
            tget 0 b.k (r - b.capBase) else tget 0 s.pick.sregs r) ∧
        (∀ n, 2 ≤ n → t.pick.path n = s.pick.path n) ∧
        ∀ x y l, b.batches = x :: y :: l →
          t.pick.path 0 = ((s.pick.path 0).onBatch x (fun c => { c with blocks := c.blocks - 1 })).settle ∧
          t.pick.path 1 = ((s.pick.path 1).onBatch y (fun c => { c with blocks := c.blocks - 1 })).settle) ∧
    (let live := s.pick.ls.frags.filter s.pick.ls.fragLive
     s.laneLive = true → s.pick.running = true → live ≠ [] → (∀ f ∈ live, f.waitAt.isSome = true) →
      Completes .regangRelease s fun t =>
        PickMoves s t ∧ s.pick.otherSide t.pick ∧
        { t.pick with lanes := s.pick.lanes, hlanes := s.pick.hlanes, nextLane := s.pick.nextLane } = s.pick ∧
        (∀ n, (live.flatMap Fragment.members).count n ≤ 1 →
          t.pick.ls.strand n = if n ∈ live.flatMap Fragment.members then
            Strand.settle (nextL n (s.pick.ls.strand n)) else s.pick.ls.strand n) ∧
        ∀ f ∈ live, ∀ g ∈ live, f.waitAt = g.waitAt → ∀ n ∈ f.members, ∀ m ∈ g.members,
          (t.pick.ls.strand n).lpc = (t.pick.ls.strand m).lpc →
            ∃ h ∈ t.pick.ls.frags, n ∈ h.members ∧ m ∈ h.members ∧ h.waitAt = none) ∧
    ∀ n f, s.pick.ls.frags[n]? = some f → f.rise < 3 → 64 ≤ f.passed → s.pick.running = true →
      Completes (.issueAgingRise n) s fun t =>
        { t with picks := s.picks, frag := s.frag } = s ∧ (∀ k, k ≠ s.cur → t.pickAt k = s.pickAt k) ∧
        { t.pick with lanes := s.pick.lanes, hlanes := s.pick.hlanes } = s.pick ∧ t.pick.ls.strands = s.pick.ls.strands ∧
        t.pick.ls.frags = s.pick.ls.frags.set n { f with rise := f.rise + 1, passed := 0 }

/-- R94 to R97, R99, R182, R265, R422 to R424, R428: XFENCE_DRAIN_COMPLETE takes two events for a drain, the first marks the
oldest one finished, the second ends it; TRAP_DELIVERY delivers a trap that waited, in trap mode as a nested one, and none to a
parked pick; ASYNC_TRAP_DELIVERY delivers DIE_LOST at an instruction boundary with the mask of dies; PARK, where a bank's
surplus does not hold what the pick lacks, spills the names of its victim to the backing area; PARK_RESTORE reads the words and
their poison back from there. Delivery of DIE_LOST at the retire latch is the model's reading (assumption log 19), and what is
restored after parking (log 37). -/
def Obligations.PickInterruptions : Prop :=
  ∀ s : State,
    (∀ x xs, s.pick.xfences = x :: xs → Completes .xfenceDrainComplete s fun t =>
      PickMoves s t ∧ { t.pick with xfences := s.pick.xfences } = s.pick ∧
      t.pick.xfences = if x.drained then xs else { x with drained := true } :: xs) ∧
    (∀ r, s.pick.held = some r → s.pick.parked = true → exec .trapDelivery s = .next s) ∧
    (∀ r, s.pick.held = some r → s.pick.parked = false → s.pick.mode = true → s.ctx.ended = false →
      (s.worldAt s.ctx.world).policy.getLsbD 0 = false → Completes .trapDelivery s fun t =>
        (t.ctxAt s.team.ctx).ended = true ∧ (t.ctxAt s.team.ctx).st = 3 ∧ (t.ctxAt s.team.ctx).endStatus = 4 ∧
        (t.ctxAt s.team.ctx).endCause = BitVec.ofNat 8 r.cause.code ∧ t.mem = s.mem) ∧
    (∀ r, s.pick.held = some r → s.pick.wait = .none → s.pick.parked = false → s.pick.mode = false → r.async = false →
      (r.src = false ∨ ∀ f ∈ s.pick.ls.frags, f.hold = none) →
      Completes .trapDelivery s fun t =>
        TookTrap s t r.cause r.tval r.tmask r.src r.tspc ∧ t.pick.trec.frag = r.frag ∧ t.pick.trec.tinst = r.inst ∧
        t.pick.held = none ∧ t.pick.hqueue = [] ∧ t.pick.sregs = s.pick.sregs ∧
        { t with picks := s.picks, dies := s.dies, inst := s.inst } = s ∧ ∀ k, k ≠ s.cur → t.pickAt k = s.pickAt k) ∧
    (s.pick.live = true → s.pick.mode = false → s.pick.parked = false → s.pick.held = none → s.pick.dieLost ≠ 0 →
      s.pick.ls.frags.any (fun f => f.hold.isSome) = false →
      (s.pick.wait = .none ∨ ∃ a b i x l, s.pick.wait = .latch a b i x l) →
      Completes .asyncTrapDelivery s fun t =>
        t.pick.mode = true ∧ t.pick.spc = s.ctx.tvec ∧ t.pick.wb = s.ctx.twin ∧ t.pick.trec.cause = 0x30 ∧
        t.pick.trec.tval = s.pick.dieLost.setWidth 64 ∧ t.pick.trec.tspc = s.pick.spc ∧ t.pick.trec.async = true ∧
        t.pick.trec.src = true ∧ t.pick.trec.frag = 0 ∧ t.pick.trec.ob = s.pick.bpred ∧ t.pick.trec.owb = s.pick.wb ∧
        t.pick.trec.tfmtr = s.pick.fmtr ∧ t.pick.dieLost = 0 ∧ t.pick.sregs = s.pick.sregs ∧
        { t with picks := s.picks, dies := s.dies } = s ∧ ∀ k, k ≠ s.cur → t.pickAt k = s.pickAt k) ∧
    (∀ (bank v : Nat) (at_ : Nat → List Nat),
      let q := (s.pickAt v).drain
      let c := s.ctxAt (s.teamAt (s.pickAt v).team).ctx
      s.pick.parked = false → s.surplus s.team.die s.team.loom bank < s.pick.lacks bank →
      s.victim s.team.die s.team.loom bank = some v →
      (∀ n ∈ q.surplusNames, ∃ m, s.resolve2 c rightW (s.spillAt v n) 128 = .ok (at_ n, m)) →
      Completes (.park bank) s fun t =>
        t.pickAt v = { q with parked := true, parkOrd := s.fresh, spilled := q.spilled ++ q.surplusNames } ∧
        (∀ k, k ≠ v → t.pickAt k = s.pickAt k) ∧ t.teams = s.teams ∧ t.ctxs = s.ctxs ∧ t.ops = s.ops ∧
        (∀ a, (∀ n ∈ q.surplusNames, a ∉ (at_ n).flatMap paPlaces) → rdByte t.mem a = rdByte s.mem a) ∧
        ((q.surplusNames.flatMap (fun n => (at_ n).flatMap paPlaces)).Nodup →
          ∀ n ∈ q.surplusNames, ∀ i < 32, ∀ j < 4, ∀ a,
          (at_ n)[4 * i + j]? = some a → (rdByte t.mem (paHome a)).toNat = (tget 0 (q.name n).val i).toNat / 2 ^ (8 * j) % 256)) ∧
    (s.pick.parked = true → (∀ k ∈ s.loomPicks s.team.die s.team.loom,
        (s.pickAt k).parked = false ∨ s.pick.parkOrd ≤ (s.pickAt k).parkOrd) →
      (∀ b < 4,
        let n := (s.pick.spilled.filter (fun x => x % 4 == b)).length + s.pick.lacks b
        let ks := (s.loomPicks s.team.die s.team.loom).filter (fun k => !(s.pickAt k).parked)
        n = 0 ∨ n + (ks.map (fun k => (s.pickAt k).lacks b)).sum ≤ s.surplus s.team.die s.team.loom b) →
      ∀ at_ : Nat → List Nat,
      (∀ n ∈ s.pick.spilled, ∃ m, s.resolve2 s.ctx rightR (s.spillAt s.cur n) 128 = .ok (at_ n, m)) →
      Completes .parkRestore s fun t =>
        PickMoves s t ∧ t.pick.parked = false ∧ t.pick.spilled = [] ∧
        { t.pick with names := s.pick.names, parked := s.pick.parked, spilled := s.pick.spilled } = s.pick ∧
        (∀ n, n ∉ s.pick.spilled → t.pick.name n = s.pick.name n) ∧
        ∀ n ∈ s.pick.spilled, (t.pick.name n).st = .allocated ∧ ∀ i < 32,
          let word := ((at_ n).drop (4 * i)).take 4
          ((t.pick.name n).poison.getLsbD i = true ↔ s.poisoned word = true) ∧
          (s.settled deviceAgent = true → tget 0 (t.pick.name n).val i = BitVec.ofNat 32 (ofLe (s.devBytes word))))

/-! ## Engines and units -/

/-- R166, R172, R265, R334, R336, R339, R340, R349 to R351, R355, R359, R360, R363, R366, R367: the unit takes an operation; one
that completes makes the writes of its plan, leaves its batch and gives its reply. In the spec's words: SH.COPY, where source
and destination do not overlap, and SH.FILL; GA.GATH, GA.SCAT and GA.SEGRED with ADD; MX.ZERO, and MX.MMA of unscaled elements
that are no bit-planes into FP32; CO.PUT, CO.GET and CO.SIGNAL between contexts of this device, the put as written at the
peer's address, the get locally, the signal as an addition. The other functions complete with what their plan writes, the
model's own computation of their rules. A collective that starts sends its operand to every rank on this device. A rendezvous
over picks that all wait with one group mask that names exactly these picks forms if the fields that must agree do; if not,
each of the operations fails with JOINT_MISMATCH. That a collective's operands are delivered at its start is the model's choice
(assumption log 14), and that effects take place at completion (log 6). -/
def Obligations.EngineOperations : Prop :=
  (∀ (s : State) (k : Nat) (o : Op), s.opAt k = some o →
     let u := { s with cur := o.pick }
     let T := (s.pickAt o.pick).team
     let sc := (s.teamAt T).scratch
     (o.phase = .queued → s.canRun o = true → o.func ≠ 0x30 → o.func ≠ 0x31 → Completes (.engineOperationStart k) s fun t =>
       { t with ops := s.ops, cur := s.cur } = s ∧
       ∀ j x, s.opAt j = some x →
         t.opAt j = some (if j ∈ o.joint ∨ (o.joint = [] ∧ j = k) then { x with phase := .running } else x)) ∧
     (let v := u.setOp k { o with phase := .running }
      ∀ g data, o.phase = .queued → s.canRun o = true → o.joint = [] → v.coGroup { o with phase := .running } = .ok g →
       o.func = 0x30 ∨ (o.func = 0x31 ∧ g.mine = o.f 12 9) → v.coWindow { o with phase := .running } = true →
       v.groupRefusal g = none → v.collFailed o = none → v.coLocal { o with phase := .running } = .ok data → s.poison = [] →
       Completes (.engineOperationStart k) s fun t =>
         t.mem = s.mem ∧ t.picks = s.picks ∧ t.teams = s.teams ∧
         t.opAt k = some { o with phase := .running, sent := true } ∧
         ∀ e ∈ g.ranks, ∀ c, v.peerAt e = .here c → (o.f 0 12, o.cseq, g.mine, o.coShape, data) ∈ (t.ctxAt c).colls) ∧
     (∀ p, o.phase = .running → o.joint = [] → o.path ∈ [2, 3, 4, 6] → o.fail = none → s.opWaits o = false →
       ¬ (o.path = 2 ∧ o.shBar = true) → u.opPlan o = .ok p → p.bad = none → Completes (.pathOperationComplete k) s fun t =>
         let w := (u.noteOp o true).putWrites (u.opAgent o) p.writes
         OpEnded s t k o p.reply ∧ t.mem = w.mem ∧ t.poison = w.poison ∧
         ∀ j, (t.teamAt j).scratch = (w.teamAt j).scratch ∧ (t.teamAt j).tiles = (w.teamAt j).tiles) ∧
     (s.opFree o →
       (∀ pa : Nat → Nat, let n := o.f 128 32
        o.func = 0x04 → o.path = 2 → o.shBar = false → bit o.desc 56 = false → n % 4 = 0 →
        u.writesAt u.ctx rightW false (o.f 0 56) n pa → Completes (.pathOperationComplete k) s fun t =>
          OpEnded s t k o n ∧ SpaceWrote s t T false (o.f 0 56) n pa (fun i => (leBytes 4 (o.f 160 32))[i % 4]?)) ∧
       (o.func = 0x15 → o.path = 3 → Completes (.pathOperationComplete k) s fun t =>
         OpEnded s t k o 0 ∧ t.mem = s.mem ∧ (∀ j, (t.teamAt j).scratch = (s.teamAt j).scratch) ∧
         (∀ j, j ≠ T → (t.teamAt j).tiles = (s.teamAt j).tiles) ∧
         ∀ x, tget 0 (t.teamAt T).tiles x =
           if x < 16 * 16384 ∧ o.wa.getLsbD (x / 16384) = true then 0 else tget 0 (s.teamAt T).tiles x) ∧
       (∀ p (pa pb : Nat → Nat), s.poison = [] → u.opPlan o = .ok p → p.bad = none →
         (let n := o.f 128 32
          let s0 := bit o.desc 56
          let s1 := bit o.desc 120
          o.func = 0x00 → o.path = 2 → o.shBar = false → n % 4 = 0 →
          s0 ≠ s1 ∨ o.f 0 56 + n ≤ o.f 64 56 ∨ o.f 64 56 + n ≤ o.f 0 56 →
          u.readsAt u.ctx s0 (o.f 0 56) 4 (n / 4) pa → u.writesAt u.ctx rightW s1 (o.f 64 56) n pb →
          Completes (.pathOperationComplete k) s fun t =>
            OpEnded s t k o n ∧
            SpaceWrote s t T s1 (o.f 64 56) n pb (fun i => some (s.spaceByte T s0 (o.f 0 56 + i) (pa i)))) ∧
         (let z := 2 ^ o.f 152 2
          let n := o.f 128 20
          let lim := o.f 160 32
          let gs := bit o.desc 56
          let gb := o.f 0 56
          let la := o.f 96 20
          let idx (i : Nat) : Nat := ofLe (rdBytes sc (o.f 64 20 + 4 * i) 4)
          let count := ((List.range n).filter (fun i => idx i < lim)).length
          let naming (e : Nat) : List Nat := if e < lim then (List.range n).filter (fun i => idx i == e) else []
          let element (e : Nat) : Nat := ofLe ((List.range z).map (fun j => s.spaceByte T gs (gb + z * e + j) (pa (z * e + j))))
          o.path = 4 →
          (o.func = 0x28 → u.readsAt u.ctx gs gb z lim pa → Completes (.pathOperationComplete k) s fun t =>
            OpEnded s t k o count ∧ SpaceWrote s t T true la (z * n) pb (fun b =>
              if idx (b / z) < lim then
                some (s.spaceByte T gs (gb + z * idx (b / z) + b % z) (pa (z * idx (b / z) + b % z))) else none)) ∧
          (o.func = 0x29 → u.writesAt u.ctx rightW gs gb (z * lim) pb → Completes (.pathOperationComplete k) s fun t =>
            OpEnded s t k o count ∧ SpaceWrote s t T gs gb (z * lim) pb (fun b =>
              (naming (b / z)).getLast?.map (fun i => rdByte sc (la + z * i + b % z)))) ∧
          (o.func = 0x2A → o.f 154 4 = 0 → u.readsAt u.ctx gs gb z lim pa → u.writesAt u.ctx rightRW gs gb (z * lim) pb →
            Completes (.pathOperationComplete k) s fun t =>
            OpEnded s t k o count ∧ SpaceWrote s t T gs gb (z * lim) pb (fun b =>
              if naming (b / z) = [] then none
              else (leBytes z ((if bit o.desc 158 then 0 else element (b / z)) +
                ((naming (b / z)).map (fun i => ofLe (rdBytes sc (la + z * i) z))).sum))[b % z]?))) ∧
         (let v := u.asIssued o
          let (m, n, kk) := o.mxDims
          ∀ fa fb : Fmt, o.func = 0x10 → o.path = 3 → m ≤ 128 → n ≤ 128 → o.mxSc = false → o.fc = 8 →
            v.fmtGet v.team o.fa = .fmt fa → v.fmtGet v.team o.fb = .fmt fb →
            let xa := o.operandA m kk fa.width false
            let xb := o.operandB kk n fb.width false
            let code (x : Operand) (a b : Nat) : Nat :=
              bits (ofLe (rdBytes sc (x.addr + x.off a b / 8) ((x.off a b % 8 + x.w + 7) / 8))) (x.off a b % 8) x.w
            let A (i q : Nat) : Ext := fa.decode (if o.mxAlay = 1 then code xa q i else code xa i q)
            let B (q j : Nat) : Ext := fb.decode (if o.mxBlay = 0 then code xb q j else code xb j q)
            let g := if 8 < fa.width then 4 else o.mxBlock
            Completes (.pathOperationComplete k) s fun t =>
              OpEnded s t k o 0 ∧ t.mem = s.mem ∧ (∀ j, (t.teamAt j).scratch = (s.teamAt j).scratch) ∧
              (∀ j, j ≠ T → (t.teamAt j).tiles = (s.teamAt j).tiles) ∧
              (∀ i < m, ∀ j < n, let w := o.f 0 4 * 16384 + i * 128 + j
                tget 0 (t.teamAt T).tiles w = (List.range ((kk + g - 1) / g)).foldl (fun acc h =>
                  accumulate acc (groupSum (((List.range kk).filter (fun q => q / g == h)).map (fun q => (A i q, B q j)))
                    (.real 1) (.real 1))) (if bit o.desc 35 then 0 else tget 0 (s.teamAt T).tiles w)) ∧
              ∀ w, (∀ i < m, ∀ j < n, w ≠ o.f 0 4 * 16384 + i * 128 + j) →
                tget 0 (t.teamAt T).tiles w = tget 0 (s.teamAt T).tiles w))) ∧
     (let v := u.noteGroup o
      ∀ g c (pa pl : Nat → Nat), o.phase = .running → o.path = 5 → o.fail = none → u.settled (u.opAgent o) = true →
       s.poison = [] → (s.teamAt T).scratchPoison = [] → v.coGroup o = .ok g → v.coWindow o = true →
       v.peerAt ((g.ranks[o.f 12 9]?).getD (0, 0)) = .here c →
       let n := o.f 160 32
       let own := bit o.desc 28
       (o.func = 0x32 → n % 4 = 0 → u.readsAt u.ctx own (o.f 32 56) 4 (n / 4) pl → placesApart pa n →
        (∃ m, v.peerPas c rightW (o.f 96 56) n = .ok ((List.range n).map pa, m)) →
        Completes (.pathOperationComplete k) s fun t =>
          OpEnded (s.setPickAt o.pick { s.pickAt o.pick with puts := (t.pickAt o.pick).puts }) t k o 0 ∧
          SpaceWrote s t T false 0 n pa (fun i => some (s.spaceByte T own (o.f 32 56 + i) (pl i)))) ∧
       (o.func = 0x33 → u.writesAt u.ctx rightW own (o.f 32 56) n pl →
        (∃ m, v.peerPas c rightR (o.f 96 56) n = .ok ((List.range n).map pa, m)) →
        Completes (.pathOperationComplete k) s fun t =>
          OpEnded s t k o 0 ∧ SpaceWrote s t T own (o.f 32 56) n pl (fun i => some (rdByte s.mem (s.servePa (pa i))))) ∧
       (o.func = 0x34 → v.putPending o = false → placesApart pa 8 → (∀ i < 8, paMirrored (pa i) = paMirrored (pa 0)) →
        (∃ m, v.peerPas c rightRW (o.f 96 56) 8 = .ok ((List.range 8).map pa, m)) →
        Completes (.pathOperationComplete k) s fun t =>
          OpEnded (s.setPickAt o.pick { s.pickAt o.pick with rlxSeen := (t.pickAt o.pick).rlxSeen }) t k o 0 ∧
          (∀ j, (t.teamAt j).scratch = (s.teamAt j).scratch ∧ (t.teamAt j).tiles = (s.teamAt j).tiles) ∧
          (List.range 8).map (fun i => rdByte t.mem (paHome (pa i))) =
            leBytes 8 (ofLe ((List.range 8).map (fun i => rdByte s.mem (s.servePa (pa i)))) + o.f 192 64) ∧
          ∀ x, (∀ i < 8, x ∉ paPlaces (pa i)) → rdByte t.mem x = rdByte s.mem x))) ∧
  ∀ (s : State) (M : Nat),
    let old := s.oldestWaiting (s.cur / 64)
    old ≠ [] → (s.ops.map (·.1)).Nodup → (old.map (fun e => e.2.pick % 64)).Nodup →
    (∀ e ∈ old, e.2.gang.toNat % 2 ^ 48 = M) → (∀ n, M.testBit n = true ↔ ∃ e ∈ old, e.2.pick % 64 = n) →
    ((∀ e ∈ old, ∀ f ∈ old, e.2.jointKey = f.2.jointKey) → Completes .rendezvousForm s fun t =>
      { t with ops := s.ops, nextOp := s.nextOp } = s ∧ t.nextOp = s.nextOp + 1 ∧
      (∃ ks, (∀ k, k ∈ ks ↔ k ∈ old.map (·.1)) ∧
        ∀ e ∈ old, t.opAt e.1 = some { e.2 with joint := ks, ord := s.nextOp, phase := .queued }) ∧
      ∀ k, k ∉ old.map (·.1) → t.opAt k = s.opAt k) ∧
    ((∃ e ∈ old, ∃ f ∈ old, e.2.jointKey ≠ f.2.jointKey) → Completes .rendezvousForm s fun t =>
      { t with ops := s.ops } = s ∧ (∀ e ∈ old, t.opAt e.1 = some { e.2 with fail := some (6, .jointMismatch) }) ∧
      ∀ k, k ∉ old.map (·.1) → t.opAt k = s.opAt k)

/-- R369 to R378, R392, R499, R500, R520: the queries of the work distributor, the task unit and the format manager
with their answers, the binding of a format slot, and the write-back of the task table. Order of checks and the
tables of the units are the model's readings (assumption logs 25 and 26). -/
def Obligations.WorkUnits : Prop :=
  ∀ (s : State) (k : Nat) (o : Op),
    let T := (s.pickAt o.pick).team
    let L := (s.teamAt T).launch
    let l := s.launchAt L
    let at_ := o.wa.toNat
    let Done (P : State → Prop) : Prop := Completes (.pathOperationComplete k) s P
    (s.settled (s.opAgent o) = true → s.opAt k = some o → o.path = 7 → o.phase = .queued → s.queryTurn o = true →
      (o.func = 0x48 →
        let gx := (lrGrid l.lr).1
        let gy := (lrGrid l.lr).2
        let v (q : Nat) : Nat := q % gx + q / gx * 2 ^ 16 + q * 2 ^ 32
        (l.regrant = [] → l.gridNext < gx * gy → Done fun t =>
          Answered s t k o (v l.gridNext % 2 ^ 32) at_ 8 (v l.gridNext) ∧
          (t.launchAt L).gridNext = l.gridNext + 1 ∧ ∀ j, j ≠ L → t.launchAt j = s.launchAt j) ∧
        (l.regrant = [] → gx * gy ≤ l.gridNext → Done fun t =>
          Answered s t k o (2 ^ 32 - 1) at_ 8 (2 ^ 32 - 1 + gx * gy * 2 ^ 32) ∧ t.launches = s.launches) ∧
        ∀ q qs, l.regrant = q :: qs → Done fun t =>
          Answered s t k o (v q % 2 ^ 32) at_ 8 (v q) ∧ (t.launchAt L).regrant = qs ∧
          (t.launchAt L).gridNext = l.gridNext ∧ ∀ j, j ≠ L → t.launchAt j = s.launchAt j) ∧
      (o.func = 0x49 → o.f 56 8 < 16 →
        let Q := o.f 56 8
        let C := (s.teamAt T).ctx
        let x := tget ({} : Queue) (s.ctxAt C).queues Q
        (x.base = 0 → Done fun t => OpEnded s t k o 1 ∧ t.mem = s.mem ∧ t.ctxs = s.ctxs) ∧
        (x.base ≠ 0 → 64 ≤ x.device.length → Done fun t => OpEnded s t k o 2 ∧ t.mem = s.mem ∧ t.ctxs = s.ctxs) ∧
        (x.base ≠ 0 → x.device.length < 64 → Done fun t =>
          tget ({} : Queue) (t.ctxAt C).queues Q = { x with device := x.device ++ [(k, o.f 0 56)] } ∧
          t.opAt k = some { o with phase := .running, res := x.tail.toNat } ∧ t.picks = s.picks ∧ t.mem = s.mem)) ∧
      (o.func = 0x50 →
        (∀ (i : Nat) (x : Task), l.frozen = false → l.tasks[i]? = some x → x.ready = true →
          (∀ (j : Nat) (y : Task), l.tasks[j]? = some y → y.ready = true → y.pri < x.pri ∨ (y.pri = x.pri ∧ i ≤ j)) →
          Done fun t =>
            let v := i + x.pri * 2 ^ 12 + x.arg.toNat * 2 ^ 32
            Answered s t k o (v % 2 ^ 32) at_ 8 v ∧ (∀ j, j ≠ L → t.launchAt j = s.launchAt j) ∧
            (t.launchAt L).tasks = l.tasks.set i { x with issued := true, holder := T }) ∧
        ∀ v, v = (if l.frozen then 0xFFFFFFFD else if l.tasks.all (·.done) then 0xFFFFFFFF else 0xFFFFFFFE) →
          (l.frozen = true ∨ ∀ x ∈ l.tasks, x.ready = false) → Done fun t =>
            Answered s t k o v at_ 8 v ∧ t.launches = s.launches) ∧
      (o.func = 0x51 → ∀ x : Task, l.tasks[at_]? = some x → l.frozen = false →
        let next := x.succ.take x.ns
        ((next.Nodup ∧ at_ ∉ next ∧ ∀ j ∈ next, ∃ y : Task, l.tasks[j]? = some y ∧ y.dep ≠ 0) → Done fun t =>
          OpEnded s t k o (next.filter (fun j => ((l.tasks[j]?).getD {}).dep == 1)).length ∧ t.mem = s.mem ∧
          (∀ j, (t.launchAt L).tasks[j]? = (l.tasks[j]?).map (fun y => if j = at_ then { y with done := true }
            else if j ∈ next then { y with dep := y.dep - 1 } else y)) ∧ (t.launchAt L).frozen = false ∧
          ∀ j, j ≠ L → t.launchAt j = s.launchAt j) ∧
        ∀ j js, next = j :: js → j ≠ at_ → ((l.tasks[j]?).getD {}).dep = 0 → (∀ r n, (s.pickAt o.pick).wait ≠ .cop k r n) →
          Done fun t => (t.launchAt L).frozen = true ∧ (t.launchAt L).tasks = l.tasks.set at_ { x with done := true } ∧
            t.opAt k = none ∧ (∃ m : FaultMsg, t.faultLog = s.faultLog ++ [m] ∧ m.toNat % 256 = 3) ∧
            t.pickAt o.pick = (s.pickAt o.pick).opLeave 7 o.batch (some (.depUnderflow,
              BitVec.ofNat 64 (0x51 * 2 ^ 20 + o.wa.toNat % 2 ^ 20)))) ∧
      (o.func = 0x52 → ∀ x : Task, l.tasks[at_]? = some x → l.frozen = false → x.issued = false → x.done = false →
        0 < o.wb.toNat → o.wb.toNat ≤ 4095 → x.dep + o.wb.toNat < 4096 → Done fun t =>
          OpEnded s t k o (x.dep + o.wb.toNat) ∧ t.mem = s.mem ∧
          (t.launchAt L).tasks = l.tasks.set at_ { x with dep := x.dep + o.wb.toNat } ∧
          ∀ j, j ≠ L → t.launchAt j = s.launchAt j) ∧
      (let D := (s.teamAt T).die
       let N := (s.teamAt T).loom
       let x := s.slotAt D N at_
       (o.func = 0x60 → Done fun t =>
          let b := x.loading = none ∧ x.bound ≠ none
          Answered s t k o (if b then 1 else 0) o.wb.toNat 16
            ((if b then ((x.bound.map (fun d => d.word.toNat)).getD 0) + 2 ^ 64 else 0) +
              (if (s.teamAt T).refs.getLsbD at_ then 2 ^ 65 else 0) + s.slotRefs D N at_ % 2 ^ 16 * 2 ^ 72) ∧
          t.slots = s.slots) ∧
       (o.func = 0x61 → ∀ d : Draft, x.loading = none → x.bound = some d → d.word.toNat = o.desc % 2 ^ 64 → Done fun t =>
          t.opAt k = some { o with phase := .running, sent := true, res := 1 } ∧ t.mem = s.mem ∧ t.slots = s.slots ∧
          (t.teamAt T).refs = (s.teamAt T).refs ||| (1#8 <<< at_)))) ∧
    (s.settled (s.opAgent o) = true → s.opAt k = some o → o.path = 7 → o.phase = .running → o.sent = true → o.func = 0x61 →
      Done fun t =>
      Answered s t k o o.res (o.wb.toNat + 8) 8 o.res) ∧
    (∀ (die loom slot tm j : Nat) (d : Draft),
      let x := s.slotAt die loom slot
      let m := s.teamAt tm
      x.loading = some d → x.waiters = [(tm, j)] → s.loadTurn die loom slot = true →
      (∃ y ∈ (s.worldAt (s.dieAt die).world).drafts, y.word = d.word) →
      (j = 0 → m.phase = .binding → (∀ e ∈ m.needs, slotKey die loom e.1 = slotKey die loom slot ∨
          (tm, 0) ∉ (s.slotAt m.die m.loom e.1).waiters) → m.die = die → m.loom = loom →
        Completes (.slotBindComplete die loom slot) s fun t =>
          t.slotAt die loom slot = { bound := some d } ∧ t.teamAt tm = { m with phase := .running } ∧
          { t with slots := s.slots, teams := s.teams } = s) ∧
      ∀ x, j ≠ 0 → s.opAt j = some x → x.phase = .running → Completes (.slotBindComplete die loom slot) s fun t =>
        t.slotAt die loom slot = { bound := some d } ∧ t.opAt j = some { x with sent := true } ∧
        t.teamAt tm = { m with refs := m.refs ||| (1#8 <<< slot) } ∧
        { t with slots := s.slots, teams := s.teams, ops := s.ops } = s) ∧
    ∀ (n : Nat) (pas : List Nat) (tm : Nat),
      let l := s.launchAt n
      l.tasks ≠ [] → l.wroteBack = false → l.lives.length = l.total → lrTasktab l.lr % 4 = 0 →
      (∀ e ∈ l.lives, e.2 = .finished ∨ ∃ j, e.2 = .live j ∧
        ((s.teamAt j).phase = .published ∨ ∃ st, (s.teamAt j).phase = .done st)) →
      s.resolve (s.ctxAt l.ctx) rightW (lrTasktab l.lr) (16 * l.tasks.length) = .ok (pas, tm) →
      (pas.flatMap paPlaces).Nodup →
      Completes (.taskTableWriteback n) s fun t =>
        MemWrote s t pas (l.tasks.flatMap (fun x => leBytes 16 x.bytes)) ∧ t.launchAt n = { l with wroteBack := true } ∧
        (∀ j, j ≠ n → t.launchAt j = s.launchAt j) ∧ t.picks = s.picks ∧ t.teams = s.teams ∧ Touched s t l.ctx tm

/-! ## Teams, launches and contexts -/

/-- R42 to R44, R71 to R73, R86, R445: TEAM_START of the first ready team of a launch on a loom that admits it makes a
running team with its picks, each at its role's entry with the start values of its registers. COMPLETION_PUBLISH of
a team that has ended, with nothing of it outstanding, writes its completion record at COMPL + 16 × index; the team
and its index are finished, and the last index ends the launch. The numbering of teams and picks is the model's own
(assumption log 2). -/
def Obligations.TeamLife : Prop :=
  (∀ (s : State) (n i die loom : Nat),
     let l := s.launchAt n
     let T := s.nextTeam
     s.firstReady n = some i → s.earlierStarts n = false → lrCoop l.lr = false → s.canStart n i die loom = true →
     l.life i = .unstarted → lrDmask l.lr = 0 →
     Completes (.teamStart n i die loom) s fun t =>
       let m := t.teamAt T
       m.phase = .running ∧ m.ctx = l.ctx ∧ m.launch = n ∧ m.index = i ∧ m.die = die ∧ m.loom = loom ∧ m.lr = l.lr ∧
       m.scratch = [] ∧ m.tiles = [] ∧ m.picks = (List.range (lrP l.lr)).map (64 * T + ·) ∧
       (t.launchAt n).life i = .live T ∧ t.nextTeam = T + 1 ∧ t.mem = s.mem ∧ t.ops = s.ops ∧
       (∀ k, k ≠ T → t.teamAt k = s.teamAt k) ∧ (∀ k, k ≠ n → t.launchAt k = s.launchAt k) ∧
       (∀ k, k ∉ m.picks → t.pickAt k = s.pickAt k) ∧
       ∀ k < lrP l.lr,
         let p := t.pickAt (64 * T + k)
         let role := lrRoleOf l.lr k
         p.live = true ∧ p.team = T ∧ p.index = k ∧ p.role = role.1 ∧ p.qidx = role.2 ∧
         p.spc.toNat = lrEntry l.lr role.1 % 2 ^ 32 ∧ p.wb = 0 ∧ p.bpred = 1 ∧ p.gang = 0 ∧ p.fmask = 0 ∧ p.mode = false ∧
         p.names = [] ∧ p.preds = [] ∧ p.queue = [] ∧ p.paths = [] ∧ p.wait = .none ∧
         p.fmtr = fmtrClean (lrFmtr l.lr) ∧ p.tcfg = tcfgClean (lrTcfg l.lr) ∧
         p.seed = lrSeed l.lr ^^^ BitVec.ofNat 32 (64 * i + k) ∧
         (∀ e ∈ ([(1, i), (2, k), (3, role.1), (4, role.2), (13, die * 256 + loom), (14, l.total), (15, lrP l.lr)] :
           List (Nat × Nat)), tget 0 p.sregs e.1 = BitVec.ofNat 32 e.2) ∧
         -- s5 to s12: the digits of the team index, the pick index at the team level
         (let tl := lrTeamLevel l.lr
          let counts := (lrLevels l.lr).map lvCount
          ∀ v < 8, tget 0 p.sregs (5 + v) = BitVec.ofNat 32 (if v < tl then 0 else if v = tl then k
            else if v < counts.length then i / ((counts.take v).drop (tl + 1)).prod % (counts[v]?).getD 1 else 0)) ∧
         ∀ r, 15 < r → tget 0 p.sregs r = 0) ∧
  ∀ (s : State) (status : Nat) (pas : List Nat) (tm : Nat),
    let T := s.cur / 64
    let m := s.teamAt T
    let l := s.launchAt m.launch
    m.phase = .done status → status ≠ 3 → m.waitOps = [] → m.pred = 0 → (∀ e ∈ s.ops, e.2.pick / 64 ≠ T) →
    s.awaitsTable m = false →
    lrCompl m.lr % 4 = 0 →
    s.resolve (s.ctxAt m.ctx) rightW (lrCompl m.lr + 16 * m.index) 16 = .ok (pas, tm) → (pas.flatMap paPlaces).Nodup →
    Completes .completionPublish s fun t =>
      MemWrote s t pas (leBytes 16 (status + m.cause.toNat * 2 ^ 8 + m.pre % 4 * 2 ^ 16 + (if m.foor then 2 ^ 18 else 0) +
        (if m.flate then 2 ^ 19 else 0) + min m.precnt 15 * 2 ^ 20 + m.fpicks % 256 * 2 ^ 24 + m.flanes.toNat * 2 ^ 32 +
        m.die * 2 ^ 64 + (s.dieAt m.die).cycles.toNat % 2 ^ 56 * 2 ^ 72)) ∧
      (t.teamAt T).phase = .published ∧ (∀ k, k ≠ T → t.teamAt k = s.teamAt k) ∧
      (t.launchAt m.launch).life m.index = .finished ∧ (∀ i, i ≠ m.index → (t.launchAt m.launch).life i = l.life i) ∧
      ((t.launchAt m.launch).ended = true ↔
        (((t.launchAt m.launch).lives.filter (fun e => e.2 == .finished)).length = l.total)) ∧
      (∀ k, k ≠ m.launch → t.launchAt k = s.launchAt k) ∧
      { t with mem := s.mem, poison := s.poison, wlog := s.wlog, nextW := s.nextW, fadds := s.fadds,
               teams := s.teams, launches := s.launches } = s

/-- R397 to R403: RETIRE_LATCH_FORM of a team all of whose picks wait at the latch: with unlike operands each RETIRE
traps with SUCC_SHAPE, reason 1; with a record that validates and fits, the successor forms, keeping the scratch
granules and the scalar and lane registers that the inheritance record names, while a team of a new number
publishes RETIRED. SUCCESSOR_START starts its picks once its loom admits them. Whose records count is the model's
reading (assumption log 22). -/
def Obligations.Successors : Prop :=
  ∀ s : State,
    let T := s.cur / 64
    let m := s.teamAt T
    let latched (k : Nat) (a b : Word) (x r : Nat) : Prop :=
      (∃ i, (s.pickAt k).wait = .latch a b i x r) ∧ (s.pickAt k).parked = false
    (∀ (k0 : Nat) (ks : List Nat) (a b : Word) (x r : Nat), m.picks = k0 :: ks → m.phase = .running →
      latched k0 a b x r → (∀ k ∈ ks, ∃ a' b' x' r', latched k a' b' x' r') →
      ((∃ k ∈ ks, ∃ a' b' x' r', latched k a' b' x' r' ∧ (a', b') ≠ (a, b)) →
        (∀ k ∈ m.picks, ({ s with cur := k } : State).takesTraps) → Completes .retireLatchForm s fun t =>
          (∀ k ∈ m.picks, TookTrap { s with cur := k } { t with cur := k } .succShape 1 0 true (s.pickAt k).spc) ∧
          (∀ k, k ∉ m.picks → t.pickAt k = s.pickAt k) ∧ t.mem = s.mem ∧ t.teams = s.teams) ∧
      ∀ lr ts, (∀ k ∈ ks, ∃ x' r', latched k a b x' r') → T < s.nextTeam →
        s.validate (s.recordAgent k0) m.ctx r true = .ok (lr, ts) →
        shapeReason m.lr lr x = 0 → Completes .retireLatchForm s fun t =>
          (t.teamAt T).phase = .successor ∧ (t.teamAt T).lr = lr ∧ (t.teamAt T).lrec = r ∧
          (t.teamAt T).index = m.index ∧ (t.teamAt T).launch = m.launch ∧ t.mem = s.mem ∧ t.nextTeam = s.nextTeam + 1 ∧
          (∀ y, rdByte (t.teamAt T).scratch y = if inhHas x (y / 256) then rdByte m.scratch y else 0) ∧
          (t.teamAt s.nextTeam).phase = .done 3 ∧ (t.teamAt s.nextTeam).index = m.index ∧
          (t.teamAt s.nextTeam).launch = m.launch ∧ (t.teamAt s.nextTeam).picks = [] ∧
          (t.teamAt T).picks = (heirs T m.lr lr x m.picks).map (fun e => 64 * T + e.1) ∧
          ∀ e ∈ heirs T m.lr lr x m.picks,
            let p := (s.pickAt e.2).flush (fun r => !r.isVar)
            (∀ y, tget 0 (t.pickAt (64 * T + e.1)).sregs y = if y < x / 2 ^ 8 % 2 ^ 10 then tget 0 p.sregs y else 0) ∧
            ∀ y, y < x % 2 ^ 8 → (p.name y).st = .allocated → (t.pickAt (64 * T + e.1)).name y = p.name y) ∧
    (m.phase = .successor → m.slotWords = [] → lrDmask m.lr = 0 →
      s.admits (s.ctxAt m.ctx).world m.lr [] m.die m.loom T = true →
      (let u := s.buildSuccessor T
       ∀ b < 4, ((u.loomPicks m.die m.loom).map (fun k => max (u.pickAt k).reserve ((u.pickAt k).holds b))).sum ≤ 1024) →
      Completes .successorStart s fun t =>
        (t.teamAt T).phase = .running ∧ (t.teamAt T).scratch = m.scratch ∧ (t.teamAt T).tiles = m.tiles ∧
        (t.teamAt T).picks = (List.range (lrP m.lr)).map (64 * T + ·) ∧ t.mem = s.mem ∧ t.ops = s.ops ∧
        (∀ k, k ≠ T → t.teamAt k = s.teamAt k) ∧
        ∀ n < lrP m.lr,
          let p := s.pickAt (64 * T + n)
          let q := t.pickAt (64 * T + n)
          q.live = true ∧ q.spc.toNat = lrEntry m.lr (lrRoleOf m.lr n).1 % 2 ^ 32 ∧ q.wb = 0 ∧ q.gang = 0 ∧ q.fmask = 0 ∧
          q.seed = lrSeed m.lr ^^^ BitVec.ofNat 32 (64 * m.index + n) ∧
          (64 * T + n ∈ m.picks → q.names = p.names ∧ q.paths = p.paths ∧ q.slot = p.slot ∧
            ∀ y < m.inherit / 2 ^ 8 % 2 ^ 10, tget 0 q.sregs y = tget 0 p.sregs y))

/-- R438 to R440, R447, R448: SUBMISSION takes the next entry of a ring: an accepted launch gets its number and STATUS
0, a refused one its status and nothing else; HEAD advances. DEPENDENCY_EDGE_CHECK notes an edge whose records all
completed; one that is broken is reported once, and the launch's unstarted teams finish without starting; so do
those of a context that has ended. One event examines one ring entry or the edges of one launch (assumption logs 2
and 27). -/
def Obligations.LaunchesAndEdges : Prop :=
  ∀ s : State,
    (∀ (ctx q : Nat) (pas pw : List Nat) (tm tw : Nat),
      let c := s.ctxAt ctx
      let x := tget ({} : Queue) c.queues q
      let va := x.base + 32 * (x.head.toNat % 2 ^ x.log2)
      let rec_ := ofLe (s.devBytes pas) % 2 ^ 56
      let u := s.count 12 (0x002 + 1024 * c.world) 1
      let Took (t : State) (st n : Nat) : Prop :=
        MemWrote s t pw (leBytes 8 st ++ leBytes 8 n) ∧
        tget ({} : Queue) (t.ctxAt ctx).queues q = { x with head := x.head + 1 } ∧
        (∀ k, k ≠ q → tget ({} : Queue) (t.ctxAt ctx).queues k = tget ({} : Queue) c.queues k) ∧
        (∀ k, k ≠ ctx → t.ctxAt k = s.ctxAt k) ∧ t.picks = s.picks ∧ t.teams = s.teams ∧ t.ops = s.ops
      s.settled deviceAgent = true → c.live = true → x.base ≠ 0 → x.base % 4 = 0 → x.device = [] → x.head ≠ x.upto →
      s.resolve c rightR va 32 = .ok (pas, tm) → s.poisoned pas = false →
      u.resolve c rightW (va + 16) 16 = .ok (pw, tw) → (pw.flatMap paPlaces).Nodup →
      (∀ st, u.validate deviceAgent ctx rec_ false = .error st → Completes (.submission ctx q) s fun t =>
        Took t st 0 ∧ t.launches = s.launches ∧ (t.ctxAt ctx).nextLnum = c.nextLnum) ∧
      ∀ lr ts, u.validate deviceAgent ctx rec_ false = .ok (lr, ts) → Completes (.submission ctx q) s fun t =>
        Took t 0 c.nextLnum ∧ (t.ctxAt ctx).nextLnum = c.nextLnum + 1 ∧ t.nextLaunch = s.nextLaunch + 1 ∧
        t.launchAt s.nextLaunch =
          { ctx, lnum := c.nextLnum, lrec := rec_, lr, order := s.nextLaunch, total := lrTotal lr, tasks := ts
            carry := s.knownIds deviceAgent, subW := s.nextW } ∧
        ∀ k, k ≠ s.nextLaunch → t.launchAt k = s.launchAt k) ∧
    ∀ n : Nat,
      let l := s.launchAt n
      let c := s.ctxAt l.ctx
      l.total ≠ 0 → l.ended = false →
      (c.ended = true → Completes (.dependencyEdgeCheck n) s fun t =>
        (∀ i < l.total, l.life i = .unstarted → (t.launchAt n).life i = .finished) ∧ t.picks = s.picks ∧
        t.teams = s.teams ∧ t.ops = s.ops ∧ ∀ k, k ≠ n → t.launchAt k = s.launchAt k) ∧
      ∀ base cnt, c.ended = false → lrCoop l.lr = false → lrNdep l.lr = 1 → lrEdge l.lr 0 = (base, cnt, 1) →
        l.met = [] →
        ((∀ i < cnt, (s.statusAt l.ctx (base + 16 * i)).1 = 1 ∨ (s.statusAt l.ctx (base + 16 * i)).1 = 2) →
          Completes (.dependencyEdgeCheck n) s fun t =>
            { t with launches := s.launches } = s ∧ (t.launchAt n).met = [(0, 2 ^ 32)] ∧ (t.launchAt n).edgesMet 0 = true ∧
            (t.launchAt n).lives = l.lives ∧ ∀ k, k ≠ n → t.launchAt k = s.launchAt k) ∧
        ∀ i < cnt, (∀ j < i, breaks (s.statusAt l.ctx (base + 16 * j)).1 = false) →
          4 ≤ (s.statusAt l.ctx (base + 16 * i)).1 → (s.statusAt l.ctx (base + 16 * i)).1 ≤ 7 → l.broken = [] →
          Completes (.dependencyEdgeCheck n) s fun t =>
            (∃ e : FaultMsg, t.faultLog = s.faultLog ++ [e] ∧ e.toNat % 2 ^ 8 = 4 ∧
              e.toNat / 2 ^ 224 % 2 ^ 32 = i ∧ e.toNat / 2 ^ 256 % 2 ^ 8 = (s.statusAt l.ctx (base + 16 * i)).1) ∧
            (∀ j < l.total, l.life j = .unstarted → (t.launchAt n).life j = .finished) ∧ t.picks = s.picks ∧
            t.teams = s.teams ∧ t.ops = s.ops ∧ ∀ k, k ≠ n → t.launchAt k = s.launchAt k

/-- R450 to R458: PREEMPT_REQUEST stops a context with no resident team at once, and decides for a single one: a drain
with its deadline, a discard, or a save into its area; DRAIN_TURNS_SAVE turns a drain into a save when the time
left no longer exceeds S; TEAM_SAVE of a team at its safe points leaves it saved; RESUME sets a stopped context
running. Names that a parked pick has spilled are read back before its image is written; a spill that does not translate
raises its fault, and the team goes on saving. The start time, the 5/9 ns of a clk and the count of BY in the decision are
readings of assumption log 35; image packing and records that cannot be written are the model's choices (logs 9 and 10). -/
def Obligations.Preemption : Prop :=
  ∀ s : State,
    (∀ ctx : Nat,
      let c := s.ctxAt ctx
      let ts := s.teams.filter (fun e => e.2.ctx == ctx && e.2.phase.resident)
      c.live = true → c.ended = false → c.prqgo = false →
      (ts = [] → c.prqWaiting = false → Completes (.preemptRequest (.context ctx)) s fun t =>
        t.ctxAt ctx = { c with st := 2, prqgo := false, prqCount := 0, prqdone := 0 } ∧ { t with ctxs := s.ctxs } = s ∧
        ∀ k, k ≠ ctx → t.ctxAt k = s.ctxAt k) ∧
      ∀ (T : Nat) (m : Team), ts = [(T, m)] → s.teamAt T = m → (s.teams.map (·.1)).Pairwise (· < ·) →
        lrCoop (s.launchAt m.launch).lr = false →
        let act := decideTeam { m with by_ := s.bytesOf m } c.prqalw (((s.dieAt m.die).cycles.toNat - m.started : Nat) * 5 / 9) (c.prqdl * 1000 : Nat)
        let dl := s.ns m.die + c.prqdl * 1000
        let n := imageBytes m.lr
        let m1 := { m with precnt := min 15 (m.precnt + 1) }
        (act = 1 → Completes (.preemptRequest (.context ctx)) s fun t =>
          t.teamAt T = { m1 with phase := .draining dl 1, pre := 1 } ∧ (t.ctxAt ctx).st = 1 ∧ (t.ctxAt ctx).prqgo = true ∧
          { t with ctxs := s.ctxs, teams := s.teams } = s) ∧
        (∀ o, act = 3 → saveRoom c.saveSize n c.saveUsed = some o → Completes (.preemptRequest (.context ctx)) s fun t =>
          t.teamAt T = { m1 with phase := .saving 3 o n, pre := 3 } ∧ (t.ctxAt ctx).saveUsed = (o, n) :: c.saveUsed ∧
          (t.ctxAt ctx).st = 1 ∧ (t.ctxAt ctx).prqgo = true ∧ { t with ctxs := s.ctxs, teams := s.teams } = s) ∧
        (act = 3 → m.succWait = false → saveRoom c.saveSize n c.saveUsed = none → Completes (.preemptRequest (.context ctx)) s fun t =>
          t.teamAt T = { m1 with phase := .draining dl 5, pre := 1 } ∧ { t with ctxs := s.ctxs, teams := s.teams } = s) ∧
        (act = 2 → (∀ e ∈ s.ops, e.2.pick / 64 ≠ T) → Completes (.preemptRequest (.context ctx)) s fun t =>
          (t.teamAt T).phase = .discarded ∧ (t.teamAt T).picks = [] ∧ (t.teamAt T).scratch = [] ∧ t.ops = s.ops ∧
          (∀ k ∈ m.picks, t.pickAt k = {}) ∧ (∀ k, k ∉ m.picks → t.pickAt k = s.pickAt k) ∧ (t.ctxAt ctx).st = 2)) ∧
    (let m := s.teamAt (s.cur / 64)
     let c := s.ctxAt m.ctx
     (∀ dl : Nat, m.phase = .draining dl 1 →
      ((saveTime m.lr < (dl : ℚ) - (s.ns m.die : ℚ)) → exec .drainTurnsSave s = .next s) ∧
      (((dl : ℚ) - (s.ns m.die : ℚ) ≤ saveTime m.lr) →
        (∀ o, saveRoom c.saveSize (imageBytes m.lr) c.saveUsed = some o → Completes .drainTurnsSave s fun t =>
          t.teamAt (s.cur / 64) = { m with phase := .saving 4 o (imageBytes m.lr), pre := 3 } ∧
          (t.ctxAt m.ctx).saveUsed = (o, imageBytes m.lr) :: c.saveUsed ∧
          { t with ctxs := s.ctxs, teams := s.teams } = s) ∧
        (saveRoom c.saveSize (imageBytes m.lr) c.saveUsed = none → Completes .drainTurnsSave s fun t =>
          t.teamAt (s.cur / 64) = { m with phase := .draining dl 5 } ∧ { t with teams := s.teams } = s))) ∧
     ∀ (out off size : Nat), m.phase = .saving out off size →
      (∀ k ∈ m.picks, s.stoppable (s.pickAt k) = true) → (∀ e ∈ s.ops, e.2.pick / 64 ≠ s.cur / 64) →
      (∀ k st lvl a va, k ∈ m.picks → (s.pickAt k).parked = true → (∀ j ∈ m.picks, j ≠ k → (s.pickAt j).parked = false) →
        s.spillPlaces k (s.pickAt k).spilled rightR = .error (.xlate st lvl a va) → Completes .teamSave s fun t =>
          t.teams = s.teams ∧ t.picks = s.picks ∧ t.mem = s.mem ∧ ∃ f ∈ (t.ctxAt (s.teamAt (s.pickAt k).team).ctx).faults, f.who = .inr (.inl (k, 0))) ∧
      ∀ (tm : Nat) (pas : List Nat) (w : State),
       ((w = s ∧ ∀ k ∈ m.picks, (s.pickAt k).parked = false) ∨
        ∃ k at_, k ∈ m.picks ∧ (s.pickAt k).parked = true ∧ (∀ j ∈ m.picks, j ≠ k → (s.pickAt j).parked = false) ∧
          s.spillPlaces k (s.pickAt k).spilled rightR = .ok at_ ∧ w = s.setPickAt k (s.unparked k at_)) →
       s.resolve2 c rightW (c.saveBase + off) size = .ok (pas, tm) → Completes .teamSave s fun t =>
        let u := m.picks.foldl (fun v k => (v.setPickAt k (v.savedPick k)).countAborts k) w
        (t.teamAt (s.cur / 64)).phase = .saved off size ∧ (t.teamAt (s.cur / 64)).refs = 0 ∧ t.picks = u.picks ∧
        (t.teamAt (s.cur / 64)).scratch = m.scratch ∧ t.ops = s.ops ∧
        (let v := u.storePas deviceAgent pas (u.imageOf (s.cur / 64))
         let pr : List Nat := match v.resolve (v.ctxAt m.ctx) rightW (c.prqrec + 32 * c.prqCount) 32 with
           | .ok r => r.1
           | .error _ => []
         (c.saveBase + off) % 4 = 0 → (pas.flatMap paPlaces).Nodup →
         ∀ a, a ∉ pr.flatMap paPlaces →
           rdByte t.mem a = ((placed pas (u.imageOf (s.cur / 64))).lookup a).getD (rdByte s.mem a))) ∧
    ∀ ctx : Nat,
      let c := s.ctxAt ctx
      let saved := s.teams.filter (fun e => e.2.ctx == ctx && (match e.2.phase with | .saved _ _ => true | _ => false))
      s.settled deviceAgent = true → c.live = true → c.ended = false → c.st = 2 → c.s1Written = true →
      c.rbWritten = true → (saved = [] → Completes (.resume ctx) s fun t => { t with ctxs := s.ctxs } = s ∧ t.ctxAt ctx = { c with st := 0 } ∧
        ∀ k, k ≠ ctx → t.ctxAt k = s.ctxAt k) ∧
      ∀ (T off size tm : Nat) (m : Team) (pas : List Nat), saved = [(T, m)] → s.teamAt T = m → m.phase = .saved off size →
        s.resolve2 c rightR (c.saveBase + off) size = .ok (pas, tm) →
        (s.poisoned pas = true → Completes (.resume ctx) s fun t =>
          (t.ctxAt ctx).ended = true ∧ (t.ctxAt ctx).endStatus = 6 ∧ t.mem = s.mem) ∧
        let rd := imgOf (s.devBytes pas)
        (s.poisoned pas = false → s.fromImg T rd = none → Completes (.resume ctx) s fun t =>
          (t.ctxAt ctx).ended = true ∧ (t.ctxAt ctx).endStatus = 6 ∧ t.mem = s.mem) ∧
        (s.poisoned pas = false → (∃ u, s.fromImg T rd = some u) →
          (∀ n < 8, rd (0x40 + 8 * n) 8 ≠ 0 → (s.draftOf c.world (rd (0x40 + 8 * n) 8)).isSome = true) →
          Completes (.resume ctx) s fun t =>
            t.ctxAt ctx = { c with st := 0 } ∧ (∀ k, k ≠ ctx → t.ctxAt k = s.ctxAt k) ∧
            { t with ctxs := s.ctxs, teams := s.teams, picks := s.picks, ops := s.ops } = s ∧
            (∀ k, k ≠ T → t.teamAt k = s.teamAt k) ∧ (∀ k, k ∉ m.picks → t.pickAt k = s.pickAt k) ∧
            (t.teamAt T).phase = m.phase ∧ (t.teamAt T).picks = m.picks ∧ (t.teamAt T).li = rd 0x20 8 ∧
            (t.teamAt T).by_ = rd 0x28 8 ∧ (t.teamAt T).precnt = rd 0x30 1 ∧
            (∀ a < 256 * lrScru m.lr,
              (rdByte (t.teamAt T).scratch a).toNat = rd (4096 + 53248 * lrP m.lr + a) 1) ∧
            ∀ k ∈ m.picks, ∀ r < 1024,
              (tget 0 (t.pickAt k).sregs r).toNat = rd (4096 + 53248 * (k % 64) + 4 * r) 4)

/-! ## The host, worlds and security -/

/-- R97, R99, R442, R468, R471: an answer to a translation fault: ACT 0 lets what the fault held go on, ACT 1 and 2 end
the access of an S-stream with XLATE or PERM and the operation of an engine with that cause, and the context where a
spill was refused; a parked pick holds its trap; ACT 3 changes nothing; an answer that names no fault changes nothing.
Invalidations and their end, when what went through a removed translation is performed; the refill of a portal's bucket.
That a refused operation fails at step 0 is the model's reading (assumption log 21), and so is which writes went through a
removed translation (log 61). -/
def Obligations.FaultAnswers : Prop :=
  ∀ (s : State) (ctx fid : Nat) (hyp : Bool),
    let c := s.ctxAt ctx
    exec (.xrespRefuse ctx fid hyp) s = .next s ∧
    (s.faultFor ctx fid hyp = none → ∀ i ∈ [Instr.xrespReplay ctx fid hyp, .xrespXlate ctx fid hyp, .xrespPerm ctx fid hyp],
      exec i s = .next s) ∧
    (∀ f, s.faultFor ctx fid hyp = some f →
      let Left (t : State) : Prop := t.ctxAt ctx = { c with faults := c.faults.filter (fun g => g.fid != fid) } ∧
        (∀ k, k ≠ ctx → t.ctxAt k = s.ctxAt k) ∧ t.mem = s.mem ∧ t.teams = s.teams
      (∀ k, f.who = .inl k → (s.pickAt k).wait = .fault fid →
        (Completes (.xrespReplay ctx fid hyp) s fun t => Left t ∧ t.ops = s.ops ∧
          t.pickAt k = { s.pickAt k with wait := .none } ∧ ∀ j, j ≠ k → t.pickAt j = s.pickAt j) ∧
        (({ s with cur := k } : State).takesTraps → ∀ e ∈ [(Instr.xrespXlate ctx fid hyp, Cause.xlate), (.xrespPerm ctx fid hyp, .perm)],
          Completes e.1 s fun t => Left t ∧ t.ops = s.ops ∧ (∀ j, j ≠ k → t.pickAt j = s.pickAt j) ∧
            TookTrap { s with cur := k } { t with cur := k } e.2 (BitVec.ofNat 64 f.va) 0 true (s.pickAt k).spc ∧
            (t.pickAt k).trec.tinst = f.inst) ∧
        ((s.pickAt k).parked = true → (s.pickAt k).held = none →
          ∀ e ∈ [(Instr.xrespXlate ctx fid hyp, Cause.xlate), (.xrespPerm ctx fid hyp, .perm)],
          Completes e.1 s fun t => Left t ∧ t.ops = s.ops ∧ (∀ j, j ≠ k → t.pickAt j = s.pickAt j) ∧
            ∃ r : TrapReq, r.cause = e.2 ∧ r.tval = BitVec.ofNat 64 f.va ∧ r.tspc = (s.pickAt k).spc ∧
              t.pickAt k = { s.pickAt k with wait := .none, held := some r })) ∧
      (∀ k, f.who = .inr (.inl (k, 0)) → f.landing = false →
        (Completes (.xrespReplay ctx fid hyp) s fun t => Left t ∧ { t with ctxs := s.ctxs } = s) ∧
        ((s.teamAt (s.pickAt k).team).ctx = ctx → c.ended = false →
          ∀ e ∈ [(Instr.xrespXlate ctx fid hyp, Cause.xlate), (.xrespPerm ctx fid hyp, .perm)],
          Completes e.1 s fun t => (t.ctxAt ctx).ended = true ∧ (t.ctxAt ctx).st = 3 ∧ (t.ctxAt ctx).endStatus = 4 ∧
            (t.ctxAt ctx).endCause = e.2.code ∧ (t.ctxAt ctx).faults = [])) ∧
      (∀ k m, f.who = .inr (.inl (k, m)) → m ≠ 0 → f.landing = false →
        (Completes (.xrespReplay ctx fid hyp) s fun t => Left t ∧ t.ops = s.ops ∧
          (∀ j, j ≠ k → t.pickAt j = s.pickAt j) ∧
          (t.pickAt k).ls.frags = (s.pickAt k).ls.frags.map
            (fun x => if x.hold = some fid then { x with hold := none } else x)) ∧
        ((s.pickAt k).mode = false → (s.pickAt k).parked = false → (s.pickAt k).held = none → (s.pickAt k).wait = .none →
          ∀ e ∈ [(Instr.xrespXlate ctx fid hyp, Cause.xlate), (.xrespPerm ctx fid hyp, .perm)],
          Completes e.1 s fun t => Left t ∧ t.ops = s.ops ∧ (∀ j, j ≠ k → t.pickAt j = s.pickAt j) ∧
            TookTrap { s with cur := k } { t with cur := k } e.2 (BitVec.ofNat 64 f.va) f.lanes false (s.pickAt k).spc ∧
            (t.pickAt k).trec.frag = m)) ∧
      ∀ k o, f.who = .inr (.inr k) → s.opAt k = some o → o.phase = .faulted fid → (o.path = 5 → o.sent = true) →
        let Late (t : State) : Prop := (∀ j, j ≠ o.pick / 64 → t.teamAt j = s.teamAt j) ∧ ∃ ms : List Inflight,
          t.teamAt (o.pick / 64) = { s.teamAt (o.pick / 64) with inflight := (s.teamAt (o.pick / 64)).inflight ++ ms } ∧
          ∀ x ∈ ms, x.op = k
        (Completes (.xrespReplay ctx fid hyp) s fun t => Left { t with teams := s.teams } ∧ Late t ∧ t.picks = s.picks ∧
          t.opAt k = some { o with phase := .running } ∧ ∀ j, j ≠ k → t.opAt j = s.opAt j) ∧
        ∀ e ∈ [(Instr.xrespXlate ctx fid hyp, Cause.xlate), (.xrespPerm ctx fid hyp, .perm)],
          Completes e.1 s fun t => Left { t with teams := s.teams } ∧ Late t ∧ t.picks = s.picks ∧
            t.opAt k = some { o with phase := .running, fail := some (0, e.2) } ∧ ∀ j, j ≠ k → t.opAt j = s.opAt j) ∧
    (let To (i : Instr) (n : Nat) : Prop := Completes i s fun t =>
       { t with ctxs := s.ctxs } = s ∧ (∀ k, k ≠ ctx → t.ctxAt k = s.ctxAt k) ∧
       t.ctxAt ctx = { c with invgo := n, invRun := (c.invaddr, c.invcnt.toNat, s.nextW) }
     (c.live = true → c.invgo = 0 → To (.invalidateStage1 ctx) 1 ∧ To (.invalidateStage2 ctx) 2) ∧
     Completes (.invalidationComplete ctx) s fun t =>
       { t with ctxs := s.ctxs, worlds := s.worlds, wlog := s.wlog } = s ∧ (∀ k, k ≠ ctx → t.ctxAt k = s.ctxAt k) ∧
       t.wlog = s.wlog.map (fun r => if s.usedRemoved ctx r then { r with done := true } else r) ∧
       t.ctxAt ctx = { c with invgo := 0, invs := if c.invgo = 1 then c.invRun :: c.invs else c.invs } ∧
       ∀ w, t.worldAt w = if w = c.world ∧ c.invgo = 2 then { s.worldAt w with invs := c.invRun :: (s.worldAt w).invs }
         else s.worldAt w) ∧
    Completes (.rateBudgetRefill fid) s fun t =>
      { t with filters := s.filters } = s ∧
      (let f := tget ({} : Filter) s.filters fid
       tget ({} : Filter) t.filters fid = { f with budget := min (f.word.toNat / 2 ^ 176 % 2 ^ 16) (f.budget + 1) }) ∧
      ∀ k, k ≠ fid → tget ({} : Filter) t.filters k = tget ({} : Filter) s.filters k

/-- R472, R498, R504, R511: a die is assigned to a world, scrubbed, released and free again, the world's store and keys
coming with its first die and going with its last; a context is created with its initial registers; the host ends
one. When an entry counts as free is the model's reading (assumption log 28). -/
def Obligations.DiesAndContexts : Prop :=
  ∀ (s : State) (die world : Nat),
    let d := s.dieAt die
    let DieIs (t : State) (x : Die) : Prop := t.dieAt die = x ∧ ∀ n, n ≠ die → t.dieAt n = s.dieAt n
    (s.ready = true → die < 12 → d.lost = false → d.st = 0 → 0 < world → world < 65536 →
      (∀ n ∈ s.holders world, (s.dieAt n).s2root = d.s2root) → Completes (.dieAssign die world) s fun t =>
        DieIs t { d with st := 1, pendingWorld := world } ∧ { t with dies := s.dies, worlds := s.worlds } = s ∧
        (∀ w, w ≠ world → t.worldAt w = s.worldAt w) ∧
        t.worldAt world = if s.holders world = [] then
          { s.worldAt world with drafts := [], chain := 0, keyed := true, invs := [(0, 0, s.nextW)] } else s.worldAt world) ∧
    (d.st = 1 → Completes (.dieScrubComplete die) s fun t =>
      DieIs t { d with st := 2, world := d.pendingWorld, pendingWorld := 0, counters := [], gen := false } ∧
      (∀ a, rdByte t.mem a = if a < 12 * 2 ^ 36 ∧ a / 2 ^ 36 % 16 = die then 0 else rdByte s.mem a) ∧
      t.picks = s.picks ∧ t.teams = s.teams ∧ t.ctxs = s.ctxs ∧ t.worlds = s.worlds) ∧
    (s.ready = true → d.st = 2 → s.worldLocked d.world = false → Completes (.dieRelease die) s fun t =>
      DieIs t { d with st := 3 } ∧ { t with dies := s.dies, faultLog := s.faultLog } = s) ∧
    (d.st = 3 → (∀ e ∈ s.teams, s.heldBy die e.2 = false) → Completes (.dieReleaseComplete die) s fun t =>
      DieIs t { d with st := 0, world := 0, left := (d.world, s.nextW) :: d.left } ∧ { t with dies := s.dies, worlds := s.worlds, slots := s.slots } = s ∧
      (∀ l n, l < 64 → n < 8 → t.slotAt die l n = {}) ∧ (∀ w, w ≠ d.world → t.worldAt w = s.worldAt w) ∧
      ((∀ n < 12, n ≠ die → (s.dieAt n).world ≠ d.world ∧ (s.dieAt n).pendingWorld ≠ d.world) → d.world ≠ 0 →
        (t.worldAt d.world).drafts = [] ∧ (t.worldAt d.world).keyed = false ∧ (t.worldAt d.world).dumpKey = none)) ∧
    ∀ ctx fn slot : Nat,
      (s.ready = true → ctx < 4096 → slot < 256 → 1 ≤ fn → fn ≤ 12 → (s.fnAt fn).enabled = true → world ≠ 0 →
        (s.fnAt fn).world = world → s.ctxFree ctx = true → Completes (.contextCreate ctx fn slot world) s fun t =>
          { t with ctxs := s.ctxs } = s ∧ (∀ k, k ≠ ctx → t.ctxAt k = s.ctxAt k) ∧
          t.ctxAt ctx = { live := true, world, fn, slot, invs := [(0, 0, s.nextW)] } ∧ (t.ctxAt ctx).twin = 960 ∧ (t.ctxAt ctx).chk = 0 ∧
          (t.ctxAt ctx).st = 2 ∧ (t.ctxAt ctx).ended = false) ∧
      (s.ready = true → (s.ctxAt ctx).live = true → (s.ctxAt ctx).ended = false →
        Completes (.contextEndHost ctx) s fun t =>
          (t.ctxAt ctx).ended = true ∧ (t.ctxAt ctx).st = 3 ∧ (t.ctxAt ctx).endStatus = 6 ∧ (t.ctxAt ctx).faults = [] ∧
          (∀ k, k ≠ ctx → t.ctxAt k = s.ctxAt k) ∧ t.mem = s.mem ∧ t.faultLog = s.faultLog ∧
          (∀ e ∈ s.teams, e.2.ctx = ctx → e.2.phase.unpublished = true →
            (t.teamAt e.1).phase = .done 6 ∧ (t.teamAt e.1).picks = []) ∧
          ∀ k, (∀ e ∈ s.teams, e.1 = k → e.2.ctx ≠ ctx) → t.teamAt k = s.teamAt k)

/-- R419, R437, R441, R482, R483, R496 to R498, R509 to R511: DLGO loads and removes drafts with their status; a
counter read gives the value where the allow-list names the counter, else 0 and a log entry; a changed word of the
allow-list is logged; DEVID is written once, and a scale-up port cabled to another port then stays down (R517); a write to a
register of a page, at its place in BAR0 too, takes effect where the page accepts it, and nothing changes while the functions
do not answer, or do not take the TLP. Whether the host answers the read of a draft, the die field of a logged change and an
accepted filter's first budget are free values (assumption log 1); the page of VF enables is the model's (log 33), and so is
that QTAIL counts no entry further ahead of QHEAD than the ring is long (log 51). -/
def Obligations.HostPages : Prop :=
  ∀ (s : State) (fn : Nat),
    let f := s.fnAt fn
    let FnIs (t : State) (x : Function) : Prop := t.fnAt fn = x ∧ ∀ n, n ≠ fn → t.fnAt n = s.fnAt n
    (s.ready = false → ∀ page off v set, exec (.hostRegisterWrite page off ⟨v, set⟩) s = .next s) ∧
    (∀ page off v set, s.takesTlp (s.pageFn page) set = false → exec (.hostRegisterWrite page off ⟨v, set⟩) s = .next s) ∧
    (s.ready = true → ∀ set : Option Nat,
      (f.dlgo = 0 →
        (Completes (.draftLoad fn) s fun t => FnIs t { f with dlgo := 1 } ∧ { t with fns := s.fns } = s) ∧
        Completes (.draftRemove fn) s fun t => FnIs t { f with dlgo := 2 } ∧ { t with fns := s.fns } = s) ∧
      (f.dlgo = 1 →
        (f.world = 0 → Completes (.draftLoad fn) s fun t =>
          FnIs t { f with dlstat := 1, dlgo := 0 } ∧ { t with fns := s.fns } = s) ∧
        (f.world ≠ 0 → (f.dllen < 224 ∨ 270336 < f.dllen ∨ 2 ^ 50 < f.dladdr + f.dllen) →
          Completes (.draftLoad fn) s fun t => FnIs t { f with dlstat := 2, dlgo := 0 } ∧ { t with fns := s.fns } = s) ∧
        (let bs := s.hostBytes f.dladdr f.dllen
         let num (o n : Nat) : Nat := ofLe ((bs.drop o).take n)
         let W := s.worldAt f.world
         let signed := Config.sigValid (bs.take (f.dllen - 96)) (bs.drop (f.dllen - 96)) = true
         let old := num 0x10 4 < tget 0 s.dev.minSvn draftKind
         let here := ∃ x ∈ W.drafts, x.word.toNat = num 8 8
         let full := 32 ≤ W.drafts.length ∨ 2 ^ 22 < (W.drafts.map (·.ilen)).sum + num 0x18 4
         -- the host gives no answer: free
         let failed := s.free 35 f.dladdr = true
         f.world ≠ 0 → 224 ≤ f.dllen → f.dllen ≤ 270336 → f.dladdr + f.dllen ≤ 2 ^ 50 → f.ideDropped = false →
         (Completes (.draftLoad fn) s fun t => (∃ c, FnIs t { f with dlstat := c, dlgo := 0 }) ∧
          (failed → (t.fnAt fn).dlstat = 2) ∧
          (¬ failed → manifestOk bs = false → (t.fnAt fn).dlstat = 3) ∧
          (¬ failed → manifestOk bs = true → (¬ signed → (t.fnAt fn).dlstat = 4) ∧ (signed →
            (old → (t.fnAt fn).dlstat = 5) ∧ (¬ old → (here → (t.fnAt fn).dlstat = 6) ∧
              (¬ here → (t.fnAt fn).dlstat = if full then 7 else 0)))) ∧
          ((t.fnAt fn).dlstat ≠ 0 → { t with fns := s.fns } = s) ∧
          ((t.fnAt fn).dlstat = 0 → { t with fns := s.fns, worlds := s.worlds } = s ∧
           (∃ d : Draft, d.word.toNat = num 8 8 ∧ d.ilen = num 0x18 4 ∧ d.meas = Config.sha384 bs ∧
             d.table.length = num 0x14 4 ∧ (∀ c < num 0x14 4, d.table[c]? = some (BitVec.ofNat 32 (num (0x40 + 4 * c) 4))) ∧
             t.worldAt f.world = { W with
               drafts := W.drafts ++ [d], chain := Config.sha384 (hashBytes W.chain ++ 1 :: hashBytes d.meas) }) ∧
           ∀ w, w ≠ f.world → t.worldAt w = s.worldAt w)) ∧
         (num 8 8 % 4 ≠ 2 → (manifestOk bs = true ↔ num 0 4 = 0x31465244 ∧ num 4 2 = 1 ∧ num 6 2 = 0 ∧ num 0x1C 4 = 0 ∧
           draftWordOk (num 8 8) = true ∧ num 0x14 4 = 0 ∧ num 0x18 4 % 64 = 0 ∧ 64 ≤ num 0x18 4 ∧ num 0x18 4 ≤ 262144 ∧
           f.dllen = num 0x18 4 + 160)))) ∧
      (f.dlgo = 2 →
        ((∀ d ∈ (s.worldAt f.world).drafts, d.word.toNat ≠ f.dladdr) → Completes (.draftRemove fn) s fun t =>
          FnIs t { f with dlstat := 8, dlgo := 0 } ∧ { t with fns := s.fns } = s) ∧
        (f.world ≠ 0 → (∃ d ∈ (s.worldAt f.world).drafts, d.word.toNat = f.dladdr) →
          Completes (.draftRemove fn) s fun t =>
            FnIs t { f with dlstat := 0, dlgo := 0 } ∧ { t with fns := s.fns, worlds := s.worlds, slots := s.slots } = s ∧
            (t.worldAt f.world).drafts = (s.worldAt f.world).drafts.filter (fun d => d.word.toNat != f.dladdr) ∧
            ∀ w, w ≠ f.world → t.worldAt w = s.worldAt w)) ∧
      (let n := f.cntsel % 1024
       let die := f.cntsel / 1024 % 16
       let w := if die < 12 then (s.dieAt die).world else f.world
       s.takesTlp fn set = true →
       (w ≠ 0 → (s.worldAt w).allow.testBit n = true →
         n ∈ [0x001, 0x005, 0x006, 0x00C, 0x00D, 0x203] ∨ 0x381 ≤ n ∧ n < 0x3A1 → die < 12 →
         Completes (.counterRead ⟨fn, set⟩) s fun t =>
           FnIs t { f with cntval := tget 0 (s.dieAt die).counters n } ∧ { t with fns := s.fns } = s) ∧
       (w ≠ 0 → (s.worldAt w).allow.testBit n = false → (s.worldAt w).obs.length < 4096 →
         Completes (.counterRead ⟨fn, set⟩) s fun t =>
           FnIs t { f with cntval := 0 } ∧ { t with fns := s.fns, worlds := s.worlds } = s ∧
           (t.worldAt w).obs = (s.worldAt w).obs ++ [⟨n, fn, die, (s.dieAt 12).cycles.toNat⟩] ∧
           (t.worldAt w).allow = (s.worldAt w).allow)) ∧
      (∀ w word v : Nat, w ≠ 0 → word < 32 → (s.worldAt w).obs.length < 4096 → s.worldLocked w = false →
        (s.worldAt w).allow / 2 ^ (32 * word) % 2 ^ 32 ≠ v % 2 ^ 32 → Completes (.allowListWrite 0 w word v) s fun t =>
          { t with worlds := s.worlds } = s ∧ (∀ k, k ≠ w → t.worldAt k = s.worldAt k) ∧
          (∀ b, (t.worldAt w).allow.testBit b =
            if b / 32 = word then v.testBit (b % 32) else (s.worldAt w).allow.testBit b) ∧
          ∃ x, (t.worldAt w).obs = (s.worldAt w).obs ++ [⟨0x3FF, 0, x, (s.dieAt 12).cycles.toNat⟩]) ∧
      (∀ v, v < 512 → s.dev.devid = none → s.takesTlp 0 set = true → ∀ i ∈ [Instr.devidWrite v,
          .hostRegisterWrite .hypBlock 0x200300 ⟨v, set⟩, .hostRegisterWrite (.bar 0) 0x200300 ⟨v, set⟩],
        Completes i s fun t =>
          let wrong (p : Nat) : Prop := p < 36 ∧ ∃ x, s.dev.cabling.lookup p = some x ∧ x ≠ v
          { t with dev := s.dev, links := s.links } = s ∧
          { t.dev with cableLog := s.dev.cableLog } = { s.dev with devid := some v } ∧
          (∀ p, p ∈ t.dev.cableLog ↔ p ∈ s.dev.cableLog ∨ wrong p) ∧
          (∀ p, wrong p → t.linkAt (36 + p) = { s.linkAt (36 + p) with down := true }) ∧
          ∀ l, (∀ p, l = 36 + p → ¬ wrong p) → t.linkAt l = s.linkAt l) ∧
      (∀ v w, s.dev.devid = some w → exec (.devidWrite v) s = .next s) ∧
      (∀ (ctx v : Nat) (hyp : Bool), (s.ctxAt ctx).live = true → s.takesTlp (s.pageFn (.ctxPage ctx hyp)) set = true →
        let c := s.ctxAt ctx
        let Sets (off : Nat) (x : Context) : Prop := Completes (.hostRegisterWrite (.ctxPage ctx hyp) off ⟨v, set⟩) s fun t =>
          { t with ctxs := s.ctxs } = s ∧ t.ctxAt ctx = x ∧ ∀ k, k ≠ ctx → t.ctxAt k = s.ctxAt k
        (v < 2 ^ 32 → v % 4 = 0 → Sets 0x004 { c with tvec := BitVec.ofNat 32 v }) ∧
        (v ≤ 960 → v % 16 = 0 → Sets 0x008 { c with twin := BitVec.ofNat 10 v }) ∧
        (v < 16 → Sets 0x00C { c with chk := BitVec.ofNat 4 v }) ∧
        (v < 2 ^ 32 →
          let x := tget ({} : Queue) c.queues 0
          let most := 2 ^ x.log2
          Sets 0x110 { c with queues := tput {} c.queues 0 { x with
            tail := BitVec.ofNat 32 v
            upto := if most < (BitVec.ofNat 32 v - x.head).toNat then x.head + BitVec.ofNat 32 most else BitVec.ofNat 32 v } }) ∧
        (v % 65536 = 0 → v < 2 ^ 52 → Sets 0x490 (if hyp then { c with rbBase := v, rbWritten := true } else c)) ∧
        (1 ≤ v → v < 65536 → Sets 0x404 { c with prqdl := v }) ∧
        (2 ^ 32 ≤ v → Sets 0x004 c)) ∧
      (fn ≤ 12 → (fn = 0 ∨ f.enabled = true) → s.takesTlp fn set = true →
        (∀ v, v < 2 ^ 14 →
          ∀ i ∈ [Instr.hostRegisterWrite (.fnPage fn) 0x100 ⟨v, set⟩, .hostRegisterWrite (.bar fn) 0x100 ⟨v, set⟩],
            Completes i s fun t => FnIs t { f with cntsel := v } ∧ { t with fns := s.fns } = s) ∧
        (∀ ctx off v, off < 0x1000 → (s.ctxAt ctx).slot < 256 →
          (∀ k, (s.ctxAt k).live = true ∧ (s.ctxAt k).fn = fn ∧ (s.ctxAt k).slot = (s.ctxAt ctx).slot ↔ k = ctx) →
          (s.ctxs.map (·.1)).Nodup →
          exec (.hostRegisterWrite (.bar fn) (0x1000 * ((s.ctxAt ctx).slot + 1) + off) ⟨v, set⟩) s =
            exec (.hostRegisterWrite (.ctxPage ctx false) off ⟨v, set⟩) s) ∧
        ∀ off v, (0x101000 ≤ off ∧ off < 0x200000 ∨ 0x300000 ≤ off ∨ fn ≠ 0 ∧ 0x200000 ≤ off) →
          exec (.hostRegisterWrite (.bar fn) off ⟨v, set⟩) s = .next s ∧ s.barRead fn off = some 0) ∧
      (∀ n ≤ 12, s.takesTlp 0 set = true → Completes (.hostRegisterWrite .sriov 0 ⟨n, set⟩) s fun t =>
        { t with fns := s.fns } = s ∧ ∀ k, 1 ≤ k → k ≤ 12 → (t.fnAt k).enabled = decide (k ≤ n)) ∧
      ∀ n v, n < 4096 → v < 2 ^ 256 → s.takesTlp 0 set = true → Completes (.hostRegisterWrite (.filter n) 0 ⟨v, set⟩) s fun t =>
        { t with filters := s.filters } = s ∧ (∀ b < 256, (tget ({} : Filter) t.filters n).word.getLsbD b =
          (v.testBit b && !decide (69 ≤ b ∧ b < 96 ∨ 152 ≤ b ∧ b < 160 ∨ 192 ≤ b))) ∧
        (tget ({} : Filter) t.filters n).budget ≤ v / 2 ^ 176 % 2 ^ 16 ∧
        ∀ k, k ≠ n → tget ({} : Filter) t.filters k = tget ({} : Filter) s.filters k)

/-- R464, R473, R479, R484, R493, R502, R503, R513 to R516: rekeying, requests and collective messages of other
devices, measurements, policy and versions, IDE keys, the states of a device interface, and the two time samples.
The skew of a time sample and records of refused requests are the model's readings (assumption logs 17 and 29); that a
rekeying leaves the dump key, that KEY_SET_GO ends the dropping and what makes a session are readings of log 33; hashes
and the identity chain are opaque (log 7). -/
def Obligations.SecurityAndPeers : Prop :=
  ∀ (s : State) (fn w ctx : Nat),
    let f := s.fnAt fn
    let FnIs (t : State) (x : Function) : Prop :=
      t.fnAt fn = x ∧ (∀ n, n ≠ fn → t.fnAt n = s.fnAt n) ∧ { t with fns := s.fns } = s
    let WorldIs (t : State) (n : Nat) (x : World) : Prop :=
      t.worldAt n = x ∧ (∀ k, k ≠ n → t.worldAt k = s.worldAt k) ∧ { t with worlds := s.worlds } = s
    ((s.worldAt w).keyed = true → (s.worldAt w).sweeping = false → Completes (.rekey w) s fun t =>
      { t with worlds := s.worlds, dies := s.dies } = s ∧ t.worldAt w = { s.worldAt w with sweeping := true } ∧
      (∀ k, k ≠ w → t.worldAt k = s.worldAt k) ∧
      ∀ n, t.dieAt n = if n ∈ s.holders w then { s.dieAt n with gen := !(s.dieAt n).gen } else s.dieAt n) ∧
    ((s.worldAt w).sweeping = true → exec (.rekey w) s = .next s) ∧
    (Completes (.rekeySweepComplete w) s fun t => WorldIs t w { s.worldAt w with sweeping := false }) ∧
    (Completes (.atsInvalidation fn w) s fun t => FnIs t { f with ats := f.ats.filter (· != w) }) ∧
    (s.ready = true → s.dev.devid ≠ none →
      (∀ ia, ia < 2 ^ 42 →
        (∀ pas (bs : List Byte), s.remotePas w ia rightW bs.length = some pas → ia % 4 = 0 → (pas.flatMap paPlaces).Nodup →
          s.settled peerAgent = true →
          Completes (.remoteAccessArrival w ia (.write bs)) s fun t =>
            MemWrote s t pas bs ∧ t.picks = s.picks ∧ t.teams = s.teams ∧ t.ctxs = s.ctxs ∧ t.faultLog = s.faultLog) ∧
        (∀ pas (v : BitVec 64), s.remotePas w ia rightRW 8 = some pas → ia % 8 = 0 → s.poisoned pas = false →
          s.settled peerAgent = true →
          Completes (.remoteAccessArrival w ia (.add v)) s fun t =>
            MemWrote s t pas (leBytes 8 (ofLe (s.devBytes pas) + v.toNat)) ∧ t.picks = s.picks ∧
            t.teams = s.teams ∧ t.ctxs = s.ctxs) ∧
        (∀ n, (s.remotePas w ia rightR n).isSome = true → exec (.remoteAccessArrival w ia (.read n)) s = .next s) ∧
        ∀ n, s.partitionDies w = [] → Completes (.remoteAccessArrival w ia (.read n)) s fun t =>
          { t with faultLog := s.faultLog } = s ∧ ∃ m : FaultMsg, t.faultLog = s.faultLog ++ [m] ∧ m.toNat % 256 = 7) ∧
      (let c := s.ctxAt ctx
       c.live = true → c.ended = false →
       (c.world = w →
        (∀ g q r sh (data : List Byte), Completes (.collectiveMessageArrival w ctx (.operand g q r sh data)) s fun t =>
          { t with ctxs := s.ctxs } = s ∧ (∀ k, k ≠ ctx → t.ctxAt k = s.ctxAt k) ∧
          (∀ x, x ∈ (t.ctxAt ctx).colls ↔
            x = (g, q, r, sh, data) ∨ (x ∈ c.colls ∧ ¬ (x.1 = g ∧ x.2.1 = q ∧ x.2.2.1 = r)))) ∧
        (∀ va (data : List Byte) pas tm, s.resolve c rightW va data.length = .ok (pas, tm) → va % 4 = 0 →
          (pas.flatMap paPlaces).Nodup → s.settled peerAgent = true →
          Completes (.collectiveMessageArrival w ctx (.put va data)) s fun t =>
            MemWrote s t pas data ∧ t.picks = s.picks ∧ t.teams = s.teams ∧ t.ctxs = s.ctxs)) ∧
       (c.world ≠ w → ∀ m, exec (.collectiveMessageArrival w ctx m) s = .next s))) ∧
    (s.ready = true →
      (∀ ns, Completes (.ptmExchange ns) s fun t =>
        t.dev = { s.dev with ptmHost := BitVec.ofNat 64 ns, ptmCyc := (s.dieAt 12).cycles } ∧ { t with dev := s.dev } = s) ∧
      (Completes .smpgo s fun t =>
        { t with dies := s.dies } = s ∧ ((s.dieAt 12).lost = false → (t.dieAt 12).smp = (s.dieAt 12).cycles) ∧
        (∀ n, 13 ≤ n → t.dieAt n = s.dieAt n) ∧ (∀ n, (s.dieAt n).lost = true → t.dieAt n = s.dieAt n) ∧
        ∀ n < 12, (s.dieAt n).lost = false → { t.dieAt n with smp := (s.dieAt n).smp } = s.dieAt n ∧
          ∃ x : Int, |x| ≤ 2 ∧ (t.dieAt n).smp =
            (s.dieAt n).cycles + BitVec.ofNat 64 (s.cfg (0x70 + 2 * n) 2) + BitVec.ofInt 64 x) ∧
      (f.session = true → ∀ set tx,
        (set < 2 → Completes (.ideKeySetGo fn set tx) s fun t => FnIs t { f with
          ideLive := (tx, set) :: f.ideLive.filter (· != (tx, set)), ideTx := if tx then set else f.ideTx, ideDropped := false }) ∧
        Completes (.ideKeySetStop fn set tx) s fun t => FnIs t { f with ideLive := f.ideLive.filter (· != (tx, set)) }) ∧
      (s.ctxs = [] → f.ideLive ≠ [] → Completes (.ideIntegrityFailure fn) s fun t =>
        FnIs t { f with ideDropped := true, tdisp := if fn = 0 then f.tdisp else 3 }) ∧
      (1 ≤ fn → fn ≤ 12 → f.enabled = true →
        (f.tdisp = 0 → Completes (.lockInterface fn) s fun t => FnIs t { f with tdisp := 1 }) ∧
        (f.tdisp = 1 → Completes (.startInterface fn) s fun t => FnIs t { f with tdisp := 2 }) ∧
        (f.tdisp ≠ 0 → exec (.lockInterface fn) s = .next s) ∧ (f.tdisp ≠ 1 → exec (.startInterface fn) s = .next s) ∧
        (∀ c, (s.ctxs.filter (fun e => e.2.live && e.2.fn == fn)).map (·.1) = [c] → (s.ctxAt c).ended = false →
          Completes (.stopInterface fn) s fun t => (t.fnAt fn).tdisp = 0 ∧ (t.ctxAt c).ended = true ∧
            (t.ctxAt c).endStatus = 6 ∧ (∀ k, k ≠ c → t.ctxAt k = s.ctxAt k) ∧ t.mem = s.mem) ∧
        (∀ b, Completes (.spdmRequest fn (.negotiate b)) s fun t => FnIs t { f with negotiated := b, session := false }) ∧
        (f.negotiated = true → (Completes (.spdmRequest fn .keyExchange) s fun t => FnIs t { f with session := true }) ∧
          (Completes (.spdmRequest fn (.measurement 0x10)) s fun t =>
            FnIs t { f with answers := f.answers ++ [(0x10, (s.worldAt f.world).policy.setWidth 384)] }) ∧
          (Completes (.spdmRequest fn (.measurement 0x11)) s fun t =>
            FnIs t { f with answers := f.answers ++ [(0x11, (s.worldAt f.world).chain)] }) ∧
          Completes (.spdmRequest fn (.certificate 0)) s fun t => FnIs t { f with certs := f.certs ++ [Config.identityChain] }) ∧
        (f.session = true → f.world ≠ 0 →
          (∀ key, Completes (.spdmRequest fn (.dumpKey key)) s fun t =>
            WorldIs t f.world { s.worldAt f.world with dumpKey := some key }) ∧
          (∀ v, v < 4 → (∀ e ∈ s.ctxs, e.2.world ≠ f.world) → Completes (.tenantPolicySet fn v) s fun t =>
            WorldIs t f.world { s.worldAt f.world with policy := BitVec.ofNat 32 v }) ∧
          ∀ v, (∃ e ∈ s.ctxs, e.2.world = f.world ∧ e.2.live = true ∧ s.ctxFree e.1 = false) →
            exec (.tenantPolicySet fn v) s = .next s)) ∧
      ((s.fnAt 0).session = true → ∀ kind v, 1 ≤ kind → kind ≤ 4 → v < 2 ^ 32 →
        (tget 0 s.dev.minSvn kind < v → v ≤ s.runningSvn kind → Completes (.svnRaise kind v) s fun t =>
          t.dev = { s.dev with minSvn := tput 0 s.dev.minSvn kind v } ∧ { t with dev := s.dev } = s) ∧
        (v ≤ tget 0 s.dev.minSvn kind ∨ s.runningSvn kind < v → exec (.svnRaise kind v) s = .next s)))

/-! ## Failures, power and bring-up -/

/-- R31, R32, R234, R328, R430, R466, R486, R487, R517: an uncorrectable error poisons the word it strikes, unless a
mirror serves it; a lost die is out of service, its resident teams publish ENDED_DIE or their picks receive
DIE_LOST; a failed link takes the dies it cuts off; lanes, retries and peers lost are noted. The handling of a lost
die at saved teams and at picks follows the model's readings (assumption log 19); that a port on half its lanes goes out of
service at a further loss is one of log 32. -/
def Obligations.Failures : Prop :=
  ∀ (s : State) (die : Nat),
    let d := s.dieAt die
    let DieIs (t : State) (n : Nat) (x : Die) : Prop := t.dieAt n = x ∧ ∀ k, k ≠ n → t.dieAt k = s.dieAt k
    let Hit (t : State) (n : Nat) : Prop := Counted s t n 0x202 1
    let LinkIs (i : Instr) (n : Nat) (x : Link) : Prop := Completes i s fun t =>
      t.linkAt n = x ∧ (∀ k, k ≠ n → t.linkAt k = s.linkAt k) ∧ { t with links := s.links } = s
    (∀ pa, pa < 12 * 2 ^ 36 →
      (∀ e ∈ [ErrorSite.mem pa, .mirror pa false], Completes (.uncorrectableError e) s fun t =>
        { t with poison := s.poison, dies := s.dies } = s ∧ (∀ x, x ∈ t.poison ↔ x = pa / 4 ∨ x ∈ s.poison) ∧
        Hit t (pa / 2 ^ 36 % 16)) ∧
      (Completes (.uncorrectableError (.mirror pa true)) s fun t => { t with poison := s.poison, dies := s.dies } = s ∧
        (∀ x, x ∈ t.poison ↔ x = pa / 4 ∨ x = paTwin pa / 4 ∨ x ∈ s.poison) ∧
        ∃ v, Hit v (pa / 2 ^ 36 % 16) ∧ Counted v t ((pa / 2 ^ 36 + 6) % 12) 0x202 1) ∧
      ∀ c : Bool,
        let n := if c then 256 else 128
        let w := (s.dieAt (pa / 2 ^ 36 % 16)).world
        Completes (.uncorrectableError (.tag pa c)) s fun t =>
          { t with poison := s.poison, dies := s.dies, worlds := s.worlds } = s ∧
          (∀ x, x ∈ t.poison ↔ x / (n / 4) = pa / n ∨ x ∈ s.poison) ∧ Counted s t (pa / 2 ^ 36 % 16) 0x206 1 ∧
          ∀ k, t.worldAt k = if k = w ∧ w ≠ 0 then { s.worldAt k with
            integrity := (s.worldAt k).integrity ++ [(pa / 2 ^ 36 % 16, pa / n * n)] } else s.worldAt k) ∧
    (∀ k, (s.pickAt k).live = true →
      let p := s.pickAt k
      let Pk (e : ErrorSite) (P : Pick → Prop) : Prop := Completes (.uncorrectableError e) s fun t =>
        { t with picks := s.picks, dies := s.dies } = s ∧ (∀ j, j ≠ k → t.pickAt j = s.pickAt j) ∧
        Hit t (s.teamAt p.team).die ∧ P (t.pickAt k)
      (∀ r, r < 1024 → Pk (.scalar k r) fun q => { q with spoison := p.spoison } = p ∧
        ∀ x, x ∈ q.spoison ↔ x = r ∨ x ∈ p.spoison) ∧
      (∀ r i, r < 239 → i < 32 → (p.name r).st = .allocated → Pk (.laneWord k r i) fun q => { q with names := p.names } = p ∧
        (∀ x, x ≠ r → q.name x = p.name x) ∧ { q.name r with poison := (p.name r).poison } = p.name r ∧
        ∀ j, (q.name r).poison.getLsbD j = ((p.name r).poison.getLsbD j || decide (j = i))) ∧
      (∀ n, 1 ≤ n → n ≤ 7 → Pk (.predWord k n) fun q => { q with ppoison := p.ppoison } = p ∧
        ∀ x, tget 0 q.ppoison x = if x = n then BitVec.allOnes 32 else tget 0 p.ppoison x) ∧
      (∀ n, n < 16 → p.running = true → Pk (.kWord k false n) fun q =>
        { q with queue := p.queue, hqueue := p.hqueue } = p ∧ q.blocks.tail = p.blocks.tail ∧
        ∀ b, p.blocks.head? = some b →
          q.blocks.head? = some { b with kPoison := b.kPoison ||| BitVec.ofNat 16 (2 ^ n) }) ∧
      ∀ n, n < 16 → p.mode = true → p.trec.blk = true → Pk (.kWord k true n) fun q =>
        { q with queue := p.queue } = p ∧ q.queue.tail = p.queue.tail ∧
        ∀ b, p.queue.head? = some b →
          q.queue.head? = some { b with kPoison := b.kPoison ||| BitVec.ofNat 16 (2 ^ n) }) ∧
    (∀ T w, (s.teamAt T).phase.resident = true →
      let m := s.teamAt T
      let Tm (e : ErrorSite) (P : Team → Prop) : Prop := Completes (.uncorrectableError e) s fun t =>
        { t with teams := s.teams, dies := s.dies } = s ∧ (∀ j, j ≠ T → t.teamAt j = s.teamAt j) ∧ Hit t m.die ∧
        P (t.teamAt T)
      (w < 16384 * lrTiles m.lr → Tm (.tile T w) fun x => { x with tilePoison := m.tilePoison } = m ∧
        ∀ n, n ∈ x.tilePoison ↔ n = w ∨ n ∈ m.tilePoison) ∧
      (4 * w < 256 * lrScru m.lr → Tm (.scratch T w) fun x => { x with scratchPoison := m.scratchPoison } = m ∧
        ∀ n, n ∈ x.scratchPoison ↔ n = w ∨ n ∈ m.scratchPoison)) ∧
    (die < 12 → d.lost = false → Completes (.patrolScrub die) s fun t => { t with dies := s.dies } = s ∧
      Counted s t die 0x205 1) ∧
    (s.ready = true → die < 12 → d.lost = false →
      (s.ctxs = [] → Completes (.dieLoss die) s fun t =>
        DieIs t die { d with lost := true, st := 4 } ∧ (∀ n < 13, t.dev.degraded.getLsbD n =
          (s.dev.degraded.getLsbD n || decide (n = die ∨ n = (die + 6) % 12))) ∧
        { t with dies := s.dies, dev := s.dev, faultLog := s.faultLog } = s) ∧
      ∀ c x, s.ctxs = [(c, x)] → x.live = true → x.ended = false → s.ops = [] →
        (x.tdmask.getLsbD die = false → Completes (.dieLoss die) s fun t => DieIs t die { d with lost := true, st := 4 } ∧
          t.picks = s.picks ∧ t.teams = s.teams ∧ t.ctxs = s.ctxs ∧ t.mem = s.mem) ∧
        (x.tdmask.getLsbD die = true → x.st ≠ 1 → (s.teams.map (·.1)).Nodup → Completes (.dieLoss die) s fun t =>
          DieIs t die { d with lost := true, st := 4 } ∧ t.mem = s.mem ∧ { t.ctxAt c with saveUsed := x.saveUsed } = x ∧
          (∀ e ∈ s.teams, e.2.ctx = c → e.2.phase.resident = true → (e.2.die = die ∨ s.retiring e.2 = true) →
            (t.teamAt e.1).phase = .done 5 ∧ (t.teamAt e.1).cause = 0x30 ∧ (t.teamAt e.1).picks = []) ∧
          (∀ e ∈ s.teams, ¬ (e.2.ctx = c ∧ ((e.2.phase.resident = true ∧ (e.2.die = die ∨ s.retiring e.2 = true)) ∨
              ∃ a b, e.2.phase = .saved a b)) → t.teamAt e.1 = e.2) ∧
          ∀ k, (s.pickAt k).live = true → (s.teamAt (s.pickAt k).team).ctx = c →
            (∀ e ∈ s.teams, e.2.phase.resident = true → (e.2.die = die ∨ s.retiring e.2 = true) → k ∉ e.2.picks) →
            (∀ e ∈ s.teams, ∀ a b, e.2.phase = .saved a b → k ∉ e.2.picks) →
            (t.pickAt k).dieLost.getLsbD die = true)) ∧
    (Completes .ioDieLoss s fun t => t.dev = { s.dev with ioLost := true } ∧ { t with dev := s.dev } = s) ∧
    (s.ready = true → ∀ e < 18,
      (Completes (.linkFailure e) s fun t =>
        (t.linkAt (2 * e)).down = true ∧ (t.linkAt (2 * e + 1)).down = true ∧
        (∀ k, k ≠ 2 * e → k ≠ 2 * e + 1 → t.linkAt k = s.linkAt k) ∧
        ∀ n < 12, n ∉ t.reached 12 → (t.dieAt n).lost = true) ∧
      ((∀ k, (s.linkAt k).down = false) → Completes (.linkFailure e) s fun t => { t with links := s.links } = s)) ∧
    (∀ p < 36, (4 ≤ (s.linkAt (36 + p)).width → LinkIs (.scaleupLaneLoss p) (36 + p) { s.linkAt (36 + p) with width := 2 }) ∧
      ((s.linkAt (36 + p)).width ≤ 2 → LinkIs (.scaleupLaneLoss p) (36 + p) { s.linkAt (36 + p) with down := true })) ∧
    (∀ n < 36, let (a, b) := dieEdges.getD (n / 2) (12, 12)
      Completes (.linkLevelRetry n) s fun t => { t with dies := s.dies } = s ∧
        (b < 12 → ∃ v, Counted s v a (0x302 + 4 * edgeRank a b) 1 ∧ Counted v t b (0x302 + 4 * edgeRank b a) 1) ∧
        (b = 12 → Counted s t a (0x302 + 4 * edgeRank a b) 1)) ∧
    (∀ n, 36 ≤ n → n < 72 → Completes (.linkLevelRetry n) s fun t => { t with dies := s.dies } = s ∧
      ∃ w, Counted s t 12 (0x070 + (n - 36) + 1024 * w) 1) ∧
    (s.ready = true → s.ops = [] → ∀ n, Completes (.peerDeviceLoss n) s fun t =>
      { t with dev := s.dev } = s ∧ (∀ k, k ∈ t.dev.lostPeers ↔ k = n ∨ k ∈ s.dev.lostPeers) ∧
      (∀ e, e ∈ t.dev.peers ↔ e ∈ s.dev.peers ∧ e.1 ≠ n) ∧
      { t.dev with lostPeers := s.dev.lostPeers, peers := s.dev.peers } = s.dev)

/-- R32, R476, R505 to R508: grants, the change of an operating point, throttling, requests for widths and their
training, and the commit of a weave table. A grant keeps the table, the floors, the boost flag, the 5.6 kW with the reserve
of the I/O die and the stacks, and the order by demand above the floors; any other changes nothing. A throttled die comes back
with the first grant after its condition clears. What the reserve is, how the order by demand reads, and widths are the
model's readings (assumption logs 31 and 32). -/
def Obligations.PowerAndLinks : Prop :=
  ∀ s : State,
    let LinkIs (t : State) (n : Nat) (x : Link) : Prop :=
      t.linkAt n = x ∧ (∀ k, k ≠ n → t.linkAt k = s.linkAt k) ∧ { t with links := s.links } = s
    (∀ die, die < 12 →
      (s.ready = true → ∀ clears, Completes (.thermalThrottle ⟨die, clears⟩) s fun t =>
        t.dieAt die = (if clears then { s.dieAt die with hot := false }
          else { s.dieAt die with point := 0, throttled := true, hot := true }) ∧
        (∀ n, n ≠ die → t.dieAt n = s.dieAt n) ∧ { t with dies := s.dies } = s) ∧
      ((s.dieAt die).throttled = false → Completes (.operatingPointChange die) s fun t =>
        t.dieAt die = { s.dieAt die with point := (s.dieAt die).granted } ∧ (∀ n, n ≠ die → t.dieAt n = s.dieAt n) ∧
        { t with dies := s.dies } = s) ∧
      ((s.dieAt die).throttled = true → exec (.operatingPointChange die) s = .next s)) ∧
    (s.ready = true →
      (∀ gs : List PowerGrant,
        let may (p : Nat) : Prop := s.oppValid p = true ∧ (2000 < s.oppClock p → (s.cfg 6 2).testBit 0 = true)
        let bounds : Prop := gs.length = 12 ∧ (∀ n g, gs[n]? = some g → may g.point ∧ (s.dieAt n).floor ≤ g.point) ∧
          (gs.map (·.budget)).sum + Config.powerReserve.val ≤ 5600 ∧
          ∀ n a, gs[n]? = some a → a.point ≠ (s.dieAt n).floor → ∀ b ∈ gs, a.demand < b.demand → b.point < a.point →
            ¬ may (b.point + 1)
        (¬ bounds → exec (.powerGrant gs) s = .next s) ∧
        (bounds → Completes (.powerGrant gs) s fun t =>
          (∀ n, { t.dieAt n with counters := (s.dieAt n).counters } = match gs[n]? with
            | some g =>
              if (s.dieAt n).lost = true then s.dieAt n
              else if (s.dieAt n).hot = true ∨ ∃ l ∈ dieLinks n, (s.linkAt l).wantWidth ≠ none then
                { s.dieAt n with budget := g.budget }
              else { s.dieAt n with granted := g.point, budget := g.budget, throttled := false }
            | none => s.dieAt n) ∧
          (∀ n, t.linkAt n = match (s.linkAt n).wantWidth with
            | some w => { s.linkAt n with width := w, wantWidth := none, training := true }
            | none => s.linkAt n) ∧
          (∀ n c, let trains : Prop := n < 12 ∧ ∃ e < 18, (s.linkAt (2 * e)).wantWidth ≠ none ∧
              ∃ m, (dieEdges[e]? = some (n, m) ∨ dieEdges[e]? = some (m, n)) ∧ c = 0x303 + 4 * edgeRank n m
            (trains → (tget 0 (t.dieAt n).counters c).toNat = min ((tget 0 (s.dieAt n).counters c).toNat + 1) (2 ^ 64 - 1)) ∧
            (¬ trains → tget 0 (t.dieAt n).counters c = tget 0 (s.dieAt n).counters c)) ∧
          { t with dies := s.dies, links := s.links } = s)) ∧
      (∀ link width, link < 36 → width ∈ [4, 2, 1] → Completes (.linkWidthRequest link width) s fun t =>
        { t with links := s.links } = s ∧
        ∀ k, t.linkAt k = if k / 2 = link / 2 then { s.linkAt k with wantWidth := some width } else s.linkAt k) ∧
      ∀ link width, 36 ≤ link → link < 72 → width ∈ [4, 2] → Completes (.linkWidthRequest link width) s fun t =>
        LinkIs t link { s.linkAt link with wantWidth := some width }) ∧
    ∀ link,
      ((s.linkAt link).training = true →
        (Completes (.linkRetrainComplete link true) s fun t => LinkIs t link { s.linkAt link with training := false }) ∧
        (36 ≤ link → Completes (.linkRetrainComplete link false) s fun t =>
          LinkIs t link { s.linkAt link with training := false, down := true }) ∧
        (link < 36 → Completes (.linkRetrainComplete link false) s fun t =>
          (t.linkAt (link / 2 * 2)).down = true ∧ (t.linkAt (link / 2 * 2 + 1)).down = true)) ∧
      ((s.linkAt link).training = false → ∀ ok, exec (.linkRetrainComplete link ok) s = .next s) ∧
      ((s.linkAt link).commit = true → Completes (.wvcommit link) s fun t => LinkIs t link
        { s.linkAt link with map := (s.linkAt link).shMap, slots := (s.linkAt link).shSlots, commit := false }) ∧
      ((s.linkAt link).commit = false → exec (.wvcommit link) s = .next s)

/-- R433, R472, R489, R490: power-on and a fundamental reset leave nothing resident and an empty memory, and bring-up begins at
phase 0. The phases then end one by one: with every check passed the device is ready in phase 6, its looms mapped and the
ports without a partner down; with a failure it rests in the safe state with the failure's phase, unit, reason and detail,
and so it does with TIMEOUT when a phase exceeds its bound. A reset keeps the cycle counters and the lost dies; what lasts
is the flash. Power loss leaves nothing. The cycle counters add 1 while the device is powered. The outcome of the phases
comes from state given from outside, and that a reset keeps the counters is the model's reading (assumption log 30). -/
def Obligations.BringUp : Prop :=
  ∀ s : State,
    let Bare (t : State) (powered : Bool) : Prop :=
      { t with fresh := 0, agenda := [], dies := [], dev := {} } = State.reset ∧ t.fresh = s.fresh ∧ t.agenda = s.agenda ∧
      t.dev = { powered, image := s.dev.image, minSvn := s.dev.minSvn, imageSvn := s.dev.imageSvn, images := s.dev.images
                selfTest := s.dev.selfTest, imageFault := s.dev.imageFault, loomFails := s.dev.loomFails
                peers := s.dev.peers, peerPlanes := s.dev.peerPlanes, portPartners := s.dev.portPartners
                cabling := s.dev.cabling }
    let Failed (t : State) (f : Nat × Nat × Nat) : Prop := t.dev = { s.dev with fail := true, unit := f.1, reason := f.2.1, detail := f.2.2 } ∧
      { t with dev := s.dev, fresh := s.fresh } = s ∧ t.ready = false
    (s.dev.powered = false ∨ s.dev.ioLost = true →
      Completes .powerOn s fun t => Bare t true ∧ t.dies = [] ∧ t.booting = true ∧ t.dev.phase = 0) ∧
    (s.dev.powered = true → s.dev.ioLost = false → exec .powerOn s = .next s) ∧
    (s.dev.powered = true → Completes .fundamentalReset s fun t => Bare t true ∧ t.booting = true ∧ t.dev.phase = 0 ∧
      ∀ n < 13, t.dieAt n = if (s.dieAt n).lost then { cycles := (s.dieAt n).cycles, lost := true, st := 4 }
        else { cycles := (s.dieAt n).cycles }) ∧
    (s.booting = true → s.agenda = [] →
      (∀ f, s.phaseFailure s.dev.phase = some f → ∃ t, step s = .next t ∧ Failed t f) ∧
      (s.phaseFailure s.dev.phase = none → ∃ t, step s = .next t ∧ t.dev = { s.dev with phase := s.dev.phase + 1 } ∧
        { t with dev := s.dev, dies := s.dies, links := s.links, fresh := s.fresh } = s ∧
        (s.dev.phase = 5 → t.ready = true) ∧
        (∀ n, t.dieAt n = match s.repaired n with
          | .ok l => if s.dev.phase = 2 ∧ n < 12 then { s.dieAt n with loomMap := l } else s.dieAt n
          | .error _ => s.dieAt n) ∧
        ∀ n, t.linkAt n = if s.dev.phase = 5 ∧ 36 ≤ n ∧ n < 72 then
          { s.linkAt n with down := !s.dev.portPartners.contains (n - 36) } else s.linkAt n)) ∧
    (s.booting = true → Completes .bootPhaseTimeout s fun t => Failed t (15, 9, 0)) ∧
    (s.booting = false → exec .bootPhaseTimeout s = .next s) ∧
    (Completes .powerLoss s fun t => Bare t false ∧ t.dies = [] ∧ t.dev.phase = 0) ∧
    (s.dev.powered = true → Completes .cycleCounterIncrement s fun t =>
      { t with dies := s.dies } = s ∧ t.dieAt 12 = { s.dieAt 12 with cycles := (s.dieAt 12).cycles + 1 } ∧
      (∀ n < 12, { t.dieAt n with counters := (s.dieAt n).counters } =
          { s.dieAt n with cycles := (s.dieAt n).cycles + 1 } ∧
        ∀ c, let v := (tget 0 (s.dieAt n).counters c).toNat
          (tget 0 (t.dieAt n).counters c).toNat = if c = 0x381 + (s.dieAt n).point then min (v + 1) (2 ^ 64 - 1) else v) ∧
      ∀ n, 13 ≤ n → t.dieAt n = s.dieAt n) ∧
    (s.dev.powered = false → exec .cycleCounterIncrement s = .next s)

/-! ## Decoding, stepping and reset -/

/-- R6, R202 to R215: these words, written out from the encoding tables (least significant word first), decode to these
instructions, and these to none. -/
def Obligations.WordsDecode : Prop :=
  (∀ e ∈ ([
    ([0x09400009], .saddi 20 0 9), ([0x04518700], .sadd 5 6 7), ([0x04310942], .scmp 3 4 9 2),
    ([0x82FFFFFB], .sbr 1 3 (BitVec.ofInt 22 (-5))), ([0x48A10010], .sldW 10 4 16), ([0x58A11482], .sldWSync 10 4 2 4 1 2),
    ([0x90000030], .swin 48), ([0x95000020], .lgo 16 32), ([0x98000000], .lwait 0), ([0xA4014002], .pwait 5 2),
    ([0xA8010804], .xfence 1 8 4), ([0xE0020020], .mxMma 0 8 0), ([0xF0700000], .scsrr 7 0), ([0xF800002A], .trap 42),
    ([0x00000000, 0x04613000, 0x00504181], .vadd ⟨4, 0, 1⟩ 6 ⟨4, 0, 1, 3⟩ ⟨9, 1, 0, 0⟩ 0),
    ([0x00000001, 0xC000F000, 0x00508280], .vadd ⟨4, 0, 2⟩ 10 ⟨3, 0, 0, 0⟩ ⟨7, 1, 0, 0⟩ 1),
    ([0x00000610, 0x02004000, 0xA0044800], .vbr 1 1 2 0 0 8 16 0 0 24 1 0)] : List (List Word × Instr)),
    decodeWords e.1 = some e.2) ∧
  (∀ w ∈ ([[0x00000000, 0x1C613000, 0x00504181], [0x00000000, 0x04613000, 0x03D04181],
    [0x00000610, 0x02004005, 0xA0044800], [0xFC000001], [0x00000000]] : List (List Word)), decodeWords w = none)

/-- R202 to R215: decode and encode agree. Every instruction of the two streams with every operand that the encoding
admits is read back from its words, and words that decode are those of the instruction they decode to, whose operands
the encoding admits. -/
def Obligations.DecodeEncode : Prop :=
  (∀ i : Instr, i.wf = true → i.stream ≠ 2 → decodeWords (encode i) = some i) ∧
  ∀ (ws : List Word) (i : Instr), decodeWords ws = some i → i.wf = true ∧ i.stream ≠ 2 ∧ encode i = ws

/-- A step runs the decoded instruction. The agenda names a stream of a pick, or both; with the stream free to issue and its
words fetched (R245, R462), free of poison (R486), no breakpoint on them (R432) and the lane distance in bounds
(R68), step is exec of the instruction that the words decode to, and of an unallocated encoding where they decode
to none for their opcode; a word of which an operand check fails traps with ILL_OPERAND (R215). The fetch touches its
dies (R485), and passes over the other candidates of the quadrant (R63); it finds what memory holds where every recorded
write is ordered before it (R146). When both streams of a pick issue in one clk (R528) and neither stops, both effects
stand, and the FMASK bits of both; when a second candidate of the quadrant may issue beside the first (R22), both do. An
event on the agenda is executed as it stands. With nothing on it every sixteenth step is a fabric clk. With the I/O die lost
only a power event happens (R31). The agenda is the model's own (assumption log 2), and so are the order and the pace of
the clk where it is empty (log 3); the stop after the loss of the I/O die is its form of R31 (log 34). -/
def Obligations.StepRunsDecoded : Prop :=
  ∀ (s : State) (rest : List Action),
    let u (a : Action) (k : Nat) : State :=
      { ({ s with agenda := rest, fresh := s.fresh + 1 } : State).passOver a with cur := k }
    (∀ pas : List Nat, s.settled s.fetchAgent = true → s.fetched pas = ofLe (s.devBytes pas)) ∧
    (s.dev.ioLost = false →
      (∀ k pas m, s.agenda = .scalar k :: rest →
        let v := u (.scalar k) k
        let p := v.pick
        let w : Word := BitVec.ofNat 32 (v.fetched pas)
        let x := { v with inst := w.setWidth 96 }.touchDies v.team.ctx m
        p.frozen = false → v.team.phase.issues = true → v.team.phase.isSaving = false → p.wait = .none →
        v.resolve v.ctx rightX (v.ctx.sbase + p.spc.setWidth 64).toNat 4 = .ok (pas, m) →
        s.poisoned pas = false →
        (p.mode = true ∨ p.bkExempt = true ∨ matchBreak (v.ctx.bkctl.toNat / 16) v.ctx.bks 2 p.spc = none) →
        (∀ i, decodeWords [w] = some i → step s = exec i x) ∧
        (decodeScalar w = .illOpcode → step s = exec (.unallocatedEncoding false) x) ∧
        (decodeScalar w = .illOperand → p.mode = false → ∃ t, step s = .next t ∧ t.mem = s.mem ∧
          TookTrap x t .illOperand (BitVec.ofNat 64 (w.toNat / 2 ^ 26)) 0 true p.spc)) ∧
      (∀ k f x pas m, s.agenda = .lane k f :: rest →
        let v := { u (.lane k f) k with frag := f }
        let p := x.pick
        let lpc := (p.ls.fragPc v.fragment).getD 0
        let w : BitVec 96 := BitVec.ofNat 96 (x.fetched pas)
        let y := { x with inst := w }.touchDies x.team.ctx m
        v.pick.frozen = false → v.team.phase.issues = true → v.pick.running = true → v.fragment.waitAt = none →
        v.pick.ls.fragLive v.fragment = true →
        (v.team.phase.isSaving = false ∨ v.pick.mode = true ∨ v.pick.ls.fragSafe v.fragment = false) →
        (v.setPick (v.pick.advanceTo v.pick.nextLane)).payOwed = .ok x →
        x.resolve x.ctx rightX (x.ctx.lbase + lpc.setWidth 64).toNat 12 = .ok (pas, m) →
        s.poisoned pas = false →
        (p.mode = true ∨ v.fragment.exempt = true ∨ matchBreak x.ctx.bkctl.toNat x.ctx.bkl 4 lpc = none) →
        (∀ i, decodeTableWord 96 w.toNat = some i →
          (x.chk 3 = false ∨ p.mode = true ∨ isSafept i = true ∨ y.stopsEarly i = true ∨
            ∀ n ∈ v.fragment.members, (p.ls.strand n).dist < 4096) →
          step s = exec i y) ∧
        (decodeLane w = .illOpcode → step s = exec (.unallocatedEncoding true) y) ∧
        (decodeLane w = .illOperand → p.mode = false → p.wait = .none → ∃ t, step s = .next t ∧ t.mem = s.mem ∧
          TookTrap y t .illOperand (BitVec.ofNat 64 (w.toNat / 2 ^ 86)) 0 false p.spc)) ∧
      (∀ k f i j a b t x, s.agenda = .both k f :: rest →
        let v := ({ s with agenda := rest, fresh := s.fresh + 1 } : State).passOver (.both k f)
        let p := v.pickAt k
        (v.setPickAt k { p with fmask := 0 }).issueLane k f = .go i a → exec i a = .next t → v.stopped t k = false →
        State.issueScalar { t.setPickAt k { t.pickAt k with fmask := p.fmask, seed := p.seed } with fresh := t.fresh + 1 } k =
          .go j b → exec j b = .next x → v.stopped x k = false →
        ∃ z, step s = .next z ∧ { z with picks := x.picks } = x ∧ (∀ n, n ≠ k → z.pickAt n = x.pickAt n) ∧
          { z.pickAt k with fmask := (x.pickAt k).fmask, seed := (x.pickAt k).seed } = x.pickAt k ∧
          (z.pickAt k).fmask = (x.pickAt k).fmask ||| (t.pickAt k).fmask) ∧
      (∀ k f k2 f2 i a t, s.agenda = .pair k f k2 f2 :: rest →
        let v := ({ s with agenda := rest, fresh := s.fresh + 1 } : State).passOver (.pair k f k2 f2)
        v.issueLane k f = .go i a → exec i a = .next t →
        (v.pairs k f k2 f2 = false → step s = .next t) ∧
        ∀ j b, v.pairs k f k2 f2 = true → ({ t with fresh := t.fresh + 1 } : State).issueLane k2 f2 = .go j b →
          step s = exec j b) ∧
      (∀ i k, s.agenda = .event i k :: rest →
        step s = if i.stream = 2 then exec i { s with agenda := rest, fresh := s.fresh + 1, cur := k }
          else .next { s with agenda := rest, fresh := s.fresh + 1 }) ∧
      (s.agenda = [] → s.booting = false → s.fresh % 16 = 14 →
        step s = exec .cycleCounterIncrement { s with fresh := s.fresh + 1 })) ∧
    (s.dev.ioLost = true →
      (∀ a, s.agenda = a :: rest → powerAction a = false → step s = .fault .deviceLost) ∧
      (∀ i k, s.agenda = .event i k :: rest → (i = .powerOn ∨ i = .powerLoss) →
        step s = exec i { s with agenda := rest, fresh := s.fresh + 1, cur := k }) ∧
      (s.agenda = [] → step s = .fault .deviceLost))

/-- R433, R472: what reset leaves. Nothing is resident, no context, no world and no operation exists, memory lists no
byte, cycle and event counters are 0, the window base of a trap in every context is 960 and its checking is off, and
the I/O die is not lost. Unwritten memory reads 0, and a context's other registers are 0, by the model's choice (logs 4
and 5). -/
def Obligations.ResetState : Prop :=
  let s := State.reset
  MemInv s ∧ (∀ a, rdByte s.mem a = 0) ∧ s.poison = [] ∧ s.ops = [] ∧ s.faultLog = [] ∧ s.agenda = [] ∧
  (∀ k, (s.pickAt k).live = false ∧ (s.pickAt k).mode = false ∧ (s.pickAt k).spc = 0) ∧
  (∀ k, (s.teamAt k).phase.issues = false) ∧
  (∀ c, (s.ctxAt c).live = false ∧ (s.ctxAt c).twin = 960 ∧ (s.ctxAt c).tvec = 0 ∧ (s.ctxAt c).chk = 0 ∧
    (s.ctxAt c).sbase = 0 ∧ (s.ctxAt c).lbase = 0 ∧ (s.ctxAt c).bkctl = 0) ∧
  (∀ d, (s.dieAt d).cycles = 0 ∧ (s.dieAt d).lost = false ∧ (s.dieAt d).world = 0 ∧
    ∀ n, tget 0 (s.dieAt d).counters n = 0) ∧
  s.dev.powered = false ∧ s.dev.phase = 0 ∧ s.dev.ioLost = false ∧ s.dev.devid = none ∧ s.ready = false

/-- Every step keeps every memory of the machine in its canonical form: addresses rise strictly and no listed byte is
what an unlisted one reads as. The form is the model's (log 5). -/
def Obligations.StepKeepsMemoryCanonical : Prop :=
  ∀ s t : State, MemInv s → step s = .next t → MemInv t

/-- Every step keeps the tables of teams and operations in order: team numbers rise, no two operations have one number, and
the next number to give lies above them all. The tables are the model's (log 2). -/
def Obligations.StepKeepsTables : Prop :=
  ∀ s t : State, TablesInv s → step s = .next t → TablesInv t
end

