-- ==== Sys2Proof/Laws/Tab.lean ====
section
/-! SUPPORT. Laws of sparse tables, of bytes, and of memory in canonical form. -/

namespace Sys2Proof.Machine

variable {α : Type}

@[simp] theorem tget_nil (d : α) (k : Nat) : tget d [] k = d := rfl

theorem tget_tdel_self (d : α) (t : Tab α) (k : Nat) : tget d (tdel k t) k = d := by
  induction t with
  | nil => rfl
  | cons e t ih =>
    simp only [tdel]
    split
    · exact ih
    · simp only [tget]
      rw [if_neg ‹_›, ih]

theorem tget_tdel_ne (d : α) (t : Tab α) {j k : Nat} (h : j ≠ k) : tget d (tdel k t) j = tget d t j := by
  induction t with
  | nil => rfl
  | cons e t ih =>
    simp only [tdel, tget]
    split
    · next he => rw [if_neg (fun h' : e.1 = j => h (h'.symm.trans he)), ih]
    · simp only [tget, ih]

theorem tget_tins_self (d : α) (t : Tab α) (k : Nat) (v : α) : tget d (tins k v t) k = v := by
  induction t with
  | nil => simp [tins, tget]
  | cons e t ih =>
    simp only [tins]
    split
    · simp [tget]
    · split
      · simp [tget]
      · next h => simp only [tget, if_neg h, ih]

theorem tget_tins_ne (d : α) (t : Tab α) {j k : Nat} (v : α) (h : j ≠ k) : tget d (tins k v t) j = tget d t j := by
  have h' : ¬ k = j := fun e => h e.symm
  induction t with
  | nil => simp [tins, tget, h']
  | cons e t ih =>
    simp only [tins]
    split
    · simp [tget, h']
    · split
      · next he => simp [tget, h', he]
      · simp only [tget, ih]

/-- Reading what was written (`tput`). -/
@[simp] theorem tget_tput_self [DecidableEq α] (d : α) (t : Tab α) (k : Nat) (v : α) : tget d (tput d t k v) k = v := by
  unfold tput
  split
  · next h => rw [tget_tdel_self, h]
  · exact tget_tins_self d t k v

/-- A write leaves every other entry alone. -/
theorem tget_tput_ne [DecidableEq α] (d : α) (t : Tab α) {j k : Nat} (v : α) (h : j ≠ k) :
    tget d (tput d t k v) j = tget d t j := by
  unfold tput
  split
  · exact tget_tdel_ne d t h
  · exact tget_tins_ne d t v h

/-- Reading after a write. -/
theorem tget_tput [DecidableEq α] (d : α) (t : Tab α) (j k : Nat) (v : α) :
    tget d (tput d t k v) j = if j = k then v else tget d t j := by
  split
  · next h => rw [h, tget_tput_self]
  · next h => exact tget_tput_ne d t v h

/-! ## Memory in canonical form -/

theorem risingFrom_mono {lo hi : Nat} {m : Memory} (h : lo ≤ hi) (w : risingFrom hi m = true) : risingFrom lo m = true := by
  cases m with
  | nil => rfl
  | cons e t =>
    simp only [risingFrom, Bool.and_eq_true, decide_eq_true_eq] at w ⊢
    exact ⟨⟨by omega, w.1.2⟩, w.2⟩

theorem risingFrom_tdel {lo : Nat} {m : Memory} (a : Nat) (w : risingFrom lo m = true) : risingFrom lo (tdel a m) = true := by
  induction m generalizing lo with
  | nil => rfl
  | cons e t ih =>
    simp only [risingFrom, Bool.and_eq_true, decide_eq_true_eq] at w
    simp only [tdel]
    split
    · exact risingFrom_mono (by omega) (ih w.2)
    · simp only [risingFrom, Bool.and_eq_true, decide_eq_true_eq]
      exact ⟨w.1, ih w.2⟩

theorem risingFrom_tins {lo : Nat} {m : Memory} {a : Nat} {v : Byte} (hv : v ≠ 0) (ha : lo ≤ a)
    (w : risingFrom lo m = true) : risingFrom lo (tins a v m) = true := by
  induction m generalizing lo with
  | nil =>
    simp only [tins, risingFrom, Bool.and_eq_true, decide_eq_true_eq, and_true]
    exact ⟨ha, by simpa using hv⟩
  | cons e t ih =>
    simp only [risingFrom, Bool.and_eq_true, decide_eq_true_eq] at w
    simp only [tins]
    split
    · simp only [risingFrom, Bool.and_eq_true, decide_eq_true_eq]
      exact ⟨⟨ha, by simpa using hv⟩, ⟨by omega, w.1.2⟩, w.2⟩
    · split
      · next he =>
        simp only [risingFrom, Bool.and_eq_true, decide_eq_true_eq]
        exact ⟨⟨ha, by simpa using hv⟩, he ▸ w.2⟩
      · simp only [risingFrom, Bool.and_eq_true, decide_eq_true_eq]
        exact ⟨w.1, ih (by omega) w.2⟩

/-- A byte written keeps the canonical form. -/
theorem wrByte_wf {m : Memory} (a : Nat) (v : Byte) (w : Memory.wf m = true) : Memory.wf (wrByte m a v) = true := by
  unfold Memory.wf wrByte tput at *
  split
  · exact risingFrom_tdel a w
  · next h => exact risingFrom_tins h (Nat.zero_le a) w

/-- Bytes written keep the canonical form. -/
theorem wrBytes_wf {m : Memory} (a : Nat) (vs : List Byte) (w : Memory.wf m = true) :
    Memory.wf (wrBytes m a vs) = true := by
  induction vs generalizing m a with
  | nil => exact w
  | cons v vs ih => exact ih (a + 1) (wrByte_wf a v w)

/-- A number written keeps the canonical form. -/
theorem wrNat_wf {m : Memory} (a n x : Nat) (w : Memory.wf m = true) : Memory.wf (wrNat m a n x) = true :=
  wrBytes_wf a _ w

theorem risingFrom_filter {lo : Nat} {m : Memory} (f : Host.Cell → Bool) (w : risingFrom lo m = true) :
    risingFrom lo (m.filter f) = true := by
  induction m generalizing lo with
  | nil => rfl
  | cons e t ih =>
    simp only [risingFrom, Bool.and_eq_true, decide_eq_true_eq] at w
    simp only [List.filter]
    split
    · simp only [risingFrom, Bool.and_eq_true, decide_eq_true_eq]
      exact ⟨w.1, ih w.2⟩
    · exact risingFrom_mono (by omega) (ih w.2)

/-- Memory with cells taken away keeps the canonical form. -/
theorem filter_wf {m : Memory} (f : Host.Cell → Bool) (w : Memory.wf m = true) :
    Memory.wf (m.filter f : Memory) = true := risingFrom_filter f w

/-- A byte read after a byte written. -/
theorem rdByte_wrByte (m : Memory) (a b : Nat) (v : Byte) :
    rdByte (wrByte m a v) b = if b = a then v else rdByte m b := tget_tput 0 m b a v

/-- Bytes below a write are as before. -/
theorem rdByte_wrBytes_lt (m : Memory) (a b : Nat) (vs : List Byte) (h : b < a) :
    rdByte (wrBytes m a vs) b = rdByte m b := by
  induction vs generalizing m a with
  | nil => rfl
  | cons v vs ih => rw [wrBytes, ih _ _ (by omega), rdByte_wrByte, if_neg (by omega)]

/-- A byte read after bytes written from a on. -/
theorem rdByte_wrBytes (m : Memory) (a b : Nat) (vs : List Byte) :
    rdByte (wrBytes m a vs) b = if a ≤ b then (vs[b - a]?).getD (rdByte m b) else rdByte m b := by
  induction vs generalizing m a with
  | nil => simp [wrBytes]
  | cons v vs ih =>
    rw [wrBytes, ih]
    by_cases h : a + 1 ≤ b
    · rw [if_pos h, if_pos (by omega), rdByte_wrByte, if_neg (by omega), show b - a = (b - (a + 1)) + 1 by omega]
      simp
    · rw [if_neg h, rdByte_wrByte]
      by_cases e : b = a
      · simp [e]
      · rw [if_neg e, if_neg (by omega)]

/-! ## Bytes of numbers -/

@[simp] theorem leBytes_length (n x : Nat) : (leBytes n x).length = n := by
  induction n generalizing x with
  | zero => rfl
  | succ n ih => simp [leBytes, ih]

/-- The number of the n bytes of x is x modulo 256^n. -/
theorem ofLe_leBytes (n x : Nat) : ofLe (leBytes n x) = x % 256 ^ n := by
  induction n generalizing x with
  | zero => simp [leBytes, ofLe, Nat.mod_one]
  | succ n ih =>
    have h : x % 256 ^ (n + 1) = x % 256 + 256 * (x / 256 % 256 ^ n) := by rw [Nat.pow_succ', Nat.mod_mul]
    rw [h, leBytes, ofLe, ih]
    rfl

theorem rdBytes_length (m : Memory) (a n : Nat) : (rdBytes m a n).length = n := by
  induction n generalizing a with
  | zero => rfl
  | succ n ih => simp [rdBytes, ih]

/-- Reading the bytes just written. -/
theorem rdBytes_wrBytes (m : Memory) (a : Nat) (vs : List Byte) : rdBytes (wrBytes m a vs) a vs.length = vs := by
  induction vs generalizing m a with
  | nil => rfl
  | cons v vs ih =>
    simp only [List.length_cons, rdBytes]
    rw [rdByte_wrBytes, wrBytes, ih]
    simp

/-- Reading back a number that fits. -/
theorem rdNat_wrNat (m : Memory) (a n x : Nat) : rdNat (wrNat m a n x) a n = x % 256 ^ n := by
  have h := rdBytes_wrBytes m a (leBytes n x)
  rw [leBytes_length] at h
  rw [rdNat, wrNat, h, ofLe_leBytes]

end Sys2Proof.Machine
end

