-- ==== Sys2Proof/Laws/State.lean ====
section
/-! SUPPORT. One lemma per field per update of the state and of a pick, and what each accessor reads after it. -/

namespace Sys2Proof.Machine

/-! ## Fields of the state -/

@[simp] theorem State.setPickAt_fresh (s : State) (k : Nat) (p : Pick) : (s.setPickAt k p).fresh = s.fresh := rfl
@[simp] theorem State.setPickAt_agenda (s : State) (k : Nat) (p : Pick) : (s.setPickAt k p).agenda = s.agenda := rfl
@[simp] theorem State.setPickAt_cur (s : State) (k : Nat) (p : Pick) : (s.setPickAt k p).cur = s.cur := rfl
@[simp] theorem State.setPickAt_frag (s : State) (k : Nat) (p : Pick) : (s.setPickAt k p).frag = s.frag := rfl
@[simp] theorem State.setPickAt_inst (s : State) (k : Nat) (p : Pick) : (s.setPickAt k p).inst = s.inst := rfl
@[simp] theorem State.setPickAt_nextTeam (s : State) (k : Nat) (p : Pick) : (s.setPickAt k p).nextTeam = s.nextTeam := rfl
@[simp] theorem State.setPickAt_nextLaunch (s : State) (k : Nat) (p : Pick) : (s.setPickAt k p).nextLaunch = s.nextLaunch := rfl
@[simp] theorem State.setPickAt_nextOp (s : State) (k : Nat) (p : Pick) : (s.setPickAt k p).nextOp = s.nextOp := rfl
@[simp] theorem State.setPickAt_nextFid (s : State) (k : Nat) (p : Pick) : (s.setPickAt k p).nextFid = s.nextFid := rfl
@[simp] theorem State.setPickAt_nextW (s : State) (k : Nat) (p : Pick) : (s.setPickAt k p).nextW = s.nextW := rfl
@[simp] theorem State.setPickAt_mem (s : State) (k : Nat) (p : Pick) : (s.setPickAt k p).mem = s.mem := rfl
@[simp] theorem State.setPickAt_poison (s : State) (k : Nat) (p : Pick) : (s.setPickAt k p).poison = s.poison := rfl
@[simp] theorem State.setPickAt_wlog (s : State) (k : Nat) (p : Pick) : (s.setPickAt k p).wlog = s.wlog := rfl
@[simp] theorem State.setPickAt_fadds (s : State) (k : Nat) (p : Pick) : (s.setPickAt k p).fadds = s.fadds := rfl
@[simp] theorem State.setPickAt_teams (s : State) (k : Nat) (p : Pick) : (s.setPickAt k p).teams = s.teams := rfl
@[simp] theorem State.setPickAt_launches (s : State) (k : Nat) (p : Pick) : (s.setPickAt k p).launches = s.launches := rfl
@[simp] theorem State.setPickAt_ctxs (s : State) (k : Nat) (p : Pick) : (s.setPickAt k p).ctxs = s.ctxs := rfl
@[simp] theorem State.setPickAt_ops (s : State) (k : Nat) (p : Pick) : (s.setPickAt k p).ops = s.ops := rfl
@[simp] theorem State.setPickAt_slots (s : State) (k : Nat) (p : Pick) : (s.setPickAt k p).slots = s.slots := rfl
@[simp] theorem State.setPickAt_dies (s : State) (k : Nat) (p : Pick) : (s.setPickAt k p).dies = s.dies := rfl
@[simp] theorem State.setPickAt_worlds (s : State) (k : Nat) (p : Pick) : (s.setPickAt k p).worlds = s.worlds := rfl
@[simp] theorem State.setPickAt_links (s : State) (k : Nat) (p : Pick) : (s.setPickAt k p).links = s.links := rfl
@[simp] theorem State.setPickAt_fns (s : State) (k : Nat) (p : Pick) : (s.setPickAt k p).fns = s.fns := rfl
@[simp] theorem State.setPickAt_filters (s : State) (k : Nat) (p : Pick) : (s.setPickAt k p).filters = s.filters := rfl
@[simp] theorem State.setPickAt_dev (s : State) (k : Nat) (p : Pick) : (s.setPickAt k p).dev = s.dev := rfl
@[simp] theorem State.setPickAt_faultLog (s : State) (k : Nat) (p : Pick) : (s.setPickAt k p).faultLog = s.faultLog := rfl
@[simp] theorem State.setPick_fresh (s : State) (p : Pick) : (s.setPick p).fresh = s.fresh := rfl
@[simp] theorem State.setPick_agenda (s : State) (p : Pick) : (s.setPick p).agenda = s.agenda := rfl
@[simp] theorem State.setPick_cur (s : State) (p : Pick) : (s.setPick p).cur = s.cur := rfl
@[simp] theorem State.setPick_frag (s : State) (p : Pick) : (s.setPick p).frag = s.frag := rfl
@[simp] theorem State.setPick_inst (s : State) (p : Pick) : (s.setPick p).inst = s.inst := rfl
@[simp] theorem State.setPick_nextTeam (s : State) (p : Pick) : (s.setPick p).nextTeam = s.nextTeam := rfl
@[simp] theorem State.setPick_nextLaunch (s : State) (p : Pick) : (s.setPick p).nextLaunch = s.nextLaunch := rfl
@[simp] theorem State.setPick_nextOp (s : State) (p : Pick) : (s.setPick p).nextOp = s.nextOp := rfl
@[simp] theorem State.setPick_nextFid (s : State) (p : Pick) : (s.setPick p).nextFid = s.nextFid := rfl
@[simp] theorem State.setPick_nextW (s : State) (p : Pick) : (s.setPick p).nextW = s.nextW := rfl
@[simp] theorem State.setPick_mem (s : State) (p : Pick) : (s.setPick p).mem = s.mem := rfl
@[simp] theorem State.setPick_poison (s : State) (p : Pick) : (s.setPick p).poison = s.poison := rfl
@[simp] theorem State.setPick_wlog (s : State) (p : Pick) : (s.setPick p).wlog = s.wlog := rfl
@[simp] theorem State.setPick_fadds (s : State) (p : Pick) : (s.setPick p).fadds = s.fadds := rfl
@[simp] theorem State.setPick_teams (s : State) (p : Pick) : (s.setPick p).teams = s.teams := rfl
@[simp] theorem State.setPick_launches (s : State) (p : Pick) : (s.setPick p).launches = s.launches := rfl
@[simp] theorem State.setPick_ctxs (s : State) (p : Pick) : (s.setPick p).ctxs = s.ctxs := rfl
@[simp] theorem State.setPick_ops (s : State) (p : Pick) : (s.setPick p).ops = s.ops := rfl
@[simp] theorem State.setPick_slots (s : State) (p : Pick) : (s.setPick p).slots = s.slots := rfl
@[simp] theorem State.setPick_dies (s : State) (p : Pick) : (s.setPick p).dies = s.dies := rfl
@[simp] theorem State.setPick_worlds (s : State) (p : Pick) : (s.setPick p).worlds = s.worlds := rfl
@[simp] theorem State.setPick_links (s : State) (p : Pick) : (s.setPick p).links = s.links := rfl
@[simp] theorem State.setPick_fns (s : State) (p : Pick) : (s.setPick p).fns = s.fns := rfl
@[simp] theorem State.setPick_filters (s : State) (p : Pick) : (s.setPick p).filters = s.filters := rfl
@[simp] theorem State.setPick_dev (s : State) (p : Pick) : (s.setPick p).dev = s.dev := rfl
@[simp] theorem State.setPick_faultLog (s : State) (p : Pick) : (s.setPick p).faultLog = s.faultLog := rfl
@[simp] theorem State.setTeamAt_fresh (s : State) (k : Nat) (m : Team) : (s.setTeamAt k m).fresh = s.fresh := rfl
@[simp] theorem State.setTeamAt_agenda (s : State) (k : Nat) (m : Team) : (s.setTeamAt k m).agenda = s.agenda := rfl
@[simp] theorem State.setTeamAt_cur (s : State) (k : Nat) (m : Team) : (s.setTeamAt k m).cur = s.cur := rfl
@[simp] theorem State.setTeamAt_frag (s : State) (k : Nat) (m : Team) : (s.setTeamAt k m).frag = s.frag := rfl
@[simp] theorem State.setTeamAt_inst (s : State) (k : Nat) (m : Team) : (s.setTeamAt k m).inst = s.inst := rfl
@[simp] theorem State.setTeamAt_nextTeam (s : State) (k : Nat) (m : Team) : (s.setTeamAt k m).nextTeam = s.nextTeam := rfl
@[simp] theorem State.setTeamAt_nextLaunch (s : State) (k : Nat) (m : Team) : (s.setTeamAt k m).nextLaunch = s.nextLaunch := rfl
@[simp] theorem State.setTeamAt_nextOp (s : State) (k : Nat) (m : Team) : (s.setTeamAt k m).nextOp = s.nextOp := rfl
@[simp] theorem State.setTeamAt_nextFid (s : State) (k : Nat) (m : Team) : (s.setTeamAt k m).nextFid = s.nextFid := rfl
@[simp] theorem State.setTeamAt_nextW (s : State) (k : Nat) (m : Team) : (s.setTeamAt k m).nextW = s.nextW := rfl
@[simp] theorem State.setTeamAt_mem (s : State) (k : Nat) (m : Team) : (s.setTeamAt k m).mem = s.mem := rfl
@[simp] theorem State.setTeamAt_poison (s : State) (k : Nat) (m : Team) : (s.setTeamAt k m).poison = s.poison := rfl
@[simp] theorem State.setTeamAt_wlog (s : State) (k : Nat) (m : Team) : (s.setTeamAt k m).wlog = s.wlog := rfl
@[simp] theorem State.setTeamAt_fadds (s : State) (k : Nat) (m : Team) : (s.setTeamAt k m).fadds = s.fadds := rfl
@[simp] theorem State.setTeamAt_picks (s : State) (k : Nat) (m : Team) : (s.setTeamAt k m).picks = s.picks := rfl
@[simp] theorem State.setTeamAt_launches (s : State) (k : Nat) (m : Team) : (s.setTeamAt k m).launches = s.launches := rfl
@[simp] theorem State.setTeamAt_ctxs (s : State) (k : Nat) (m : Team) : (s.setTeamAt k m).ctxs = s.ctxs := rfl
@[simp] theorem State.setTeamAt_ops (s : State) (k : Nat) (m : Team) : (s.setTeamAt k m).ops = s.ops := rfl
@[simp] theorem State.setTeamAt_slots (s : State) (k : Nat) (m : Team) : (s.setTeamAt k m).slots = s.slots := rfl
@[simp] theorem State.setTeamAt_dies (s : State) (k : Nat) (m : Team) : (s.setTeamAt k m).dies = s.dies := rfl
@[simp] theorem State.setTeamAt_worlds (s : State) (k : Nat) (m : Team) : (s.setTeamAt k m).worlds = s.worlds := rfl
@[simp] theorem State.setTeamAt_links (s : State) (k : Nat) (m : Team) : (s.setTeamAt k m).links = s.links := rfl
@[simp] theorem State.setTeamAt_fns (s : State) (k : Nat) (m : Team) : (s.setTeamAt k m).fns = s.fns := rfl
@[simp] theorem State.setTeamAt_filters (s : State) (k : Nat) (m : Team) : (s.setTeamAt k m).filters = s.filters := rfl
@[simp] theorem State.setTeamAt_dev (s : State) (k : Nat) (m : Team) : (s.setTeamAt k m).dev = s.dev := rfl
@[simp] theorem State.setTeamAt_faultLog (s : State) (k : Nat) (m : Team) : (s.setTeamAt k m).faultLog = s.faultLog := rfl
@[simp] theorem State.setTeam_fresh (s : State) (m : Team) : (s.setTeam m).fresh = s.fresh := rfl
@[simp] theorem State.setTeam_agenda (s : State) (m : Team) : (s.setTeam m).agenda = s.agenda := rfl
@[simp] theorem State.setTeam_cur (s : State) (m : Team) : (s.setTeam m).cur = s.cur := rfl
@[simp] theorem State.setTeam_frag (s : State) (m : Team) : (s.setTeam m).frag = s.frag := rfl
@[simp] theorem State.setTeam_inst (s : State) (m : Team) : (s.setTeam m).inst = s.inst := rfl
@[simp] theorem State.setTeam_nextTeam (s : State) (m : Team) : (s.setTeam m).nextTeam = s.nextTeam := rfl
@[simp] theorem State.setTeam_nextLaunch (s : State) (m : Team) : (s.setTeam m).nextLaunch = s.nextLaunch := rfl
@[simp] theorem State.setTeam_nextOp (s : State) (m : Team) : (s.setTeam m).nextOp = s.nextOp := rfl
@[simp] theorem State.setTeam_nextFid (s : State) (m : Team) : (s.setTeam m).nextFid = s.nextFid := rfl
@[simp] theorem State.setTeam_nextW (s : State) (m : Team) : (s.setTeam m).nextW = s.nextW := rfl
@[simp] theorem State.setTeam_mem (s : State) (m : Team) : (s.setTeam m).mem = s.mem := rfl
@[simp] theorem State.setTeam_poison (s : State) (m : Team) : (s.setTeam m).poison = s.poison := rfl
@[simp] theorem State.setTeam_wlog (s : State) (m : Team) : (s.setTeam m).wlog = s.wlog := rfl
@[simp] theorem State.setTeam_fadds (s : State) (m : Team) : (s.setTeam m).fadds = s.fadds := rfl
@[simp] theorem State.setTeam_picks (s : State) (m : Team) : (s.setTeam m).picks = s.picks := rfl
@[simp] theorem State.setTeam_launches (s : State) (m : Team) : (s.setTeam m).launches = s.launches := rfl
@[simp] theorem State.setTeam_ctxs (s : State) (m : Team) : (s.setTeam m).ctxs = s.ctxs := rfl
@[simp] theorem State.setTeam_ops (s : State) (m : Team) : (s.setTeam m).ops = s.ops := rfl
@[simp] theorem State.setTeam_slots (s : State) (m : Team) : (s.setTeam m).slots = s.slots := rfl
@[simp] theorem State.setTeam_dies (s : State) (m : Team) : (s.setTeam m).dies = s.dies := rfl
@[simp] theorem State.setTeam_worlds (s : State) (m : Team) : (s.setTeam m).worlds = s.worlds := rfl
@[simp] theorem State.setTeam_links (s : State) (m : Team) : (s.setTeam m).links = s.links := rfl
@[simp] theorem State.setTeam_fns (s : State) (m : Team) : (s.setTeam m).fns = s.fns := rfl
@[simp] theorem State.setTeam_filters (s : State) (m : Team) : (s.setTeam m).filters = s.filters := rfl
@[simp] theorem State.setTeam_dev (s : State) (m : Team) : (s.setTeam m).dev = s.dev := rfl
@[simp] theorem State.setTeam_faultLog (s : State) (m : Team) : (s.setTeam m).faultLog = s.faultLog := rfl
@[simp] theorem State.setCtxAt_fresh (s : State) (k : Nat) (c : Context) : (s.setCtxAt k c).fresh = s.fresh := rfl
@[simp] theorem State.setCtxAt_agenda (s : State) (k : Nat) (c : Context) : (s.setCtxAt k c).agenda = s.agenda := rfl
@[simp] theorem State.setCtxAt_cur (s : State) (k : Nat) (c : Context) : (s.setCtxAt k c).cur = s.cur := rfl
@[simp] theorem State.setCtxAt_frag (s : State) (k : Nat) (c : Context) : (s.setCtxAt k c).frag = s.frag := rfl
@[simp] theorem State.setCtxAt_inst (s : State) (k : Nat) (c : Context) : (s.setCtxAt k c).inst = s.inst := rfl
@[simp] theorem State.setCtxAt_nextTeam (s : State) (k : Nat) (c : Context) : (s.setCtxAt k c).nextTeam = s.nextTeam := rfl
@[simp] theorem State.setCtxAt_nextLaunch (s : State) (k : Nat) (c : Context) : (s.setCtxAt k c).nextLaunch = s.nextLaunch := rfl
@[simp] theorem State.setCtxAt_nextOp (s : State) (k : Nat) (c : Context) : (s.setCtxAt k c).nextOp = s.nextOp := rfl
@[simp] theorem State.setCtxAt_nextFid (s : State) (k : Nat) (c : Context) : (s.setCtxAt k c).nextFid = s.nextFid := rfl
@[simp] theorem State.setCtxAt_nextW (s : State) (k : Nat) (c : Context) : (s.setCtxAt k c).nextW = s.nextW := rfl
@[simp] theorem State.setCtxAt_mem (s : State) (k : Nat) (c : Context) : (s.setCtxAt k c).mem = s.mem := rfl
@[simp] theorem State.setCtxAt_poison (s : State) (k : Nat) (c : Context) : (s.setCtxAt k c).poison = s.poison := rfl
@[simp] theorem State.setCtxAt_wlog (s : State) (k : Nat) (c : Context) : (s.setCtxAt k c).wlog = s.wlog := rfl
@[simp] theorem State.setCtxAt_fadds (s : State) (k : Nat) (c : Context) : (s.setCtxAt k c).fadds = s.fadds := rfl
@[simp] theorem State.setCtxAt_picks (s : State) (k : Nat) (c : Context) : (s.setCtxAt k c).picks = s.picks := rfl
@[simp] theorem State.setCtxAt_teams (s : State) (k : Nat) (c : Context) : (s.setCtxAt k c).teams = s.teams := rfl
@[simp] theorem State.setCtxAt_launches (s : State) (k : Nat) (c : Context) : (s.setCtxAt k c).launches = s.launches := rfl
@[simp] theorem State.setCtxAt_ops (s : State) (k : Nat) (c : Context) : (s.setCtxAt k c).ops = s.ops := rfl
@[simp] theorem State.setCtxAt_slots (s : State) (k : Nat) (c : Context) : (s.setCtxAt k c).slots = s.slots := rfl
@[simp] theorem State.setCtxAt_dies (s : State) (k : Nat) (c : Context) : (s.setCtxAt k c).dies = s.dies := rfl
@[simp] theorem State.setCtxAt_worlds (s : State) (k : Nat) (c : Context) : (s.setCtxAt k c).worlds = s.worlds := rfl
@[simp] theorem State.setCtxAt_links (s : State) (k : Nat) (c : Context) : (s.setCtxAt k c).links = s.links := rfl
@[simp] theorem State.setCtxAt_fns (s : State) (k : Nat) (c : Context) : (s.setCtxAt k c).fns = s.fns := rfl
@[simp] theorem State.setCtxAt_filters (s : State) (k : Nat) (c : Context) : (s.setCtxAt k c).filters = s.filters := rfl
@[simp] theorem State.setCtxAt_dev (s : State) (k : Nat) (c : Context) : (s.setCtxAt k c).dev = s.dev := rfl
@[simp] theorem State.setCtxAt_faultLog (s : State) (k : Nat) (c : Context) : (s.setCtxAt k c).faultLog = s.faultLog := rfl
@[simp] theorem State.setDieAt_fresh (s : State) (k : Nat) (d : Die) : (s.setDieAt k d).fresh = s.fresh := rfl
@[simp] theorem State.setDieAt_agenda (s : State) (k : Nat) (d : Die) : (s.setDieAt k d).agenda = s.agenda := rfl
@[simp] theorem State.setDieAt_cur (s : State) (k : Nat) (d : Die) : (s.setDieAt k d).cur = s.cur := rfl
@[simp] theorem State.setDieAt_frag (s : State) (k : Nat) (d : Die) : (s.setDieAt k d).frag = s.frag := rfl
@[simp] theorem State.setDieAt_inst (s : State) (k : Nat) (d : Die) : (s.setDieAt k d).inst = s.inst := rfl
@[simp] theorem State.setDieAt_nextTeam (s : State) (k : Nat) (d : Die) : (s.setDieAt k d).nextTeam = s.nextTeam := rfl
@[simp] theorem State.setDieAt_nextLaunch (s : State) (k : Nat) (d : Die) : (s.setDieAt k d).nextLaunch = s.nextLaunch := rfl
@[simp] theorem State.setDieAt_nextOp (s : State) (k : Nat) (d : Die) : (s.setDieAt k d).nextOp = s.nextOp := rfl
@[simp] theorem State.setDieAt_nextFid (s : State) (k : Nat) (d : Die) : (s.setDieAt k d).nextFid = s.nextFid := rfl
@[simp] theorem State.setDieAt_nextW (s : State) (k : Nat) (d : Die) : (s.setDieAt k d).nextW = s.nextW := rfl
@[simp] theorem State.setDieAt_mem (s : State) (k : Nat) (d : Die) : (s.setDieAt k d).mem = s.mem := rfl
@[simp] theorem State.setDieAt_poison (s : State) (k : Nat) (d : Die) : (s.setDieAt k d).poison = s.poison := rfl
@[simp] theorem State.setDieAt_wlog (s : State) (k : Nat) (d : Die) : (s.setDieAt k d).wlog = s.wlog := rfl
@[simp] theorem State.setDieAt_fadds (s : State) (k : Nat) (d : Die) : (s.setDieAt k d).fadds = s.fadds := rfl
@[simp] theorem State.setDieAt_picks (s : State) (k : Nat) (d : Die) : (s.setDieAt k d).picks = s.picks := rfl
@[simp] theorem State.setDieAt_teams (s : State) (k : Nat) (d : Die) : (s.setDieAt k d).teams = s.teams := rfl
@[simp] theorem State.setDieAt_launches (s : State) (k : Nat) (d : Die) : (s.setDieAt k d).launches = s.launches := rfl
@[simp] theorem State.setDieAt_ctxs (s : State) (k : Nat) (d : Die) : (s.setDieAt k d).ctxs = s.ctxs := rfl
@[simp] theorem State.setDieAt_ops (s : State) (k : Nat) (d : Die) : (s.setDieAt k d).ops = s.ops := rfl
@[simp] theorem State.setDieAt_slots (s : State) (k : Nat) (d : Die) : (s.setDieAt k d).slots = s.slots := rfl
@[simp] theorem State.setDieAt_worlds (s : State) (k : Nat) (d : Die) : (s.setDieAt k d).worlds = s.worlds := rfl
@[simp] theorem State.setDieAt_links (s : State) (k : Nat) (d : Die) : (s.setDieAt k d).links = s.links := rfl
@[simp] theorem State.setDieAt_fns (s : State) (k : Nat) (d : Die) : (s.setDieAt k d).fns = s.fns := rfl
@[simp] theorem State.setDieAt_filters (s : State) (k : Nat) (d : Die) : (s.setDieAt k d).filters = s.filters := rfl
@[simp] theorem State.setDieAt_dev (s : State) (k : Nat) (d : Die) : (s.setDieAt k d).dev = s.dev := rfl
@[simp] theorem State.setDieAt_faultLog (s : State) (k : Nat) (d : Die) : (s.setDieAt k d).faultLog = s.faultLog := rfl
@[simp] theorem State.count_fresh (s : State) (k c n : Nat) : (s.count k c n).fresh = s.fresh := rfl
@[simp] theorem State.count_agenda (s : State) (k c n : Nat) : (s.count k c n).agenda = s.agenda := rfl
@[simp] theorem State.count_cur (s : State) (k c n : Nat) : (s.count k c n).cur = s.cur := rfl
@[simp] theorem State.count_frag (s : State) (k c n : Nat) : (s.count k c n).frag = s.frag := rfl
@[simp] theorem State.count_inst (s : State) (k c n : Nat) : (s.count k c n).inst = s.inst := rfl
@[simp] theorem State.count_nextTeam (s : State) (k c n : Nat) : (s.count k c n).nextTeam = s.nextTeam := rfl
@[simp] theorem State.count_nextLaunch (s : State) (k c n : Nat) : (s.count k c n).nextLaunch = s.nextLaunch := rfl
@[simp] theorem State.count_nextOp (s : State) (k c n : Nat) : (s.count k c n).nextOp = s.nextOp := rfl
@[simp] theorem State.count_nextFid (s : State) (k c n : Nat) : (s.count k c n).nextFid = s.nextFid := rfl
@[simp] theorem State.count_nextW (s : State) (k c n : Nat) : (s.count k c n).nextW = s.nextW := rfl
@[simp] theorem State.count_mem (s : State) (k c n : Nat) : (s.count k c n).mem = s.mem := rfl
@[simp] theorem State.count_poison (s : State) (k c n : Nat) : (s.count k c n).poison = s.poison := rfl
@[simp] theorem State.count_wlog (s : State) (k c n : Nat) : (s.count k c n).wlog = s.wlog := rfl
@[simp] theorem State.count_fadds (s : State) (k c n : Nat) : (s.count k c n).fadds = s.fadds := rfl
@[simp] theorem State.count_picks (s : State) (k c n : Nat) : (s.count k c n).picks = s.picks := rfl
@[simp] theorem State.count_teams (s : State) (k c n : Nat) : (s.count k c n).teams = s.teams := rfl
@[simp] theorem State.count_launches (s : State) (k c n : Nat) : (s.count k c n).launches = s.launches := rfl
@[simp] theorem State.count_ctxs (s : State) (k c n : Nat) : (s.count k c n).ctxs = s.ctxs := rfl
@[simp] theorem State.count_ops (s : State) (k c n : Nat) : (s.count k c n).ops = s.ops := rfl
@[simp] theorem State.count_slots (s : State) (k c n : Nat) : (s.count k c n).slots = s.slots := rfl
@[simp] theorem State.count_worlds (s : State) (k c n : Nat) : (s.count k c n).worlds = s.worlds := rfl
@[simp] theorem State.count_links (s : State) (k c n : Nat) : (s.count k c n).links = s.links := rfl
@[simp] theorem State.count_fns (s : State) (k c n : Nat) : (s.count k c n).fns = s.fns := rfl
@[simp] theorem State.count_filters (s : State) (k c n : Nat) : (s.count k c n).filters = s.filters := rfl
@[simp] theorem State.count_dev (s : State) (k c n : Nat) : (s.count k c n).dev = s.dev := rfl
@[simp] theorem State.count_faultLog (s : State) (k c n : Nat) : (s.count k c n).faultLog = s.faultLog := rfl
@[simp] theorem State.setLaunchAt_fresh (s : State) (k : Nat) (l : Launch) : (s.setLaunchAt k l).fresh = s.fresh := rfl
@[simp] theorem State.setLaunchAt_agenda (s : State) (k : Nat) (l : Launch) : (s.setLaunchAt k l).agenda = s.agenda := rfl
@[simp] theorem State.setLaunchAt_cur (s : State) (k : Nat) (l : Launch) : (s.setLaunchAt k l).cur = s.cur := rfl
@[simp] theorem State.setLaunchAt_frag (s : State) (k : Nat) (l : Launch) : (s.setLaunchAt k l).frag = s.frag := rfl
@[simp] theorem State.setLaunchAt_inst (s : State) (k : Nat) (l : Launch) : (s.setLaunchAt k l).inst = s.inst := rfl
@[simp] theorem State.setLaunchAt_nextTeam (s : State) (k : Nat) (l : Launch) : (s.setLaunchAt k l).nextTeam = s.nextTeam := rfl
@[simp] theorem State.setLaunchAt_nextLaunch (s : State) (k : Nat) (l : Launch) : (s.setLaunchAt k l).nextLaunch = s.nextLaunch := rfl
@[simp] theorem State.setLaunchAt_nextOp (s : State) (k : Nat) (l : Launch) : (s.setLaunchAt k l).nextOp = s.nextOp := rfl
@[simp] theorem State.setLaunchAt_nextFid (s : State) (k : Nat) (l : Launch) : (s.setLaunchAt k l).nextFid = s.nextFid := rfl
@[simp] theorem State.setLaunchAt_nextW (s : State) (k : Nat) (l : Launch) : (s.setLaunchAt k l).nextW = s.nextW := rfl
@[simp] theorem State.setLaunchAt_mem (s : State) (k : Nat) (l : Launch) : (s.setLaunchAt k l).mem = s.mem := rfl
@[simp] theorem State.setLaunchAt_poison (s : State) (k : Nat) (l : Launch) : (s.setLaunchAt k l).poison = s.poison := rfl
@[simp] theorem State.setLaunchAt_wlog (s : State) (k : Nat) (l : Launch) : (s.setLaunchAt k l).wlog = s.wlog := rfl
@[simp] theorem State.setLaunchAt_fadds (s : State) (k : Nat) (l : Launch) : (s.setLaunchAt k l).fadds = s.fadds := rfl
@[simp] theorem State.setLaunchAt_picks (s : State) (k : Nat) (l : Launch) : (s.setLaunchAt k l).picks = s.picks := rfl
@[simp] theorem State.setLaunchAt_teams (s : State) (k : Nat) (l : Launch) : (s.setLaunchAt k l).teams = s.teams := rfl
@[simp] theorem State.setLaunchAt_ctxs (s : State) (k : Nat) (l : Launch) : (s.setLaunchAt k l).ctxs = s.ctxs := rfl
@[simp] theorem State.setLaunchAt_ops (s : State) (k : Nat) (l : Launch) : (s.setLaunchAt k l).ops = s.ops := rfl
@[simp] theorem State.setLaunchAt_slots (s : State) (k : Nat) (l : Launch) : (s.setLaunchAt k l).slots = s.slots := rfl
@[simp] theorem State.setLaunchAt_dies (s : State) (k : Nat) (l : Launch) : (s.setLaunchAt k l).dies = s.dies := rfl
@[simp] theorem State.setLaunchAt_worlds (s : State) (k : Nat) (l : Launch) : (s.setLaunchAt k l).worlds = s.worlds := rfl
@[simp] theorem State.setLaunchAt_links (s : State) (k : Nat) (l : Launch) : (s.setLaunchAt k l).links = s.links := rfl
@[simp] theorem State.setLaunchAt_fns (s : State) (k : Nat) (l : Launch) : (s.setLaunchAt k l).fns = s.fns := rfl
@[simp] theorem State.setLaunchAt_filters (s : State) (k : Nat) (l : Launch) : (s.setLaunchAt k l).filters = s.filters := rfl
@[simp] theorem State.setLaunchAt_dev (s : State) (k : Nat) (l : Launch) : (s.setLaunchAt k l).dev = s.dev := rfl
@[simp] theorem State.setLaunchAt_faultLog (s : State) (k : Nat) (l : Launch) : (s.setLaunchAt k l).faultLog = s.faultLog := rfl
@[simp] theorem State.setWorldAt_fresh (s : State) (k : Nat) (w : World) : (s.setWorldAt k w).fresh = s.fresh := rfl
@[simp] theorem State.setWorldAt_agenda (s : State) (k : Nat) (w : World) : (s.setWorldAt k w).agenda = s.agenda := rfl
@[simp] theorem State.setWorldAt_cur (s : State) (k : Nat) (w : World) : (s.setWorldAt k w).cur = s.cur := rfl
@[simp] theorem State.setWorldAt_frag (s : State) (k : Nat) (w : World) : (s.setWorldAt k w).frag = s.frag := rfl
@[simp] theorem State.setWorldAt_inst (s : State) (k : Nat) (w : World) : (s.setWorldAt k w).inst = s.inst := rfl
@[simp] theorem State.setWorldAt_nextTeam (s : State) (k : Nat) (w : World) : (s.setWorldAt k w).nextTeam = s.nextTeam := rfl
@[simp] theorem State.setWorldAt_nextLaunch (s : State) (k : Nat) (w : World) : (s.setWorldAt k w).nextLaunch = s.nextLaunch := rfl
@[simp] theorem State.setWorldAt_nextOp (s : State) (k : Nat) (w : World) : (s.setWorldAt k w).nextOp = s.nextOp := rfl
@[simp] theorem State.setWorldAt_nextFid (s : State) (k : Nat) (w : World) : (s.setWorldAt k w).nextFid = s.nextFid := rfl
@[simp] theorem State.setWorldAt_nextW (s : State) (k : Nat) (w : World) : (s.setWorldAt k w).nextW = s.nextW := rfl
@[simp] theorem State.setWorldAt_mem (s : State) (k : Nat) (w : World) : (s.setWorldAt k w).mem = s.mem := rfl
@[simp] theorem State.setWorldAt_poison (s : State) (k : Nat) (w : World) : (s.setWorldAt k w).poison = s.poison := rfl
@[simp] theorem State.setWorldAt_wlog (s : State) (k : Nat) (w : World) : (s.setWorldAt k w).wlog = s.wlog := rfl
@[simp] theorem State.setWorldAt_fadds (s : State) (k : Nat) (w : World) : (s.setWorldAt k w).fadds = s.fadds := rfl
@[simp] theorem State.setWorldAt_picks (s : State) (k : Nat) (w : World) : (s.setWorldAt k w).picks = s.picks := rfl
@[simp] theorem State.setWorldAt_teams (s : State) (k : Nat) (w : World) : (s.setWorldAt k w).teams = s.teams := rfl
@[simp] theorem State.setWorldAt_launches (s : State) (k : Nat) (w : World) : (s.setWorldAt k w).launches = s.launches := rfl
@[simp] theorem State.setWorldAt_ctxs (s : State) (k : Nat) (w : World) : (s.setWorldAt k w).ctxs = s.ctxs := rfl
@[simp] theorem State.setWorldAt_ops (s : State) (k : Nat) (w : World) : (s.setWorldAt k w).ops = s.ops := rfl
@[simp] theorem State.setWorldAt_slots (s : State) (k : Nat) (w : World) : (s.setWorldAt k w).slots = s.slots := rfl
@[simp] theorem State.setWorldAt_dies (s : State) (k : Nat) (w : World) : (s.setWorldAt k w).dies = s.dies := rfl
@[simp] theorem State.setWorldAt_links (s : State) (k : Nat) (w : World) : (s.setWorldAt k w).links = s.links := rfl
@[simp] theorem State.setWorldAt_fns (s : State) (k : Nat) (w : World) : (s.setWorldAt k w).fns = s.fns := rfl
@[simp] theorem State.setWorldAt_filters (s : State) (k : Nat) (w : World) : (s.setWorldAt k w).filters = s.filters := rfl
@[simp] theorem State.setWorldAt_dev (s : State) (k : Nat) (w : World) : (s.setWorldAt k w).dev = s.dev := rfl
@[simp] theorem State.setWorldAt_faultLog (s : State) (k : Nat) (w : World) : (s.setWorldAt k w).faultLog = s.faultLog := rfl
@[simp] theorem State.setSlotAt_fresh (s : State) (a b n : Nat) (x : Slot) : (s.setSlotAt a b n x).fresh = s.fresh := rfl
@[simp] theorem State.setSlotAt_agenda (s : State) (a b n : Nat) (x : Slot) : (s.setSlotAt a b n x).agenda = s.agenda := rfl
@[simp] theorem State.setSlotAt_cur (s : State) (a b n : Nat) (x : Slot) : (s.setSlotAt a b n x).cur = s.cur := rfl
@[simp] theorem State.setSlotAt_frag (s : State) (a b n : Nat) (x : Slot) : (s.setSlotAt a b n x).frag = s.frag := rfl
@[simp] theorem State.setSlotAt_inst (s : State) (a b n : Nat) (x : Slot) : (s.setSlotAt a b n x).inst = s.inst := rfl
@[simp] theorem State.setSlotAt_nextTeam (s : State) (a b n : Nat) (x : Slot) : (s.setSlotAt a b n x).nextTeam = s.nextTeam := rfl
@[simp] theorem State.setSlotAt_nextLaunch (s : State) (a b n : Nat) (x : Slot) : (s.setSlotAt a b n x).nextLaunch = s.nextLaunch := rfl
@[simp] theorem State.setSlotAt_nextOp (s : State) (a b n : Nat) (x : Slot) : (s.setSlotAt a b n x).nextOp = s.nextOp := rfl
@[simp] theorem State.setSlotAt_nextFid (s : State) (a b n : Nat) (x : Slot) : (s.setSlotAt a b n x).nextFid = s.nextFid := rfl
@[simp] theorem State.setSlotAt_nextW (s : State) (a b n : Nat) (x : Slot) : (s.setSlotAt a b n x).nextW = s.nextW := rfl
@[simp] theorem State.setSlotAt_mem (s : State) (a b n : Nat) (x : Slot) : (s.setSlotAt a b n x).mem = s.mem := rfl
@[simp] theorem State.setSlotAt_poison (s : State) (a b n : Nat) (x : Slot) : (s.setSlotAt a b n x).poison = s.poison := rfl
@[simp] theorem State.setSlotAt_wlog (s : State) (a b n : Nat) (x : Slot) : (s.setSlotAt a b n x).wlog = s.wlog := rfl
@[simp] theorem State.setSlotAt_fadds (s : State) (a b n : Nat) (x : Slot) : (s.setSlotAt a b n x).fadds = s.fadds := rfl
@[simp] theorem State.setSlotAt_picks (s : State) (a b n : Nat) (x : Slot) : (s.setSlotAt a b n x).picks = s.picks := rfl
@[simp] theorem State.setSlotAt_teams (s : State) (a b n : Nat) (x : Slot) : (s.setSlotAt a b n x).teams = s.teams := rfl
@[simp] theorem State.setSlotAt_launches (s : State) (a b n : Nat) (x : Slot) : (s.setSlotAt a b n x).launches = s.launches := rfl
@[simp] theorem State.setSlotAt_ctxs (s : State) (a b n : Nat) (x : Slot) : (s.setSlotAt a b n x).ctxs = s.ctxs := rfl
@[simp] theorem State.setSlotAt_ops (s : State) (a b n : Nat) (x : Slot) : (s.setSlotAt a b n x).ops = s.ops := rfl
@[simp] theorem State.setSlotAt_dies (s : State) (a b n : Nat) (x : Slot) : (s.setSlotAt a b n x).dies = s.dies := rfl
@[simp] theorem State.setSlotAt_worlds (s : State) (a b n : Nat) (x : Slot) : (s.setSlotAt a b n x).worlds = s.worlds := rfl
@[simp] theorem State.setSlotAt_links (s : State) (a b n : Nat) (x : Slot) : (s.setSlotAt a b n x).links = s.links := rfl
@[simp] theorem State.setSlotAt_fns (s : State) (a b n : Nat) (x : Slot) : (s.setSlotAt a b n x).fns = s.fns := rfl
@[simp] theorem State.setSlotAt_filters (s : State) (a b n : Nat) (x : Slot) : (s.setSlotAt a b n x).filters = s.filters := rfl
@[simp] theorem State.setSlotAt_dev (s : State) (a b n : Nat) (x : Slot) : (s.setSlotAt a b n x).dev = s.dev := rfl
@[simp] theorem State.setSlotAt_faultLog (s : State) (a b n : Nat) (x : Slot) : (s.setSlotAt a b n x).faultLog = s.faultLog := rfl
@[simp] theorem State.setOp_fresh (s : State) (k : Nat) (o : Op) : (s.setOp k o).fresh = s.fresh := rfl
@[simp] theorem State.setOp_agenda (s : State) (k : Nat) (o : Op) : (s.setOp k o).agenda = s.agenda := rfl
@[simp] theorem State.setOp_cur (s : State) (k : Nat) (o : Op) : (s.setOp k o).cur = s.cur := rfl
@[simp] theorem State.setOp_frag (s : State) (k : Nat) (o : Op) : (s.setOp k o).frag = s.frag := rfl
@[simp] theorem State.setOp_inst (s : State) (k : Nat) (o : Op) : (s.setOp k o).inst = s.inst := rfl
@[simp] theorem State.setOp_nextTeam (s : State) (k : Nat) (o : Op) : (s.setOp k o).nextTeam = s.nextTeam := rfl
@[simp] theorem State.setOp_nextLaunch (s : State) (k : Nat) (o : Op) : (s.setOp k o).nextLaunch = s.nextLaunch := rfl
@[simp] theorem State.setOp_nextOp (s : State) (k : Nat) (o : Op) : (s.setOp k o).nextOp = s.nextOp := rfl
@[simp] theorem State.setOp_nextFid (s : State) (k : Nat) (o : Op) : (s.setOp k o).nextFid = s.nextFid := rfl
@[simp] theorem State.setOp_nextW (s : State) (k : Nat) (o : Op) : (s.setOp k o).nextW = s.nextW := rfl
@[simp] theorem State.setOp_mem (s : State) (k : Nat) (o : Op) : (s.setOp k o).mem = s.mem := rfl
@[simp] theorem State.setOp_poison (s : State) (k : Nat) (o : Op) : (s.setOp k o).poison = s.poison := rfl
@[simp] theorem State.setOp_wlog (s : State) (k : Nat) (o : Op) : (s.setOp k o).wlog = s.wlog := rfl
@[simp] theorem State.setOp_fadds (s : State) (k : Nat) (o : Op) : (s.setOp k o).fadds = s.fadds := rfl
@[simp] theorem State.setOp_picks (s : State) (k : Nat) (o : Op) : (s.setOp k o).picks = s.picks := rfl
@[simp] theorem State.setOp_teams (s : State) (k : Nat) (o : Op) : (s.setOp k o).teams = s.teams := rfl
@[simp] theorem State.setOp_launches (s : State) (k : Nat) (o : Op) : (s.setOp k o).launches = s.launches := rfl
@[simp] theorem State.setOp_ctxs (s : State) (k : Nat) (o : Op) : (s.setOp k o).ctxs = s.ctxs := rfl
@[simp] theorem State.setOp_slots (s : State) (k : Nat) (o : Op) : (s.setOp k o).slots = s.slots := rfl
@[simp] theorem State.setOp_dies (s : State) (k : Nat) (o : Op) : (s.setOp k o).dies = s.dies := rfl
@[simp] theorem State.setOp_worlds (s : State) (k : Nat) (o : Op) : (s.setOp k o).worlds = s.worlds := rfl
@[simp] theorem State.setOp_links (s : State) (k : Nat) (o : Op) : (s.setOp k o).links = s.links := rfl
@[simp] theorem State.setOp_fns (s : State) (k : Nat) (o : Op) : (s.setOp k o).fns = s.fns := rfl
@[simp] theorem State.setOp_filters (s : State) (k : Nat) (o : Op) : (s.setOp k o).filters = s.filters := rfl
@[simp] theorem State.setOp_dev (s : State) (k : Nat) (o : Op) : (s.setOp k o).dev = s.dev := rfl
@[simp] theorem State.setOp_faultLog (s : State) (k : Nat) (o : Op) : (s.setOp k o).faultLog = s.faultLog := rfl
@[simp] theorem State.report_fresh (s : State) (m : FaultMsg) : (s.report m).fresh = s.fresh := rfl
@[simp] theorem State.report_agenda (s : State) (m : FaultMsg) : (s.report m).agenda = s.agenda := rfl
@[simp] theorem State.report_cur (s : State) (m : FaultMsg) : (s.report m).cur = s.cur := rfl
@[simp] theorem State.report_frag (s : State) (m : FaultMsg) : (s.report m).frag = s.frag := rfl
@[simp] theorem State.report_inst (s : State) (m : FaultMsg) : (s.report m).inst = s.inst := rfl
@[simp] theorem State.report_nextTeam (s : State) (m : FaultMsg) : (s.report m).nextTeam = s.nextTeam := rfl
@[simp] theorem State.report_nextLaunch (s : State) (m : FaultMsg) : (s.report m).nextLaunch = s.nextLaunch := rfl
@[simp] theorem State.report_nextOp (s : State) (m : FaultMsg) : (s.report m).nextOp = s.nextOp := rfl
@[simp] theorem State.report_nextFid (s : State) (m : FaultMsg) : (s.report m).nextFid = s.nextFid := rfl
@[simp] theorem State.report_nextW (s : State) (m : FaultMsg) : (s.report m).nextW = s.nextW := rfl
@[simp] theorem State.report_mem (s : State) (m : FaultMsg) : (s.report m).mem = s.mem := rfl
@[simp] theorem State.report_poison (s : State) (m : FaultMsg) : (s.report m).poison = s.poison := rfl
@[simp] theorem State.report_wlog (s : State) (m : FaultMsg) : (s.report m).wlog = s.wlog := rfl
@[simp] theorem State.report_fadds (s : State) (m : FaultMsg) : (s.report m).fadds = s.fadds := rfl
@[simp] theorem State.report_picks (s : State) (m : FaultMsg) : (s.report m).picks = s.picks := rfl
@[simp] theorem State.report_teams (s : State) (m : FaultMsg) : (s.report m).teams = s.teams := rfl
@[simp] theorem State.report_launches (s : State) (m : FaultMsg) : (s.report m).launches = s.launches := rfl
@[simp] theorem State.report_ctxs (s : State) (m : FaultMsg) : (s.report m).ctxs = s.ctxs := rfl
@[simp] theorem State.report_ops (s : State) (m : FaultMsg) : (s.report m).ops = s.ops := rfl
@[simp] theorem State.report_slots (s : State) (m : FaultMsg) : (s.report m).slots = s.slots := rfl
@[simp] theorem State.report_dies (s : State) (m : FaultMsg) : (s.report m).dies = s.dies := rfl
@[simp] theorem State.report_worlds (s : State) (m : FaultMsg) : (s.report m).worlds = s.worlds := rfl
@[simp] theorem State.report_links (s : State) (m : FaultMsg) : (s.report m).links = s.links := rfl
@[simp] theorem State.report_fns (s : State) (m : FaultMsg) : (s.report m).fns = s.fns := rfl
@[simp] theorem State.report_filters (s : State) (m : FaultMsg) : (s.report m).filters = s.filters := rfl
@[simp] theorem State.report_dev (s : State) (m : FaultMsg) : (s.report m).dev = s.dev := rfl
@[simp] theorem State.setFnAt_fresh (s : State) (k : Nat) (f : Function) : (s.setFnAt k f).fresh = s.fresh := rfl
@[simp] theorem State.setFnAt_agenda (s : State) (k : Nat) (f : Function) : (s.setFnAt k f).agenda = s.agenda := rfl
@[simp] theorem State.setFnAt_cur (s : State) (k : Nat) (f : Function) : (s.setFnAt k f).cur = s.cur := rfl
@[simp] theorem State.setFnAt_frag (s : State) (k : Nat) (f : Function) : (s.setFnAt k f).frag = s.frag := rfl
@[simp] theorem State.setFnAt_inst (s : State) (k : Nat) (f : Function) : (s.setFnAt k f).inst = s.inst := rfl
@[simp] theorem State.setFnAt_nextTeam (s : State) (k : Nat) (f : Function) : (s.setFnAt k f).nextTeam = s.nextTeam := rfl
@[simp] theorem State.setFnAt_nextLaunch (s : State) (k : Nat) (f : Function) : (s.setFnAt k f).nextLaunch = s.nextLaunch := rfl
@[simp] theorem State.setFnAt_nextOp (s : State) (k : Nat) (f : Function) : (s.setFnAt k f).nextOp = s.nextOp := rfl
@[simp] theorem State.setFnAt_nextFid (s : State) (k : Nat) (f : Function) : (s.setFnAt k f).nextFid = s.nextFid := rfl
@[simp] theorem State.setFnAt_nextW (s : State) (k : Nat) (f : Function) : (s.setFnAt k f).nextW = s.nextW := rfl
@[simp] theorem State.setFnAt_mem (s : State) (k : Nat) (f : Function) : (s.setFnAt k f).mem = s.mem := rfl
@[simp] theorem State.setFnAt_poison (s : State) (k : Nat) (f : Function) : (s.setFnAt k f).poison = s.poison := rfl
@[simp] theorem State.setFnAt_wlog (s : State) (k : Nat) (f : Function) : (s.setFnAt k f).wlog = s.wlog := rfl
@[simp] theorem State.setFnAt_fadds (s : State) (k : Nat) (f : Function) : (s.setFnAt k f).fadds = s.fadds := rfl
@[simp] theorem State.setFnAt_picks (s : State) (k : Nat) (f : Function) : (s.setFnAt k f).picks = s.picks := rfl
@[simp] theorem State.setFnAt_teams (s : State) (k : Nat) (f : Function) : (s.setFnAt k f).teams = s.teams := rfl
@[simp] theorem State.setFnAt_launches (s : State) (k : Nat) (f : Function) : (s.setFnAt k f).launches = s.launches := rfl
@[simp] theorem State.setFnAt_ctxs (s : State) (k : Nat) (f : Function) : (s.setFnAt k f).ctxs = s.ctxs := rfl
@[simp] theorem State.setFnAt_ops (s : State) (k : Nat) (f : Function) : (s.setFnAt k f).ops = s.ops := rfl
@[simp] theorem State.setFnAt_slots (s : State) (k : Nat) (f : Function) : (s.setFnAt k f).slots = s.slots := rfl
@[simp] theorem State.setFnAt_dies (s : State) (k : Nat) (f : Function) : (s.setFnAt k f).dies = s.dies := rfl
@[simp] theorem State.setFnAt_worlds (s : State) (k : Nat) (f : Function) : (s.setFnAt k f).worlds = s.worlds := rfl
@[simp] theorem State.setFnAt_links (s : State) (k : Nat) (f : Function) : (s.setFnAt k f).links = s.links := rfl
@[simp] theorem State.setFnAt_filters (s : State) (k : Nat) (f : Function) : (s.setFnAt k f).filters = s.filters := rfl
@[simp] theorem State.setFnAt_dev (s : State) (k : Nat) (f : Function) : (s.setFnAt k f).dev = s.dev := rfl
@[simp] theorem State.setFnAt_faultLog (s : State) (k : Nat) (f : Function) : (s.setFnAt k f).faultLog = s.faultLog := rfl
@[simp] theorem State.setLinkAt_fresh (s : State) (k : Nat) (l : Link) : (s.setLinkAt k l).fresh = s.fresh := rfl
@[simp] theorem State.setLinkAt_agenda (s : State) (k : Nat) (l : Link) : (s.setLinkAt k l).agenda = s.agenda := rfl
@[simp] theorem State.setLinkAt_cur (s : State) (k : Nat) (l : Link) : (s.setLinkAt k l).cur = s.cur := rfl
@[simp] theorem State.setLinkAt_frag (s : State) (k : Nat) (l : Link) : (s.setLinkAt k l).frag = s.frag := rfl
@[simp] theorem State.setLinkAt_inst (s : State) (k : Nat) (l : Link) : (s.setLinkAt k l).inst = s.inst := rfl
@[simp] theorem State.setLinkAt_nextTeam (s : State) (k : Nat) (l : Link) : (s.setLinkAt k l).nextTeam = s.nextTeam := rfl
@[simp] theorem State.setLinkAt_nextLaunch (s : State) (k : Nat) (l : Link) : (s.setLinkAt k l).nextLaunch = s.nextLaunch := rfl
@[simp] theorem State.setLinkAt_nextOp (s : State) (k : Nat) (l : Link) : (s.setLinkAt k l).nextOp = s.nextOp := rfl
@[simp] theorem State.setLinkAt_nextFid (s : State) (k : Nat) (l : Link) : (s.setLinkAt k l).nextFid = s.nextFid := rfl
@[simp] theorem State.setLinkAt_nextW (s : State) (k : Nat) (l : Link) : (s.setLinkAt k l).nextW = s.nextW := rfl
@[simp] theorem State.setLinkAt_mem (s : State) (k : Nat) (l : Link) : (s.setLinkAt k l).mem = s.mem := rfl
@[simp] theorem State.setLinkAt_poison (s : State) (k : Nat) (l : Link) : (s.setLinkAt k l).poison = s.poison := rfl
@[simp] theorem State.setLinkAt_wlog (s : State) (k : Nat) (l : Link) : (s.setLinkAt k l).wlog = s.wlog := rfl
@[simp] theorem State.setLinkAt_fadds (s : State) (k : Nat) (l : Link) : (s.setLinkAt k l).fadds = s.fadds := rfl
@[simp] theorem State.setLinkAt_picks (s : State) (k : Nat) (l : Link) : (s.setLinkAt k l).picks = s.picks := rfl
@[simp] theorem State.setLinkAt_teams (s : State) (k : Nat) (l : Link) : (s.setLinkAt k l).teams = s.teams := rfl
@[simp] theorem State.setLinkAt_launches (s : State) (k : Nat) (l : Link) : (s.setLinkAt k l).launches = s.launches := rfl
@[simp] theorem State.setLinkAt_ctxs (s : State) (k : Nat) (l : Link) : (s.setLinkAt k l).ctxs = s.ctxs := rfl
@[simp] theorem State.setLinkAt_ops (s : State) (k : Nat) (l : Link) : (s.setLinkAt k l).ops = s.ops := rfl
@[simp] theorem State.setLinkAt_slots (s : State) (k : Nat) (l : Link) : (s.setLinkAt k l).slots = s.slots := rfl
@[simp] theorem State.setLinkAt_dies (s : State) (k : Nat) (l : Link) : (s.setLinkAt k l).dies = s.dies := rfl
@[simp] theorem State.setLinkAt_worlds (s : State) (k : Nat) (l : Link) : (s.setLinkAt k l).worlds = s.worlds := rfl
@[simp] theorem State.setLinkAt_fns (s : State) (k : Nat) (l : Link) : (s.setLinkAt k l).fns = s.fns := rfl
@[simp] theorem State.setLinkAt_filters (s : State) (k : Nat) (l : Link) : (s.setLinkAt k l).filters = s.filters := rfl
@[simp] theorem State.setLinkAt_dev (s : State) (k : Nat) (l : Link) : (s.setLinkAt k l).dev = s.dev := rfl
@[simp] theorem State.setLinkAt_faultLog (s : State) (k : Nat) (l : Link) : (s.setLinkAt k l).faultLog = s.faultLog := rfl

/-! ## Records read after an update of another kind -/

@[simp] theorem State.setPickAt_teamAt (s : State) (k : Nat) (p : Pick) (j : Nat) : (s.setPickAt k p).teamAt j = s.teamAt j := rfl
@[simp] theorem State.setPickAt_ctxAt (s : State) (k : Nat) (p : Pick) (j : Nat) : (s.setPickAt k p).ctxAt j = s.ctxAt j := rfl
@[simp] theorem State.setPickAt_dieAt (s : State) (k : Nat) (p : Pick) (j : Nat) : (s.setPickAt k p).dieAt j = s.dieAt j := rfl
@[simp] theorem State.setPickAt_launchAt (s : State) (k : Nat) (p : Pick) (j : Nat) : (s.setPickAt k p).launchAt j = s.launchAt j := rfl
@[simp] theorem State.setPickAt_worldAt (s : State) (k : Nat) (p : Pick) (j : Nat) : (s.setPickAt k p).worldAt j = s.worldAt j := rfl
@[simp] theorem State.setPickAt_opAt (s : State) (k : Nat) (p : Pick) (j : Nat) : (s.setPickAt k p).opAt j = s.opAt j := rfl
@[simp] theorem State.setPickAt_fnAt (s : State) (k : Nat) (p : Pick) (j : Nat) : (s.setPickAt k p).fnAt j = s.fnAt j := rfl
@[simp] theorem State.setPickAt_linkAt (s : State) (k : Nat) (p : Pick) (j : Nat) : (s.setPickAt k p).linkAt j = s.linkAt j := rfl
@[simp] theorem State.setPickAt_slotAt (s : State) (k : Nat) (p : Pick) (i j q : Nat) : (s.setPickAt k p).slotAt i j q = s.slotAt i j q := rfl
@[simp] theorem State.setPick_teamAt (s : State) (p : Pick) (j : Nat) : (s.setPick p).teamAt j = s.teamAt j := rfl
@[simp] theorem State.setPick_ctxAt (s : State) (p : Pick) (j : Nat) : (s.setPick p).ctxAt j = s.ctxAt j := rfl
@[simp] theorem State.setPick_dieAt (s : State) (p : Pick) (j : Nat) : (s.setPick p).dieAt j = s.dieAt j := rfl
@[simp] theorem State.setPick_launchAt (s : State) (p : Pick) (j : Nat) : (s.setPick p).launchAt j = s.launchAt j := rfl
@[simp] theorem State.setPick_worldAt (s : State) (p : Pick) (j : Nat) : (s.setPick p).worldAt j = s.worldAt j := rfl
@[simp] theorem State.setPick_opAt (s : State) (p : Pick) (j : Nat) : (s.setPick p).opAt j = s.opAt j := rfl
@[simp] theorem State.setPick_fnAt (s : State) (p : Pick) (j : Nat) : (s.setPick p).fnAt j = s.fnAt j := rfl
@[simp] theorem State.setPick_linkAt (s : State) (p : Pick) (j : Nat) : (s.setPick p).linkAt j = s.linkAt j := rfl
@[simp] theorem State.setPick_slotAt (s : State) (p : Pick) (i j q : Nat) : (s.setPick p).slotAt i j q = s.slotAt i j q := rfl
@[simp] theorem State.setTeamAt_pickAt (s : State) (k : Nat) (m : Team) (j : Nat) : (s.setTeamAt k m).pickAt j = s.pickAt j := rfl
@[simp] theorem State.setTeamAt_pick (s : State) (k : Nat) (m : Team) : (s.setTeamAt k m).pick = s.pick := rfl
@[simp] theorem State.setTeamAt_ctxAt (s : State) (k : Nat) (m : Team) (j : Nat) : (s.setTeamAt k m).ctxAt j = s.ctxAt j := rfl
@[simp] theorem State.setTeamAt_dieAt (s : State) (k : Nat) (m : Team) (j : Nat) : (s.setTeamAt k m).dieAt j = s.dieAt j := rfl
@[simp] theorem State.setTeamAt_launchAt (s : State) (k : Nat) (m : Team) (j : Nat) : (s.setTeamAt k m).launchAt j = s.launchAt j := rfl
@[simp] theorem State.setTeamAt_worldAt (s : State) (k : Nat) (m : Team) (j : Nat) : (s.setTeamAt k m).worldAt j = s.worldAt j := rfl
@[simp] theorem State.setTeamAt_opAt (s : State) (k : Nat) (m : Team) (j : Nat) : (s.setTeamAt k m).opAt j = s.opAt j := rfl
@[simp] theorem State.setTeamAt_fnAt (s : State) (k : Nat) (m : Team) (j : Nat) : (s.setTeamAt k m).fnAt j = s.fnAt j := rfl
@[simp] theorem State.setTeamAt_linkAt (s : State) (k : Nat) (m : Team) (j : Nat) : (s.setTeamAt k m).linkAt j = s.linkAt j := rfl
@[simp] theorem State.setTeamAt_slotAt (s : State) (k : Nat) (m : Team) (i j q : Nat) : (s.setTeamAt k m).slotAt i j q = s.slotAt i j q := rfl
@[simp] theorem State.setTeamAt_fragment (s : State) (k : Nat) (m : Team) : (s.setTeamAt k m).fragment = s.fragment := rfl
@[simp] theorem State.setTeam_pickAt (s : State) (m : Team) (j : Nat) : (s.setTeam m).pickAt j = s.pickAt j := rfl
@[simp] theorem State.setTeam_pick (s : State) (m : Team) : (s.setTeam m).pick = s.pick := rfl
@[simp] theorem State.setTeam_ctxAt (s : State) (m : Team) (j : Nat) : (s.setTeam m).ctxAt j = s.ctxAt j := rfl
@[simp] theorem State.setTeam_dieAt (s : State) (m : Team) (j : Nat) : (s.setTeam m).dieAt j = s.dieAt j := rfl
@[simp] theorem State.setTeam_launchAt (s : State) (m : Team) (j : Nat) : (s.setTeam m).launchAt j = s.launchAt j := rfl
@[simp] theorem State.setTeam_worldAt (s : State) (m : Team) (j : Nat) : (s.setTeam m).worldAt j = s.worldAt j := rfl
@[simp] theorem State.setTeam_opAt (s : State) (m : Team) (j : Nat) : (s.setTeam m).opAt j = s.opAt j := rfl
@[simp] theorem State.setTeam_fnAt (s : State) (m : Team) (j : Nat) : (s.setTeam m).fnAt j = s.fnAt j := rfl
@[simp] theorem State.setTeam_linkAt (s : State) (m : Team) (j : Nat) : (s.setTeam m).linkAt j = s.linkAt j := rfl
@[simp] theorem State.setTeam_slotAt (s : State) (m : Team) (i j q : Nat) : (s.setTeam m).slotAt i j q = s.slotAt i j q := rfl
@[simp] theorem State.setTeam_fragment (s : State) (m : Team) : (s.setTeam m).fragment = s.fragment := rfl
@[simp] theorem State.setCtxAt_pickAt (s : State) (k : Nat) (c : Context) (j : Nat) : (s.setCtxAt k c).pickAt j = s.pickAt j := rfl
@[simp] theorem State.setCtxAt_pick (s : State) (k : Nat) (c : Context) : (s.setCtxAt k c).pick = s.pick := rfl
@[simp] theorem State.setCtxAt_teamAt (s : State) (k : Nat) (c : Context) (j : Nat) : (s.setCtxAt k c).teamAt j = s.teamAt j := rfl
@[simp] theorem State.setCtxAt_team (s : State) (k : Nat) (c : Context) : (s.setCtxAt k c).team = s.team := rfl
@[simp] theorem State.setCtxAt_dieAt (s : State) (k : Nat) (c : Context) (j : Nat) : (s.setCtxAt k c).dieAt j = s.dieAt j := rfl
@[simp] theorem State.setCtxAt_launchAt (s : State) (k : Nat) (c : Context) (j : Nat) : (s.setCtxAt k c).launchAt j = s.launchAt j := rfl
@[simp] theorem State.setCtxAt_worldAt (s : State) (k : Nat) (c : Context) (j : Nat) : (s.setCtxAt k c).worldAt j = s.worldAt j := rfl
@[simp] theorem State.setCtxAt_opAt (s : State) (k : Nat) (c : Context) (j : Nat) : (s.setCtxAt k c).opAt j = s.opAt j := rfl
@[simp] theorem State.setCtxAt_fnAt (s : State) (k : Nat) (c : Context) (j : Nat) : (s.setCtxAt k c).fnAt j = s.fnAt j := rfl
@[simp] theorem State.setCtxAt_linkAt (s : State) (k : Nat) (c : Context) (j : Nat) : (s.setCtxAt k c).linkAt j = s.linkAt j := rfl
@[simp] theorem State.setCtxAt_slotAt (s : State) (k : Nat) (c : Context) (i j q : Nat) : (s.setCtxAt k c).slotAt i j q = s.slotAt i j q := rfl
@[simp] theorem State.setCtxAt_fragment (s : State) (k : Nat) (c : Context) : (s.setCtxAt k c).fragment = s.fragment := rfl
@[simp] theorem State.setDieAt_pickAt (s : State) (k : Nat) (d : Die) (j : Nat) : (s.setDieAt k d).pickAt j = s.pickAt j := rfl
@[simp] theorem State.setDieAt_pick (s : State) (k : Nat) (d : Die) : (s.setDieAt k d).pick = s.pick := rfl
@[simp] theorem State.setDieAt_teamAt (s : State) (k : Nat) (d : Die) (j : Nat) : (s.setDieAt k d).teamAt j = s.teamAt j := rfl
@[simp] theorem State.setDieAt_team (s : State) (k : Nat) (d : Die) : (s.setDieAt k d).team = s.team := rfl
@[simp] theorem State.setDieAt_ctxAt (s : State) (k : Nat) (d : Die) (j : Nat) : (s.setDieAt k d).ctxAt j = s.ctxAt j := rfl
@[simp] theorem State.setDieAt_ctx (s : State) (k : Nat) (d : Die) : (s.setDieAt k d).ctx = s.ctx := rfl
@[simp] theorem State.setDieAt_launchAt (s : State) (k : Nat) (d : Die) (j : Nat) : (s.setDieAt k d).launchAt j = s.launchAt j := rfl
@[simp] theorem State.setDieAt_worldAt (s : State) (k : Nat) (d : Die) (j : Nat) : (s.setDieAt k d).worldAt j = s.worldAt j := rfl
@[simp] theorem State.setDieAt_opAt (s : State) (k : Nat) (d : Die) (j : Nat) : (s.setDieAt k d).opAt j = s.opAt j := rfl
@[simp] theorem State.setDieAt_fnAt (s : State) (k : Nat) (d : Die) (j : Nat) : (s.setDieAt k d).fnAt j = s.fnAt j := rfl
@[simp] theorem State.setDieAt_linkAt (s : State) (k : Nat) (d : Die) (j : Nat) : (s.setDieAt k d).linkAt j = s.linkAt j := rfl
@[simp] theorem State.setDieAt_slotAt (s : State) (k : Nat) (d : Die) (i j q : Nat) : (s.setDieAt k d).slotAt i j q = s.slotAt i j q := rfl
@[simp] theorem State.setDieAt_fragment (s : State) (k : Nat) (d : Die) : (s.setDieAt k d).fragment = s.fragment := rfl
@[simp] theorem State.count_pickAt (s : State) (k c n : Nat) (j : Nat) : (s.count k c n).pickAt j = s.pickAt j := rfl
@[simp] theorem State.count_pick (s : State) (k c n : Nat) : (s.count k c n).pick = s.pick := rfl
@[simp] theorem State.count_teamAt (s : State) (k c n : Nat) (j : Nat) : (s.count k c n).teamAt j = s.teamAt j := rfl
@[simp] theorem State.count_team (s : State) (k c n : Nat) : (s.count k c n).team = s.team := rfl
@[simp] theorem State.count_ctxAt (s : State) (k c n : Nat) (j : Nat) : (s.count k c n).ctxAt j = s.ctxAt j := rfl
@[simp] theorem State.count_ctx (s : State) (k c n : Nat) : (s.count k c n).ctx = s.ctx := rfl
@[simp] theorem State.count_launchAt (s : State) (k c n : Nat) (j : Nat) : (s.count k c n).launchAt j = s.launchAt j := rfl
@[simp] theorem State.count_worldAt (s : State) (k c n : Nat) (j : Nat) : (s.count k c n).worldAt j = s.worldAt j := rfl
@[simp] theorem State.count_opAt (s : State) (k c n : Nat) (j : Nat) : (s.count k c n).opAt j = s.opAt j := rfl
@[simp] theorem State.count_fnAt (s : State) (k c n : Nat) (j : Nat) : (s.count k c n).fnAt j = s.fnAt j := rfl
@[simp] theorem State.count_linkAt (s : State) (k c n : Nat) (j : Nat) : (s.count k c n).linkAt j = s.linkAt j := rfl
@[simp] theorem State.count_slotAt (s : State) (k c n : Nat) (i j q : Nat) : (s.count k c n).slotAt i j q = s.slotAt i j q := rfl
@[simp] theorem State.count_fragment (s : State) (k c n : Nat) : (s.count k c n).fragment = s.fragment := rfl
@[simp] theorem State.setLaunchAt_pickAt (s : State) (k : Nat) (l : Launch) (j : Nat) : (s.setLaunchAt k l).pickAt j = s.pickAt j := rfl
@[simp] theorem State.setLaunchAt_pick (s : State) (k : Nat) (l : Launch) : (s.setLaunchAt k l).pick = s.pick := rfl
@[simp] theorem State.setLaunchAt_teamAt (s : State) (k : Nat) (l : Launch) (j : Nat) : (s.setLaunchAt k l).teamAt j = s.teamAt j := rfl
@[simp] theorem State.setLaunchAt_team (s : State) (k : Nat) (l : Launch) : (s.setLaunchAt k l).team = s.team := rfl
@[simp] theorem State.setLaunchAt_ctxAt (s : State) (k : Nat) (l : Launch) (j : Nat) : (s.setLaunchAt k l).ctxAt j = s.ctxAt j := rfl
@[simp] theorem State.setLaunchAt_ctx (s : State) (k : Nat) (l : Launch) : (s.setLaunchAt k l).ctx = s.ctx := rfl
@[simp] theorem State.setLaunchAt_dieAt (s : State) (k : Nat) (l : Launch) (j : Nat) : (s.setLaunchAt k l).dieAt j = s.dieAt j := rfl
@[simp] theorem State.setLaunchAt_worldAt (s : State) (k : Nat) (l : Launch) (j : Nat) : (s.setLaunchAt k l).worldAt j = s.worldAt j := rfl
@[simp] theorem State.setLaunchAt_opAt (s : State) (k : Nat) (l : Launch) (j : Nat) : (s.setLaunchAt k l).opAt j = s.opAt j := rfl
@[simp] theorem State.setLaunchAt_fnAt (s : State) (k : Nat) (l : Launch) (j : Nat) : (s.setLaunchAt k l).fnAt j = s.fnAt j := rfl
@[simp] theorem State.setLaunchAt_linkAt (s : State) (k : Nat) (l : Launch) (j : Nat) : (s.setLaunchAt k l).linkAt j = s.linkAt j := rfl
@[simp] theorem State.setLaunchAt_slotAt (s : State) (k : Nat) (l : Launch) (i j q : Nat) : (s.setLaunchAt k l).slotAt i j q = s.slotAt i j q := rfl
@[simp] theorem State.setLaunchAt_fragment (s : State) (k : Nat) (l : Launch) : (s.setLaunchAt k l).fragment = s.fragment := rfl
@[simp] theorem State.setWorldAt_pickAt (s : State) (k : Nat) (w : World) (j : Nat) : (s.setWorldAt k w).pickAt j = s.pickAt j := rfl
@[simp] theorem State.setWorldAt_pick (s : State) (k : Nat) (w : World) : (s.setWorldAt k w).pick = s.pick := rfl
@[simp] theorem State.setWorldAt_teamAt (s : State) (k : Nat) (w : World) (j : Nat) : (s.setWorldAt k w).teamAt j = s.teamAt j := rfl
@[simp] theorem State.setWorldAt_team (s : State) (k : Nat) (w : World) : (s.setWorldAt k w).team = s.team := rfl
@[simp] theorem State.setWorldAt_ctxAt (s : State) (k : Nat) (w : World) (j : Nat) : (s.setWorldAt k w).ctxAt j = s.ctxAt j := rfl
@[simp] theorem State.setWorldAt_ctx (s : State) (k : Nat) (w : World) : (s.setWorldAt k w).ctx = s.ctx := rfl
@[simp] theorem State.setWorldAt_dieAt (s : State) (k : Nat) (w : World) (j : Nat) : (s.setWorldAt k w).dieAt j = s.dieAt j := rfl
@[simp] theorem State.setWorldAt_launchAt (s : State) (k : Nat) (w : World) (j : Nat) : (s.setWorldAt k w).launchAt j = s.launchAt j := rfl
@[simp] theorem State.setWorldAt_opAt (s : State) (k : Nat) (w : World) (j : Nat) : (s.setWorldAt k w).opAt j = s.opAt j := rfl
@[simp] theorem State.setWorldAt_fnAt (s : State) (k : Nat) (w : World) (j : Nat) : (s.setWorldAt k w).fnAt j = s.fnAt j := rfl
@[simp] theorem State.setWorldAt_linkAt (s : State) (k : Nat) (w : World) (j : Nat) : (s.setWorldAt k w).linkAt j = s.linkAt j := rfl
@[simp] theorem State.setWorldAt_slotAt (s : State) (k : Nat) (w : World) (i j q : Nat) : (s.setWorldAt k w).slotAt i j q = s.slotAt i j q := rfl
@[simp] theorem State.setWorldAt_fragment (s : State) (k : Nat) (w : World) : (s.setWorldAt k w).fragment = s.fragment := rfl
@[simp] theorem State.setSlotAt_pickAt (s : State) (a b n : Nat) (x : Slot) (j : Nat) : (s.setSlotAt a b n x).pickAt j = s.pickAt j := rfl
@[simp] theorem State.setSlotAt_pick (s : State) (a b n : Nat) (x : Slot) : (s.setSlotAt a b n x).pick = s.pick := rfl
@[simp] theorem State.setSlotAt_teamAt (s : State) (a b n : Nat) (x : Slot) (j : Nat) : (s.setSlotAt a b n x).teamAt j = s.teamAt j := rfl
@[simp] theorem State.setSlotAt_team (s : State) (a b n : Nat) (x : Slot) : (s.setSlotAt a b n x).team = s.team := rfl
@[simp] theorem State.setSlotAt_ctxAt (s : State) (a b n : Nat) (x : Slot) (j : Nat) : (s.setSlotAt a b n x).ctxAt j = s.ctxAt j := rfl
@[simp] theorem State.setSlotAt_ctx (s : State) (a b n : Nat) (x : Slot) : (s.setSlotAt a b n x).ctx = s.ctx := rfl
@[simp] theorem State.setSlotAt_dieAt (s : State) (a b n : Nat) (x : Slot) (j : Nat) : (s.setSlotAt a b n x).dieAt j = s.dieAt j := rfl
@[simp] theorem State.setSlotAt_launchAt (s : State) (a b n : Nat) (x : Slot) (j : Nat) : (s.setSlotAt a b n x).launchAt j = s.launchAt j := rfl
@[simp] theorem State.setSlotAt_worldAt (s : State) (a b n : Nat) (x : Slot) (j : Nat) : (s.setSlotAt a b n x).worldAt j = s.worldAt j := rfl
@[simp] theorem State.setSlotAt_opAt (s : State) (a b n : Nat) (x : Slot) (j : Nat) : (s.setSlotAt a b n x).opAt j = s.opAt j := rfl
@[simp] theorem State.setSlotAt_fnAt (s : State) (a b n : Nat) (x : Slot) (j : Nat) : (s.setSlotAt a b n x).fnAt j = s.fnAt j := rfl
@[simp] theorem State.setSlotAt_linkAt (s : State) (a b n : Nat) (x : Slot) (j : Nat) : (s.setSlotAt a b n x).linkAt j = s.linkAt j := rfl
@[simp] theorem State.setSlotAt_fragment (s : State) (a b n : Nat) (x : Slot) : (s.setSlotAt a b n x).fragment = s.fragment := rfl
@[simp] theorem State.setOp_pickAt (s : State) (k : Nat) (o : Op) (j : Nat) : (s.setOp k o).pickAt j = s.pickAt j := rfl
@[simp] theorem State.setOp_pick (s : State) (k : Nat) (o : Op) : (s.setOp k o).pick = s.pick := rfl
@[simp] theorem State.setOp_teamAt (s : State) (k : Nat) (o : Op) (j : Nat) : (s.setOp k o).teamAt j = s.teamAt j := rfl
@[simp] theorem State.setOp_team (s : State) (k : Nat) (o : Op) : (s.setOp k o).team = s.team := rfl
@[simp] theorem State.setOp_ctxAt (s : State) (k : Nat) (o : Op) (j : Nat) : (s.setOp k o).ctxAt j = s.ctxAt j := rfl
@[simp] theorem State.setOp_ctx (s : State) (k : Nat) (o : Op) : (s.setOp k o).ctx = s.ctx := rfl
@[simp] theorem State.setOp_dieAt (s : State) (k : Nat) (o : Op) (j : Nat) : (s.setOp k o).dieAt j = s.dieAt j := rfl
@[simp] theorem State.setOp_launchAt (s : State) (k : Nat) (o : Op) (j : Nat) : (s.setOp k o).launchAt j = s.launchAt j := rfl
@[simp] theorem State.setOp_worldAt (s : State) (k : Nat) (o : Op) (j : Nat) : (s.setOp k o).worldAt j = s.worldAt j := rfl
@[simp] theorem State.setOp_fnAt (s : State) (k : Nat) (o : Op) (j : Nat) : (s.setOp k o).fnAt j = s.fnAt j := rfl
@[simp] theorem State.setOp_linkAt (s : State) (k : Nat) (o : Op) (j : Nat) : (s.setOp k o).linkAt j = s.linkAt j := rfl
@[simp] theorem State.setOp_slotAt (s : State) (k : Nat) (o : Op) (i j q : Nat) : (s.setOp k o).slotAt i j q = s.slotAt i j q := rfl
@[simp] theorem State.setOp_fragment (s : State) (k : Nat) (o : Op) : (s.setOp k o).fragment = s.fragment := rfl
@[simp] theorem State.report_pickAt (s : State) (m : FaultMsg) (j : Nat) : (s.report m).pickAt j = s.pickAt j := rfl
@[simp] theorem State.report_pick (s : State) (m : FaultMsg) : (s.report m).pick = s.pick := rfl
@[simp] theorem State.report_teamAt (s : State) (m : FaultMsg) (j : Nat) : (s.report m).teamAt j = s.teamAt j := rfl
@[simp] theorem State.report_team (s : State) (m : FaultMsg) : (s.report m).team = s.team := rfl
@[simp] theorem State.report_ctxAt (s : State) (m : FaultMsg) (j : Nat) : (s.report m).ctxAt j = s.ctxAt j := rfl
@[simp] theorem State.report_ctx (s : State) (m : FaultMsg) : (s.report m).ctx = s.ctx := rfl
@[simp] theorem State.report_dieAt (s : State) (m : FaultMsg) (j : Nat) : (s.report m).dieAt j = s.dieAt j := rfl
@[simp] theorem State.report_launchAt (s : State) (m : FaultMsg) (j : Nat) : (s.report m).launchAt j = s.launchAt j := rfl
@[simp] theorem State.report_worldAt (s : State) (m : FaultMsg) (j : Nat) : (s.report m).worldAt j = s.worldAt j := rfl
@[simp] theorem State.report_opAt (s : State) (m : FaultMsg) (j : Nat) : (s.report m).opAt j = s.opAt j := rfl
@[simp] theorem State.report_fnAt (s : State) (m : FaultMsg) (j : Nat) : (s.report m).fnAt j = s.fnAt j := rfl
@[simp] theorem State.report_linkAt (s : State) (m : FaultMsg) (j : Nat) : (s.report m).linkAt j = s.linkAt j := rfl
@[simp] theorem State.report_slotAt (s : State) (m : FaultMsg) (i j q : Nat) : (s.report m).slotAt i j q = s.slotAt i j q := rfl
@[simp] theorem State.report_fragment (s : State) (m : FaultMsg) : (s.report m).fragment = s.fragment := rfl
@[simp] theorem State.setFnAt_pickAt (s : State) (k : Nat) (f : Function) (j : Nat) : (s.setFnAt k f).pickAt j = s.pickAt j := rfl
@[simp] theorem State.setFnAt_pick (s : State) (k : Nat) (f : Function) : (s.setFnAt k f).pick = s.pick := rfl
@[simp] theorem State.setFnAt_teamAt (s : State) (k : Nat) (f : Function) (j : Nat) : (s.setFnAt k f).teamAt j = s.teamAt j := rfl
@[simp] theorem State.setFnAt_team (s : State) (k : Nat) (f : Function) : (s.setFnAt k f).team = s.team := rfl
@[simp] theorem State.setFnAt_ctxAt (s : State) (k : Nat) (f : Function) (j : Nat) : (s.setFnAt k f).ctxAt j = s.ctxAt j := rfl
@[simp] theorem State.setFnAt_ctx (s : State) (k : Nat) (f : Function) : (s.setFnAt k f).ctx = s.ctx := rfl
@[simp] theorem State.setFnAt_dieAt (s : State) (k : Nat) (f : Function) (j : Nat) : (s.setFnAt k f).dieAt j = s.dieAt j := rfl
@[simp] theorem State.setFnAt_launchAt (s : State) (k : Nat) (f : Function) (j : Nat) : (s.setFnAt k f).launchAt j = s.launchAt j := rfl
@[simp] theorem State.setFnAt_worldAt (s : State) (k : Nat) (f : Function) (j : Nat) : (s.setFnAt k f).worldAt j = s.worldAt j := rfl
@[simp] theorem State.setFnAt_opAt (s : State) (k : Nat) (f : Function) (j : Nat) : (s.setFnAt k f).opAt j = s.opAt j := rfl
@[simp] theorem State.setFnAt_linkAt (s : State) (k : Nat) (f : Function) (j : Nat) : (s.setFnAt k f).linkAt j = s.linkAt j := rfl
@[simp] theorem State.setFnAt_slotAt (s : State) (k : Nat) (f : Function) (i j q : Nat) : (s.setFnAt k f).slotAt i j q = s.slotAt i j q := rfl
@[simp] theorem State.setFnAt_fragment (s : State) (k : Nat) (f : Function) : (s.setFnAt k f).fragment = s.fragment := rfl
@[simp] theorem State.setLinkAt_pickAt (s : State) (k : Nat) (l : Link) (j : Nat) : (s.setLinkAt k l).pickAt j = s.pickAt j := rfl
@[simp] theorem State.setLinkAt_pick (s : State) (k : Nat) (l : Link) : (s.setLinkAt k l).pick = s.pick := rfl
@[simp] theorem State.setLinkAt_teamAt (s : State) (k : Nat) (l : Link) (j : Nat) : (s.setLinkAt k l).teamAt j = s.teamAt j := rfl
@[simp] theorem State.setLinkAt_team (s : State) (k : Nat) (l : Link) : (s.setLinkAt k l).team = s.team := rfl
@[simp] theorem State.setLinkAt_ctxAt (s : State) (k : Nat) (l : Link) (j : Nat) : (s.setLinkAt k l).ctxAt j = s.ctxAt j := rfl
@[simp] theorem State.setLinkAt_ctx (s : State) (k : Nat) (l : Link) : (s.setLinkAt k l).ctx = s.ctx := rfl
@[simp] theorem State.setLinkAt_dieAt (s : State) (k : Nat) (l : Link) (j : Nat) : (s.setLinkAt k l).dieAt j = s.dieAt j := rfl
@[simp] theorem State.setLinkAt_launchAt (s : State) (k : Nat) (l : Link) (j : Nat) : (s.setLinkAt k l).launchAt j = s.launchAt j := rfl
@[simp] theorem State.setLinkAt_worldAt (s : State) (k : Nat) (l : Link) (j : Nat) : (s.setLinkAt k l).worldAt j = s.worldAt j := rfl
@[simp] theorem State.setLinkAt_opAt (s : State) (k : Nat) (l : Link) (j : Nat) : (s.setLinkAt k l).opAt j = s.opAt j := rfl
@[simp] theorem State.setLinkAt_fnAt (s : State) (k : Nat) (l : Link) (j : Nat) : (s.setLinkAt k l).fnAt j = s.fnAt j := rfl
@[simp] theorem State.setLinkAt_slotAt (s : State) (k : Nat) (l : Link) (i j q : Nat) : (s.setLinkAt k l).slotAt i j q = s.slotAt i j q := rfl
@[simp] theorem State.setLinkAt_fragment (s : State) (k : Nat) (l : Link) : (s.setLinkAt k l).fragment = s.fragment := rfl

/-! ## Records read after their own update -/

@[simp] theorem State.setPickAt_pickAt_self (s : State) (k : Nat) (p : Pick) : (s.setPickAt k p).pickAt k = p := tget_tput_self ({} : Pick) s.picks k p
theorem State.setPickAt_pickAt (s : State) (k : Nat) (p : Pick) (j : Nat) : (s.setPickAt k p).pickAt j = if j = k then p else s.pickAt j :=
  tget_tput ({} : Pick) s.picks j k p
@[simp] theorem State.setTeamAt_teamAt_self (s : State) (k : Nat) (m : Team) : (s.setTeamAt k m).teamAt k = m := tget_tput_self ({} : Team) s.teams k m
theorem State.setTeamAt_teamAt (s : State) (k : Nat) (m : Team) (j : Nat) : (s.setTeamAt k m).teamAt j = if j = k then m else s.teamAt j :=
  tget_tput ({} : Team) s.teams j k m
@[simp] theorem State.setCtxAt_ctxAt_self (s : State) (k : Nat) (c : Context) : (s.setCtxAt k c).ctxAt k = c := tget_tput_self ({} : Context) s.ctxs k c
theorem State.setCtxAt_ctxAt (s : State) (k : Nat) (c : Context) (j : Nat) : (s.setCtxAt k c).ctxAt j = if j = k then c else s.ctxAt j :=
  tget_tput ({} : Context) s.ctxs j k c
@[simp] theorem State.setDieAt_dieAt_self (s : State) (k : Nat) (d : Die) : (s.setDieAt k d).dieAt k = d := tget_tput_self ({} : Die) s.dies k d
theorem State.setDieAt_dieAt (s : State) (k : Nat) (d : Die) (j : Nat) : (s.setDieAt k d).dieAt j = if j = k then d else s.dieAt j :=
  tget_tput ({} : Die) s.dies j k d
@[simp] theorem State.setLaunchAt_launchAt_self (s : State) (k : Nat) (l : Launch) : (s.setLaunchAt k l).launchAt k = l := tget_tput_self ({} : Launch) s.launches k l
theorem State.setLaunchAt_launchAt (s : State) (k : Nat) (l : Launch) (j : Nat) : (s.setLaunchAt k l).launchAt j = if j = k then l else s.launchAt j :=
  tget_tput ({} : Launch) s.launches j k l
@[simp] theorem State.setWorldAt_worldAt_self (s : State) (k : Nat) (w : World) : (s.setWorldAt k w).worldAt k = w := tget_tput_self ({} : World) s.worlds k w
theorem State.setWorldAt_worldAt (s : State) (k : Nat) (w : World) (j : Nat) : (s.setWorldAt k w).worldAt j = if j = k then w else s.worldAt j :=
  tget_tput ({} : World) s.worlds j k w
@[simp] theorem State.setFnAt_fnAt_self (s : State) (k : Nat) (f : Function) : (s.setFnAt k f).fnAt k = f := tget_tput_self ({} : Function) s.fns k f
theorem State.setFnAt_fnAt (s : State) (k : Nat) (f : Function) (j : Nat) : (s.setFnAt k f).fnAt j = if j = k then f else s.fnAt j :=
  tget_tput ({} : Function) s.fns j k f
@[simp] theorem State.setLinkAt_linkAt_self (s : State) (k : Nat) (l : Link) : (s.setLinkAt k l).linkAt k = l := tget_tput_self ({} : Link) s.links k l
theorem State.setLinkAt_linkAt (s : State) (k : Nat) (l : Link) (j : Nat) : (s.setLinkAt k l).linkAt j = if j = k then l else s.linkAt j :=
  tget_tput ({} : Link) s.links j k l
@[simp] theorem State.setPick_pick (s : State) (p : Pick) : (s.setPick p).pick = p := tget_tput_self ({} : Pick) s.picks s.cur p
@[simp] theorem State.setPick_pickAt_cur (s : State) (p : Pick) : (s.setPick p).pickAt s.cur = p := tget_tput_self ({} : Pick) s.picks s.cur p
theorem State.setPick_pickAt_ne (s : State) (p : Pick) {j : Nat} (h : j ≠ s.cur) : (s.setPick p).pickAt j = s.pickAt j :=
  tget_tput_ne ({} : Pick) s.picks p h

@[simp] theorem State.setTeam_team (s : State) (m : Team) : (s.setTeam m).team = m := tget_tput_self ({} : Team) s.teams s.pick.team m
theorem State.setPick_team (s : State) (p : Pick) (h : p.team = s.pick.team) : (s.setPick p).team = s.team := by
  simp [State.team, h]
/-- A counter that moves leaves the rest of its die. -/
theorem State.count_dieAt (s : State) (k c n j : Nat) :
    ∃ x, (s.count k c n).dieAt j = { s.dieAt j with counters := x } := by
  simp only [State.count, State.setDieAt_dieAt]
  split
  · next h => subst h; exact ⟨_, rfl⟩
  · exact ⟨(s.dieAt j).counters, rfl⟩

/-! ## Fields of a pick -/

@[simp] theorem Pick.setPath_live (p : Pick) (n : Nat) (x : PathState) : (p.setPath n x).live = p.live := rfl
@[simp] theorem Pick.setPath_team (p : Pick) (n : Nat) (x : PathState) : (p.setPath n x).team = p.team := rfl
@[simp] theorem Pick.setPath_index (p : Pick) (n : Nat) (x : PathState) : (p.setPath n x).index = p.index := rfl
@[simp] theorem Pick.setPath_role (p : Pick) (n : Nat) (x : PathState) : (p.setPath n x).role = p.role := rfl
@[simp] theorem Pick.setPath_qidx (p : Pick) (n : Nat) (x : PathState) : (p.setPath n x).qidx = p.qidx := rfl
@[simp] theorem Pick.setPath_slot (p : Pick) (n : Nat) (x : PathState) : (p.setPath n x).slot = p.slot := rfl
@[simp] theorem Pick.setPath_reservation (p : Pick) (n : Nat) (x : PathState) : (p.setPath n x).reservation = p.reservation := rfl
@[simp] theorem Pick.setPath_spc (p : Pick) (n : Nat) (x : PathState) : (p.setPath n x).spc = p.spc := rfl
@[simp] theorem Pick.setPath_wb (p : Pick) (n : Nat) (x : PathState) : (p.setPath n x).wb = p.wb := rfl
@[simp] theorem Pick.setPath_sregs (p : Pick) (n : Nat) (x : PathState) : (p.setPath n x).sregs = p.sregs := rfl
@[simp] theorem Pick.setPath_spoison (p : Pick) (n : Nat) (x : PathState) : (p.setPath n x).spoison = p.spoison := rfl
@[simp] theorem Pick.setPath_bpred (p : Pick) (n : Nat) (x : PathState) : (p.setPath n x).bpred = p.bpred := rfl
@[simp] theorem Pick.setPath_fmtr (p : Pick) (n : Nat) (x : PathState) : (p.setPath n x).fmtr = p.fmtr := rfl
@[simp] theorem Pick.setPath_tcfg (p : Pick) (n : Nat) (x : PathState) : (p.setPath n x).tcfg = p.tcfg := rfl
@[simp] theorem Pick.setPath_gang (p : Pick) (n : Nat) (x : PathState) : (p.setPath n x).gang = p.gang := rfl
@[simp] theorem Pick.setPath_seed (p : Pick) (n : Nat) (x : PathState) : (p.setPath n x).seed = p.seed := rfl
@[simp] theorem Pick.setPath_fmask (p : Pick) (n : Nat) (x : PathState) : (p.setPath n x).fmask = p.fmask := rfl
@[simp] theorem Pick.setPath_names (p : Pick) (n : Nat) (x : PathState) : (p.setPath n x).names = p.names := rfl
@[simp] theorem Pick.setPath_preds (p : Pick) (n : Nat) (x : PathState) : (p.setPath n x).preds = p.preds := rfl
@[simp] theorem Pick.setPath_ppoison (p : Pick) (n : Nat) (x : PathState) : (p.setPath n x).ppoison = p.ppoison := rfl
@[simp] theorem Pick.setPath_queue (p : Pick) (n : Nat) (x : PathState) : (p.setPath n x).queue = p.queue := rfl
@[simp] theorem Pick.setPath_lanes (p : Pick) (n : Nat) (x : PathState) : (p.setPath n x).lanes = p.lanes := rfl
@[simp] theorem Pick.setPath_hqueue (p : Pick) (n : Nat) (x : PathState) : (p.setPath n x).hqueue = p.hqueue := rfl
@[simp] theorem Pick.setPath_hlanes (p : Pick) (n : Nat) (x : PathState) : (p.setPath n x).hlanes = p.hlanes := rfl
@[simp] theorem Pick.setPath_pending (p : Pick) (n : Nat) (x : PathState) : (p.setPath n x).pending = p.pending := rfl
@[simp] theorem Pick.setPath_pseq (p : Pick) (n : Nat) (x : PathState) : (p.setPath n x).pseq = p.pseq := rfl
@[simp] theorem Pick.setPath_txs (p : Pick) (n : Nat) (x : PathState) : (p.setPath n x).txs = p.txs := rfl
@[simp] theorem Pick.setPath_uncovered (p : Pick) (n : Nat) (x : PathState) : (p.setPath n x).uncovered = p.uncovered := rfl
@[simp] theorem Pick.setPath_wait (p : Pick) (n : Nat) (x : PathState) : (p.setPath n x).wait = p.wait := rfl
@[simp] theorem Pick.setPath_mode (p : Pick) (n : Nat) (x : PathState) : (p.setPath n x).mode = p.mode := rfl
@[simp] theorem Pick.setPath_trec (p : Pick) (n : Nat) (x : PathState) : (p.setPath n x).trec = p.trec := rfl
@[simp] theorem Pick.setPath_held (p : Pick) (n : Nat) (x : PathState) : (p.setPath n x).held = p.held := rfl
@[simp] theorem Pick.setPath_bkExempt (p : Pick) (n : Nat) (x : PathState) : (p.setPath n x).bkExempt = p.bkExempt := rfl
@[simp] theorem Pick.setPath_cych (p : Pick) (n : Nat) (x : PathState) : (p.setPath n x).cych = p.cych := rfl
@[simp] theorem Pick.setPath_cycd (p : Pick) (n : Nat) (x : PathState) : (p.setPath n x).cycd = p.cycd := rfl
@[simp] theorem Pick.setPath_parked (p : Pick) (n : Nat) (x : PathState) : (p.setPath n x).parked = p.parked := rfl
@[simp] theorem Pick.setPath_parkOrd (p : Pick) (n : Nat) (x : PathState) : (p.setPath n x).parkOrd = p.parkOrd := rfl
@[simp] theorem Pick.setPath_spilled (p : Pick) (n : Nat) (x : PathState) : (p.setPath n x).spilled = p.spilled := rfl
@[simp] theorem Pick.setPath_parkWant (p : Pick) (n : Nat) (x : PathState) : (p.setPath n x).parkWant = p.parkWant := rfl
@[simp] theorem Pick.setPath_dieLost (p : Pick) (n : Nat) (x : PathState) : (p.setPath n x).dieLost = p.dieLost := rfl
@[simp] theorem Pick.setPath_xfences (p : Pick) (n : Nat) (x : PathState) : (p.setPath n x).xfences = p.xfences := rfl
@[simp] theorem Pick.setPath_xseq (p : Pick) (n : Nat) (x : PathState) : (p.setPath n x).xseq = p.xseq := rfl
@[simp] theorem Pick.setPath_huncovered (p : Pick) (n : Nat) (x : PathState) : (p.setPath n x).huncovered = p.huncovered := rfl
@[simp] theorem Pick.setPath_clk (p : Pick) (n : Nat) (x : PathState) : (p.setPath n x).clk = p.clk := rfl
@[simp] theorem Pick.setPath_nextLane (p : Pick) (n : Nat) (x : PathState) : (p.setPath n x).nextLane = p.nextLane := rfl
@[simp] theorem Pick.setPath_relFence (p : Pick) (n : Nat) (x : PathState) : (p.setPath n x).relFence = p.relFence := rfl
@[simp] theorem Pick.setPath_rlxSeen (p : Pick) (n : Nat) (x : PathState) : (p.setPath n x).rlxSeen = p.rlxSeen := rfl
@[simp] theorem Pick.setPath_owed (p : Pick) (n : Nat) (x : PathState) : (p.setPath n x).owed = p.owed := rfl
@[simp] theorem Pick.setPath_closing (p : Pick) (n : Nat) (x : PathState) : (p.setPath n x).closing = p.closing := rfl
@[simp] theorem Pick.setPath_lastS (p : Pick) (n : Nat) (x : PathState) : (p.setPath n x).lastS = p.lastS := rfl
@[simp] theorem Pick.setPath_passedS (p : Pick) (n : Nat) (x : PathState) : (p.setPath n x).passedS = p.passedS := rfl
@[simp] theorem Pick.setPath_puts (p : Pick) (n : Nat) (x : PathState) : (p.setPath n x).puts = p.puts := rfl
@[simp] theorem Pick.setPath_aborts (p : Pick) (n : Nat) (x : PathState) : (p.setPath n x).aborts = p.aborts := rfl
@[simp] theorem Pick.setPath_moved (p : Pick) (n : Nat) (x : PathState) : (p.setPath n x).moved = p.moved := rfl
@[simp] theorem Pick.setName_live (p : Pick) (n : Nat) (x : Name) : (p.setName n x).live = p.live := rfl
@[simp] theorem Pick.setName_team (p : Pick) (n : Nat) (x : Name) : (p.setName n x).team = p.team := rfl
@[simp] theorem Pick.setName_index (p : Pick) (n : Nat) (x : Name) : (p.setName n x).index = p.index := rfl
@[simp] theorem Pick.setName_role (p : Pick) (n : Nat) (x : Name) : (p.setName n x).role = p.role := rfl
@[simp] theorem Pick.setName_qidx (p : Pick) (n : Nat) (x : Name) : (p.setName n x).qidx = p.qidx := rfl
@[simp] theorem Pick.setName_slot (p : Pick) (n : Nat) (x : Name) : (p.setName n x).slot = p.slot := rfl
@[simp] theorem Pick.setName_reservation (p : Pick) (n : Nat) (x : Name) : (p.setName n x).reservation = p.reservation := rfl
@[simp] theorem Pick.setName_spc (p : Pick) (n : Nat) (x : Name) : (p.setName n x).spc = p.spc := rfl
@[simp] theorem Pick.setName_wb (p : Pick) (n : Nat) (x : Name) : (p.setName n x).wb = p.wb := rfl
@[simp] theorem Pick.setName_sregs (p : Pick) (n : Nat) (x : Name) : (p.setName n x).sregs = p.sregs := rfl
@[simp] theorem Pick.setName_spoison (p : Pick) (n : Nat) (x : Name) : (p.setName n x).spoison = p.spoison := rfl
@[simp] theorem Pick.setName_bpred (p : Pick) (n : Nat) (x : Name) : (p.setName n x).bpred = p.bpred := rfl
@[simp] theorem Pick.setName_fmtr (p : Pick) (n : Nat) (x : Name) : (p.setName n x).fmtr = p.fmtr := rfl
@[simp] theorem Pick.setName_tcfg (p : Pick) (n : Nat) (x : Name) : (p.setName n x).tcfg = p.tcfg := rfl
@[simp] theorem Pick.setName_gang (p : Pick) (n : Nat) (x : Name) : (p.setName n x).gang = p.gang := rfl
@[simp] theorem Pick.setName_seed (p : Pick) (n : Nat) (x : Name) : (p.setName n x).seed = p.seed := rfl
@[simp] theorem Pick.setName_fmask (p : Pick) (n : Nat) (x : Name) : (p.setName n x).fmask = p.fmask := rfl
@[simp] theorem Pick.setName_preds (p : Pick) (n : Nat) (x : Name) : (p.setName n x).preds = p.preds := rfl
@[simp] theorem Pick.setName_ppoison (p : Pick) (n : Nat) (x : Name) : (p.setName n x).ppoison = p.ppoison := rfl
@[simp] theorem Pick.setName_paths (p : Pick) (n : Nat) (x : Name) : (p.setName n x).paths = p.paths := rfl
@[simp] theorem Pick.setName_queue (p : Pick) (n : Nat) (x : Name) : (p.setName n x).queue = p.queue := rfl
@[simp] theorem Pick.setName_lanes (p : Pick) (n : Nat) (x : Name) : (p.setName n x).lanes = p.lanes := rfl
@[simp] theorem Pick.setName_hqueue (p : Pick) (n : Nat) (x : Name) : (p.setName n x).hqueue = p.hqueue := rfl
@[simp] theorem Pick.setName_hlanes (p : Pick) (n : Nat) (x : Name) : (p.setName n x).hlanes = p.hlanes := rfl
@[simp] theorem Pick.setName_pending (p : Pick) (n : Nat) (x : Name) : (p.setName n x).pending = p.pending := rfl
@[simp] theorem Pick.setName_pseq (p : Pick) (n : Nat) (x : Name) : (p.setName n x).pseq = p.pseq := rfl
@[simp] theorem Pick.setName_txs (p : Pick) (n : Nat) (x : Name) : (p.setName n x).txs = p.txs := rfl
@[simp] theorem Pick.setName_uncovered (p : Pick) (n : Nat) (x : Name) : (p.setName n x).uncovered = p.uncovered := rfl
@[simp] theorem Pick.setName_wait (p : Pick) (n : Nat) (x : Name) : (p.setName n x).wait = p.wait := rfl
@[simp] theorem Pick.setName_mode (p : Pick) (n : Nat) (x : Name) : (p.setName n x).mode = p.mode := rfl
@[simp] theorem Pick.setName_trec (p : Pick) (n : Nat) (x : Name) : (p.setName n x).trec = p.trec := rfl
@[simp] theorem Pick.setName_held (p : Pick) (n : Nat) (x : Name) : (p.setName n x).held = p.held := rfl
@[simp] theorem Pick.setName_bkExempt (p : Pick) (n : Nat) (x : Name) : (p.setName n x).bkExempt = p.bkExempt := rfl
@[simp] theorem Pick.setName_cych (p : Pick) (n : Nat) (x : Name) : (p.setName n x).cych = p.cych := rfl
@[simp] theorem Pick.setName_cycd (p : Pick) (n : Nat) (x : Name) : (p.setName n x).cycd = p.cycd := rfl
@[simp] theorem Pick.setName_parked (p : Pick) (n : Nat) (x : Name) : (p.setName n x).parked = p.parked := rfl
@[simp] theorem Pick.setName_parkOrd (p : Pick) (n : Nat) (x : Name) : (p.setName n x).parkOrd = p.parkOrd := rfl
@[simp] theorem Pick.setName_spilled (p : Pick) (n : Nat) (x : Name) : (p.setName n x).spilled = p.spilled := rfl
@[simp] theorem Pick.setName_parkWant (p : Pick) (n : Nat) (x : Name) : (p.setName n x).parkWant = p.parkWant := rfl
@[simp] theorem Pick.setName_dieLost (p : Pick) (n : Nat) (x : Name) : (p.setName n x).dieLost = p.dieLost := rfl
@[simp] theorem Pick.setName_xfences (p : Pick) (n : Nat) (x : Name) : (p.setName n x).xfences = p.xfences := rfl
@[simp] theorem Pick.setName_xseq (p : Pick) (n : Nat) (x : Name) : (p.setName n x).xseq = p.xseq := rfl
@[simp] theorem Pick.setName_huncovered (p : Pick) (n : Nat) (x : Name) : (p.setName n x).huncovered = p.huncovered := rfl
@[simp] theorem Pick.setName_clk (p : Pick) (n : Nat) (x : Name) : (p.setName n x).clk = p.clk := rfl
@[simp] theorem Pick.setName_nextLane (p : Pick) (n : Nat) (x : Name) : (p.setName n x).nextLane = p.nextLane := rfl
@[simp] theorem Pick.setName_relFence (p : Pick) (n : Nat) (x : Name) : (p.setName n x).relFence = p.relFence := rfl
@[simp] theorem Pick.setName_rlxSeen (p : Pick) (n : Nat) (x : Name) : (p.setName n x).rlxSeen = p.rlxSeen := rfl
@[simp] theorem Pick.setName_owed (p : Pick) (n : Nat) (x : Name) : (p.setName n x).owed = p.owed := rfl
@[simp] theorem Pick.setName_closing (p : Pick) (n : Nat) (x : Name) : (p.setName n x).closing = p.closing := rfl
@[simp] theorem Pick.setName_lastS (p : Pick) (n : Nat) (x : Name) : (p.setName n x).lastS = p.lastS := rfl
@[simp] theorem Pick.setName_passedS (p : Pick) (n : Nat) (x : Name) : (p.setName n x).passedS = p.passedS := rfl
@[simp] theorem Pick.setName_puts (p : Pick) (n : Nat) (x : Name) : (p.setName n x).puts = p.puts := rfl
@[simp] theorem Pick.setName_aborts (p : Pick) (n : Nat) (x : Name) : (p.setName n x).aborts = p.aborts := rfl
@[simp] theorem Pick.setName_moved (p : Pick) (n : Nat) (x : Name) : (p.setName n x).moved = p.moved := rfl
@[simp] theorem Pick.setW_live (p : Pick) (r : BitVec 6) (v : Word) : (p.setW r v).live = p.live := by unfold Pick.setW; split <;> rfl
@[simp] theorem Pick.setW_team (p : Pick) (r : BitVec 6) (v : Word) : (p.setW r v).team = p.team := by unfold Pick.setW; split <;> rfl
@[simp] theorem Pick.setW_index (p : Pick) (r : BitVec 6) (v : Word) : (p.setW r v).index = p.index := by unfold Pick.setW; split <;> rfl
@[simp] theorem Pick.setW_role (p : Pick) (r : BitVec 6) (v : Word) : (p.setW r v).role = p.role := by unfold Pick.setW; split <;> rfl
@[simp] theorem Pick.setW_qidx (p : Pick) (r : BitVec 6) (v : Word) : (p.setW r v).qidx = p.qidx := by unfold Pick.setW; split <;> rfl
@[simp] theorem Pick.setW_slot (p : Pick) (r : BitVec 6) (v : Word) : (p.setW r v).slot = p.slot := by unfold Pick.setW; split <;> rfl
@[simp] theorem Pick.setW_reservation (p : Pick) (r : BitVec 6) (v : Word) : (p.setW r v).reservation = p.reservation := by unfold Pick.setW; split <;> rfl
@[simp] theorem Pick.setW_spc (p : Pick) (r : BitVec 6) (v : Word) : (p.setW r v).spc = p.spc := by unfold Pick.setW; split <;> rfl
@[simp] theorem Pick.setW_wb (p : Pick) (r : BitVec 6) (v : Word) : (p.setW r v).wb = p.wb := by unfold Pick.setW; split <;> rfl
@[simp] theorem Pick.setW_bpred (p : Pick) (r : BitVec 6) (v : Word) : (p.setW r v).bpred = p.bpred := by unfold Pick.setW; split <;> rfl
@[simp] theorem Pick.setW_fmtr (p : Pick) (r : BitVec 6) (v : Word) : (p.setW r v).fmtr = p.fmtr := by unfold Pick.setW; split <;> rfl
@[simp] theorem Pick.setW_tcfg (p : Pick) (r : BitVec 6) (v : Word) : (p.setW r v).tcfg = p.tcfg := by unfold Pick.setW; split <;> rfl
@[simp] theorem Pick.setW_gang (p : Pick) (r : BitVec 6) (v : Word) : (p.setW r v).gang = p.gang := by unfold Pick.setW; split <;> rfl
@[simp] theorem Pick.setW_seed (p : Pick) (r : BitVec 6) (v : Word) : (p.setW r v).seed = p.seed := by unfold Pick.setW; split <;> rfl
@[simp] theorem Pick.setW_fmask (p : Pick) (r : BitVec 6) (v : Word) : (p.setW r v).fmask = p.fmask := by unfold Pick.setW; split <;> rfl
@[simp] theorem Pick.setW_names (p : Pick) (r : BitVec 6) (v : Word) : (p.setW r v).names = p.names := by unfold Pick.setW; split <;> rfl
@[simp] theorem Pick.setW_preds (p : Pick) (r : BitVec 6) (v : Word) : (p.setW r v).preds = p.preds := by unfold Pick.setW; split <;> rfl
@[simp] theorem Pick.setW_ppoison (p : Pick) (r : BitVec 6) (v : Word) : (p.setW r v).ppoison = p.ppoison := by unfold Pick.setW; split <;> rfl
@[simp] theorem Pick.setW_paths (p : Pick) (r : BitVec 6) (v : Word) : (p.setW r v).paths = p.paths := by unfold Pick.setW; split <;> rfl
@[simp] theorem Pick.setW_queue (p : Pick) (r : BitVec 6) (v : Word) : (p.setW r v).queue = p.queue := by unfold Pick.setW; split <;> rfl
@[simp] theorem Pick.setW_lanes (p : Pick) (r : BitVec 6) (v : Word) : (p.setW r v).lanes = p.lanes := by unfold Pick.setW; split <;> rfl
@[simp] theorem Pick.setW_hqueue (p : Pick) (r : BitVec 6) (v : Word) : (p.setW r v).hqueue = p.hqueue := by unfold Pick.setW; split <;> rfl
@[simp] theorem Pick.setW_hlanes (p : Pick) (r : BitVec 6) (v : Word) : (p.setW r v).hlanes = p.hlanes := by unfold Pick.setW; split <;> rfl
@[simp] theorem Pick.setW_pending (p : Pick) (r : BitVec 6) (v : Word) : (p.setW r v).pending = p.pending := by unfold Pick.setW; split <;> rfl
@[simp] theorem Pick.setW_pseq (p : Pick) (r : BitVec 6) (v : Word) : (p.setW r v).pseq = p.pseq := by unfold Pick.setW; split <;> rfl
@[simp] theorem Pick.setW_txs (p : Pick) (r : BitVec 6) (v : Word) : (p.setW r v).txs = p.txs := by unfold Pick.setW; split <;> rfl
@[simp] theorem Pick.setW_uncovered (p : Pick) (r : BitVec 6) (v : Word) : (p.setW r v).uncovered = p.uncovered := by unfold Pick.setW; split <;> rfl
@[simp] theorem Pick.setW_wait (p : Pick) (r : BitVec 6) (v : Word) : (p.setW r v).wait = p.wait := by unfold Pick.setW; split <;> rfl
@[simp] theorem Pick.setW_mode (p : Pick) (r : BitVec 6) (v : Word) : (p.setW r v).mode = p.mode := by unfold Pick.setW; split <;> rfl
@[simp] theorem Pick.setW_trec (p : Pick) (r : BitVec 6) (v : Word) : (p.setW r v).trec = p.trec := by unfold Pick.setW; split <;> rfl
@[simp] theorem Pick.setW_held (p : Pick) (r : BitVec 6) (v : Word) : (p.setW r v).held = p.held := by unfold Pick.setW; split <;> rfl
@[simp] theorem Pick.setW_bkExempt (p : Pick) (r : BitVec 6) (v : Word) : (p.setW r v).bkExempt = p.bkExempt := by unfold Pick.setW; split <;> rfl
@[simp] theorem Pick.setW_cych (p : Pick) (r : BitVec 6) (v : Word) : (p.setW r v).cych = p.cych := by unfold Pick.setW; split <;> rfl
@[simp] theorem Pick.setW_cycd (p : Pick) (r : BitVec 6) (v : Word) : (p.setW r v).cycd = p.cycd := by unfold Pick.setW; split <;> rfl
@[simp] theorem Pick.setW_parked (p : Pick) (r : BitVec 6) (v : Word) : (p.setW r v).parked = p.parked := by unfold Pick.setW; split <;> rfl
@[simp] theorem Pick.setW_parkOrd (p : Pick) (r : BitVec 6) (v : Word) : (p.setW r v).parkOrd = p.parkOrd := by unfold Pick.setW; split <;> rfl
@[simp] theorem Pick.setW_spilled (p : Pick) (r : BitVec 6) (v : Word) : (p.setW r v).spilled = p.spilled := by unfold Pick.setW; split <;> rfl
@[simp] theorem Pick.setW_parkWant (p : Pick) (r : BitVec 6) (v : Word) : (p.setW r v).parkWant = p.parkWant := by unfold Pick.setW; split <;> rfl
@[simp] theorem Pick.setW_dieLost (p : Pick) (r : BitVec 6) (v : Word) : (p.setW r v).dieLost = p.dieLost := by unfold Pick.setW; split <;> rfl
@[simp] theorem Pick.setW_xfences (p : Pick) (r : BitVec 6) (v : Word) : (p.setW r v).xfences = p.xfences := by unfold Pick.setW; split <;> rfl
@[simp] theorem Pick.setW_xseq (p : Pick) (r : BitVec 6) (v : Word) : (p.setW r v).xseq = p.xseq := by unfold Pick.setW; split <;> rfl
@[simp] theorem Pick.setW_huncovered (p : Pick) (r : BitVec 6) (v : Word) : (p.setW r v).huncovered = p.huncovered := by unfold Pick.setW; split <;> rfl
@[simp] theorem Pick.setW_clk (p : Pick) (r : BitVec 6) (v : Word) : (p.setW r v).clk = p.clk := by unfold Pick.setW; split <;> rfl
@[simp] theorem Pick.setW_nextLane (p : Pick) (r : BitVec 6) (v : Word) : (p.setW r v).nextLane = p.nextLane := by unfold Pick.setW; split <;> rfl
@[simp] theorem Pick.setW_relFence (p : Pick) (r : BitVec 6) (v : Word) : (p.setW r v).relFence = p.relFence := by unfold Pick.setW; split <;> rfl
@[simp] theorem Pick.setW_rlxSeen (p : Pick) (r : BitVec 6) (v : Word) : (p.setW r v).rlxSeen = p.rlxSeen := by unfold Pick.setW; split <;> rfl
@[simp] theorem Pick.setW_owed (p : Pick) (r : BitVec 6) (v : Word) : (p.setW r v).owed = p.owed := by unfold Pick.setW; split <;> rfl
@[simp] theorem Pick.setW_closing (p : Pick) (r : BitVec 6) (v : Word) : (p.setW r v).closing = p.closing := by unfold Pick.setW; split <;> rfl
@[simp] theorem Pick.setW_lastS (p : Pick) (r : BitVec 6) (v : Word) : (p.setW r v).lastS = p.lastS := by unfold Pick.setW; split <;> rfl
@[simp] theorem Pick.setW_passedS (p : Pick) (r : BitVec 6) (v : Word) : (p.setW r v).passedS = p.passedS := by unfold Pick.setW; split <;> rfl
@[simp] theorem Pick.setW_puts (p : Pick) (r : BitVec 6) (v : Word) : (p.setW r v).puts = p.puts := by unfold Pick.setW; split <;> rfl
@[simp] theorem Pick.setW_aborts (p : Pick) (r : BitVec 6) (v : Word) : (p.setW r v).aborts = p.aborts := by unfold Pick.setW; split <;> rfl
@[simp] theorem Pick.setW_moved (p : Pick) (r : BitVec 6) (v : Word) : (p.setW r v).moved = p.moved := by unfold Pick.setW; split <;> rfl
@[simp] theorem Pick.setB_live (p : Pick) (n : BitVec 3) (v : Bool) : (p.setB n v).live = p.live := by unfold Pick.setB; split <;> rfl
@[simp] theorem Pick.setB_team (p : Pick) (n : BitVec 3) (v : Bool) : (p.setB n v).team = p.team := by unfold Pick.setB; split <;> rfl
@[simp] theorem Pick.setB_index (p : Pick) (n : BitVec 3) (v : Bool) : (p.setB n v).index = p.index := by unfold Pick.setB; split <;> rfl
@[simp] theorem Pick.setB_role (p : Pick) (n : BitVec 3) (v : Bool) : (p.setB n v).role = p.role := by unfold Pick.setB; split <;> rfl
@[simp] theorem Pick.setB_qidx (p : Pick) (n : BitVec 3) (v : Bool) : (p.setB n v).qidx = p.qidx := by unfold Pick.setB; split <;> rfl
@[simp] theorem Pick.setB_slot (p : Pick) (n : BitVec 3) (v : Bool) : (p.setB n v).slot = p.slot := by unfold Pick.setB; split <;> rfl
@[simp] theorem Pick.setB_reservation (p : Pick) (n : BitVec 3) (v : Bool) : (p.setB n v).reservation = p.reservation := by unfold Pick.setB; split <;> rfl
@[simp] theorem Pick.setB_spc (p : Pick) (n : BitVec 3) (v : Bool) : (p.setB n v).spc = p.spc := by unfold Pick.setB; split <;> rfl
@[simp] theorem Pick.setB_wb (p : Pick) (n : BitVec 3) (v : Bool) : (p.setB n v).wb = p.wb := by unfold Pick.setB; split <;> rfl
@[simp] theorem Pick.setB_sregs (p : Pick) (n : BitVec 3) (v : Bool) : (p.setB n v).sregs = p.sregs := by unfold Pick.setB; split <;> rfl
@[simp] theorem Pick.setB_spoison (p : Pick) (n : BitVec 3) (v : Bool) : (p.setB n v).spoison = p.spoison := by unfold Pick.setB; split <;> rfl
@[simp] theorem Pick.setB_fmtr (p : Pick) (n : BitVec 3) (v : Bool) : (p.setB n v).fmtr = p.fmtr := by unfold Pick.setB; split <;> rfl
@[simp] theorem Pick.setB_tcfg (p : Pick) (n : BitVec 3) (v : Bool) : (p.setB n v).tcfg = p.tcfg := by unfold Pick.setB; split <;> rfl
@[simp] theorem Pick.setB_gang (p : Pick) (n : BitVec 3) (v : Bool) : (p.setB n v).gang = p.gang := by unfold Pick.setB; split <;> rfl
@[simp] theorem Pick.setB_seed (p : Pick) (n : BitVec 3) (v : Bool) : (p.setB n v).seed = p.seed := by unfold Pick.setB; split <;> rfl
@[simp] theorem Pick.setB_fmask (p : Pick) (n : BitVec 3) (v : Bool) : (p.setB n v).fmask = p.fmask := by unfold Pick.setB; split <;> rfl
@[simp] theorem Pick.setB_names (p : Pick) (n : BitVec 3) (v : Bool) : (p.setB n v).names = p.names := by unfold Pick.setB; split <;> rfl
@[simp] theorem Pick.setB_preds (p : Pick) (n : BitVec 3) (v : Bool) : (p.setB n v).preds = p.preds := by unfold Pick.setB; split <;> rfl
@[simp] theorem Pick.setB_ppoison (p : Pick) (n : BitVec 3) (v : Bool) : (p.setB n v).ppoison = p.ppoison := by unfold Pick.setB; split <;> rfl
@[simp] theorem Pick.setB_paths (p : Pick) (n : BitVec 3) (v : Bool) : (p.setB n v).paths = p.paths := by unfold Pick.setB; split <;> rfl
@[simp] theorem Pick.setB_queue (p : Pick) (n : BitVec 3) (v : Bool) : (p.setB n v).queue = p.queue := by unfold Pick.setB; split <;> rfl
@[simp] theorem Pick.setB_lanes (p : Pick) (n : BitVec 3) (v : Bool) : (p.setB n v).lanes = p.lanes := by unfold Pick.setB; split <;> rfl
@[simp] theorem Pick.setB_hqueue (p : Pick) (n : BitVec 3) (v : Bool) : (p.setB n v).hqueue = p.hqueue := by unfold Pick.setB; split <;> rfl
@[simp] theorem Pick.setB_hlanes (p : Pick) (n : BitVec 3) (v : Bool) : (p.setB n v).hlanes = p.hlanes := by unfold Pick.setB; split <;> rfl
@[simp] theorem Pick.setB_pending (p : Pick) (n : BitVec 3) (v : Bool) : (p.setB n v).pending = p.pending := by unfold Pick.setB; split <;> rfl
@[simp] theorem Pick.setB_pseq (p : Pick) (n : BitVec 3) (v : Bool) : (p.setB n v).pseq = p.pseq := by unfold Pick.setB; split <;> rfl
@[simp] theorem Pick.setB_txs (p : Pick) (n : BitVec 3) (v : Bool) : (p.setB n v).txs = p.txs := by unfold Pick.setB; split <;> rfl
@[simp] theorem Pick.setB_uncovered (p : Pick) (n : BitVec 3) (v : Bool) : (p.setB n v).uncovered = p.uncovered := by unfold Pick.setB; split <;> rfl
@[simp] theorem Pick.setB_wait (p : Pick) (n : BitVec 3) (v : Bool) : (p.setB n v).wait = p.wait := by unfold Pick.setB; split <;> rfl
@[simp] theorem Pick.setB_mode (p : Pick) (n : BitVec 3) (v : Bool) : (p.setB n v).mode = p.mode := by unfold Pick.setB; split <;> rfl
@[simp] theorem Pick.setB_trec (p : Pick) (n : BitVec 3) (v : Bool) : (p.setB n v).trec = p.trec := by unfold Pick.setB; split <;> rfl
@[simp] theorem Pick.setB_held (p : Pick) (n : BitVec 3) (v : Bool) : (p.setB n v).held = p.held := by unfold Pick.setB; split <;> rfl
@[simp] theorem Pick.setB_bkExempt (p : Pick) (n : BitVec 3) (v : Bool) : (p.setB n v).bkExempt = p.bkExempt := by unfold Pick.setB; split <;> rfl
@[simp] theorem Pick.setB_cych (p : Pick) (n : BitVec 3) (v : Bool) : (p.setB n v).cych = p.cych := by unfold Pick.setB; split <;> rfl
@[simp] theorem Pick.setB_cycd (p : Pick) (n : BitVec 3) (v : Bool) : (p.setB n v).cycd = p.cycd := by unfold Pick.setB; split <;> rfl
@[simp] theorem Pick.setB_parked (p : Pick) (n : BitVec 3) (v : Bool) : (p.setB n v).parked = p.parked := by unfold Pick.setB; split <;> rfl
@[simp] theorem Pick.setB_parkOrd (p : Pick) (n : BitVec 3) (v : Bool) : (p.setB n v).parkOrd = p.parkOrd := by unfold Pick.setB; split <;> rfl
@[simp] theorem Pick.setB_spilled (p : Pick) (n : BitVec 3) (v : Bool) : (p.setB n v).spilled = p.spilled := by unfold Pick.setB; split <;> rfl
@[simp] theorem Pick.setB_parkWant (p : Pick) (n : BitVec 3) (v : Bool) : (p.setB n v).parkWant = p.parkWant := by unfold Pick.setB; split <;> rfl
@[simp] theorem Pick.setB_dieLost (p : Pick) (n : BitVec 3) (v : Bool) : (p.setB n v).dieLost = p.dieLost := by unfold Pick.setB; split <;> rfl
@[simp] theorem Pick.setB_xfences (p : Pick) (n : BitVec 3) (v : Bool) : (p.setB n v).xfences = p.xfences := by unfold Pick.setB; split <;> rfl
@[simp] theorem Pick.setB_xseq (p : Pick) (n : BitVec 3) (v : Bool) : (p.setB n v).xseq = p.xseq := by unfold Pick.setB; split <;> rfl
@[simp] theorem Pick.setB_huncovered (p : Pick) (n : BitVec 3) (v : Bool) : (p.setB n v).huncovered = p.huncovered := by unfold Pick.setB; split <;> rfl
@[simp] theorem Pick.setB_clk (p : Pick) (n : BitVec 3) (v : Bool) : (p.setB n v).clk = p.clk := by unfold Pick.setB; split <;> rfl
@[simp] theorem Pick.setB_nextLane (p : Pick) (n : BitVec 3) (v : Bool) : (p.setB n v).nextLane = p.nextLane := by unfold Pick.setB; split <;> rfl
@[simp] theorem Pick.setB_relFence (p : Pick) (n : BitVec 3) (v : Bool) : (p.setB n v).relFence = p.relFence := by unfold Pick.setB; split <;> rfl
@[simp] theorem Pick.setB_rlxSeen (p : Pick) (n : BitVec 3) (v : Bool) : (p.setB n v).rlxSeen = p.rlxSeen := by unfold Pick.setB; split <;> rfl
@[simp] theorem Pick.setB_owed (p : Pick) (n : BitVec 3) (v : Bool) : (p.setB n v).owed = p.owed := by unfold Pick.setB; split <;> rfl
@[simp] theorem Pick.setB_closing (p : Pick) (n : BitVec 3) (v : Bool) : (p.setB n v).closing = p.closing := by unfold Pick.setB; split <;> rfl
@[simp] theorem Pick.setB_lastS (p : Pick) (n : BitVec 3) (v : Bool) : (p.setB n v).lastS = p.lastS := by unfold Pick.setB; split <;> rfl
@[simp] theorem Pick.setB_passedS (p : Pick) (n : BitVec 3) (v : Bool) : (p.setB n v).passedS = p.passedS := by unfold Pick.setB; split <;> rfl
@[simp] theorem Pick.setB_puts (p : Pick) (n : BitVec 3) (v : Bool) : (p.setB n v).puts = p.puts := by unfold Pick.setB; split <;> rfl
@[simp] theorem Pick.setB_aborts (p : Pick) (n : BitVec 3) (v : Bool) : (p.setB n v).aborts = p.aborts := by unfold Pick.setB; split <;> rfl
@[simp] theorem Pick.setB_moved (p : Pick) (n : BitVec 3) (v : Bool) : (p.setB n v).moved = p.moved := by unfold Pick.setB; split <;> rfl
@[simp] theorem Pick.setBlocks_live (p : Pick) (q : List Block) : (p.setBlocks q).live = p.live := by unfold Pick.setBlocks; split <;> rfl
@[simp] theorem Pick.setBlocks_team (p : Pick) (q : List Block) : (p.setBlocks q).team = p.team := by unfold Pick.setBlocks; split <;> rfl
@[simp] theorem Pick.setBlocks_index (p : Pick) (q : List Block) : (p.setBlocks q).index = p.index := by unfold Pick.setBlocks; split <;> rfl
@[simp] theorem Pick.setBlocks_role (p : Pick) (q : List Block) : (p.setBlocks q).role = p.role := by unfold Pick.setBlocks; split <;> rfl
@[simp] theorem Pick.setBlocks_qidx (p : Pick) (q : List Block) : (p.setBlocks q).qidx = p.qidx := by unfold Pick.setBlocks; split <;> rfl
@[simp] theorem Pick.setBlocks_slot (p : Pick) (q : List Block) : (p.setBlocks q).slot = p.slot := by unfold Pick.setBlocks; split <;> rfl
@[simp] theorem Pick.setBlocks_reservation (p : Pick) (q : List Block) : (p.setBlocks q).reservation = p.reservation := by unfold Pick.setBlocks; split <;> rfl
@[simp] theorem Pick.setBlocks_spc (p : Pick) (q : List Block) : (p.setBlocks q).spc = p.spc := by unfold Pick.setBlocks; split <;> rfl
@[simp] theorem Pick.setBlocks_wb (p : Pick) (q : List Block) : (p.setBlocks q).wb = p.wb := by unfold Pick.setBlocks; split <;> rfl
@[simp] theorem Pick.setBlocks_sregs (p : Pick) (q : List Block) : (p.setBlocks q).sregs = p.sregs := by unfold Pick.setBlocks; split <;> rfl
@[simp] theorem Pick.setBlocks_spoison (p : Pick) (q : List Block) : (p.setBlocks q).spoison = p.spoison := by unfold Pick.setBlocks; split <;> rfl
@[simp] theorem Pick.setBlocks_bpred (p : Pick) (q : List Block) : (p.setBlocks q).bpred = p.bpred := by unfold Pick.setBlocks; split <;> rfl
@[simp] theorem Pick.setBlocks_fmtr (p : Pick) (q : List Block) : (p.setBlocks q).fmtr = p.fmtr := by unfold Pick.setBlocks; split <;> rfl
@[simp] theorem Pick.setBlocks_tcfg (p : Pick) (q : List Block) : (p.setBlocks q).tcfg = p.tcfg := by unfold Pick.setBlocks; split <;> rfl
@[simp] theorem Pick.setBlocks_gang (p : Pick) (q : List Block) : (p.setBlocks q).gang = p.gang := by unfold Pick.setBlocks; split <;> rfl
@[simp] theorem Pick.setBlocks_seed (p : Pick) (q : List Block) : (p.setBlocks q).seed = p.seed := by unfold Pick.setBlocks; split <;> rfl
@[simp] theorem Pick.setBlocks_fmask (p : Pick) (q : List Block) : (p.setBlocks q).fmask = p.fmask := by unfold Pick.setBlocks; split <;> rfl
@[simp] theorem Pick.setBlocks_names (p : Pick) (q : List Block) : (p.setBlocks q).names = p.names := by unfold Pick.setBlocks; split <;> rfl
@[simp] theorem Pick.setBlocks_preds (p : Pick) (q : List Block) : (p.setBlocks q).preds = p.preds := by unfold Pick.setBlocks; split <;> rfl
@[simp] theorem Pick.setBlocks_ppoison (p : Pick) (q : List Block) : (p.setBlocks q).ppoison = p.ppoison := by unfold Pick.setBlocks; split <;> rfl
@[simp] theorem Pick.setBlocks_paths (p : Pick) (q : List Block) : (p.setBlocks q).paths = p.paths := by unfold Pick.setBlocks; split <;> rfl
@[simp] theorem Pick.setBlocks_lanes (p : Pick) (q : List Block) : (p.setBlocks q).lanes = p.lanes := by unfold Pick.setBlocks; split <;> rfl
@[simp] theorem Pick.setBlocks_hlanes (p : Pick) (q : List Block) : (p.setBlocks q).hlanes = p.hlanes := by unfold Pick.setBlocks; split <;> rfl
@[simp] theorem Pick.setBlocks_pending (p : Pick) (q : List Block) : (p.setBlocks q).pending = p.pending := by unfold Pick.setBlocks; split <;> rfl
@[simp] theorem Pick.setBlocks_pseq (p : Pick) (q : List Block) : (p.setBlocks q).pseq = p.pseq := by unfold Pick.setBlocks; split <;> rfl
@[simp] theorem Pick.setBlocks_txs (p : Pick) (q : List Block) : (p.setBlocks q).txs = p.txs := by unfold Pick.setBlocks; split <;> rfl
@[simp] theorem Pick.setBlocks_uncovered (p : Pick) (q : List Block) : (p.setBlocks q).uncovered = p.uncovered := by unfold Pick.setBlocks; split <;> rfl
@[simp] theorem Pick.setBlocks_wait (p : Pick) (q : List Block) : (p.setBlocks q).wait = p.wait := by unfold Pick.setBlocks; split <;> rfl
@[simp] theorem Pick.setBlocks_mode (p : Pick) (q : List Block) : (p.setBlocks q).mode = p.mode := by unfold Pick.setBlocks; split <;> rfl
@[simp] theorem Pick.setBlocks_trec (p : Pick) (q : List Block) : (p.setBlocks q).trec = p.trec := by unfold Pick.setBlocks; split <;> rfl
@[simp] theorem Pick.setBlocks_held (p : Pick) (q : List Block) : (p.setBlocks q).held = p.held := by unfold Pick.setBlocks; split <;> rfl
@[simp] theorem Pick.setBlocks_bkExempt (p : Pick) (q : List Block) : (p.setBlocks q).bkExempt = p.bkExempt := by unfold Pick.setBlocks; split <;> rfl
@[simp] theorem Pick.setBlocks_cych (p : Pick) (q : List Block) : (p.setBlocks q).cych = p.cych := by unfold Pick.setBlocks; split <;> rfl
@[simp] theorem Pick.setBlocks_cycd (p : Pick) (q : List Block) : (p.setBlocks q).cycd = p.cycd := by unfold Pick.setBlocks; split <;> rfl
@[simp] theorem Pick.setBlocks_parked (p : Pick) (q : List Block) : (p.setBlocks q).parked = p.parked := by unfold Pick.setBlocks; split <;> rfl
@[simp] theorem Pick.setBlocks_parkOrd (p : Pick) (q : List Block) : (p.setBlocks q).parkOrd = p.parkOrd := by unfold Pick.setBlocks; split <;> rfl
@[simp] theorem Pick.setBlocks_spilled (p : Pick) (q : List Block) : (p.setBlocks q).spilled = p.spilled := by unfold Pick.setBlocks; split <;> rfl
@[simp] theorem Pick.setBlocks_parkWant (p : Pick) (q : List Block) : (p.setBlocks q).parkWant = p.parkWant := by unfold Pick.setBlocks; split <;> rfl
@[simp] theorem Pick.setBlocks_dieLost (p : Pick) (q : List Block) : (p.setBlocks q).dieLost = p.dieLost := by unfold Pick.setBlocks; split <;> rfl
@[simp] theorem Pick.setBlocks_xfences (p : Pick) (q : List Block) : (p.setBlocks q).xfences = p.xfences := by unfold Pick.setBlocks; split <;> rfl
@[simp] theorem Pick.setBlocks_xseq (p : Pick) (q : List Block) : (p.setBlocks q).xseq = p.xseq := by unfold Pick.setBlocks; split <;> rfl
@[simp] theorem Pick.setBlocks_huncovered (p : Pick) (q : List Block) : (p.setBlocks q).huncovered = p.huncovered := by unfold Pick.setBlocks; split <;> rfl
@[simp] theorem Pick.setBlocks_clk (p : Pick) (q : List Block) : (p.setBlocks q).clk = p.clk := by unfold Pick.setBlocks; split <;> rfl
@[simp] theorem Pick.setBlocks_nextLane (p : Pick) (q : List Block) : (p.setBlocks q).nextLane = p.nextLane := by unfold Pick.setBlocks; split <;> rfl
@[simp] theorem Pick.setBlocks_relFence (p : Pick) (q : List Block) : (p.setBlocks q).relFence = p.relFence := by unfold Pick.setBlocks; split <;> rfl
@[simp] theorem Pick.setBlocks_rlxSeen (p : Pick) (q : List Block) : (p.setBlocks q).rlxSeen = p.rlxSeen := by unfold Pick.setBlocks; split <;> rfl
@[simp] theorem Pick.setBlocks_owed (p : Pick) (q : List Block) : (p.setBlocks q).owed = p.owed := by unfold Pick.setBlocks; split <;> rfl
@[simp] theorem Pick.setBlocks_closing (p : Pick) (q : List Block) : (p.setBlocks q).closing = p.closing := by unfold Pick.setBlocks; split <;> rfl
@[simp] theorem Pick.setBlocks_lastS (p : Pick) (q : List Block) : (p.setBlocks q).lastS = p.lastS := by unfold Pick.setBlocks; split <;> rfl
@[simp] theorem Pick.setBlocks_passedS (p : Pick) (q : List Block) : (p.setBlocks q).passedS = p.passedS := by unfold Pick.setBlocks; split <;> rfl
@[simp] theorem Pick.setBlocks_puts (p : Pick) (q : List Block) : (p.setBlocks q).puts = p.puts := by unfold Pick.setBlocks; split <;> rfl
@[simp] theorem Pick.setBlocks_aborts (p : Pick) (q : List Block) : (p.setBlocks q).aborts = p.aborts := by unfold Pick.setBlocks; split <;> rfl
@[simp] theorem Pick.setBlocks_moved (p : Pick) (q : List Block) : (p.setBlocks q).moved = p.moved := by unfold Pick.setBlocks; split <;> rfl
@[simp] theorem Pick.setLs_live (p : Pick) (l : LaneSet) : (p.setLs l).live = p.live := by unfold Pick.setLs; split <;> rfl
@[simp] theorem Pick.setLs_team (p : Pick) (l : LaneSet) : (p.setLs l).team = p.team := by unfold Pick.setLs; split <;> rfl
@[simp] theorem Pick.setLs_index (p : Pick) (l : LaneSet) : (p.setLs l).index = p.index := by unfold Pick.setLs; split <;> rfl
@[simp] theorem Pick.setLs_role (p : Pick) (l : LaneSet) : (p.setLs l).role = p.role := by unfold Pick.setLs; split <;> rfl
@[simp] theorem Pick.setLs_qidx (p : Pick) (l : LaneSet) : (p.setLs l).qidx = p.qidx := by unfold Pick.setLs; split <;> rfl
@[simp] theorem Pick.setLs_slot (p : Pick) (l : LaneSet) : (p.setLs l).slot = p.slot := by unfold Pick.setLs; split <;> rfl
@[simp] theorem Pick.setLs_reservation (p : Pick) (l : LaneSet) : (p.setLs l).reservation = p.reservation := by unfold Pick.setLs; split <;> rfl
@[simp] theorem Pick.setLs_spc (p : Pick) (l : LaneSet) : (p.setLs l).spc = p.spc := by unfold Pick.setLs; split <;> rfl
@[simp] theorem Pick.setLs_wb (p : Pick) (l : LaneSet) : (p.setLs l).wb = p.wb := by unfold Pick.setLs; split <;> rfl
@[simp] theorem Pick.setLs_sregs (p : Pick) (l : LaneSet) : (p.setLs l).sregs = p.sregs := by unfold Pick.setLs; split <;> rfl
@[simp] theorem Pick.setLs_spoison (p : Pick) (l : LaneSet) : (p.setLs l).spoison = p.spoison := by unfold Pick.setLs; split <;> rfl
@[simp] theorem Pick.setLs_bpred (p : Pick) (l : LaneSet) : (p.setLs l).bpred = p.bpred := by unfold Pick.setLs; split <;> rfl
@[simp] theorem Pick.setLs_fmtr (p : Pick) (l : LaneSet) : (p.setLs l).fmtr = p.fmtr := by unfold Pick.setLs; split <;> rfl
@[simp] theorem Pick.setLs_tcfg (p : Pick) (l : LaneSet) : (p.setLs l).tcfg = p.tcfg := by unfold Pick.setLs; split <;> rfl
@[simp] theorem Pick.setLs_gang (p : Pick) (l : LaneSet) : (p.setLs l).gang = p.gang := by unfold Pick.setLs; split <;> rfl
@[simp] theorem Pick.setLs_seed (p : Pick) (l : LaneSet) : (p.setLs l).seed = p.seed := by unfold Pick.setLs; split <;> rfl
@[simp] theorem Pick.setLs_fmask (p : Pick) (l : LaneSet) : (p.setLs l).fmask = p.fmask := by unfold Pick.setLs; split <;> rfl
@[simp] theorem Pick.setLs_names (p : Pick) (l : LaneSet) : (p.setLs l).names = p.names := by unfold Pick.setLs; split <;> rfl
@[simp] theorem Pick.setLs_preds (p : Pick) (l : LaneSet) : (p.setLs l).preds = p.preds := by unfold Pick.setLs; split <;> rfl
@[simp] theorem Pick.setLs_ppoison (p : Pick) (l : LaneSet) : (p.setLs l).ppoison = p.ppoison := by unfold Pick.setLs; split <;> rfl
@[simp] theorem Pick.setLs_paths (p : Pick) (l : LaneSet) : (p.setLs l).paths = p.paths := by unfold Pick.setLs; split <;> rfl
@[simp] theorem Pick.setLs_queue (p : Pick) (l : LaneSet) : (p.setLs l).queue = p.queue := by unfold Pick.setLs; split <;> rfl
@[simp] theorem Pick.setLs_hqueue (p : Pick) (l : LaneSet) : (p.setLs l).hqueue = p.hqueue := by unfold Pick.setLs; split <;> rfl
@[simp] theorem Pick.setLs_pending (p : Pick) (l : LaneSet) : (p.setLs l).pending = p.pending := by unfold Pick.setLs; split <;> rfl
@[simp] theorem Pick.setLs_pseq (p : Pick) (l : LaneSet) : (p.setLs l).pseq = p.pseq := by unfold Pick.setLs; split <;> rfl
@[simp] theorem Pick.setLs_txs (p : Pick) (l : LaneSet) : (p.setLs l).txs = p.txs := by unfold Pick.setLs; split <;> rfl
@[simp] theorem Pick.setLs_uncovered (p : Pick) (l : LaneSet) : (p.setLs l).uncovered = p.uncovered := by unfold Pick.setLs; split <;> rfl
@[simp] theorem Pick.setLs_wait (p : Pick) (l : LaneSet) : (p.setLs l).wait = p.wait := by unfold Pick.setLs; split <;> rfl
@[simp] theorem Pick.setLs_mode (p : Pick) (l : LaneSet) : (p.setLs l).mode = p.mode := by unfold Pick.setLs; split <;> rfl
@[simp] theorem Pick.setLs_trec (p : Pick) (l : LaneSet) : (p.setLs l).trec = p.trec := by unfold Pick.setLs; split <;> rfl
@[simp] theorem Pick.setLs_held (p : Pick) (l : LaneSet) : (p.setLs l).held = p.held := by unfold Pick.setLs; split <;> rfl
@[simp] theorem Pick.setLs_bkExempt (p : Pick) (l : LaneSet) : (p.setLs l).bkExempt = p.bkExempt := by unfold Pick.setLs; split <;> rfl
@[simp] theorem Pick.setLs_cych (p : Pick) (l : LaneSet) : (p.setLs l).cych = p.cych := by unfold Pick.setLs; split <;> rfl
@[simp] theorem Pick.setLs_cycd (p : Pick) (l : LaneSet) : (p.setLs l).cycd = p.cycd := by unfold Pick.setLs; split <;> rfl
@[simp] theorem Pick.setLs_parked (p : Pick) (l : LaneSet) : (p.setLs l).parked = p.parked := by unfold Pick.setLs; split <;> rfl
@[simp] theorem Pick.setLs_parkOrd (p : Pick) (l : LaneSet) : (p.setLs l).parkOrd = p.parkOrd := by unfold Pick.setLs; split <;> rfl
@[simp] theorem Pick.setLs_spilled (p : Pick) (l : LaneSet) : (p.setLs l).spilled = p.spilled := by unfold Pick.setLs; split <;> rfl
@[simp] theorem Pick.setLs_parkWant (p : Pick) (l : LaneSet) : (p.setLs l).parkWant = p.parkWant := by unfold Pick.setLs; split <;> rfl
@[simp] theorem Pick.setLs_dieLost (p : Pick) (l : LaneSet) : (p.setLs l).dieLost = p.dieLost := by unfold Pick.setLs; split <;> rfl
@[simp] theorem Pick.setLs_xfences (p : Pick) (l : LaneSet) : (p.setLs l).xfences = p.xfences := by unfold Pick.setLs; split <;> rfl
@[simp] theorem Pick.setLs_xseq (p : Pick) (l : LaneSet) : (p.setLs l).xseq = p.xseq := by unfold Pick.setLs; split <;> rfl
@[simp] theorem Pick.setLs_huncovered (p : Pick) (l : LaneSet) : (p.setLs l).huncovered = p.huncovered := by unfold Pick.setLs; split <;> rfl
@[simp] theorem Pick.setLs_clk (p : Pick) (l : LaneSet) : (p.setLs l).clk = p.clk := by unfold Pick.setLs; split <;> rfl
@[simp] theorem Pick.setLs_nextLane (p : Pick) (l : LaneSet) : (p.setLs l).nextLane = p.nextLane := by unfold Pick.setLs; split <;> rfl
@[simp] theorem Pick.setLs_relFence (p : Pick) (l : LaneSet) : (p.setLs l).relFence = p.relFence := by unfold Pick.setLs; split <;> rfl
@[simp] theorem Pick.setLs_rlxSeen (p : Pick) (l : LaneSet) : (p.setLs l).rlxSeen = p.rlxSeen := by unfold Pick.setLs; split <;> rfl
@[simp] theorem Pick.setLs_owed (p : Pick) (l : LaneSet) : (p.setLs l).owed = p.owed := by unfold Pick.setLs; split <;> rfl
@[simp] theorem Pick.setLs_closing (p : Pick) (l : LaneSet) : (p.setLs l).closing = p.closing := by unfold Pick.setLs; split <;> rfl
@[simp] theorem Pick.setLs_lastS (p : Pick) (l : LaneSet) : (p.setLs l).lastS = p.lastS := by unfold Pick.setLs; split <;> rfl
@[simp] theorem Pick.setLs_passedS (p : Pick) (l : LaneSet) : (p.setLs l).passedS = p.passedS := by unfold Pick.setLs; split <;> rfl
@[simp] theorem Pick.setLs_puts (p : Pick) (l : LaneSet) : (p.setLs l).puts = p.puts := by unfold Pick.setLs; split <;> rfl
@[simp] theorem Pick.setLs_aborts (p : Pick) (l : LaneSet) : (p.setLs l).aborts = p.aborts := by unfold Pick.setLs; split <;> rfl
@[simp] theorem Pick.setLs_moved (p : Pick) (l : LaneSet) : (p.setLs l).moved = p.moved := by unfold Pick.setLs; split <;> rfl
@[simp] theorem Pick.setPath_path_self (p : Pick) (n : Nat) (x : PathState) : (p.setPath n x).path n = x :=
  tget_tput_self ({} : PathState) p.paths n x
theorem Pick.setPath_path_ne (p : Pick) (n : Nat) (x : PathState) {j : Nat} (h : j ≠ n) : (p.setPath n x).path j = p.path j :=
  tget_tput_ne ({} : PathState) p.paths x h
@[simp] theorem Pick.setName_name_self (p : Pick) (n : Nat) (x : Name) : (p.setName n x).name n = x :=
  tget_tput_self ({} : Name) p.names n x
theorem Pick.setName_name_ne (p : Pick) (n : Nat) (x : Name) {j : Nat} (h : j ≠ n) : (p.setName n x).name j = p.name j :=
  tget_tput_ne ({} : Name) p.names x h
@[simp] theorem Pick.setBlocks_blocks (p : Pick) (q : List Block) : (p.setBlocks q).blocks = q := by
  unfold Pick.setBlocks Pick.blocks; split <;> simp_all
@[simp] theorem Pick.setLs_ls (p : Pick) (l : LaneSet) : (p.setLs l).ls = l := by
  unfold Pick.setLs Pick.ls; split <;> simp_all
@[simp] theorem Pick.setLs_blocks (p : Pick) (l : LaneSet) : (p.setLs l).blocks = p.blocks := by
  unfold Pick.setLs Pick.blocks; split <;> simp_all
@[simp] theorem Pick.setBlocks_ls (p : Pick) (q : List Block) : (p.setBlocks q).ls = p.ls := by
  unfold Pick.setBlocks Pick.ls; split <;> simp_all
@[simp] theorem LaneSet.setStrand_frags (l : LaneSet) (n : Nat) (x : Strand) : (l.setStrand n x).frags = l.frags := rfl
theorem LaneSet.setStrand_strand (l : LaneSet) (n : Nat) (x : Strand) (j : Nat) :
    (l.setStrand n x).strand j = if j = n then x else l.strand j := tget_tput ({} : Strand) l.strands j n x
@[simp] theorem LaneSet.repartition_strand (l : LaneSet) (n : Nat) : l.repartition.strand n = l.strand n := rfl

end Sys2Proof.Machine
end

