-- ==== Sys2Proof/Laws/Scalar.lean ====
section
/-! SUPPORT. What the shared operations of the S-stream do: register operands, writing a register, going on. -/

namespace Sys2Proof.Machine

/-- The parts of readiness. -/
theorem State.regsReady_iff {s : State} {reads writes : List (BitVec 6)} :
    s.regsReady reads writes = true ↔ s.frameHit (reads ++ writes) = none ∧ s.poisonHit reads = none ∧
      ∀ r ∈ reads ++ writes, r = 0 ∨ s.pick.priorOf (s.pick.abs r) = none := by
  simp only [State.regsReady, Bool.and_eq_true, Option.isNone_iff_eq_none, List.all_eq_true, Bool.or_eq_true, beq_iff_eq,
    and_assoc]

/-- A ready instruction goes on with the values of its registers. -/
theorem State.withOperands_ready {s : State} {reads writes : List (BitVec 6)} (h : s.regsReady reads writes = true)
    (k : (BitVec 6 → Word) → Out) : s.withOperands reads writes k = k s.readS := by
  obtain ⟨h1, h2, -⟩ := State.regsReady_iff.mp h
  simp [State.withOperands, h1, h2]

/-- The value of a ready source register. -/
theorem State.readS_ready {s : State} {reads writes : List (BitVec 6)} (h : s.regsReady reads writes = true)
    {r : BitVec 6} (hr : r ∈ reads ++ writes) : s.readS r = s.pick.w r := by
  obtain ⟨-, -, h3⟩ := State.regsReady_iff.mp h
  rcases h3 r hr with h0 | h0
  · simp [State.readS, Pick.w, h0]
  · simp only [State.readS, h0, Pick.w]
    split <;> simp_all

/-- A ready destination register takes the value. -/
theorem State.setS_ready {s : State} {reads writes : List (BitVec 6)} (h : s.regsReady reads writes = true)
    {r : BitVec 6} (hr : r ∈ reads ++ writes) (v : Word) : s.setS r v = if r = 0 then s else s.setPick (s.pick.setW r v) := by
  obtain ⟨-, -, h3⟩ := State.regsReady_iff.mp h
  rcases h3 r hr with h0 | h0
  · simp [State.setS, h0]
  · simp [State.setS, h0]

/-- A counter moves by n, saturating, and nothing else of any die does. -/
theorem State.count_counted (s : State) (die c n : Nat) : Counted s (s.count die c n) die c n := by
  refine ⟨fun k => ?_, fun k j => ?_⟩
  · obtain ⟨x, hx⟩ := s.count_dieAt die c n k
    rw [hx]
  · simp only [State.count, State.setDieAt_dieAt]
    by_cases hk : k = die
    · subst hk
      simp only [if_true, tget_tput, true_and]
      by_cases hj : j = c
      · subst hj
        simp only [if_true]
        split
        · rw [BitVec.toNat_ofNat, Nat.mod_eq_of_lt ‹_›]; omega
        · rw [BitVec.toNat_allOnes]; omega
      · simp [hj]
    · simp [hk]

/-- Only the dies count. -/
theorem Counted.of_dies {s s' t : State} {d c n : Nat} (h : s'.dies = s.dies) (w : Counted s' t d c n) :
    Counted s t d c n := by
  have e : s'.dieAt = s.dieAt := by funext k; simp [State.dieAt, h]
  simpa [Counted, e] using w

/-- Replacing the focus pick leaves everything else. -/
theorem State.setPick_only (s : State) (p : Pick) : OnlyPick s (s.setPick p) :=
  ⟨rfl, fun _ h => State.setPick_pickAt_ne s p h⟩

/-- The same with a counter that moves. -/
theorem State.setPick_count_only (s : State) (p : Pick) (d c n : Nat) : OnlyPick s ((s.setPick p).count d c n) :=
  ⟨rfl, fun _ h => State.setPick_pickAt_ne s p h⟩

/-- A counter that moves is no change of a pick. -/
theorem State.count_only (s : State) (d c n : Nat) : OnlyPick s (s.count d c n) := ⟨rfl, fun _ _ => rfl⟩

/-- Changes of the focus pick one after the other. -/
theorem OnlyPick.trans {s t u : State} (h1 : OnlyPick s t) (h2 : OnlyPick t u) : OnlyPick s u := by
  obtain ⟨e1, k1⟩ := h1
  obtain ⟨e2, k2⟩ := h2
  have hc : t.cur = s.cur := (congrArg State.cur e1 :)
  refine ⟨?_, fun k hk => (k2 k (by rw [hc]; exact hk)).trans (k1 k hk)⟩
  cases s; cases t; cases u
  simp only [State.mk.injEq] at e1 e2 ⊢
  simp_all

/-- A write of a window register, as its pick shows it. -/
theorem Pick.setW_wrote (p : Pick) (r : BitVec 6) (v : Word) : p.wrote (if r = 0 then p else p.setW r v) r v := by
  by_cases h : r = 0
  · simp [h, Pick.wrote]
  · simp only [Pick.wrote, Pick.setW, ne_eq, h, not_false_eq_true, true_and]
    exact ⟨fun n => tget_tput 0 p.sregs n _ v, fun n => by simp⟩

/-- A ready instruction that writes w(d) and goes on at an address. -/
theorem State.setS_goto_done {s : State} {reads writes : List (BitVec 6)} (h : s.regsReady reads writes = true)
    {d : BitVec 6} (hd : d ∈ reads ++ writes) (v pc : Word) : ScalarDone s ((s.setS d v).goto pc) d v pc := by
  rw [State.setS_ready h hd]
  have hw := Pick.setW_wrote s.pick d v
  have hp : (if d = 0 then s else s.setPick (s.pick.setW d v)).pick = if d = 0 then s.pick else s.pick.setW d v := by
    split <;> simp
  have ho : OnlyPick s (if d = 0 then s else s.setPick (s.pick.setW d v)) := by
    split
    · exact ⟨rfl, fun _ _ => rfl⟩
    · exact State.setPick_only _ _
  have ht : (if d = 0 then s else s.setPick (s.pick.setW d v)).team = s.team := by
    split
    · rfl
    · exact State.setPick_team s _ (by simp)
  have hi : (if d = 0 then s else s.setPick (s.pick.setW d v)).dies = s.dies := by split <;> rfl
  have hs : s.pick.sameButScalars (if d = 0 then s.pick else s.pick.setW d v) := by
    split
    · rfl
    · simp only [Pick.sameButScalars, Pick.setW, if_neg ‹_›]
  have hf : (if d = 0 then s else s.setPick (s.pick.setW d v)).fresh = s.fresh := by split <;> rfl
  generalize (if d = 0 then s else s.setPick (s.pick.setW d v)) = u at hp ho ht hi hf ⊢
  refine ⟨ho.trans ((State.setPick_only _ _).trans (State.count_only _ _ _ _)), ?_, ?_, ?_, ?_, ?_, ?_⟩
  · simp only [State.goto, ht]
    exact Counted.of_dies (s' := u.setPick _) hi (State.count_counted _ _ _ _)
  · simp only [State.goto, State.count_pick, State.setPick_pick, hp]
    exact hs
  · simp only [State.goto, State.count_pick, State.setPick_pick, hp]
    exact hw
  · simp [State.goto]
  · simp [State.goto]
  · simp [State.goto, hf]

theorem State.advance_eq_goto (s : State) : s.advance = s.goto s.nextPc := by
  have h : s.nextPc = s.pick.spc + 4 := by
    apply BitVec.eq_of_toNat_eq; simp [State.nextPc]
  rw [h]; rfl

/-- A ready instruction that writes w(d) and goes on in sequence. -/
theorem State.setS_advance_wrote {s : State} {reads writes : List (BitVec 6)} (h : s.regsReady reads writes = true)
    {d : BitVec 6} (hd : d ∈ reads ++ writes) (v : Word) : ScalarWrote s ((s.setS d v).advance) d v := by
  have hp : ((s.setS d v)).nextPc = s.nextPc := by
    rw [State.setS_ready h hd]
    split
    · rfl
    · simp [State.nextPc]
  rw [State.advance_eq_goto, hp]
  exact State.setS_goto_done h hd v _

/-- SADD and the instructions of its shape: w(d) := f(w(a), w(b)). -/
theorem State.alu2_wrote {s : State} {d a b : BitVec 6} (h : s.regsReady [a, b] [d] = true) (f : Word → Word → Word) :
    ∃ t, s.alu2 d a b f = .next t ∧ ScalarWrote s t d (f (s.pick.w a) (s.pick.w b)) := by
  refine ⟨_, State.withOperands_ready h _, ?_⟩
  rw [State.readS_ready h (by simp), State.readS_ready h (by simp)]
  exact State.setS_advance_wrote h (by simp) _

/-- SCLZ and the instructions of its shape: w(d) := f(w(a)). -/
theorem State.alu1_wrote {s : State} {d a : BitVec 6} (h : s.regsReady [a] [d] = true) (f : Word → Word) :
    ∃ t, s.alu1 d a f = .next t ∧ ScalarWrote s t d (f (s.pick.w a)) := by
  refine ⟨_, State.withOperands_ready h _, ?_⟩
  rw [State.readS_ready h (by simp)]
  exact State.setS_advance_wrote h (by simp) _

end Sys2Proof.Machine
end

