-- ==== Sys2Proof/Laws/Lane.lean ====
section
/-! SUPPORT. What the shared operations of lane instructions do: the gate, allocation, issuing a result, moving strands. -/

namespace Sys2Proof.Machine

@[simp] theorem Pick.setName_name (p : Pick) (k : Nat) (x : Name) (n : Nat) :
    (p.setName k x).name n = if n = k then x else p.name n := tget_tput _ _ _ _ _

/-- Names after one is freed (R90). -/
theorem Pick.freeName_name (p : Pick) (k n : Nat) :
    (p.freeName k).name n = if n = k ∧ (p.name n).st = .allocated then { st := .freed } else p.name n := by
  unfold Pick.freeName
  split
  · next h =>
    have : ({ p.setName k { st := .freed } with
      pending := p.pending.map (fun (q : Pending) => if q.dest = Dest.vreg k then { q with mask := 0 } else q) } : Pick).name n
        = (p.setName k { st := .freed }).name n := rfl
    rw [this, Pick.setName_name]
    by_cases e : n = k
    · subst e; simp [h]
    · simp [e]
  · next h =>
    by_cases e : n = k
    · subst e; simp [h]
    · simp [e]

/-- Names after a list of them is freed. -/
theorem Pick.freeNames_name (ks : List Nat) (p : Pick) (n : Nat) :
    (ks.foldl Pick.freeName p).name n = if n ∈ ks ∧ (p.name n).st = .allocated then { st := .freed } else p.name n := by
  induction ks generalizing p with
  | nil => simp
  | cons k ks ih =>
    rw [List.foldl_cons, ih, Pick.freeName_name]
    by_cases e : n = k
    · subst e
      by_cases h : (p.name n).st = .allocated <;> simp [h]
    · simp [e]

/-- Freeing names changes the names and the pending results alone. -/
theorem Pick.freeNames_same (ks : List Nat) (p : Pick) :
    { ks.foldl Pick.freeName p with names := p.names, pending := p.pending } = p := by
  induction ks generalizing p with
  | nil => rfl
  | cons k ks ih =>
    have h1 := ih (p.freeName k)
    have h2 : { p.freeName k with names := p.names, pending := p.pending } = p := by
      unfold Pick.freeName; split <;> rfl
    rw [List.foldl_cons]
    generalize ks.foldl Pick.freeName (p.freeName k) = q at h1 ⊢
    generalize p.freeName k = r at h1 h2
    cases p; cases q; cases r
    simp only [Pick.mk.injEq] at h1 h2 ⊢
    simp_all

/-- The pending results after names are freed: their lanes may go, and where no name of theirs is freed they stay. -/
theorem Pick.freeNames_pending (ks : List Nat) (p : Pick) :
    ∃ g : Pending → Pending, (ks.foldl Pick.freeName p).pending = p.pending.map g ∧
      ∀ a, g a = { a with mask := (g a).mask } ∧ (g a).mask &&& ~~~a.mask = 0 ∧
        ((∀ n ∈ ks, a.dest ≠ .vreg n) → g a = a) := by
  induction ks generalizing p with
  | nil => exact ⟨id, by simp, fun a => ⟨rfl, by simp, fun _ => rfl⟩⟩
  | cons k ks ih =>
    obtain ⟨g, hg, hs⟩ := ih (p.freeName k)
    by_cases h : (p.name k).st = .allocated
    · refine ⟨fun a => g (if a.dest = Dest.vreg k then { a with mask := 0 } else a), ?_, fun a => ?_⟩
      · rw [List.foldl_cons, hg]
        have : (p.freeName k).pending =
            p.pending.map (fun (q : Pending) => if q.dest = Dest.vreg k then { q with mask := 0 } else q) := by
          unfold Pick.freeName; rw [if_pos h]
        rw [this, List.map_map]; rfl
      · by_cases e : a.dest = Dest.vreg k
        · obtain ⟨h1, h2, h3⟩ := hs { a with mask := 0 }
          have hz : (g { a with mask := 0 }).mask = 0 := by
            have h4 : (g { a with mask := 0 }).mask &&& ~~~(0#32) = 0 := h2
            rwa [show ~~~(0#32) = BitVec.allOnes 32 from by decide, BitVec.and_allOnes] at h4
          refine ⟨?_, ?_, fun hn => absurd e (hn k (List.mem_cons_self ..))⟩ <;> simp only [if_pos e]
          · exact h1
          · rw [hz]; exact BitVec.zero_and
        · obtain ⟨h1, h2, h3⟩ := hs a
          simp only [if_neg e]
          exact ⟨h1, h2, fun hn => h3 (fun n hm => hn n (by simp [hm]))⟩
    · refine ⟨g, ?_, fun a => ?_⟩
      · rw [List.foldl_cons, hg]
        unfold Pick.freeName; rw [if_neg h]
      · obtain ⟨h1, h2, h3⟩ := hs a
        exact ⟨h1, h2, fun hn => h3 (fun n hm => hn n (by simp [hm]))⟩

/-- A strand after the instruction moved those of a list without repeats. -/
theorem LaneSet.foldStrands_strand (f : Nat → Strand → Strand) (ns : List Nat) (hn : ns.Nodup) (l : LaneSet) (n : Nat) :
    (ns.foldl (fun (l : LaneSet) k => l.setStrand k (f k (l.strand k))) l).strand n =
      if n ∈ ns then f n (l.strand n) else l.strand n := by
  induction ns generalizing l with
  | nil => simp
  | cons k ns ih =>
    obtain ⟨hk, hn'⟩ := List.nodup_cons.mp hn
    rw [List.foldl_cons, ih hn', LaneSet.setStrand_strand]
    by_cases e : n = k
    · subst e; simp [hk]
    · simp [e]

theorem ones_nodup (x n : Nat) : (ones x n).Nodup := by
  unfold ones; exact List.Nodup.filter _ List.nodup_range

/-- The focus pick after the strands of its fragment moved. -/
theorem State.laneDone_pick (s : State) (stall : BitVec 4) (m : Word) (move : Nat → Strand → Strand) :
    ∃ l : LaneSet, (s.laneDone stall m move).pick =
        { s.pick.setLs l with nextLane := s.pick.clk + max stall.toNat 1, parkWant := none } ∧
      ∀ n, l.strand n = if n ∈ s.fragment.members then
        Strand.settle (move n { s.pick.ls.strand n with
          dist := (s.pick.ls.strand n).dist + 1, issued := true, safept := none })
        else s.pick.ls.strand n := by
  let l1 : LaneSet := s.fragment.members.foldl (fun (l : LaneSet) k => l.setStrand k
    (Strand.settle (move k { l.strand k with dist := (l.strand k).dist + 1, issued := true, safept := none }))) s.pick.ls
  let f1 : Fragment := { s.fragment with lastIssue := s.fresh, rise := 0, passed := 0, exempt := false, noServe := [] }
  refine ⟨({ l1 with frags := l1.frags.set s.frag f1 } : LaneSet).repartition, ?_, ?_⟩
  · unfold State.laneDone
    simp only []
    split
    · rw [State.setPick_pick]
    · rw [State.count_pick, State.setTeam_pick, State.setPick_pick]
  · intro n
    rw [LaneSet.repartition_strand]
    exact LaneSet.foldStrands_strand (fun k x => Strand.settle (move k { x with dist := x.dist + 1, issued := true, safept := none }))
      _ (ones_nodup _ _) _ n

/-- What the end of a lane instruction changes outside its pick. -/
theorem State.laneDone_frame {s u : State} (ho : OnlyPick s u) (ht : u.pick.team = s.pick.team)
    (hd : ∀ k, { u.dieAt k with counters := (s.dieAt k).counters } = s.dieAt k) (stall : BitVec 4) (m : Word)
    (move : Nat → Strand → Strand) : LaneFrame s (u.laneDone stall m move) m := by
  obtain ⟨he, hp⟩ := ho
  have hc : u.cur = s.cur := (congrArg State.cur he :)
  have htm : u.teams = s.teams := (congrArg State.teams he :)
  have hta : ∀ k, u.teamAt k = s.teamAt k := fun k => by simp [State.teamAt, htm]
  unfold State.laneDone
  simp only []
  split
  · next h0 =>
    subst h0
    refine ⟨?_, fun k hk => ?_, fun k => ?_, fun k => ?_⟩
    · rw [← he]; rfl
    · rw [State.setPick_pickAt_ne _ _ (by rw [hc]; exact hk)]; exact hp k hk
    · simp [hta]
    · simpa using hd k
  · next h0 =>
    refine ⟨?_, fun k hk => ?_, fun k => ?_, fun k => ?_⟩
    · rw [← he]; rfl
    · rw [State.count_pickAt, State.setTeam_pickAt, State.setPick_pickAt_ne _ _ (by rw [hc]; exact hk)]; exact hp k hk
    · rw [State.count_teamAt]
      simp only [State.setTeam, State.setTeamAt_teamAt, State.setPick_pick, State.team]
      by_cases e : k = s.pick.team
      · subst e; simp [ht, hta, show ¬ m = 0#32 from h0]
      · simp [e, ht, hta]
    · have hz : ∀ (w : State) (d c n : Nat), w.dies = u.dies →
          { (w.count d c n).dieAt k with counters := (s.dieAt k).counters } = s.dieAt k := fun w d c n hw => by
        obtain ⟨x, hx⟩ := w.count_dieAt d c n k
        rw [hx, ← hd k]
        simp [State.dieAt, hw]
      exact hz _ _ _ _ rfl

/-- A running maximum is at least where it starts. -/
theorem foldl_max_ge {α : Type} (f : α → Nat) (l : List α) (a : Nat) : a ≤ l.foldl (fun a q => max a (f q)) a := by
  induction l generalizing a with
  | nil => exact Nat.le_refl _
  | cons e l ih => exact Nat.le_trans (Nat.le_max_left _ _) (ih _)

/-- What a write to x leaves of a pick: names but those the write allocates, the pending results but for lanes lost to
it, and its own result. -/
def WriteLeft (p q : Pick) (x : Dest) (m : Word) (vs : Lanes) (lat : Nat) : Prop :=
  { q with names := p.names, pending := p.pending, pseq := p.pseq } = p ∧
  (∀ n, q.name n = if n ∈ destNames (some x) ∧ m ≠ 0 ∧ (p.name n).st ≠ .allocated then { st := .allocated } else p.name n) ∧
  ∃ g : Pending → Pending, ∃ new, q.pending = p.pending.map g ++ new ∧
    (∀ a, g a = { a with mask := (g a).mask } ∧ (g a).mask &&& ~~~a.mask = 0 ∧ (a.dest ≠ x → g a = a)) ∧
    if m = 0 then new = [] else ∃ r, new = [r] ∧ r.dest = x ∧ r.isVar = false ∧ r.mask = m ∧ r.vals = vs ∧
      p.clk + lat ≤ r.due ∧ ((∀ e ∈ p.pending, e.dest = x → e.isVar = true) → r.due = p.clk + lat)

/-- The bits of a mask are the members of the list. -/
theorem maskOf_testBit (l : List Nat) (k : Nat) : (maskOf l).testBit k = decide (k ∈ l) := by
  have h : ∀ a : Nat, (l.foldl (fun a k => a ||| 2 ^ k) a).testBit k = (a.testBit k || decide (k ∈ l)) := by
    induction l with
    | nil => simp
    | cons e l ih =>
      intro a
      rw [List.foldl_cons, ih, Nat.testBit_or, Nat.testBit_two_pow]
      by_cases h : e = k
      · simp [h]
      · simp [h, Ne.symm h]
  simpa [maskOf] using h 0

theorem mem_ones {x n k : Nat} : k ∈ ones x n ↔ k < n ∧ x.testBit k = true := by
  simp [ones, bit]

/-- A mask without some of its lanes. -/
theorem maskOf_filter_sub (m : Word) (f : Nat → Bool) :
    BitVec.ofNat 32 (maskOf ((lanesOf m).filter f)) &&& ~~~m = 0 := by
  apply BitVec.eq_of_getLsbD_eq
  intro i hi
  simp only [BitVec.getLsbD_and, BitVec.getLsbD_ofNat, maskOf_testBit, BitVec.getLsbD_not, List.mem_filter, lanesOf]
  simp [BitVec.getLsbD, hi]
  grind

theorem writeLeft_of {p p1 : Pick} {x : Dest} {m : Word} {vs : Lanes} {lat : Nat} (h0 : m ≠ 0) (c : Pending → Bool)
    (f : Pending → Nat → Bool) (hc : ∀ a, c a = true → a.dest = x) (hs1 : { p1 with names := p.names } = p)
    (hs2 : ∀ n, p1.name n = if n ∈ destNames (some x) ∧ m ≠ 0 ∧ (p.name n).st ≠ .allocated then { st := .allocated }
      else p.name n) (pa b : Nat) :
    WriteLeft p { p1 with
      pseq := p1.pseq + 1
      pending := p1.pending.map (fun q => if c q then { q with mask := BitVec.ofNat 32 (maskOf ((lanesOf q.mask).filter (f q))) }
          else q) ++
        [⟨p1.pseq, x, m, vs, ((p1.pendingOn x).filter (fun q => !q.isVar)).foldl (fun a q => max a q.due) (p1.clk + lat),
          false, pa, b, 0, [], []⟩] } x m vs lat := by
  have hpend : p1.pending = p.pending := (congrArg Pick.pending hs1 :)
  have hclk : p1.clk = p.clk := (congrArg Pick.clk hs1 :)
  refine ⟨?_, hs2, _, _, congrArg (· ++ _) (congrArg (List.map _) hpend), fun a => ?_, ?_⟩
  · rw [← hs1]
  · by_cases h : c a = true
    · refine ⟨by simp only [if_pos h], by simp only [if_pos h]; exact maskOf_filter_sub _ _,
        fun hn => absurd (hc a h) hn⟩
    · refine ⟨by simp only [if_neg h], by simp only [if_neg h]; simp, fun _ => by simp only [if_neg h]⟩
  · rw [if_neg h0]
    refine ⟨_, rfl, rfl, rfl, rfl, rfl, ?_, fun he => ?_⟩
    · rw [← hclk]; exact foldl_max_ge (fun q : Pending => q.due) _ _
    · have : (p1.pendingOn x).filter (fun q => !q.isVar) = [] := by
        rw [List.filter_eq_nil_iff]
        intro q hq
        obtain ⟨h1, h2⟩ := List.mem_filter.mp hq
        rw [hpend] at h1
        simp [he q h1 (by simpa using h2)]
      simp only [this, List.foldl_nil, hclk]

theorem Pick.allocName_same (p : Pick) (k : Nat) : { p.allocName k with names := p.names } = p := by
  by_cases h : (p.name k).st = .allocated
  · rw [show p.allocName k = p from if_pos h]
  · rw [show p.allocName k = p.setName k { st := .allocated } from if_neg h]; rfl

/-- A write with a fixed latency, as its pick shows it (R89, R105, R107). -/
theorem State.addWrite_fixed (s : State) (p : Pick) {x : Dest} {m : Word} {vs : Lanes} {lat : Nat} (hx : x ≠ .nothing) :
    WriteLeft p ((s.addWrite p { dest := x, mask := m, vals := vs, lat := some lat }).joinWrite
      { dest := x, mask := m, vals := vs, lat := some lat }) x m vs lat := by
  have hj : ∀ (q : Pick), q.joinWrite { dest := x, mask := m, vals := vs, lat := some lat } = q := fun q => by
    simp [Pick.joinWrite]
  rw [hj]
  by_cases h0 : m = 0
  · have : s.addWrite p { dest := x, mask := m, vals := vs, lat := some lat } = p := by
      unfold State.addWrite; exact if_pos ⟨h0, hx⟩
    rw [this]
    exact ⟨rfl, fun n => by simp [h0], id, [], by simp, fun a => ⟨rfl, by simp, fun _ => rfl⟩, by simp [h0]⟩
  · have hw : ¬ (m = 0 ∧ x ≠ .nothing) := fun h => h0 h.1
    unfold State.addWrite
    simp only [if_neg hw]
    have key : ∀ p1 : Pick, { p1 with names := p.names } = p →
        (∀ n, p1.name n = if n ∈ destNames (some x) ∧ m ≠ 0 ∧ (p.name n).st ≠ .allocated then { st := .allocated }
          else p.name n) →
        WriteLeft p { p1 with
          pseq := p1.pseq + 1
          pending := p1.pending.map (fun (q : Pending) =>
            if q.dest = x ∧ q.isVar = true ∧ x ≠ .nothing then
              { q with mask := BitVec.ofNat 32 (maskOf ((lanesOf q.mask).filter
                (fun i => !(m.getLsbD i && s.free 10 (q.seq * 32 + i))))) }
            else q) ++
            [⟨p1.pseq, x, m, vs, ((p1.pendingOn x).filter (fun q => !q.isVar)).foldl (fun a q => max a q.due) (p1.clk + lat),
              false, 8, 0, 0, [], []⟩] } x m vs lat := fun p1 h1 h2 => by
      have := writeLeft_of (vs := vs) (lat := lat) h0 (fun q => decide (q.dest = x ∧ q.isVar = true ∧ x ≠ .nothing))
        (fun q i => !(m.getLsbD i && s.free 10 (q.seq * 32 + i))) (fun a ha => (of_decide_eq_true ha).1) h1 h2 8 0
      simpa only [decide_eq_true_eq] using this
    cases x with
    | vreg k =>
      refine key _ ?_ ?_
      · exact Pick.allocName_same p k
      · intro n
        simp only [Pick.allocName, destNames, Dest.lane, Option.bind_some, Option.toList_some, List.mem_singleton]
        by_cases h : (p.name k).st = .allocated
        · rw [if_pos h]
          by_cases e : n = k
          · subst e; simp [h]
          · simp [e]
        · rw [if_neg h, Pick.setName_name]
          by_cases e : n = k
          · subst e; simp [h, show ¬ m = 0#32 from h0]
          · simp [e]
    | _ => exact key p rfl (fun n => by simp [destNames, Dest.lane])

/-- The result that a write leaves, none for no destination or no active lane. -/
def NewResult (p : Pick) (dest : Option Dest) (m : Word) (vs : Lanes) (lat : Nat) (new : List Pending) : Prop :=
  match dest with
  | none => new = []
  | some x => if m = 0 then new = [] else ∃ r, new = [r] ∧ r.dest = x ∧ r.isVar = false ∧ r.mask = m ∧ r.vals = vs ∧
      p.clk + lat ≤ r.due ∧ ((∀ e ∈ p.pending, e.dest = x → e.isVar = true) → r.due = p.clk + lat)

/-- The values of a write are those that a function gives. -/
def ValuesFor (dest : Option Dest) (m : Word) (vs : Lanes) (val : Nat → Word) : Prop :=
  match dest with
  | none => True
  | some (.kreg _) => tget 0 vs 0 = val ((lanesOf m).headD 0)
  | some _ => ∀ i ∈ lanesOf m, tget 0 vs i = val i

/-- The write to a destination, if there is one. -/
def writesFor (dest : Option Dest) (m : Word) (vs : Lanes) (lat : Nat) : List Write :=
  match dest with
  | none => []
  | some x => [{ dest := x, mask := m, vals := vs, lat := some lat }]

theorem sub_trans {x y z : Word} (h1 : x &&& ~~~y = 0) (h2 : y &&& ~~~z = 0) : x &&& ~~~z = 0 := by
  apply BitVec.eq_of_getLsbD_eq
  intro i hi
  have e1 := congrArg (fun w : Word => w.getLsbD i) h1
  have e2 := congrArg (fun w : Word => w.getLsbD i) h2
  simp only [BitVec.getLsbD_and, BitVec.getLsbD_not, hi, decide_true, Bool.true_and] at e1 e2 ⊢
  revert e1 e2
  cases x.getLsbD i <;> cases y.getLsbD i <;> cases z.getLsbD i <;> simp

theorem laneResult_of {s t : State} {p p1 p2 : Pick} {members : List Nat} {stall : BitVec 4} {m : Word}
    {xs : List (Src × Nat)} {dest : Option Dest} {lat : Nat} {val : Nat → Word} {vs : Lanes}
    {move : Nat → Strand → Strand} {sd : Word} {l : LaneSet} {g1 g2 : Pending → Pending} {new : List Pending}
    (hfr : LaneFrame s t m) (hp : s.pick = p) (hm : s.fragment.members = members)
    (hsame : { p2 with names := p.names, pending := p.pending, pseq := p.pseq } = p)
    (hname : ∀ n, p1.name n = if n ∈ freedBy xs ∧ (p.name n).st = .allocated then { st := .freed } else p.name n)
    (hp3 : p1.pending = p.pending.map g1)
    (hp4 : ∀ a, g1 a = { a with mask := (g1 a).mask } ∧ (g1 a).mask &&& ~~~a.mask = 0 ∧
      ((∀ n ∈ freedBy xs, a.dest ≠ .vreg n) → g1 a = a))
    (hq2 : ∀ n, p2.name n = if n ∈ destNames dest ∧ m ≠ 0 ∧ (p1.name n).st ≠ .allocated then { st := .allocated }
      else p1.name n)
    (hq3 : p2.pending = p1.pending.map g2 ++ new)
    (hq4 : ∀ a, g2 a = { a with mask := (g2 a).mask } ∧ (g2 a).mask &&& ~~~a.mask = 0 ∧ (some a.dest ≠ dest → g2 a = a))
    (hq5 : NewResult p1 dest m vs lat new)
    (hclk1 : p1.clk = p.clk)
    (hv : ValuesFor dest m vs val)
    (hq : t.pick = { ({ p2 with seed := sd } : Pick).setLs l with nextLane := p.clk + max stall.toNat 1, parkWant := none })
    (hl : ∀ n, l.strand n = if n ∈ members then
      Strand.settle (move n { p.ls.strand n with dist := (p.ls.strand n).dist + 1, issued := true, safept := none })
      else p.ls.strand n) : LaneResult s t stall m xs dest lat val move sd := by
  subst hp hm
  simp only [LaneResult]
  generalize s.pick = p at *
  generalize t.pick = q at *
  have hmode : p2.mode = p.mode := (congrArg Pick.mode hsame :)
  refine ⟨hfr, ?_, ?_, ?_, ?_, ?_, ?_, ?_⟩
  · subst hq
    rw [← hsame]
    unfold Pick.setLs
    by_cases h : p2.mode = true <;> simp [h]
  · rw [hq]
  · rw [hq]; simp
  · have hl1 : p2.lanes = p.lanes := (congrArg Pick.lanes hsame :)
    have hl2 : p2.hlanes = p.hlanes := (congrArg Pick.hlanes hsame :)
    rw [hq]
    unfold Pick.setLs
    by_cases h : p.mode = true
    · rw [if_pos h, if_pos (hmode.trans h)]; exact hl1
    · rw [if_neg h, if_neg (by rw [← hmode] at h; exact h)]; exact hl2
  · intro n
    rw [show q.ls = l by rw [hq]; exact Pick.setLs_ls _ _]
    exact hl n
  · intro n
    rw [show q.name n = p2.name n by rw [hq]; simp [Pick.name], hq2, hname]
  · have hpe : q.pending = p2.pending := by rw [hq]; simp
    refine ⟨p1.pending.map g2, new, hpe.trans hq3, ?_, ?_⟩
    · rw [hp3, List.map_map, List.forall₂_map_right_iff, List.forall₂_same]
      intro a _
      obtain ⟨x1, x2, x3⟩ := hp4 a
      obtain ⟨y1, y2, y3⟩ := hq4 (g1 a)
      have hd : (g1 a).dest = a.dest := (congrArg Pending.dest x1 :)
      refine ⟨?_, ?_, fun h1 h2 => ?_⟩
      · simp only [Function.comp]
        rw [y1, x1]
      · exact sub_trans y2 x2
      · simp only [Function.comp]
        rw [y3 (by rw [hd]; exact h2), x3 h1]
    · cases dest with
      | none => exact hq5
      | some x =>
        simp only [NewResult] at hq5
        show if m = 0 then new = [] else ∃ r, new = [r] ∧ ResultFor p r x m lat val
        split at hq5
        · rw [if_pos ‹_›]; exact hq5
        · rw [if_neg ‹_›]
          obtain ⟨r, r1, r2, r3, r4, r5, r6, r7⟩ := hq5
          refine ⟨r, r1, r2, r3, r4, by rw [← hclk1]; exact r6, fun h => by
            rw [← hclk1]
            refine r7 (fun e he hx => ?_)
            rw [hp3] at he
            obtain ⟨a, ha, rfl⟩ := List.mem_map.mp he
            obtain ⟨x1, -, -⟩ := hp4 a
            have hd : (g1 a).dest = a.dest := (congrArg Pending.dest x1 :)
            have hi : (g1 a).isVar = a.isVar := (congrArg Pending.isVar x1 :)
            rw [hi]; exact h a ha (hd ▸ hx), ?_⟩
          rw [r5]
          cases x <;> exact hv

/-- What a lane instruction that finds its registers does (R90, R105): the lemma that laneCommit is cited by. The gate
may have counted latent poison before (dies d0), and fin may set SEED. -/
theorem State.laneCommit_result {s : State} {d0 : Tab Die}
    (hd : ∀ k, { s.dieAt k with counters := (State.dieAt { s with dies := d0 } k).counters } =
      State.dieAt { s with dies := d0 } k)
    {stall : BitVec 4} {m : Word} {xs : List (Src × Nat)} {dest : Option Dest} {lat : Nat} {val : Nat → Word}
    {vs : Lanes} {move : Nat → Strand → Strand} {fin : State → State} {sd : Word}
    (hx : dest ≠ some .nothing)
    (hv : ValuesFor dest m vs val)
    (hf : ∀ u : State, u.pick.seed = s.pick.seed →
      (fin u = u ∧ sd = s.pick.seed) ∨ fin u = u.setPick { u.pick with seed := sd })
    (hr : s.hasRoom m xs (destNames dest) = true) :
    ∃ t, s.laneCommit stall m xs (writesFor dest m vs lat) move fin = .next t ∧
      LaneResult { s with dies := d0 } t stall m xs dest lat val move sd := by
  generalize hws : writesFor dest m vs lat = ws
  have hns : (ws.filter (fun w => w.mask != 0)).filterMap (fun w => w.dest.lane) =
      if m = 0 then [] else destNames dest := by
    subst hws
    by_cases h0 : m = 0
    · cases dest <;> simp [h0, writesFor]
    · have h0' : ¬ m = 0#32 := h0
      rcases dest with _ | ⟨n⟩ | n | n | _ <;> simp [h0', destNames, Dest.lane, writesFor]
  have hr' : s.shortBank ((freedBy xs).foldl Pick.freeName s.pick) (if m = 0 then [] else destNames dest) = none :=
    Option.isNone_iff_eq_none.mp hr
  generalize hp1 : (freedBy xs).foldl Pick.freeName s.pick = p1 at hr'
  have hsame : { p1 with names := s.pick.names, pending := s.pick.pending } = s.pick := by
    rw [← hp1]; exact Pick.freeNames_same _ _
  have hname : ∀ n, p1.name n = if n ∈ freedBy xs ∧ (s.pick.name n).st = .allocated then { st := .freed }
      else s.pick.name n := fun n => by rw [← hp1]; exact Pick.freeNames_name _ _ _
  have hpend : ∃ g : Pending → Pending, p1.pending = s.pick.pending.map g ∧
      ∀ a, g a = { a with mask := (g a).mask } ∧ (g a).mask &&& ~~~a.mask = 0 ∧
        ((∀ n ∈ freedBy xs, a.dest ≠ .vreg n) → g a = a) := by rw [← hp1]; exact Pick.freeNames_pending _ _
  generalize hp2 : ws.foldl (fun p w => (s.addWrite p w).joinWrite w) p1 = p2
  have hcommit : s.laneCommit stall m xs ws move fin = .next ((fin (s.setPick p2)).laneDone stall m move) := by
    unfold State.laneCommit
    simp only [hp1, hns, hr', hp2]
  refine ⟨_, hcommit, ?_⟩
  have H : { p2 with names := p1.names, pending := p1.pending, pseq := p1.pseq } = p1 ∧
      (∀ n, p2.name n = if n ∈ destNames dest ∧ m ≠ 0 ∧ (p1.name n).st ≠ .allocated then { st := .allocated }
        else p1.name n) ∧
      ∃ g : Pending → Pending, ∃ new, p2.pending = p1.pending.map g ++ new ∧
        (∀ a, g a = { a with mask := (g a).mask } ∧ (g a).mask &&& ~~~a.mask = 0 ∧ (some a.dest ≠ dest → g a = a)) ∧
        NewResult p1 dest m vs lat new := by
    subst hws
    cases dest with
    | none =>
      simp only [writesFor, List.foldl_nil] at hp2
      subst hp2
      exact ⟨rfl, fun n => by simp [destNames], id, [], by simp, fun a => ⟨rfl, by simp, fun _ => rfl⟩, rfl⟩
    | some x =>
      simp only [writesFor, List.foldl_cons, List.foldl_nil] at hp2
      obtain ⟨h1, h2, g, new, h3, h4, h5⟩ := hp2 ▸ s.addWrite_fixed p1 (m := m) (vs := vs) (lat := lat)
        (fun h => hx (congrArg some h))
      exact ⟨h1, h2, g, new, h3, fun a => ⟨(h4 a).1, (h4 a).2.1, fun h => (h4 a).2.2 (fun e => h (congrArg some e))⟩, h5⟩
  clear hcommit hp2 hns hws hp1 hr' hr
  obtain ⟨hq1, hq2, g2, new, hq3, hq4, hq5⟩ := H
  obtain ⟨g1, hp3, hp4⟩ := hpend
  have hsame2 : { p2 with names := s.pick.names, pending := s.pick.pending, pseq := s.pick.pseq } = s.pick := by
    rw [← hsame, ← hq1]
  have hseed : p2.seed = s.pick.seed := (congrArg Pick.seed hsame2 :)
  have hteam : p2.team = s.pick.team := (congrArg Pick.team hsame2 :)
  have hmode : p2.mode = s.pick.mode := (congrArg Pick.mode hsame2 :)
  have hclk1 : p1.clk = s.pick.clk := (congrArg Pick.clk hsame :)
  have hclk : p2.clk = s.pick.clk := (congrArg Pick.clk hsame2 :)
  have hls : p2.ls = s.pick.ls := by
    unfold Pick.ls; rw [hmode]
    rw [show p2.lanes = s.pick.lanes from (congrArg Pick.lanes hsame2 :),
      show p2.hlanes = s.pick.hlanes from (congrArg Pick.hlanes hsame2 :)]
  have hu : (fin (s.setPick p2)).pick = { p2 with seed := sd } ∧ OnlyPick s (fin (s.setPick p2)) ∧
      (fin (s.setPick p2)).dies = s.dies := by
    rcases hf (s.setPick p2) (by simp [hseed]) with ⟨h1, h2⟩ | h1
    · rw [h1, h2]
      exact ⟨by rw [State.setPick_pick, ← hseed], State.setPick_only _ _, rfl⟩
    · rw [h1]
      exact ⟨by rw [State.setPick_pick, State.setPick_pick],
        (State.setPick_only _ _).trans (State.setPick_only _ _), rfl⟩
  generalize fin (s.setPick p2) = u at hu
  obtain ⟨hup, huo, hud⟩ := hu
  have hufrag : u.frag = s.frag := (congrArg State.frag huo.1 :)
  have huls : u.pick.ls = s.pick.ls := by rw [hup, ← hls]; rfl
  have hmem : u.fragment = s.fragment := by simp only [State.fragment, huls, hufrag]
  obtain ⟨l, hl1, hl2⟩ := u.laneDone_pick stall m move
  have hfr := State.laneDone_frame (s := { s with dies := d0 }) (u := u)
    ⟨by have h := congrArg (fun x : State => { x with dies := d0 }) huo.1; exact h, huo.2⟩
    (by rw [hup]; exact hteam) (fun k => by
      have : u.dieAt k = s.dieAt k := by simp only [State.dieAt, hud]
      rw [this]; exact hd k) stall m move
  exact laneResult_of (members := s.fragment.members) hfr rfl rfl hsame2 hname hp3 hp4 hq2 hq3 hq4 hq5 hclk1 hv 
    (by rw [hl1, show u.pick.clk = s.pick.clk by rw [hup]; exact hclk, hup]; rfl)
    (by rw [huls, hmem] at hl2; exact hl2)

/-- Counting latent poison changes counters alone (R430). -/
theorem State.noteLatent_eq (s : State) (xs : List (Src × Nat)) :
    ∃ d, s.noteLatent xs = { s with dies := d } ∧
      ∀ k, { (s.noteLatent xs).dieAt k with counters := (s.dieAt k).counters } = s.dieAt k := by
  unfold State.noteLatent
  simp only []
  split
  · exact ⟨s.dies, rfl, fun _ => rfl⟩
  · refine ⟨_, rfl, fun k => ?_⟩
    obtain ⟨x, hx⟩ := s.count_dieAt s.team.die 0x204 _ k
    rw [hx]

/-- The gate of a lane instruction that nothing stops. -/
theorem State.laneGate_ready {s : State} {pi : BitVec 3} {pn : BitVec 1} {preds : List Nat} {xs : List (Src × Nat)}
    (h : s.laneReady pi pn preds xs = true) (k : State → Word → (Nat → Nat → Nat → Word) → Out) :
    s.laneGate pi pn preds xs k = k (s.noteLatent xs) (s.lanesActive pi pn)
      (fun slot g i => s.permRead slot ((xs[slot]?).map (·.1) |>.getD Src.zero) g i) := by
  simp only [State.laneReady, Bool.and_eq_true, Bool.or_eq_true, Bool.not_eq_true', List.all_eq_true,
    Option.isNone_iff_eq_none] at h
  obtain ⟨⟨⟨h1, h2⟩, h3⟩, h4⟩ := h
  have e1 : (if s.chk 1 then (pi.toNat :: preds).findSome? s.scorePred <|> xs.findSome? (fun x => s.scoreSrc x.1 x.2)
      else none) = none := by
    rcases h1 with h1 | ⟨h1, h1'⟩
    · simp [h1]
    · have a1 : (pi.toNat :: preds).findSome? s.scorePred = none := List.findSome?_eq_none_iff.mpr h1
      have a2 : xs.findSome? (fun x => s.scoreSrc x.1 x.2) = none := List.findSome?_eq_none_iff.mpr h1'
      rw [a1, a2]; split <;> rfl
  have e2 : preds.findSome? (fun n => s.poisonPred n (s.lanesActive pi pn)) = none := List.findSome?_eq_none_iff.mpr h3
  have e3 : xs.findSome? (fun x => s.poisonSrc x.1 x.2 (s.lanesActive pi pn)) = none := List.findSome?_eq_none_iff.mpr h4
  unfold State.laneGate
  simp only [e1, h2, e2, e3]
  rfl

theorem lanesFold_get (f : Nat → Word) (l : List Nat) (i : Nat) :
    tget 0 (l.foldr (fun i t => if f i = 0 then t else (i, f i) :: t) []) i = if i ∈ l then f i else 0 := by
  induction l with
  | nil => rfl
  | cons e l ih =>
    rw [List.foldr_cons]
    by_cases h : e = i
    · subst h
      by_cases h0 : f e = 0
      · rw [if_pos h0, ih]; simp [h0]
      · rw [if_neg h0]; simp [tget]
    · by_cases h0 : f e = 0
      · rw [if_pos h0, ih]; simp [Ne.symm h]
      · rw [if_neg h0]
        simp only [tget, if_neg h, ih]
        simp [Ne.symm h]

/-- A value of a lane in a mask. -/
theorem lanesWith_get (m : Word) (f : Nat → Word) {i : Nat} (h : i ∈ lanesOf m) : tget 0 (lanesWith m f) i = f i := by
  rw [lanesWith, lanesFold_get, if_pos h]

/-- A write to a destination code gives the values of its function. -/
theorem writeTo_eq (d : BitVec 8) (m : Word) (f : Nat → Word) (lat : Nat) :
    ∃ vs, writeTo d m f lat = writesFor (destOf d) m vs lat ∧ ValuesFor (destOf d) m vs f := by
  unfold writeTo
  rcases hd : destOf d with _ | ⟨n⟩ | n | n | _
  · exact ⟨[], rfl, trivial⟩
  · exact ⟨_, rfl, fun i hi => lanesWith_get m f hi⟩
  · exact ⟨_, rfl, lanesWith_get 1 (fun _ => f ((lanesOf m).headD 0)) (by decide)⟩
  · exact ⟨_, rfl, fun i hi => lanesWith_get m f hi⟩
  · exact ⟨_, rfl, fun i hi => lanesWith_get m f hi⟩

theorem destOf_ne_nothing (d : BitVec 8) : destOf d ≠ some .nothing := by
  unfold destOf; split
  · simp
  · split <;> simp

/-- A lane instruction of one result, its value of no other effect: what R272 says it does. -/
theorem State.laneOp_wrote {s : State} {h : Hd} {d : BitVec 8} {xs : List Src}
    (hf : s.laneFit h [] xs (destOf d) = true) (lat : Nat) (f : Nat → (Nat → Word) → Word) :
    ∃ t, s.laneOp h d xs lat f = .next t ∧
      LaneWrote s t h (destOf d) xs lat (fun i => f i (s.srcVal xs i)) := by
  simp only [State.laneFit, Bool.and_eq_true] at hf
  obtain ⟨h1, h2⟩ := hf
  unfold State.laneOp
  simp only []
  rw [State.laneGate_ready h1]
  have hsrc : ∀ i, (fun slot => s.permRead slot (((xs.map (fun x => (x, 1)))[slot]?).map (·.1) |>.getD Src.zero) 0 i) =
      s.srcVal xs i := fun i => by
    funext slot
    simp only [State.srcVal, List.getElem?_map]
    cases xs[slot]? <;> rfl
  simp only [hsrc]
  obtain ⟨vs, hw, hv⟩ := writeTo_eq d (s.lanesActive h.pi h.pn) (fun i => f i (s.srcVal xs i)) lat
  obtain ⟨dd, hn, hd⟩ := s.noteLatent_eq (xs.map (fun x => (x, 1)))
  have key := State.laneCommit_result (s := s.noteLatent (xs.map (fun x => (x, 1)))) (d0 := s.dies)
    (by intro k; have := hd k; rw [hn] at this ⊢; exact this) (stall := h.stall) (m := s.lanesActive h.pi h.pn)
    (xs := xs.map (fun x => (x, 1))) (dest := destOf d) (lat := lat) (vs := vs) (move := nextL) (fin := id) (sd := s.pick.seed)
    (destOf_ne_nothing d) hv (fun u hu => .inl ⟨rfl, by rw [hn]; rfl⟩) (by rw [hn]; exact h2)
  rw [hw]
  obtain ⟨t, ht, hr⟩ := key
  refine ⟨t, ht, ?_⟩
  rw [hn] at hr
  exact hr

end Sys2Proof.Machine
end

