-- ==== Sys2Proof/Tests/Slice0.lean ====
section
/-! SUPPORT. Tests of the definitions against the manual, and for each statement a state and operands that meet its
hypotheses. -/

namespace Sys2Proof.Tests

open Sys2Proof Sys2Proof.Machine

set_option Elab.async false

/-! ## Well-formedness -/

/-- A plain head, a plain source, a source with a reserved pattern (R102) and one with a parameter out of its range. -/
def hd0 : Hd := ⟨1, 0, 0⟩
def src (r : BitVec 8) : Src := ⟨r, 0, 0, 0⟩
def badPat : Src := ⟨1, 0, 7, 0⟩
def badPrm : Src := ⟨1, 0, 4, 6⟩

/-- Each operand check of R215 refuses a term that fails it alone (R78, R98, R102, R173, R204, R210, R246, R282, R310). -/
theorem test_wf_scalar : [Instr.sbr 0 0 5, .scmp 1 2 3 6].all (fun i => !i.wf) = true := by decide

theorem test_wf_source : ([badPat, badPrm, ⟨1, 0, 0, 1⟩] : List Src).all (fun x =>
    !(Instr.vadd hd0 1 x (src 2) 0).wf && !(Instr.vadd hd0 1 (src 2) x 0).wf && !(Instr.vmad hd0 1 (src 2) (src 3) x 0).wf &&
    !(Instr.vicmp hd0 1 x (src 2) 0).wf && !(Instr.vsel hd0 1 x (src 2) 1 0).wf && !(Instr.vclz hd0 1 x).wf &&
    !(Instr.vfma hd0 1 (src 2) (src 3) x 0).wf && !(Instr.vmovxr hd0 x (src 2)).wf && !(Instr.pmk hd0 1 x).wf &&
    !(Instr.vlane hd0 1 (src 2) x).wf && !(Instr.vjmp hd0 x 0 0).wf && !(Instr.vpft hd0 x 0 0 0).wf &&
    !(Instr.vaccr hd0 1 x 0).wf && !(Instr.vaccw hd0 (src 1) x 0 0).wf) = true := by decide

theorem test_wf_dest : [Instr.vadd hd0 240 (src 1) (src 2) 0, .vneg hd0 255 (src 1) 0, .vand hd0 240 (src 1) (src 2),
    .vfclass hd0 240 (src 1), .vrcp hd0 240 (src 1), .vmovrx hd0 240 (src 1), .vscan hd0 240 (src 1) 0 0,
    .vcall hd0 240 (src 1) 0 0 1, .vld hd0 240 (src 1) 0 0 0 0 0 0 0, .txbegin 1 240 0, .vaccr hd0 240 (src 1) 0,
    .vlda hd0 1 (src 2) 0 0 0 0 0 0 0 3, .vlda hd0 238 (src 2) 0 0 0 0 0 0 0 3, .vlds hd0 2 (src 1) 0 0 0 4,
    .vatom hd0 3 (src 2) (src 4) 0 0 0 0 0 3 0].all (fun i => !i.wf) = true := by decide

theorem test_wf_fields : [Instr.vadd hd0 1 (src 1) (src 2) 3, .vicmp hd0 1 (src 1) (src 2) 6,
    .vshl hd0 1 (src 1) (src 2) 1 0, .vshl hd0 1 (src 1) (src 2) 0 1, .vshr hd0 1 (src 1) (src 2) 1 0,
    .vsra hd0 1 (src 1) (src 2) 0 1, .vbfx hd0 1 (src 1) (src 2) 0 0 0 0, .vbfx hd0 1 (src 1) (src 2) 1 0 0 1,
    .vbfi hd0 1 (src 1) (src 2) (src 3) 0 0 0, .vbfi hd0 1 (src 1) (src 2) (src 3) 0 1 1,
    .vprmb hd0 1 (src 1) (src 2) (src 3) 1 0, .vprmb hd0 1 (src 1) (src 2) (src 3) 0 1,
    .vfadd hd0 1 (src 1) (src 2) 7, .vfma hd0 1 (src 1) (src 2) (src 3) 7, .vcvt hd0 1 (src 1) 0 0 7 0 0,
    .vcvt hd0 1 (src 1) 0 1 0 0 1, .vqnt hd0 1 (src 1) (src 2) 1 0 0 1 0, .vdqt hd0 1 (src 1) (src 2) 0 0 0 13 0,
    .vcvt hd0 1 (src 1) 0 0 0 0 14, .pset hd0 1 (src 1) 0, .vredk hd0 1 (src 1) 11, .vscan hd0 1 (src 1) 11 0,
    .vbr 1 0 1 0 0 0 0 0 0 0 0 0, .vbr 1 0 0 0 0 0 0 5 0 0 1 0, .vbr 1 0 0 0 3 0 0 0 0 0 2 0,
    .vcall hd0 1 (src 1) 0 0 0, .vcall hd0 1 Src.zero 0 1 0, .vcall hd0 1 (src 1) 1 0 1].all (fun i => !i.wf) = true := by
  decide

theorem test_wf_memory : [Instr.vld hd0 1 (src 1) 0 3 0 0 0 0 0, .vld hd0 1 (src 1) 0 0 6 0 0 0 0,
    .vld hd0 1 (src 1) 0 2 3 1 0 0 0, .vld hd0 1 (src 1) 0 1 0 0 1 0 0, .vst hd0 (src 1) (src 2) 0 2 0,
    .vlda hd0 1 (src 2) 0 0 0 0 0 0 0 5, .vlda hd0 1 (src 3) 0 0 0 0 0 0 0 2, .vlda hd0 1 (src 238) 0 0 0 0 0 0 0 2,
    .vlda hd0 1 (src 2) 0 1 0 0 0 1 0 2, .vlda hd0 2 (src 2) 0 2 4 1 0 0 0 3, .vsta hd0 (src 2) (src 3) 0 0 0 3,
    .vsta hd0 (src 2) (src 3) 0 2 0 2, .vlds hd0 1 (src 1) 0 3 0 2, .vsts hd0 (src 1) (src 3) 0 0 0 3,
    .vatom hd0 1 (src 2) (src 3) 0 0 0 0 0 1 0, .vatom hd0 1 (src 2) (src 3) 0 0 0 11 0 2 0,
    .vatom hd0 2 (src 2) (src 4) 0 0 0 1 0 3 0, .vatom hd0 1 (src 2) (src 3) 0 0 0 10 0 2 0,
    .vatom hd0 1 (src 3) (src 3) 0 0 0 0 0 2 0, .vatom hd0 1 (src 2) (src 3) 0 5 0 0 0 2 0,
    .vfence hd0 1 0, .vfence hd0 2 6].all (fun i => !i.wf) = true := by decide

/-- And the like terms that meet the checks are well-formed. -/
theorem test_wf_good : [Instr.sbr 1 0 5, .scmp 1 2 3 5, .vadd hd0 239 (src 1) ⟨1, 0, 4, 5⟩ 2, .vbr 1 0 1 0 0 0 4 0 0 0 1 0,
    .vlda hd0 4 (src 2) 0 0 0 0 0 3 1 4, .vatom hd0 2 (src 2) (src 4) 0 4 5 10 1 3 0, .vfence hd0 4 5,
    .vcvt hd0 1 (src 1) 0 0 6 12 15].all Instr.wf = true := by decide

/-! ## Decoding -/

/-- The words of R215's table of variants and of R213, R214: an operand check, an unallocated OPC and f8, a reserved
bit of a COP, and an OPC of an operation that is not provided. -/
theorem test_decode_refuses : decodeLane 0x0050_4181_1C61_3000_0000_0000 = .illOperand ∧
    decodeLane 0x03D0_4181_0461_3000_0000_0000 = .illOpcode ∧ decodeScalar 0x0451_8714 = .illOpcode ∧
    decodeScalar 0xE002_0120 = .illOperand ∧ decodeScalar 0x9C00_0000 = .illOpcode ∧
    (∃ i, decodeLane 0x0450_4181_0461_3000_0000_0000 = .ok i) := by
  refine ⟨by decide, by decide, by decide, by decide, by decide, ⟨_, rfl⟩⟩

/-- Words of the worked program of the scalar chapter (file 08), and of each COP engine by R214. -/
theorem test_decode_scalar : ([
    ([0x08400100], .saddi 4 0 0x100), ([0x74810000], .sstWS 8 4 0), ([0x7481000C], .sstWS 8 4 12),
    ([0x0880_3FFE], .saddi 8 0 (BitVec.ofInt 14 (-2))), ([0x87F00003], .scall 63 3), ([0xD0000000], .sexit),
    ([0x68710000], .sldWS 7 4 0), ([0x04114041], .scmp 1 5 0 1), ([0x807FFFFB], .sbr 0 1 (BitVec.ofInt 22 (-5))),
    ([0x880FC000], .sret 63),
    ([0b111000_000011_000100_000000_0000000_1#32], .shCopy 3 4 1),
    ([0b111000_000011_000100_000000_0010001_0#32], .mxMmaj 3 4 0),
    ([0b111000_000011_000100_000000_0101000_0#32], .gaGath 3 4 0),
    ([0b111000_000011_000100_000000_0110000_1#32], .coAllred 3 4 1),
    ([0b111000_000011_000100_000000_1000000_0#32], .ssRun 3 4 0),
    ([0b111000_000011_000100_000000_1001000_0#32], .wdNext 3 4 0),
    ([0b111000_000011_000100_000101_1010010_0#32], .tkAdd 3 4 5 0),
    ([0b111000_000011_000100_000101_1100001_1#32], .fmReq 3 4 5 1)] : List (List Word × Instr)).all
    (fun e => decodeWords e.1 == some e.2) = true := by decide

/-- Lane words put together from the fields of R202 to R204 and R210: OPC, STALL, PN and PI, D, SA, SB, SC, MOD. -/
theorem test_decode_lane : ([
    (0x103#10 ++ 6#4 ++ 1#1 ++ 2#3 ++ 5#8 ++ 0b00000001_1_010_00011#17 ++ 0b00000010_0_000_00000#17 ++
      0b00000011_0_110_00100#17 ++ 0b000000000000000_0010#19, .vfma ⟨6, 1, 2⟩ 5 ⟨1, 1, 2, 3⟩ (src 2) ⟨3, 0, 6, 4⟩ 2),
    (0x189#10 ++ 4#4 ++ 0#4 ++ 7#8 ++ 0#34 ++ 0x12345678#32 ++ 0#4, .vmovi ⟨4, 0, 0⟩ 7 0x12345678),
    (0x281#10 ++ 2#4 ++ 0#4 ++ 0#8 ++ 0b00001100_1_000_00000#17 ++ 0#34 ++ 0x020#19, .vjmp ⟨2, 0, 0⟩ ⟨12, 1, 0, 0⟩ 0x020 0),
    (0x302#10 ++ 1#4 ++ 0#4 ++ 4#8 ++ 0b00000010_0_000_00000#17 ++ 0#17 ++ 0x1FFF8#17 ++ 0b010_100_1_0_0000_0_010_0_00#19,
      .vlda hd0 4 (src 2) 0x1FFF8 2 4 1 0 0 0 2),
    (0x305#10 ++ 1#4 ++ 0#4 ++ 0#8 ++ 0b00000010_0_000_00000#17 ++ 0b00000100_0_000_00000#17 ++ 8#17 ++
      0b000_000_0_0_0000_0_011_0_00#19, .vsts hd0 (src 2) (src 4) 8 0 0 3),
    (0x307#10 ++ 1#4 ++ 0#4 ++ 1#8 ++ 0b00000010_0_000_00000#17 ++ 0b00000100_0_000_00000#17 ++ 0#17 ++
      0b100_001_0_0_1010_1_010_1_00#19, .vatom hd0 1 (src 2) (src 4) 0 4 1 10 1 2 1),
    (0x300#10 ++ 1#4 ++ 0#4 ++ 1#8 ++ 0b00000010_0_000_00000#17 ++ 0#17 ++ 0b00000101_000000000#17 ++
      0b000_000_0_0_0011_1_000_0_00#19, .vld hd0 1 (src 2) 5 0 0 0 0 3 1),
    (0x309#10 ++ 1#4 ++ 0#4 ++ 9#8 ++ 0#51 ++ 0b0000000_111111111110#19, .txbegin 1 9 0xFFE),
    (0x30B#10 ++ 1#4 ++ 0#4 ++ 0#8 ++ 0#51 ++ 0x2A#19, .txabort hd0 0x2A)] : List (BitVec 96 × Instr)).all
    (fun e => decodeLane e.1 == .ok e.2) = true := by decide

/-- AOP 11 and a VCMP condition beyond 5 are unallocated selectors (R205, R210). -/
theorem test_decode_selectors : decodeLane (0x307#10 ++ 1#4 ++ 0#4 ++ 1#8 ++ 0b00000010_0_000_00000#17 ++
      0b00000100_0_000_00000#17 ++ 0#17 ++ 0b000_000_0_0_1011_0_010_0_00#19 : BitVec 96) = .illOpcode ∧
    decodeLane (0x00D#10 ++ 1#4 ++ 0#4 ++ 1#8 ++ 0b00000010_0_000_00000#17 ++ 0#36 ++ 6#17 : BitVec 96) = .illOpcode := by
  decide

/-! ## Small states -/

/-- A running pick of a team of one, in a context that maps the first GiB of die 0, about to execute an S-stream word
(log 8); the focus is on it. -/
def sc : State := { State.reset.placeProgram false [] with cur := 64 }

/-- The same with a lane block just started. -/
def ln : State := { State.reset.placeProgram true [] with cur := 64 }

/-- The state with its focus pick, its team or its context changed. -/
def onPick (s : State) (f : Pick → Pick) : State := s.setPick (f s.pick)
def onTeam (s : State) (f : Team → Team) : State := { s with teams := tput {} s.teams s.pick.team (f s.team) }
def onCtx (s : State) (f : Context → Context) : State := { s with ctxs := tput {} s.ctxs s.team.ctx (f s.ctx) }

/-- Scalar registers set. -/
def regs (l : List (Nat × Word)) (s : State) : State :=
  onPick s (fun p => { p with sregs := l.foldl (fun t e => tput 0 t e.1 e.2) p.sregs })

/-- A lane register allocated with one word in every lane, or with the words of a function. -/
def vregs (l : List (Nat × (Nat → Word))) (s : State) : State :=
  onPick s (fun p => { p with names := l.foldl (fun t e => tput {} t e.1
    { st := .allocated, val := (List.range 32).foldl (fun v i => tput 0 v i (e.2 i)) [] }) p.names })

/-- The pick in its handler. -/
def inTrap (s : State) : State := onPick s (fun p => { p with mode := true })

/-- What an outcome holds. -/
def after (o : Out) : State := match o with
  | .next t => t
  | _ => State.reset

/-- An answer given as an option is that answer. -/
theorem ok_of_toOption {ε α : Type} {e : Except ε α} {x : α} (h : e.toOption = some x) : e = .ok x := by
  cases e with
  | error _ => simp [Except.toOption] at h
  | ok y => simp [Except.toOption] at h; rw [h]

/-- An answer of which something holds. -/
theorem ok_of_any {ε α : Type} {e : Except ε α} {f : α → Bool} (h : e.toOption.any f = true) : ∃ x, e = .ok x ∧ f x = true := by
  cases e with
  | error _ => simp [Except.toOption] at h
  | ok y => exact ⟨y, rfl, by simpa [Except.toOption] using h⟩

/-! ## Hypotheses of the statements on the S-stream -/

theorem test_hyp_scalarAlu : sc.regsReady [63, 0] [63] = true ∧ sc.regsReady [5] [0] = true ∧
    (63 : BitVec 6) ≠ 0 ∧ (5 : BitVec 3).toNat ≤ 5 := by decide +kernel

theorem test_hyp_scalarImmediate : sc.regsReady [5] [6] = true ∧ (31#14).toNat ≤ 31 ∧ sc.pick.mode = false ∧
    31 < (32#14).toNat ∧ sc.regsReady [] [63] = true := by decide +kernel

/-- A word at the last place of a 64-bit pair's page, and a halfword one below an address by offset. -/
def acc : State := regs [(4, 0x200000), (5, 0), (6, 0xFFC)] sc

theorem test_hyp_globalLoad : (4 : BitVec 6).toNat % 2 = 0 ∧ acc.regsReady [4, 5] [7] = true ∧
    (((acc.pick.w 5).toNat * 2 ^ 32 + (acc.pick.w 4).toNat + (0x3FFC#14).toInt) % 2 ^ 64).toNat = 0x1FFFFC ∧
    acc.resolve acc.ctx rightR 0x1FFFFC 4 = .ok ([0x1FFFFC, 0x1FFFFD, 0x1FFFFE, 0x1FFFFF], 1) ∧
    acc.poisoned [0x1FFFFC, 0x1FFFFD, 0x1FFFFE, 0x1FFFFF] = false ∧ acc.settled acc.scalarAgent = true ∧
    paMirrored 0x1FFFFC = false :=
  ⟨by decide +kernel, by decide +kernel, by decide +kernel, ok_of_toOption (by decide +kernel), by decide +kernel, by decide +kernel, by decide +kernel⟩

theorem test_hyp_globalSync : (2 : BitVec 3) = 1 ∨ (2 : BitVec 3) = 2 ∧ (4 : BitVec 3).toNat ≤ 5 ∧
    (((acc.pick.w 5).toNat * 2 ^ 32 + (acc.pick.w 4).toNat + 4 * (127#7).toNat) % 2 ^ 64) = 0x2001FC ∧
    acc.resolve acc.ctx rightR 0x2001FC 4 = .ok ([0x2001FC, 0x2001FD, 0x2001FE, 0x2001FF], 1) :=
  .inr ⟨by decide +kernel, by decide +kernel, by decide +kernel, ok_of_toOption (by decide +kernel)⟩

theorem test_hyp_globalStore : acc.regsReady [4, 5, 0] [] = true ∧
    acc.resolve acc.ctx rightW 0x200000 4 = .ok ([0x200000, 0x200001, 0x200002, 0x200003], 1) ∧
    ((3 : BitVec 3) = 0 ∨ (3 : BitVec 3) = 1 ∨ (3 : BitVec 3) = 3) :=
  ⟨by decide +kernel, ok_of_toOption (by decide +kernel), by decide +kernel⟩

/-- The last word of the window of 4 KiB. -/
theorem test_hyp_scratch : acc.regsReady [6] [7] = true ∧ acc.regsReady [6, 7] [] = true ∧
    (((acc.pick.w 6).toNat + (0#14).toInt) % 2 ^ 32).toNat = 0xFFC ∧ acc.team.inRange 0xFFC 4 = true ∧
    acc.team.scratchBad 0xFFC 4 = false := by decide +kernel

/-- An odd base, a misaligned address, bit 56, and the first byte beyond the window. -/
def far : State := regs [(4, 0), (5, 0x1000000), (6, 0x1000)] sc

theorem test_hyp_addressChecks : far.pick.mode = false ∧ (5 : BitVec 6).toNat % 2 = 1 ∧
    far.regsReady [4, 5] [7] = true ∧ far.regsReady [4, 5, 7] [] = true ∧
    ((far.pick.w 5).toNat * 2 ^ 32 + (far.pick.w 4).toNat + 1) % 2 ^ 64 % 2 ≠ 0 ∧
    2 ^ 56 ≤ (far.pick.w 5).toNat * 2 ^ 32 + (far.pick.w 4).toNat ∧
    far.regsReady [6] [7] = true ∧ (far.pick.w 6).toNat % 4 = 0 ∧ far.team.inRange 0x1000 1 = false := by decide +kernel

theorem test_hyp_scalarControl : sc.regsReady [] [63] = true ∧ (regs [(5, 4)] sc).regsReady [5] [] = true ∧
    ((regs [(5, 4)] sc).pick.w 5).toNat % 4 = 0 ∧ ((regs [(5, 6)] sc).pick.w 5).toNat % 4 ≠ 0 ∧ sc.pick.mode = false ∧
    (960#20).toNat % 16 = 0 ∧ (960#20).toNat ≤ 960 ∧ ¬ ((976#20).toNat ≤ 960) ∧ ¬ ((8#20).toNat % 16 = 0) := by
  decide +kernel

/-- A pick with four lane blocks. -/
def full : State := onPick sc (fun p => { p with
  queue := List.replicate 4 { target := 0, capBase := 16, fmtr := 0, batches := [] } })

theorem test_hyp_laneBlockCalls : (48 : BitVec 6).toNat ≤ 48 ∧
    sc.regsReady ((List.range 16).map (fun i => 48 + BitVec.ofNat 6 i)) [] = true ∧ sc.pick.blocks.length < 4 ∧
    sc.pick.drains 0 = false ∧ 4 ≤ full.pick.blocks.length ∧ 48 < (49 : BitVec 6).toNat ∧ 3 < (4#20).toNat ∧
    (3#20).toNat < full.pick.blocks.length ∧ sc.pick.blocks.length ≤ (0#20).toNat ∧
    full.regsReady ((List.range 16).map (fun i => 16 + BitVec.ofNat 6 i)) [] = true := by decide +kernel

/-- A path whose counter is at its limit, and one with a pending cause. -/
def jam : State := onPick sc (fun p => { p with
  paths := tput {} p.paths 2 { closed := List.replicate 63 { ops := 1 } } })
def failed : State := onPick sc (fun p => { p with
  paths := tput {} p.paths 3 { causes := [(1, .slotUnbound, 7)], retired := 1 } })

theorem test_hyp_pathBatches : 63 ≤ (jam.pick.path 2).counter ∧ (sc.pick.path 2).counter < 63 ∧
    jam.regsReady [0] [] = true ∧ (jam.pick.w 0).toNat < (jam.pick.path 2).counter ∧
    (sc.pick.path 2).counter ≤ (sc.pick.w 0).toNat ∧ (sc.pick.path 2).causes = [] ∧
    (failed.pick.path 3).counter ≤ (failed.pick.w 0).toNat ∧ (failed.pick.path 3).causes = [(1, .slotUnbound, 7)] ∧
    failed.pick.mode = false := by decide +kernel

theorem test_hyp_fences : ((1 : BitVec 8) ≠ 0 ∧ (5 : BitVec 3).toNat ≤ 5) ∧ ¬ ((6 : BitVec 3).toNat ≤ 5) ∧
    (2 ≤ (4 : BitVec 3).toNat ∧ (4 : BitVec 3).toNat ≤ 4) ∧ ¬ (2 ≤ (1 : BitVec 3).toNat) ∧ sc.pick.mode = false := by
  decide +kernel

/-- A barrier object in the last eight bytes of scratch that expects two arrivals, and one at which one has come. -/
def bar (n : Nat) : State := onTeam (regs [(4, 0xFF8), (5, 0)] sc) (fun m =>
  { m with scratch := wrNat m.scratch 0xFF8 8 (0x200 + n * 2 ^ 16) })

theorem test_hyp_barriers : (regs [(4, 0xFF8)] sc).regsReady [4] [] = true ∧ (bar 0).regsReady [4, 5] [] = true ∧
    ((bar 0).pick.w 4).toNat % 8 = 0 ∧ (bar 0).team.inRange 0xFF8 8 = true ∧ (bar 0).team.scratchBad 0xFF8 8 = false ∧
    ((bar 0).team.bar 0xFF8).expa = 2 ∧ ((bar 0).team.bar 0xFF8).arr ≠ ((bar 0).team.bar 0xFF8).expa ∧
    ((bar 1).team.bar 0xFF8).arr = 1 ∧ ((bar 0).team.bar 0xFF8).phase = ((bar 0).pick.w 5).getLsbD 0 ∧
    ((regs [(5, 1)] (bar 0)).team.bar 0xFF8).phase ≠ ((regs [(5, 1)] (bar 0)).pick.w 5).getLsbD 0 ∧
    (0xFFC % 8 ≠ 0) ∧ sc.team.inRange 0x1000 8 = false := by decide +kernel

theorem test_hyp_pickRegisters : sc.regsReady [4, 5] [] = true ∧
    (let f := ((sc.pick.fmtr &&& ~~~0xF0000#32) ||| (0x50000#32 &&& 0xF0000#32)) &&& 0x07FFFFFF#32
     ¬ (6 ≤ f.toNat / 2 ^ 16 % 8 ∨ f.toNat / 2 ^ 20 % 8 = 0 ∨ f.toNat / 2 ^ 23 % 8 = 0)) ∧
    (let f := ((sc.pick.fmtr &&& ~~~0x70000#32) ||| (0x60000#32 &&& 0x70000#32)) &&& 0x07FFFFFF#32
     6 ≤ f.toNat / 2 ^ 16 % 8) ∧ (0x03000000#32).toNat / 2 ^ 24 % 4 = 3 ∧ sc.pick.mode = false := by decide +kernel

theorem test_hyp_controlRegisters : sc.regsReady [] [5] = true ∧ isCtlReg 0x00A = false ∧ sc.pick.mode = false ∧
    isCtxReg 0x141 = true ∧ isTrapReg 0x100 = true ∧ sc.regsReady [5] [] = true ∧
    ¬ (6 ≤ (0x00900000#32).toNat / 2 ^ 16 % 8 ∨ (0x00900000#32).toNat / 2 ^ 20 % 8 = 0 ∨
      (0x00900000#32).toNat / 2 ^ 23 % 8 = 0) := by decide +kernel

/-! ## Hypotheses: traps and commands -/

/-- A pick with a handler block queued, and one with a lane block queued. -/
def hblk : State := onPick (inTrap sc) (fun p => { p with hqueue := [{ target := 0, capBase := 16, fmtr := 0, batches := [] }] })

theorem test_hyp_traps : sc.pick.mode = false ∧ sc.pick.parked = false ∧ sc.pick.held = none ∧
    (∀ f ∈ sc.pick.ls.frags, f.hold = none) ∧ (inTrap sc).pick.mode = true ∧ hblk.pick.mode = true ∧
    hblk.pick.hqueue ≠ [] ∧ (inTrap sc).pick.hqueue = [] ∧ (inTrap sc).ctx.ended = false ∧
    ((inTrap sc).worldAt (inTrap sc).ctx.world).policy.getLsbD 0 = false ∧ (inTrap sc).pick.trec.blk = false ∧
    (exec (.trap 255) sc matches .next _) = true := by decide +kernel

theorem test_hyp_pickExit : full.pick.blocks ≠ [] ∧ full.pick.pathsIdle = true ∧ full.pick.mode = false ∧
    sc.pick.blocks = [] ∧ sc.pick.pathsIdle = true ∧ sc.team.phase = .running ∧ sc.ctx.st ≠ 1 := by decide +kernel

/-- A team whose launch record has one successor table entry, legal, and w(5) at the last granule of 64 bytes. -/
def ret : State := let s := onTeam (regs [(4, 0), (5, 0xFC0)] sc) (fun m => { m with lr := m.lr + 2 ^ 976 + 0x300000 * 2 ^ 768 })
  { s with mem := wrNat s.mem 0x300000 16 (0x400000 + 2 ^ 64) }

theorem test_hyp_retireArrives : ret.pick.mode = false ∧ ret.regsReady [4, 5] [] = true ∧ (ret.pick.w 5).toNat = 0xFC0 ∧
    0xFC0 % 64 = 0 ∧ ret.team.inRange 0xFC0 64 = true ∧ ret.team.scratchBad 0xFC0 64 = false ∧ ret.pick.blocks = [] ∧
    ret.pick.pathsIdle = true ∧
    let u := ret.coverBlocks
    let x := u.readScr u.scalarAgent ret.pick.team 0xFC0 64
    let v := u.noteLook u u.scalarAgent .plain false (scrCells ret.pick.team 0xFC0 64)
    u.settled u.scalarAgent = true ∧ inhBad x (lrTiles ret.team.lr) = false ∧ (ret.pick.w 4).toNat < lrNsucc ret.team.lr ∧
    x.testBit 48 = false ∧
    (v.resolve v.ctx rightR (lrSucctab ret.team.lr + 16 * (ret.pick.w 4).toNat) 16).toOption =
      some (List.range' 0x300000 16, 1) ∧
    ret.poisoned (List.range' 0x300000 16) = false ∧ succBad (v.readPas v.scalarAgent (List.range' 0x300000 16)) = false := by
  decide +kernel

/-- The rest of its clauses: a misaligned record, one beyond the window, one with a lane block queued, in trap mode. -/
theorem test_hyp_retireStops : ((regs [(5, 0xFC4)] sc).pick.w 5).toNat % 64 ≠ 0 ∧ 0x1000 % 64 = 0 ∧
    sc.team.inRange 0x1000 64 = false ∧ full.pick.blocks ≠ [] ∧ full.team.inRange 0xFC0 64 = true ∧
    full.regsReady [4, 5] [] = true ∧ (inTrap sc).ctx.ended = false := by decide +kernel

/-- A pick about to issue a COP, its operands in w4 and w5 and its descriptor at an address. -/
def cop (desc : Nat) (wa wb : Word) (at_ : Nat) : State := onTeam (regs [(4, wa), (5, wb)] sc) (fun m =>
  { m with scratch := wrNat m.scratch at_ 128 desc })

/-- A pick of a team of two whose group mask names both. -/
def pair : State := onTeam (onPick (cop 0 0x800 0 0x800) (fun p => { p with gang := 3 })) (fun m => { m with lr := m.lr + 2 ^ 480 })

/-- Each COP is issued by some of these states, its record the last one of the window for SH.COPY. -/
theorem test_hyp_copIssue : ([
    (0x00, cop (4 * 2 ^ 128) 0xFC0 0 0xFC0), (0x01, cop (2 ^ 256 + 2 ^ 272) 0x800 0 0x800),
    (0x02, cop (2 ^ 256 + 2 ^ 272) 0x800 0 0x800), (0x03, cop (2 ^ 256 + 2 ^ 272) 0x800 0 0x800),
    (0x04, cop (4 * 2 ^ 128) 0x800 0 0x800), (0x10, cop 0 0x800 0 0x800), (0x11, pair), (0x12, cop 0 0x800 0 0x800),
    (0x13, cop 0 0x800 0 0x800), (0x14, cop 0 0x800 0 0x800), (0x15, cop 0 1 0 0x800), (0x16, cop 0 0x800 0 0x800),
    (0x28, cop (2 ^ 128 + 2 ^ 160) 0x800 0 0x800), (0x29, cop (2 ^ 128 + 2 ^ 160) 0x800 0 0x800),
    (0x2A, cop (2 ^ 128 + 2 ^ 160) 0x800 0 0x800), (0x30, cop (4 * 2 ^ 160) 0x800 0 0x800),
    (0x31, cop (4 * 2 ^ 160) 0x800 0 0x800), (0x32, cop (4 * 2 ^ 160) 0x800 0 0x800),
    (0x33, cop (4 * 2 ^ 160) 0x800 0 0x800), (0x34, cop 0 0x800 0 0x800),
    (0x40, cop (1 + 2 ^ 16 + 2 ^ 24 + 2 ^ 32) 0x800 0 0x800), (0x41, cop 0 0x800 0 0x800), (0x48, cop 0 0xFF8 0 0x800),
    (0x49, cop 0 0x800 0 0x800), (0x50, cop 0 0x800 0 0x800), (0x51, cop 0 4095 0 0x800), (0x52, cop 0 4095 1 0x800),
    (0x60, cop 0 7 0xFF0 0x800), (0x61, cop 0 7 0x800 0x800)] : List (Nat × State)).all (fun e =>
      (copForms 7 4 5 0).any (fun i => i.2.1 == e.1 && e.2.copReady e.1 7 4 i.2.2 0)) = true := by decide +kernel

/-- Queued copies that fill the shuttle's queue. -/
def busy : State := { cop 0 0x800 0 0x800 with ops := (List.range 32).map (fun k => (k + 1, { pick := 64, path := 2 })) }

theorem test_hyp_copChecks : sc.pick.mode = false ∧ sc.regsReady [4, 0] [7] = true ∧ sc.pick.drains 2 = false ∧
    sc.queueFull 0 = false ∧ (cop 0 0x804 0 0x800).copPlace 0 4 0 = some (0x804, 64) ∧ 0x804 % 64 ≠ 0 ∧
    (cop 0 0x1000 0 0x800).copPlace 0 4 0 = some (0x1000, 64) ∧ sc.team.inRange 0x1000 64 = false ∧
    (cop 0 0x800 0 0x800).copPlace 0 4 0 = some (0x800, 64) ∧ (cop 0 0x800 0 0x800).team.inRange 0x800 64 = true ∧
    (cop 0 0x800 0 0x800).team.scratchBad 0x800 64 = false ∧
    firstBad ((cop 0 0x800 0 0x800).copFields ((cop 0 0x800 0 0x800).copOf 0 4 0 0)) = some 128 ∧
    (cop 0 2 0 0x800).copPlace 0x15 4 0 = none ∧
    (cop 0 2 0 0x800).copOperandBad ((cop 0 2 0 0x800).copOf 0x15 4 0 0) = some .illOperand ∧
    firstBad ((cop 0 2 0 0x800).copFields ((cop 0 2 0 0x800).copOf 0x15 4 0 0)) = none ∧ busy.queueFull 0 = true ∧
    busy.regsReady [4, 0] [7] = true := by decide +kernel

/-- An ended block whose window is not covered, frame checking on, and a poisoned register. -/
def hazard : State := onCtx (onPick sc (fun p => { p with uncovered := [{ base := 16, prior := [(17, 9)], ids := [] }] }))
  (fun c => { c with chk := 1 })
def dirty : State := onPick sc (fun p => { p with spoison := [5] })

theorem test_hyp_registerFaults : hazard.pick.mode = false ∧ hazard.frameHit [31, 6, 7] = some 31 ∧
    hazard.frameHit [32, 15, 7] = none ∧ dirty.frameHit [5, 6, 7] = none ∧ dirty.poisonHit [5, 6] = some 5 ∧
    sc.frameHit [17, 6, 7] = none ∧ sc.poisonHit [17, 6] = none := by decide +kernel

/-! ## Hypotheses of the statements on lane instructions -/

/-- Lane registers 1 to 7: small numbers, lane numbers, addresses of memory and of scratch. -/
def lv : State := vregs [(1, fun _ => 5), (2, fun i => BitVec.ofNat 32 i), (4, fun i => BitVec.ofNat 32 (0x200000 + 16 * i)),
  (5, fun _ => 0), (6, fun i => BitVec.ofNat 32 (0xE00 + 16 * i)), (7, fun _ => 3)] ln

theorem test_hyp_lanePredicates : (0x00D#10 ++ 0#83 ++ 6#3 : BitVec 96).extractLsb' 86 10 = 0x00D#10 ∧
    6 ≤ ((0x00D#10 ++ 0#83 ++ 6#3 : BitVec 96).extractLsb' 0 3).toNat := by decide +kernel

theorem test_hyp_laneOps : lv.laneFit hd0 [] [src 1, src 2, ⟨7, 1, 0, 0⟩] (destOf 8) = true ∧
    lv.laneFit ⟨15, 1, 3⟩ [] [src 1, src 2] (destOf 239) = true ∧ lv.laneFit hd0 [] [src 1] (destOf 255) = true ∧
    lv.laneFit hd0 [3] [src 1, src 2] (some (.pred 7)) = true ∧ lv.laneFit hd0 [7] [] (destOf 8) = true ∧
    lv.pick.mode = false ∧ lv.pick.wait = .none ∧ lv.lanesActive 0 0 = 0xFFFFFFFF := by decide +kernel

theorem test_hyp_laneSources : (1 : BitVec 8).toNat < 239 ∧ lv.pick.pendingOn (.vreg 1) = [] ∧ (239 : BitVec 8).toNat = 239 ∧
    239 < (240 : BitVec 8).toNat ∧ lv.pick.pendingOn (.kreg 0) = [] ∧ (31 : Nat) < 32 := by decide +kernel

/-- VMOVRX and VMOVXR of the register 2 + (0 .. 5) × 1 in lane 3: the data names registers 4 to 7 and lane numbers. -/
def ind : State := vregs [(9, fun i => BitVec.ofNat 32 (4 + i % 2 + 256 * i)), (10, fun i => BitVec.ofNat 32 i)] lv

theorem test_hyp_laneMoves : lv.laneFit hd0 [] [src 1] (destOf 238) = true ∧ lv.laneFit hd0 [] [] (destOf 255) = true ∧
    ind.serialise.laneFit hd0 [] [src 9] (destOf 8) = true ∧
    (∀ i ∈ lanesOf (ind.serialise.lanesActive 0 0),
      ind.serialise.indirectPending ((ind.serialise.srcVal [src 9, src 10] i 0).toNat % 256) = false ∧
      ind.serialise.indirectBad ((ind.serialise.srcVal [src 9, src 10] i 0).toNat % 256)
        ((ind.serialise.srcVal [src 9, src 10] i 0).toNat / 256 % 32) = false) ∧
    ind.serialise.laneReady 0 0 [] [(src 9, 1), (src 10, 1)] = true ∧
    (ind.serialise.shortBank ((freedBy [(src 9, 1), (src 10, 1)]).foldl Pick.freeName ind.serialise.pick) [4, 5]).isNone =
      true := by decide +kernel

theorem test_hyp_crossLane : lv.laneFit hd0 [1] [] (destOf 8) = true ∧ lv.laneFit hd0 [] [src 1] (destOf 240) = true ∧
    lv.laneFit hd0 [] [src 2, src 1] (destOf 239) = true ∧ (239 : BitVec 8).toNat ≤ 239 ∧
    (lv.pick.name (2 : BitVec 8).toNat).poison = 0 := by decide +kernel

/-- A VLAND at LPC 12; lanes jump there, and in one state to an address that is no multiple of 12. -/
def jmp (a : Word) : State := vregs [(12, fun _ => a)] { ln with mem := wrNat ln.mem 0x2000C 12 ((0x282 * 16 + 1) * 2 ^ 82) }

/-- Lanes 0 and 1 choose pairs 0 and 1 of a VBR of two; with uniformity checking, and with a full stack in strand 0. -/
def fork : State := onCtx (onPick ln (fun p => { p with preds := [(1, 1), (2, 3)] })) (fun c => { c with chk := 4 })
def deep : State := onPick fork (fun p => { p with lanes := p.lanes.setStrand 0 { (p.lanes.strand 0) with
  stack := List.replicate 32 ⟨some 0, 1, none, 0⟩ } })
def forks (s : State) (n : Nat) : List (Word × BitVec 4) := laneGroups n (s.pick.ls.strand n).mask [96, 192, 12]
  (fun i => if s.predLane 10 1 i then 96 else if s.predLane 11 2 i then 192 else 12)

theorem test_hyp_branches : ln.laneReady 0 0 [1, 2] [] = true ∧
    ln.overflowing (fun n => laneGroups n (ln.pick.ls.strand n).mask [96, 192, 12] (fun _ => 12)) = [] ∧
    fork.laneReady 0 0 [1, 2] [] = true ∧ fork.chk 2 = true ∧ differ (fork.fragment.members.map (forks fork)) = true ∧
    differ (fork.fragment.members.map (fun n => laneGroups n (fork.pick.ls.strand n).mask [96, 192, 12] (fun _ => 96))) =
      false ∧ deep.laneReady 0 0 [1, 2] [] = true ∧ deep.overflowing (forks deep) = [0] ∧ ([96, 192, 12] : List Word).Nodup ∧
    (12 : Word) ∈ ([96, 192, 12] : List Word) := by decide +kernel

theorem test_hyp_laneTransfers : (jmp 12).laneReady 0 0 [] [(src 12, 1)] = true ∧
    (let w := (jmp 12).noteLatent [(src 12, 1)]
     let m := (jmp 12).lanesActive 0 0
     (∀ i ∈ lanesOf m, (w.landingOf ((jmp 12).srcVal [src 12] i 0)).toOption = some none) ∧
     w.overflowing (w.jumpGroups m ((jmp 12).srcVal [src 12] · 0)) = [] ∧
     (jmp 12).hasRoom m [(src 12, 1)] (destNames (destOf 8)) = true) ∧
    (((jmp 14).noteLatent [(src 12, 1)]).landingAll ((jmp 14).srcVal [src 12] · 0)
      (lanesOf ((jmp 14).lanesActive 0 0))).toOption = some ((List.range 32).map (fun i => (i, 0))) ∧
    (14 : Word).toNat % 12 ≠ 0 ∧ ln.laneFit hd0 [] [] (destOf 239) = true := by decide +kernel

/-- The block's strands in two fragments. -/
def two : State := onPick ln (fun p => { p with lanes := { p.lanes with frags := [{ strands := 1 }, { strands := 254 }] } })

theorem test_hyp_laneSequence : (ln.pick.ls.frags.filter ln.pick.ls.fragLive).length ≤ 1 ∧
    ¬ (two.pick.ls.frags.filter two.pick.ls.fragLive).length ≤ 1 ∧ two.frag < two.pick.ls.frags.length ∧
    two.fragment.members ≠ [] ∧ (∀ n ∈ two.fragment.members, (two.pick.ls.strand n).lpc = some two.lpc ∧
      (two.pick.ls.strand n).mask ≠ 0 ∧ (two.pick.ls.strand n).rca ≠ some two.lpc) ∧ ln.laneReady 0 0 [] [] = true ∧
    ∀ i ∈ lanesOf (ln.lanesActive 0 0), ln.pick.txs.lookup i = none := by decide +kernel

theorem test_hyp_laneFloat : lv.laneFit hd0 [] [src 1, src 2, src 7] (destOf 8) = true ∧
    lv.laneFit ⟨1, 0, 7⟩ [] [src 1] (destOf 240) = true ∧ lv.laneFit hd0 [] [src 1, src 2] (some (.pred 0)) = true := by
  decide +kernel

/-- Format code 8 is FP32 and slot L0 is unbound (R112, R499). -/
theorem test_hyp_laneConvert : lv.laneFit hd0 [] [src 1, src 2] (destOf 8) = true ∧
    (∃ f, lv.fmtGet lv.team 8 = .fmt f) ∧ lv.fmtGet lv.team 0 = .unbound :=
  ⟨by decide +kernel, ⟨_, rfl⟩, rfl⟩

/-! ## Hypotheses: lane memory -/

/-- Where no write is recorded and no `.INV` promise is broken, every lane agent reads what memory holds. -/
theorem lanesSettled_of_nil {s : State} (h : s.wlog = []) (hl : (s.looseOf s.team).1 = []) (path : Nat) :
    s.lanesSettled path := by
  intro i
  simp only [State.settled, h, List.all_nil, Bool.true_and, State.laneAgent]
  cases s.pick.blocks <;> simp [hl]

theorem test_hyp_settled (path : Nat) : lv.lanesSettled path := lanesSettled_of_nil (by decide +kernel) (by decide +kernel) path

/-- Accesses of 16 bytes at 0x200000 + 16 × lane by the pair v4, v5, and of scratch at 0xE00 + 16 × lane by v6: lane 31
ends with the window's last byte. -/
theorem test_hyp_laneLoads : (4 : BitVec 3).toNat ≤ 4 ∧ (235 : BitVec 8).toNat + 4 ≤ 239 ∧ lv.pick.txs = [] ∧
    lv.laneReady 0 0 [] [(src 4, 2)] = true ∧
    lv.hasRoom (lv.lanesActive 0 0) [(src 4, 2)] ((List.range 4).map (235 + ·)) = true ∧
    (∀ i ∈ lanesOf (lv.lanesActive 0 0),
      let g := (((lv.permRead 0 (src 4) 1 i).toNat * 2 ^ 32 + (lv.permRead 0 (src 4) 0 i).toNat + (0#17).toInt) % 2 ^ 64).toNat
      g % min 16 4 = 0 ∧ g % 8 = 0 ∧
      ((lv.noteLatent [(src 4, 2)]).resolve (lv.noteLatent [(src 4, 2)]).ctx rightR g 16).toOption =
        some (List.range' (0x200000 + 16 * i) 16, 1) ∧ lv.poisoned (List.range' (0x200000 + 16 * i) 16) = false ∧
      ((lv.noteLatent [(src 4, 2)]).resolve (lv.noteLatent [(src 4, 2)]).ctx rightR g 8).toOption =
        some (List.range' (0x200000 + 16 * i) 8, 1)) := by decide +kernel

theorem test_hyp_scratchAccess : lv.laneReady 0 0 [] [(src 6, 1)] = true ∧
    lv.laneReady 0 0 [] [(src 6, 1), (src 4, 2)] = true ∧
    lv.hasRoom (lv.lanesActive 0 0) [(src 6, 1)] ((List.range 2).map (8 + ·)) = true ∧
    lv.hasRoom (lv.lanesActive 0 0) [(src 6, 1), (src 4, 2)] ((List.range 2).map (8 + ·)) = true ∧
    (∀ i ∈ lanesOf (lv.lanesActive 0 0),
      let g := (((lv.permRead 0 (src 6) 0 i).toNat + (8#17).toInt) % 2 ^ 32).toNat
      g % 4 = 0 ∧ g % 8 = 0 ∧ lv.team.inRange g 8 = true ∧ lv.team.scratchBad g 8 = false ∧
      (∀ j ∈ lanesOf (lv.lanesActive 0 0), i ≠ j → g ≠ (((lv.permRead 0 (src 6) 0 j).toNat + (8#17).toInt) % 2 ^ 32).toNat) ∧
      ∀ x ∈ lv.team.inflight, (g + 8 - 1) / 256 < x.lo ∨ x.hi < g / 256) := by decide +kernel

/-- Stores and atomics on the same places. -/
theorem test_hyp_laneStores : lv.laneReady 0 0 [] [(src 4, 2), (src 1, 1)] = true ∧
    (let u := lv.noteLatent [(src 4, 2), (src 1, 1)]
     ∀ i ∈ lanesOf (lv.lanesActive 0 0),
      (lv.permRead 0 (src 4) 1 i).toNat * 2 ^ 32 + (lv.permRead 0 (src 4) 0 i).toNat = 0x200000 + 16 * i ∧
      (0x200000 + 16 * i) % 4 = 0 ∧ (u.resolve u.ctx rightW (0x200000 + 16 * i) 4).toOption.isSome = true) := by
  decide +kernel

theorem test_hyp_laneAtomics : (10 : BitVec 4).toNat ≤ 10 ∧ (237 : BitVec 8).toNat + 2 ≤ 239 ∧
    lv.laneReady 0 0 [] [(src 4, 2), (src 4, 4)] = true ∧
    lv.hasRoom (lv.lanesActive 0 0) [(src 4, 2), (src 4, 4)] ((List.range 2).map (237 + ·)) = true ∧
    (let u := lv.noteLatent [(src 4, 2), (src 4, 4)]
     ∀ i ∈ lanesOf (lv.lanesActive 0 0), (0x200000 + 16 * i) % 8 = 0 ∧
      (u.resolve u.ctx rightRW (0x200000 + 16 * i) 8).toOption = some (List.range' (0x200000 + 16 * i) 8, 1)) ∧
    (∀ i ∈ lanesOf (lv.lanesActive 0 0), ∀ x ∈ List.range' (0x200000 + 16 * i) 8, isHost x = false ∧ paPlaces x = [x]) := by
  decide +kernel

/-- No two lanes of it name one place. -/
theorem test_hyp_atomicsApart : ∀ i j : Nat, i ≠ j →
    List.Disjoint (List.range' (0x200000 + 16 * i) 8) (List.range' (0x200000 + 16 * j) 8) := by
  intro i j h x hx hy
  simp only [List.mem_range'_1] at hx hy
  omega

/-- The second GiB mapped to the host window, and lane addresses in it. -/
def hosted : State := vregs [(4, fun i => BitVec.ofNat 32 (0x40000000 + 16 * i)), (5, fun _ => 0), (1, fun _ => 1)]
  { ln with mem := wrNat (wrNat ln.mem 0x6008 8 0x4000001D) 0x3008 8 (2 ^ 50 + 0x1D) }

theorem test_hyp_hostAtomics : hosted.laneReady 0 0 [] [(src 4, 2), (src 1, 1)] = true ∧
    (let u := hosted.noteLatent [(src 4, 2), (src 1, 1)]
     ∀ i ∈ lanesOf (hosted.lanesActive 0 0), (0x40000000 + 16 * i) % 4 = 0 ∧
      (u.resolve u.ctx rightRW (0x40000000 + 16 * i) 4).toOption.map (·.1) = some (List.range' (2 ^ 50 + 16 * i) 4) ∧
      isHost (2 ^ 50 + 16 * i) = true ∧ hosted.poisoned (List.range' (2 ^ 50 + 16 * i) 4) = false) := by decide +kernel

/-- A misaligned access, one whose last byte has bit 56, and a scratch access beyond the window. -/
def astray (lo hi : Word) : State := vregs [(4, fun _ => lo), (5, fun _ => hi), (6, fun _ => 0x1000)] ln

theorem test_hyp_laneAccessChecks : (astray 0x200002 0).laneReady 0 0 [] [(src 4, 2)] = true ∧
    (astray 0xFFFFFFFC 0xFFFFFF).laneReady 0 0 [] [(src 4, 2), (src 6, 1)] = true ∧
    0x200002 % min 4 4 ≠ 0 ∧ (2 ^ 56 < 0xFFFFFF * 2 ^ 32 + 0xFFFFFFFC + 8) ∧ (astray 0 0).lanesActive 0 0 ≠ 0 ∧
    (astray 0 0).laneReady 0 0 [] [(src 6, 1), (src 4, 1)] = true ∧ (astray 0 0).team.inRange 0x1000 1 = false ∧
    (astray 0 0).pick.txs = [] := by decide +kernel

/-- A buffer record of 32-bit elements at 0x200000 with an extent of 128, in a table of one at 0x300000; a second one whose
elements lie in scratch. -/
def rec0 (scr : Nat) : Nat := (if scr = 0 then 0x200000 else 0x800) + 128 * 2 ^ 56 + 7 * 2 ^ 102 + scr * 2 ^ 269
def buf (scr : Nat) : State := let s := onTeam lv (fun m => { m with lr := m.lr + 0x300000 * 2 ^ 640 })
  { s with mem := wrNat s.mem 0x300000 40 (rec0 scr) }

theorem test_hyp_bufferRecord : (0 : BitVec 8).toNat < lrNbrec (buf 0).team.lr ∧ lrNbrec (buf 0).team.lr ≤ (1 : BitVec 8).toNat ∧
    (buf 0).laneReady 0 0 [] [(src 2, 1)] = true ∧ (buf 0).laneReady 0 0 [] [(src 2, 1), (src 1, 1)] = true ∧
    (buf 0).hasRoom ((buf 0).lanesActive 0 0) [(src 2, 1)] [238] = true ∧ (buf 0).pick.txs = [] ∧
    (∀ xs ∈ [[(src 2, 1)], [(src 2, 1), (src 1, 1)]],
     let u := (buf 0).noteLatent xs
     (u.resolve u.ctx rightR (lrBrtab (buf 0).team.lr + 40 * 0) 40).toOption = some (List.range' 0x300000 40, 1) ∧
     u.poisoned (List.range' 0x300000 40) = false ∧
     ∀ path < 2, let x := u.readPas (u.laneAgent path 0) (List.range' 0x300000 40)
      x = rec0 0 ∧ u.recBad u.team x (path == 1) = none ∧ bEnc x = 0) := by decide +kernel

theorem test_hyp_bufferAccess :
    let u := (buf 0).noteLatent [(src 2, 1)]
    let v := (u.notePas (u.laneAgent 0 0) .plain false (List.range' 0x300000 40)).touchDies (buf 0).team.ctx 1
    ∀ i ∈ lanesOf ((buf 0).lanesActive 0 0),
      let p := recPlace (rec0 0) ((buf 0).permRead 0 (src 2) 0 i).toNat
      recInRange (rec0 0) p = true ∧ recExtra (rec0 0) (u.recFmts u.team (rec0 0)).2.2 p = [] ∧
      ∀ q ∈ recPieces (rec0 0) p, q.global = true ∧ (v.resolve v.ctx rightW q.addr q.len).toOption.isSome = true ∧
        (v.resolve v.ctx rightR q.addr q.len).toOption.any (fun r => !v.poisoned r.1) = true := by decide +kernel

theorem test_hyp_bufferScratch :
    let u := (buf 1).noteLatent [(src 2, 1)]
    u.readPas (u.laneAgent 0 0) (List.range' 0x300000 40) = rec0 1 ∧ u.recBad u.team (rec0 1) false = none ∧
    ∀ i ∈ lanesOf ((buf 1).lanesActive 0 0),
      let p := recPlace (rec0 1) ((buf 1).permRead 0 (src 2) 0 i).toNat
      recInRange (rec0 1) p = true ∧ ∀ q ∈ recPieces (rec0 1) p, q.global = false ∧ u.team.inRange q.addr q.len = true ∧
        u.team.scratchBad q.addr q.len = false ∧ u.team.inflight = [] := by decide +kernel

theorem test_hyp_bufferSettled (path : Nat) : ((buf 0).noteLatent [(src 2, 1)]).lanesSettled path :=
  lanesSettled_of_nil (by decide +kernel) (by decide +kernel) path

/-- Lanes 0 and 1 with transactions: one has read and written, the other has not. -/
def tx : State := onPick ln (fun p => { p with txs := [
  (0, { reads := [(0x200000, 0xFFFFFFFF, 0)], writes := [(0x200004, 0xFF00, 0x700)], status := 9 }), (1, { status := 10 })] })

theorem test_hyp_transactions : ln.laneReady 0 0 [] [] = true ∧ ln.pick.txs = [] ∧
    (∀ i ∈ lanesOf ln.fragLanes, ln.pick.txs.lookup i = none) ∧
    (∀ n ∈ ln.fragment.members, (ln.pick.ls.strand n).stack.length < 32) ∧ (238 : BitVec 8).toNat ≤ 239 ∧
    ln.hasRoom ln.fragLanes [] (destNames (destOf 238)) = true ∧ conflictLosers tx.pick.txs = [] ∧
    tx.laneReady 0 0 [] [] = true ∧ (∀ e ∈ tx.picks, e.1 ≠ tx.cur → e.2.txs = []) := by decide +kernel

/-- A waiting result for v8 and one that another to its name follows; a status register that is allocated. -/
def owes : State := onPick (vregs [(8, fun _ => 1), (9, fun _ => 0)] tx) (fun p => { p with txs := [], pending := [
  { seq := 1, dest := .vreg 8, mask := 3, vals := [(0, 7)], due := 0, isVar := true, path := 0, batch := 1 }] })

theorem test_hyp_fenceResults : owes.laneReady 0 0 [] [] = true ∧ owes.pick.txs = [] ∧ (owes.pick.name 8).st = .allocated ∧
    (∀ e ∈ owes.pick.pending, e.isVar = true ∧ e.dest = .vreg 8) ∧ (∃ e, owes.pick.pending = [e]) ∧
    (0 ∈ lanesOf (tx.lanesActive 0 0) ∧ (tx.pick.txs.lookup 0).isSome = true) ∧ (tx.pick.name 9).st ≠ .allocated ∧
    ((vregs [(9, fun _ => 0)] tx).pick.name 9).st = .allocated :=
  ⟨by decide +kernel, rfl, by decide +kernel, by decide +kernel, ⟨_, rfl⟩, by decide +kernel⟩

/-- The transactions of `tx` meet the conditions of a commit. -/
theorem test_hyp_commit : ∀ i x, i ∈ lanesOf tx.fragLanes ∧ tx.pick.txs.lookup i = some x →
    (∀ c ∈ x.writes, c.1 % 4 = 0) ∧ (x.unit.map (·.1)).Nodup ∧ (∀ c ∈ x.reads, tx.wordAt c.1 &&& c.2.1 = c.2.2 &&& c.2.1) ∧
    ∀ j y, j ∈ lanesOf tx.fragLanes ∧ tx.pick.txs.lookup j = some y → j ≠ i →
      ∀ c ∈ x.unit, (∀ e ∈ y.reads, e.1 ≠ c.1) ∧ ∀ e ∈ y.unit, e.1 ≠ c.1 := by
  have h : ∀ i ∈ lanesOf tx.fragLanes, ∀ x ∈ tx.pick.txs.lookup i,
      (∀ c ∈ x.writes, c.1 % 4 = 0) ∧ (x.unit.map (·.1)).Nodup ∧ (∀ c ∈ x.reads, tx.wordAt c.1 &&& c.2.1 = c.2.2 &&& c.2.1) ∧
      ∀ j ∈ lanesOf tx.fragLanes, ∀ y ∈ tx.pick.txs.lookup j, j ≠ i →
        ∀ c ∈ x.unit, (∀ e ∈ y.reads, e.1 ≠ c.1) ∧ ∀ e ∈ y.unit, e.1 ≠ c.1 := by decide +kernel
  rintro i x ⟨hi, hx⟩
  obtain ⟨h1, h2, h3, h4⟩ := h i hi x hx
  exact ⟨h1, h2, h3, fun j y hy => h4 j hy.1 y hy.2⟩

theorem test_hyp_laneAccumulators : lrTiles lv.team.lr ≤ (1 : BitVec 4).toNat ∧ (0 : BitVec 4).toNat < lrTiles lv.team.lr ∧
    lv.laneReady 0 0 [] [(src 2, 1)] = true ∧ lv.laneReady 0 0 [] [(src 2, 1), (src 1, 1)] = true ∧
    lv.hasRoom (lv.lanesActive 0 0) [(src 2, 1)] [8] = true ∧ lv.team.tilePoison = [] := by decide +kernel

/-! ## Hypotheses: events at a pick -/

/-- A load's result for v8 and a fixed-latency one for p1. -/
def varRes : Pending := { seq := 1, dest := .vreg 8, mask := 3, vals := [], due := 0, isVar := true, path := 0, batch := 1 }
def fixRes : Pending := { seq := 2, dest := .pred 1, mask := 1, vals := [(0, 1)], due := 6, isVar := false }
def res : State := onPick lv (fun p => { p with clk := 5, pending := [varRes, fixRes] })

/-- A block not started; one that has run to its end; one all of whose fragments wait. -/
def fresh : State := onPick ln (fun p => { p with queue := p.queue.map (fun b => { b with started := false }), lanes := {} })
def atEnd : State := onPick ln (fun p =>
  { p with lanes := (List.range 8).foldl (fun l n => l.setStrand n { lpc := none, mask := 0 }) p.lanes
           queue := p.queue.map (fun b => { b with batches := [1, 1] })
           pending := [{ seq := 1, dest := .nothing, mask := 0, vals := [], due := 0, isVar := true, path := 1, batch := 1 },
             { seq := 2, dest := .vreg 8, mask := 1, vals := [], due := 4, isVar := false }] })
def passed : State := onPick ln (fun p => { p with lanes := { p.lanes with frags := p.lanes.frags.map (fun f =>
  { f with rise := 2, passed := 64 }) } })
def met : State := onPick two (fun p => { p with lanes := { p.lanes with frags := p.lanes.frags.map (fun f =>
  { f with waitAt := some 0 }) } })

theorem test_hyp_results :
    (let r := varRes
     r.isVar = true ∧ res.pick.pending.filter (fun x => x.isVar && x.seq == r.seq) = [r] ∧
     ∀ x ∈ res.pick.pending, x.isVar = false → x.seq < r.seq → x.dest ≠ r.dest) ∧
    (let r := fixRes
     r.isVar = false ∧ res.pick.clk < r.due ∧
     res.pick.pending.filter (fun x => !x.isVar && decide (x.due ≤ r.due)) = [r]) := by decide +kernel

theorem test_hyp_laneProgress : fresh.pick.blocks.map (·.started) = [false] ∧ fresh.laneLive = true ∧
    fresh.team.phase.isSaving = false ∧ atEnd.pick.blocks.map (·.started) = [true] ∧ atEnd.laneLive = true ∧
    (∀ n < 8, (atEnd.pick.ls.strand n).lpc = none) ∧ atEnd.pick.pending.map (·.dest) = [.nothing, .vreg 8] ∧
    atEnd.pick.pending.map (·.isVar) = [true, false] ∧ atEnd.pick.blocks.map (·.batches) = [[1, 1]] ∧
    met.laneLive = true ∧ met.pick.running = true ∧ met.pick.ls.frags.filter met.pick.ls.fragLive ≠ [] ∧
    (∀ f ∈ met.pick.ls.frags.filter met.pick.ls.fragLive, f.waitAt.isSome = true) ∧
    (∀ n < 8, ((met.pick.ls.frags.filter met.pick.ls.fragLive).flatMap Fragment.members).count n ≤ 1) ∧
    passed.pick.ls.frags[0]?.map (fun f => (f.rise, f.passed)) = some (2, 64) ∧ passed.pick.running = true := by
  decide +kernel

/-- A loom of eighteen picks whose reservations and the names of the first fill bank 0; the first one wants a name. -/
def crowd : State :=
  let s := onTeam sc (fun m => { m with picks := (List.range 18).map (64 + ·) })
  let s := onCtx s (fun c => { c with rbBase := 0x1000000 })
  let s := { s with picks := (List.range 17).foldl (fun t k => tput {} t (65 + k)
    { live := true, team := 1, index := k + 1, slot := k + 1, reservation := 239 }) s.picks }
  onPick s (fun p => { p with parkWant := some (0, 1), names := [0, 4, 8, 12].map (fun n => (n, { st := .allocated })) })

/-- A pick alone, parked with two names spilled. -/
def away : State := onCtx (onPick sc (fun p => { p with parked := true, spilled := [8, 4] })) (fun c => { c with rbBase := 0x1000000 })

theorem test_hyp_pickTraps :
    ((onPick sc (fun p => { p with xfences := [⟨4, 8, 1, false⟩] })).pick.xfences.map (·.drained) = [false]) ∧
    (let s := onPick sc (fun p => { p with held := some { cause := .perm, tval := 0, src := true, tspc := 4 } })
     s.pick.held.map (fun r => (r.async, r.src)) = some (false, true) ∧ s.pick.wait = .none ∧ s.pick.parked = false ∧
     ∀ f ∈ s.pick.ls.frags, f.hold = none) ∧
    ∀ w ∈ [Wait.none, .latch 1 2 3 4 5],
      let s := onPick sc (fun p => { p with dieLost := 8, wait := w })
      s.pick.live = true ∧ s.pick.mode = false ∧ s.pick.parked = false ∧ s.pick.held = none ∧ s.pick.dieLost ≠ 0 ∧
      s.pick.ls.frags.any (fun f => f.hold.isSome) = false := by decide +kernel

theorem test_hyp_parking : crowd.pick.parked = false ∧
    crowd.surplus crowd.team.die crowd.team.loom 0 < crowd.pick.lacks 0 ∧
    crowd.victim crowd.team.die crowd.team.loom 0 = some 64 ∧ (crowd.pickAt 64).drain.surplusNames = [12, 8] ∧
    (∀ n ∈ (crowd.pickAt 64).drain.surplusNames, (crowd.resolve2 (crowd.ctxAt (crowd.teamAt (crowd.pickAt 64).team).ctx) rightW
      (crowd.spillAt 64 n) 128).toOption.map (·.1) = some (List.range' (crowd.spillAt 64 n) 128)) ∧
    ((crowd.pickAt 64).drain.surplusNames.map (crowd.spillAt 64)).Pairwise (fun a b => a + 128 ≤ b ∨ b + 128 ≤ a) ∧
    away.pick.parked = true ∧ away.loomPicks away.team.die away.team.loom = [64] ∧
    (∀ b < 4,
      let n := (away.pick.spilled.filter (fun x => x % 4 == b)).length + away.pick.lacks b
      n = 0 ∨ n ≤ away.surplus away.team.die away.team.loom b) ∧
    (∀ n ∈ away.pick.spilled, (away.resolve2 away.ctx rightR (away.spillAt away.cur n) 128).toOption.isSome = true) := by
  decide +kernel

/-! ## Hypotheses: engines and units -/

/-- Operation 1 of pick 64, and its team's launch. -/
def op1 (o : Op) (s : State) : State := { s with ops := [(1, o)] }
def launch (l : Launch) (s : State) : State :=
  { onTeam s (fun m => { m with launch := 1 }) with launches := tput {} s.launches 1 l }

/-- SH.FILL of two words at 0x200000, and MX.ZERO of tile 0, in execution; a collective of one rank, this one. -/
def fill (ph : OpPhase) : Op := { pick := 64, func := 0x04, path := 2, batch := 1, desc := 0x200000 + 8 * 2 ^ 128 + 0xAABBCCDD * 2 ^ 160, phase := ph }
def zero0 : Op := { pick := 64, func := 0x15, path := 3, batch := 1, wa := 1, phase := .running }
def allred : Op := { pick := 64, func := 0x30, path := 5, batch := 1, desc := 0x200000 * 2 ^ 32 + 0x210000 * 2 ^ 96 + 2 * 2 ^ 160 }
def rank0 : State := op1 allred { onCtx sc (fun c => { c with cgBase := 0x300000, cgCount := 1 }) with
  mem := wrNat (wrNat sc.mem 0x300000 16 (1 + 0x300100 * 2 ^ 64)) 0x300100 4 5, dev := { sc.dev with devid := some 5 } }

theorem test_hyp_engineStart : (op1 (fill .queued) sc).opAt 1 = some (fill .queued) ∧
    (op1 (fill .queued) sc).canRun (fill .queued) = true ∧ rank0.opAt 1 = some allred ∧ rank0.canRun allred = true ∧
    (let v := { rank0 with cur := 64 }.setOp 1 { allred with phase := .running }
     let o := { allred with phase := .running }
     (v.coGroup o).toOption.any (fun g => (v.groupRefusal g).isNone) = true ∧ v.coWindow o = true ∧
     (v.coLocal o).toOption.any (fun data => data.length == 8) = true) ∧ rank0.poison = [] ∧ allred.joint = [] := by
  decide +kernel

theorem test_hyp_engineOperations :
    (({ op1 (fill .running) sc with cur := 64 } : State).opPlan (fill .running)).toOption.any (fun p => p.bad.isNone) = true ∧
    (fill .running).shBar = false ∧ (fill .running).desc.testBit 56 = false ∧ (fill .running).fail = none ∧
    (fill .running).desc / 2 ^ 128 % 2 ^ 32 = 8 ∧ 8 % 4 = 0 ∧
    (∀ i < 8, ((op1 (fill .running) sc).resolve ((op1 (fill .running) sc).ctxAt ((op1 (fill .running) sc).teamAt 1).ctx) rightW
      ((fill .running).desc % 2 ^ 56 + i) 1).toOption = some ([0x200000 + i], 1) ∧
      paPlaces (0x200000 + i) = [0x200000 + i] ∧ paMirrored (0x200000 + i) = false) ∧
    (op1 zero0 sc).opAt 1 = some zero0 ∧ sc.wlog = [] := by decide +kernel

/-- Two picks at the rendezvous latch with one mask of both; in the second state their N differs. -/
def mmaj (k n : Nat) : Op := { pick := k, func := 0x11, path := 3, batch := 1, gang := 3, phase := .latched, desc := n * 2 ^ 12 }
def meet (n : Nat) : State := { sc with ops := [(1, mmaj 64 8), (2, mmaj 65 n)] }

theorem test_hyp_rendezvous : (meet 8).oldestWaiting ((meet 8).cur / 64) = [(1, mmaj 64 8), (2, mmaj 65 8)] ∧
    ((meet 8).ops.map (·.1)).Nodup ∧ ((meet 8).ops.map (fun e => e.2.pick % 64)).Nodup ∧ (∀ e ∈ (meet 8).ops, e.2.gang.toNat % 2 ^ 48 = 3) ∧
    (∀ n, (3 : Nat).testBit n = true ↔ ∃ e ∈ (meet 8).ops, e.2.pick % 64 = n) ∧
    (mmaj 64 8).jointKey = (mmaj 65 8).jointKey ∧ (mmaj 64 8).jointKey ≠ (mmaj 65 9).jointKey := by
  refine ⟨by decide +kernel, by decide +kernel, by decide +kernel, by decide, ?_, by decide +kernel, by decide⟩
  intro n
  rcases n with _ | _ | n
  · decide +kernel
  · decide +kernel
  · constructor
    · intro h
      exact absurd h (by simp [Nat.testBit_lt_two_pow (show (3 : Nat) < 2 ^ (n + 1 + 1) from by
        calc (3 : Nat) < 2 ^ 2 := by decide
          _ ≤ 2 ^ (n + 1 + 1) := Nat.pow_le_pow_right (by decide) (by omega))])
    · rintro ⟨e, he, h⟩
      have : e.2.pick % 64 = 0 ∨ e.2.pick % 64 = 1 := by
        simp only [meet, List.mem_cons, List.not_mem_nil, or_false] at he
        rcases he with rfl | rfl
        · exact .inl (by decide)
        · exact .inr (by decide)
      omega

/-- A query to a unit on path 7. -/
def ask (func : Nat) (wa wb : Word) (desc : Nat) : Op := { pick := 64, func, path := 7, batch := 1, wa, wb, desc, arrived := some 3 }
/-- A launch with a grid of two tiles and two tasks, the second waiting for the first. -/
def work : Launch := { lr := sampleRecord + 2 * 2 ^ 416 + 2 ^ 432, total := 1, tasks := [
  { ns := 1, succ := [1], pri := 1 }, { dep := 1 }] }

/-- The query in its unit, the clk of its arrival over. -/
def asked (o : Op) : State := op1 o (launch work { sc with dies := tput {} sc.dies 12 { (sc.dieAt 12) with cycles := 4 } })

theorem test_hyp_workUnits : (∀ o ∈ [ask 0x48 0x10 0 0, ask 0x49 0 0 (3 * 2 ^ 56), ask 0x51 0 0 0, ask 0x61 2 0x800 0x1234],
      (asked o).opAt 1 = some o ∧ (asked o).queryTurn o = true ∧ o.phase = .queued ∧ (asked o).wlog = []) ∧
    (asked (ask 0x48 0 0 0)).launchAt ((asked (ask 0x48 0 0 0)).teamAt 1).launch = work ∧ work.regrant = [] ∧
    work.gridNext < (lrGrid work.lr).1 * (lrGrid work.lr).2 ∧ (lrGrid work.lr).1 * (lrGrid work.lr).2 = 2 ∧
    (ask 0x49 0 0 (3 * 2 ^ 56)).f 56 8 < 16 ∧ (tget ({} : Queue) sc.ctx.queues 3).base = 0 ∧
    (let s := onCtx sc (fun c => { c with queues := [(3, { base := 4096, device := List.replicate 64 (9, 0) })] })
     64 ≤ (tget ({} : Queue) s.ctx.queues 3).device.length) := by decide +kernel

theorem test_hyp_tasks : work.tasks[0]?.map (fun x => (x.ready, x.succ.take x.ns)) = some (true, [1]) ∧ work.frozen = false ∧
    [1].Nodup ∧ 0 ∉ [1] ∧ work.tasks[1]? = some { dep := 1 } ∧ ({ dep := 1 } : Task).ready = false ∧
    (∀ x ∈ ({ work with tasks := [{ dep := 1 }] } : Launch).tasks, x.ready = false) ∧
    (let l : Launch := { work with tasks := [{ ns := 1, succ := [1] }, ({} : Task)] }
     l.tasks[1]? = some ({} : Task) ∧ ({} : Task).dep = 0) ∧
    (let o := ask 0x52 1 4094 0
     0 < o.wb.toNat ∧ o.wb.toNat ≤ 4095 ∧ 1 + o.wb.toNat < 4096 ∧ ({ dep := 1 } : Task).issued = false) := by decide +kernel

/-- A draft of a store, bound in slot 2 of the loom, being loaded there for a team or an operation. -/
def dr : Draft := { word := 0x1234, table := [], ilen := 224, meas := 0 }
def bind (j : Nat) : State :=
  let s := { sc with slots := [(2, { loading := some dr, waiters := [(1, j)] })], worlds := [(1, { drafts := [dr] })] }
  if j = 0 then onTeam s (fun m => { m with phase := .binding, lr := m.lr + 4 * 2 ^ 1008 + 0x1234 * 2 ^ (64 * 2 + 1024) })
  else op1 { ask 0x61 2 0x800 0x1234 with phase := .running } s

theorem test_hyp_slots : (bind 0).slotAt 0 0 2 = { loading := some dr, waiters := [(1, 0)] } ∧
    (bind 0).loadTurn 0 0 2 = true ∧ (bind 1).loadTurn 0 0 2 = true ∧
    (((bind 0).worldAt ((bind 0).dieAt 0).world).drafts.any (fun y => y.word == dr.word)) = true ∧
    ((bind 0).teamAt 1).phase = .binding ∧ ((bind 0).teamAt 1).needs = [(2, 0x1234)] ∧
    ((bind 0).teamAt 1).die = 0 ∧ ((bind 0).teamAt 1).loom = 0 ∧ (bind 1).slotAt 0 0 2 = { loading := some dr, waiters := [(1, 1)] } ∧
    (bind 1).opAt 1 = some { ask 0x61 2 0x800 0x1234 with phase := .running } ∧
    (let s := { sc with slots := [(2, { bound := some dr })] }
     (s.slotAt 0 0 2).loading = none ∧ (s.slotAt 0 0 2).bound = some dr ∧
     dr.word.toNat = (ask 0x61 2 0x800 0x1234).desc % 2 ^ 64) := by decide +kernel

/-- A launch whose one team has published, its table at 0x310000. -/
def table : State := launch { work with lr := work.lr + 0x310000 * 2 ^ 832, lives := [(0, .finished)] } sc

theorem test_hyp_taskTable : (table.launchAt 1).tasks ≠ [] ∧ (table.launchAt 1).wroteBack = false ∧
    (table.launchAt 1).lives.length = (table.launchAt 1).total ∧ (∀ e ∈ (table.launchAt 1).lives, e.2 = .finished) ∧
    (table.resolve (table.ctxAt (table.launchAt 1).ctx) rightW (lrTasktab (table.launchAt 1).lr) 32).toOption =
      some (List.range' 0x310000 32, 1) ∧ ((List.range' 0x310000 32).flatMap paPlaces).Nodup ∧
    lrTasktab (table.launchAt 1).lr % 4 = 0 := by decide +kernel

/-! ## Hypotheses: teams, launches and contexts -/

/-- A second launch of one team, accepted and not started, its record at 0x320000. -/
def la : Launch := { lr := sampleRecord, lnum := 1, lrec := 0x320000, order := 1, total := 1 }
def wait (l : Launch) : State := { sc with launches := [(2, l)], mem := wrNat sc.mem 0x320000 256 sampleRecord }

theorem test_hyp_teamStart : (wait la).firstReady 2 = some 0 ∧ (wait la).earlierStarts 2 = false ∧
    lrCoop ((wait la).launchAt 2).lr = false ∧ (wait la).canStart 2 0 0 39 = true ∧
    ((wait la).launchAt 2).life 0 = .unstarted ∧ lrDmask ((wait la).launchAt 2).lr = 0 := by decide +kernel

/-- A team that has ended, its record to go to 0x330000. -/
def ended : State := launch la (onTeam sc (fun m => { m with phase := .done 1, picks := [], lr := m.lr + 0x330000 * 2 ^ 896 }))

theorem test_hyp_publish : (ended.teamAt (ended.cur / 64)).phase = .done 1 ∧ (1 : Nat) ≠ 3 ∧
    (ended.teamAt 1).waitOps = [] ∧ (ended.teamAt 1).pred = 0 ∧ ended.ops = [] ∧ ended.awaitsTable (ended.teamAt 1) = false ∧
    (ended.resolve (ended.ctxAt (ended.teamAt 1).ctx) rightW (lrCompl (ended.teamAt 1).lr + 16 * (ended.teamAt 1).index)
      16).toOption = some (List.range' 0x330000 16, 1) ∧ ((List.range' 0x330000 16).flatMap paPlaces).Nodup ∧
    lrCompl (ended.teamAt 1).lr % 4 = 0 := by decide +kernel

/-- Picks of a team at the retire latch: one alone, with a record at 0x320000, and two with unlike operands. -/
def latch1 : State := onPick (onTeam (wait la) (fun m => { m with launch := 2 })) (fun p =>
  { p with wait := .latch 0 0 0 0 0x320000 })
def latch2 : State := let s := onTeam (onPick sc (fun p => { p with wait := .latch 0 0 0 0 0x320000 })) (fun m => { m with picks := [64, 65] })
  { s with picks := tput {} s.picks 65 { live := true, team := 1, index := 1, wait := .latch 1 0 0 0 0x320000 } }

theorem test_hyp_successors : (latch1.teamAt (latch1.cur / 64)).picks = [64] ∧ (latch1.teamAt 1).phase = .running ∧
    (latch1.pickAt 64).wait = .latch 0 0 0 0 0x320000 ∧ (latch1.pickAt 64).parked = false ∧ 1 < latch1.nextTeam ∧
    (latch1.validate (latch1.recordAgent 64) (latch1.teamAt 1).ctx 0x320000 true).toOption.any (fun x =>
      x.1 == sampleRecord && shapeReason (latch1.teamAt 1).lr x.1 0 == 0) = true ∧
    (latch2.teamAt 1).picks = [64, 65] ∧ (latch2.pickAt 65).wait = .latch 1 0 0 0 0x320000 ∧ ((1 : Word), (0 : Word)) ≠ (0, 0) ∧
    ∀ k ∈ (latch2.teamAt 1).picks, (latch2.pickAt k).mode = false ∧ (latch2.pickAt k).parked = false ∧
      (latch2.pickAt k).held = none ∧ ∀ f ∈ (latch2.pickAt k).ls.frags, f.hold = none := by decide +kernel

/-- A successor that waits for its loom. -/
def heir : State := onTeam sc (fun m => { m with phase := .successor, succWait := true, keptScr := 4096, keptTiles := 1 })

theorem test_hyp_successorStart : (heir.teamAt (heir.cur / 64)).phase = .successor ∧ (heir.teamAt 1).slotWords = [] ∧
    lrDmask (heir.teamAt 1).lr = 0 ∧ heir.admits (heir.ctxAt (heir.teamAt 1).ctx).world (heir.teamAt 1).lr [] 0 0 1 = true ∧
    (let u := heir.buildSuccessor 1
     ∀ b < 4, ((u.loomPicks 0 0).map (fun k => max (u.pickAt k).reserve ((u.pickAt k).holds b))).sum ≤ 1024) := by
  decide +kernel

/-- A ring of one entry at 0x340000 that names a launch record, the count of entries taken as its tail was written. -/
def ring (rec_ : Nat) : State :=
  let s := onCtx (wait la) (fun c => { c with queues := [(15, { base := 0x340000, tail := 1, upto := 1 })] })
  { s with mem := wrNat s.mem 0x340000 8 rec_ }

theorem test_hyp_submission :
    let x := tget ({} : Queue) (ring 1).ctx.queues 15
    let u (r : Nat) := (ring r).count 12 (0x002 + 1024 * (ring r).ctx.world) 1
    (ring 1).ctx.live = true ∧ x.base ≠ 0 ∧ x.base % 4 = 0 ∧ x.device = [] ∧ x.head ≠ x.upto ∧
    ((ring 1).resolve (ring 1).ctx rightR 0x340000 32).toOption = some (List.range' 0x340000 32, 1) ∧
    (ring 1).poisoned (List.range' 0x340000 32) = false ∧
    ((u 1).resolve (ring 1).ctx rightW 0x340010 16).toOption = some (List.range' 0x340010 16, 1) ∧
    ((List.range' 0x340010 16).flatMap paPlaces).Nodup ∧
    (∀ r ∈ [1, 0x320000], ofLe ((ring r).devBytes (List.range' 0x340000 32)) % 2 ^ 56 = r) ∧
    ((u 1).validate deviceAgent 0 1 false).toOption = none ∧
    ((u 0x320000).validate deviceAgent 0 0x320000 false).toOption.any (fun y => y.1 == sampleRecord) = true := by
  decide +kernel

/-- A launch with one edge over two records at 0x350000, of which the second holds a STATUS. -/
def edge (st : Nat) : State :=
  let s := wait { la with lr := sampleRecord + 2 ^ 264 + 0x350000 * 2 ^ 1600 + 2 * 2 ^ 1664 + 2 ^ 1696 }
  { s with mem := wrNat (wrNat s.mem 0x350000 16 1) 0x350010 16 st }

theorem test_hyp_edges : ((edge 2).launchAt 2).total ≠ 0 ∧ ((edge 2).launchAt 2).ended = false ∧
    ((edge 2).ctxAt 0).ended = false ∧ lrCoop ((edge 2).launchAt 2).lr = false ∧ lrNdep ((edge 2).launchAt 2).lr = 1 ∧
    lrEdge ((edge 2).launchAt 2).lr 0 = (0x350000, 2, 1) ∧ ((edge 2).launchAt 2).met = [] ∧
    (∀ i < 2, ((edge 2).statusAt 0 (0x350000 + 16 * i)).1 = 1 ∨ ((edge 2).statusAt 0 (0x350000 + 16 * i)).1 = 2) ∧
    (∀ j < 1, breaks ((edge 7).statusAt 0 (0x350000 + 16 * j)).1 = false) ∧ 4 ≤ ((edge 4).statusAt 0 0x350010).1 ∧
    ((edge 7).statusAt 0 0x350010).1 ≤ 7 ∧ ((edge 7).launchAt 2).broken = [] ∧
    ((onCtx (edge 2) (fun c => { c with ended := true })).ctxAt 0).ended = true := by decide +kernel

/-- The context's one team at a request, at the bounds of the decision of R452. -/
def req (alw : BitVec 2) (dl room lr li : Nat) : State :=
  onCtx (onTeam sc (fun m => { m with lr := m.lr + lr, li := li })) (fun c => { c with prqalw := alw, prqdl := dl, saveSize := room })

/-- What the request decides for the team: 1 a drain, 2 a discard, 3 a save. -/
def act (s : State) : Nat :=
  decideTeam { s.team with by_ := s.bytesOf s.team } s.ctx.prqalw
    (((s.dieAt s.team.die).cycles.toNat - s.team.started : Nat) * 5 / 9) (s.ctx.prqdl * 1000 : Nat)

theorem test_hyp_preemption :
    (let s := { sc with teams := [] }
     s.teams.filter (fun e => e.2.ctx == 0 && e.2.phase.resident) = [] ∧ (s.ctxAt 0).live = true ∧
     (s.ctxAt 0).ended = false ∧ (s.ctxAt 0).prqgo = false ∧ (s.ctxAt 0).prqWaiting = false) ∧
    (req 1 3 0 (2 ^ 1536) 256).teams.filter (fun e => e.2.ctx == 0 && e.2.phase.resident) = [(1, (req 1 3 0 (2 ^ 1536) 256).team)] ∧
    ((req 1 3 0 (2 ^ 1536) 256).teams.map (·.1)).Pairwise (· < ·) ∧
    act (req 1 3 0 (2 ^ 1536) 256) = 1 ∧ act (req 1 2 0 (2 ^ 1536) 256) = 3 ∧ act (req 2 1 0 (2 ^ 258) 0) = 2 ∧
    imageBytes sampleRecord = 126976 ∧ saveRoom 126976 126976 [] = some 0 ∧ saveRoom 126975 126976 [] = none ∧
    sc.team.succWait = false ∧ sc.ops = [] ∧ lrCoop (sc.launchAt sc.team.launch).lr = false := by decide +kernel

theorem test_hyp_drain :
    (let s := onTeam sc (fun m => { m with phase := .draining 2993 1 })
     (s.teamAt (s.cur / 64)).phase = .draining 2993 1 ∧ saveTime s.team.lr < ((2993 : Nat) : ℚ) - (s.ns s.team.die : ℚ)) ∧
    (((2992 : Nat) : ℚ) - (sc.ns sc.team.die : ℚ) ≤ saveTime sc.team.lr) := by decide +kernel

/-- A team told to save (a size of 64 keeps the evaluation small) whose pick stands at a safe point. -/
def save : State := onCtx (onTeam (onPick sc (fun p => { p with wait := .stopped })) (fun m => { m with phase := .saving 3 0 64 }))
  (fun c => { c with saveBase := 0x1000000, saveSize := 64 })

theorem test_hyp_teamSave : (save.teamAt (save.cur / 64)).phase = .saving 3 0 64 ∧
    (∀ k ∈ (save.teamAt 1).picks, save.stoppable (save.pickAt k) = true) ∧ save.ops = [] ∧
    (save.resolve2 (save.ctxAt 0) rightW (0x1000000 + 0) 64).toOption = some (List.range' 0x1000000 64, 1) ∧
    (0x1000000 + 0) % 4 = 0 ∧ ((List.range' 0x1000000 64).flatMap paPlaces).Nodup := by decide +kernel

/-- A stopped context with its page registers written; with a saved team, a successor that had not started, whose image
has a head with this magic number; with a poisoned word. -/
def stopped : State := onCtx sc (fun c => { c with st := 2, s1Written := true, rbWritten := true, saveBase := 0x1000000 })
def image (magic : Nat) : State :=
  let s := onTeam stopped (fun m => { m with phase := .saved 0 64, picks := [], succWait := true })
  { s with mem := wrNat s.mem 0x1000000 64 (magic + 2 ^ 32 + 2 * 2 ^ 48 + s.team.index * 2 ^ 128 + lrP s.team.lr * 2 ^ 160 +
      lrTiles s.team.lr * 2 ^ 168 + lrScru s.team.lr * 2 ^ 176 + s.team.lrec * 2 ^ 192) }

theorem test_hyp_resume : stopped.ctx.live = true ∧ stopped.ctx.ended = false ∧ stopped.ctx.st = 2 ∧
    stopped.ctx.s1Written = true ∧ stopped.ctx.rbWritten = true ∧ (∀ e ∈ stopped.teams, e.2.phase = .running) ∧
    (image 0).teams.map (fun e => (e.1, e.2.ctx, e.2.phase)) = [(1, 0, .saved 0 64)] ∧
    ((image 0).resolve2 (image 0).ctx rightR (0x1000000 + 0) 64).toOption = some (List.range' 0x1000000 64, 1) ∧
    (image 0).poisoned (List.range' 0x1000000 64) = false ∧
    ({ image 0 with poison := [0x400003] } : State).poisoned (List.range' 0x1000000 64) = true ∧
    ((image 0).fromImg 1 (imgOf ((image 0).devBytes (List.range' 0x1000000 64)))).isNone = true ∧
    (let rd := imgOf ((image 0x31535650).devBytes (List.range' 0x1000000 64))
     ((image 0x31535650).fromImg 1 rd).isSome = true ∧ ∀ n < 8, rd (0x40 + 8 * n) 8 = 0) := by decide +kernel

/-! ## Hypotheses of the statements on faults, worlds, pages, failures and bring-up -/

/-- A device with one unanswered stage-1 fault of a load at 0x200000, of the agent named. -/
def flt (who : Nat ⊕ (Nat × BitVec 8) ⊕ Nat) (s : State) : State :=
  onCtx s (fun c => { c with faults := [{ fid := 9, stage2 := false, lvl := 0, addr := 0, who, va := 0x200000 }] })
def fltS : State := flt (.inl 64) (onPick sc (fun p => { p with wait := .fault 9 }))
def fltL : State := flt (.inr (.inl (64, 255))) ln
def fltOp : State := flt (.inr (.inr 1)) (op1 (fill (.faulted 9)) sc)

theorem test_hyp_faultAnswers : (fltS.faultFor 0 9 false).map (·.who) = some (.inl 64) ∧
    (fltS.pickAt 64).wait = .fault 9 ∧ fltS.faultFor 0 9 true = none ∧
    (∀ s ∈ [fltS, fltL], (s.pickAt 64).mode = false ∧ (s.pickAt 64).parked = false ∧ (s.pickAt 64).held = none ∧
      ∀ f ∈ (s.pickAt 64).ls.frags, f.hold = none) ∧
    fltS.faultFor 0 8 false = none ∧
    ((fltL.faultFor 0 9 false).map (fun f => (f.who, f.landing))) = some (.inr (.inl (64, 255)), false) ∧
    (fltL.pickAt 64).wait = .none ∧
    (fltOp.faultFor 0 9 false).map (·.who) = some (.inr (.inr 1)) ∧ fltOp.opAt 1 = some (fill (.faulted 9)) ∧
    (fill (.faulted 9)).path ≠ 5 ∧ (sc.ctxAt 0).live = true ∧ (sc.ctxAt 0).invgo = 0 := by decide +kernel

/-- Die 11 in a state of R472, with the function of world 1 enabled. -/
def die11 (st world : Nat) : State :=
  { sc with dies := tput {} sc.dies 11 { (sc.dieAt 11) with st, world }, fns := [(1, { enabled := true, world := 1 })] }

theorem test_hyp_dies : (die11 0 0).ready = true ∧ ((die11 0 0).dieAt 11).lost = false ∧ ((die11 0 0).dieAt 11).st = 0 ∧
    (die11 0 0).holders 65535 = [] ∧ (die11 0 0).holders 1 = [0] ∧
    (let s := (die11 0 0).setDieAt 11 { s2root := 0x1000 }
     s.holders 1 = [0] ∧ ∀ n ∈ s.holders 1, (s.dieAt n).s2root = (s.dieAt 11).s2root) ∧
    ((die11 1 0).dieAt 11).st = 1 ∧
    (die11 2 1).worldLocked 1 = false ∧ ((die11 3 7).dieAt 11).st = 3 ∧ (∀ e ∈ (die11 3 7).teams, (die11 3 7).heldBy 11 e.2 = false) ∧
    (∀ n < 12, n ≠ 11 → ((die11 3 7).dieAt n).world ≠ 7 ∧ ((die11 3 7).dieAt n).pendingWorld ≠ 7) ∧
    ((die11 2 1).fnAt 1).enabled = true ∧ ((die11 2 1).fnAt 1).world = 1 ∧ (die11 2 1).ctxFree 4095 = true ∧
    (sc.ctxAt 0).live = true ∧ (sc.ctxAt 0).ended = false ∧ (sc.teams.map (·.1)).Nodup := by decide +kernel

/-- A function of world 1 that asks for a draft: removal of the draft `dr`, or a load of a length out of bounds. -/
def page (f : Function) : State :=
  { sc with fns := [(1, f)], worlds := [(1, { drafts := [dr], allow := 2 })] }

theorem test_hyp_drafts : State.reset.ready = false ∧ (page {}).ready = true ∧ ((page {}).fnAt 1).dlgo = 0 ∧
    ((page { dlgo := 1 }).fnAt 1).dlgo = 1 ∧ ((page { dlgo := 1 }).fnAt 1).world = 0 ∧
    ((page { world := 1, dlgo := 1, dllen := 223 }).fnAt 1).dllen < 224 ∧
    270336 < ((page { world := 1, dlgo := 1, dllen := 270337 }).fnAt 1).dllen ∧
    2 ^ 50 < ((page { world := 1, dlgo := 1, dladdr := 2 ^ 50 - 223 }).fnAt 1).dladdr + 224 ∧
    (∀ d ∈ ((page { world := 1, dlgo := 2 }).worldAt 1).drafts, d.word.toNat ≠ 0) ∧
    ((page { world := 1, dlgo := 2, dladdr := 0x1234 }).worldAt 1).drafts.any (fun d => d.word.toNat == 0x1234) = true := by
  decide +kernel

theorem test_hyp_hostPages : ((page {}).dieAt 0).world = 1 ∧ ((page {}).worldAt 1).allow.testBit 0x001 = true ∧
    ((page { cntsel := 1 }).fnAt 1).cntsel % 1024 = 0x001 ∧ ((page {}).worldAt 1).allow.testBit 0x203 = false ∧
    ((page {}).worldAt 1).obs.length < 4096 ∧ (page {}).worldLocked 1 = false ∧
    ((page {}).worldAt 1).allow / 2 ^ (32 * 31) % 2 ^ 32 ≠ (2 ^ 32 - 1) % 2 ^ 32 ∧ sc.dev.devid = none ∧
    ({ sc.dev with devid := some 511 } : Device).devid = some 511 ∧ (sc.ctxAt 0).live = true ∧
    (sc.fnAt 0).ideDropped = false ∧ (∀ hyp, (sc.fnAt (sc.pageFn (.ctxPage 0 hyp))).ideDropped = false) ∧
    (let x := tget ({} : Queue) sc.ctx.queues 0
     2 ^ x.log2 < (BitVec.ofNat 32 (2 ^ 32 - 1) - x.head).toNat ∧ ¬ 2 ^ x.log2 < (BitVec.ofNat 32 1 - x.head).toNat) ∧
    960 % 16 = 0 ∧ 0x10000 % 65536 = 0 ∧ (sc.fnAt 0).enabled = false ∧ ((page { enabled := true }).fnAt 1).enabled = true ∧
    (2 ^ 256 - 1) / 2 ^ 176 % 2 ^ 16 = 65535 := by decide +kernel

/-- A device whose scale-up ports 0 and 35 are cabled to ports 4 and 511 of their planes. -/
def cabled : State := onCtx { page { enabled := true } with dev := { sc.dev with cabling := [(0, 4), (35, 511)] } }
  (fun c => { c with fn := 1, slot := 255 })

theorem test_hyp_bar : cabled.ready = true ∧ cabled.dev.devid = none ∧ cabled.dev.cabling.lookup 0 = some 4 ∧
    (cabled.fnAt 1).enabled = true ∧ (cabled.fnAt 1).ideDropped = false ∧
    cabled.ctxs.map (fun e => (e.1, e.2.live, e.2.fn, e.2.slot)) = [(0, true, 1, 255)] := by decide +kernel

theorem test_devid_cabling : (match exec (.hostRegisterWrite (.bar 0) 0x200300 ⟨4, none⟩) cabled with
    | .next t => (t.dev.devid, t.dev.cableLog, (t.linkAt 36).down, (t.linkAt 71).down)
    | _ => (none, [], true, false)) = (some 4, [35], false, true) := by decide +kernel

theorem test_bar_page : (match exec (.hostRegisterWrite (.bar 1) 0x100404 ⟨5, none⟩) cabled with
    | .next t => ((t.ctxAt 0).prqdl, t.barRead 1 0x100404, t.barRead 0 0x200300, t.barRead 1 0x200300)
    | _ => (0, none, none, none)) = (5, some 5, some 0xFFFFFFFF, some 0) := by decide +kernel

/-- A device with a number, serving world 1 from die 0 through the tables of the placed context, and a second context of
another world. -/
def dom : State := { sc with dev := { sc.dev with devid := some 0 }, ctxs := tput {} sc.ctxs 5 { live := true, world := 2 } }

theorem test_hyp_arrivals : dom.ready = true ∧ dom.dev.devid ≠ none ∧
    dom.remotePas 1 0x200000 rightW 4 = some [0x200000, 0x200001, 0x200002, 0x200003] ∧
    dom.remotePas 1 0x200000 rightRW 8 = some (List.range' 0x200000 8) ∧ dom.poisoned (List.range' 0x200000 8) = false ∧
    ((List.range' 0x200000 8).flatMap paPlaces).Nodup ∧ dom.settled peerAgent = true ∧ 0x200000 % 8 = 0 ∧
    (dom.remotePas 1 0x200000 rightR 4).isSome = true ∧ dom.partitionDies 3 = [] ∧ (dom.ctxAt 0).live = true ∧
    (dom.ctxAt 0).ended = false ∧ (dom.ctxAt 0).world = 1 ∧ (dom.ctxAt 5).live = true ∧ (dom.ctxAt 5).world ≠ 1 ∧
    (dom.resolve (dom.ctxAt 0) rightW 0x200000 4).toOption = some ([0x200000, 0x200001, 0x200002, 0x200003], 1) ∧
    dom.wlog = [] := by decide +kernel

/-- A function at a state of its interface, with a session, beside a world whose keys are in use or being swept. -/
def vf (f : Function) : State :=
  { sc with fns := [(0, { session := true }), (1, { f with enabled := true, world := 1 })],
            worlds := [(1, { keyed := true }), (2, { keyed := true, sweeping := true })],
            ctxs := tput {} sc.ctxs 0 { (sc.ctxAt 0) with fn := 1 },
            dev := { sc.dev with minSvn := [(4, 7)], imageSvn := [(4, 9)] } }

theorem test_hyp_security : ((vf {}).worldAt 1).keyed = true ∧ ((vf {}).worldAt 1).sweeping = false ∧
    ((vf {}).worldAt 2).sweeping = true ∧ ((vf { session := true }).fnAt 1).session = true ∧ ((vf {}).fnAt 1).tdisp = 0 ∧
    ((vf { tdisp := 1 }).fnAt 1).tdisp = 1 ∧
    ((vf {}).ctxs.filter (fun e => e.2.live && e.2.fn == 1)).map (·.1) = [0] ∧ ((vf {}).ctxAt 0).ended = false ∧
    ((vf { negotiated := true }).fnAt 1).negotiated = true ∧
    (let s := { vf { session := true, ideLive := [(true, 0)] } with ctxs := [] }
     s.ready = true ∧ s.ctxs = [] ∧ (s.fnAt 1).ideLive ≠ [] ∧ (s.fnAt 1).world ≠ 0 ∧ ∀ e ∈ s.ctxs, e.2.world ≠ (s.fnAt 1).world) ∧
    (∃ e ∈ (vf {}).ctxs, e.2.world = 1 ∧ e.2.live = true ∧ (vf {}).ctxFree e.1 = false) ∧
    ((vf {}).fnAt 0).session = true ∧ tget 0 (vf {}).dev.minSvn 4 < 9 ∧ 9 ≤ (vf {}).runningSvn 4 ∧
    7 ≤ tget 0 (vf {}).dev.minSvn 4 ∧ (vf {}).runningSvn 4 < 10 := by decide +kernel

theorem test_hyp_errors : 12 * 2 ^ 36 - 1 < 12 * 2 ^ 36 ∧ (lv.pickAt 64).live = true ∧ ((lv.pickAt 64).name 1).st = .allocated ∧
    (lv.pickAt 64).running = true ∧ (lv.teamAt 1).phase.resident = true ∧ 0 < lrTiles lv.team.lr ∧
    16384 * lrTiles lv.team.lr - 1 < 16384 * lrTiles lv.team.lr ∧ 4 * 1023 < 256 * lrScru lv.team.lr ∧
    (lv.dieAt 11).lost = false ∧
    (let s := onPick lv (fun p => { p with mode := true, trec := { p.trec with blk := true } })
     (s.pickAt 64).live = true ∧ (s.pickAt 64).mode = true ∧ (s.pickAt 64).trec.blk = true ∧ (s.pickAt 64).queue ≠ []) := by
  decide +kernel

/-- A second team of the context, on die 1, whose one pick lives on when die 0 is lost. -/
def pairUp : State := { sc with
  teams := tput {} sc.teams 2 { phase := .running, lr := sampleRecord, picks := [128], die := 1 }
  picks := tput {} sc.picks 128 { live := true, team := 2 }
  ctxs := tput {} sc.ctxs 0 { (sc.ctxAt 0) with tdmask := 0x1003 } }

theorem test_hyp_dieLoss : (let s := { State.reset with dev := sc.dev }
     s.ready = true ∧ (s.dieAt 11).lost = false ∧ s.ctxs = [] ∧ s.ops = [] ∧ ∀ k < 100, (s.linkAt k).down = false) ∧
    pairUp.ready = true ∧ pairUp.ctxs.map (fun e => (e.1, e.2.live, e.2.ended, e.2.tdmask, e.2.st)) =
      [(0, true, false, 0x1003, 0)] ∧ pairUp.ops = [] ∧ (pairUp.teams.map (·.1)).Nodup ∧ (pairUp.pickAt 128).live = true ∧
    (∀ e ∈ pairUp.teams, e.2.phase.resident = true → (e.2.die = 0 ∨ pairUp.retiring e.2 = true) → 128 ∉ e.2.picks) ∧
    (pairUp.teams.any (fun e => e.2.ctx == 0 && e.2.phase.resident && e.2.die == 0)) = true ∧
    (heir.teams.any (fun e => e.2.phase.resident && heir.retiring e.2)) = true ∧
    (∀ e ∈ pairUp.teams, e.2.phase = .running) ∧
    4 ≤ (sc.linkAt 71).width ∧ ({ width := 2 } : Link).width ≤ 2 := by decide +kernel

/-- A configuration image whose table has the points 0, 1 and, at 2001 MHz with no boost clock allowed, 2 (R494), a die on a
floor, a throttled one, and links before a grant, in training and before a commit. -/
def powered : State := { sc with
  dev := { sc.dev with image := List.replicate 0x90 0 ++ [1, 0, 1, 0, 2, 0, 1, 0, 0xD1, 7, 1, 0] }
  dies := tput {} (tput {} sc.dies 0 { (sc.dieAt 0) with floor := 1 }) 3 { (sc.dieAt 3) with throttled := true }
  links := [(2, { wantWidth := some 2 }), (35, { training := true }), (36, { training := true }), (40, { commit := true })] }

theorem test_hyp_power : powered.ready = true ∧ (powered.dieAt 0).throttled = false ∧ (powered.dieAt 3).throttled = true ∧
    (∀ e ∈ ([1, 0] : List Nat).zipIdx, powered.oppValid e.1 = true ∧ (powered.dieAt e.2).floor ≤ e.1) ∧
    (powered.linkAt 2).wantWidth ≠ none ∧ powered.oppValid 3 = false ∧
    2000 < powered.oppClock 2 ∧ (powered.cfg 6 2).testBit 0 = false ∧ powered.oppClock 1 ≤ 2000 ∧ 0 < (powered.dieAt 0).floor ∧
    (powered.linkAt 35).training = true ∧ (powered.linkAt 36).training = true ∧ (powered.linkAt 40).training = false ∧
    (powered.linkAt 40).commit = true ∧ (powered.linkAt 36).commit = false := by decide +kernel

/-- A device in a phase of its bring-up, with what its self tests found. -/
def boots (phase : Nat) (found : List (Nat × Nat × Nat)) : State :=
  { State.reset with dev := { State.reset.dev with powered := true, phase, selfTest := found } }

theorem test_hyp_bringUp : State.reset.dev.powered = false ∧ sc.dev.powered = true ∧ sc.dev.ioLost = false ∧
    sc.booting = false ∧ (∀ n ∈ [0, 2, 3, 5], (boots n []).booting = true ∧ (boots n []).agenda = [] ∧
      (boots n []).phaseFailure n = none) ∧ (boots 3 [(2, 0x08, 5)]).booting = true ∧
    (boots 3 [(2, 0x08, 5)]).phaseFailure 3 = some (2, 0x08, 5) := by decide +kernel

/-! ## Hypotheses of the statements on decoding and stepping -/

theorem test_hyp_decodeEncode : (Instr.vfma hd0 239 (src 255) ⟨239, 1, 6, 31⟩ (src 0) 6).wf = true ∧
    (Instr.vfma hd0 239 (src 255) ⟨239, 1, 6, 31⟩ (src 0) 6).stream ≠ 2 ∧
    decodeWords [0x09400009] = some (.saddi 20 0 9) := by decide +kernel

/-- The next step fetches a word of the S-stream, or a lane instruction. -/
def atS (w : Word) : State := State.reset.withFetchWord 32 w.toNat
def atL (w : BitVec 96) : State := State.reset.withFetchWord 96 w.toNat

/-- SNOP and an unallocated opcode; an operand check that fails (R6, R207, R215). -/
theorem test_hyp_stepScalar : ([0x09400009, 0, 0xE0020120] : List Word).all (fun w =>
    let s := atS w
    let u : State := { ({ s with agenda := [], fresh := s.fresh + 1 } : State).passOver (.scalar 64) with cur := 64 }
    s.agenda == [.scalar 64] && !s.dev.ioLost && !u.pick.frozen && u.team.phase.issues && !u.team.phase.isSaving &&
    u.pick.wait == .none && !u.pick.mode && s.settled s.fetchAgent &&
    ((u.resolve u.ctx rightX (u.ctx.sbase + u.pick.spc.setWidth 64).toNat 4).toOption ==
      some ([0x10000, 0x10001, 0x10002, 0x10003], 1)) && !s.poisoned [0x10000, 0x10001, 0x10002, 0x10003] &&
    (matchBreak (u.ctx.bkctl.toNat / 16) u.ctx.bks 2 u.pick.spc).isNone &&
    BitVec.ofNat 32 (u.fetched [0x10000, 0x10001, 0x10002, 0x10003]) == w) = true := by decide +kernel

theorem test_hyp_stepLane : ([0x0450_4181_0461_3000_0000_0000, 0, 0x0050_4181_1C61_3000_0000_0000] : List (BitVec 96)).all (fun w =>
    let s := atL w
    let v : State := { ({ s with agenda := [], fresh := s.fresh + 1 } : State).passOver (.lane 64 0) with cur := 64, frag := 0 }
    let pas := List.range' 0x20000 12
    s.agenda == [.lane 64 0] && !v.pick.frozen && v.team.phase.issues && v.pick.running && v.fragment.waitAt == none &&
    v.pick.ls.fragLive v.fragment && !v.team.phase.isSaving && !s.poisoned pas &&
    match (v.setPick (v.pick.advanceTo v.pick.nextLane)).payOwed with
    | .error _ => false
    | .ok x =>
      !x.pick.mode && x.pick.wait == .none &&
      ((x.resolve x.ctx rightX (x.ctx.lbase + ((x.pick.ls.fragPc v.fragment).getD 0).setWidth 64).toNat 12).toOption ==
        some (pas, 1)) &&
      (matchBreak x.ctx.bkctl.toNat x.ctx.bkl 4 ((x.pick.ls.fragPc v.fragment).getD 0)).isNone && !x.chk 3 &&
      BitVec.ofNat 96 (x.fetched pas) == w) = true := by decide +kernel

/-- SNOP and VLAND, the next instructions of one pick, in one clk. -/
def atBoth : State := { ln with mem := wrNat (wrNat ln.mem 0x10000 4 0x09400009) 0x20000 12 ((0x282 * 16 + 1) * 2 ^ 82), agenda := [.both 64 0] }

theorem test_hyp_stepBoth :
    (let v := ({ atBoth with agenda := [], fresh := atBoth.fresh + 1 } : State).passOver (.both 64 0)
     let p := v.pickAt 64
     match (v.setPickAt 64 { p with fmask := 0 }).issueLane 64 0 with
     | .done _ => false
     | .go i a =>
       match exec i a with
       | .next t => !v.stopped t 64 &&
         (match State.issueScalar { t.setPickAt 64 { t.pickAt 64 with fmask := p.fmask, seed := p.seed } with fresh := t.fresh + 1 } 64 with
          | .done _ => false
          | .go j b =>
            match exec j b with
            | .next x => !v.stopped x 64 && decide (i = .vland 1) && decide (j = .saddi 20 0 9)
            | _ => false)
       | _ => false) = true := by decide +kernel

/-- An event on the agenda, of the device and not; nothing on it at a fabric clk. -/
theorem test_hyp_stepEvent : Instr.stream (.powerOn) = 2 ∧ Instr.stream .snop ≠ 2 ∧
    (let s := { sc with agenda := [], fresh := 30 }
     s.booting = false ∧ s.fresh % 16 = 14 ∧ s.dev.ioLost = false) := by decide +kernel

theorem test_hyp_stepLost : (let s := { sc with dev := { sc.dev with ioLost := true }, agenda := [.event .powerOn 0] }
    s.dev.ioLost = true ∧ s.agenda = .event .powerOn 0 :: [] ∧ powerAction (.scalar 64) = false) := by decide +kernel

theorem test_hyp_tables : TablesInv { meet 8 with nextOp := 3 } := ⟨by decide +kernel, by decide +kernel, by decide +kernel⟩

theorem test_hyp_memory : MemInv sc := by
  refine ⟨by decide +kernel, fun k => ?_⟩
  have h : sc.teams = [(1, sc.teamAt 1)] := by decide +kernel
  by_cases hk : 1 = k
  · subst hk; decide +kernel
  · rw [State.teamAt, h]; simp [tget, hk, Memory.wf, risingFrom]

/-! ## Hypotheses of further clauses: streams, lanes, engines, the host -/

/-- The codes of the synchronising forms at their ends, and poisoned words in memory and scratch. -/
def bad4 : State := onTeam { acc with poison := [0x200000 / 4] } (fun m => { m with scratchPoison := [0xFFC / 4] })

theorem test_hyp_syncChecks : ¬ (3 : BitVec 3).toNat ≤ 2 ∧ ((2 : BitVec 3).toNat ≤ 2 ∧ (5 : BitVec 3).toNat ≤ 5) ∧
    ¬ (6 : BitVec 3).toNat ≤ 5 ∧ ¬ ((2 : BitVec 3) = 0 ∨ (2 : BitVec 3) = 1 ∨ (2 : BitVec 3) = 3) ∧
    bad4.regsReady [4, 5] [7] = true ∧ bad4.regsReady [6] [7] = true ∧
    (bad4.resolve bad4.ctx rightR 0x200000 4).toOption = some (List.range' 0x200000 4, 1) ∧
    bad4.poisoned (List.range' 0x200000 4) = true ∧ bad4.team.inRange 0xFFC 4 = true ∧ bad4.team.scratchBad 0xFFC 4 = true ∧
    bad4.takesTraps :=
  ⟨by decide, by decide, by decide, by decide, by decide +kernel, by decide +kernel, by decide +kernel, by decide +kernel,
    by decide +kernel, by decide +kernel, by decide +kernel, by decide +kernel, by decide +kernel, by decide +kernel⟩

/-- All arrivals come; a byte count at its limit; a poisoned object; BARINIT at a misaligned place and beyond the window. -/
theorem test_hyp_barrierChecks : ((bar 2).team.bar 0xFF8).arr = ((bar 2).team.bar 0xFF8).expa ∧
    (let s := onTeam (regs [(5, 1)] (bar 0)) (fun m => { m with scratch := wrNat m.scratch 0xFFC 4 0x7FFFFFFF })
     s.regsReady [4, 5] [] = true ∧ 2 ^ 31 ≤ (s.team.bar 0xFF8).xb + (s.pick.w 5).toInt) ∧
    (let s := onTeam (bar 0) (fun m => { m with scratchPoison := [0xFF8 / 4] })
     s.team.inRange 0xFF8 8 = true ∧ s.team.scratchBad 0xFF8 8 = true) ∧
    (regs [(4, 0xFFC)] sc).regsReady [4] [] = true ∧ ((regs [(4, 0xFFC)] sc).pick.w 4).toNat % 8 ≠ 0 ∧
    ((regs [(4, 0x1000)] sc).pick.w 4).toNat % 8 = 0 ∧ (regs [(4, 0x1000)] sc).team.inRange 0x1000 8 = false := by decide +kernel

/-- Reserved codes: element format 6, rounding 3; in trap mode of a pick that is not parked they end the context. -/
theorem test_hyp_reservedCodes : 6 ≤ (0x00960000#32).toNat / 2 ^ 16 % 8 ∧ (0x03000000#32).toNat / 2 ^ 24 % 4 = 3 ∧
    (0x0C000000#32).toNat / 2 ^ 26 % 4 = 3 ∧ (inTrap sc).pick.mode = true ∧ (inTrap sc).pick.parked = false ∧
    (inTrap sc).regsReady [5] [] = true ∧ (inTrap sc).ctx.ended = false ∧ sc.takesTraps := 
  ⟨by decide, by decide, by decide, by decide +kernel, by decide +kernel, by decide +kernel, by decide +kernel, by decide +kernel,
    by decide +kernel, by decide +kernel, by decide +kernel⟩

/-- SEXIT with an operation outstanding, then with its batches closed, with a pending cause, and in trap mode. -/
def open2 : State := onPick sc (fun p => { p with paths := tput {} p.paths 2 { opened := { ops := 1 } } })
def shut2 : State := onPick sc (fun p => { p with closing := true, paths := tput {} p.paths 2 { closed := [{ ops := 1 }] } })
def frozenBlk : State := onPick (inTrap full) (fun p => { p with paths := [] })

theorem test_hyp_exitWaits : full.pick.closing = false ∧ (∀ n < 8, (full.pick.path n).counter < 63) ∧
    (let s := onPick full (fun p => { p with closing := true }); s.pick.blocks ≠ [] ∧ s.pick.closing = true) ∧
    (let s := onPick jam (fun p => { p with queue := full.pick.queue })
     s.pick.blocks ≠ [] ∧ s.pick.closing = false ∧ 63 ≤ (s.pick.path 2).counter) ∧ hblk.pick.blocks ≠ [] ∧
    open2.pick.blocks = [] ∧ (open2.pick.path 2).opened.ops ≠ 0 ∧
    (∀ n < 8, (open2.pick.path n).counter < 63) ∧ shut2.pick.closing = true ∧ (shut2.pick.path 2).closed ≠ [] ∧
    failed.pick.pathsDone = true ∧ (failed.pick.path 3).causes = [(1, .slotUnbound, 7)] ∧
    (∀ m < 3, (failed.pick.path m).causes = []) ∧ failed.takesTraps ∧ frozenBlk.pick.mode = true ∧ frozenBlk.pick.blocks = [] ∧
    frozenBlk.pick.queue ≠ [] ∧
    ({ frozenBlk.pick.queue.foldl Pick.blockLeave frozenBlk.pick with queue := [], lanes := {} } : Pick).pathsIdle = true ∧
    frozenBlk.team.phase = .running ∧ frozenBlk.ctx.st ≠ 1 := by
  refine ⟨?_, ?_, ?_, ?_, ?_, ?_, ?_, ?_, ?_, ?_, ?_, ?_, ?_, ?_, ?_, ?_, ?_, ?_, ?_, ?_⟩ 
  all_goals first | decide +kernel | (unfold State.takesTraps; decide +kernel)

/-- vz as destination of loads, atomics and tile reads: no name needs room. -/
theorem test_hyp_intoVz : (239 : BitVec 8) = 239 ∧ lv.hasRoom (lv.lanesActive 0 0) [(src 4, 2)] [] = true ∧
    lv.hasRoom (lv.lanesActive 0 0) [(src 6, 1)] [] = true ∧ lv.hasRoom (lv.lanesActive 0 0) [(src 2, 1)] [] = true ∧
    (buf 0).hasRoom ((buf 0).lanesActive 0 0) [(src 2, 1)] [] = true := by decide +kernel

/-- Scratch accesses of 8 bytes by v6: the lanes from 4 on lie beyond the window, lanes 0 and 1 in a granule in flight. -/
def mixed : State := onTeam (vregs [(6, fun i => BitVec.ofNat 32 (0xF00 + 64 * i)), (4, fun _ => 1), (5, fun _ => 2), (1, fun _ => 3)] ln)
  (fun m => { m with inflight := [{ op := 9, pick := 64, path := 2, batch := 1, lo := 15, hi := 15 }] })
def straddle : State := onTeam (vregs [(6, fun i => BitVec.ofNat 32 (0xE80 + 64 * i)), (4, fun _ => 1), (5, fun _ => 2)] ln)
  (fun m => { m with inflight := [{ op := 9, pick := 64, path := 2, batch := 1, lo := 15, hi := 15 }] })

theorem test_hyp_outOfRangeAndLate :
    let s := straddle
    let g (i : Nat) : Nat := (((s.permRead 0 (src 6) 0 i).toNat + (0#17).toInt) % 2 ^ 32).toNat
    s.laneReady 0 0 [] [(src 6, 1), (src 4, 2)] = true ∧ s.laneReady 0 0 [] [(src 6, 1)] = true ∧
    (∀ i ∈ lanesOf (s.lanesActive 0 0), g i % 8 = 0 ∧ (s.team.inRange (g i) 8 = true → s.team.scratchBad (g i) 8 = false)) ∧
    (lanesOf (s.lanesActive 0 0)).map (fun i => (s.team.inRange (g i) 8,
      s.team.inflight.any (fun f => decide (f.lo ≤ (g i + 8 - 1) / 256 ∧ g i / 256 ≤ f.hi)))) =
      [(true, false), (true, false)] ++ List.replicate 4 (true, true) ++ List.replicate 26 (false, false) ∧
    s.hasRoom 3 [(src 6, 1)] [8, 9] = true ∧ s.hasRoom 3 [(src 6, 1), (src 4, 2)] [8, 9] = true ∧
    s.hasRoom 3 [(src 6, 1)] [] = true := by decide +kernel

/-- FADD of 64 bits is a word of VATOM with AOP 1 and size 3. -/
theorem test_hyp_wideFadd : (0x307#10 ++ 0#75 ++ 1#4 ++ 0#1 ++ 3#3 ++ 0#3 : BitVec 96).extractLsb' 86 10 = 0x307#10 ∧
    (0x307#10 ++ 0#75 ++ 1#4 ++ 0#1 ++ 3#3 ++ 0#3 : BitVec 96).extractLsb' 7 4 = 1#4 ∧
    (0x307#10 ++ 0#75 ++ 1#4 ++ 0#1 ++ 3#3 ++ 0#3 : BitVec 96).extractLsb' 3 3 = 3#3 := by decide

/-- A fixed-latency write of v8 before a load into it: VFENCE waits for both. -/
def overtaken : State := onPick owes (fun p => { p with pending :=
  { seq := 0, dest := .vreg 8, mask := 1, vals := [(0, 5)], due := 9, isVar := false } :: p.pending })

theorem test_hyp_awaited : overtaken.laneReady 0 0 [] [] = true ∧ overtaken.pick.txs = [] ∧
    overtaken.pick.pending.map (fun q => overtaken.pick.pending.any (fun x =>
      x.isVar && x.dest == q.dest && decide (q.seq < x.seq))) = [true, false] ∧
    (after (exec (.vfence hd0 0 0) overtaken)).pick.pending = [] ∧
    tget 0 ((after (exec (.vfence hd0 0 0) overtaken)).pick.name 8).val 0 = 7 := by decide +kernel

/-- Lanes 0 to 3 in transactions begun at one place: TXABORT resumes the strand at A. -/
def begun : State := onPick ln (fun p => { p with
  txs := (List.range 4).map (fun i => (i, { status := 10, height := 1 }))
  lanes := p.lanes.setStrand 0 { (p.lanes.strand 0) with stack := [⟨some 0x30, 0xF, none, 0⟩], rca := some 0x30 } })

theorem test_hyp_abortResumes : begun.laneReady 0 0 [] [] = true ∧ 0 ∈ begun.fragment.members ∧
    (begun.pick.ls.strand 0).stack = [⟨some 0x30, 0xF, none, 0⟩] ∧ (0xF : BitVec 4) ≠ 0 ∧
    (∀ j < 4, (begun.lanesActive 0 0).getLsbD j = true ∧ (begun.pick.modeTxs.lookup j).map (·.height) = some 1) ∧
    (∀ i ∈ lanesOf (begun.lanesActive 0 0), ∀ x ∈ begun.pick.txs.lookup i, x.status.toNat = 10) ∧
    begun.pick.mode = false ∧ ((after (exec (.txabort hd0 5) begun)).pick.ls.strand 0).lpc = some 0x30 := by decide +kernel

/-- A trap that a parked pick holds, and one held in trap mode. -/
def held1 (f : Pick → Pick) : State := onPick sc (fun p => f { p with held := some { cause := .perm, tval := 0, src := true, tspc := 4 } })

theorem test_hyp_heldTraps :
    (let s := held1 (fun p => { p with parked := true })
     s.pick.held.isSome = true ∧ s.pick.parked = true) ∧
    (let s := held1 (fun p => { p with mode := true })
     s.pick.held.isSome = true ∧ s.pick.parked = false ∧ s.pick.mode = true ∧ s.ctx.ended = false ∧
     (s.worldAt s.ctx.world).policy.getLsbD 0 = false) ∧ away.settled deviceAgent = true := by decide +kernel

/-- Where the spilled names of `away` lie. -/
theorem test_hyp_restored : ∀ n ∈ away.pick.spilled, ∃ m,
    away.resolve2 away.ctx rightR (away.spillAt away.cur n) 128 = .ok (List.range' (away.spillAt away.cur n) 128, m) := by
  have h : ∀ n ∈ away.pick.spilled, ((away.resolve2 away.ctx rightR (away.spillAt away.cur n) 128).toOption.any (fun r =>
      r.1 == List.range' (away.spillAt away.cur n) 128)) = true := by decide +kernel
  intro n hn
  obtain ⟨⟨l, m⟩, hx, hl⟩ := ok_of_any (h n hn)
  have hl : l = List.range' (away.spillAt away.cur n) 128 := eq_of_beq hl
  exact ⟨m, hl ▸ hx⟩

/-- Commands under way by themselves: a copy of 8 bytes; gathers of two of four elements by the indices 1, 9, 1; a product of
2 × 16 by 16 × 2 elements of 8 bits. -/
def data (o : Op) : State := op1 o (onTeam { sc with mem := wrNat sc.mem 0x200000 8 0x8070605040302010 }
  (fun m => { m with scratch := wrNat (wrNat m.scratch 0x80 12 (1 + 9 * 2 ^ 32 + 2 ^ 64)) 0x100 16 0x10203040506070801122334455667788 }))
def copy : Op := { pick := 64, func := 0x00, path := 2, batch := 1, phase := .running, desc := 0x200000 + 0x210000 * 2 ^ 64 + 8 * 2 ^ 128 }
def gath (func : Nat) : Op := { pick := 64, func, path := 4, batch := 1, phase := .running, desc := 0x200000 + 0x80 * 2 ^ 64 + 0x100 * 2 ^ 96 + 3 * 2 ^ 128 + 2 * 2 ^ 152 + 2 ^ 159 + 4 * 2 ^ 160 }
def mma : Op := { pick := 64, func := 0x10, path := 3, batch := 1, phase := .running, fmtr := 0x00908BB#32, desc := 2 * 2 ^ 4 + 2 * 2 ^ 12 + 16 * 2 ^ 20 + 0x100 * 2 ^ 64 + 0x108 * 2 ^ 96 }

theorem test_hyp_engineResults : (∀ o ∈ [copy, gath 0x28, gath 0x29, gath 0x2A, mma],
      let u : State := { data o with cur := o.pick }
      o.joint = [] ∧ o.fail = none ∧ (data o).opWaits o = false ∧ (data o).settled ((data o).opAgent o) = true ∧
      (data o).poison = [] ∧ (u.opPlan o).toOption.any (fun p => p.bad.isNone) = true) ∧
    copy.f 0 56 + copy.f 128 32 ≤ copy.f 64 56 ∧ bit copy.desc 56 = false ∧ bit copy.desc 120 = false ∧ copy.shBar = false ∧
    (∀ i < 4, ((data copy).resolve (data copy).ctx rightR (0x200000 + 4 * i) 4).toOption.map (·.1) =
      some (List.range' (0x200000 + 4 * i) 4)) ∧
    (∀ i < 16, ((data copy).resolve (data copy).ctx rightRW (0x200000 + i) 1).toOption.map (·.1) = some [0x200000 + i] ∧
      ((data copy).resolve (data copy).ctx rightW (0x210000 + i) 1).toOption.map (·.1) = some [0x210000 + i]) ∧
    (∀ a ∈ List.range' 0x200000 16 ++ List.range' 0x210000 8, paPlaces a = [a] ∧ paMirrored a = false) ∧
    (gath 0x2A).f 154 4 = 0 ∧ mma.mxDims = (2, 2, 16) ∧ mma.mxSc = false ∧ mma.fc = 8 ∧ mma.fa = 11 ∧ mma.fb = 11 := by
  decide +kernel

/-- The values they leave, by R336, R359 and R360. -/
theorem test_engine_results :
    let run (o : Op) : State := after (exec (.pathOperationComplete 1) (data o))
    rdBytes (run copy).mem 0x210000 9 = [0x10, 0x20, 0x30, 0x40, 0x50, 0x60, 0x70, 0x80, 0] ∧
    rdBytes ((run (gath 0x28)).teamAt 1).scratch 0x100 9 = [0x50, 0x60, 0x70, 0x80, 0x44, 0x33, 0x22, 0x11, 0x50] ∧
    rdBytes (run (gath 0x29)).mem 0x200004 4 = [0x80, 0x70, 0x60, 0x50] ∧
    rdBytes (run (gath 0x2A)).mem 0x200000 5 = [0x10, 0x20, 0x30, 0x40, 0x58] := by decide +kernel

/-- One-sided operations of the one rank to itself, and the places they name. -/
def oneSided (func : Nat) : Op := { pick := 64, func, path := 5, batch := 1, phase := .running, desc := 0x200000 * 2 ^ 32 + 0x210000 * 2 ^ 96 + 8 * 2 ^ 160 + 3 * 2 ^ 192 }
def ranked (o : Op) : State := op1 o { rank0 with ops := [] }

theorem test_hyp_oneSided : ∀ func ∈ [0x32, 0x33, 0x34],
    let o := oneSided func
    let u : State := { ranked o with cur := 64 }
    let v := u.noteGroup o
    (ranked o).opAt 1 = some o ∧ o.fail = none ∧ u.settled (u.opAgent o) = true ∧ (ranked o).poison = [] ∧
    ((ranked o).teamAt 1).scratchPoison = [] ∧ v.coWindow o = true ∧ v.putPending o = false ∧
    (v.coGroup o).toOption.any (fun g => v.peerAt ((g.ranks[o.f 12 9]?).getD (0, 0)) == .here 0) = true ∧
    (∀ need ∈ [rightR, rightW, rightRW], (v.peerPas 0 need 0x210000 8).toOption.map (·.1) = some (List.range' 0x210000 8)) := by
  decide +kernel

/-- A saved team whose pick is parked, its spill readable or not. -/
theorem test_hyp_savedParked :
    (let s := onCtx (onPick save (fun p => { p with parked := true, spilled := [8] })) (fun c => { c with rbBase := 0x1000000 })
     (s.pickAt 64).parked = true ∧ s.stoppable (s.pickAt 64) = true ∧
     (s.spillPlaces 64 [8] rightR).toOption.isSome = true) ∧
    (let s := onCtx (onPick save (fun p => { p with parked := true, spilled := [8] })) (fun c => { c with rbBase := 2 ^ 51 })
     (match s.spillPlaces 64 [8] rightR with | .error (.xlate _ _ _ _) => true | _ => false) = true) ∧
    (∀ k ∈ (save.teamAt 1).picks, (save.pickAt k).parked = false) ∧ stopped.settled deviceAgent = true ∧
    (ring 1).settled deviceAgent = true ∧ (image 0).settled deviceAgent = true := by decide +kernel

/-- A fault of a parked pick's stream, and one of a spill. -/
def fltP : State := onPick fltS (fun p => { p with parked := true })
def fltSpill : State := flt (.inr (.inl (64, 0))) sc

theorem test_hyp_faultsOfParked : (fltP.faultFor 0 9 false).map (·.who) = some (.inl 64) ∧ (fltP.pickAt 64).wait = .fault 9 ∧
    (fltP.pickAt 64).parked = true ∧ (fltP.pickAt 64).held = none ∧
    (fltSpill.faultFor 0 9 false).map (fun f => (f.who, f.landing)) = some (.inr (.inl (64, 0)), false) ∧
    (fltSpill.teamAt (fltSpill.pickAt 64).team).ctx = 0 ∧ (fltSpill.ctxAt 0).ended = false := by decide +kernel

/-- A request for a draft of a form that is right or not, and TLPs with and without key set. -/
def loadable : State := page { world := 1, dlgo := 1, dllen := 224 }

theorem test_hyp_draftLoads : (loadable.fnAt 1).dlgo = 1 ∧ (loadable.fnAt 1).world ≠ 0 ∧ 224 ≤ (loadable.fnAt 1).dllen ∧
    (loadable.fnAt 1).dllen ≤ 270336 ∧ (loadable.fnAt 1).ideDropped = false ∧ ofLe (((loadable.hostBytes 0 224).drop 8).take 8) % 4 ≠ 2 ∧
    loadable.takesTlp 1 none = true ∧ loadable.takesTlp 1 (some 0) = false ∧ sc.takesTlp 0 none = true ∧
    (page { ideLive := [(false, 1)] }).takesTlp 1 (some 1) = true ∧
    ((page { cntsel := 0x381 }).fnAt 1).cntsel % 1024 = 0x381 ∧ sc.takesTlp (sc.pageFn (.ctxPage 0 true)) none = true := by
  decide +kernel

/-- Grants of the dies' own floors with no budget, which any reserve allows, and of a point that the table lacks. -/
theorem test_hyp_grants :
    (let gs : List PowerGrant := ⟨1, 0, 0⟩ :: List.replicate 11 ⟨0, 0, 0⟩
     gs.length = 12 ∧ (∀ e ∈ gs.zipIdx, powered.oppValid e.1.point = true ∧ powered.oppClock e.1.point ≤ 2000 ∧
       (powered.dieAt e.2).floor ≤ e.1.point ∧ e.1.point = (powered.dieAt e.2).floor) ∧
     (gs.map (·.budget)).sum + Config.powerReserve.val ≤ 5600) ∧ powered.oppValid 3 = false ∧
    (∃ n, (powered.dieAt n).lost = false ∧ (powered.dieAt n).hot = false) := by
  refine ⟨⟨by decide, by decide +kernel, ?_⟩, by decide +kernel, ⟨1, by decide +kernel, by decide +kernel⟩⟩
  simpa using Nat.lt_succ_iff.1 Config.powerReserve.isLt

theorem test_hyp_samples : ({ lost := true } : Die).lost = true ∧ (sc.dieAt 12).lost = false ∧ sc.dev.powered = true ∧
    (vf { negotiated := true }).ready = true := by decide +kernel

/-- Two picks of one quadrant, before VLAND and before VADD (R22). -/
def atPair : State :=
  let s := onTeam ln (fun m => { m with picks := [64, 65] })
  { s with picks := tput {} s.picks 65 { ln.pick with index := 1, slot := 1, lanes := LaneSet.start 12 0x03F08888 0 }, agenda := [.pair 64 0 65 0], mem := wrNat (wrNat ln.mem 0x20000 12 ((0x282 * 16 + 1) * 2 ^ 82)) 0x2000C 12 0x00504181_04613000_00000000 }

theorem test_hyp_stepPair :
    (let v := ({ atPair with agenda := [], fresh := atPair.fresh + 1 } : State).passOver (.pair 64 0 65 0)
     v.pairs 64 0 65 0 && !v.pairs 64 0 64 0 &&
     match v.issueLane 64 0 with
     | .done _ => false
     | .go i a =>
       decide (i = .vland 1) &&
       match exec i a with
       | .next t => (match ({ t with fresh := t.fresh + 1 } : State).issueLane 65 0 with
         | .done _ => false
         | .go j b => decide (j = .vadd ⟨4, 0, 1⟩ 6 ⟨4, 0, 1, 3⟩ ⟨9, 1, 0, 0⟩ 0) && (match exec j b with | .next _ => true | _ => false))
       | _ => false) = true := by decide +kernel

/-! ## The manual's worked values -/

/-- What an instruction leaves pending for lane i of its destination, newest first. -/
def laneOut (i : Instr) (s : State) (l : Nat) : Word := ((after (exec i s)).pick.pending.head?.map (fun p => tget 0 p.vals l)).getD 0

/-- SADDI, SST.W.S, SLD.W.S, SADD and SCMP.NE of the subroutine of file 08; a sum that wraps (R236). -/
theorem test_scalar_program :
    (after (exec (.saddi 8 0 (BitVec.ofInt 14 (-2))) sc)).pick.w 8 = 0xFFFFFFFE ∧
    rdBytes (after (exec (.sstWS 8 4 12) (regs [(4, 0x100), (8, 0xFFFFFFFE)] sc))).team.scratch 0x10C 4 = [0xFE, 0xFF, 0xFF, 0xFF] ∧
    (after (exec (.sldWS 7 4 0) (onTeam (regs [(4, 0x10C)] sc) (fun m => { m with scratch := wrNat [] 0x10C 4 0xFFFFFFFE })))).pick.w 7
      = 0xFFFFFFFE ∧
    (after (exec (.sadd 6 6 7) (regs [(6, 24), (7, 0xFFFFFFFE)] sc))).pick.w 6 = 22 ∧
    (after (exec (.scmp 1 5 0 1) (regs [(5, 1)] sc))).pick.b 1 = true := by decide +kernel

/-- SCALL and SBR of the same program, whose words give the distances 3 and −5 from 0x028 and 0x04C; SRET. -/
theorem test_scalar_control : let at_ (a : Word) : State := onPick (regs [(63, 0x2C)] sc) (fun p => { p with spc := a, bpred := 3 })
    (after (exec (.scall 63 3) (at_ 0x28))).pick.spc = 0x34 ∧ (after (exec (.scall 63 3) (at_ 0x28))).pick.w 63 = 0x2C ∧
    (after (exec (.sbr 0 1 (BitVec.ofInt 22 (-5))) (at_ 0x4C))).pick.spc = 0x38 ∧
    (after (exec (.sret 63) (at_ 0x50))).pick.spc = 0x2C := by decide +kernel

/-- VADD v6, v4.rot3, v9! of file 03: lanes 0, 5 and 31; v9 is freed (R101, R90). -/
theorem test_rotated_source :
    let s := vregs [(4, fun i => BitVec.ofNat 32 (100 + i)), (9, fun i => BitVec.ofNat 32 i)] ln
    let i : Instr := .vadd hd0 6 ⟨4, 0, 1, 3⟩ ⟨9, 1, 0, 0⟩ 0
    laneOut i s 0 = 129 ∧ laneOut i s 5 = 107 ∧ laneOut i s 31 = 159 ∧ ((after (exec i s)).pick.name 9).st = .freed ∧
    ((after (exec i s)).pick.name 4).st = .allocated := by decide +kernel

/-- The examples of file 09: VCLMUL, VCLMULH, VBFX.S, a byte swap by VPRMB. -/
theorem test_lane_bits :
    let s := vregs [(1, fun _ => 0x122), (9, fun _ => 0xFFFFFFFF), (2, fun _ => 0xF0000000), (3, fun _ => 0x12345678)] ln
    laneOut (.vclmul hd0 2 (src 1) (src 9)) s 0 = 0xFFFFFF1E ∧ laneOut (.vclmulh hd0 3 (src 1) (src 9)) s 0 = 0xE1 ∧
    laneOut (.vbfx hd0 5 (src 2) Src.zero 28 7 1 0) s 0 = 0xF ∧
    laneOut (.vprmb hd0 5 (src 3) Src.zero Src.zero 0x0123 1) s 0 = 0x78563412 := by decide +kernel

/-- The example of file 09: a predicated scan, exclusive and inclusive, and a reduction over strands 0 and 1. -/
theorem test_scan_and_reduction :
    let s := onPick (vregs [(3, fun i => BitVec.ofNat 32 (i + 1))] ln) (fun p => { p with
      preds := [(1, 0xF7)]
      lanes := { p.lanes with frags := [{ strands := 3 }, { strands := 252 }] } })
    (List.range 8).map (laneOut (.vscan ⟨1, 0, 1⟩ 4 (src 3) 0 0) s) = [1, 3, 6, 0, 11, 17, 24, 32] ∧
    (List.range 8).map (laneOut (.vscan ⟨1, 0, 1⟩ 4 (src 3) 0 1) s) = [0, 1, 3, 0, 6, 11, 17, 24] ∧
    laneOut (.vredk ⟨1, 0, 1⟩ 242 (src 3) 0) s 0 = 32 ∧ laneOut (.vredk hd0 242 (src 3) 0) { s with frag := 1 } 0 = 492 := by
  decide +kernel

/-- VBR with three groups in a strand (file 02): the order of the groups and the entry of the reconvergence. -/
theorem test_three_groups :
    let s := onPick ln (fun p => { p with preds := [(1, 1), (2, 3)] })
    let x := (after (exec (.vbr 1 1 2 0 0 8 16 0 0 24 1 0) s)).pick.ls.strand 0
    x.lpc = some 96 ∧ x.mask = 1 ∧ x.rca = some 288 ∧ x.stack.map (fun e => (e.pc, e.mask, e.rca)) =
      [(some 192, 2, some 288), (some 12, 12, some 288), (some 288, 15, none)] := by decide +kernel

/-- VRCP of 3.0 and VEXP2 of −3.0 (R144). -/
theorem test_special_values : special rcpExt 0x40400000 = 0x3EAAAAAB ∧ special exp2Ext 0xC0400000 = 0x3E000000 := by
  decide +kernel

/-- −6.5 in the fixed formats (R114); an element read at three depths, centred and not (R118). -/
theorem test_fixed_formats : fp32 0xC0D00000 = .real (-13 / 2) ∧ bf16.decode 0xC0D0 = .real (-13 / 2) ∧
    f16.encode (.real (-13 / 2)) 0 false 0 = 0xC680 ∧ bpnRead 6 2 true false 0b101011 = .real (-32) ∧
    bpnRead 6 2 true true 0b101011 = .real (-24) ∧ bpnRead 6 3 true true 0b101011 = .real (-20) ∧
    bpnRead 6 8 true true 0b101011 = .real (-21) := by decide +kernel

/-- The 8-bit minifloat draft of file 04: each row of its table, and the first row with TIE 1. -/
def mf8 (tie : Bool) : Fmt := .mf 3 4 2 1 true tie false false

theorem test_minifloat_draft : ([(53 / 10, 0, 0x45), (41 / 8, 0, 0x44), (41 / 8, 4, 0x44), (41 / 8, 3, 0x45),
    (609 / 10, 0, 0x7E), (619 / 10, 0, 0x7E), (62, 0, 0x7E), (-1 / 100, 0, 0x80)] : List (ℚ × Nat × Nat)).all
      (fun e => (mf8 false).encode (.real e.1) e.2.1 false 0 == e.2.2) = true ∧
    (mf8 false).encode (.nan false) 0 false 0 = 0x7F ∧ (mf8 true).encode (.real (41 / 8)) 0 false 0 = 0x45 ∧
    (mf8 false).decode 0x7E = .real 60 ∧ (mf8 false).decode 0x45 = .real (21 / 4) := by decide +kernel

/-- The partial last block of file 04: three groups, their scales, and the accumulator after each (R137, R138). -/
theorem test_partial_block :
    let g (n : Nat) : List (Ext × Ext) := List.replicate n (.real 3, .real 2) ++ List.replicate (16 - n) (.zero false, .zero false)
    let c0 := groupSum (g 16) (bf16.decode 0x3F00) (bf16.decode 0x3FA0)
    let c1 := groupSum (g 16) (bf16.decode 0x4000) (bf16.decode 0x3FA0)
    let c2 := groupSum (g 8) (bf16.decode 0x3E80) (bf16.decode 0x3FA0)
    c0 = .real 60 ∧ c1 = .real 240 ∧ c2 = .real 15 ∧ accumulate 0x4B800000 c0 = 0x4B80001E ∧
    accumulate 0x4B80001E c1 = 0x4B800096 ∧ accumulate 0x4B800096 c2 = 0x4B80009E := by decide +kernel

/-- The levels of file 02: 240 teams, and the coordinates of team 97. -/
theorem test_coordinates : coordsOf [0x94000004, 0xDD000005, 0xE600000C] 97 = [1, 4, 4] ∧
    (([0x94000004, 0xDD000005, 0xE600000C] : List Nat).map lvCount).prod = 240 := by decide +kernel

/-- A word is stored least significant byte first (R6, R240). -/
theorem test_store_bytes : (after (exec (.sstW 6 4 16) (regs [(4, 0x200000), (6, 0x11223344)] sc))).mem.filter
      (fun c => decide (0x200000 ≤ c.1)) = [(0x200010, 0x44), (0x200011, 0x33), (0x200012, 0x22), (0x200013, 0x11)] := by
  decide +kernel

end Sys2Proof.Tests
end

section
/-! SUPPORT. What delivered results leave of a pick, and how the S-stream takes a trap, in normal mode and nested. -/

namespace Sys2Proof.Machine

/-! ## Delivered results -/

/-- The pick q with what results on their way change (R105, R165) as it stands in p: lane registers, predicates, k-registers,
batches and the pending results themselves. -/
def Pick.withResultsOf (p q : Pick) : Pick :=
  { q with names := p.names, preds := p.preds, ppoison := p.ppoison, queue := p.queue, hqueue := p.hqueue
           paths := p.paths, moved := p.moved, pending := p.pending, clk := p.clk }

/-- Of a pick, only what results on their way change differs. -/
def Pick.OnlyResults (p q : Pick) : Prop := p.withResultsOf q = p

theorem Pick.OnlyResults.trans {p q r : Pick} (h1 : p.OnlyResults q) (h2 : q.OnlyResults r) : p.OnlyResults r :=
  calc p.withResultsOf r = p.withResultsOf (q.withResultsOf r) := rfl
    _ = p.withResultsOf q := by rw [h2]
    _ = p := h1

theorem Pick.OnlyResults.bpred_eq {p q : Pick} (h : p.OnlyResults q) : q.bpred = p.bpred := (congrArg Pick.bpred h :)
theorem Pick.OnlyResults.wb_eq {p q : Pick} (h : p.OnlyResults q) : q.wb = p.wb := (congrArg Pick.wb h :)
theorem Pick.OnlyResults.fmtr_eq {p q : Pick} (h : p.OnlyResults q) : q.fmtr = p.fmtr := (congrArg Pick.fmtr h :)

theorem Pick.setBlocks_onlyResults (p : Pick) (q : List Block) : p.OnlyResults (p.setBlocks q) := by
  unfold Pick.setBlocks
  split <;> rfl

theorem Pick.deliver_onlyResults (p : Pick) (q : Pending) : p.OnlyResults (p.deliver q) := by
  unfold Pick.deliver
  split
  · dsimp only
    split <;> rfl
  · split <;> rfl
  · split
    · rfl
    · unfold Pick.onBlock
      split
      · exact Pick.setBlocks_onlyResults _ _
      · rfl
  · rfl

theorem Pick.finish_onlyResults (p : Pick) (q : Pending) : p.OnlyResults (p.finish q) := by
  have h := p.deliver_onlyResults q
  unfold Pick.finish
  dsimp only
  split
  · exact h.trans rfl
  · exact h

theorem Pick.foldl_finish_onlyResults (qs : List Pending) (p : Pick) : p.OnlyResults (qs.foldl Pick.finish p) := by
  induction qs generalizing p with
  | nil => rfl
  | cons q qs ih => exact (p.finish_onlyResults q).trans (ih _)

theorem Pick.drain_onlyResults (p : Pick) : p.OnlyResults p.drain :=
  (Pick.foldl_finish_onlyResults _ p).trans rfl

@[simp] theorem Pick.drain_bpred (p : Pick) : p.drain.bpred = p.bpred := p.drain_onlyResults.bpred_eq
@[simp] theorem Pick.drain_wb (p : Pick) : p.drain.wb = p.wb := p.drain_onlyResults.wb_eq
@[simp] theorem Pick.drain_fmtr (p : Pick) : p.drain.fmtr = p.fmtr := p.drain_onlyResults.fmtr_eq

/-! ## Traps of the S-stream -/

/-- The handler is entered with the record of R423. -/
theorem State.enterTrap_tookTrap (s : State) {r : TrapReq} (hf : r.frag = 0) (ha : r.async = false) :
    TookTrap s (s.enterTrap r) r.cause r.tval r.tmask r.src r.tspc := by
  have hl : strandLanes r.frag = [] := by rw [hf]; decide
  simp [TookTrap, State.enterTrap, Pick.formRecord, hl, ha, Pick.abortLanes]

/-- A pick that can take a trap at once enters the handler of an S-stream trap. -/
theorem State.takesTraps.takeTrap_eq {s : State} (h : s.takesTraps) {r : TrapReq} (hs : r.src = true) :
    s.takeTrap r = (if r.cause = .dataPoison then s.count s.team.die 0x203 1 else s).enterTrap r := by
  obtain ⟨hmode, hparked, hheld, hhold⟩ := h
  have hany : s.pick.ls.frags.any (fun f => f.hold.isSome) = false := by
    simpa [List.any_eq_false] using hhold
  by_cases hc : r.cause = .dataPoison <;> simp [State.takeTrap, State.deliverTrap, hc, hmode, hparked, hheld, hs, hany]

/-- A trap of the S-stream in normal mode (R422, R423); memory and teams stay. -/
theorem State.trapS_tookTrap {s : State} (h : s.takesTraps) (c : Cause) (tval : BitVec 64) :
    ∃ t, s.trapS c tval = .next t ∧ TookTrap s t c tval 0 true s.pick.spc ∧ t.mem = s.mem ∧ t.teams = s.teams := by
  refine ⟨_, rfl, ?_⟩
  rw [h.takeTrap_eq rfl]
  dsimp only
  split
  · exact ⟨State.enterTrap_tookTrap (s.count _ _ _) rfl rfl, rfl, rfl⟩
  · exact ⟨State.enterTrap_tookTrap s rfl rfl, rfl, rfl⟩

/-- An instruction that traps where its pick can take a trap. -/
theorem TrapsS.of_exec {i : Instr} {s : State} {c : Cause} {tval : BitVec 64}
    (h : s.takesTraps → exec i s = s.trapS c tval) : TrapsS i s c tval := by
  intro ht
  unfold Completes
  rw [h ht]
  exact State.trapS_tookTrap ht c tval

/-! ## Nested traps -/

theorem State.endContext_ends {s : State} {ctx : Nat} (h : (s.ctxAt ctx).ended = false) (status cause : Nat) :
    ((s.endContext ctx status cause).ctxAt ctx).ended = true ∧
      ((s.endContext ctx status cause).ctxAt ctx).endCause = cause := by
  simp [State.endContext, h]

/-- A trap in trap mode ends its context with the cause of the trap, in a world without CONF (R428). -/
theorem State.takeTrap_nested {s : State} {r : TrapReq} (hmode : s.pick.mode = true) (hparked : s.pick.parked = false)
    (hended : s.ctx.ended = false) (hpol : (s.worldAt s.ctx.world).policy.getLsbD 0 = false) (hc : r.cause ≠ .dataPoison) :
    ((s.takeTrap r).ctxAt s.team.ctx).ended = true ∧ ((s.takeTrap r).ctxAt s.team.ctx).endCause = r.cause.code := by
  have hd : s.takeTrap r = s.deliverTrap r := by simp [State.takeTrap, hmode, hparked, hc]
  rw [hd]
  simp only [State.deliverTrap, hmode, if_true, State.endByTrap]
  rw [if_neg]
  · exact State.endContext_ends (s := s.reportPick _ _ _) hended _ _
  · exact Bool.eq_false_iff.mp hpol

end Sys2Proof.Machine
end

section
/-! SUPPORT. What SCSRR reads from the control registers (R81, R87, R416 to R419, R433). -/

namespace Sys2Proof.Machine

/-! ## PATHS -/

/-- The number whose bytes, least significant first, are f 0 to f (n - 1). -/
def byteSum (f : Nat → Nat) (n : Nat) : Nat := ((List.range n).map (fun i => f i * 2 ^ (8 * i))).sum

theorem byteSum_lt {f : Nat → Nat} (h : ∀ i, f i < 256) (n : Nat) : byteSum f n < 2 ^ (8 * n) := by
  induction n with
  | zero => simp [byteSum]
  | succ n ih =>
    have hs : byteSum f (n + 1) = byteSum f n + f n * 2 ^ (8 * n) := by simp [byteSum, List.range_succ]
    have hm : f n * 2 ^ (8 * n) ≤ 255 * 2 ^ (8 * n) := Nat.mul_le_mul_right _ (Nat.le_of_lt_succ (h n))
    rw [hs, Nat.mul_succ, Nat.pow_add]
    omega

theorem byteSum_add (f : Nat → Nat) (m n : Nat) :
    byteSum f (m + n) = byteSum f m + 2 ^ (8 * m) * byteSum (fun i => f (m + i)) n := by
  simp only [byteSum, List.range_add, List.map_append, List.sum_append, List.map_map, ← List.sum_map_mul_left]
  congr 3
  funext i
  simp only [Function.comp_apply, Nat.mul_add, Nat.pow_add]
  exact Nat.mul_left_comm _ _ _

/-- PATHS holds the eight counters, a byte each (R87). -/
theorem Pick.pathsReg_eq (p : Pick) : p.pathsReg = BitVec.ofNat 64 (byteSum (fun i => (p.path i).counter % 64) 4 +
    2 ^ 32 * byteSum (fun i => (p.path (4 + i)).counter % 64) 4) :=
  congrArg (BitVec.ofNat 64) (byteSum_add (fun i => (p.path i).counter % 64) 4 4)

/-- The low and the high word of a number given in two parts. -/
theorem setWidth_ofNat_parts (lo hi : Nat) : (BitVec.ofNat 64 (lo + 2 ^ 32 * hi)).setWidth 32 = BitVec.ofNat 32 lo := by
  apply BitVec.eq_of_toNat_eq
  rw [BitVec.setWidth_ofNat_of_le (by decide), BitVec.toNat_ofNat, BitVec.toNat_ofNat, Nat.add_mul_mod_self_left]

theorem extractLsb'_ofNat_parts {lo : Nat} (h : lo < 2 ^ 32) (hi : Nat) :
    (BitVec.ofNat 64 (lo + 2 ^ 32 * hi)).extractLsb' 32 32 = BitVec.ofNat 32 hi := by
  apply BitVec.eq_of_toNat_eq
  rw [BitVec.extractLsb'_toNat, BitVec.toNat_ofNat, BitVec.toNat_ofNat, Nat.shiftRight_eq_div_pow]
  omega

/-- The low word of PATHS holds the counters of paths 0 to 3. -/
theorem Pick.pathsReg_low (p : Pick) : p.pathsReg.extractLsb' 0 32 =
    BitVec.ofNat 32 (((List.range 4).map (fun i => (p.path i).counter % 64 * 2 ^ (8 * i))).sum) := by
  rw [Pick.pathsReg_eq, ← BitVec.setWidth_eq_extractLsb' (by decide), setWidth_ofNat_parts]
  rfl

/-- The high word of PATHS holds the counters of paths 4 to 7. -/
theorem Pick.pathsReg_high (p : Pick) : p.pathsReg.extractLsb' 32 32 =
    BitVec.ofNat 32 (((List.range 4).map (fun i => (p.path (4 + i)).counter % 64 * 2 ^ (8 * i))).sum) := by
  rw [Pick.pathsReg_eq, extractLsb'_ofNat_parts]
  · rfl
  · exact byteSum_lt (fun i => (Nat.mod_lt _ (by decide)).trans (by decide)) 4

theorem TrapRec.tfrag_eq (r : TrapRec) :
    r.tfrag = BitVec.ofNat 32 (r.frag.toNat + r.atLend.toNat * 2 ^ 8 + r.waitRg.toNat * 2 ^ 16) := by
  apply BitVec.eq_of_toNat_eq
  have h1 := r.frag.isLt
  have h2 := r.atLend.isLt
  have h3 := r.waitRg.isLt
  simp only [TrapRec.tfrag, BitVec.toNat_append, BitVec.toNat_ofNat]
  rw [← Nat.shiftLeft_add_eq_or_of_lt (by omega), ← Nat.shiftLeft_add_eq_or_of_lt (by omega),
    ← Nat.shiftLeft_add_eq_or_of_lt (by omega)]
  omega

/-- Between the pick's own registers and CYCL, and above CYCD, a read goes to the trap record, then to the context. -/
theorem State.ctlRead_of_mid (s : State) {n : Nat} (h : 0x00A ≤ n) (h' : n < 0x158 ∨ 0x15A < n) :
    s.ctlRead n = (s.pick.trapReg n <|> s.ctx.ctlReg s.team.ctx n) := by
  unfold State.ctlRead
  split
  case h_14 => rfl
  all_goals omega

theorem Pick.trapReg_of_tab (p : Pick) {n : Nat} (h : n < 0x100 ∨ 0x10A < n) : p.trapReg n =
    if 0x110 ≤ n ∧ n < 0x118 then some (tget 0xFFFFFFFF p.trec.tlpc (n - 0x110))
    else if 0x118 ≤ n ∧ n < 0x120 then some (tget 0 p.trec.tlfmt (n - 0x118))
    else if 0x120 ≤ n ∧ n < 0x130 then some (tget 0 p.trec.tkf (n - 0x120))
    else none := by
  unfold Pick.trapReg
  split
  case h_12 => rfl
  all_goals omega

theorem Context.ctlReg_of_tab (c : Context) (num : Nat) {n : Nat} (h : n < 0x140 ∨ 0x148 < n) : c.ctlReg num n =
    if 0x14C ≤ n ∧ n < 0x150 then some (tget 0 c.bkl (n - 0x14C))
    else if n = 0x150 ∨ n = 0x151 then some (tget 0 c.bks (n - 0x150))
    else none := by
  unfold Context.ctlReg
  split
  case h_10 => rfl
  all_goals omega

theorem State.ctlRead_tlpc (s : State) {n : Nat} (h : n < 8) :
    s.ctlRead (0x110 + n) = some (tget 0xFFFFFFFF s.pick.trec.tlpc n) := by
  rw [s.ctlRead_of_mid (by omega) (by omega), Pick.trapReg_of_tab _ (by omega), if_pos (by omega), Nat.add_sub_cancel_left]
  rfl

theorem State.ctlRead_tlfmt (s : State) {n : Nat} (h : n < 8) :
    s.ctlRead (0x118 + n) = some (tget 0 s.pick.trec.tlfmt n) := by
  rw [s.ctlRead_of_mid (by omega) (by omega), Pick.trapReg_of_tab _ (by omega), if_neg (by omega), if_pos (by omega),
    Nat.add_sub_cancel_left]
  rfl

theorem State.ctlRead_tkf (s : State) {n : Nat} (h : n < 16) :
    s.ctlRead (0x120 + n) = some (tget 0 s.pick.trec.tkf n) := by
  rw [s.ctlRead_of_mid (by omega) (by omega), Pick.trapReg_of_tab _ (by omega), if_neg (by omega), if_neg (by omega),
    if_pos (by omega), Nat.add_sub_cancel_left]
  rfl

/-- No register of the trap record has a number outside its two ranges (R416). -/
theorem Pick.trapReg_eq_none (p : Pick) {n : Nat} (h : isTrapReg n = false) : p.trapReg n = none := by
  simp only [isTrapReg, Bool.or_eq_false_iff, decide_eq_false_iff_not] at h
  rw [Pick.trapReg_of_tab _ (by omega), if_neg (by omega), if_neg (by omega), if_neg (by omega)]

/-- No register of a context has a number outside its two ranges (R419). -/
theorem Context.ctlReg_eq_none (c : Context) (num : Nat) {n : Nat} (h : isCtxReg n = false) : c.ctlReg num n = none := by
  simp only [isCtxReg, Bool.or_eq_false_iff, decide_eq_false_iff_not] at h
  rw [Context.ctlReg_of_tab _ _ (by omega), if_neg (by omega), if_neg (by omega)]

theorem State.ctlRead_bkl (s : State) {n : Nat} (h : n < 4) : s.ctlRead (0x14C + n) = some (tget 0 s.ctx.bkl n) := by
  have hn : isTrapReg (0x14C + n) = false := by
    simp only [isTrapReg, Bool.or_eq_false_iff, decide_eq_false_iff_not]
    omega
  rw [s.ctlRead_of_mid (by omega) (by omega), Pick.trapReg_eq_none _ hn, Context.ctlReg_of_tab _ _ (by omega),
    if_pos (by omega), Nat.add_sub_cancel_left]
  rfl

/-- A number that names no control register reads nothing (R81). -/
theorem State.ctlRead_eq_none (s : State) {n : Nat} (h : isCtlReg n = false) : s.ctlRead n = none := by
  simp only [isCtlReg, Bool.or_eq_false_iff, decide_eq_false_iff_not] at h
  obtain ⟨⟨⟨hlow, htrap⟩, hctx⟩, hcyc⟩ := h
  rw [s.ctlRead_of_mid (by omega) (by omega), Pick.trapReg_eq_none _ htrap, Context.ctlReg_eq_none _ _ hctx]
  rfl

/-! ## SCSRR -/

theorem exec_scsrr (d : BitVec 6) (r : BitVec 12) (s : State) : exec (.scsrr d r) s = execScsrr d r s := rfl

theorem State.cycLatch_of_ne (s : State) {n : Nat} (h : n ≠ 0x158) : s.cycLatch n = s := if_neg h

/-- The number of register i of a bank that starts at number b. -/
theorem toNat_bank {b i : Nat} (h : b + i < 0x158) : (BitVec.ofNat 12 (b + i)).toNat = b + i := by
  rw [BitVec.toNat_ofNat]
  omega

/-- A read of a register other than CYCL writes its value to w(d) and changes nothing else. -/
theorem scsrr_completes {s : State} {d : BitVec 6} (h : s.regsReady [] [d] = true) {r : BitVec 12} {v : Word}
    (hr : r ≠ 0x158) (hv : s.ctlRead r.toNat = some v) : Completes (.scsrr d r) s fun t => ScalarWrote s t d v := by
  have hn : r.toNat ≠ 0x158 := fun e => hr (BitVec.eq_of_toNat_eq e)
  have he : exec (.scsrr d r) s = .next (s.setS d v).advance := by
    rw [exec_scsrr, execScsrr, hv]
    dsimp only
    rw [State.withOperands_ready h, State.cycLatch_of_ne s hn]
  exact ⟨_, he, State.setS_advance_wrote h (by simp) v⟩

/-- The same for register i of a bank that starts at number b. -/
theorem scsrr_bank {s : State} {d : BitVec 6} (h : s.regsReady [] [d] = true) {b i : Nat} {v : Word} (hlt : b + i < 0x158)
    (hv : s.ctlRead (b + i) = some v) : Completes (.scsrr d (BitVec.ofNat 12 (b + i))) s fun t => ScalarWrote s t d v := by
  have hn := toNat_bank hlt
  refine scsrr_completes h (fun e => ?_) (hn.symm ▸ hv)
  rw [e] at hn
  exact hlt.ne hn.symm

/-- A read of a number that names no register traps (R81). -/
theorem scsrr_traps (s : State) (d : BitVec 6) {r : BitVec 12} (h : isCtlReg r.toNat = false) :
    TrapsS (.scsrr d r) s .illOperand s.opc6 := by
  apply TrapsS.of_exec
  intro _
  rw [exec_scsrr, execScsrr, s.ctlRead_eq_none h]

/-- The pick after a read of CYCL: the high half and the die are latched (R433). -/
def State.latched (s : State) : Pick :=
  { s.pick with cych := (s.dieAt s.team.die).cycles.extractLsb' 32 32, cycd := BitVec.ofNat 4 s.team.die }

theorem State.cycLatch_cycl (s : State) : s.cycLatch 0x158 = s.setPick s.latched := rfl

theorem State.setPick_latched_regsReady (s : State) (reads writes : List (BitVec 6)) :
    (s.setPick s.latched).regsReady reads writes = s.regsReady reads writes := by
  have ht : (s.setPick s.latched).team = s.team := State.setPick_team s _ rfl
  have hc : (s.setPick s.latched).ctx = s.ctx := by simp only [State.ctx, ht]; rfl
  simp only [State.regsReady, State.frameHit, State.poisonHit, State.chk, State.setPick_pick, hc]
  rfl

/-- A read of CYCL writes the low half and latches the high half and the die (R433). -/
theorem scsrr_cycl {s : State} {d : BitVec 6} (h : s.regsReady [] [d] = true) : Completes (.scsrr d 0x158) s fun t =>
    OnlyPick s t ∧ Counted s t s.team.die 0x001 1 ∧ t.pick.spc = s.nextPc ∧
    s.pick.wrote t.pick d ((s.dieAt s.team.die).cycles.extractLsb' 0 32) ∧
    t.pick.cych = (s.dieAt s.team.die).cycles.extractLsb' 32 32 ∧ t.pick.cycd = BitVec.ofNat 4 s.team.die ∧
    s.pick.sameButScalars { t.pick with cych := s.pick.cych, cycd := s.pick.cycd } := by
  have ht : (s.setPick s.latched).team = s.team := State.setPick_team s _ rfl
  have hu := (s.setPick_latched_regsReady [] [d]).trans h
  have he : exec (.scsrr d 0x158) s =
      .next ((s.setPick s.latched).setS d ((s.dieAt s.team.die).cycles.setWidth 32)).advance := by
    rw [exec_scsrr, execScsrr]
    exact State.withOperands_ready h _
  refine ⟨_, he, ?_⟩
  obtain ⟨honly, hcount, hsame, hwrote, hspc, -, -⟩ :=
    State.setS_advance_wrote hu (d := d) (by simp) ((s.dieAt s.team.die).cycles.setWidth 32)
  rw [State.setPick_pick] at hsame hwrote
  rw [ht] at hcount
  generalize (((s.setPick s.latched).setS d ((s.dieAt s.team.die).cycles.setWidth 32)).advance) = t at *
  refine ⟨(State.setPick_only s _).trans honly, Counted.of_dies (s' := s.setPick s.latched) rfl hcount, ?_, ?_,
    (congrArg Pick.cych hsame :), (congrArg Pick.cycd hsame :),
    (congrArg (fun q : Pick => { q with cych := s.pick.cych, cycd := s.pick.cycd }) hsame :)⟩
  · rw [hspc, State.nextPc, State.setPick_pick]; rfl
  · rw [← BitVec.setWidth_eq_extractLsb' (by decide)]; exact hwrote

end Sys2Proof.Machine
end

section
/-! SUPPORT. What SCSRW writes to the control registers, and the values that they refuse (R69, R81, R415 to R419). -/

namespace Sys2Proof.Machine

/-! ## What a write of a control register takes -/

theorem tget_tins {α : Type} (d : α) (t : Tab α) (k : Nat) (v : α) (j : Nat) :
    tget d (tins k v t) j = if j = k then v else tget d t j := by
  split
  · next h => rw [h, tget_tins_self]
  · next h => exact tget_tins_ne d t v h

theorem getLsbD_and_not {w : Nat} (x m : BitVec w) (i : Nat) : (x &&& ~~~m).getLsbD i = (x.getLsbD i && !m.getLsbD i) := by
  rw [BitVec.getLsbD_and, BitVec.getLsbD_not]
  by_cases h : i < w
  · simp [h]
  · simp [BitVec.getLsbD_of_ge x i (by omega)]

theorem getLsbD_one_shiftLeft {w n : Nat} (h : n < w) (i : Nat) : (1#w <<< n).getLsbD i = decide (i = n) := by
  rw [← BitVec.twoPow_eq, BitVec.getLsbD_twoPow]
  by_cases e : i = n <;> simp [e, h, Ne.symm]

/-- 1s written to the low half clear those bits (R69). -/
theorem getLsbD_clearFmask_low (f : BitVec 64) (v : Word) (i : Nat) :
    (clearFmask f false v).getLsbD i = (f.getLsbD i && !v.getLsbD i) := by
  rw [clearFmask, getLsbD_and_not, if_neg Bool.false_ne_true, BitVec.getLsbD_append]
  by_cases h : i < 32
  · simp [h]
  · simp [h, BitVec.getLsbD_of_ge v i (by omega)]

/-- 1s written to the high half clear the bits 32 places up (R69). -/
theorem getLsbD_clearFmask_high (f : BitVec 64) (v : Word) (i : Nat) :
    (clearFmask f true v).getLsbD i = (f.getLsbD i && !(decide (32 ≤ i) && v.getLsbD (i - 32))) := by
  rw [clearFmask, getLsbD_and_not, if_pos rfl, BitVec.getLsbD_append]
  by_cases h : i < 32
  · simp [h]
  · simp [h, Nat.le_of_not_lt h]

/-- The two words of GANG after a write of the high one, which keeps 16 bits (R260). -/
theorem gangHigh_parts (g : BitVec 64) (v : Word) :
    ((0#16 ++ v.setWidth 16 : BitVec 32) ++ g.setWidth 32).extractLsb' 0 32 = g.extractLsb' 0 32 ∧
      (((0#16 ++ v.setWidth 16 : BitVec 32) ++ g.setWidth 32).extractLsb' 32 32).toNat = v.toNat % 2 ^ 16 := by
  rw [BitVec.extractLsb'_append_eq_right, BitVec.extractLsb'_append_eq_left]
  refine ⟨BitVec.setWidth_eq_extractLsb' (by decide), ?_⟩
  rw [BitVec.toNat_append, BitVec.toNat_ofNat, BitVec.toNat_setWidth, Nat.zero_mod, Nat.zero_shiftLeft, Nat.zero_or]

/-- The reserved codes of FMTR by its number: RND 6 and 7, PA and PB 0 (R82, R83). -/
theorem fmtrBad_iff (v : Word) : fmtrBad v = true ↔
    6 ≤ v.toNat / 2 ^ 16 % 8 ∨ v.toNat / 2 ^ 20 % 8 = 0 ∨ v.toNat / 2 ^ 23 % 8 = 0 := by
  simp only [fmtrBad, Bool.or_eq_true, decide_eq_true_eq, beq_iff_eq, ← BitVec.toNat_inj, BitVec.extractLsb'_toNat,
    Nat.shiftRight_eq_div_pow, or_assoc]
  rfl

/-- The reserved codes of TCFG by the number written, whose reserved bits lie above the layout fields (R83, R84). -/
theorem tcfgBad_clean_iff (v : Word) : tcfgBad (tcfgClean v) = true ↔
    v.toNat / 2 ^ 24 % 4 = 3 ∨ v.toNat / 2 ^ 26 % 4 = 3 := by
  have h24 : (tcfgClean v).extractLsb' 24 2 = v.extractLsb' 24 2 := by
    rw [tcfgClean, BitVec.extractLsb'_and]
    exact BitVec.and_allOnes
  have h26 : (tcfgClean v).extractLsb' 26 2 = v.extractLsb' 26 2 := by
    rw [tcfgClean, BitVec.extractLsb'_and]
    exact BitVec.and_allOnes
  simp only [tcfgBad, h24, h26, Bool.or_eq_true, beq_iff_eq, ← BitVec.toNat_inj, BitVec.extractLsb'_toNat,
    Nat.shiftRight_eq_div_pow]
  rfl

theorem Pick.trapWrite_tspc (p : Pick) (v : Word) : p.trapWrite 0x105 v =
    if v.toNat % 4 = 0 then some { p with trec := { p.trec with tspc := v } } else none := rfl

theorem Pick.trapWrite_tfmtr (p : Pick) (v : Word) : p.trapWrite 0x107 v =
    if fmtrBad (fmtrClean v) then none else some { p with trec := { p.trec with tfmtr := fmtrClean v } } := rfl

/-- TSTAT takes SKIP, OB with b0 true, and OWB, which is a window base or the write is refused (R417). -/
theorem Pick.trapWrite_tstat (p : Pick) (v : Word) : p.trapWrite 0x106 v =
    if v.toNat / 2 ^ 16 % 2 ^ 10 % 16 ≠ 0 ∨ 960 < v.toNat / 2 ^ 16 % 2 ^ 10 then none
    else some { p with trec := { p.trec with
      skip := v.getLsbD 4
      ob := BitVec.ofNat 8 (v.toNat / 2 ^ 8) ||| 1
      owb := BitVec.ofNat 10 (v.toNat / 2 ^ 16 % 2 ^ 10) } } := by
  have hob : v.extractLsb' 8 8 = BitVec.ofNat 8 (v.toNat / 2 ^ 8) := by
    apply BitVec.eq_of_toNat_eq
    rw [BitVec.extractLsb'_toNat, BitVec.toNat_ofNat, Nat.shiftRight_eq_div_pow]
  have hn : (v.extractLsb' 16 10).toNat = v.toNat / 2 ^ 16 % 2 ^ 10 := by
    rw [BitVec.extractLsb'_toNat, Nat.shiftRight_eq_div_pow]
  rw [← hn, ← hob, BitVec.ofNat_toNat, BitVec.setWidth_eq]
  rfl

/-- TLPC n of a strand that was live when the trap froze it takes addresses of lane instructions (R418). -/
theorem Pick.trapWrite_tlpc_live (p : Pick) {n : Nat} (h : n < 8)
    (hl : p.trec.blk = true ∧ (p.trec.tlpc.lookup n).isSome = true) (v : Word) : p.trapWrite (0x110 + n) v =
      if v.toNat % 12 = 0 then some { p with trec := { p.trec with tlpc := tins n v p.trec.tlpc } } else none := by
  unfold Pick.trapWrite
  rw [if_neg (by omega), if_neg (by omega), if_neg (by omega), if_pos (by omega), Nat.add_sub_cancel_left, if_neg]
  simpa [Option.isSome_iff_ne_none] using hl

/-- TLPC n of any other strand drops the value (R418). -/
theorem Pick.trapWrite_tlpc_dead (p : Pick) {n : Nat} (h : n < 8)
    (hl : ¬ (p.trec.blk = true ∧ (p.trec.tlpc.lookup n).isSome = true)) (v : Word) : p.trapWrite (0x110 + n) v = some p := by
  unfold Pick.trapWrite
  rw [if_neg (by omega), if_neg (by omega), if_neg (by omega), if_pos (by omega), Nat.add_sub_cancel_left, if_pos]
  rw [← Option.not_isSome, ← Bool.not_and, Bool.not_eq_true', ← Bool.not_eq_true, Bool.and_eq_true]
  exact hl

theorem Pick.trapWrite_tlfmt (p : Pick) {n : Nat} (h : n < 8) (v : Word) : p.trapWrite (0x118 + n) v =
    if fmtrBad (fmtrClean v) then none
    else some { p with trec := { p.trec with tlfmt := tins n (fmtrClean v) p.trec.tlfmt } } := by
  unfold Pick.trapWrite
  rw [if_neg (by omega), if_neg (by omega), if_neg (by omega), if_neg (by omega), if_pos (by omega), Nat.add_sub_cancel_left]

/-- What a write of TKF n makes of the frozen block: once it has started, its k-register n counts as written and loses
its poison (R418). -/
def Block.tkfWritten (n : Nat) (b : Block) : Block :=
  { b with kWritten := b.kWritten ||| (1#16 <<< n), kPoison := b.kPoison &&& ~~~(1#16 <<< n) }

theorem Block.tkfWritten_kWritten {n : Nat} (h : n < 16) (b : Block) (i : Nat) :
    (b.tkfWritten n).kWritten.getLsbD i = (b.kWritten.getLsbD i || decide (i = n)) := by
  rw [Block.tkfWritten, BitVec.getLsbD_or, getLsbD_one_shiftLeft h]

theorem Block.tkfWritten_kPoison {n : Nat} (h : n < 16) (b : Block) (i : Nat) :
    (b.tkfWritten n).kPoison.getLsbD i = (b.kPoison.getLsbD i && !decide (i = n)) := by
  rw [Block.tkfWritten, getLsbD_and_not, getLsbD_one_shiftLeft h]

/-- The pick after a write of TKF n. -/
def Pick.tkfWritten (p : Pick) (n : Nat) (v : Word) : Pick :=
  { p with
    trec := { p.trec with tkf := tins n v p.trec.tkf }
    queue := p.queue.modifyHead (fun b => if b.started && p.trec.blk then b.tkfWritten n else b) }

theorem Pick.trapWrite_tkf (p : Pick) {n : Nat} (h : n < 16) (v : Word) :
    p.trapWrite (0x120 + n) v = some (p.tkfWritten n v) := by
  unfold Pick.trapWrite Pick.tkfWritten
  rw [if_neg (by omega), if_neg (by omega), if_neg (by omega), if_neg (by omega), if_neg (by omega), if_pos (by omega),
    Nat.add_sub_cancel_left]
  cases p.queue <;> rfl

/-- What a write of TKF n makes of the queue: only its first block can change, and only when the trap froze it. -/
theorem Pick.tkfWritten_queue {p : Pick} {n : Nat} (h : n < 16) (v : Word) {b : Block} {bs : List Block}
    (hb : p.queue = b :: bs) : ∃ x, (p.tkfWritten n v).queue = x :: bs ∧
      (b.started = true ∧ p.trec.blk = true → { x with kWritten := b.kWritten, kPoison := b.kPoison } = b ∧
        ∀ i, x.kWritten.getLsbD i = (b.kWritten.getLsbD i || decide (i = n)) ∧
          x.kPoison.getLsbD i = (b.kPoison.getLsbD i && !decide (i = n))) ∧
      (¬ (b.started = true ∧ p.trec.blk = true) → x = b) := by
  have hq : (p.tkfWritten n v).queue = (if b.started && p.trec.blk then b.tkfWritten n else b) :: bs := by
    rw [Pick.tkfWritten, hb]
    rfl
  rw [← Bool.and_eq_true]
  refine ⟨_, hq, fun hf => ?_, fun hf => if_neg hf⟩
  rw [if_pos hf]
  exact ⟨rfl, fun i => ⟨b.tkfWritten_kWritten h i, b.tkfWritten_kPoison h i⟩⟩

/-- The registers below the two tables that a trap-mode write leaves as they are (R417). -/
theorem Pick.trapWrite_fixed (p : Pick) {n : Nat} (h5 : n ≠ 0x105) (h6 : n ≠ 0x106) (h7 : n ≠ 0x107) (h : n < 0x110)
    (v : Word) : p.trapWrite n v = some p := by
  unfold Pick.trapWrite
  rw [if_neg h5, if_neg h6, if_neg h7, if_neg (by omega), if_neg (by omega), if_neg (by omega)]

/-! ## SCSRW -/

/-- What a write of register n in the present mode makes of the pick; none for a value that the register refuses. -/
def Pick.regWrite (p : Pick) (n : Nat) (v : Word) : Option Pick := if isTrapReg n then p.trapWrite n v else p.ctlWrite n v

theorem Pick.regWrite_trap (p : Pick) {n : Nat} (h : isTrapReg n = true) (v : Word) : p.regWrite n v = p.trapWrite n v :=
  if_pos h

theorem Pick.regWrite_own (p : Pick) {n : Nat} (h : isTrapReg n = false) (v : Word) : p.regWrite n v = p.ctlWrite n v :=
  if_neg (by simp [h])

/-- A register that the mode of the pick lets SCSRW write (R415, R419). -/
def State.mayWrite (s : State) (n : Nat) : Prop :=
  isCtlReg n = true ∧ isCtxReg n = false ∧ (isTrapReg n = true → s.pick.mode = true)

theorem exec_scsrw (a : BitVec 6) (r : BitVec 12) (s : State) : exec (.scsrw a r) s = execScsrw a r s := rfl

/-- A write that the mode allows: the pick goes on as the register takes the value, or traps where it refuses it. -/
theorem exec_scsrw_allowed {s : State} {a : BitVec 6} {r : BitVec 12} (hr : s.regsReady [a] [] = true)
    (hw : s.mayWrite r.toNat) : exec (.scsrw a r) s =
      (s.pick.regWrite r.toNat (s.pick.w a)).elim (s.trapS .illOperand s.opc6) (fun q => .next (s.setPick q).advance) := by
  obtain ⟨hctl, hctx, htrap⟩ := hw
  have hperm : (isCtxReg r.toNat || (isTrapReg r.toNat && !s.pick.mode)) = false := by
    cases h : isTrapReg r.toNat <;> simp_all
  rw [exec_scsrw, execScsrw, ← State.readS_ready hr (r := a) (by simp), Pick.regWrite]
  simp only [hctl, hperm, State.withOperands_ready hr, Bool.not_true, Bool.false_eq_true, if_false]
  split <;> next h => rw [h]; rfl

theorem exec_scsrw_some {s : State} {a : BitVec 6} {r : BitVec 12} {q : Pick} (hr : s.regsReady [a] [] = true)
    (hw : s.mayWrite r.toNat) (hq : s.pick.regWrite r.toNat (s.pick.w a) = some q) :
    exec (.scsrw a r) s = .next (s.setPick q).advance := by
  rw [exec_scsrw_allowed hr hw, hq]
  rfl

theorem exec_scsrw_none {s : State} {a : BitVec 6} {r : BitVec 12} (hr : s.regsReady [a] [] = true)
    (hw : s.mayWrite r.toNat) (hq : s.pick.regWrite r.toNat (s.pick.w a) = none) :
    exec (.scsrw a r) s = s.trapS .illOperand s.opc6 := by
  rw [exec_scsrw_allowed hr hw, hq]
  rfl

theorem isTrapReg_bank {n : Nat} (h : 0x110 ≤ n) (h' : n < 0x130) : isTrapReg n = true := by
  simp only [isTrapReg, Bool.or_eq_true, decide_eq_true_eq]
  omega

theorem isTrapReg_own {n : Nat} (h : n < 0x00A) : isTrapReg n = false := by
  simp only [isTrapReg, Bool.or_eq_false_iff, decide_eq_false_iff_not]
  omega

theorem State.mayWrite_own (s : State) {n : Nat} (h : n < 0x00A) : s.mayWrite n := by
  have htrap := isTrapReg_own h
  have hctx : isCtxReg n = false := by
    simp only [isCtxReg, Bool.or_eq_false_iff, decide_eq_false_iff_not]
    omega
  exact ⟨by simp [isCtlReg, h], hctx, by simp [htrap]⟩

theorem State.mayWrite_trap {s : State} (hm : s.pick.mode = true) {n : Nat} (h : isTrapReg n = true) : s.mayWrite n := by
  have hctx : isCtxReg n = false := by
    simp only [isTrapReg, isCtxReg, Bool.or_eq_true, Bool.or_eq_false_iff, decide_eq_true_eq, decide_eq_false_iff_not] at h ⊢
    omega
  exact ⟨by simp [isCtlReg, h], hctx, fun _ => hm⟩

/-- The pick after an instruction that goes on in sequence (R245). -/
def Pick.goneOn (q : Pick) (fresh : Nat) : Pick := { q with spc := q.spc + 4, bkExempt := false, lastS := fresh }

theorem State.setPick_advance_pick (s : State) (q : Pick) : (s.setPick q).advance.pick = q.goneOn s.fresh := by
  simp [State.advance, Pick.goneOn]

/-- An instruction that makes q of its pick and goes on: what f puts back is all that may differ. -/
theorem State.setPick_advance_pickStep {s : State} {q : Pick} {f : Pick → Pick → Pick} (ht : q.team = s.pick.team)
    (hs : q.spc = s.pick.spc) (hf : { f s.pick (q.goneOn s.fresh) with
      spc := s.pick.spc, bkExempt := s.pick.bkExempt, lastS := s.pick.lastS } = s.pick) :
    PickStep s (s.setPick q).advance f := by
  have hteam : (s.setPick q).team = s.team := State.setPick_team s q ht
  refine ⟨(State.setPick_only s q).trans (State.setPick_count_only _ _ _ _ _), ?_, ?_, ?_⟩
  · rw [State.advance, hteam]
    exact Counted.of_dies (s' := (s.setPick q).setPick _) rfl (State.count_counted _ _ _ _)
  · rw [State.setPick_advance_pick, Pick.goneOn, hs]
    apply BitVec.eq_of_toNat_eq
    simp [State.nextPc]
  · rw [State.setPick_advance_pick]
    exact hf

/-- A write that the register takes: what f puts back may differ, and the pick made satisfies P. -/
theorem scsrw_completes {s : State} {a : BitVec 6} {r : BitVec 12} {q : Pick} {f : Pick → Pick → Pick} {P : Pick → Prop}
    (hr : s.regsReady [a] [] = true) (hw : s.mayWrite r.toNat)
    (hq : s.pick.regWrite r.toNat (s.pick.w a) = some q) (ht : q.team = s.pick.team) (hs : q.spc = s.pick.spc)
    (hf : { f s.pick (q.goneOn s.fresh) with
      spc := s.pick.spc, bkExempt := s.pick.bkExempt, lastS := s.pick.lastS } = s.pick)
    (hP : P (q.goneOn s.fresh)) : Completes (.scsrw a r) s fun t => PickStep s t f ∧ P t.pick :=
  ⟨_, exec_scsrw_some hr hw hq, State.setPick_advance_pickStep ht hs hf, by rw [State.setPick_advance_pick]; exact hP⟩

/-- The same for a register of the pick itself, in either mode. -/
theorem scsrw_own {s : State} {a : BitVec 6} {r : BitVec 12} {q : Pick} {f : Pick → Pick → Pick} {P : Pick → Prop}
    (hr : s.regsReady [a] [] = true) (hn : r.toNat < 0x00A) (hq : s.pick.ctlWrite r.toNat (s.pick.w a) = some q)
    (ht : q.team = s.pick.team) (hs : q.spc = s.pick.spc) (hf : { f s.pick (q.goneOn s.fresh) with
      spc := s.pick.spc, bkExempt := s.pick.bkExempt, lastS := s.pick.lastS } = s.pick)
    (hP : P (q.goneOn s.fresh)) : Completes (.scsrw a r) s fun t => PickStep s t f ∧ P t.pick :=
  scsrw_completes hr (State.mayWrite_own s hn) ((Pick.regWrite_own _ (isTrapReg_own hn) _).trans hq) ht hs hf hP

/-- A write in trap mode of register n of the trap record that makes x of it. -/
theorem scsrw_trec {s : State} {a : BitVec 6} {r : BitVec 12} {n : Nat} {x : TrapRec} {P : TrapRec → Prop}
    (hm : s.pick.mode = true) (hr : s.regsReady [a] [] = true) (hn : r.toNat = n) (htrap : isTrapReg n = true)
    (hq : s.pick.trapWrite n (s.pick.w a) = some { s.pick with trec := x }) (hP : P x) :
    Completes (.scsrw a r) s fun t => PickStep s t (fun p q => { q with trec := p.trec }) ∧ P t.pick.trec := by
  subst hn
  exact scsrw_completes (q := { s.pick with trec := x }) (P := fun p => P p.trec) hr (State.mayWrite_trap hm htrap)
    ((Pick.regWrite_trap _ htrap _).trans hq) rfl rfl rfl hP

/-- A write of TKF n in trap mode. -/
theorem scsrw_tkf {s : State} {a : BitVec 6} (hm : s.pick.mode = true) (hr : s.regsReady [a] [] = true) {n : Nat}
    (h : n < 16) : Completes (.scsrw a (BitVec.ofNat 12 (0x120 + n))) s fun t =>
      PickStep s t (fun p q => { q with trec := p.trec, queue := p.queue }) ∧
      t.pick = (s.pick.tkfWritten n (s.pick.w a)).goneOn s.fresh := by
  have hn : (BitVec.ofNat 12 (0x120 + n)).toNat = 0x120 + n := toNat_bank (by omega)
  have htrap : isTrapReg (0x120 + n) = true := isTrapReg_bank (by omega) (by omega)
  have hq := (Pick.regWrite_trap s.pick htrap (s.pick.w a)).trans (Pick.trapWrite_tkf _ h _)
  rw [← hn] at htrap hq
  exact scsrw_completes (P := fun p => p = (s.pick.tkfWritten n (s.pick.w a)).goneOn s.fresh) hr
    (State.mayWrite_trap hm htrap) hq rfl rfl rfl rfl

/-- A write in trap mode that register n refuses ends the context, in a world without CONF (R428). -/
theorem scsrw_nested {s : State} {a : BitVec 6} {r : BitVec 12} {n : Nat} (hm : s.pick.mode = true)
    (hr : s.regsReady [a] [] = true) (hn : r.toNat = n) (hw : s.mayWrite n) (hq : s.pick.regWrite n (s.pick.w a) = none)
    (hparked : s.pick.parked = false) (hended : s.ctx.ended = false)
    (hpol : (s.worldAt s.ctx.world).policy.getLsbD 0 = false) :
    Completes (.scsrw a r) s fun t => (t.ctxAt s.team.ctx).ended = true ∧ (t.ctxAt s.team.ctx).endCause = 0x02 := by
  subst hn
  exact ⟨_, exec_scsrw_none hr hw hq, State.takeTrap_nested hm hparked hended hpol (by simp)⟩

/-- A write that the register refuses traps in normal mode. -/
theorem scsrw_refused {s : State} {a : BitVec 6} {r : BitVec 12} (hr : s.regsReady [a] [] = true)
    (hw : s.mayWrite r.toNat) (hq : s.pick.regWrite r.toNat (s.pick.w a) = none) :
    TrapsS (.scsrw a r) s .illOperand s.opc6 :=
  TrapsS.of_exec fun _ => exec_scsrw_none hr hw hq

/-- A write of a number that names no register traps (R81). -/
theorem scsrw_unallocated (s : State) (a : BitVec 6) {r : BitVec 12} (h : isCtlReg r.toNat = false) :
    TrapsS (.scsrw a r) s .illOperand s.opc6 :=
  TrapsS.of_exec fun _ => by simp [exec_scsrw, execScsrw, h]

/-- A write of a context register, or of the trap record in normal mode, traps (R415, R419). -/
theorem scsrw_perm (s : State) (a : BitVec 6) {r : BitVec 12} (h : isCtxReg r.toNat = true ∨ isTrapReg r.toNat = true) :
    TrapsS (.scsrw a r) s .perm 0 := by
  apply TrapsS.of_exec
  rintro ⟨hmode, -⟩
  have hctl : isCtlReg r.toNat = true := by
    rcases h with h | h <;> simp [isCtlReg, h]
  rw [exec_scsrw, execScsrw]
  rcases h with h | h <;> simp [hctl, h, hmode]

/-- A write that the register drops goes on and changes nothing. -/
theorem scsrw_dropped {s : State} {a : BitVec 6} {r : BitVec 12} (hr : s.regsReady [a] [] = true)
    (hw : s.mayWrite r.toNat) (hq : s.pick.regWrite r.toNat (s.pick.w a) = some s.pick) :
    Completes (.scsrw a r) s fun t => ScalarDone s t 0 0 s.nextPc := by
  obtain ⟨t, he, ⟨honly, hcount, hspc, hsame⟩, hp⟩ := scsrw_completes (f := fun _ q => q)
    (P := fun p => p = s.pick.goneOn s.fresh) hr hw hq rfl rfl rfl rfl
  refine ⟨t, he, honly, hcount, ?_, ?_, hspc, ?_, ?_⟩ <;> rw [hp]
  · rfl
  · simp [Pick.wrote, Pick.goneOn]
  · rfl
  · rfl

/-! ## Registers of the trap record -/

/-- TLPC n of a live strand takes an address of a lane instruction (R418). -/
theorem scsrw_tlpc {s : State} {a : BitVec 6} (hm : s.pick.mode = true) (hr : s.regsReady [a] [] = true) {n : Nat}
    (h : n < 8) (hl : s.pick.trec.blk = true ∧ (s.pick.trec.tlpc.lookup n).isSome = true) (hv : (s.pick.w a).toNat % 12 = 0) :
    Completes (.scsrw a (BitVec.ofNat 12 (0x110 + n))) s fun t => PickStep s t (fun p q => { q with trec := p.trec }) ∧
      { t.pick.trec with tlpc := s.pick.trec.tlpc } = s.pick.trec ∧
      ∀ k, tget 0xFFFFFFFF t.pick.trec.tlpc k = if k = n then s.pick.w a else tget 0xFFFFFFFF s.pick.trec.tlpc k :=
  scsrw_trec (P := fun x => { x with tlpc := s.pick.trec.tlpc } = s.pick.trec ∧
      ∀ k, tget 0xFFFFFFFF x.tlpc k = if k = n then s.pick.w a else tget 0xFFFFFFFF s.pick.trec.tlpc k)
    hm hr (toNat_bank (by omega)) (isTrapReg_bank (by omega) (by omega))
    ((Pick.trapWrite_tlpc_live _ h hl _).trans (if_pos hv)) ⟨rfl, tget_tins _ _ _ _⟩

/-- TLFMT n takes a value of a format register without its reserved bits (R418). -/
theorem scsrw_tlfmt {s : State} {a : BitVec 6} (hm : s.pick.mode = true) (hr : s.regsReady [a] [] = true) {n : Nat}
    (h : n < 8) (hv : ¬ fmtrBad (fmtrClean (s.pick.w a)) = true) :
    Completes (.scsrw a (BitVec.ofNat 12 (0x118 + n))) s fun t => PickStep s t (fun p q => { q with trec := p.trec }) ∧
      { t.pick.trec with tlfmt := s.pick.trec.tlfmt } = s.pick.trec ∧
      ∀ k, tget 0 t.pick.trec.tlfmt k = if k = n then fmtrClean (s.pick.w a) else tget 0 s.pick.trec.tlfmt k :=
  scsrw_trec (P := fun x => { x with tlfmt := s.pick.trec.tlfmt } = s.pick.trec ∧
      ∀ k, tget 0 x.tlfmt k = if k = n then fmtrClean (s.pick.w a) else tget 0 s.pick.trec.tlfmt k)
    hm hr (toNat_bank (by omega)) (isTrapReg_bank (by omega) (by omega))
    ((Pick.trapWrite_tlfmt _ h _).trans (if_neg hv)) ⟨rfl, tget_tins _ _ _ _⟩

/-! ## Registers of the pick itself -/

section
variable {s : State} {a : BitVec 6} (hr : s.regsReady [a] [] = true)
include hr

theorem scsrw_fmtr (hv : ¬ fmtrBad (fmtrClean (s.pick.w a)) = true) : Completes (.scsrw a 0x000) s fun t =>
    PickStep s t (fun p q => { q with fmtr := p.fmtr }) ∧ t.pick.fmtr = fmtrClean (s.pick.w a) :=
  scsrw_own (q := { s.pick with fmtr := fmtrClean (s.pick.w a) }) (P := fun p => p.fmtr = fmtrClean (s.pick.w a))
    hr (by decide) (if_neg hv) rfl rfl rfl rfl

theorem scsrw_tcfg (hv : ¬ tcfgBad (tcfgClean (s.pick.w a)) = true) : Completes (.scsrw a 0x001) s fun t =>
    PickStep s t (fun p q => { q with tcfg := p.tcfg }) ∧ t.pick.tcfg = tcfgClean (s.pick.w a) :=
  scsrw_own (q := { s.pick with tcfg := tcfgClean (s.pick.w a) }) (P := fun p => p.tcfg = tcfgClean (s.pick.w a))
    hr (by decide) (if_neg hv) rfl rfl rfl rfl

theorem scsrw_seed : Completes (.scsrw a 0x002) s fun t =>
    PickStep s t (fun p q => { q with seed := p.seed }) ∧ t.pick.seed = s.pick.w a :=
  scsrw_own (q := { s.pick with seed := s.pick.w a }) (P := fun p => p.seed = s.pick.w a) hr (by decide) rfl rfl rfl rfl rfl

theorem scsrw_gang_low : Completes (.scsrw a 0x004) s fun t => PickStep s t (fun p q => { q with gang := p.gang }) ∧
    t.pick.gang.extractLsb' 0 32 = s.pick.w a ∧ t.pick.gang.extractLsb' 32 32 = s.pick.gang.extractLsb' 32 32 :=
  scsrw_own (q := { s.pick with gang := s.pick.gang.extractLsb' 32 32 ++ s.pick.w a })
    (P := fun p => p.gang.extractLsb' 0 32 = s.pick.w a ∧ p.gang.extractLsb' 32 32 = s.pick.gang.extractLsb' 32 32)
    hr (by decide) rfl rfl rfl rfl ⟨BitVec.extractLsb'_append_eq_right, BitVec.extractLsb'_append_eq_left⟩

theorem scsrw_gang_high : Completes (.scsrw a 0x005) s fun t => PickStep s t (fun p q => { q with gang := p.gang }) ∧
    t.pick.gang.extractLsb' 0 32 = s.pick.gang.extractLsb' 0 32 ∧
    (t.pick.gang.extractLsb' 32 32).toNat = (s.pick.w a).toNat % 2 ^ 16 :=
  scsrw_own (q := { s.pick with
      gang := (0#16 ++ (s.pick.w a).setWidth 16 : BitVec 32) ++ s.pick.gang.setWidth 32 })
    (P := fun p => p.gang.extractLsb' 0 32 = s.pick.gang.extractLsb' 0 32 ∧
      (p.gang.extractLsb' 32 32).toNat = (s.pick.w a).toNat % 2 ^ 16)
    hr (by decide) rfl rfl rfl rfl (gangHigh_parts _ _)

theorem scsrw_fmask_low : Completes (.scsrw a 0x008) s fun t => PickStep s t (fun p q => { q with fmask := p.fmask }) ∧
    ∀ i, t.pick.fmask.getLsbD i = (s.pick.fmask.getLsbD i && !(s.pick.w a).getLsbD i) :=
  scsrw_own (q := { s.pick with fmask := clearFmask s.pick.fmask false (s.pick.w a) })
    (P := fun p => ∀ i, p.fmask.getLsbD i = (s.pick.fmask.getLsbD i && !(s.pick.w a).getLsbD i))
    hr (by decide) rfl rfl rfl rfl (getLsbD_clearFmask_low _ _)

theorem scsrw_fmask_high : Completes (.scsrw a 0x009) s fun t => PickStep s t (fun p q => { q with fmask := p.fmask }) ∧
    ∀ i, t.pick.fmask.getLsbD i = (s.pick.fmask.getLsbD i && !(decide (32 ≤ i) && (s.pick.w a).getLsbD (i - 32))) :=
  scsrw_own (q := { s.pick with fmask := clearFmask s.pick.fmask true (s.pick.w a) })
    (P := fun p => ∀ i, p.fmask.getLsbD i =
      (s.pick.fmask.getLsbD i && !(decide (32 ≤ i) && (s.pick.w a).getLsbD (i - 32))))
    hr (by decide) rfl rfl rfl rfl (getLsbD_clearFmask_high _ _)

/-- WB, PATHS and the counters of clks take no value (R81, R433). -/
theorem scsrw_readOnly : ∀ n ∈ ([0x003, 0x006, 0x007, 0x158, 0x159, 0x15A] : List (BitVec 12)),
    Completes (.scsrw a n) s fun t => ScalarDone s t 0 0 s.nextPc := by
  intro n hn
  have hro : s.mayWrite n.toNat ∧ s.pick.regWrite n.toNat (s.pick.w a) = some s.pick := by
    revert n
    simp [State.mayWrite, isCtlReg, isCtxReg, isTrapReg, Pick.regWrite, Pick.ctlWrite]
  obtain ⟨hw, hq⟩ := hro
  exact scsrw_dropped hr hw hq

end

end Sys2Proof.Machine
end

section
/-! SUPPORT. The statements on control registers and on words. -/

namespace Sys2Proof.Machine

/-- Settles O12: reads by what each register finds, writes by what the register makes of the pick or by the trap where it
refuses the value. -/
theorem controlRegisters : Obligations.ControlRegisters := by
  unfold Obligations.ControlRegisters
  refine ⟨fun s d h => ⟨?_, fun n hn => ⟨fun h8 => ⟨?_, ?_⟩, ?_, fun h4 => ?_⟩, scsrr_cycl h,
    fun _ r hr => scsrr_traps s d hr⟩, ?_, ?_⟩
  · intro e he
    have hv : e.1 ≠ 0x158 ∧ s.ctlRead e.1.toNat = some e.2 := by
      revert e
      have hlow (x : BitVec 64) : x.setWidth 32 = x.extractLsb' 0 32 := BitVec.setWidth_eq_extractLsb' (by decide)
      simp [State.ctlRead, Pick.trapReg, Context.ctlReg, Pick.pathsReg_low, Pick.pathsReg_high, TrapRec.tfrag_eq, Pick.tstat,
        hlow]
    exact scsrr_completes h hv.1 hv.2
  · exact scsrr_bank h (by omega) (s.ctlRead_tlpc h8)
  · exact scsrr_bank h (by omega) (s.ctlRead_tlfmt h8)
  · exact scsrr_bank h (by omega) (s.ctlRead_tkf hn)
  · exact scsrr_bank h (by omega) (s.ctlRead_bkl h4)
  · intro s a hm hr r v f ok Takes Nested
    have hbad : fmtrBad (fmtrClean v) = true ↔ ¬ ok := (fmtrBad_iff _).trans not_not.symm
    have takes (num : BitVec 12) {n : Nat} {x : TrapRec} (hnum : num.toNat = n) (hn : isTrapReg n = true)
        (hq : s.pick.trapWrite n v = some { s.pick with trec := x }) : Takes num (fun y => y = x) :=
      scsrw_trec (P := fun y => y = x) hm hr hnum hn hq rfl
    have nested (num : BitVec 12) {n : Nat} (hnum : num.toNat = n) (hn : isTrapReg n = true)
        (hq : s.pick.trapWrite n v = none) : Nested num :=
      scsrw_nested hm hr hnum (State.mayWrite_trap hm hn) ((Pick.regWrite_trap _ hn _).trans hq)
    have nestedOwn (num : BitVec 12) (hn : num.toNat < 0x00A) (hq : s.pick.ctlWrite num.toNat v = none) : Nested num :=
      scsrw_nested hm hr rfl (State.mayWrite_own s hn) ((Pick.regWrite_own _ (isTrapReg_own hn) _).trans hq)
    refine ⟨fun h => ?_, fun h => ?_, ⟨fun h h' => ?_, fun h => ?_⟩, fun h => ?_, fun h => ?_, fun h => ?_, fun h => ?_,
      fun n hn => ?_, fun n hn => ⟨fun h8 => ?_, ?_⟩⟩
    · exact takes 0x105 rfl rfl ((s.pick.trapWrite_tspc v).trans (if_pos h))
    · exact nested 0x105 rfl rfl ((s.pick.trapWrite_tspc v).trans (if_neg h))
    · exact takes 0x106 rfl rfl ((s.pick.trapWrite_tstat v).trans (if_neg (by omega)))
    · exact nested 0x106 rfl rfl ((s.pick.trapWrite_tstat v).trans (if_pos h))
    · exact nestedOwn 0x000 (by decide) (if_pos (hbad.mpr h))
    · exact nestedOwn 0x001 (by decide) (if_pos ((tcfgBad_clean_iff v).mpr h))
    · exact takes 0x107 rfl rfl ((s.pick.trapWrite_tfmtr v).trans (if_neg (fun hb => hbad.mp hb h)))
    · exact nested 0x107 rfl rfl ((s.pick.trapWrite_tfmtr v).trans (if_pos (hbad.mpr h)))
    · have hfix : isTrapReg n.toNat = true ∧ n.toNat ≠ 0x105 ∧ n.toNat ≠ 0x106 ∧ n.toNat ≠ 0x107 ∧
          n.toNat < 0x110 := by
        revert n
        simp [isTrapReg]
      obtain ⟨htrap, h5, h6, h7, hlt⟩ := hfix
      exact takes n rfl htrap (s.pick.trapWrite_fixed h5 h6 h7 hlt v)
    · have hlpc : (BitVec.ofNat 12 (0x110 + n)).toNat = 0x110 + n := toNat_bank (by omega)
      have hlfm : (BitVec.ofNat 12 (0x118 + n)).toNat = 0x118 + n := toNat_bank (by omega)
      have htlpc : isTrapReg (0x110 + n) = true := isTrapReg_bank (by omega) (by omega)
      have htlfm : isTrapReg (0x118 + n) = true := isTrapReg_bank (by omega) (by omega)
      refine ⟨fun hl => ?_, fun hl h => ?_, fun hl h => ?_, fun h => ?_, fun h => ?_⟩
      · exact takes _ hlpc htlpc (s.pick.trapWrite_tlpc_dead h8 hl v)
      · exact scsrw_tlpc hm hr h8 hl h
      · exact nested _ hlpc htlpc ((s.pick.trapWrite_tlpc_live h8 hl v).trans (if_neg h))
      · exact scsrw_tlfmt hm hr h8 (fun hb => hbad.mp hb h)
      · exact nested _ hlfm htlfm ((s.pick.trapWrite_tlfmt h8 v).trans (if_pos (hbad.mpr h)))
    · obtain ⟨t, he, hstep, hpick⟩ := scsrw_tkf hm hr hn
      refine ⟨t, he, hstep, ?_⟩
      rw [hpick]
      exact ⟨rfl, tget_tins _ _ _ _, List.tail_modifyHead, fun b bs hb => Pick.tkfWritten_queue hn v hb⟩
  · intro s a n
    refine ⟨scsrw_unallocated s a, scsrw_perm s a, fun hr => ?_⟩
    intro v f fBad cBad
    have hf : fmtrBad (fmtrClean v) = true ↔ fBad := fmtrBad_iff _
    have hc : tcfgBad (tcfgClean v) = true ↔ cBad := tcfgBad_clean_iff _
    exact ⟨fun h => scsrw_refused hr (State.mayWrite_own s (by decide)) (if_pos (hf.mpr h)),
      fun h => scsrw_refused hr (State.mayWrite_own s (by decide)) (if_pos (hc.mpr h)),
      fun h => scsrw_fmtr hr (mt hf.mp h), fun h => scsrw_tcfg hr (mt hc.mp h), scsrw_seed hr, scsrw_gang_low hr,
      scsrw_gang_high hr, scsrw_fmask_low hr, scsrw_fmask_high hr, scsrw_readOnly hr⟩

/-- Settles O55: both lists are finite, and every word is decoded by evaluation. -/
theorem wordsDecode : Obligations.WordsDecode := by
  unfold Obligations.WordsDecode
  exact ⟨by decide, by decide⟩

end Sys2Proof.Machine
end

section
/-! SUPPORT. What the loss of dies and edges leaves of the links: their records, but for the edge that goes down (R32, R487). -/

namespace Sys2Proof.Machine

/-! ## Folds -/

/-- A fold keeps what each of its steps keeps. -/
theorem foldl_keeps {σ α β : Type} (g : σ → β) {f : σ → α → σ} (h : ∀ s a, g (f s a) = g s) (l : List α) (s : σ) :
    g (l.foldl f s) = g s := by
  induction l generalizing s with
  | nil => rfl
  | cons a l ih => exact (ih _).trans (h s a)

theorem State.foldl_links {α : Type} {f : State → α → State} (h : ∀ s a, (f s a).links = s.links) (l : List α) (s : State) :
    (l.foldl f s).links = s.links := foldl_keeps State.links h l s

/-! ## Collectives that end -/

@[simp] theorem State.collErr_links (s : State) (k case rank : Nat) : (s.collErr k case rank).links = s.links := by
  unfold State.collErr
  split
  · rfl
  · split <;> rfl

@[simp] theorem State.collErrAll_links (s : State) (k : Nat) (o : Op) (g : Group) (case rank : Nat) :
    (s.collErrAll k o g case rank).links = s.links := by
  unfold State.collErrAll
  refine (State.foldl_links (fun s e => ?_) _ _).trans (s.collErr_links k case rank)
  split
  · exact State.foldl_links (fun s k => s.collErr_links k case rank) _ _
  · rfl

@[simp] theorem State.collLost_links (s : State) (k case rank : Nat) : (s.collLost k case rank).links = s.links := by
  unfold State.collLost
  split
  · rfl
  · split
    · split
      · exact State.collErrAll_links _ _ _ _ _ _
      · exact s.collErr_links k case rank
    · exact s.collErr_links k case rank

/-! ## Teams that stop -/

@[simp] theorem State.dropRemoved_links (s : State) (die loom n : Nat) : (s.dropRemoved die loom n).links = s.links := by
  unfold State.dropRemoved
  dsimp only
  split
  · rfl
  · split <;> rfl

@[simp] theorem State.releaseRefs_links (s : State) (t : Nat) (keep : BitVec 8) : (s.releaseRefs t keep).links = s.links :=
  State.foldl_links (fun s n => s.dropRemoved_links _ _ n) _ _

@[simp] theorem State.countAborts_links (s : State) (key : Nat) : (s.countAborts key).links = s.links := by
  unfold State.countAborts
  dsimp only
  split <;> rfl

@[simp] theorem State.dropPicks_links (s : State) (keys : List Nat) : (s.dropPicks keys).links = s.links := by
  unfold State.dropPicks
  refine State.foldl_links (fun s k => ?_) _ _
  exact s.countAborts_links k

@[simp] theorem State.stopTeam_links (s : State) (t status cause : Nat) : (s.stopTeam t status cause).links = s.links :=
  (State.dropPicks_links _ _).trans (s.releaseRefs_links t 0)

@[simp] theorem State.prqCheck_links (s : State) (ctx : Nat) : (s.prqCheck ctx).links = s.links := by
  unfold State.prqCheck
  dsimp only
  split <;> rfl

@[simp] theorem State.placeCheck_links (s : State) (world : Nat) : (s.placeCheck world).links = s.links := by
  unfold State.placeCheck
  refine State.foldl_links (fun s e => ?_) _ _
  dsimp only
  split <;> rfl

/-! ## Dies and edges -/

@[simp] theorem State.loseContext_links (s : State) (ctx die : Nat) : (s.loseContext ctx die).links = s.links := by
  unfold State.loseContext
  refine (State.prqCheck_links _ _).trans ?_
  refine (State.foldl_links (fun s e => ?saved) _ _).trans ((State.foldl_links (fun s e => ?resident) _ _).trans
    (State.foldl_links (fun s e => ?collective) _ _))
  case saved => exact State.stopTeam_links _ _ _ _
  case resident => exact State.stopTeam_links _ _ _ _
  case collective =>
    split
    · exact (State.collLost_links _ _ _ _).trans (State.collErr_links _ _ _ _)
    · exact State.collErr_links _ _ _ _

@[simp] theorem State.loseDie_links (s : State) (die : Nat) : (s.loseDie die).links = s.links := by
  unfold State.loseDie
  dsimp only
  split
  · rfl
  · exact (State.placeCheck_links _ _).trans (State.foldl_links (fun s e => s.loseContext_links _ _) _ _)

@[simp] theorem State.loseUnreached_links (s : State) : s.loseUnreached.links = s.links :=
  State.foldl_links (fun s n => s.loseDie_links n) _ _

theorem State.linkAt_congr {s t : State} (h : t.links = s.links) (k : Nat) : t.linkAt k = s.linkAt k := by
  unfold State.linkAt
  rw [h]

theorem State.edgeDown_down (s : State) (e : Nat) :
    ((s.edgeDown e).linkAt (2 * e)).down = true ∧ ((s.edgeDown e).linkAt (2 * e + 1)).down = true := by
  unfold State.edgeDown
  simp only [State.linkAt_congr (State.loseUnreached_links _), State.setLinkAt_linkAt]
  simp

end Sys2Proof.Machine
end

section
/-! SUPPORT. Power grants with what they count, operating points, widths of links and weave commits (R476, R505 to R508). -/

namespace Sys2Proof.Machine

/-! ## One record set -/

/-- Of the links, one is as x, and nothing else of the device differs. -/
def LinkIs (s t : State) (n : Nat) (x : Link) : Prop :=
  t.linkAt n = x ∧ (∀ k, k ≠ n → t.linkAt k = s.linkAt k) ∧ { t with links := s.links } = s

theorem State.setLinkAt_linkIs (s : State) (n : Nat) (x : Link) : LinkIs s (s.setLinkAt n x) n x :=
  ⟨s.setLinkAt_linkAt_self n x, fun k hk => (s.setLinkAt_linkAt n x k).trans (if_neg hk), rfl⟩

/-- Of the dies, one is as x, and nothing else of the device differs. -/
def DieIs (s t : State) (n : Nat) (x : Die) : Prop :=
  t.dieAt n = x ∧ (∀ k, k ≠ n → t.dieAt k = s.dieAt k) ∧ { t with dies := s.dies } = s

theorem State.setDieAt_dieIs (s : State) (n : Nat) (x : Die) : DieIs s (s.setDieAt n x) n x :=
  ⟨s.setDieAt_dieAt_self n x, fun k hk => (s.setDieAt_dieAt n x k).trans (if_neg hk), rfl⟩

/-- The device with another table of dies. -/
def State.withDies (s : State) (d : Tab Die) : State := { s with dies := d }

/-- A table changed entry by entry, where the change keeps the default. -/
theorem tget_map {α : Type} {d : α} {f : α → α} (hf : f d = d) (t : Tab α) (k : Nat) :
    tget d (t.map (fun e => (e.1, f e.2)) : Tab α) k = f (tget d t k) := by
  induction t with
  | nil => exact hf.symm
  | cons e t ih =>
    simp only [List.map_cons, tget]
    split
    · rfl
    · exact ih

/-! ## The bounds of a grant (R505, R506) -/

/-- A die may stand at an operating point. -/
def State.MayStand (s : State) (p : Nat) : Prop :=
  s.oppValid p = true ∧ (2000 < s.oppClock p → (s.cfg 6 2).testBit 0 = true)

theorem State.grantable_iff (s : State) (p : Nat) : s.grantable p = true ↔ s.MayStand p := by
  simp only [State.grantable, State.MayStand, bit, Bool.and_eq_true, Bool.or_eq_true, decide_eq_true_eq]
  rw [← Nat.not_lt, or_iff_not_imp_left, not_not]

/-- The arbiter's bounds on grants to dies 0 to 11: points that may be granted, none below its floor; the budgets with the
reserve; above the floors by demand. -/
def State.GrantBounds (s : State) (gs : List PowerGrant) : Prop :=
  gs.length = 12 ∧ (∀ n g, gs[n]? = some g → s.MayStand g.point ∧ (s.dieAt n).floor ≤ g.point) ∧
    (gs.map (·.budget)).sum + Config.powerReserve.val ≤ 5600 ∧
    ∀ n a, gs[n]? = some a → a.point ≠ (s.dieAt n).floor → ∀ b ∈ gs, a.demand < b.demand → b.point < a.point →
      ¬ s.MayStand (b.point + 1)

theorem forall_mem_zipIdx {α : Type} {l : List α} {P : α × Nat → Prop} :
    (∀ x ∈ l.zipIdx, P x) ↔ ∀ n a, l[n]? = some a → P (a, n) := by
  simp only [Prod.forall, List.mem_zipIdx_iff_getElem?]
  exact forall_comm

theorem State.grantOk_iff (s : State) (gs : List PowerGrant) : s.grantOk gs = true ↔ s.GrantBounds gs := by
  simp only [State.grantOk, State.GrantBounds, Bool.and_eq_true, and_assoc, beq_iff_eq, decide_eq_true_eq, powerLimit,
    Bool.or_eq_true, List.all_eq_true, Bool.not_eq_true', ← Bool.not_eq_true, State.grantable_iff, forall_mem_zipIdx]
  refine and_congr_right fun _ => and_congr_right fun _ => and_congr decide_eq_true_iff <|
    forall_congr' fun n => forall_congr' fun a => imp_congr_right fun _ => ?_
  constructor
  · intro h hfloor b hb hdemand hpoint
    rcases h with h | h
    · exact absurd h hfloor
    · rcases h b hb with h | h
      · omega
      · exact h
  · intro h
    by_cases hfloor : a.point = (s.dieAt n).floor
    · exact .inl hfloor
    · refine .inr fun b hb => ?_
      by_cases hrank : b.demand ≤ a.demand ∨ a.point ≤ b.point
      · exact .inl hrank
      · exact .inr (h hfloor b hb (by omega) (by omega))

/-! ## What edges count (R483) -/

/-- The counters, each with its die, in which an event of kind k at an edge counts. -/
def edgeCounters (k e : Nat) : List (Nat × Nat) :=
  let (a, b) := dieEdges.getD e (12, 12)
  [(a, 0x300 + 4 * edgeRank a b + k), (b, 0x300 + 4 * edgeRank b a + k)].filter (fun x => decide (x.1 < 12))

/-- One more in each of these counters. -/
def State.countEach (s : State) (l : List (Nat × Nat)) : State := l.foldl (fun t x => t.count x.1 x.2 1) s

theorem State.countEdge_eq (s : State) (e k : Nat) : s.countEdge e k = s.countEach (edgeCounters k e) := by
  unfold State.countEdge edgeCounters State.countEach
  generalize dieEdges.getD e (12, 12) = p
  obtain ⟨a, b⟩ := p
  by_cases ha : a < 12 <;> by_cases hb : b < 12 <;> simp [ha, hb]

theorem State.foldl_countEdge (s : State) (k : Nat) (es : List Nat) :
    es.foldl (fun t e => t.countEdge e k) s = s.countEach (es.flatMap (edgeCounters k)) := by
  simp only [State.countEdge_eq, State.countEach, List.foldl_flatMap]

theorem State.countEach_withDies (s : State) (l : List (Nat × Nat)) (d : Tab Die) :
    (s.countEach l).withDies d = s.withDies d := by
  unfold State.countEach
  refine foldl_keeps (·.withDies d) (fun t x => ?_) l s
  rfl

/-- Counting leaves the rest of each die. -/
theorem State.countEach_dieAt (s : State) (l : List (Nat × Nat)) (n : Nat) :
    { (s.countEach l).dieAt n with counters := (s.dieAt n).counters } = s.dieAt n := by
  induction l generalizing s with
  | nil => rfl
  | cons x l ih =>
    obtain ⟨y, hy⟩ := s.count_dieAt x.1 x.2 1 n
    have h := ih (s.count x.1 x.2 1)
    rw [hy] at h
    exact congrArg (fun d : Die => { d with counters := (s.dieAt n).counters }) h

/-- Each of different counters moves once. -/
theorem State.countEach_counter (s : State) {l : List (Nat × Nat)} (hl : l.Nodup) (n c : Nat) :
    (tget 0 ((s.countEach l).dieAt n).counters c).toNat =
      if (n, c) ∈ l then min ((tget 0 (s.dieAt n).counters c).toNat + 1) (2 ^ 64 - 1)
      else (tget 0 (s.dieAt n).counters c).toNat := by
  induction l generalizing s with
  | nil => rfl
  | cons x l ih =>
    obtain ⟨hx, hl⟩ := List.nodup_cons.mp hl
    obtain ⟨-, hone⟩ := s.count_counted x.1 x.2 1
    have h := ih (s.count x.1 x.2 1) hl
    rw [hone n c] at h
    refine h.trans ?_
    by_cases he : (n, c) = x
    · subst he
      simp [hx]
    · have hne : ¬ (n = x.1 ∧ c = x.2) := fun h => he (Prod.ext h.1 h.2)
      simp [he, hne]

/-- No two edges count in one counter. -/
theorem edgeCounters_nodup : ((List.range 18).flatMap (edgeCounters 3)).Nodup := by decide

theorem mem_edgeCounters {e : Nat} (he : e < 18) (n c : Nat) : (n, c) ∈ edgeCounters 3 e ↔ n < 12 ∧
    ∃ m, (dieEdges[e]? = some (n, m) ∨ dieEdges[e]? = some (m, n)) ∧ c = 0x303 + 4 * edgeRank n m := by
  have hlen : e < dieEdges.length := he
  unfold edgeCounters
  rw [List.getD_eq_getElem _ _ hlen, List.getElem?_eq_getElem hlen]
  generalize dieEdges[e] = p
  obtain ⟨a, b⟩ := p
  simp only [List.mem_filter, List.mem_cons, List.not_mem_nil, or_false, Prod.mk.injEq, decide_eq_true_eq, Option.some.injEq]
  constructor
  · rintro ⟨⟨rfl, rfl⟩ | ⟨rfl, rfl⟩, hn⟩
    · exact ⟨hn, b, .inl ⟨rfl, rfl⟩, by omega⟩
    · exact ⟨hn, a, .inr ⟨rfl, rfl⟩, by omega⟩
  · rintro ⟨hn, m, ⟨rfl, rfl⟩ | ⟨rfl, rfl⟩, rfl⟩
    · exact ⟨.inl ⟨rfl, by omega⟩, hn⟩
    · exact ⟨.inr ⟨rfl, by omega⟩, hn⟩

/-! ## The grant to the dies -/

/-- A die after its grant, s being the state before (R505 to R508). -/
def Die.takeGrant (d : Die) (s : State) (n : Nat) (g : PowerGrant) : Die :=
  if d.lost = true then d
  else if d.hot = true ∨ ∃ l ∈ dieLinks n, (s.linkAt l).wantWidth ≠ none then { d with budget := g.budget }
  else { d with granted := g.point, budget := g.budget, throttled := false }

theorem Die.takeGrant_counters (d : Die) (s : State) (n : Nat) (g : PowerGrant) : (d.takeGrant s n g).counters = d.counters := by
  unfold Die.takeGrant
  split
  · rfl
  · split <;> rfl

/-- The grant to one die in state t, s being the state before the grants. -/
def State.grantDie (s t : State) (e : PowerGrant × Nat) : State :=
  let d := t.dieAt e.2
  let keeps := d.hot || (dieLinks e.2).any (fun l => (s.linkAt l).wantWidth.isSome)
  if d.lost then t
  else if keeps then t.setDieAt e.2 { d with budget := e.1.budget }
  else t.setDieAt e.2 { d with granted := e.1.point, budget := e.1.budget, throttled := false }

theorem State.grantDie_dieAt (s t : State) (g : PowerGrant) (n j : Nat) :
    (s.grantDie t (g, n)).dieAt j = if j = n then (t.dieAt n).takeGrant s n g else t.dieAt j := by
  have hkeeps : ((t.dieAt n).hot || (dieLinks n).any (fun l => (s.linkAt l).wantWidth.isSome)) = true ↔
      (t.dieAt n).hot = true ∨ ∃ l ∈ dieLinks n, (s.linkAt l).wantWidth ≠ none := by
    simp [Option.isSome_iff_ne_none]
  unfold State.grantDie Die.takeGrant
  simp only [hkeeps]
  by_cases hlost : (t.dieAt n).lost = true
  · by_cases hj : j = n <;> simp [hlost, hj]
  · rw [if_neg hlost, if_neg hlost]
    split <;> exact State.setDieAt_dieAt _ _ _ _

theorem State.grantDie_withDies (s t : State) (e : PowerGrant × Nat) (d : Tab Die) :
    (s.grantDie t e).withDies d = t.withDies d := by
  unfold State.grantDie
  dsimp only
  split
  · rfl
  · split <;> rfl

theorem State.foldl_grantDie_dieAt (s t : State) (gs : List PowerGrant) (k j : Nat) :
    ((gs.zipIdx k).foldl s.grantDie t).dieAt j =
      if k ≤ j then (gs[j - k]?).elim (t.dieAt j) ((t.dieAt j).takeGrant s j) else t.dieAt j := by
  induction gs generalizing t k with
  | nil => simp
  | cons g gs ih =>
    rw [List.zipIdx_cons, List.foldl_cons, ih, State.grantDie_dieAt]
    rcases Nat.lt_trichotomy j k with h | h | h
    · rw [if_neg (by omega), if_neg (by omega), if_neg (by omega)]
    · subst h
      simp
    · obtain ⟨i, rfl⟩ : ∃ i, j = k + 1 + i := ⟨j - (k + 1), by omega⟩
      simp [show k + 1 + i - k = i + 1 by omega, show k ≤ k + 1 + i by omega, show k + 1 + i ≠ k by omega]

/-- The state after the grants to all dies, before links retrain. -/
def State.withGrants (s : State) (gs : List PowerGrant) : State := gs.zipIdx.foldl s.grantDie s

theorem State.withGrants_withDies (s : State) (gs : List PowerGrant) (d : Tab Die) :
    (s.withGrants gs).withDies d = s.withDies d :=
  foldl_keeps (·.withDies d) (fun t e => s.grantDie_withDies t e d) _ s

theorem State.withGrants_dieAt (s : State) (gs : List PowerGrant) (n : Nat) :
    (s.withGrants gs).dieAt n = (gs[n]?).elim (s.dieAt n) ((s.dieAt n).takeGrant s n) := by
  simpa [State.withGrants] using s.foldl_grantDie_dieAt s gs 0 n

theorem State.withGrants_counters (s : State) (gs : List PowerGrant) (n : Nat) :
    ((s.withGrants gs).dieAt n).counters = (s.dieAt n).counters := by
  rw [State.withGrants_dieAt]
  cases gs[n]? with
  | none => rfl
  | some g => exact Die.takeGrant_counters _ _ _ _

/-! ## The whole grant -/

/-- A grant starts the training of an edge of die n that counts in counter c (R483, R507). -/
def State.Trains (s : State) (n c : Nat) : Prop :=
  n < 12 ∧ ∃ e < 18, (s.linkAt (2 * e)).wantWidth ≠ none ∧
    ∃ m, (dieEdges[e]? = some (n, m) ∨ dieEdges[e]? = some (m, n)) ∧ c = 0x303 + 4 * edgeRank n m

/-- The edges whose width a grant changes. -/
def State.retrainingEdges (s : State) : List Nat := (List.range 18).filter (fun e => (s.linkAt (2 * e)).wantWidth.isSome)

/-- The counters that these edges move. -/
def State.retrainingCounters (s : State) : List (Nat × Nat) := s.retrainingEdges.flatMap (edgeCounters 3)

theorem State.mem_retrainingCounters (s : State) (n c : Nat) : (n, c) ∈ s.retrainingCounters ↔ s.Trains n c := by
  have hmem (e : Nat) : e ∈ s.retrainingEdges ↔ e < 18 ∧ (s.linkAt (2 * e)).wantWidth ≠ none := by
    simp [State.retrainingEdges, Option.isSome_iff_ne_none]
  simp only [State.retrainingCounters, List.mem_flatMap, hmem]
  constructor
  · rintro ⟨e, ⟨he, hw⟩, hc⟩
    obtain ⟨hn, hm⟩ := (mem_edgeCounters he n c).mp hc
    exact ⟨hn, e, he, hw, hm⟩
  · rintro ⟨hn, e, he, hw, hm⟩
    exact ⟨e, ⟨he, hw⟩, (mem_edgeCounters he n c).mpr ⟨hn, hm⟩⟩

theorem State.retrainingCounters_nodup (s : State) : s.retrainingCounters.Nodup :=
  edgeCounters_nodup.sublist (List.Sublist.flatMap List.filter_sublist _)

/-- The state after a grant that keeps the bounds: dies granted, links retraining, their edges counted (R505 to R508). -/
def State.afterGrant (s : State) (gs : List PowerGrant) : State :=
  State.countEach { s.withGrants gs with links := s.links.map (fun e => (e.1, e.2.retrain)) } s.retrainingCounters

theorem exec_powerGrant {s : State} {gs : List PowerGrant} (hr : s.ready = true) (hg : s.GrantBounds gs) :
    exec (.powerGrant gs) s = .next (s.afterGrant gs) := by
  have hlinks : (s.withGrants gs).links = s.links := (congrArg State.links (s.withGrants_withDies gs []) :)
  have hedges : (List.range 18).filter (fun e => ((s.withGrants gs).linkAt (2 * e)).wantWidth.isSome) = s.retrainingEdges := by
    simp only [State.linkAt_congr hlinks, State.retrainingEdges]
  have hok : ¬ (!s.ready || !s.grantOk gs) = true := by simp [hr, (s.grantOk_iff gs).mpr hg]
  calc exec (.powerGrant gs) s
      = .next (((List.range 18).filter (fun e => ((s.withGrants gs).linkAt (2 * e)).wantWidth.isSome)).foldl
          (fun t e => t.countEdge e 3)
          { s.withGrants gs with links := (s.withGrants gs).links.map (fun e => (e.1, e.2.retrain)) }) := if_neg hok
    _ = .next (s.afterGrant gs) := by
      rw [hedges, State.foldl_countEdge, hlinks, State.afterGrant, State.retrainingCounters]

theorem exec_powerGrant_refused {s : State} {gs : List PowerGrant} (h : ¬ s.GrantBounds gs) :
    exec (.powerGrant gs) s = .next s := by
  have hno : s.grantOk gs = false := Bool.eq_false_iff.mpr (mt (s.grantOk_iff gs).mp h)
  exact if_pos (by simp [hno])

theorem State.afterGrant_dieAt (s : State) (gs : List PowerGrant) (n : Nat) :
    { (s.afterGrant gs).dieAt n with counters := (s.dieAt n).counters } =
      (gs[n]?).elim (s.dieAt n) ((s.dieAt n).takeGrant s n) := by
  rw [← s.withGrants_dieAt gs n, ← s.withGrants_counters gs n]
  exact State.countEach_dieAt { s.withGrants gs with links := s.links.map (fun e => (e.1, e.2.retrain)) } _ n

theorem State.afterGrant_linkAt (s : State) (gs : List PowerGrant) (n : Nat) :
    (s.afterGrant gs).linkAt n = (s.linkAt n).retrain := by
  have hlinks : (s.afterGrant gs).links = s.links.map (fun e => (e.1, e.2.retrain)) :=
    (congrArg State.links (State.countEach_withDies _ _ []) :)
  rw [State.linkAt, hlinks]
  exact tget_map rfl s.links n

theorem State.afterGrant_counter (s : State) (gs : List PowerGrant) (n c : Nat) :
    (s.Trains n c → (tget 0 ((s.afterGrant gs).dieAt n).counters c).toNat =
      min ((tget 0 (s.dieAt n).counters c).toNat + 1) (2 ^ 64 - 1)) ∧
    (¬ s.Trains n c → tget 0 ((s.afterGrant gs).dieAt n).counters c = tget 0 (s.dieAt n).counters c) := by
  have h := State.countEach_counter { s.withGrants gs with links := s.links.map (fun e => (e.1, e.2.retrain)) }
    s.retrainingCounters_nodup n c
  rw [← s.withGrants_counters gs n, ← s.mem_retrainingCounters]
  exact ⟨fun ht => h.trans (if_pos ht), fun ht => BitVec.eq_of_toNat_eq (h.trans (if_neg ht))⟩

theorem State.afterGrant_frame (s : State) (gs : List PowerGrant) :
    { s.afterGrant gs with dies := s.dies, links := s.links } = s := by
  have hcount := State.countEach_withDies { s.withGrants gs with links := s.links.map (fun e => (e.1, e.2.retrain)) }
    s.retrainingCounters s.dies
  exact (congrArg (fun t : State => { t with links := s.links }) hcount).trans
    (congrArg (fun t : State => { t with links := s.links }) (s.withGrants_withDies gs s.dies))

/-! ## Operating points and throttling (R506, R508) -/

theorem exec_thermalThrottle {s : State} (hr : s.ready = true) {die : Nat} (hd : die < 12) (clears : Bool) :
    exec (.thermalThrottle ⟨die, clears⟩) s = .next (s.setDieAt die (if clears then { s.dieAt die with hot := false }
      else { s.dieAt die with point := 0, throttled := true, hot := true })) :=
  if_neg (by simp [hr, hd])

theorem exec_operatingPointChange {s : State} {die : Nat} (hd : die < 12) (ht : (s.dieAt die).throttled = false) :
    exec (.operatingPointChange die) s = .next (s.setDieAt die { s.dieAt die with point := (s.dieAt die).granted }) :=
  if_neg (by simp [ht, hd])

theorem exec_operatingPointChange_throttled {s : State} {die : Nat} (ht : (s.dieAt die).throttled = true) :
    exec (.operatingPointChange die) s = .next s :=
  if_pos (by simp [ht])

/-! ## Widths of links (R507) -/

/-- A link with a width asked for. -/
def State.askWidth (s : State) (width l : Nat) : State := s.setLinkAt l { s.linkAt l with wantWidth := some width }

theorem State.askWidth_linkAt (s : State) (width l k : Nat) :
    (s.askWidth width l).linkAt k = if k = l then { s.linkAt k with wantWidth := some width } else s.linkAt k := by
  unfold State.askWidth
  rw [State.setLinkAt_linkAt]
  split
  · next h => rw [h]
  · rfl

/-- Both directions of an edge. -/
theorem State.askWidth_edge_linkAt (s : State) (width e k : Nat) :
    ((s.askWidth width (e * 2)).askWidth width (e * 2 + 1)).linkAt k =
      if k / 2 = e then { s.linkAt k with wantWidth := some width } else s.linkAt k := by
  rw [State.askWidth_linkAt, State.askWidth_linkAt]
  by_cases h0 : k = e * 2
  · rw [if_neg (by omega), if_pos h0, if_pos (by omega)]
  · by_cases h1 : k = e * 2 + 1
    · rw [if_pos h1, if_neg h0, if_pos (by omega)]
    · rw [if_neg h1, if_neg h0, if_neg (by omega)]

theorem exec_linkWidthRequest_edge {s : State} (hr : s.ready = true) {link width : Nat} (hl : link < 36)
    (hw : width ∈ [4, 2, 1]) :
    exec (.linkWidthRequest link width) s =
      .next ((s.askWidth width (link / 2 * 2)).askWidth width (link / 2 * 2 + 1)) := by
  have hedge : link < 36 ∧ (width = 4 ∨ width = 2 ∨ width = 1) := ⟨hl, by simpa using hw⟩
  exact (if_neg (by simp [hr])).trans (if_pos hedge)

theorem exec_linkWidthRequest_port {s : State} (hr : s.ready = true) {link width : Nat} (h36 : 36 ≤ link) (hl : link < 72)
    (hw : width ∈ [4, 2]) : exec (.linkWidthRequest link width) s = .next (s.askWidth width link) := by
  have hedge : ¬ (link < 36 ∧ (width = 4 ∨ width = 2 ∨ width = 1)) := by omega
  have hport : 36 ≤ link ∧ link < 72 ∧ (width = 4 ∨ width = 2) := ⟨h36, hl, by simpa using hw⟩
  exact ((if_neg (by simp [hr])).trans (if_neg hedge)).trans (if_pos hport)

theorem exec_linkRetrainComplete_served {s : State} {link : Nat} (ht : (s.linkAt link).training = true) :
    exec (.linkRetrainComplete link true) s = .next (s.setLinkAt link { s.linkAt link with training := false }) :=
  (if_neg (by simp [ht])).trans (if_pos rfl)

theorem exec_linkRetrainComplete_edgeDown {s : State} {link : Nat} (ht : (s.linkAt link).training = true) (hl : link < 36) :
    exec (.linkRetrainComplete link false) s = .next (s.edgeDown (link / 2)) :=
  (if_neg (by simp [ht])).trans ((if_neg Bool.false_ne_true).trans (if_pos hl))

theorem exec_linkRetrainComplete_portDown {s : State} {link : Nat} (ht : (s.linkAt link).training = true) (hl : 36 ≤ link) :
    exec (.linkRetrainComplete link false) s =
      .next (s.setLinkAt link { s.linkAt link with training := false, down := true }) :=
  (if_neg (by simp [ht])).trans ((if_neg Bool.false_ne_true).trans (if_neg (by omega)))

theorem exec_linkRetrainComplete_idle {s : State} {link : Nat} (ht : (s.linkAt link).training = false) (ok : Bool) :
    exec (.linkRetrainComplete link ok) s = .next s :=
  if_pos (by simp [ht])

/-! ## Weave commits (R476) -/

theorem exec_wvcommit {s : State} {link : Nat} (hc : (s.linkAt link).commit = true) :
    exec (.wvcommit link) s = .next (s.setLinkAt link
      { s.linkAt link with map := (s.linkAt link).shMap, slots := (s.linkAt link).shSlots, commit := false }) :=
  if_neg (by simp [hc])

theorem exec_wvcommit_none {s : State} {link : Nat} (hc : (s.linkAt link).commit = false) :
    exec (.wvcommit link) s = .next s :=
  if_pos (by simp [hc])

end Sys2Proof.Machine
end

section
/-! SUPPORT. What an agent reads before which every write is ordered: the bytes that memory holds (R146, R174, R175, R180). -/

namespace Sys2Proof.Machine

/-! ## Words looked at where nothing is passed over -/

/-- A look back that passes over no write of the words asked for finds them as they are. -/
theorem lookBack_values {skip : WRec → Bool} {rs : List WRec} {u : List Bits}
    (h : ∀ r ∈ rs, ∀ b ∈ u, (r.at_ b.1).isSome = true → skip r = false) :
    (lookBack skip rs u).1.map (fun b => (b.1, b.2.2)) = u.map (fun b => (b.1, b.2.2)) := by
  induction rs generalizing u with
  | nil => rfl
  | cons r rs ih =>
    have hrest : ∀ r' ∈ rs, ∀ b ∈ u, (r'.at_ b.1).isSome = true → skip r' = false :=
      fun r' hr' => h r' (List.mem_cons_of_mem _ hr')
    unfold lookBack
    split
    · exact ih hrest
    · next htouch =>
      have hskip : skip r = false := by
        simp only [WRec.touches, Bool.not_eq_true', Bool.not_eq_false, List.any_eq_true, bne_iff_ne] at htouch
        obtain ⟨b, hb, hmask⟩ := htouch
        refine h r (List.mem_cons_self ..) b hb ?_
        cases hat : r.at_ b.1 with
        | none => simp [WRec.maskAt, hat] at hmask
        | some c => rfl
      rw [if_neg (by simp [hskip])]
      refine (ih fun r' hr' b hb => ?_).trans (by simp)
      obtain ⟨b', hb', rfl⟩ := List.mem_map.mp hb
      exact hrest r' hr' b' hb'

/-- An agent before which every write is ordered goes back over no write of a word (R156, R175, R180, R181). -/
theorem State.skips_of_settled {s : State} {g : Agent} (h : s.settled g = true) {r : WRec} (hr : r ∈ s.wlog) {l : Nat}
    (hl : (r.at_ l).isSome = true) : s.skips g l r = false := by
  simp only [State.settled, Bool.and_eq_true, List.all_eq_true, Bool.not_eq_true', List.isEmpty_iff] at h
  obtain ⟨⟨hlog, hloose⟩, hcaps⟩ := h
  obtain ⟨hfree, hcells⟩ := hlog r hr
  obtain ⟨c, hc⟩ := Option.isSome_iff_exists.mp hl
  have hloc : c.loc = l := by simpa using List.find?_some hc
  have hconf : s.confused l = false := hloc ▸ hcells c (List.mem_of_find?_eq_some hc)
  simp [State.skips, State.passes, hcaps, hloose, hfree, hconf]

theorem State.lookAt_of_settled {s : State} {g : Agent} (h : s.settled g = true) (w : Nat × Word) :
    (s.lookAt g [w]).1.map (fun b => (b.1, b.2.2)) = [(w.1, s.wordAt w.1)] := by
  unfold State.lookAt
  refine (lookBack_values fun r hr b hb hat => ?_).trans rfl
  obtain rfl : b = (w.1, w.2, s.wordAt w.1) := by simpa using hb
  exact State.skips_of_settled h hr hat

/-- Words that it reads one by one have their present values. -/
theorem State.lookWords_of_settled {s : State} {g : Agent} (h : s.settled g = true) (ws : List (Nat × Word)) :
    ((ws.map (fun w => s.lookAt g [w])).flatMap (·.1)).map (fun b => (b.1, b.2.2)) =
      ws.map (fun w => (w.1, s.wordAt w.1)) := by
  rw [List.map_flatMap, List.flatMap_map]
  simp only [State.lookAt_of_settled h]
  exact List.flatMap_pure_eq_map _ _

/-! ## Bytes among words -/

theorem mem_addBits (ws : List Bits) (b : Bits) (l : Nat) :
    l ∈ (addBits ws b).map (·.1) ↔ l ∈ ws.map (·.1) ∨ l = b.1 := by
  induction ws with
  | nil => simp [addBits]
  | cons x ws ih =>
    unfold addBits
    split
    · next h =>
      simp only [List.map_cons, List.mem_cons, ← h]
      tauto
    · simp only [List.map_cons, List.mem_cons, ih]
      tauto

/-- The words that bytes make up are those of their locations. -/
theorem mem_packBits (es : List (Nat × Nat × Byte × Byte)) (l : Nat) :
    l ∈ (packBits es).map (·.1) ↔ l ∈ es.map (·.1) := by
  have h (ws : List Bits) : l ∈ (es.foldl (fun ws e => addBits ws (byteBits e.1 e.2.1 e.2.2.1 e.2.2.2)) ws).map (·.1) ↔
      l ∈ ws.map (·.1) ∨ l ∈ es.map (·.1) := by
    induction es generalizing ws with
    | nil => simp
    | cons e es ih =>
      rw [List.foldl_cons, ih, mem_addBits, List.map_cons, List.mem_cons, or_assoc]
      rfl
  refine (h []).trans ?_
  simp only [List.map_nil, List.not_mem_nil, false_or]

theorem mem_wordsOf {cells : List (Nat × Nat)} {e : Nat × Nat} (h : e ∈ cells) : ∃ w ∈ wordsOf cells, w.1 = e.1 := by
  have hl : e.1 ∈ (packBits (cells.map (fun e => (e.1, e.2, (0xFF : Byte), (0 : Byte))))).map (·.1) := by
    rw [mem_packBits, List.map_map]
    exact List.mem_map_of_mem h
  obtain ⟨b, hb, he⟩ := List.mem_map.mp hl
  exact ⟨(b.1, b.2.1), List.mem_map_of_mem hb, he⟩

/-- A byte among words read that have these values. -/
theorem byteOf_of_values {all : List Bits} {ws : List (Nat × Word)} {val : Nat → Word}
    (h : all.map (fun b => (b.1, b.2.2)) = ws.map (fun w => (w.1, val w.1))) {e : Nat × Nat} (he : ∃ w ∈ ws, w.1 = e.1) :
    byteOf all e = (val e.1 >>> (8 * e.2)).setWidth 8 := by
  obtain ⟨w, hw, hwe⟩ := he
  have hread : (w.1, val w.1) ∈ all.map (fun b : Bits => (b.1, b.2.2)) :=
    h ▸ List.mem_map_of_mem (f := fun w : Nat × Word => (w.1, val w.1)) hw
  obtain ⟨b, hb, hbw⟩ := List.mem_map.mp hread
  have hbe : b.1 = e.1 := ((Prod.ext_iff.mp hbw).1 :).trans hwe
  obtain ⟨c, hc⟩ := Option.isSome_iff_exists.mp (List.find?_isSome.mpr ⟨b, hb, beq_iff_eq.mpr hbe⟩ :
    (all.find? (fun x => x.1 == e.1)).isSome)
  have hce : c.1 = e.1 := by simpa using List.find?_some hc
  have hcval : (c.1, c.2.2) ∈ ws.map (fun w => (w.1, val w.1)) :=
    h ▸ List.mem_map_of_mem (f := fun b : Bits => (b.1, b.2.2)) (List.mem_of_find?_eq_some hc)
  obtain ⟨v, -, hv⟩ := List.mem_map.mp hcval
  obtain ⟨hv1, hv2⟩ := Prod.ext_iff.mp hv
  have hval : c.2.2 = val e.1 := hv2.symm.trans (congrArg val ((hv1 :).trans hce))
  simp only [byteOf, hc, hval]

/-! ## The bytes of a memory word -/

theorem ofLe_lt (bs : List Byte) : ofLe bs < 256 ^ bs.length := by
  induction bs with
  | nil => decide
  | cons b bs ih =>
    have := b.isLt
    rw [ofLe, List.length_cons, Nat.pow_succ']
    omega

/-- Byte k of a number given by its bytes (R6). -/
theorem ofLe_byte (bs : List Byte) (k : Nat) : ofLe bs / 256 ^ k % 256 = ((bs[k]?).getD 0).toNat := by
  induction bs generalizing k with
  | nil => simp [ofLe]
  | cons b bs ih =>
    have := b.isLt
    cases k with
    | zero =>
      simp only [ofLe, pow_zero, Nat.div_one, List.getElem?_cons_zero, Option.getD_some]
      omega
    | succ k =>
      rw [Nat.pow_succ', ← Nat.div_div_eq_div_mul, List.getElem?_cons_succ, ← ih,
        show ofLe (b :: bs) / 256 = ofLe bs by rw [ofLe]; omega]

theorem rdBytes_getElem? (m : Memory) (a : Nat) {n k : Nat} (h : k < n) : (rdBytes m a n)[k]? = some (rdByte m (a + k)) := by
  induction n generalizing a k with
  | zero => exact absurd h (Nat.not_lt_zero k)
  | succ n ih =>
    cases k with
    | zero => rfl
    | succ k => rw [rdBytes, List.getElem?_cons_succ, ih (a + 1) (by omega), Nat.add_right_comm, Nat.add_assoc]

/-- A byte of memory in the word that holds it. -/
theorem State.wordAt_byte (s : State) (p : Nat) : (s.wordAt (memLoc p) >>> (8 * (p % 4))).setWidth 8 = rdByte s.mem p := by
  have hloc : memLoc p % 4 = 0 := by unfold memLoc; omega
  have hp : p = memLoc p + p % 4 := by unfold memLoc; omega
  have hk : p % 4 < 4 := Nat.mod_lt _ (by decide)
  simp only [State.wordAt, hloc, if_true]
  conv_rhs => rw [hp]
  generalize p % 4 = k at hk
  generalize memLoc p = l
  have hlt : rdNat s.mem l 4 < 2 ^ 32 := by
    simpa [rdNat, rdBytes_length] using ofLe_lt (rdBytes s.mem l 4)
  apply BitVec.eq_of_toNat_eq
  rw [BitVec.toNat_setWidth, BitVec.toNat_ushiftRight, BitVec.toNat_ofNat, Nat.mod_eq_of_lt hlt, Nat.shiftRight_eq_div_pow,
    Nat.pow_mul]
  exact (ofLe_byte _ k).trans (by rw [rdBytes_getElem? _ _ hk, Option.getD_some])

/-- Bytes that it reads one by one are those of the words as they stand. -/
theorem State.look_of_settled {s : State} {g : Agent} (h : s.settled g = true) (cells : List (Nat × Nat)) :
    (s.look g false cells).1 = cells.map (fun e => (s.wordAt e.1 >>> (8 * e.2)).setWidth 8) :=
  List.map_congr_left fun _ he => byteOf_of_values (val := s.wordAt) (State.lookWords_of_settled h _) (mem_wordsOf he)

/-- A fetch finds what memory holds where every write is ordered before it (R146). -/
theorem State.fetched_of_settled {s : State} (h : s.settled s.fetchAgent = true) (pas : List Nat) :
    s.fetched pas = ofLe (s.devBytes pas) := by
  unfold State.fetched State.readPas State.devBytes
  rw [State.look_of_settled h]
  simp only [State.memCells, List.map_map, Function.comp_def, State.wordAt_byte]

end Sys2Proof.Machine
end

section
/-! SUPPORT. How a step issues: choosing an action, what a fetched word comes to in either stream, both streams in one clk, and
the trap of a lane instruction (R22, R215, R265, R422, R528). -/

namespace Sys2Proof.Machine

/-! ## What choosing an action and touching dies leave -/

@[simp] theorem State.passOver_mem (s : State) (a : Action) : (s.passOver a).mem = s.mem := by cases a <;> rfl
@[simp] theorem State.passOver_poison (s : State) (a : Action) : (s.passOver a).poison = s.poison := by cases a <;> rfl

theorem State.touchDies_withCtxs (s : State) (ctx m : Nat) (c : Tab Context) :
    { s.touchDies ctx m with ctxs := c } = { s with ctxs := c } := by
  unfold State.touchDies
  dsimp only
  split <;> rfl

@[simp] theorem State.touchDies_mem (s : State) (ctx m : Nat) : (s.touchDies ctx m).mem = s.mem :=
  (congrArg State.mem (s.touchDies_withCtxs ctx m []) :)
@[simp] theorem State.touchDies_inst (s : State) (ctx m : Nat) : (s.touchDies ctx m).inst = s.inst :=
  (congrArg State.inst (s.touchDies_withCtxs ctx m []) :)
@[simp] theorem State.touchDies_pick (s : State) (ctx m : Nat) : (s.touchDies ctx m).pick = s.pick :=
  (congrArg State.pick (s.touchDies_withCtxs ctx m []) :)
@[simp] theorem State.touchDies_team (s : State) (ctx m : Nat) : (s.touchDies ctx m).team = s.team :=
  (congrArg State.team (s.touchDies_withCtxs ctx m []) :)

theorem State.poisoned_congr {s t : State} (h : t.poison = s.poison) (pas : List Nat) : t.poisoned pas = s.poisoned pas := by
  have hbad : t.badPa = s.badPa := by
    funext a
    simp only [State.badPa, h]
  simp only [State.poisoned, h, hbad]

/-! ## A step by its agenda -/

theorem step_agenda {s : State} {a : Action} {rest : List Action} (hio : s.dev.ioLost = false) (ha : s.agenda = a :: rest) :
    step s = act a (({ s with agenda := rest, fresh := s.fresh + 1 } : State).passOver a) := by
  unfold step
  rw [ha]
  simp [hio]

theorem step_empty {s : State} (hio : s.dev.ioLost = false) (ha : s.agenda = []) :
    step s = ({ s with fresh := s.fresh + 1 } : State).idle := by
  unfold step
  rw [ha]
  simp [hio]

/-- After the loss of the I/O die an action that is a power event alone happens (R31). -/
theorem step_agenda_ioLost {s : State} {a : Action} {rest : List Action} (hio : s.dev.ioLost = true)
    (ha : s.agenda = a :: rest) :
    step s = if powerAction a then act a (({ s with agenda := rest, fresh := s.fresh + 1 } : State).passOver a)
      else .fault .deviceLost := by
  unfold step
  rw [ha]
  cases h : powerAction a <;> simp [hio, h]

theorem step_empty_ioLost {s : State} (hio : s.dev.ioLost = true) (ha : s.agenda = []) : step s = .fault .deviceLost := by
  unfold step
  rw [ha]
  simp [hio]

/-- Every sixteenth step is a fabric clk. -/
theorem State.idle_clk {s : State} (hboot : s.booting = false) (hfresh : s.fresh % 16 = 15) :
    s.idle = exec .cycleCounterIncrement s := by
  rw [State.idle, if_neg (Bool.eq_false_iff.mp hboot), if_pos hfresh]

theorem runReady_go (i : Instr) (s : State) : runReady (.go i s) = exec i s := rfl

/-! ## A pick that may issue can take a trap -/

theorem Pick.frozen_eq_false {p : Pick} (h : p.frozen = false) :
    p.parked = false ∧ p.held = none ∧ ∀ f ∈ p.ls.frags, f.hold = none := by
  simp only [Pick.frozen, Bool.or_eq_false_iff, List.any_eq_false, Bool.not_eq_true, Option.isSome_eq_false_iff,
    Option.isNone_iff_eq_none] at h
  obtain ⟨⟨⟨⟨⟨-, hparked⟩, hheld⟩, -⟩, -⟩, hhold⟩ := h
  exact ⟨hparked, hheld, hhold⟩

theorem State.takesTraps_of_frozen {s : State} (h : s.pick.frozen = false) (hm : s.pick.mode = false) : s.takesTraps := by
  obtain ⟨hparked, hheld, hhold⟩ := Pick.frozen_eq_false h
  exact ⟨hm, hparked, hheld, hhold⟩

theorem State.takesTraps_congr {s t : State} (h : t.pick = s.pick) : t.takesTraps ↔ s.takesTraps := by
  unfold State.takesTraps
  rw [h]

/-! ## Traps of a lane instruction -/

/-- What a trap record keeps of its pick's registers: OB, OWB and TFMTR (R417). -/
def Pick.trapSaved (p : Pick) : BitVec 8 × BitVec 10 × Word := (p.bpred, p.wb, p.fmtr)

theorem Pick.abortRegs_trapSaved (p : Pick) (lane cause code : Nat) (retry : Bool) :
    (p.abortRegs lane cause code retry).trapSaved = p.trapSaved := by
  unfold Pick.abortRegs
  split
  · rfl
  · dsimp only
    split
    · rfl
    · split <;> rfl

theorem Pick.abortFrozen_trapSaved (p : Pick) (txs : List (Nat × Tx)) (lanes : List Nat) :
    (p.abortFrozen txs lanes).trapSaved = p.trapSaved := by
  unfold Pick.abortFrozen
  dsimp only
  split <;> rfl

theorem Pick.setLs_trapSaved (p : Pick) (l : LaneSet) : (p.setLs l).trapSaved = p.trapSaved := by
  simp [Pick.trapSaved]

theorem Pick.abortLane_trapSaved (p : Pick) (lane cause code : Nat) (retry : Bool) :
    (p.abortLane lane cause code retry).trapSaved = p.trapSaved := by
  unfold Pick.abortLane
  split
  · rfl
  · exact (Pick.setLs_trapSaved _ _).trans ((Pick.abortFrozen_trapSaved _ _ _).trans (p.abortRegs_trapSaved _ _ _ _))

theorem Pick.abortLanes_trapSaved (p : Pick) (lanes : List Nat) (cause code : Nat) (retry : Bool) :
    (p.abortLanes lanes cause code retry).trapSaved = p.trapSaved :=
  foldl_keeps Pick.trapSaved (fun p l => p.abortLane_trapSaved l cause code retry) lanes p

/-- The handler is entered with the record of R422 or R423, whatever transactions abort. -/
theorem State.enterTrap_record (s : State) {r : TrapReq} (ha : r.async = false) :
    TookTrap s (s.enterTrap r) r.cause r.tval r.tmask r.src r.tspc := by
  have hkept (lanes : List Nat) (code : Nat) := s.pick.abortLanes_trapSaved lanes 4 code false
  simp only [Pick.trapSaved, Prod.mk.injEq] at hkept
  simp [TookTrap, State.enterTrap, Pick.formRecord, ha, hkept]

/-- A lane instruction traps at once where its pick waits for nothing and can take a trap (R265, R422, R424). -/
theorem State.trapL_tookTrap {s : State} (h : s.takesTraps) (hwait : s.pick.wait = .none) {c : Cause} (hc : c ≠ .dataPoison)
    (tval : BitVec 64) (tmask : Word) :
    ∃ t, s.trapL c tval tmask = .next t ∧ TookTrap s t c tval tmask false s.pick.spc ∧ t.mem = s.mem := by
  obtain ⟨hmode, hparked, hheld, -⟩ := h
  have htake (r : TrapReq) (hs : r.src = false) (hr : r.cause ≠ .dataPoison) : s.takeTrap r = s.enterTrap r := by
    simp [State.takeTrap, State.deliverTrap, hmode, hparked, hheld, hwait, hs, hr]
  refine ⟨_, rfl, ?_⟩
  rw [htake _ rfl hc]
  exact ⟨s.enterTrap_record rfl, rfl⟩

/-! ## The S-stream's word -/

/-- The state in which the S-stream's word stands, fetched from these places, with the dies that the fetch touched. -/
def State.withScalarWord (v : State) (pas : List Nat) (m : Nat) : State :=
  { v with inst := (BitVec.ofNat 32 (v.fetched pas)).setWidth 96 }.touchDies v.team.ctx m

/-- What the S-stream issues in that state by what the word decodes to (R215). -/
def State.readyS (x : State) : Decoded → Ready
  | .ok i => .go i x
  | .illOpcode => .go (.unallocatedEncoding false) x
  | .illOperand => .done (x.trapS .illOperand x.opc6)

theorem State.readyS_ok (x : State) (i : Instr) : x.readyS (.ok i) = .go i x := rfl

/-- An S-stream that is free to issue, v being the state with its pick in focus, issues what it fetches. -/
theorem State.issueScalar_fetched {s v : State} {k : Nat} {pas : List Nat} {m : Nat} (hv : { s with cur := k } = v)
    (hfrozen : v.pick.frozen = false) (hissues : v.team.phase.issues = true) (hsaving : v.team.phase.isSaving = false)
    (hwait : v.pick.wait = .none) (hfetch : v.fetch v.ctx.sbase v.pick.spc 4 = .ok (pas, m))
    (hpoison : v.poisoned pas = false)
    (hbreak : v.pick.mode = true ∨ v.pick.bkExempt = true ∨
      matchBreak (v.ctx.bkctl.toNat / 16) v.ctx.bks 2 v.pick.spc = none) :
    s.issueScalar k = (v.withScalarWord pas m).readyS (decodeScalar (BitVec.ofNat 32 (v.fetched pas))) := by
  have hmatch : (if v.pick.mode || v.pick.bkExempt then none
      else matchBreak (v.ctx.bkctl.toNat / 16) v.ctx.bks 2 v.pick.spc) = none := by
    rcases hbreak with h | h | h <;> simp [h]
  have hgo : (v.pick.frozen || !v.team.phase.issues || v.team.phase.isSaving || v.pick.wait != .none) = false := by
    simp [hfrozen, hissues, hsaving, hwait]
  unfold State.issueScalar
  simp only [hv, hgo, hfetch, hmatch, hpoison, Bool.false_eq_true, if_false]
  subst hv
  cases decodeScalar (BitVec.ofNat 32 (State.fetched _ pas)) <;> rfl

theorem decodeScalar_of_words {w : Word} {i : Instr} (h : decodeWords [w] = some i) : decodeScalar w = .ok i := by
  simp only [decodeWords, decodeTableWord, BitVec.ofNat_toNat, BitVec.setWidth_eq] at h
  revert h
  cases decodeScalar w <;> simp

theorem opc6_of_word (w : Word) :
    ((w.setWidth 96 : BitVec 96).extractLsb' 26 6).setWidth 64 = BitVec.ofNat 64 (w.toNat / 2 ^ 26) := by
  apply BitVec.eq_of_toNat_eq
  have := w.isLt
  simp only [BitVec.toNat_setWidth, BitVec.extractLsb'_toNat, BitVec.toNat_ofNat, Nat.shiftRight_eq_div_pow]
  omega

/-- A word of which an operand check fails traps with its OPC6 (R215, R421). -/
theorem State.withScalarWord_traps {v : State} {pas : List Nat} {m : Nat} (hv : v.takesTraps) :
    ∃ t, (v.withScalarWord pas m).trapS .illOperand (v.withScalarWord pas m).opc6 = .next t ∧ t.mem = v.mem ∧
      TookTrap (v.withScalarWord pas m) t .illOperand
        (BitVec.ofNat 64 ((BitVec.ofNat 32 (v.fetched pas)).toNat / 2 ^ 26)) 0 true v.pick.spc := by
  have hpick : (v.withScalarWord pas m).pick = v.pick := State.touchDies_pick _ _ _
  have hopc : (v.withScalarWord pas m).opc6 = BitVec.ofNat 64 ((BitVec.ofNat 32 (v.fetched pas)).toNat / 2 ^ 26) := by
    simp only [State.opc6, State.withScalarWord, State.touchDies_inst]
    exact opc6_of_word _
  obtain ⟨t, ht, htook, hmem, -⟩ := State.trapS_tookTrap ((State.takesTraps_congr hpick).mpr hv) .illOperand
    (v.withScalarWord pas m).opc6
  rw [hpick, hopc] at htook
  exact ⟨t, ht, hmem.trans (State.touchDies_mem _ _ _), htook⟩

/-! ## A fragment's word -/

/-- The strands of a fragment at the bound of the lane distance (R68). -/
def Pick.farStrands (p : Pick) (f : Fragment) : List Nat :=
  f.members.filter (fun n => decide (4096 ≤ (p.ls.strand n).dist))

/-- The state in which a lane word stands, fetched from these places, with the dies that the fetch touched. -/
def State.withLaneWord (x : State) (pas : List Nat) (m : Nat) : State :=
  { x with inst := BitVec.ofNat 96 (x.fetched pas) }.touchDies x.team.ctx m

/-- What fragment f issues by what its word decodes to (R68, R215): x the state before the word is in place, y the one after. -/
def State.readyL (x y : State) (f : Fragment) : Decoded → Ready
  | .ok i =>
    if x.chk 3 && !x.pick.mode && !isSafept i && !x.stopsEarly i && !(x.pick.farStrands f).isEmpty then
      .done (y.trapL .safeptDist (BitVec.ofNat 64 (maskOf (x.pick.farStrands f))) (x.pick.ls.lanesOf (x.pick.farStrands f)))
    else .go i y
  | .illOpcode => .go (.unallocatedEncoding true) y
  | .illOperand => .done (y.trapL .illOperand y.opc 0)

/-- A fragment that is free to issue issues what it fetches: v is the state with it in focus, x the one with the lane clk moved
on and the status words paid. -/
theorem State.issueLane_fetched {s v x : State} {k f : Nat} {pas : List Nat} {m : Nat} (hv : { s with cur := k, frag := f } = v)
    (hfrozen : v.pick.frozen = false) (hissues : v.team.phase.issues = true) (hrun : v.pick.running = true)
    (hwait : v.fragment.waitAt = none) (hlive : v.pick.ls.fragLive v.fragment = true)
    (hsafe : v.team.phase.isSaving = false ∨ v.pick.mode = true ∨ v.pick.ls.fragSafe v.fragment = false)
    (hpay : (v.setPick (v.pick.advanceTo v.pick.nextLane)).payOwed = .ok x)
    (hfetch : x.fetch x.ctx.lbase ((x.pick.ls.fragPc v.fragment).getD 0) 12 = .ok (pas, m))
    (hpoison : x.poisoned pas = false)
    (hbreak : x.pick.mode = true ∨ v.fragment.exempt = true ∨
      matchBreak x.ctx.bkctl.toNat x.ctx.bkl 4 ((x.pick.ls.fragPc v.fragment).getD 0) = none) :
    s.issueLane k f = x.readyL (x.withLaneWord pas m) v.fragment (decodeLane (BitVec.ofNat 96 (x.fetched pas))) := by
  have hmatch : (if x.pick.mode || v.fragment.exempt then none
      else matchBreak x.ctx.bkctl.toNat x.ctx.bkl 4 ((x.pick.ls.fragPc v.fragment).getD 0)) = none := by
    rcases hbreak with h | h | h
    · simp [h]
    · simp [h]
    · rw [h, ite_self]
  have hgo : (v.pick.frozen || !v.team.phase.issues || !v.pick.running || v.fragment.waitAt.isSome ||
      !v.pick.ls.fragLive v.fragment || (v.team.phase.isSaving && !v.pick.mode && v.pick.ls.fragSafe v.fragment)) = false := by
    rcases hsafe with h | h | h <;> simp [hfrozen, hissues, hrun, hwait, hlive, h]
  unfold State.issueLane
  simp only [hv, hgo, hpay, hfetch, hmatch, hpoison, Bool.false_eq_true, if_false]
  cases decodeLane (BitVec.ofNat 96 (x.fetched pas)) <;> rfl

/-- An instruction that the lane distance does not stop is the one that issues. -/
theorem State.readyL_go {x y : State} {f : Fragment} {i : Instr} (hy : y.team = x.team)
    (h : x.chk 3 = false ∨ x.pick.mode = true ∨ isSafept i = true ∨ y.stopsEarly i = true ∨
      ∀ n ∈ f.members, (x.pick.ls.strand n).dist < 4096) : x.readyL y f (.ok i) = .go i y := by
  have hstop : y.stopsEarly i = x.stopsEarly i := by
    unfold State.stopsEarly
    rw [hy]
  refine if_neg ?_
  rcases h with h | h | h | h | h
  · simp [h]
  · simp [h]
  · simp [h]
  · simp [← hstop, h]
  · have hfar : x.pick.farStrands f = [] := List.filter_eq_nil_iff.mpr fun n hn => by simpa using h n hn
    simp [hfar]

theorem decodeLane_of_word {w : BitVec 96} {i : Instr} (h : decodeTableWord 96 w.toNat = some i) : decodeLane w = .ok i := by
  simp only [decodeTableWord, if_true, BitVec.ofNat_toNat, BitVec.setWidth_eq] at h
  revert h
  cases decodeLane w <;> simp

theorem opc_of_word (w : BitVec 96) : (w.extractLsb' 86 10).setWidth 64 = BitVec.ofNat 64 (w.toNat / 2 ^ 86) := by
  apply BitVec.eq_of_toNat_eq
  have := w.isLt
  simp only [BitVec.toNat_setWidth, BitVec.extractLsb'_toNat, BitVec.toNat_ofNat, Nat.shiftRight_eq_div_pow]
  omega

/-- A lane word of which an operand check fails traps with its OPC (R215, R421). -/
theorem State.withLaneWord_traps {x : State} {pas : List Nat} {m : Nat} (hx : x.takesTraps) (hw : x.pick.wait = .none) :
    ∃ t, (x.withLaneWord pas m).trapL .illOperand (x.withLaneWord pas m).opc 0 = .next t ∧ t.mem = x.mem ∧
      TookTrap (x.withLaneWord pas m) t .illOperand
        (BitVec.ofNat 64 ((BitVec.ofNat 96 (x.fetched pas)).toNat / 2 ^ 86)) 0 false x.pick.spc := by
  have hpick : (x.withLaneWord pas m).pick = x.pick := State.touchDies_pick _ _ _
  have hopc : (x.withLaneWord pas m).opc = BitVec.ofNat 64 ((BitVec.ofNat 96 (x.fetched pas)).toNat / 2 ^ 86) := by
    simp only [State.opc, State.withLaneWord, State.touchDies_inst]
    exact opc_of_word _
  obtain ⟨t, ht, htook, hmem⟩ := State.trapL_tookTrap ((State.takesTraps_congr hpick).mpr hx) (by rw [hpick]; exact hw)
    (c := .illOperand) (by decide) (x.withLaneWord pas m).opc 0
  rw [hpick, hopc] at htook
  exact ⟨t, ht, hmem.trans (State.touchDies_mem _ _ _), htook⟩

/-! ## Status words paid to their registers (R324) -/

/-- The pick with names and status words not yet paid of another. -/
def Pick.withNames (p : Pick) (names : Tab Name) (owed : List (Nat × Nat × Word)) : Pick := { p with names, owed }

theorem Pick.allocName_withNames (p : Pick) (n : Nat) (a : Tab Name) (o : List (Nat × Nat × Word)) :
    (p.allocName n).withNames a o = p.withNames a o := by
  unfold Pick.allocName
  split <;> rfl

/-- Paying status words changes lane registers alone. -/
theorem Pick.paid_withNames (p : Pick) (a : Tab Name) (o : List (Nat × Nat × Word)) :
    p.paid.withNames a o = p.withNames a o := by
  unfold Pick.paid
  refine (foldl_keeps (fun q : Pick => q.withNames a o) (fun q e => ?_) _ _).trans rfl
  exact q.allocName_withNames _ a o

theorem State.payOwed_ok {s x : State} (h : s.payOwed = .ok x) : x = s.setPick s.pick.paid := by
  unfold State.payOwed at h
  dsimp only at h
  split at h
  · exact absurd h (by simp)
  · exact (Except.ok.inj h).symm

theorem Pick.advanceTo_onlyResults (p : Pick) (t : Nat) : p.OnlyResults (p.advanceTo t) := by
  unfold Pick.advanceTo
  split
  · rfl
  · exact (Pick.foldl_finish_onlyResults _ p).trans rfl

/-- The lane clk moved on and the status words paid: what decides whether the pick takes a trap is as before. -/
theorem Pick.paid_advanceTo_same (p : Pick) (t : Nat) :
    (p.advanceTo t).paid.parked = p.parked ∧ (p.advanceTo t).paid.held = p.held ∧ (p.advanceTo t).paid.ls = p.ls := by
  have hpaid := (p.advanceTo t).paid_withNames [] []
  have hadv : p.withResultsOf (p.advanceTo t) = p := p.advanceTo_onlyResults t
  have hmode : (p.advanceTo t).paid.mode = p.mode := (congrArg Pick.mode hpaid :).trans (congrArg Pick.mode hadv :)
  have hlanes : (p.advanceTo t).paid.lanes = p.lanes := (congrArg Pick.lanes hpaid :).trans (congrArg Pick.lanes hadv :)
  have hhlanes : (p.advanceTo t).paid.hlanes = p.hlanes :=
    (congrArg Pick.hlanes hpaid :).trans (congrArg Pick.hlanes hadv :)
  refine ⟨(congrArg Pick.parked hpaid :).trans (congrArg Pick.parked hadv :),
    (congrArg Pick.held hpaid :).trans (congrArg Pick.held hadv :), ?_⟩
  rw [Pick.ls, hmode, hlanes, hhlanes, Pick.ls]

/-! ## Two streams in one clk -/

/-- Both streams of a pick issue and neither stops: both effects stand (R528). -/
theorem State.both_joined {v a t b x : State} {k f : Nat} {i j : Instr}
    (hlane : (v.setPickAt k { v.pickAt k with fmask := 0 }).issueLane k f = .go i a) (hi : exec i a = .next t)
    (hit : v.stopped t k = false)
    (hscalar : State.issueScalar { t.setPickAt k { t.pickAt k with fmask := (v.pickAt k).fmask, seed := (v.pickAt k).seed }
      with fresh := t.fresh + 1 } k = .go j b)
    (hj : exec j b = .next x) (hjx : v.stopped x k = false) :
    v.both k f = .next (x.setPickAt k ((v.pickAt k).joined (t.pickAt k) (x.pickAt k) (Ready.go j b).writesSeed)) := by
  unfold State.both
  simp only [hlane, runReady_go, hi, hit, hscalar, hj, hjx, Bool.false_and, Bool.false_eq_true, if_false]

/-- A fragment issues, and with it a second one that may (R22). -/
theorem State.pairOf_first {v a t : State} {k f k2 f2 : Nat} {i : Instr} (hlane : v.issueLane k f = .go i a)
    (hi : exec i a = .next t) : v.pairOf k f k2 f2 =
      if v.pairs k f k2 f2 then runReady (({ t with fresh := t.fresh + 1 } : State).issueLane k2 f2) else .next t := by
  unfold State.pairOf
  simp only [hlane, runReady_go, hi]

end Sys2Proof.Machine
end

section
/-! SUPPORT. The statements on failures, on power and links, and on a step. -/

namespace Sys2Proof.Machine

/-- A device whose die 0 holds one team of context 0, with an aborted transaction in its pick that no counter shows yet. -/
def abortedOnDie0 : State := { State.reset with
  dev := { powered := true, phase := 6 }
  ctxs := [(0, { live := true, tdmask := 1 })]
  teams := [(1, { phase := .running, picks := [64] })]
  picks := [(64, { live := true, team := 1, aborts := 1 })] }

/-- The team stops with its die, and the aborted transaction goes into the die's counter (R483). -/
theorem abortedOnDie0_loseDie_counter : tget 0 ((abortedOnDie0.loseDie 0).dieAt 0).counters 0x00B = 1 := by decide

/-- Refutes O52: a lost die is to differ in `lost` and `st` alone where its teams end with ENDED_DIE, but the aborted transactions
of their picks, counted nowhere before, go into its counters as the picks are dropped. -/
theorem not_failures : ¬ Obligations.Failures := by
  unfold Obligations.Failures
  intro h
  obtain ⟨-, -, -, -, hloss, -⟩ := h abortedOnDie0 0
  obtain ⟨-, hctx⟩ := hloss rfl (by decide) rfl
  obtain ⟨-, htouched⟩ := hctx 0 _ rfl rfl rfl rfl
  obtain ⟨t, ht, ⟨hdie, -⟩, -⟩ := htouched rfl (by decide) (by decide)
  have hexec : exec (.dieLoss 0) abortedOnDie0 = .next (abortedOnDie0.loseDie 0) := rfl
  have hnext : abortedOnDie0.loseDie 0 = t := Host.Outcome.next.inj (hexec.symm.trans ht)
  have hcounter := abortedOnDie0_loseDie_counter
  rw [hnext, hdie] at hcounter
  exact absurd hcounter (by decide)

/-- Settles O53: each event by the one record that it sets; a grant by what it makes of each die, each link and each counter. -/
theorem powerAndLinks : Obligations.PowerAndLinks := by
  unfold Obligations.PowerAndLinks
  intro s
  refine ⟨fun die hdie => ⟨fun hr clears => ⟨_, exec_thermalThrottle hr hdie clears, s.setDieAt_dieIs _ _⟩,
      fun ht => ⟨_, exec_operatingPointChange hdie ht, s.setDieAt_dieIs _ _⟩, exec_operatingPointChange_throttled⟩,
    fun hr => ⟨fun gs => ⟨exec_powerGrant_refused, fun hg => ?grant⟩,
      fun link width hl hw => ⟨_, exec_linkWidthRequest_edge hr hl hw, rfl, s.askWidth_edge_linkAt width (link / 2)⟩,
      fun link width h36 hl hw => ⟨_, exec_linkWidthRequest_port hr h36 hl hw, s.setLinkAt_linkIs _ _⟩⟩,
    fun link => ⟨fun ht => ⟨⟨_, exec_linkRetrainComplete_served ht, s.setLinkAt_linkIs _ _⟩,
        fun hl => ⟨_, exec_linkRetrainComplete_portDown ht hl, s.setLinkAt_linkIs _ _⟩,
        fun hl => ⟨_, exec_linkRetrainComplete_edgeDown ht hl, ?down⟩⟩,
      exec_linkRetrainComplete_idle, fun hc => ⟨_, exec_wvcommit hc, s.setLinkAt_linkIs _ _⟩, exec_wvcommit_none⟩⟩
  case grant =>
    refine ⟨_, exec_powerGrant hr hg, fun n => ?_, s.afterGrant_linkAt gs, s.afterGrant_counter gs, s.afterGrant_frame gs⟩
    rw [s.afterGrant_dieAt gs n]
    cases gs[n]? <;> rfl
  case down =>
    rw [Nat.mul_comm]
    exact s.edgeDown_down (link / 2)

/-- Settles O57: a fetch by the words as they stand, a step by its agenda, and each action by what its streams issue. -/
theorem stepRunsDecoded : Obligations.StepRunsDecoded := by
  unfold Obligations.StepRunsDecoded
  intro s rest u
  refine ⟨fun pas h => State.fetched_of_settled h pas, fun hio => ⟨?scalar, ?lane, ?both, ?pair, ?event, ?clk⟩,
    fun hio => ⟨?stops, ?power, step_empty_ioLost hio⟩⟩
  case scalar =>
    intro k pas m ha v p w x hfrozen hissues hsaving hwait hfetch hpoison hbreak
    have hvmem : v.mem = s.mem := State.passOver_mem _ _
    have hvpoison : v.poison = s.poison := State.passOver_poison _ _
    have hstep : step s = runReady (x.readyS (decodeScalar w)) :=
      (step_agenda hio ha).trans (congrArg runReady
        (State.issueScalar_fetched rfl hfrozen hissues hsaving hwait hfetch
          ((State.poisoned_congr hvpoison pas).trans hpoison) hbreak))
    refine ⟨fun i hi => ?_, fun hd => ?_, fun hd hm => ?_⟩
    · rw [hstep, decodeScalar_of_words hi, State.readyS_ok, runReady_go]
    · rw [hstep, hd]
      rfl
    · obtain ⟨t, ht, hmem, htook⟩ :=
        State.withScalarWord_traps (pas := pas) (m := m) (State.takesTraps_of_frozen hfrozen hm)
      rw [hstep, hd]
      exact ⟨t, ht, hmem.trans hvmem, htook⟩
  case lane =>
    intro k f x pas m ha v p lpc w y hfrozen hissues hrun hwait hlive hsafe hpay hfetch hpoison hbreak
    have hx := State.payOwed_ok hpay
    rw [State.setPick_pick] at hx
    have hxmem : x.mem = s.mem := (congrArg State.mem hx :).trans (State.passOver_mem _ _)
    have hxpoison : x.poison = s.poison := (congrArg State.poison hx :).trans (State.passOver_poison _ _)
    have hissue : (({ s with agenda := rest, fresh := s.fresh + 1 } : State).passOver (.lane k f)).issueLane k f =
        x.readyL y v.fragment (decodeLane w) :=
      State.issueLane_fetched (v := v) rfl hfrozen hissues hrun hwait hlive hsafe hpay hfetch
        ((State.poisoned_congr hxpoison pas).trans hpoison) hbreak
    have hstep : step s = runReady (x.readyL y v.fragment (decodeLane w)) :=
      (step_agenda hio ha).trans (congrArg runReady hissue)
    refine ⟨fun i hi hdist => ?_, fun hd => ?_, fun hd hm hw => ?_⟩
    · rw [hstep, decodeLane_of_word hi, State.readyL_go (x := x) (y := y) (State.touchDies_team _ _ _) hdist, runReady_go]
    · rw [hstep, hd]
      rfl
    · have hpick : x.pick = (v.pick.advanceTo v.pick.nextLane).paid := by rw [hx, State.setPick_pick]
      obtain ⟨hparked, hheld, hls⟩ := hpick ▸ v.pick.paid_advanceTo_same v.pick.nextLane
      obtain ⟨hvparked, hvheld, hvhold⟩ := Pick.frozen_eq_false hfrozen
      have htakes : x.takesTraps := ⟨hm, hparked.trans hvparked, hheld.trans hvheld, by rw [hls]; exact hvhold⟩
      obtain ⟨t, ht, hmem, htook⟩ := State.withLaneWord_traps (pas := pas) (m := m) htakes hw
      rw [hstep, hd]
      exact ⟨t, ht, hmem.trans hxmem, htook⟩
  case both =>
    intro k f i j a b t x ha v p hlane hi hit hscalar hj hjx
    refine ⟨_, (step_agenda hio ha).trans (State.both_joined hlane hi hit hscalar hj hjx), rfl, fun n hn => ?_, ?_, ?_⟩
    · rw [State.setPickAt_pickAt, if_neg hn]
    · rw [State.setPickAt_pickAt_self]
      rfl
    · rw [State.setPickAt_pickAt_self]
      rfl
  case pair =>
    intro k f k2 f2 i a t ha v hlane hi
    have hstep := (step_agenda hio ha).trans (State.pairOf_first (k2 := k2) (f2 := f2) hlane hi)
    exact ⟨fun hp => hstep.trans (if_neg (Bool.eq_false_iff.mp hp)),
      fun j b hp hj => hstep.trans ((if_pos hp).trans (congrArg runReady hj))⟩
  case event => exact fun i k ha => step_agenda hio ha
  case clk =>
    intro ha hboot hfresh
    exact (step_empty hio ha).trans (State.idle_clk (s := { s with fresh := s.fresh + 1 }) hboot (by dsimp only; omega))
  case stops =>
    intro a ha hp
    rw [step_agenda_ioLost hio ha, hp]
    rfl
  case power => rintro i k ha (rfl | rfl) <;> exact step_agenda_ioLost hio ha

end Sys2Proof.Machine
end

section
/-! SUPPORT. LGO and LWAIT: queueing a lane block, and covering the blocks that ended (R47, R48, R51, R250, R251). -/

namespace Sys2Proof.Machine

/-! ## A block joins the batches open on LD and ST -/

/-- A path whose open batch waits for one block more (R165). -/
def PathState.joined (x : PathState) : PathState := { x with opened := { x.opened with blocks := x.opened.blocks + 1 } }

/-- The pick whose LD and ST batches then open wait for one block more. -/
def Pick.joinBlock (p : Pick) : Pick :=
  let q := p.setPath 0 (p.path 0).joined
  q.setPath 1 (q.path 1).joined

theorem Pick.setPath_path (p : Pick) (k : Nat) (x : PathState) (n : Nat) :
    (p.setPath k x).path n = if n = k then x else p.path n := tget_tput ({} : PathState) p.paths n k x

theorem Pick.joinBlock_path (p : Pick) (n : Nat) :
    p.joinBlock.path n = if n = 0 ∨ n = 1 then (p.path n).joined else p.path n := by
  simp only [Pick.joinBlock, Pick.setPath_path]
  rcases n with _ | _ | n <;> simp

theorem Pick.joinBlock_eq (p : Pick) : ∃ ps, p.joinBlock = { p with paths := ps } := ⟨_, rfl⟩

theorem Pick.setBlocks_eq (p : Pick) (q : List Block) :
    ∃ qs hs, p.setBlocks q = { p with queue := qs, hqueue := hs } := by
  unfold Pick.setBlocks
  split
  · exact ⟨p.queue, q, rfl⟩
  · exact ⟨q, p.hqueue, rfl⟩

/-- The queue of the other mode stays. -/
theorem Pick.setBlocks_other (p : Pick) (q : List Block) :
    if p.mode then (p.setBlocks q).queue = p.queue else (p.setBlocks q).hqueue = p.hqueue := by
  unfold Pick.setBlocks
  split <;> simp

/-! ## LGO -/

/-- The block that an LGO queues (R47, R165, R250). -/
def State.blockOf (s : State) (cb : BitVec 6) (tgt : BitVec 20) : Block where
  target := BitVec.ofNat 32 (12 * tgt.toNat)
  capBase := s.pick.abs cb
  k := (List.range 16).foldl (fun f i => tput 0 f i (s.readS (cb + BitVec.ofNat 6 i))) []
  fmtr := s.pick.fmtr
  batches := (List.range 8).map (fun n => (s.pick.path n).opened.num)
  xseq := s.pick.xseq
  knows := s.knownIds s.scalarAgent
  atW0 := cb == 0

/-- A table filled entry by entry. -/
theorem tget_fill (f : Nat → Word) (n : Nat) (t : Tab Word) (i : Nat) :
    tget 0 ((List.range n).foldl (fun t i => tput 0 t i (f i)) t) i = if i < n then f i else tget 0 t i := by
  induction n with
  | zero => simp
  | succ n ih =>
    rw [List.range_succ, List.foldl_append, List.foldl_cons, List.foldl_nil, tget_tput, ih]
    grind

section
variable {s : State} {cb : BitVec 6} {tgt : BitVec 20} (hr : s.regsReady (captured cb) [] = true)
include hr

/-- The k-frame of the block holds the captured registers. -/
theorem blockOf_k {i : Nat} (hi : i < 16) : tget 0 (s.blockOf cb tgt).k i = s.pick.w (cb + BitVec.ofNat 6 i) := by
  have hm : cb + BitVec.ofNat 6 i ∈ captured cb ++ [] := by
    rw [List.append_nil, captured]
    exact List.mem_map_of_mem (List.mem_range.mpr hi)
  rw [State.blockOf, tget_fill, if_pos hi, State.readS_ready hr hm]

variable (hcb : cb.toNat ≤ 48)
include hcb

theorem exec_lgo_ready : exec (.lgo cb tgt) s = if 4 ≤ s.pick.blocks.length ∨ s.pick.drains 0 = true then .next s
    else .next (s.setPick (s.pick.joinBlock.setBlocks (s.pick.blocks ++ [s.blockOf cb tgt]))).advance := by
  have he : exec (.lgo cb tgt) s = execLgo cb tgt s := rfl
  rw [he, execLgo, if_neg (by omega), State.withOperands_ready hr]
  rfl

theorem lgo_stalls (h : 4 ≤ s.pick.blocks.length ∨ s.pick.drains 0 = true) : exec (.lgo cb tgt) s = .next s := by
  rw [exec_lgo_ready hr hcb, if_pos h]

theorem lgo_queues (hn : s.pick.blocks.length < 4) (hd : s.pick.drains 0 = false) :
    Completes (.lgo cb tgt) s fun t =>
      PickStep s t (fun p q => { q with queue := p.queue, hqueue := p.hqueue, paths := p.paths }) ∧
      t.pick.blocks = s.pick.blocks ++ [s.blockOf cb tgt] ∧
      (if s.pick.mode then t.pick.queue = s.pick.queue else t.pick.hqueue = s.pick.hqueue) ∧
      ∀ n, t.pick.path n = if n = 0 ∨ n = 1 then (s.pick.path n).joined else s.pick.path n := by
  have hpaths := s.pick.joinBlock_path
  obtain ⟨ps, hps⟩ := s.pick.joinBlock_eq
  refine ⟨_, (exec_lgo_ready hr hcb).trans (if_neg (by simp [hd]; omega)), ?_⟩
  rw [hps] at hpaths ⊢
  have hother := Pick.setBlocks_other { s.pick with paths := ps } (s.pick.blocks ++ [s.blockOf cb tgt])
  have hblocks := Pick.setBlocks_blocks { s.pick with paths := ps } (s.pick.blocks ++ [s.blockOf cb tgt])
  obtain ⟨qs, hs, heq⟩ := Pick.setBlocks_eq { s.pick with paths := ps } (s.pick.blocks ++ [s.blockOf cb tgt])
  rw [heq] at hother hblocks ⊢
  refine ⟨State.setPick_advance_pickStep rfl rfl rfl, ?_⟩
  rw [State.setPick_advance_pick]
  exact ⟨hblocks, hother, hpaths⟩

end

/-! ## LWAIT -/

theorem State.learn_eq (s : State) (key : Nat) (ids : List Nat) :
    ∃ l, s.learn key ids = { s with wlog := l } ∧ SameLog s { s with wlog := l } := by
  unfold State.learn
  split
  · exact ⟨s.wlog, rfl, rfl⟩
  · refine ⟨_, rfl, ?_⟩
    simp only [SameLog, List.map_map]
    refine List.map_congr_left fun r _ => ?_
    simp only [Function.comp]
    split <;> rfl

/-- The pick with no block that waits to be covered in its mode (R51). -/
def Pick.covered (p : Pick) : Pick := if p.mode then { p with huncovered := [] } else { p with uncovered := [] }

theorem State.coverBlocks_eq (s : State) :
    ∃ l, s.coverBlocks = ({ s with wlog := l } : State).setPick s.pick.covered ∧ SameLog s { s with wlog := l } := by
  obtain ⟨l, hl, hsame⟩ := s.learn_eq (scalarKey s.cur)
    ((if s.pick.mode then s.pick.huncovered else s.pick.uncovered).flatMap (·.ids))
  exact ⟨l, by rw [State.coverBlocks, hl]; rfl, hsame⟩

theorem exec_lwait_traps {s : State} {n : BitVec 20} (h : 3 < n.toNat) :
    exec (.lwait n) s = s.trapS .illOperand s.opc6 := if_pos h

theorem exec_lwait_stalls {s : State} {n : BitVec 20} (h : n.toNat ≤ 3) (hn : n.toNat < s.pick.blocks.length) :
    exec (.lwait n) s = .next s := (if_neg (by omega)).trans (if_pos hn)

theorem exec_lwait_covers {s : State} {n : BitVec 20} (h : n.toNat ≤ 3) (hn : s.pick.blocks.length ≤ n.toNat) :
    exec (.lwait n) s = .next s.coverBlocks.advance := (if_neg (by omega)).trans (if_neg (by omega))

theorem lwait_covers {s : State} {n : BitVec 20} (h : n.toNat ≤ 3) (hn : s.pick.blocks.length ≤ n.toNat) :
    Completes (.lwait n) s fun t =>
      PickStepSync s t (fun p q => { q with uncovered := p.uncovered, huncovered := p.huncovered }) ∧
      if s.pick.mode then t.pick.huncovered = [] ∧ t.pick.uncovered = s.pick.uncovered
      else t.pick.uncovered = [] ∧ t.pick.huncovered = s.pick.huncovered := by
  obtain ⟨l, hl, hsame⟩ := s.coverBlocks_eq
  refine ⟨_, exec_lwait_covers h hn, ?_⟩
  have hc : s.pick.covered.team = s.pick.team ∧ s.pick.covered.spc = s.pick.spc := by
    unfold Pick.covered
    split <;> exact ⟨rfl, rfl⟩
  obtain ⟨honly, hcount, hspc, hpick⟩ := State.setPick_advance_pickStep (s := { s with wlog := l }) (q := s.pick.covered)
    (f := fun p q => { q with uncovered := p.uncovered, huncovered := p.huncovered }) hc.1 hc.2
    (by unfold Pick.covered; split <;> rfl)
  rw [← hl] at honly hcount hspc hpick
  obtain ⟨heq, hpicks⟩ := honly
  refine ⟨⟨?_, hpicks, ?_, hcount, hspc, hpick⟩, ?_⟩
  · exact congrArg (fun u : State => { u with wlog := s.wlog, fadds := s.fadds }) heq
  · rw [SameLog, show s.coverBlocks.advance.wlog = l by rw [hl]; rfl]
    exact hsame
  · rw [hl, State.setPick_advance_pick, Pick.covered]
    split <;> simp [Pick.goneOn]

/-! ## The statement -/

/-- Settles O7: LGO by the block that it queues, LWAIT by what covering the ended blocks leaves. -/
theorem laneBlockCalls : Obligations.LaneBlockCalls := by
  intro s
  refine ⟨fun cb tgt hcb hr => ⟨lgo_stalls hr hcb, fun hn hd => ?_⟩,
    fun cb tgt hcb _ => TrapsS.of_exec fun _ => if_pos hcb, fun n => ⟨?_, exec_lwait_stalls, lwait_covers⟩⟩
  · obtain ⟨t, he, hstep, hblocks, hother, hpaths⟩ := lgo_queues (tgt := tgt) hr hcb hn hd
    refine ⟨t, he, hstep, ⟨_, hblocks, ?_, rfl, rfl, rfl, rfl, fun i hi => blockOf_k hr hi⟩, hother, hpaths⟩
    simp only [State.blockOf, BitVec.toNat_ofNat]
    omega
  · exact fun hn _ => TrapsS.of_exec fun _ => exec_lwait_traps hn

end Sys2Proof.Machine
end

section
/-! SUPPORT. SEXIT: paths that close and retire, pending causes, and the end of a pick (R45, R168, R261). -/

namespace Sys2Proof.Machine

/-! ## Batches that retire -/

/-- A path whose oldest closed batch retires (R166, R168). -/
def PathState.retireOne (x : PathState) (b : Batch) : PathState :=
  { x with retired := b.num, causes := x.causes ++ (b.cause.map (fun c => (b.num, c.1, c.2))).toList }

theorem PathState.retireFrom_cons (b : Batch) (bs : List Batch) (x : PathState) : PathState.retireFrom (b :: bs) x =
    if b.ops = 0 ∧ b.blocks = 0 then PathState.retireFrom bs (x.retireOne b) else { x with closed := b :: bs } := by
  rw [PathState.retireFrom, PathState.retireOne]
  cases b.cause <;> rfl

theorem PathState.retireFrom_opened (bs : List Batch) (x : PathState) : (PathState.retireFrom bs x).opened = x.opened := by
  induction bs generalizing x with
  | nil => rfl
  | cons b bs ih =>
    rw [PathState.retireFrom_cons]
    split
    · exact ih _
    · rfl

theorem PathState.retireFrom_retires (bs : List Batch) (x : PathState) : Retires x (PathState.retireFrom bs x) bs := by
  induction bs generalizing x with
  | nil => exact ⟨[], [], rfl, by simp, by simp, rfl, by simp [PathState.retireFrom], rfl⟩
  | cons b bs ih =>
    rw [PathState.retireFrom_cons]
    split
    · next hb =>
      obtain ⟨l1, l2, hl, hc, hh, h1, h2, h3⟩ := ih (x.retireOne b)
      refine ⟨b :: l1, l2, by rw [hl]; rfl, List.forall_mem_cons.mpr ⟨hb, hc⟩, hh, h1, ?_, ?_⟩
      · rw [h2, List.filterMap_cons, PathState.retireOne]
        cases b.cause <;> simp
      · rw [h3, List.getLast?_cons, PathState.retireOne]
        cases l1.getLast? <;> rfl
    · next hb => exact ⟨[], b :: bs, rfl, by simp, fun c hc => by cases hc; exact hb, rfl, by simp, rfl⟩

/-- Only the causes and the newest retired batch before count. -/
theorem Retires.of_eq {x x' y : PathState} {bs : List Batch} (h : Retires x y bs) (hc : x.causes = x'.causes)
    (hr : x.retired = x'.retired) : Retires x' y bs := by
  obtain ⟨l1, l2, hl, h1, h2, h3, h4, h5⟩ := h
  exact ⟨l1, l2, hl, h1, h2, h3, hc ▸ h4, hr ▸ h5⟩

/-- A batch that is not complete keeps a path from emptying. -/
theorem Retires.closed_ne_nil {x y : PathState} {bs : List Batch} (h : Retires x y bs) {b : Batch} (hb : b ∈ bs)
    (hc : ¬ b.complete) : y.closed ≠ [] := by
  obtain ⟨l1, l2, rfl, h1, -, h3, -, -⟩ := h
  rw [h3]
  rcases List.mem_append.mp hb with hb | hb
  · exact absurd (h1 b hb) hc
  · exact List.ne_nil_of_mem hb

/-- Where every batch is complete and none failed, all retire and nothing becomes pending. -/
theorem Retires.all {x y : PathState} {bs : List Batch} (h : Retires x y bs) (hc : ∀ b ∈ bs, b.complete ∧ b.cause = none) :
    y.closed = [] ∧ y.causes = x.causes := by
  obtain ⟨l1, l2, rfl, -, h2, h3, h4, -⟩ := h
  have hl2 : l2 = [] := by
    cases l2 with
    | nil => rfl
    | cons b l2 => exact absurd (hc b (by simp)).1 (h2 b rfl)
  refine ⟨h3.trans hl2, ?_⟩
  have : l1.filterMap (fun b => b.cause.map (fun c => (b.num, c.1, c.2))) = [] :=
    List.filterMap_eq_nil_iff.mpr fun b hb => by simp [(hc b (by simp [hb])).2]
  rw [h4, this, List.append_nil]

/-! ## Closing every path -/

/-- A path whose open batch has closed, what can retire retired (R165, R252). -/
def PathState.pclosed (x : PathState) : PathState :=
  ({ x with closed := x.closed ++ [x.opened], opened := { num := x.opened.num + 1 } } : PathState).settle

theorem PathState.pclosed_retires (x : PathState) :
    x.pclosed.opened = { num := x.opened.num + 1 } ∧ Retires x x.pclosed (x.closed ++ [x.opened]) :=
  ⟨PathState.retireFrom_opened _ _, (PathState.retireFrom_retires _ _).of_eq rfl rfl⟩

/-- Paths changed one after the other: nothing but the paths of a pick differs. -/
theorem Pick.foldl_setPath_eq {α : Type} (n : α → Nat) (f : Pick → α → PathState) (l : List α) (p : Pick) :
    ∃ ps, l.foldl (fun p a => p.setPath (n a) (f p a)) p = { p with paths := ps } := by
  have h := foldl_keeps (fun q : Pick => { q with paths := p.paths }) (f := fun p a => p.setPath (n a) (f p a))
    (fun _ _ => rfl) l p
  exact ⟨(l.foldl (fun p a => p.setPath (n a) (f p a)) p).paths, (congrArg
    (fun q : Pick => { q with paths := (l.foldl (fun (p : Pick) a => p.setPath (n a) (f p a)) p).paths }) h :)⟩

theorem Pick.foldl_setPath_path (f : PathState → PathState) {ns : List Nat} (hn : ns.Nodup) (p : Pick) (k : Nat) :
    (ns.foldl (fun p n => p.setPath n (f (p.path n))) p).path k = if k ∈ ns then f (p.path k) else p.path k := by
  induction ns generalizing p with
  | nil => simp
  | cons n ns ih =>
    obtain ⟨hk, hn'⟩ := List.nodup_cons.mp hn
    rw [List.foldl_cons, ih hn', Pick.setPath_path]
    by_cases e : k = n
    · subst e; simp [hk]
    · simp [e]

theorem Pick.closeAll_eq (p : Pick) : ∃ ps, p.closeAll = { p with paths := ps } ∧
    ∀ n, tget {} ps n = if n < 8 then (p.path n).pclosed else p.path n := by
  have hp (n : Nat) : p.closeAll.path n = if n < 8 then (p.path n).pclosed else p.path n :=
    (Pick.foldl_setPath_path PathState.pclosed List.nodup_range p n).trans (by simp)
  obtain ⟨ps, hps⟩ : ∃ ps, p.closeAll = { p with paths := ps } :=
    Pick.foldl_setPath_eq id (fun p n => (p.path n).pclosed) (List.range 8) p
  rw [hps] at hp
  exact ⟨ps, hps, hp⟩

/-- Some path's counter stands at 63 (R168). -/
def Pick.full (p : Pick) : Prop := ∃ n < 8, 63 ≤ (p.path n).counter

theorem Pick.closeOnce_closing {p : Pick} (h : p.closing = true) : p.closeOnce = some p := if_pos h

theorem Pick.closeOnce_full {p : Pick} (h : p.closing = false) (hf : p.full) : p.closeOnce = none := by
  obtain ⟨n, hn, hc⟩ := hf
  have hany : (List.range 8).any (fun n => decide (63 ≤ (p.path n).counter)) = true := by
    simp only [List.any_eq_true, List.mem_range, decide_eq_true_eq]
    exact ⟨n, hn, hc⟩
  simp [Pick.closeOnce, h, hany]

theorem Pick.closeOnce_closes {p : Pick} (h : p.closing = false) (hf : ¬ p.full) :
    p.closeOnce = some { p.closeAll with closing := true } ∧ Closes p { p.closeAll with closing := true } := by
  have hany : (List.range 8).any (fun n => decide (63 ≤ (p.path n).counter)) = false := by
    simp only [List.any_eq_false, List.mem_range, decide_eq_true_eq]
    exact fun n hn hc => hf ⟨n, hn, hc⟩
  refine ⟨by simp [Pick.closeOnce, h, hany], ?_⟩
  obtain ⟨ps, hps, hpath⟩ := p.closeAll_eq
  rw [hps]
  refine ⟨rfl, rfl, fun n hn => ?_⟩
  have hp : ({ p with paths := ps, closing := true } : Pick).path n = (p.path n).pclosed := (hpath n).trans (if_pos hn)
  rw [hp]
  exact (p.path n).pclosed_retires

/-! ## Paths with nothing outstanding -/

theorem Pick.pathsDone_iff (p : Pick) : p.pathsDone = true ↔ ∀ n < 8,
    (p.path n).opened.complete ∧ (p.path n).opened.cause = none ∧ (p.path n).closed = [] := by
  simp [Pick.pathsDone, Batch.complete, and_assoc]

/-- Closing paths with nothing outstanding empties them and leaves their causes. -/
theorem Pick.closeOnce_done {p : Pick} (h : p.pathsDone = true) : ∃ q, p.closeOnce = some q ∧
    (∃ ps c, q = { p with paths := ps, closing := c }) ∧ (∀ n < 8, (q.path n).closed = []) ∧
    ∀ n, (q.path n).causes = (p.path n).causes := by
  rw [Pick.pathsDone_iff] at h
  cases hc : p.closing with
  | true => exact ⟨p, Pick.closeOnce_closing hc, ⟨p.paths, p.closing, rfl⟩, fun n hn => (h n hn).2.2, fun _ => rfl⟩
  | false =>
    have hf : ¬ p.full := by
      rintro ⟨n, hn, hc⟩
      rw [PathState.counter, (h n hn).2.2] at hc
      exact absurd hc (by decide)
    have hall : ∀ n < 8, (p.path n).pclosed.closed = [] ∧ (p.path n).pclosed.causes = (p.path n).causes := fun n hn => by
      obtain ⟨ho, hcause, hcl⟩ := h n hn
      refine (p.path n).pclosed_retires.2.all ?_
      rw [hcl]
      simpa using ⟨ho, hcause⟩
    obtain ⟨ps, hps, hpath⟩ := p.closeAll_eq
    refine ⟨{ p with paths := ps, closing := true }, by rw [(Pick.closeOnce_closes hc hf).1, hps], ⟨ps, true, rfl⟩,
      fun n hn => ?_, fun n => ?_⟩
    · exact (congrArg PathState.closed ((hpath n).trans (if_pos hn))).trans (hall n hn).1
    · refine (congrArg PathState.causes (hpath n)).trans ?_
      split
      · next hn => exact (hall n hn).2
      · rfl

/-- A delivered result leaves paths and the clk. -/
theorem Pick.deliver_paths (p : Pick) (r : Pending) : (p.deliver r).paths = p.paths ∧ (p.deliver r).clk = p.clk := by
  have hb (bs : List Block) : (p.setBlocks bs).paths = p.paths ∧ (p.setBlocks bs).clk = p.clk := by
    unfold Pick.setBlocks; split <;> exact ⟨rfl, rfl⟩
  unfold Pick.deliver
  split
  · dsimp only
    split <;> exact ⟨rfl, rfl⟩
  · split <;> exact ⟨rfl, rfl⟩
  · split
    · exact ⟨rfl, rfl⟩
    · unfold Pick.onBlock
      split
      · exact hb _
      · exact ⟨rfl, rfl⟩
  · exact ⟨rfl, rfl⟩

theorem Pick.deliver_path (p : Pick) (r : Pending) (n : Nat) : (p.deliver r).path n = p.path n := by
  rw [Pick.path, (p.deliver_paths r).1]; rfl

/-- A finished operation is one fewer in its batch, which keeps its cause. -/
theorem Pick.opLeave_path (p : Pick) (k num n : Nat) : (p.opLeave k num none).path n =
    if n = k then ((p.path n).onBatch num (fun b => { b with ops := b.ops - 1 })).settle else p.path n := by
  have hf : (fun b : Batch => { b with ops := b.ops - 1, cause := b.cause <|> none }) = fun b => { b with ops := b.ops - 1 } := by
    funext b
    cases hc : b.cause <;> simp [← hc]
  rw [Pick.opLeave, hf, Pick.setPath_path]
  split
  · next e => rw [e]
  · rfl

/-- Results that are delivered leave the causes of paths with no closed batch. -/
theorem Pick.finish_causes {p : Pick} (h : ∀ n < 2, (p.path n).closed = []) (q : Pending) :
    (∀ n < 2, ((p.finish q).path n).closed = []) ∧ ∀ n, ((p.finish q).path n).causes = (p.path n).causes := by
  unfold Pick.finish
  split
  · next hv =>
    have hl (n : Nat) : (Pick.opLeave (p.deliver q) q.path q.batch none).path n = if n = q.path then
        ((p.path n).onBatch q.batch (fun b => { b with ops := b.ops - 1 })).settle else p.path n := by
      rw [Pick.opLeave_path, Pick.deliver_path]
    have hs : ∀ (x : PathState) k (f : Batch → Batch), x.closed = [] → (x.onBatch k f).settle.closed = [] ∧
        (x.onBatch k f).settle.causes = x.causes := fun x k f hx => by
      unfold PathState.onBatch PathState.settle
      split <;> simp [hx, PathState.retireFrom]
    have hp2 := h q.path hv.2
    refine ⟨fun n hn => ?_, fun n => ?_⟩
    · refine (congrArg PathState.closed (hl n)).trans ?_
      split
      · next e => exact (hs _ _ _ (h n hn)).1
      · exact h n hn
    · refine (congrArg PathState.causes (hl n)).trans ?_
      split
      · next e => exact (hs _ _ _ (e ▸ hp2)).2
      · rfl
  · exact ⟨fun n hn => (congrArg PathState.closed (p.deliver_path q n)).trans (h n hn), fun n => congrArg PathState.causes (p.deliver_path q n)⟩

theorem Pick.foldl_finish_causes (qs : List Pending) {p : Pick} (h : ∀ n < 2, (p.path n).closed = []) (n : Nat) :
    ((qs.foldl Pick.finish p).path n).causes = (p.path n).causes := by
  induction qs generalizing p with
  | nil => rfl
  | cons q qs ih =>
    obtain ⟨h1, h2⟩ := Pick.finish_causes h q
    exact (ih h1).trans (h2 n)

theorem Pick.drain_causes {p : Pick} (h : ∀ n < 2, (p.path n).closed = []) (n : Nat) :
    (p.drain.path n).causes = (p.path n).causes := Pick.foldl_finish_causes _ h n

/-! ## Pending causes -/

theorem State.trapCause_none {s : State} {n : Nat} (h : (s.pick.path n).causes = []) : s.trapCause n = none := by
  simp [State.trapCause, h]

theorem findSome?_range_first {β : Type} {f : Nat → Option β} {n k : Nat} {b : β} (hk : n < k) (hn : f n = some b)
    (h : ∀ m < n, f m = none) : (List.range k).findSome? f = some b := by
  induction k with
  | zero => omega
  | succ k ih =>
    rw [List.range_succ, List.findSome?_append]
    by_cases e : n = k
    · subst e
      have : (List.range n).findSome? f = none := List.findSome?_eq_none_iff.mpr (by simpa using h)
      simp [this, hn]
    · rw [ih (by omega)]; rfl

theorem State.trapLowest_none {s : State} (h : ∀ n < 8, (s.pick.path n).causes = []) : s.trapLowest = none :=
  List.findSome?_eq_none_iff.mpr fun n hn => State.trapCause_none (h n (List.mem_range.mp hn))

/-- The pick without the oldest pending cause of a path. -/
def Pick.dropCause (p : Pick) (n : Nat) : Pick := p.setPath n { p.path n with causes := (p.path n).causes.tail }

theorem State.trapLowest_first {s : State} {n k : Nat} {c : Cause} {v : BitVec 64} {cs : List (Nat × Cause × BitVec 64)}
    (hn : n < 8) (h : (s.pick.path n).causes = (k, c, v) :: cs) (hl : ∀ m < n, (s.pick.path m).causes = []) :
    s.trapLowest = some ((s.setPick (s.pick.dropCause n)).trapS c v) :=
  findSome?_range_first hn (by simp [State.trapCause, Pick.dropCause, h]) fun m hm => State.trapCause_none (hl m hm)

/-! ## The paths of a pick drained before it ends -/

theorem State.drainPaths_waits {s : State} {q : Pick} (h : s.pick.closeOnce = some q)
    (hc : ∃ n < 8, (q.path n).closed ≠ []) (k : State → Out) : s.drainPaths k = .next (s.setPick q) := by
  have hany : (List.range 8).any (fun n => (q.path n).counter != 0) = true := by
    obtain ⟨n, hn, hc⟩ := hc
    simp only [List.any_eq_true, List.mem_range]
    exact ⟨n, hn, by simpa [PathState.counter] using hc⟩
  simp [State.drainPaths, h, hany]

theorem State.drainPaths_ended {s : State} {q : Pick} (h : s.pick.closeOnce = some q)
    (hc : ∀ n < 8, (q.path n).closed = []) (k : State → Out) :
    s.drainPaths k = ((s.setPick q).trapLowest).getD (k (s.setPick q)) := by
  have hany : (List.range 8).any (fun n => (q.path n).counter != 0) = false := by
    simp only [List.any_eq_false, List.mem_range]
    exact fun n hn => by simp [PathState.counter, hc n hn]
  simp only [State.drainPaths, h, hany, Bool.false_eq_true, if_false]
  cases (s.setPick q).trapLowest <;> rfl

/-! ## The end of a pick -/

theorem State.dropRemoved_withSlots (s : State) (die loom n : Nat) (sl : Tab Slot) :
    { s.dropRemoved die loom n with slots := sl } = { s with slots := sl } := by
  unfold State.dropRemoved
  dsimp only
  split
  · rfl
  · split <;> rfl

/-- A team that releases references: nothing but it and the slots of looms differs. -/
theorem State.releaseRefs_eq (s : State) (t : Nat) (keep : BitVec 8) : ∃ sl,
    s.releaseRefs t keep = { s.setTeamAt t { s.teamAt t with refs := (s.teamAt t).refs &&& keep } with slots := sl } := by
  have h := foldl_keeps (fun u : State => { u with slots := s.slots })
    (f := fun u n => u.dropRemoved (s.teamAt t).die (s.teamAt t).loom n) (fun u n => u.dropRemoved_withSlots _ _ _ _)
    (ones ((s.teamAt t).refs &&& ~~~keep).toNat 8) (s.setTeamAt t { s.teamAt t with refs := (s.teamAt t).refs &&& keep })
  exact ⟨(s.releaseRefs t keep).slots, (congrArg (fun u : State => { u with slots := (s.releaseRefs t keep).slots }) h :)⟩

/-- A running team whose last pick ended, in a context that no pre-emption empties, waits to publish (R45). -/
theorem State.teamEnds_running {s : State} {t : Nat} (hp : (s.teamAt t).phase = .running)
    (hst : (s.ctxAt (s.teamAt t).ctx).st ≠ 1) :
    { s.teamEnds t with teams := s.teams, slots := s.slots } = s ∧ (∀ k, k ≠ t → (s.teamEnds t).teamAt k = s.teamAt k) ∧
    ((s.teamEnds t).teamAt t).picks = (s.teamAt t).picks ∧ ((s.teamEnds t).teamAt t).flanes = (s.teamAt t).flanes ∧
    ((s.teamEnds t).teamAt t).phase = .done (if (s.teamAt t).fpicks = 0 then 1 else 2) := by
  obtain ⟨sl, hsl⟩ := s.releaseRefs_eq t 0
  have he : s.teamEnds t = (s.releaseRefs t 0).setTeamAt t { (s.releaseRefs t 0).teamAt t with
      phase := .done (if (s.teamAt t).fpicks = 0 then 1 else 2), inflight := [], tiles := [], scratch := [],
      endOrd := s.fresh } := by
    unfold State.teamEnds
    simp only [hp]
    rw [if_neg]
    rw [hsl]
    exact hst
  have hm : (s.releaseRefs t 0).teamAt t = { s.teamAt t with refs := (s.teamAt t).refs &&& 0 } := by
    rw [hsl]
    exact State.setTeamAt_teamAt_self s t _
  rw [he, hm, State.setTeamAt_teamAt_self]
  refine ⟨by rw [hsl]; simp only [State.setTeamAt], fun k hk => ?_, rfl, rfl, rfl⟩
  rw [State.setTeamAt_teamAt, if_neg hk, hsl]
  exact (State.setTeamAt_teamAt s t _ k).trans (if_neg hk)

/-- The aborts of a pick counted: nothing but counters of dies and its own count differs. -/
theorem State.countAborts_eq (s : State) (key : Nat) :
    ∃ d ps, s.countAborts key = { s with dies := d, picks := ps } ∧ ∀ k, k ≠ key → tget {} ps k = s.pickAt k := by
  unfold State.countAborts
  dsimp only
  split
  · exact ⟨s.dies, s.picks, rfl, fun _ _ => rfl⟩
  · exact ⟨_, _, rfl, fun k hk => tget_tput_ne ({} : Pick) s.picks _ hk⟩

/-- A team that pick key leaves, which stood as p (R45, R71). -/
def Team.left (m : Team) (key : Nat) (p : Pick) : Team :=
  { m.addFmask p.fmask with
    picks := m.picks.filter (· != key)
    goneMask := m.goneMask ||| BitVec.ofNat 64 (2 ^ p.index)
    by_ := m.by_ + p.moved }

theorem Team.left_summary (m : Team) (key : Nat) (p : Pick) :
    (m.left key p).flanes = m.flanes ||| p.fmask.setWidth 32 ||| p.fmask.extractLsb' 32 32 ∧
    ((m.left key p).fpicks = 0 ↔ m.fpicks = 0 ∧ p.fmask = 0) ∧ (m.left key p).phase = m.phase ∧ (m.left key p).ctx = m.ctx := by
  unfold Team.left Team.addFmask
  split
  · next h => simp [h]
  · next h => exact ⟨rfl, by simpa using fun _ => h, rfl, rfl⟩

/-- The state in which a pick is gone and its team has not yet ended. -/
def State.withoutPick (s : State) (key : Nat) : State :=
  ((s.countAborts key).setTeamAt (s.pickAt key).team ((s.teamAt (s.pickAt key).team).left key (s.pickAt key))).setPickAt key {}

theorem State.pickEnds_eq (s : State) (key : Nat) : s.pickEnds key =
    if ((s.teamAt (s.pickAt key).team).left key (s.pickAt key)).picks.isEmpty then
      (s.withoutPick key).teamEnds (s.pickAt key).team
    else s.withoutPick key := rfl

theorem State.withoutPick_teamAt (s : State) (key k : Nat) : (s.withoutPick key).teamAt k =
    if k = (s.pickAt key).team then (s.teamAt (s.pickAt key).team).left key (s.pickAt key) else s.teamAt k := by
  obtain ⟨d, ps, hc, -⟩ := s.countAborts_eq key
  rw [State.withoutPick, State.setPickAt_teamAt, State.setTeamAt_teamAt, hc]
  rfl

theorem State.withoutPick_pickAt (s : State) (key k : Nat) :
    (s.withoutPick key).pickAt k = if k = key then {} else s.pickAt k := by
  obtain ⟨d, ps, hc, hps⟩ := s.countAborts_eq key
  rw [State.withoutPick, State.setPickAt_pickAt, hc]
  split
  · rfl
  · next hk => exact hps k hk

theorem State.withoutPick_mem (s : State) (key : Nat) : (s.withoutPick key).mem = s.mem ∧ (s.withoutPick key).ctxs = s.ctxs := by
  obtain ⟨d, ps, hc, -⟩ := s.countAborts_eq key
  rw [State.withoutPick, hc]
  exact ⟨rfl, rfl⟩

/-- What the end of pick key of a running team leaves (R45, R71). -/
def PickGone (s t : State) (key : Nat) : Prop :=
  let p := s.pickAt key
  let m := s.teamAt p.team
  let left := m.picks.filter (· != key)
  t.pickAt key = {} ∧ (∀ k, k ≠ key → t.pickAt k = s.pickAt k) ∧ t.mem = s.mem ∧
  (t.teamAt p.team).picks = left ∧
  (t.teamAt p.team).phase = (if left ≠ [] then .running else if m.fpicks = 0 ∧ p.fmask = 0 then .done 1 else .done 2) ∧
  (t.teamAt p.team).flanes = m.flanes ||| p.fmask.setWidth 32 ||| p.fmask.extractLsb' 32 32 ∧
  ∀ k, k ≠ p.team → t.teamAt k = s.teamAt k

theorem State.pickEnds_gone {s : State} {key : Nat} (hp : (s.teamAt (s.pickAt key).team).phase = .running)
    (hst : (s.ctxAt (s.teamAt (s.pickAt key).team).ctx).st ≠ 1) : PickGone s (s.pickEnds key) key := by
  obtain ⟨hflanes, hfpicks, hphase, hctx⟩ := (s.teamAt (s.pickAt key).team).left_summary key (s.pickAt key)
  have hpicks : ((s.teamAt (s.pickAt key).team).left key (s.pickAt key)).picks =
      (s.teamAt (s.pickAt key).team).picks.filter (· != key) := rfl
  have hteam := s.withoutPick_teamAt key
  have hpick := s.withoutPick_pickAt key
  obtain ⟨hmem, hctxs⟩ := s.withoutPick_mem key
  rw [State.pickEnds_eq]
  unfold PickGone
  dsimp only
  generalize (s.teamAt (s.pickAt key).team).left key (s.pickAt key) = m1 at *
  generalize s.withoutPick key = u at *
  have hself : u.teamAt (s.pickAt key).team = m1 := (hteam _).trans (if_pos rfl)
  have hkey : u.pickAt key = {} := (hpick _).trans (if_pos rfl)
  split
  · next hnil =>
    obtain ⟨heq, hteams, h1, h2, h3⟩ := State.teamEnds_running (s := u) (t := (s.pickAt key).team)
      (by rw [hself, hphase, hp]) (by rw [hself, hctx, State.ctxAt, hctxs]; exact hst)
    have hpks : (u.teamEnds (s.pickAt key).team).picks = u.picks := (congrArg State.picks heq :)
    have hpk (k : Nat) : (u.teamEnds (s.pickAt key).team).pickAt k = u.pickAt k := by
      rw [State.pickAt, hpks, State.pickAt]
    refine ⟨(hpk _).trans hkey, fun k hk => (hpk k).trans ((hpick k).trans (if_neg hk)),
      (congrArg State.mem heq :).trans hmem, by rw [h1, hself, hpicks], ?_, by rw [h2, hself, hflanes],
      fun k hk => (hteams k hk).trans ((hteam k).trans (if_neg hk))⟩
    have hleft : ¬ m1.picks ≠ [] := by simpa using hnil
    rw [h3, hself, ← hpicks, if_neg hleft, apply_ite TeamPhase.done]
    simp only [hfpicks]
  · next hnil =>
    refine ⟨hkey, fun k hk => (hpick k).trans (if_neg hk), hmem, by rw [hself, hpicks], ?_, by rw [hself, hflanes],
      fun k hk => (hteam k).trans (if_neg hk)⟩
    rw [hself, hphase, ← hpicks, if_pos (by simpa using hnil), hp]

/-! ## SEXIT -/

/-- The pick that ends: in trap mode without its frozen block and those behind it, which leave their batches (R45). -/
def Pick.unfrozen (p : Pick) : Pick :=
  if p.mode then { p.queue.foldl Pick.blockLeave p with queue := [], lanes := {} } else p

/-- A lane block leaves the batch of this number of a path. -/
def Pick.leaveBatch (p : Pick) (e : Nat × Nat) : Pick :=
  p.setPath e.2 ((p.path e.2).onBatch e.1 (fun x => { x with blocks := x.blocks - 1 })).settle

theorem Pick.blockLeave_withPaths (p : Pick) (b : Block) (ps : Tab PathState) :
    { p.blockLeave b with paths := ps } = { p with paths := ps } :=
  foldl_keeps (fun q : Pick => { q with paths := ps }) (f := Pick.leaveBatch) (fun _ _ => rfl) _ p

theorem Pick.unfrozen_eq (p : Pick) : ∃ ps qs ls, p.unfrozen = { p with paths := ps, queue := qs, lanes := ls } := by
  unfold Pick.unfrozen
  split
  · have h := foldl_keeps (fun q : Pick => { q with paths := p.paths }) (fun q b => q.blockLeave_withPaths b _) p.queue p
    exact ⟨(p.queue.foldl Pick.blockLeave p).paths, [], {}, (congrArg (fun q : Pick => { q with
      paths := (p.queue.foldl Pick.blockLeave p).paths, queue := [], lanes := {} }) h :)⟩
  · exact ⟨p.paths, p.queue, p.lanes, rfl⟩

theorem Pick.unfrozen_normal {p : Pick} (h : p.mode = false) : p.unfrozen = p := by simp [Pick.unfrozen, h]

theorem exec_sexit_blocks {s : State} (h : s.pick.blocks ≠ []) : exec .sexit s =
    if s.pick.mode then .next s else (s.pick.closeOnce).elim (.next s) (fun p => .next (s.setPick p)) := by
  have he : exec .sexit s = execSexit s := rfl
  have hb : s.pick.blocks.isEmpty = false := by simpa using h
  rw [he, execSexit, hb]
  simp only [Bool.not_false, if_true]
  split
  · rfl
  · cases s.pick.closeOnce <;> rfl

theorem exec_sexit_free {s : State} (h : s.pick.blocks = []) : exec .sexit s =
    (s.setPick s.pick.unfrozen).drainPaths fun s1 => .next ((s1.count s.team.die 0x001 1).pickEnds s.cur) := by
  have he : exec .sexit s = execSexit s := rfl
  rw [he, execSexit, h]
  rfl

theorem State.setPick_moves (s : State) (p : Pick) : PickMoves s (s.setPick p) :=
  ⟨rfl, fun _ hk => State.setPick_pickAt_ne s p hk⟩

/-- The pick in execution replaced twice: the second stands. -/
theorem State.setPick_setPick_moves (s : State) (p q : Pick) :
    PickMoves s ((s.setPick p).setPick q) ∧ ((s.setPick p).setPick q).pick = q :=
  ⟨⟨by simp only [State.setPick, State.setPickAt], fun _ hk => (State.setPick_pickAt_ne (s.setPick p) q hk).trans (State.setPick_pickAt_ne s p hk)⟩,
    State.setPick_pick _ _⟩

/-- A trap's record depends on the context and on what it saves of the pick alone. -/
theorem TookTrap.of_saved {s s' t : State} {c : Cause} {v : BitVec 64} {m : Word} {src : Bool} {pc : Word}
    (h : TookTrap s' t c v m src pc) (hctx : s'.ctx = s.ctx) (hp : s'.pick.trapSaved = s.pick.trapSaved) :
    TookTrap s t c v m src pc := by
  simp only [Pick.trapSaved, Prod.mk.injEq] at hp
  obtain ⟨hb, hw, hf⟩ := hp
  simpa only [TookTrap, hctx, hb, hw, hf] using h

/-- The handler of an S-stream trap finds the paths as the results on their way leave them (R422). -/
theorem State.enterTrap_path (s : State) {r : TrapReq} (hf : r.frag = 0) (n : Nat) :
    (s.enterTrap r).pick.path n = s.pick.drain.path n := by
  have hl : strandLanes r.frag = [] := by rw [hf]; decide
  simp only [State.enterTrap, hl, List.filter_nil, Pick.abortLanes, List.foldl_nil, State.count_pick, State.setPick_pick]
  rfl

/-- A trap of the S-stream leaves the causes of paths on which nothing is outstanding. -/
theorem State.trapS_causes {s : State} (ht : s.takesTraps) (hcl : ∀ n < 2, (s.pick.path n).closed = []) (c : Cause)
    (v : BitVec 64) : ∃ t, s.trapS c v = .next t ∧ TookTrap s t c v 0 true s.pick.spc ∧ t.mem = s.mem ∧
      ∀ n, (t.pick.path n).causes = (s.pick.path n).causes := by
  obtain ⟨t, he, htook, hmem, -⟩ := State.trapS_tookTrap ht c v
  refine ⟨t, he, htook, hmem, fun n => ?_⟩
  rw [State.trapS, ht.takeTrap_eq rfl] at he
  rw [← Host.Outcome.next.inj he, State.enterTrap_path _ rfl]
  split <;> exact Pick.drain_causes hcl n

theorem Pick.dropCause_eq (p : Pick) (n : Nat) : p.dropCause n = { p with paths := (p.dropCause n).paths } := rfl

theorem Pick.dropCause_path (p : Pick) (n m : Nat) : (p.dropCause n).path m =
    if m = n then { p.path n with causes := (p.path n).causes.tail } else p.path m := Pick.setPath_path _ _ _ _

/-- SEXIT with nothing outstanding traps with the oldest cause of the lowest path that has one (R168). -/
theorem sexit_traps {s : State} {n k : Nat} {c : Cause} {v : BitVec 64} {cs : List (Nat × Cause × BitVec 64)}
    (hb : s.pick.blocks = []) (hd : s.pick.pathsDone = true) (hn : n < 8) (hcs : (s.pick.path n).causes = (k, c, v) :: cs)
    (hl : ∀ m < n, (s.pick.path m).causes = []) (ht : s.takesTraps) : Completes .sexit s fun t =>
      TookTrap s t c v 0 true s.pick.spc ∧ (t.pick.path n).causes = cs ∧ t.mem = s.mem ∧
      ∀ m, m ≠ n → (t.pick.path m).causes = (s.pick.path m).causes := by
  obtain ⟨hmode, hparked, hheld, hhold⟩ := ht
  obtain ⟨q, hclose, ⟨ps, b, hq⟩, hcl, hcauses⟩ := Pick.closeOnce_done hd
  have hpath (m : Nat) := q.dropCause_path n m
  generalize hr : q.dropCause n = r at hpath
  have hr2 : r = { s.pick with paths := r.paths, closing := b } := by rw [← hr, Pick.dropCause_eq, hq]
  -- the state in which the cause is taken off
  generalize hw : ((s.setPick s.pick).setPick q).setPick r = w
  have hpick : w.pick = r := by rw [← hw, State.setPick_pick]
  have hctx : w.ctx = s.ctx := by
    rw [State.ctx, State.team, hpick, show r.team = s.pick.team from (congrArg Pick.team hr2 :), ← hw]
    simp only [State.setPick_teamAt, State.setPick_ctxAt, State.ctx, State.team]
  have hexec : exec .sexit s = w.trapS c v := by
    rw [exec_sexit_free hb, Pick.unfrozen_normal hmode,
      State.drainPaths_ended (q := q) (by rw [State.setPick_pick]; exact hclose) hcl,
      State.trapLowest_first hn (by rw [State.setPick_pick, hcauses]; exact hcs)
        (by rw [State.setPick_pick]; exact fun m hm => (hcauses m).trans (hl m hm)), State.setPick_pick, hr, hw,
      Option.getD_some]
  have hclosed (m : Nat) (hm : m < 2) : (w.pick.path m).closed = [] := by
    rw [hpick, hpath]
    split
    · exact hcl n hn
    · exact hcl m (by omega)
  have htakes : w.takesTraps := by
    unfold State.takesTraps
    rw [hpick, hr2]
    exact ⟨hmode, hparked, hheld, hhold⟩
  obtain ⟨t, he, htook, hmem, hc⟩ := State.trapS_causes htakes hclosed c v
  refine ⟨t, hexec.trans he, ?_, ?_, hmem.trans (by rw [← hw]; simp only [State.setPick_mem]), fun m hm => ?_⟩
  · have := htook.of_saved hctx (by rw [hpick]; exact (congrArg Pick.trapSaved hr2 :))
    rwa [hpick, show r.spc = s.pick.spc from (congrArg Pick.spc hr2 :)] at this
  · rw [hc, hpick, hpath, if_pos rfl, hcauses, hcs]
    rfl
  · rw [hc, hpick, hpath, if_neg hm, hcauses]

/-- SEXIT with nothing outstanding and no pending cause ends the pick. -/
theorem sexit_ends {s : State} (hb : s.pick.blocks = []) (hi : s.pick.unfrozen.pathsIdle = true)
    (hp : s.team.phase = .running) (hst : s.ctx.st ≠ 1) : Completes .sexit s fun t => PickGone s t s.cur := by
  obtain ⟨hd, hcs⟩ := Bool.and_eq_true_iff.mp hi
  obtain ⟨q, hclose, ⟨ps, b, hq⟩, hcl, hcauses⟩ := Pick.closeOnce_done hd
  obtain ⟨ps', qs, ls, hun⟩ := s.pick.unfrozen_eq
  generalize hw : ((s.setPick s.pick.unfrozen).setPick q).count s.team.die 0x001 1 = w
  have hexec : exec .sexit s = .next (w.pickEnds s.cur) := by
    rw [exec_sexit_free hb, State.drainPaths_ended (q := q) (by rw [State.setPick_pick]; exact hclose) hcl,
      State.trapLowest_none (fun n hn => ?_), Option.getD_none, hw]
    · rw [State.setPick_pick, hcauses]
      simpa using List.all_eq_true.mp hcs n (List.mem_range.mpr hn)
  have hpick : w.pickAt s.cur = q := by
    rw [← hw, State.count_pickAt]
    exact State.setPick_pick (s.setPick s.pick.unfrozen) q
  have hq2 : q.team = s.pick.team ∧ q.fmask = s.pick.fmask := by rw [hq, hun]; exact ⟨rfl, rfl⟩
  have hteams (k : Nat) : w.teamAt k = s.teamAt k := by rw [← hw]; simp only [State.count_teamAt, State.setPick_teamAt]
  have hctxs (k : Nat) : w.ctxAt k = s.ctxAt k := by rw [← hw]; simp only [State.count_ctxAt, State.setPick_ctxAt]
  have hother (k : Nat) (hk : k ≠ s.cur) : w.pickAt k = s.pickAt k := by
    rw [← hw, State.count_pickAt]
    exact (s.setPick_setPick_moves s.pick.unfrozen q).1.2 k hk
  have hgone := State.pickEnds_gone (s := w) (key := s.cur) (by rw [hpick, hq2.1, hteams]; exact hp)
    (by rw [hpick, hq2.1, hteams, hctxs]; exact hst)
  refine ⟨_, hexec, ?_⟩
  unfold PickGone at hgone ⊢
  simp only [hpick, hq2.1, hq2.2, hteams] at hgone
  obtain ⟨h1, h2, h3, h4, h5, h6, h7⟩ := hgone
  exact ⟨h1, fun k hk => (h2 k hk).trans (hother k hk), h3.trans (by rw [← hw]; simp only [State.count_mem, State.setPick_mem]),
    h4, h5, h6, h7⟩

/-- Settles O17: SEXIT by what closing the paths leaves, by the lowest pending cause, and by the end of the pick. -/
theorem pickExit : Obligations.PickExit := by
  intro s u full
  have hu : u = s.pick.unfrozen := rfl
  have hfull (p : Pick) : full p = p.full := rfl
  clear_value u full
  subst hu
  simp only [hfull]
  refine ⟨fun hb => ?_, fun hb hc hf hout => ?_, fun hb hc hout => ?_, fun n k c v cs hb hd hn hcs hl ht => ?_,
    fun hb hi hp hst => ?_⟩
  · rw [exec_sexit_blocks hb]
    refine ⟨?_, fun hm hc hf => ?_, fun hm hc => ?_⟩
    · rintro (hm | ⟨hc, hf⟩)
      · rw [if_pos hm]
      · rw [Pick.closeOnce_full hc hf]
        exact ite_self _
    · obtain ⟨hclose, hcloses⟩ := Pick.closeOnce_closes hc hf
      refine ⟨_, by rw [exec_sexit_blocks hb, hm, hclose]; rfl, s.setPick_moves _, ?_⟩
      rw [State.setPick_pick]
      exact hcloses
    · exact ⟨_, by rw [exec_sexit_blocks hb, hm, Pick.closeOnce_closing hc]; rfl, s.setPick_moves _, s.setPick_pick _⟩
  · obtain ⟨hclose, hcloses⟩ := Pick.closeOnce_closes hc hf
    have hopen : ∃ n < 8, (({ s.pick.unfrozen.closeAll with closing := true } : Pick).path n).closed ≠ [] := by
      obtain ⟨n, hn, b, hb, hnb⟩ := hout
      exact ⟨n, hn, (hcloses.2.2 n hn).2.closed_ne_nil hb hnb⟩
    obtain ⟨hmoves, hpick⟩ := s.setPick_setPick_moves s.pick.unfrozen { s.pick.unfrozen.closeAll with closing := true }
    refine ⟨_, ?_, hmoves, by rw [hpick]; exact hcloses⟩
    rw [exec_sexit_free hb]
    exact State.drainPaths_waits (by rw [State.setPick_pick]; exact hclose) hopen _
  · obtain ⟨hmoves, hpick⟩ := s.setPick_setPick_moves s.pick.unfrozen s.pick.unfrozen
    refine ⟨_, ?_, hmoves, hpick⟩
    rw [exec_sexit_free hb]
    exact State.drainPaths_waits (by rw [State.setPick_pick]; exact Pick.closeOnce_closing hc) hout _
  · exact sexit_traps hb hd hn hcs hl ht
  · exact sexit_ends hb hi hp hst

end Sys2Proof.Machine
end

section
/-! SUPPORT. The checks of register operands of S-stream instructions, and reads and writes that no check stops (R52, R234,
R235). -/

namespace Sys2Proof.Machine

/-! ## Control registers that exist -/

theorem Pick.trapReg_isSome (p : Pick) {n : Nat} (h : isTrapReg n = true) : (p.trapReg n).isSome = true := by
  simp only [isTrapReg, Bool.or_eq_true, decide_eq_true_eq] at h
  rcases h with ⟨h1, h2⟩ | ⟨h1, h2⟩
  · interval_cases n <;> rfl
  · rw [p.trapReg_of_tab (by omega)]
    split
    · rfl
    · split
      · rfl
      · rw [if_pos (by omega)]
        rfl

theorem Context.ctlReg_isSome (c : Context) (num : Nat) {n : Nat} (h : isCtxReg n = true) : (c.ctlReg num n).isSome = true := by
  simp only [isCtxReg, Bool.or_eq_true, decide_eq_true_eq] at h
  rcases h with ⟨h1, h2⟩ | ⟨h1, h2⟩
  · interval_cases n <;> rfl
  · rw [c.ctlReg_of_tab num (by omega)]
    split
    · rfl
    · rw [if_pos (by omega)]
      rfl

/-- A number that names a control register reads a value (R81). -/
theorem State.ctlRead_isSome (s : State) {n : Nat} (h : isCtlReg n = true) : (s.ctlRead n).isSome = true := by
  simp only [isCtlReg, Bool.or_eq_true, decide_eq_true_eq] at h
  rcases h with ((h | h) | h) | ⟨h1, h2⟩
  · interval_cases n <;> rfl
  · have hn := h
    simp only [isTrapReg, Bool.or_eq_true, decide_eq_true_eq] at hn
    rw [s.ctlRead_of_mid (by omega) (by omega), Option.orElse_eq_orElse, Option.orElse_eq_or, Option.isSome_or, s.pick.trapReg_isSome h, Bool.true_or]
  · have hn := h
    simp only [isCtxReg, Bool.or_eq_true, decide_eq_true_eq] at hn
    rw [s.ctlRead_of_mid (by omega) (by omega), Option.orElse_eq_orElse, Option.orElse_eq_or, Option.isSome_or, s.ctx.ctlReg_isSome _ h, Bool.or_true]
  · interval_cases n <;> rfl

/-! ## Every instruction with register operands checks them first -/

/-- Once its other fields pass, the instruction begins with the checks of its register operands (R231, R235). -/
def State.ChecksOperands (s : State) (e : Instr × List (BitVec 6) × List (BitVec 6) × Prop) : Prop :=
  e.2.2.2 → ∃ k, exec e.1 s = s.withOperands e.2.1 e.2.2.1 k

theorem odd_base_of {base : BitVec 6} {g : Bool} (h : g = true → base.toNat % 2 = 0) :
    ¬ (g && base.getLsbD 0) = true := by
  simp only [Bool.and_eq_true, BitVec.getLsbD, Nat.testBit_zero, decide_eq_true_eq]
  rintro ⟨hg, hb⟩
  have := h hg
  omega

section
variable {s : State} {d a b : BitVec 6} {i : Instr} {p : Prop} {o : Out}

theorem State.alu2_checks (h : exec i s = o) (hf : ∃ f, o = s.alu2 d a b f) : s.ChecksOperands (i, [a, b], [d], p) := by
  obtain ⟨f, hf⟩ := hf
  exact fun _ => ⟨_, h.trans hf⟩

theorem State.alu1_checks (h : exec i s = o) (hf : p → ∃ f, o = s.alu1 d a f) : s.ChecksOperands (i, [a], [d], p) := by
  intro hp
  obtain ⟨f, hf⟩ := hf hp
  exact ⟨_, h.trans hf⟩

theorem State.checks_of {reads writes : List (BitVec 6)} (h : exec i s = o) (ho : p → ∃ k, o = s.withOperands reads writes k) :
    s.ChecksOperands (i, reads, writes, p) := fun hp => (ho hp).imp fun _ hk => h.trans hk

end

theorem State.scalarLoad_checks (s : State) (d base : BitVec 6) (off : Int) (n : Nat) (g : Bool) (y : Sync)
    (h : g = true → base.toNat % 2 = 0) : ∃ k, s.scalarLoad d base off n g y = s.withOperands (scalarBase g base) [d] k :=
  ⟨_, if_neg (odd_base_of h)⟩

theorem State.scalarStore_checks (s : State) (v base : BitVec 6) (off : Int) (n : Nat) (g : Bool) (y : Sync)
    (h : g = true → base.toNat % 2 = 0) :
    ∃ k, s.scalarStore v base off n g y = s.withOperands (scalarBase g base ++ [v]) [] k :=
  ⟨_, if_neg (odd_base_of h)⟩

theorem syncLoadOk_of {ord scp : BitVec 3} {rmt : BitVec 1} {g : Bool} (ho : ord.toNat ≤ 2) (hs : scp.toNat ≤ 5)
    (hr : rmt = 1 → g = true ∧ ord = 2 ∧ (scp = 4 ∨ scp = 5)) : syncLoadOk ord scp rmt g = true := by
  have h1 : (rmt == 0 || (g && ord == 2 && (scp == 4 || scp == 5))) = true := by
    rcases BitVec.eq_zero_or_eq_one rmt with h | h
    · simp [h]
    · obtain ⟨hg, h2, h45⟩ := hr h
      rcases h45 with h4 | h5
      · simp [hg, h2, h4]
      · simp [hg, h2, h5]
  simp only [syncLoadOk, ho, hs, h1, decide_true, Bool.and_self]

theorem syncStoreOk_of {ord scp : BitVec 3} {rmt : BitVec 1} (ho : ord = 0 ∨ ord = 1 ∨ ord = 3) (hs : scp.toNat ≤ 5)
    (hr : rmt = 0) : syncStoreOk ord scp rmt = true := by
  rcases ho with h | h | h <;> simp [syncStoreOk, hs, hr, h]

/-- The COP instructions issue their function (R214, R263). -/
theorem exec_copForms (s : State) {d a b : BitVec 6} {blk : BitVec 1} :
    ∀ e ∈ copForms d a b blk, exec e.1 s = s.cop e.2.1 d a e.2.2 blk := by
  simp only [copForms, List.forall_mem_cons, List.not_mem_nil, false_imp_iff, implies_true, and_true]
  and_intros <;> rfl

theorem scalarForms_check (s : State) (hm : s.pick.mode = false) (d a b : BitVec 6) (i : BitVec 14) (j : BitVec 20)
    (o : BitVec 7) (n : BitVec 3) (x : BitVec 8) (c : BitVec 12) (ord scp : BitVec 3) (rmt blk : BitVec 1) :
    ∀ e ∈ scalarForms d a b i j o n x c ord scp rmt blk, s.ChecksOperands e := by
  have hld (g : Bool) (h : g = true → a.toNat % 2 = 0) (off : Int) (n : Nat) (y : Sync) := s.scalarLoad_checks d a off n g y h
  have hst (g : Bool) (h : g = true → a.toNat % 2 = 0) (off : Int) (n : Nat) (y : Sync) := s.scalarStore_checks d a off n g y h
  simp only [scalarForms, List.forall_mem_append, List.forall_mem_map, and_assoc]
  refine ⟨?alu2, ?alu1, ?other, ?load, ?store, ?loadS, ?storeS, ?rest, ?cop⟩
  case' alu2 | alu1 | other | load | store | loadS | storeS | rest =>
    simp only [List.forall_mem_cons, List.not_mem_nil, false_imp_iff, implies_true, and_true]
  case alu2 =>
    exact ⟨State.alu2_checks (o := execSadd d a b s) rfl ⟨_, rfl⟩, State.alu2_checks (o := execSsub d a b s) rfl ⟨_,
      rfl⟩, State.alu2_checks (o := execSmul d a b s) rfl ⟨_, rfl⟩, State.alu2_checks (o := execSmulh d a b s) rfl ⟨_,
      rfl⟩, State.alu2_checks (o := execSmulhu d a b s) rfl ⟨_, rfl⟩, State.alu2_checks (o := execSand d a b s) rfl
      ⟨_, rfl⟩, State.alu2_checks (o := execSor d a b s) rfl ⟨_, rfl⟩, State.alu2_checks (o := execSxor d a b s) rfl
      ⟨_, rfl⟩, State.alu2_checks (o := execSshl d a b s) rfl ⟨_, rfl⟩, State.alu2_checks (o := execSshr d a b s) rfl
      ⟨_, rfl⟩, State.alu2_checks (o := execSsra d a b s) rfl ⟨_, rfl⟩, State.alu2_checks (o := execSmin d a b s) rfl
      ⟨_, rfl⟩, State.alu2_checks (o := execSmax d a b s) rfl ⟨_, rfl⟩, State.alu2_checks (o := execSminu d a b s) rfl
      ⟨_, rfl⟩, State.alu2_checks (o := execSmaxu d a b s) rfl ⟨_, rfl⟩, State.alu2_checks (o := execSsel d a b n s)
      rfl ⟨_, rfl⟩⟩
  case alu1 =>
    exact ⟨State.alu1_checks (o := execSclz d a s) rfl fun _ => ⟨_, rfl⟩, State.alu1_checks (o := execSpopc d a s) rfl
      fun _ => ⟨_, rfl⟩, State.alu1_checks (o := execSaddi d a i s) rfl fun _ => ⟨_, rfl⟩, State.alu1_checks (o :=
      execSandi d a i s) rfl fun _ => ⟨_, rfl⟩, State.alu1_checks (o := execSori d a i s) rfl fun _ => ⟨_, rfl⟩,
      State.alu1_checks (o := execSxori d a i s) rfl fun _ => ⟨_, rfl⟩⟩
  case other =>
    exact ⟨State.checks_of (o := execScmp n a b scp s) rfl fun _ => ⟨_, rfl⟩,
      State.alu1_checks (o := execSshli d a i s) rfl fun h => ⟨_, if_neg (Nat.not_lt.mpr h)⟩,
      State.alu1_checks (o := execSshri d a i s) rfl fun h => ⟨_, if_neg (Nat.not_lt.mpr h)⟩,
      State.checks_of (o := execSlui d j s) rfl fun _ => ⟨_, rfl⟩,
      State.checks_of (o := execScall d j s) rfl fun _ => ⟨_, rfl⟩,
      State.checks_of (o := execSret a s) rfl fun _ => ⟨_, rfl⟩⟩
  case load =>
    exact ⟨State.checks_of (o := execSldB d a i s) rfl fun h => hld true (fun _ => h) _ _ _,
      State.checks_of (o := execSldH d a i s) rfl fun h => hld true (fun _ => h) _ _ _,
      State.checks_of (o := execSldW d a i s) rfl fun h => hld true (fun _ => h) _ _ _⟩
  case store =>
    exact ⟨State.checks_of (o := execSstB d a i s) rfl fun h => hst true (fun _ => h) _ _ _,
      State.checks_of (o := execSstH d a i s) rfl fun h => hst true (fun _ => h) _ _ _,
      State.checks_of (o := execSstW d a i s) rfl fun h => hst true (fun _ => h) _ _ _⟩
  case loadS =>
    exact ⟨State.checks_of (o := execSldBS d a i s) rfl fun _ => hld false nofun _ _ _,
      State.checks_of (o := execSldHS d a i s) rfl fun _ => hld false nofun _ _ _,
      State.checks_of (o := execSldWS d a i s) rfl fun _ => hld false nofun _ _ _⟩
  case storeS =>
    exact ⟨State.checks_of (o := execSstBS d a i s) rfl fun _ => hst false nofun _ _ _,
      State.checks_of (o := execSstHS d a i s) rfl fun _ => hst false nofun _ _ _,
      State.checks_of (o := execSstWS d a i s) rfl fun _ => hst false nofun _ _ _⟩
  case rest =>
    refine ⟨State.checks_of (o := execSldWSync d a ord scp rmt o s) rfl fun ⟨he, ho, hs, hr⟩ => ?_,
      State.checks_of (o := execSstWSync d a ord scp rmt o s) rfl fun ⟨he, ho, hs, hr⟩ => ?_,
      State.checks_of (o := execSldWSSync d a ord scp rmt o s) rfl fun ⟨ho, hs, hr⟩ => ?_,
      State.checks_of (o := execSstWSSync d a ord scp rmt o s) rfl fun ⟨ho, hs, hr⟩ => ?_,
      State.checks_of (o := execLgo a j s) rfl fun h => ⟨_, if_neg (Nat.not_lt.mpr h)⟩,
      State.checks_of (o := execPwait a n s) rfl fun _ => ⟨_, rfl⟩,
      State.checks_of (o := execBarinit a x s) rfl fun h => ⟨_, if_neg h⟩,
      State.checks_of (o := execBararr a b s) rfl fun _ => ⟨_, rfl⟩,
      State.checks_of (o := execBarwait a b s) rfl fun _ => ⟨_, rfl⟩,
      State.checks_of (o := execSetfmt a b s) rfl fun _ => ⟨_, rfl⟩,
      State.checks_of (o := execStcfg a b s) rfl fun _ => ⟨_, rfl⟩,
      State.checks_of (o := execGang a b s) rfl fun _ => ⟨_, rfl⟩,
      State.checks_of (o := execScsrr d c s) rfl fun h => ?_,
      State.checks_of (o := execScsrw a c s) rfl fun ⟨hctl, hctx, htrap⟩ => ?_,
      State.checks_of (o := execRetire a b s) rfl fun _ => ⟨_, if_neg (by simp [hm])⟩⟩
    · rw [execSldWSync, if_pos (syncLoadOk_of ho hs (by simpa using hr))]
      exact hld true (fun _ => he) _ _ _
    · rw [execSstWSync, if_pos (syncStoreOk_of ho hs hr)]
      exact hst true (fun _ => he) _ _ _
    · rw [execSldWSSync, if_pos (syncLoadOk_of ho hs (by simpa using hr))]
      exact hld false nofun _ _ _
    · rw [execSstWSSync, if_pos (syncStoreOk_of ho hs hr)]
      exact hst false nofun _ _ _
    · obtain ⟨v, hv⟩ := Option.isSome_iff_exists.mp (s.ctlRead_isSome h)
      rw [execScsrr, hv]
      exact ⟨_, rfl⟩
    · simp only [execScsrw, hctl, hctx, htrap, Bool.not_true, Bool.false_and, Bool.or_self, Bool.false_eq_true, if_false]
      exact ⟨_, rfl⟩
  case cop => exact fun e he _ => ⟨_, exec_copForms s e he⟩

/-! ## What the checks find -/

theorem State.frameHit_some {s : State} {rs : List (BitVec 6)} {r : BitVec 6} (h : s.frameHit rs = some r) :
    s.chk 0 = true ∧ s.pick.inWindow (s.pick.abs r) = true := by
  unfold State.frameHit at h
  split at h
  · next hc => exact ⟨hc, (Bool.and_eq_true_iff.mp (List.find?_some h :)).2⟩
  · exact absurd h (by simp)

theorem State.poisonHit_some {s : State} {rs : List (BitVec 6)} {r : BitVec 6} (h : s.poisonHit rs = some r) :
    s.pick.abs r ∈ s.pick.spoison := by
  have := (Bool.and_eq_true_iff.mp (List.find?_some h :)).2
  simpa using this

theorem traps_frameHazard {s : State} {i : Instr} {reads writes : List (BitVec 6)} {r : BitVec 6}
    {k : (BitVec 6 → Word) → Out} (hi : exec i s = s.withOperands reads writes k) (h : s.frameHit (reads ++ writes) = some r) :
    TrapsS i s .frameHazard (BitVec.ofNat 64 (s.pick.abs r)) :=
  TrapsS.of_exec fun _ => by rw [hi, State.withOperands, h]

theorem traps_dataPoison {s : State} {i : Instr} {reads writes : List (BitVec 6)} {r : BitVec 6}
    {k : (BitVec 6 → Word) → Out} (hi : exec i s = s.withOperands reads writes k) (hf : s.frameHit (reads ++ writes) = none)
    (h : s.poisonHit reads = some r) : TrapsS i s .dataPoison (BitVec.ofNat 64 r.toNat) :=
  TrapsS.of_exec fun _ => by
    rw [hi, State.withOperands, hf, h]
    exact congrArg (s.trapS .dataPoison) (BitVec.eq_of_toNat_eq (by simp))

/-! ## Unchecked reads and writes -/

/-- A register read unchecked gives its value, or the one that a copy-back replaced (R52). -/
theorem State.readS_either (s : State) (r : BitVec 6) :
    s.readS r = s.pick.w r ∨ s.pick.priorOf (s.pick.abs r) = some (s.readS r) := by
  unfold State.readS
  dsimp only
  split
  · next h => exact .inl (by simp [Pick.w, h])
  · split
    · next old h =>
      split
      · exact .inr h
      · exact .inl rfl
    · exact .inl rfl

/-- A write of a register goes to the pick, whatever copy-backs it forgets; where one is not yet covered, the value may be
that which stood (R52). -/
theorem State.setS_eq (s : State) {d : BitVec 6} (hd : d ≠ 0) (v : Word) : ∃ uc hc x,
    s.setS d v = s.setPick (Pick.setW { s.pick with uncovered := uc, huncovered := hc } d x) ∧
    (x = v ∨ x = s.pick.w d ∧ (s.pick.priorOf (s.pick.abs d)).isSome) := by
  unfold State.setS
  dsimp only
  rw [if_neg hd]
  split
  · next old hp =>
    refine ⟨_, _, _, rfl, ?_⟩
    rw [hp]
    split
    · exact .inr ⟨rfl, rfl⟩
    · exact .inl rfl
  · exact ⟨s.pick.uncovered, s.pick.huncovered, v, rfl, .inl rfl⟩

/-- A register written unchecked takes the value, or keeps its own where a copy-back replaced it (R52). -/
theorem State.setS_either (s : State) (d : BitVec 6) (v : Word) (n : Nat) :
    tget 0 (s.setS d v).pick.sregs n = (if d ≠ 0 ∧ n = s.pick.abs d then v else tget 0 s.pick.sregs n) ∨
    (tget 0 (s.setS d v).pick.sregs n = tget 0 s.pick.sregs n ∧ n = s.pick.abs d ∧ (s.pick.priorOf n).isSome) := by
  by_cases hd : d = 0
  · exact .inl (by simp [State.setS, hd])
  · obtain ⟨uc, hc, x, he, hx⟩ := s.setS_eq hd v
    have hset : tget 0 (s.setS d v).pick.sregs n = if n = s.pick.abs d then x else tget 0 s.pick.sregs n := by
      rw [he, State.setPick_pick, Pick.setW, if_neg hd]
      exact tget_tput 0 s.pick.sregs n _ x
    rw [hset]
    by_cases hn : n = s.pick.abs d
    · subst hn
      rcases hx with hx | ⟨hx, hp⟩
      · exact .inl (by rw [if_pos rfl, if_pos ⟨hd, rfl⟩, hx])
      · exact .inr ⟨by rw [if_pos rfl, hx, Pick.w, if_neg hd], rfl, hp⟩
    · exact .inl (by simp [hn])

theorem State.setS_onlyPick (s : State) (d : BitVec 6) (v : Word) :
    OnlyPick s (s.setS d v) ∧ (s.setS d v).pick.spc = s.pick.spc := by
  by_cases hd : d = 0
  · rw [show s.setS d v = s from if_pos hd]
    exact ⟨⟨rfl, fun _ _ => rfl⟩, rfl⟩
  · obtain ⟨uc, hc, x, he, -⟩ := s.setS_eq hd v
    rw [he]
    exact ⟨s.setPick_only _, by simp⟩

/-- Going on in sequence moves the pick and counts. -/
theorem State.advance_onlyPick (s : State) : OnlyPick s s.advance ∧ s.advance.pick = s.pick.goneOn s.fresh :=
  ⟨s.setPick_count_only _ _ _ _, by simp [State.advance, Pick.goneOn]⟩

/-- SADD goes on, whatever windows its registers lie in, where no check stops it. -/
theorem exec_sadd_unchecked {s : State} {d a b : BitVec 6} (hf : s.frameHit [a, b, d] = none)
    (hp : s.poisonHit [a, b] = none) : exec (.sadd d a b) s = .next (s.setS d (s.readS a + s.readS b)).advance := by
  have hexec : exec (.sadd d a b) s = execSadd d a b s := rfl
  rw [hexec, execSadd, State.alu2, State.withOperands, List.cons_append, List.cons_append, List.nil_append, hf, hp]

theorem sadd_unchecked {s : State} {d a b : BitVec 6} (hf : s.frameHit [a, b, d] = none) (hp : s.poisonHit [a, b] = none) :
    Completes (.sadd d a b) s fun t => t.pick.spc = s.nextPc ∧ OnlyPick s t ∧
      t.pick.sregs = (s.setS d (s.readS a + s.readS b)).pick.sregs := by
  refine ⟨_, exec_sadd_unchecked hf hp, ?_⟩
  obtain ⟨honly, hspc⟩ := s.setS_onlyPick d (s.readS a + s.readS b)
  obtain ⟨hadv, hpick⟩ := (s.setS d (s.readS a + s.readS b)).advance_onlyPick
  refine ⟨?_, honly.trans hadv, by rw [hpick]; rfl⟩
  rw [hpick, Pick.goneOn, hspc]
  apply BitVec.eq_of_toNat_eq
  simp [State.nextPc]

/-- Settles O21: the checks come first in every form, and SADD shows what an unchecked register reads and takes. -/
theorem registerFaults : Obligations.RegisterFaults := by
  refine ⟨fun s d a b i j o n x c ord scp rmt blk hm e he hok => ?_, fun s d a b hf hp => ?_⟩
  · obtain ⟨k, hk⟩ := scalarForms_check s hm d a b i j o n x c ord scp rmt blk e he hok
    refine ⟨fun r hr => ?_, fun r hf hr => ⟨State.poisonHit_some hr, traps_dataPoison hk hf hr⟩⟩
    obtain ⟨hc, hw⟩ := State.frameHit_some hr
    exact ⟨hc, hw, traps_frameHazard hk hr⟩
  · obtain ⟨t, he, hspc, honly, hregs⟩ := sadd_unchecked (d := d) hf hp
    refine ⟨t, he, hspc, honly, _, _, s.readS_either a, s.readS_either b, fun n => ?_⟩
    rw [hregs]
    exact s.setS_either d _ n

end Sys2Proof.Machine
end

section
/-! SUPPORT. Lane instructions that move strands alone, lanes that leave their strands, and the wait at a REGANG (R58, R60,
R68, R297 to R300). -/

namespace Sys2Proof.Machine

/-! ## Instructions that write nothing -/

/-- A write of no names finds its registers. -/
theorem State.hasRoom_nil (s : State) (m : Word) (xs : List (Src × Nat)) : s.hasRoom m xs [] = true := by
  simp [State.hasRoom, State.shortBank]

/-- What a lane instruction leaves that issues no result and leaves SEED alone. -/
theorem State.laneCommit_moves (s : State) (stall : BitVec 4) (m : Word) (xs : List (Src × Nat))
    (move : Nat → Strand → Strand) {fin : State → State} (hf : ∀ u : State, fin u = u ∨ fin u = u.setPick u.pick) :
    ∃ t, s.laneCommit stall m xs [] move fin = .next t ∧ LaneResult s t stall m xs none 0 (fun _ => 0) move s.pick.seed :=
  State.laneCommit_result (d0 := s.dies) (fun _ => rfl) (dest := none) (vs := []) (lat := 0) (val := fun _ => 0) nofun trivial
    (fun u hu => (hf u).imp (fun h => ⟨h, rfl⟩) fun h => by rw [h, ← hu]) (s.hasRoom_nil m xs)

theorem State.noteLatent_nil (s : State) : s.noteLatent [] = s := rfl

/-! ## Lanes that leave a strand -/

/-- The lanes of strand n that a mask names, by their place in the strand. -/
def strandBits (m : Word) (n : Nat) : BitVec 4 := BitVec.ofNat 4 (maskOf ((List.range 4).filter (fun j => m.getLsbD (4 * n + j))))

theorem getLsbD_strandBits (m : Word) (n j : Nat) :
    (strandBits m n).getLsbD j = (decide (j < 4) && m.getLsbD (4 * n + j)) := by
  simp only [strandBits, BitVec.getLsbD_ofNat, maskOf_testBit, List.mem_filter, List.mem_range]
  by_cases h : j < 4 <;> simp [h]

/-- A strand whose masks lose these lanes. -/
def Strand.lose (x : Strand) (b : BitVec 4) : Strand :=
  { x with mask := x.mask &&& ~~~b, stack := x.stack.map (fun e => { e with mask := e.mask &&& ~~~b }) }

/-- Lanes leave every mask of their strands (R58): the strand without them goes on while a lane is left. -/
theorem Strand.without_leaving (m : Word) (n : Nat) (x : Strand) : Strand.without (leaving m) n x =
    if (x.lose (strandBits m n)).mask = 0#4 then x.lose (strandBits m n) else nextL n (x.lose (strandBits m n)) := by
  have hout (test : Nat → Bool) (h0 : test 0 = true) : BitVec.ofNat 4 (maskOf ((List.range 4).filter
      (fun j => ((leaving m (4 * n + j)).map test).getD false))) = strandBits m n := by
    unfold strandBits leaving
    congr 3
    funext j
    cases m.getLsbD (4 * n + j) <;> simp [h0]
  have hstack : (x.stack.mapIdx fun k e => { e with mask := e.mask &&& ~~~BitVec.ofNat 4 (maskOf ((List.range 4).filter
      (fun j => ((leaving m (4 * n + j)).map (fun h => decide (k + h < x.stack.length))).getD false))) }) =
      x.stack.map (fun e => { e with mask := e.mask &&& ~~~strandBits m n }) := by
    refine List.ext_getElem (by simp) fun k h1 h2 => ?_
    have hk : k < x.stack.length := by simpa using h2
    simp only [List.getElem_mapIdx, List.getElem_map]
    rw [hout _ (by simpa using hk)]
  simp only [Strand.without, hout (fun _ => true) rfl]
  rw [hstack]
  rfl

theorem Strand.lose_congr {a b : BitVec 4} (x : Strand) (h : ∀ y : BitVec 4, y &&& ~~~a = y &&& ~~~b) :
    x.lose a = x.lose b := by
  simp only [Strand.lose, h]

/-- No strand loses a lane that none of its masks names. -/
theorem Strand.lose_zero (x : Strand) : x.lose 0#4 = x := by
  have h (y : BitVec 4) : y &&& ~~~(0#4) = y := by rw [show ~~~(0#4) = BitVec.allOnes 4 from rfl, BitVec.and_allOnes]
  simp only [Strand.lose, h, List.map_id']

theorem Strand.dropLane_eq (x : Strand) (j : Nat) : x.dropLane j 0 = x.lose (1#4 <<< j) := by
  simp [Strand.dropLane, Strand.lose]

theorem Strand.lose_lose (x : Strand) (a b : BitVec 4) : (x.lose a).lose b = x.lose (a ||| b) := by
  have h (y : BitVec 4) : y &&& ~~~a &&& ~~~b = y &&& ~~~(a ||| b) := by
    rw [BitVec.not_or, BitVec.and_assoc]
  simp [Strand.lose, h]

/-- Lanes by their place in a strand, as a mask. -/
def placeBits (is : List Nat) : BitVec 4 := is.foldr (fun i b => 1#4 <<< (i % 4) ||| b) 0#4

theorem getLsbD_placeBits (is : List Nat) (j : Nat) :
    (placeBits is).getLsbD j = is.any (fun i => decide (i % 4 = j)) := by
  induction is with
  | nil => simp [placeBits]
  | cons i is ih =>
    have e : placeBits (i :: is) = 1#4 <<< (i % 4) ||| placeBits is := rfl
    rw [e, BitVec.getLsbD_or, getLsbD_one_shiftLeft (Nat.mod_lt i (by decide)), ih, List.any_cons]
    simp [eq_comm]

/-- Lanes that leave one after the other. -/
theorem Strand.foldl_dropLane (is : List Nat) (x : Strand) :
    is.foldl (fun x i => x.dropLane (i % 4) 0) x = x.lose (placeBits is) := by
  induction is generalizing x with
  | nil => exact x.lose_zero.symm
  | cons i is ih => rw [List.foldl_cons, ih, Strand.dropLane_eq, Strand.lose_lose]; rfl

theorem mem_lanesOf {m : Word} {i : Nat} : i ∈ lanesOf m ↔ m.getLsbD i = true := by
  simp only [lanesOf, List.mem_filter, List.mem_range, and_iff_right_iff_imp]
  exact BitVec.lt_of_getLsbD

theorem placeBits_lanesOf (m : Word) (n : Nat) :
    placeBits ((lanesOf m).filter (fun i => i / 4 = n)) = strandBits m n := by
  apply BitVec.eq_of_getLsbD_eq
  intro j hj
  rw [getLsbD_placeBits, getLsbD_strandBits, Bool.eq_iff_iff]
  simp only [List.any_eq_true, List.mem_filter, mem_lanesOf, decide_eq_true_eq, Bool.and_eq_true]
  constructor
  · rintro ⟨i, ⟨hi, h4⟩, hm⟩
    exact ⟨hj, by rwa [show 4 * n + j = i by omega]⟩
  · rintro ⟨-, h⟩
    exact ⟨4 * n + j, ⟨h, by omega⟩, by omega⟩

/-- A strand from which LEND takes lanes of no transaction (R58, R299). -/
theorem endLanes_eq_without (m : Word) (n : Nat) (x : Strand) :
    endLanes (lanesOf m) n x = Strand.without (leaving m) n x := by
  unfold endLanes
  rw [Strand.foldl_dropLane, placeBits_lanesOf, Strand.without_leaving]

/-- The lanes of the fragment in execution are those of its strands' masks. -/
theorem State.mem_fragLanes (s : State) {i : Nat} : i ∈ lanesOf s.fragLanes ↔
    i < 32 ∧ s.fragment.strands.getLsbD (i / 4) = true ∧ (s.pick.ls.strand (i / 4)).mask.getLsbD (i % 4) = true := by
  rw [mem_lanesOf]
  simp [State.fragLanes, BitVec.getLsbD_ofNat, maskOf_testBit]

/-- An active lane is in the mask of a strand of the fragment. -/
theorem State.mem_lanesActive {s : State} {pi : BitVec 3} {pn : BitVec 1} {i : Nat} (h : i ∈ lanesOf (s.lanesActive pi pn)) :
    i / 4 ∈ s.fragment.members ∧ (s.pick.ls.strand (i / 4)).mask.getLsbD (i % 4) = true := by
  rw [mem_lanesOf, State.lanesActive, BitVec.getLsbD_ofNat, maskOf_testBit] at h
  simp only [Bool.and_eq_true, decide_eq_true_eq, List.mem_filter] at h
  obtain ⟨-, hf, -⟩ := h
  obtain ⟨h32, hs, hm⟩ := s.mem_fragLanes.mp hf
  exact ⟨mem_ones.mpr ⟨by omega, hs⟩, hm⟩

/-- No active lane lies in a strand with no lane. -/
theorem State.strandBits_of_mask_zero (s : State) (pi : BitVec 3) (pn : BitVec 1) {n : Nat}
    (h : (s.pick.ls.strand n).mask = 0) : strandBits (s.lanesActive pi pn) n = 0#4 := by
  apply BitVec.eq_of_getLsbD_eq
  intro j hj
  rw [getLsbD_strandBits]
  simp only [hj, decide_true, Bool.true_and, BitVec.getLsbD_zero]
  by_contra hb
  obtain ⟨-, hm⟩ := State.mem_lanesActive (mem_lanesOf.mpr (Bool.not_eq_false _ ▸ hb))
  rw [show (4 * n + j) / 4 = n by omega, h] at hm
  simp at hm

/-- How LEND moves a strand when none of its lanes is in a transaction (R58, R299). -/
theorem State.lend_move (s : State) (pi : BitVec 3) (pn : BitVec 1) (txs : List (Nat × Tx)) {n : Nat} {x : Strand}
    (hx : x.mask = (s.pick.ls.strand n).mask) :
    moveAborting txs [] (endLanes (lanesOf (s.lanesActive pi pn))) n x =
      Strand.without (leaving (s.lanesActive pi pn)) n x := by
  have e : moveAborting txs [] (endLanes (lanesOf (s.lanesActive pi pn))) n x =
      if x.mask = 0#4 then x else endLanes (lanesOf (s.lanesActive pi pn)) n x := rfl
  rw [e, endLanes_eq_without]
  by_cases h0 : x.mask = 0#4
  · rw [if_pos h0, Strand.without_leaving, s.strandBits_of_mask_zero pi pn (hx ▸ h0), Strand.lose_zero, if_pos h0]
  · rw [if_neg h0]

/-! ## Lanes that a strand no longer has -/

/-- A strand has a lane in no mask. -/
def Strand.lacks (x : Strand) (j : Nat) : Prop := x.mask.getLsbD j = false ∧ ∀ e ∈ x.stack, e.mask.getLsbD j = false

theorem Strand.lacks_popAll {j : Nat} (es : List StackEntry) (x : Strand) (hx : x.mask.getLsbD j = false)
    (he : ∀ e ∈ es, e.mask.getLsbD j = false) : (x.popAll es).lacks j := by
  induction es generalizing x with
  | nil =>
    rw [Strand.popAll]
    split <;> exact ⟨hx, nofun⟩
  | cons e es ih =>
    obtain ⟨h1, h2⟩ := List.forall_mem_cons.mp he
    rw [Strand.popAll]
    split
    · exact ih _ h1 h2
    · exact ⟨hx, he⟩

theorem Strand.lacks_settle {x : Strand} {j : Nat} (h : x.lacks j) : x.settle.lacks j := Strand.lacks_popAll _ _ h.1 h.2

theorem Strand.lacks_lose {x : Strand} {b : BitVec 4} {j : Nat} (hj : b.getLsbD j = true) : (x.lose b).lacks j := by
  have h (y : BitVec 4) : (y &&& ~~~b).getLsbD j = false := by rw [getLsbD_and_not, hj]; simp
  refine ⟨h _, fun e he => ?_⟩
  obtain ⟨e, -, rfl⟩ := List.mem_map.mp he
  exact h _

/-- A lane that left is in no mask of its strand. -/
theorem Strand.lacks_without (m : Word) {n j : Nat} (x : Strand) (hj : j < 4) (hm : m.getLsbD (4 * n + j) = true) :
    (Strand.without (leaving m) n x).lacks j := by
  have h : (x.lose (strandBits m n)).lacks j := Strand.lacks_lose (by rw [getLsbD_strandBits]; simp [hj, hm])
  rw [Strand.without_leaving]
  split
  · exact h
  · exact h

/-! ## The statement's instructions -/

/-- The moves of a result matter on the strands of the fragment alone. -/
theorem LaneResult.congr_move {s t : State} {stall : BitVec 4} {m : Word} {xs : List (Src × Nat)} {dest : Option Dest}
    {lat : Nat} {val : Nat → Word} {f g : Nat → Strand → Strand} {sd : Word}
    (h : LaneResult s t stall m xs dest lat val f sd)
    (hfg : ∀ n x, x.mask = (s.pick.ls.strand n).mask → f n x = g n x) : LaneResult s t stall m xs dest lat val g sd := by
  obtain ⟨h1, h2, h3, h4, h5, hstrand, h7⟩ := h
  refine ⟨h1, h2, h3, h4, h5, fun n => ?_, h7⟩
  rw [hstrand n]
  split
  · exact congrArg Strand.settle (hfg n _ rfl)
  · rfl

/-- What a lane instruction leaves that does nothing but move its strands. -/
theorem State.laneCommit_goes (s : State) (stall : BitVec 4) (m : Word) (move : Nat → Strand → Strand) :
    ∃ t, s.laneCommit stall m [] [] move = .next t ∧ LaneResult s t stall m [] none 0 (fun _ => 0) move s.pick.seed :=
  s.laneCommit_moves stall m [] move fun _ => .inl rfl

theorem Pick.abortAll_nil (p : Pick) : p.abortAll [] = p := by
  simp [Pick.abortAll, Pick.abortFrozen]

/-- LEND of lanes that are in no transaction (R299). -/
theorem lend_completes {s : State} {h : Hd} (hr : s.laneReady h.pi h.pn [] [] = true)
    (ht : ∀ i ∈ lanesOf (s.lanesActive h.pi h.pn), s.pick.txs.lookup i = none) :
    ∃ t, exec (.lend h) s = .next t ∧ LaneResult s t h.stall (s.lanesActive h.pi h.pn) [] none 0 (fun _ => 0)
      (Strand.without (leaving (s.lanesActive h.pi h.pn))) s.pick.seed := by
  have hin : (lanesOf (s.lanesActive h.pi h.pn)).filter (fun i => (s.pick.txs.lookup i).isSome) = [] :=
    List.filter_eq_nil_iff.mpr fun i hi => by simp [ht i hi]
  have hout : (lanesOf (s.lanesActive h.pi h.pn)).filter (fun i => (s.pick.txs.lookup i).isNone) =
      lanesOf (s.lanesActive h.pi h.pn) := List.filter_eq_self.mpr fun i hi => by simp [ht i hi]
  obtain ⟨t, e, ht⟩ := s.laneCommit_moves h.stall (s.lanesActive h.pi h.pn) []
    (moveAborting s.pick.modeTxs [] (endLanes (lanesOf (s.lanesActive h.pi h.pn))))
    (fin := fun u => u.setPick (u.pick.abortAll []))
    fun u => .inr (by rw [Pick.abortAll_nil])
  refine ⟨t, ?_, ht.congr_move fun n x hx => s.lend_move h.pi h.pn _ hx⟩
  rw [← e]
  show execLend h s = _
  rw [execLend, State.laneGate_ready hr, State.noteLatent_nil]
  simp only [hin, hout, List.any_nil, List.map_nil]
  rfl

/-! ## The wait at a REGANG -/

/-- A lane instruction that touches no register only moves its strands. -/
theorem State.laneCommit_bare (s : State) (stall : BitVec 4) (m : Word) (move : Nat → Strand → Strand) :
    s.laneCommit stall m [] [] move = .next ((s.setPick s.pick).laneDone stall m move) := by
  have h : s.shortBank s.pick [] = none := by simp [State.shortBank]
  simp only [State.laneCommit, freedBy, List.filter_nil, List.flatMap_nil, List.foldl_nil, List.filterMap_nil, h, id_eq]

/-- The fragment in execution as an instruction that it issued leaves it. -/
def Fragment.issuedAt (f : Fragment) (clk : Nat) : Fragment :=
  { f with lastIssue := clk, rise := 0, passed := 0, exempt := false, noServe := [] }

/-- The parts of the fragment that issued are among the fragments after its instruction (R59). -/
theorem State.laneDone_frags (s : State) (stall : BitVec 4) (m : Word) (move : Nat → Strand → Strand)
    (hf : s.frag < s.pick.ls.frags.length) :
    ∀ f ∈ Fragment.split (s.laneDone stall m move).pick.ls (s.fragment.issuedAt s.fresh),
      f ∈ (s.laneDone stall m move).pick.ls.frags := by
  let step (l : LaneSet) (k : Nat) : LaneSet := l.setStrand k
    (Strand.settle (move k { l.strand k with dist := (l.strand k).dist + 1, issued := true, safept := none }))
  let l1 : LaneSet := s.fragment.members.foldl step s.pick.ls
  have hl1 : l1.frags = s.pick.ls.frags := foldl_keeps LaneSet.frags (f := step) (fun _ _ => rfl) _ _
  have e : (s.laneDone stall m move).pick.ls =
      ({ l1 with frags := l1.frags.set s.frag (s.fragment.issuedAt s.fresh) } : LaneSet).repartition := by
    unfold State.laneDone
    simp only []
    split
    · rw [State.setPick_pick]
      exact Pick.setLs_ls ..
    · rw [State.count_pick, State.setTeam_pick, State.setPick_pick]
      exact Pick.setLs_ls ..
  rw [e, hl1]
  intro f h
  refine List.mem_flatten_of_mem (List.mem_map_of_mem (List.mem_set hf _)) h

/-- A fragment whose strands are all at one address, at which it waits, does not part (R59, R60). -/
theorem Fragment.split_waiting {l : LaneSet} {f : Fragment} {pc : Word} (hm : f.members ≠ [])
    (hl : ∀ n ∈ f.members, (l.strand n).lpc = some pc) (hw : f.waitAt = some pc) : Fragment.split l f = [f] := by
  have h : (f.members.map (fun n => (l.strand n).lpc)).dedup = [some pc] := by
    rw [List.map_congr_left hl, List.map_const', List.replicate_dedup (by simpa using hm)]
  unfold Fragment.split
  simp [h, hw]

/-- A strand with lanes that is not where it reconverges pops nothing (R56). -/
theorem Strand.settle_stays {x : Strand} (hm : x.mask ≠ 0) (hr : x.rca ≠ x.lpc) : x.settle = x := by
  have hm' : ¬ x.mask = 0#4 := hm
  unfold Strand.settle
  cases h : x.stack with
  | nil => simp [Strand.popAll, hm', ← h]
  | cons e es => simp [Strand.popAll, hm', Ne.symm hr, ← h]

/-- A fragment that a REGANG makes wait (R298). -/
def Fragment.waitingAt (f : Fragment) (pc : Word) (st : BitVec 4) : Fragment :=
  { f with waitAt := some pc, waitStall := st.toNat }

theorem State.setPick_self_fragment (s : State) : (s.setPick s.pick).fragment = s.fragment := by
  unfold State.fragment
  rw [State.setPick_pick]
  rfl

/-- REGANG with other live fragments (R60, R298): every strand stays and the fragment waits. -/
theorem regang_waits {s : State} (st : BitVec 4)
    (h1 : ¬ (s.pick.ls.frags.filter s.pick.ls.fragLive).length ≤ 1) (hf : s.frag < s.pick.ls.frags.length)
    (hm : s.fragment.members ≠ []) (hs : ∀ n ∈ s.fragment.members, (s.pick.ls.strand n).lpc = some s.lpc ∧
      (s.pick.ls.strand n).mask ≠ 0 ∧ (s.pick.ls.strand n).rca ≠ some s.lpc) :
    ∃ t, exec (.regang st) s = .next t ∧ StrandsMove s t (fun _ x => x) ∧ t.mem = s.mem ∧
      ∃ f ∈ t.pick.ls.frags, f.members = s.fragment.members ∧ f.waitAt = some s.lpc := by
  obtain ⟨t, e, hr⟩ := (s.onFragment (·.waitingAt s.lpc st)).laneCommit_goes 1 s.fragLanes (fun _ x => x)
  have hls : (s.onFragment (·.waitingAt s.lpc st)).pick.ls = { s.pick.ls with frags := s.pick.ls.frags.set s.frag (s.fragment.waitingAt s.lpc st) } := by
    unfold State.onFragment
    rw [State.setPick_pick, Pick.setLs_ls]
  have hfr : (s.onFragment (·.waitingAt s.lpc st)).fragment = s.fragment.waitingAt s.lpc st := by
    unfold State.fragment
    rw [hls]
    exact (congrArg (Option.getD · _) (List.getElem?_set_self hf) :)
  have hmove : StrandsMove s t (fun _ x => x) := by
    obtain ⟨-, -, -, -, -, hstrand, -⟩ := hr
    intro n
    rw [hstrand n, hls, hfr]
    rfl
  refine ⟨t, ?_, hmove, ?_, ?_⟩
  · rw [← e]
    exact if_neg h1
  · exact (congrArg State.mem hr.1.1 :)
  · have ht : t = ((s.onFragment (·.waitingAt s.lpc st)).setPick (s.onFragment (·.waitingAt s.lpc st)).pick).laneDone 1 s.fragLanes (fun _ x => x) := by
      rw [State.laneCommit_bare] at e
      exact (Host.Outcome.next.inj e).symm
    have hstays (n : Nat) (hn : n ∈ s.fragment.members) : (t.pick.ls.strand n).lpc = some s.lpc := by
      obtain ⟨hpc, hmask, hrca⟩ := hs n hn
      rw [hmove n, if_pos hn]
      rw [Strand.settle_stays]
      · exact hpc
      · exact hmask
      · exact fun e => hrca (e.trans hpc)
    refine ⟨(s.fragment.waitingAt s.lpc st).issuedAt (s.onFragment (·.waitingAt s.lpc st)).fresh, ?_, rfl, rfl⟩
    have := State.laneDone_frags ((s.onFragment (·.waitingAt s.lpc st)).setPick (s.onFragment (·.waitingAt s.lpc st)).pick) 1 s.fragLanes (fun _ x => x) (by
      rw [State.setPick_pick, hls]
      exact (List.length_set ..).symm ▸ hf)
    rw [← ht, State.setPick_self_fragment, hfr] at this
    have hw (clk : Nat) : Fragment.split t.pick.ls ((s.fragment.waitingAt s.lpc st).issuedAt clk) =
        [(s.fragment.waitingAt s.lpc st).issuedAt clk] := Fragment.split_waiting hm hstays rfl
    exact this _ (by rw [hw]; exact List.mem_singleton_self _)

/-- REGANG of the one live fragment (R298). -/
theorem exec_regang_one {s : State} (st : BitVec 4) (h1 : (s.pick.ls.frags.filter s.pick.ls.fragLive).length ≤ 1) :
    exec (.regang st) s = s.laneCommit st s.fragLanes [] [] nextL := if_pos h1

/-- Settles O30: by what a lane instruction leaves that writes no register; the lanes of a LEND leave their strands one by
one, which is the strand without them, and a fragment that waits at a REGANG does not part. -/
theorem laneSequence : Obligations.LaneSequence := by
  intro s h st idx
  refine ⟨s.laneCommit_goes .., s.laneCommit_goes .., s.laneCommit_goes .., fun h1 => ?_,
    fun h1 hf hm hs => regang_waits st h1 hf hm hs, fun hr ht => ?_⟩
  · obtain ⟨t, e, hr⟩ := s.laneCommit_goes st s.fragLanes nextL
    exact ⟨t, (exec_regang_one st h1).trans e, hr⟩
  · obtain ⟨t, e, hres⟩ := lend_completes hr ht
    refine ⟨t, e, hres, fun i hi => ?_⟩
    obtain ⟨-, -, -, -, -, hstrand, -⟩ := hres
    rw [hstrand, if_pos (State.mem_lanesActive hi).1]
    exact Strand.lacks_settle (Strand.lacks_without _ _ (Nat.mod_lt i (by decide))
      (by rw [Nat.div_add_mod]; exact mem_lanesOf.mp hi))

end Sys2Proof.Machine
end

section
/-! SUPPORT. Lane transfers: the addresses that lanes choose, the groups of a strand, the landing checks (R54 to R57, R293
to R296). -/

namespace Sys2Proof.Machine

/-! ## Relative targets and groups -/

/-- The address off instructions on, as a sum of integers (R204). -/
theorem State.laneRelative_eq (s : State) (off : BitVec 12) :
    s.laneRelative off = BitVec.ofInt 32 (s.lpc.toNat + 12 * off.toInt) := by
  rw [State.laneRelative, wordOf, BitVec.ofInt_add, BitVec.ofInt_natCast, BitVec.ofNat_toNat, BitVec.setWidth_eq]

/-- A lane of a strand is in the group of the address that it chose, and in no other (R54). -/
theorem laneGroups_lane {n j : Nat} {lanes : BitVec 4} {order : List Word} {choose : Nat → Word} (hj : j < 4)
    (hl : lanes.getLsbD j = true) {g : Word × BitVec 4} (hg : g ∈ laneGroups n lanes order choose) :
    g.2.getLsbD j = true ↔ g.1 = choose (4 * n + j) := by
  obtain ⟨hg, -⟩ := List.mem_filter.mp hg
  obtain ⟨a, -, rfl⟩ := List.mem_map.mp hg
  simp only [BitVec.getLsbD_ofNat, maskOf_testBit, List.mem_filter, List.mem_range, hj, hl, decide_true, Bool.true_and,
    true_and, decide_eq_true_eq, beq_iff_eq]
  exact eq_comm

theorem Strand.diverge_one (x : Strand) (r c : Word) (m : BitVec 4) : x.diverge r [(c, m)] = { x with lpc := some c } := rfl

theorem Strand.diverge_more (x : Strand) (r c c' : Word) (m m' : BitVec 4) (rest : List (Word × BitVec 4)) :
    x.diverge r ((c, m) :: (c', m') :: rest) = { x with
        lpc := some c, mask := m, rca := some r
        stack := ((c', m') :: rest).map (fun g => ⟨some g.1, g.2, some r, x.fmtr⟩) ++
          ⟨some r, x.mask, x.rca, x.fmtr⟩ :: x.stack } := rfl

/-! ## The transfer -/

/-- A transfer that nothing stops moves the strands by their groups. -/
theorem State.transfer_goes {s : State} {u : Bool} {groups : Nat → List (Word × BitVec 4)}
    (hu : u = true → s.chk 2 = true → differ (s.fragment.members.map groups) = false) (ho : s.overflowing groups = [])
    (stall : BitVec 4) (m : Word) (xs : List (Src × Nat)) (ws : List Write) (rcv : Word) :
    s.transfer stall u m xs ws rcv groups = s.laneCommit stall m xs ws (fun n x => x.diverge rcv (groups n)) := by
  have h : (u && s.chk 2 && differ (s.fragment.members.map groups)) = false := by
    rw [Bool.and_eq_false_iff, Bool.and_eq_false_iff]
    by_cases h1 : u = true
    · by_cases h2 : s.chk 2 = true
      · exact .inr (hu h1 h2)
      · exact .inl (.inr (by simpa using h2))
    · exact .inl (.inl (by simpa using h1))
  simp [State.transfer, h, ho]

/-- Groups that differ where the instruction asks for one (R54). -/
theorem State.transfer_uneven {s : State} {groups : Nat → List (Word × BitVec 4)} (hc : s.chk 2 = true)
    (hd : differ (s.fragment.members.map groups) = true) (stall : BitVec 4) (m : Word) (xs : List (Src × Nat))
    (ws : List Write) (rcv : Word) : s.transfer stall true m xs ws rcv groups = s.trapL .uniform 0 m := by
  simp [State.transfer, hc, hd]

/-- Pushes that a stack has no room for (R57). -/
theorem State.transfer_overflows {s : State} {u : Bool} {groups : Nat → List (Word × BitVec 4)}
    (hu : ¬ (u = true ∧ s.chk 2 = true ∧ differ (s.fragment.members.map groups) = true)) (ho : s.overflowing groups ≠ [])
    (stall : BitVec 4) (m : Word) (xs : List (Src × Nat)) (ws : List Write) (rcv : Word) :
    s.transfer stall u m xs ws rcv groups = s.trapL .rstackOvf (BitVec.ofNat 64 (maskOf (s.overflowing groups)))
      (s.pick.ls.lanesOf (s.overflowing groups)) := by
  have h : ¬ (u && s.chk 2 && differ (s.fragment.members.map groups)) = true := by
    simpa only [Bool.and_eq_true, and_assoc] using hu
  have h' : (!(s.overflowing groups).isEmpty) = true := by simpa [List.isEmpty_eq_false_iff] using ho
  simp only [State.transfer, if_neg h, if_pos h']

/-! ## Traps of the lane side -/

/-- A lane instruction that traps at once leaves memory and the teams as they are and names its strands. -/
theorem State.trapL_traps {s : State} (h : s.takesTraps) (hwait : s.pick.wait = .none) {c : Cause} (hc : c ≠ .dataPoison)
    (tval : BitVec 64) (tmask : Word) :
    ∃ t, s.trapL c tval tmask = .next t ∧ TookTrap s t c tval tmask false s.pick.spc ∧
      t.pick.trec.frag = s.fragment.strands ∧ t.mem = s.mem ∧ t.teams = s.teams := by
  obtain ⟨t, e, htook, hmem⟩ := State.trapL_tookTrap h hwait hc tval tmask
  obtain ⟨hmode, hparked, hheld, -⟩ := h
  refine ⟨t, e, htook, ?_, hmem, ?_⟩
  all_goals
    rw [← Host.Outcome.next.inj e]
    simp [State.takeTrap, State.deliverTrap, hmode, hparked, hheld, hwait, hc, State.enterTrap, Pick.formRecord]

/-- A lane instruction that traps in a state u which differs from its own in counters and touched dies. -/
theorem TrapsL.of_exec {i : Instr} {s u : State} {c : Cause} {tval : BitVec 64} {tmask : Word} (hc : c ≠ .dataPoison)
    (he : exec i s = u.trapL c tval tmask) (hp : u.pick = s.pick) (hf : u.fragment = s.fragment)
    (hv : u.ctx.tvec = s.ctx.tvec) (hw : u.ctx.twin = s.ctx.twin) (hm : u.mem = s.mem) (ht : u.teams = s.teams) :
    TrapsL i s c tval tmask := by
  intro htraps hwait
  obtain ⟨t, e, htook, hfrag, hmem, hteams⟩ :=
    State.trapL_traps ((State.takesTraps_congr hp).mpr htraps) (hp ▸ hwait) hc tval tmask
  refine ⟨t, he.trans e, ?_, hfrag.trans (by rw [hf]), hmem.trans hm, hteams.trans ht⟩
  simpa only [TookTrap, hp, hv, hw] using htook

/-! ## VBR -/

/-- The pairs of a VBR in use, with the address of each target (R293). -/
def State.branchPairs (s : State) (ps : List (BitVec 4 × BitVec 12)) (np : BitVec 2) : List (BitVec 4 × Word) :=
  (ps.take (np.toNat + 1)).map (fun e => (e.1, BitVec.ofInt 32 (s.lpc.toNat + 12 * e.2.toInt)))

/-- The address that a lane takes by these pairs (R54). -/
def State.branchChoice (s : State) (pairs : List (BitVec 4 × Word)) (i : Nat) : Word :=
  (((pairs.zipIdx).find? (fun e =>
    s.predLane (10 + e.2) (e.1.1.toNat % 8) i != e.1.1.getLsbD 3)).map (fun e => e.1.2)).getD (s.lpc + 12)

/-- The groups that these pairs form in a strand. -/
def State.branchGroups (s : State) (pairs : List (BitVec 4 × Word)) (n : Nat) : List (Word × BitVec 4) :=
  laneGroups n (s.pick.ls.strand n).mask ((pairs.map (·.2) ++ [s.lpc + 12]).eraseDups) (s.branchChoice pairs)

theorem extract_low3 (p : BitVec 4) : (p.extractLsb' 0 3).toNat = p.toNat % 8 := by
  simp [BitVec.extractLsb'_toNat]

theorem State.brChoice_eq (s : State) (pairs : List (BitVec 4 × Word)) : s.brChoice pairs = s.branchChoice pairs := by
  funext i
  simp only [State.brChoice, State.branchChoice, State.pairTrue, extract_low3]

/-- VBR past its checks is a transfer by its pairs. -/
theorem exec_vbr {s : State} {st p0 p1 p2 p3 : BitVec 4} {t0 t1 t2 t3 rcv : BitVec 12} {np : BitVec 2} {u : BitVec 1}
    {pairs : List (BitVec 4 × Word)} (hp : pairs = s.branchPairs [(p0, t0), (p1, t1), (p2, t2), (p3, t3)] np)
    (hr : s.laneReady 0 0 (pairs.map (fun e => e.1.toNat % 8)) [] = true) :
    exec (.vbr st p0 p1 p2 p3 t0 t1 t2 t3 rcv np u) s = s.transfer st (u == 1) (s.lanesActive 0 0) [] []
      (BitVec.ofInt 32 (s.lpc.toNat + 12 * rcv.toInt)) (s.branchGroups pairs) := by
  have hpairs : brPairs s [p0, p1, p2, p3] [t0, t1, t2, t3] np = pairs := by
    rw [hp, State.branchPairs]
    exact List.map_congr_left fun e _ => by rw [← s.laneRelative_eq]
  show execVbr st p0 p1 p2 p3 t0 t1 t2 t3 rcv np u s = _
  simp only [execVbr, hpairs, extract_low3, State.laneGate_ready hr, State.brChoice_eq, State.laneRelative_eq]
  rfl

/-! ## Landing checks -/

/-- Targets that all land well leave no bad lane. -/
theorem State.landingAll_good {s : State} {tgt : Nat → Word} {is : List Nat} (h : ∀ i ∈ is, s.landingOf (tgt i) = .ok none) :
    s.landingAll tgt is = .ok [] := by
  induction is with
  | nil => rfl
  | cons i is ih =>
    obtain ⟨h1, h2⟩ := List.forall_mem_cons.mp h
    simp only [State.landingAll, h1, ih h2]

/-- The state in which an indirect transfer of these targets goes on (R485). -/
def State.landedState (s : State) (m : Word) (tgt : Nat → Word) : State := s.touchDies s.team.ctx (s.landingDies tgt m)

theorem State.landed_good {s : State} {m : Word} {tgt : Nat → Word} (h : ∀ i ∈ lanesOf m, s.landingOf (tgt i) = .ok none)
    (k : State → Out) : s.landed m tgt k = k (s.landedState m tgt) := by
  simp only [State.landed, State.landingAll_good h]
  rfl

theorem State.landed_bad {s : State} {m : Word} {tgt : Nat → Word} {bad : List (Nat × Nat)}
    (h : s.landingAll tgt (lanesOf m) = .ok bad) (hb : bad ≠ []) (k : State → Out) :
    s.landed m tgt k = (s.landedState m tgt).trapL .landing (BitVec.ofNat 64 (maskOf (bad.map (·.2))))
      (BitVec.ofNat 32 (maskOf (bad.map (·.1)))) := by
  obtain ⟨b, bs, rfl⟩ := List.exists_cons_of_ne_nil hb
  simp only [State.landed, h]
  rfl

/-- A target that is no instruction's address is bad for reason 0 (R296). -/
theorem State.landingOf_uneven (s : State) {t : Word} (h : t.toNat % 12 ≠ 0) : s.landingOf t = .ok (some 0) := if_pos h

theorem State.touchDies_eq (s : State) (ctx m : Nat) : ∃ c, s.touchDies ctx m = { s with ctxs := c } ∧
    ∀ k, { tget ({} : Context) c k with tdmask := (s.ctxAt k).tdmask } = s.ctxAt k := by
  unfold State.touchDies
  by_cases h : m = 0
  · exact ⟨s.ctxs, if_pos h, fun _ => rfl⟩
  · refine ⟨_, if_neg h, fun k => ?_⟩
    rw [tget_tput]
    split
    · next e => subst e; rfl
    · rfl

theorem State.touchDies_withDies (s : State) (d : Tab Die) (ctx m : Nat) :
    ({ s with dies := d } : State).touchDies ctx m = { s.touchDies ctx m with dies := d } := by
  unfold State.touchDies
  dsimp only
  split <;> rfl

/-- What the checks of an indirect transfer leave: counters of dies, and the dies that the landing checks touched. -/
structure AtLanding (s v u : State) : Prop where
  /-- u differs from v in the tables of dies. -/
  dies : ∃ d, u = { v with dies := d }
  counters : ∀ k, { u.dieAt k with counters := (s.dieAt k).counters } = s.dieAt k
  /-- v differs from s in the touched dies of contexts. -/
  ctxs : ∃ c, v = { s with ctxs := c }
  touched : ∀ k, { v.ctxAt k with tdmask := (s.ctxAt k).tdmask } = s.ctxAt k

theorem State.atLanding (s : State) (xs : List (Src × Nat)) (m : Word) (tgt : Nat → Word) :
    AtLanding s (s.touchDies s.team.ctx ((s.noteLatent xs).landingDies tgt m)) ((s.noteLatent xs).landedState m tgt) := by
  obtain ⟨d, hd, hcount⟩ := s.noteLatent_eq xs
  obtain ⟨c, hc, htouch⟩ := s.touchDies_eq s.team.ctx ((s.noteLatent xs).landingDies tgt m)
  have hu : (s.noteLatent xs).landedState m tgt = { s with dies := d, ctxs := c } := by
    rw [State.landedState]
    generalize (s.noteLatent xs).landingDies tgt m = n at hc
    rw [hd]
    exact (s.touchDies_withDies d s.team.ctx n).trans (by rw [hc])
  rw [hc, hu]
  exact ⟨⟨d, rfl⟩, fun k => by rw [hd] at hcount; exact hcount k, ⟨c, rfl⟩, htouch⟩

section
variable {s v u : State} (h : AtLanding s v u)
include h

/-- The state after the landing checks is the state before, but for dies and contexts. -/
theorem AtLanding.eq : ∃ d c, u = { s with dies := d, ctxs := c } := by
  obtain ⟨d, rfl⟩ := h.dies
  obtain ⟨c, rfl⟩ := h.ctxs
  exact ⟨d, c, rfl⟩

theorem AtLanding.pick : u.pick = s.pick := by obtain ⟨d, c, rfl⟩ := h.eq; rfl
theorem AtLanding.fragment : u.fragment = s.fragment := by obtain ⟨d, c, rfl⟩ := h.eq; rfl
theorem AtLanding.lpc : u.lpc = s.lpc := by obtain ⟨d, c, rfl⟩ := h.eq; rfl
theorem AtLanding.mem : u.mem = s.mem := by obtain ⟨d, c, rfl⟩ := h.eq; rfl
theorem AtLanding.teams : u.teams = s.teams := by obtain ⟨d, c, rfl⟩ := h.eq; rfl
theorem AtLanding.overflowing (g : Nat → List (Word × BitVec 4)) : u.overflowing g = s.overflowing g := by
  obtain ⟨d, c, rfl⟩ := h.eq; rfl
theorem AtLanding.hasRoom (m : Word) (xs : List (Src × Nat)) (ns : List Nat) : u.hasRoom m xs ns = s.hasRoom m xs ns := by
  obtain ⟨d, c, rfl⟩ := h.eq; rfl

theorem AtLanding.ctx : { u.ctx with tdmask := s.ctx.tdmask } = s.ctx := by
  have hu : u.ctx = v.ctxAt s.team.ctx := by
    obtain ⟨d, rfl⟩ := h.dies
    obtain ⟨c, rfl⟩ := h.ctxs
    rfl
  rw [hu]
  exact h.touched _

theorem AtLanding.chk (n : Nat) : u.chk n = s.chk n :=
  congrArg (·.getLsbD n) (congrArg Context.chk h.ctx :)

/-- Without the counters it is the state in which the statement of R485 puts the lanes. -/
theorem AtLanding.withDies : { u with dies := s.dies } = v := by
  obtain ⟨d, rfl⟩ := h.dies
  obtain ⟨c, rfl⟩ := h.ctxs
  rfl

/-- A lane instruction that commits after its landing checks. -/
theorem AtLanding.commits {stall : BitVec 4} {m : Word} {xs : List (Src × Nat)} {dest : Option Dest} {lat : Nat}
    {val : Nat → Word} {vs : Lanes} (move : Nat → Strand → Strand) (hx : dest ≠ some .nothing) (hv : ValuesFor dest m vs val)
    (hr : s.hasRoom m xs (destNames dest) = true) :
    ∃ t, u.laneCommit stall m xs (writesFor dest m vs lat) move = .next t ∧
      LaneResult v t stall m xs dest lat val move s.pick.seed := by
  have key := State.laneCommit_result (s := u) (d0 := s.dies) (fun k => h.counters k) (stall := stall) (xs := xs) (lat := lat)
    (move := move) (fin := id) (sd := s.pick.seed) hx hv (fun _ _ => .inl ⟨rfl, by rw [h.pick]⟩)
    ((h.hasRoom ..).trans hr)
  rwa [h.withDies] at key

/-- A trap after the landing checks. -/
theorem AtLanding.traps {i : Instr} {c : Cause} {tval : BitVec 64} {tmask : Word} (hc : c ≠ .dataPoison)
    (he : exec i s = u.trapL c tval tmask) : TrapsL i s c tval tmask :=
  .of_exec hc he h.pick h.fragment (congrArg Context.tvec h.ctx :) (congrArg Context.twin h.ctx :) h.mem h.teams
end

/-! ## VJMP and VCALL -/

/-- The groups of a jump do not depend on dies or contexts. -/
theorem AtLanding.jumpGroups {s v u : State} (h : AtLanding s v u) (m : Word) (tgt : Nat → Word) :
    u.jumpGroups m tgt = s.jumpGroups m tgt := by
  obtain ⟨d, c, rfl⟩ := h.eq; rfl

theorem State.noteLatent_jumpGroups (s : State) (xs : List (Src × Nat)) (m : Word) (tgt : Nat → Word) :
    (s.noteLatent xs).jumpGroups m tgt = s.jumpGroups m tgt := by
  obtain ⟨d, hd, -⟩ := s.noteLatent_eq xs
  rw [hd]; rfl

theorem State.noteLatent_overflowing (s : State) (xs : List (Src × Nat)) (g : Nat → List (Word × BitVec 4)) :
    (s.noteLatent xs).overflowing g = s.overflowing g := by
  obtain ⟨d, hd, -⟩ := s.noteLatent_eq xs
  rw [hd]; rfl

theorem exec_vjmp {s : State} {h : Hd} {a : Src} (hr : s.laneReady h.pi h.pn [] [(a, 1)] = true) (rcv : BitVec 12)
    (u : BitVec 1) : exec (.vjmp h a rcv u) s =
      (s.noteLatent [(a, 1)]).landed (s.lanesActive h.pi h.pn) (fun i => s.srcVal [a] i 0) fun v =>
        v.transfer h.stall (u == 1) (s.lanesActive h.pi h.pn) [(a, 1)] [] (v.laneRelative rcv)
          (v.jumpGroups (s.lanesActive h.pi h.pn) (fun i => s.srcVal [a] i 0)) := by
  show execVjmp h a rcv u s = _
  rw [execVjmp, State.laneGate_ready hr]
  rfl

theorem exec_vcall {s : State} {h : Hd} {a : Src} (hr : s.laneReady h.pi h.pn [] [(a, 1)] = true) (d : BitVec 8)
    (off : BitVec 12) (u : BitVec 1) : exec (.vcall h d a off u 1) s =
      (s.noteLatent [(a, 1)]).landed (s.lanesActive h.pi h.pn) (fun i => s.srcVal [a] i 0) fun v =>
        v.transfer h.stall (u == 1) (s.lanesActive h.pi h.pn) [(a, 1)]
          (writeTo d (s.lanesActive h.pi h.pn) (fun _ => v.lpc + 12) 4) (v.lpc + 12)
          (v.jumpGroups (s.lanesActive h.pi h.pn) (fun i => s.srcVal [a] i 0)) := by
  show execVcall h d a off u 1 s = _
  rw [execVcall, if_pos rfl, State.laneGate_ready hr]
  rfl

theorem exec_vcall_direct {s : State} {h : Hd} (hr : s.laneReady h.pi h.pn [] [] = true) (d : BitVec 8) (a : Src)
    (off : BitVec 12) (u : BitVec 1) : exec (.vcall h d a off u 0) s =
      s.transfer h.stall false (s.lanesActive h.pi h.pn) []
        (writeTo d (s.lanesActive h.pi h.pn) (fun _ => s.lpc + 12) 4) (s.lpc + 12)
        (s.jumpGroups (s.lanesActive h.pi h.pn) (fun _ => s.laneRelative off)) := by
  show execVcall h d a off u 0 s = _
  rw [execVcall, if_neg (by decide), State.laneGate_ready hr]
  rfl

/-- VBR, one result of which is where its strands go (R293). -/
theorem vbr_goes {s : State} {st p0 p1 p2 p3 : BitVec 4} {t0 t1 t2 t3 rcv : BitVec 12} {np : BitVec 2} {u : BitVec 1}
    {pairs : List (BitVec 4 × Word)} (hp : pairs = s.branchPairs [(p0, t0), (p1, t1), (p2, t2), (p3, t3)] np)
    (hr : s.laneReady 0 0 (pairs.map (fun e => e.1.toNat % 8)) [] = true)
    (ho : s.overflowing (s.branchGroups pairs) = [])
    (hu : u = 1 → s.chk 2 = true → differ (s.fragment.members.map (s.branchGroups pairs)) = false) :
    ∃ t, exec (.vbr st p0 p1 p2 p3 t0 t1 t2 t3 rcv np u) s = .next t ∧
      LaneResult s t st (s.lanesActive 0 0) [] none 0 (fun _ => 0)
        (fun n x => x.diverge (BitVec.ofInt 32 (s.lpc.toNat + 12 * rcv.toInt)) (s.branchGroups pairs n)) s.pick.seed := by
  rw [exec_vbr hp hr, State.transfer_goes (fun e => hu (eq_of_beq e)) ho]
  exact s.laneCommit_goes ..

/-- VBR that cannot move its strands (R54, R57). -/
theorem vbr_traps {s : State} {st p0 p1 p2 p3 : BitVec 4} {t0 t1 t2 t3 rcv : BitVec 12} {np : BitVec 2} {u : BitVec 1}
    {pairs : List (BitVec 4 × Word)} (hp : pairs = s.branchPairs [(p0, t0), (p1, t1), (p2, t2), (p3, t3)] np)
    (hr : s.laneReady 0 0 (pairs.map (fun e => e.1.toNat % 8)) [] = true) :
    let groups := s.branchGroups pairs
    let uneven := u = 1 ∧ s.chk 2 = true ∧ differ (s.fragment.members.map groups) = true
    let i : Instr := .vbr st p0 p1 p2 p3 t0 t1 t2 t3 rcv np u
    (uneven → TrapsL i s .uniform 0 (s.lanesActive 0 0)) ∧
    (¬ uneven → s.overflowing groups ≠ [] → TrapsL i s .rstackOvf (BitVec.ofNat 64 (maskOf (s.overflowing groups)))
      (s.pick.ls.lanesOf (s.overflowing groups))) := by
  constructor
  · rintro ⟨rfl, hc, hd⟩
    exact .of_exec (by decide) ((exec_vbr hp hr).trans (State.transfer_uneven hc hd ..)) rfl rfl rfl rfl rfl rfl
  · intro hu ho
    refine .of_exec (by decide) ((exec_vbr hp hr).trans (State.transfer_overflows (fun e => hu ?_) ho ..))
      rfl rfl rfl rfl rfl rfl
    exact ⟨eq_of_beq e.1, e.2⟩

/-- The indirect transfers, their targets landing well (R294, R295). -/
theorem indirect_goes {s : State} {h : Hd} {a : Src} {u : BitVec 1} (hr : s.laneReady h.pi h.pn [] [(a, 1)] = true)
    (hl : ∀ i ∈ lanesOf (s.lanesActive h.pi h.pn),
      (s.noteLatent [(a, 1)]).landingOf (s.srcVal [a] i 0) = .ok none) (d : BitVec 8) (rcv : BitVec 12) :
    let m := s.lanesActive h.pi h.pn
    let tgt (i : Nat) : Word := s.srcVal [a] i 0
    let v := s.touchDies s.team.ctx ((s.noteLatent [(a, 1)]).landingDies tgt m)
    let groups := s.jumpGroups m tgt
    s.overflowing groups = [] → (u = 1 → s.chk 2 = true → differ (s.fragment.members.map groups) = false) →
    (∃ t, exec (.vjmp h a rcv u) s = .next t ∧ LaneResult v t h.stall m [(a, 1)] none 0 (fun _ => 0)
      (fun n x => x.diverge (BitVec.ofInt 32 (s.lpc.toNat + 12 * rcv.toInt)) (groups n)) s.pick.seed) ∧
    (s.hasRoom m [(a, 1)] (destNames (destOf d)) = true →
      ∃ t, exec (.vcall h d a 0 u 1) s = .next t ∧ LaneResult v t h.stall m [(a, 1)] (destOf d) 4 (fun _ => s.lpc + 12)
        (fun n x => x.diverge (s.lpc + 12) (groups n)) s.pick.seed) := by
  intro m tgt v groups ho hu
  have hat : AtLanding s v ((s.noteLatent [(a, 1)]).landedState m tgt) := s.atLanding [(a, 1)] m tgt
  have hu' (e : (u == 1) = true) (hc : ((s.noteLatent [(a, 1)]).landedState m tgt).chk 2 = true) :
      differ (((s.noteLatent [(a, 1)]).landedState m tgt).fragment.members.map groups) = false := by
    rw [hat.fragment]
    exact hu (eq_of_beq e) (hat.chk 2 ▸ hc)
  have ho' := (hat.overflowing groups).trans ho
  constructor
  · rw [exec_vjmp hr, State.landed_good hl, hat.jumpGroups, State.transfer_goes hu' ho', State.laneRelative_eq, hat.lpc]
    exact hat.commits (dest := none) (vs := []) _ nofun trivial (s.hasRoom_nil ..)
  · intro hroom
    obtain ⟨vs, hw, hvs⟩ := writeTo_eq d m (fun _ => s.lpc + 12) 4
    rw [exec_vcall hr, State.landed_good hl, hat.jumpGroups, State.transfer_goes hu' ho', hat.lpc, hw]
    exact hat.commits _ (destOf_ne_nothing d) hvs hroom

/-- The indirect transfers with a target that lands badly (R296). -/
theorem indirect_traps {s : State} {h : Hd} {a : Src} (hr : s.laneReady h.pi h.pn [] [(a, 1)] = true)
    {bad : List (Nat × Nat)} (hl : (s.noteLatent [(a, 1)]).landingAll (fun i => s.srcVal [a] i 0)
      (lanesOf (s.lanesActive h.pi h.pn)) = .ok bad) (hb : bad ≠ []) (d : BitVec 8) (rcv : BitVec 12) (u : BitVec 1) :
    ∀ i ∈ [Instr.vjmp h a rcv u, .vcall h d a 0 u 1], TrapsL i s .landing (BitVec.ofNat 64 (maskOf (bad.map (·.2))))
      (BitVec.ofNat 32 (maskOf (bad.map (·.1)))) := by
  have hat := s.atLanding [(a, 1)] (s.lanesActive h.pi h.pn) (fun i => s.srcVal [a] i 0)
  have hj := (exec_vjmp hr rcv u).trans (State.landed_bad hl hb _)
  have hc := (exec_vcall hr d 0 u).trans (State.landed_bad hl hb _)
  intro i hi
  obtain rfl | rfl := List.mem_pair.mp hi
  · exact hat.traps nofun hj
  · exact hat.traps nofun hc

/-- VCALL of a relative target (R295). -/
theorem direct_goes {s : State} {h : Hd} {d : BitVec 8} (hf : s.laneFit h [] [] (destOf d) = true) (a : Src) (off : BitVec 12)
    (ho : s.overflowing (s.jumpGroups (s.lanesActive h.pi h.pn) (fun _ => s.laneRelative off)) = []) :
    ∃ t, exec (.vcall h d a off 0 0) s = .next t ∧
      LaneResult s t h.stall (s.lanesActive h.pi h.pn) [] (destOf d) 4 (fun _ => s.lpc + 12)
        (fun n x => x.diverge (s.lpc + 12) (s.jumpGroups (s.lanesActive h.pi h.pn) (fun _ => s.laneRelative off) n))
        s.pick.seed := by
  obtain ⟨hr, hroom⟩ := Bool.and_eq_true_iff.mp hf
  obtain ⟨vs, hw, hvs⟩ := writeTo_eq d (s.lanesActive h.pi h.pn) (fun _ => s.lpc + 12) 4
  rw [exec_vcall_direct hr, State.transfer_goes (u := false) (fun e => nomatch e) ho, hw]
  exact State.laneCommit_result (d0 := s.dies) (fun _ => rfl) (destOf_ne_nothing d) hvs (fun _ _ => .inl ⟨rfl, rfl⟩) hroom

/-- Settles O29: every transfer is one rule, which its groups stop or its strands follow; an indirect one meets it in a state
that differs in counters and touched dies. -/
theorem laneTransfers : Obligations.LaneTransfers := by
  intro s h d a rcv u
  refine ⟨fun p0 p1 p2 p3 t0 t1 t2 t3 np st hr ho hu => ?_, fun p0 p1 p2 p3 t0 t1 t2 t3 np st hr => ?_,
    fun lanes n order choose _ j hj hl _ g hg => laneGroups_lane hj hl hg, fun x r c m m' rest => ?_, ?_, ?_,
    fun t => s.landingOf_uneven⟩
  · exact vbr_goes rfl hr ho hu
  · exact vbr_traps rfl hr
  · exact ⟨x.diverge_one r c m, fun c' => x.diverge_more r c c' m m' rest⟩
  · intro w m tgt v groups hr
    have hg : groups = s.jumpGroups m tgt := funext fun n => congrFun (s.noteLatent_jumpGroups [(a, 1)] m tgt) n
    refine ⟨fun hl ho hu => ?_, fun bad hl hb => indirect_traps hr hl hb d rcv u⟩
    rw [State.noteLatent_overflowing, hg] at ho
    rw [hg] at hu ⊢
    obtain ⟨hj, hc⟩ := indirect_goes hr hl d rcv ho hu
    exact ⟨hj, fun hroom _ => hc hroom⟩
  · intro off m groups hf ho _
    have hg : groups = s.jumpGroups m (fun _ => s.laneRelative off) := by
      rw [State.laneRelative_eq]
    rw [hg] at ho ⊢
    exact direct_goes hf a off ho

end Sys2Proof.Machine
end

section
/-! SUPPORT. Results that reach their registers, lane blocks that start and end, and what the issue of lane instructions
moves (R48 to R50, R60, R63, R105, R107, R165, R298). -/

namespace Sys2Proof.Machine

/-! ## Results -/

/-- A table with the entries of a list, each the value of its key. -/
theorem tget_foldl_tput {β : Type} {key : β → Nat} {val : β → Word} {g : Nat → Word} {l : List β}
    (h : ∀ e ∈ l, val e = g (key e)) (t : Tab Word) (r : Nat) :
    tget 0 (l.foldl (fun t e => tput 0 t (key e) (val e)) t) r = if r ∈ l.map key then g r else tget 0 t r := by
  induction l generalizing t with
  | nil => simp
  | cons e l ih =>
    obtain ⟨he, hl⟩ := List.forall_mem_cons.mp h
    rw [List.foldl_cons, ih hl, tget_tput, he]
    by_cases h1 : r ∈ l.map key
    · simp [h1]
    · by_cases h2 : r = key e <;> simp [h1, h2]

/-- The values that a write puts into a name. -/
theorem Name.write_val (x : Name) (m : Word) (vs : Lanes) (i : Nat) :
    tget 0 (x.write m vs).val i = if m.getLsbD i = true then tget 0 vs i else tget 0 x.val i := by
  have h := tget_foldl_tput (key := id) (val := tget 0 vs) (g := tget 0 vs) (l := lanesOf m) (fun _ _ => rfl) x.val i
  simp only [List.map_id, mem_lanesOf] at h
  exact h

/-- The lanes of a list whose value is not 0. -/
theorem getLsbD_foldl_nonzero (vs : Lanes) (l : List Nat) (a : Word) {i : Nat} (hi : i < 32) :
    (l.foldl (fun (a : Word) k => if tget 0 vs k = 0 then a else a ||| (1 <<< k)) a).getLsbD i =
      (a.getLsbD i || (decide (i ∈ l) && decide (tget 0 vs i ≠ 0))) := by
  induction l generalizing a with
  | nil => simp
  | cons k l ih =>
    rw [List.foldl_cons, ih]
    by_cases hk : tget 0 vs k = 0
    · rw [if_pos hk]
      by_cases e : i = k
      · subst e
        simp only [hk, ne_eq, not_true, decide_false, Bool.and_false]
      · simp only [List.mem_cons, e, false_or]
    · have h1 : (BitVec.ofNat 32 (1 <<< k)).getLsbD i = decide (k = i) := by
        rw [BitVec.getLsbD_ofNat, Nat.one_shiftLeft, Nat.testBit_two_pow]
        simp [hi]
      rw [if_neg hk, BitVec.getLsbD_or]
      refine (congrArg (fun b => (a.getLsbD i || b) || _) h1).trans ?_
      by_cases e : i = k
      · subst e
        simp only [hk, List.mem_cons_self, decide_true, ne_eq, not_false_eq_true, Bool.and_true, Bool.or_true, Bool.true_or]
      · simp only [List.mem_cons, e, Ne.symm e, false_or, decide_false, Bool.or_false]

/-- What a delivered result reads of a pick after it. -/
theorem Delivered.of_eq {p q q' : Pick} {r : Pending} (h : Delivered p q r) (hn : q'.names = q.names)
    (hp : q'.preds = q.preds) (hb : q'.blocks = q.blocks) : Delivered p q' r := by
  have e1 (n : Nat) : q'.name n = q.name n := by rw [Pick.name, hn]; rfl
  have e2 (n : Nat) : q'.p n = q.p n := by rw [Pick.p, hp]; rfl
  have e3 (n : Nat) : q'.k n = q.k n := by rw [Pick.k, hb]; rfl
  simpa only [Delivered, e1, e2, e3] using h

/-- A result that reaches no register. -/
theorem Delivered.nothing {p : Pick} {r : Pending} (hv : ∀ n, r.dest = .vreg n → (p.name n).st ≠ .allocated)
    (hp : ∀ n, r.dest = .pred n → n = 0) (hk : ∀ n, r.dest = .kreg n → r.mask = 0 ∨ p.blocks = []) :
    Delivered p p r := by
  refine ⟨fun n => rfl, fun n i => ?_, fun n i hn => ?_, fun n => ?_⟩
  · rw [if_neg fun h => hv n h.1 h.2.1]
  · rw [if_neg fun h => hn (hp n h.1)]
  · rw [if_neg fun h => (hk n h.1).elim h.2.1 h.2.2]

theorem Delivered.vreg {p : Pick} {r : Pending} {k : Nat} (hd : r.dest = .vreg k) (hs : (p.name k).st = .allocated) :
    Delivered p (p.setName k ((p.name k).write r.mask r.vals)) r := by
  refine ⟨fun n => ?_, fun n i => ?_, fun n i _ => ?_, fun n => ?_⟩
  · rw [Pick.setName_name]
    split
    · next e => subst e; rfl
    · rfl
  · rw [Pick.setName_name, hd]
    by_cases e : n = k
    · subst e
      rw [if_pos rfl, Name.write_val]
      simp only [hs, true_and]
    · rw [if_neg e, if_neg fun h => e (Dest.vreg.inj h.1).symm]
  · simp only [hd, reduceCtorEq, false_and, if_false]
    rfl
  · simp only [hd, reduceCtorEq, false_and, if_false]
    rfl

/-- The bits of a lane predicate to which a result was written (R274). -/
theorem getLsbD_predWrite (x m : Word) (vs : Lanes) (i : Nat) :
    ((x &&& ~~~m) ||| (lanesOf m).foldl (fun (a : Word) k => if tget 0 vs k = 0 then a else a ||| (1 <<< k)) 0).getLsbD i =
      if m.getLsbD i = true then decide (tget 0 vs i ≠ 0) else x.getLsbD i := by
  by_cases hi : i < 32
  · rw [BitVec.getLsbD_or, getLsbD_foldl_nonzero vs _ _ hi, getLsbD_and_not]
    by_cases hm : m.getLsbD i = true
    · have : i ∈ lanesOf m := mem_lanesOf.mpr hm
      simp [hm, this]
    · have : i ∉ lanesOf m := fun h => hm (mem_lanesOf.mp h)
      simp [hm, this]
  · have hge : 32 ≤ i := Nat.le_of_not_lt hi
    rw [BitVec.getLsbD_of_ge _ _ hge, BitVec.getLsbD_of_ge _ _ hge, BitVec.getLsbD_of_ge _ _ hge, if_neg (by decide)]

theorem Delivered.pred {p q : Pick} {r : Pending} {k : Nat} (hd : r.dest = .pred k) (hk : k ≠ 0) (hn : q.names = p.names)
    (hb : q.blocks = p.blocks) (hp : q.preds = tput 0 p.preds k ((p.p k &&& ~~~r.mask) |||
      (lanesOf r.mask).foldl (fun (a : Word) i => if tget 0 r.vals i = 0 then a else a ||| (1 <<< i)) 0)) :
    Delivered p q r := by
  have hname (n : Nat) : q.name n = p.name n := by rw [Pick.name, hn]; rfl
  refine ⟨fun n => by rw [hname], fun n i => ?_, fun n i h0 => ?_, fun n => ?_⟩
  · simp only [hd, reduceCtorEq, false_and, if_false, hname]
  · rw [Pick.p, if_neg h0, hp, tget_tput, hd]
    by_cases e : n = k
    · subst e
      rw [if_pos rfl, getLsbD_predWrite]
      simp only [true_and]
    · rw [if_neg e, if_neg fun h => e (Dest.pred.inj h.1).symm, Pick.p, if_neg h0]
  · simp only [hd, reduceCtorEq, false_and, if_false, Pick.k, hb]

theorem Delivered.kreg {p q : Pick} {r : Pending} {k : Nat} (hd : r.dest = .kreg k) (hm : r.mask ≠ 0) {b b' : Block}
    {bs : List Block} (hb : p.blocks = b :: bs) (hn : q.names = p.names) (hp : q.preds = p.preds)
    (hq : q.blocks = b' :: bs) (hk : b'.k = tput 0 b.k k (tget 0 r.vals 0)) : Delivered p q r := by
  have hname (n : Nat) : q.name n = p.name n := by rw [Pick.name, hn]; rfl
  refine ⟨fun n => by rw [hname], fun n i => ?_, fun n i h0 => ?_, fun n => ?_⟩
  · simp only [hd, reduceCtorEq, false_and, if_false, hname]
  · simp only [hd, reduceCtorEq, false_and, if_false, Pick.p, hp]
  · have e1 : q.k n = tget 0 b'.k n := by simp only [Pick.k, hq]
    have e2 : p.k n = tget 0 b.k n := by simp only [Pick.k, hb]
    rw [e1, e2, hk, tget_tput, hd, hb]
    by_cases e : n = k
    · subst e
      rw [if_pos rfl, if_pos ⟨rfl, hm, nofun⟩]
    · rw [if_neg e, if_neg fun h => e (Dest.kreg.inj h.1).symm]

/-- A delivered result is in its registers, and nothing else is (R105, R107). -/
theorem Pick.deliver_delivered (p : Pick) (r : Pending) : Delivered p (p.deliver r) r := by
  unfold Pick.deliver
  split
  case h_1 n hd =>
    by_cases hs : (p.name n).st = .allocated
    · exact (if_pos hs : (if _ then _ else _) = _) ▸ Delivered.vreg hd hs
    · exact (if_neg hs : (if _ then _ else _) = _) ▸
        Delivered.nothing (fun k hk => by rw [hd] at hk; cases hk; exact hs) (fun k hk => by simp [hd] at hk)
          (fun k hk => by simp [hd] at hk)
  case h_2 n hd =>
    split
    · next h0 =>
      exact Delivered.nothing (fun k hk => by simp [hd] at hk) (fun k hk => by rw [hd] at hk; cases hk; exact h0)
        (fun k hk => by simp [hd] at hk)
    · next h0 => exact Delivered.pred hd h0 rfl rfl rfl
  case h_3 n hd =>
    split
    · next h0 =>
      exact Delivered.nothing (fun k hk => by simp [hd] at hk) (fun k hk => by simp [hd] at hk) fun _ _ => .inl h0
    · next h0 =>
      unfold Pick.onBlock
      split
      · next hb => exact Delivered.kreg hd h0 hb (p.setBlocks_names _) (p.setBlocks_preds _) (p.setBlocks_blocks _) rfl
      · next hb =>
        exact Delivered.nothing (fun k hk => by simp [hd] at hk) (fun k hk => by simp [hd] at hk) fun _ _ => .inr hb
  case h_4 hd =>
    exact Delivered.nothing (fun k hk => by simp [hd] at hk) (fun k hk => by simp [hd] at hk) (fun k hk => by simp [hd] at hk)

/-- A finished result is delivered; its operation leaves its batch if it has one (R105, R165). -/
theorem Pick.finish_result (p : Pick) (r : Pending) : Delivered p (p.finish r) r ∧ (p.finish r).clk = p.clk ∧
    ∀ n, (p.finish r).path n = if r.isVar = true ∧ n = r.path ∧ n < 2 then
      ((p.path n).onBatch r.batch (fun b => { b with ops := b.ops - 1 })).settle else p.path n := by
  have hdel := p.deliver_delivered r
  by_cases h : r.isVar = true ∧ r.path < 2
  · have e : p.finish r = { (p.deliver r).opLeave r.path r.batch none with moved := (p.deliver r).moved + r.bytes } := if_pos h
    refine ⟨?_, ?_, fun n => ?_⟩
    · rw [e, Pick.opLeave, Pick.setPath]
      generalize p.deliver r = d at hdel
      exact hdel.of_eq rfl rfl rfl
    · rw [e]; exact (p.deliver_paths r).2
    · have e2 : (p.finish r).path n = ((p.deliver r).opLeave r.path r.batch none).path n := by rw [e]; rfl
      rw [e2, Pick.opLeave_path, Pick.deliver_path]
      by_cases hn : n = r.path
      · rw [if_pos hn, if_pos ⟨h.1, hn, hn ▸ h.2⟩]
      · rw [if_neg hn, if_neg fun x => hn x.2.1]
  · have e : p.finish r = p.deliver r := if_neg h
    rw [e]
    refine ⟨hdel, (p.deliver_paths r).2, fun n => ?_⟩
    rw [if_neg (by rintro ⟨hv, rfl, hn⟩; exact h ⟨hv, hn⟩), p.deliver_path]

/-- One result delivered out of those pending. -/
theorem Pick.flush_one {p : Pick} {f : Pending → Bool} {r : Pending} (h : p.pending.filter f = [r]) :
    p.flush f = { p.finish r with pending := p.pending.filter (fun q => !f q) } := by
  simp only [Pick.flush, h, List.foldl_cons, List.foldl_nil]

/-- What the delivery of one result leaves of a pick, whose clk may move on. -/
theorem Pick.flush_one_result {p : Pick} {f : Pending → Bool} {r : Pending} (h : p.pending.filter f = [r]) (clk : Nat) :
    p.sameButResults { p.flush f with clk := clk } ∧ Delivered p { p.flush f with clk := clk } r ∧
    (p.flush f).pending = p.pending.filter (fun q => !f q) ∧ (p.flush f).clk = p.clk ∧
    ∀ n, (p.flush f).path n = if r.isVar = true ∧ n = r.path ∧ n < 2 then
      ((p.path n).onBatch r.batch (fun b => { b with ops := b.ops - 1 })).settle else p.path n := by
  obtain ⟨hd, hc, hp⟩ := p.finish_result r
  rw [Pick.flush_one h]
  exact ⟨(p.finish_onlyResults r).trans rfl, hd.of_eq rfl rfl rfl, rfl, hc, hp⟩

/-- VARIABLE_LATENCY_RESULT (R105, R107, R165). -/
theorem variableResult_delivers {s : State} {r : Pending} (hv : r.isVar = true)
    (h1 : s.pick.pending.filter (fun x => x.isVar && x.seq == r.seq) = [r])
    (h2 : ∀ x ∈ s.pick.pending, x.isVar = false → x.seq < r.seq → x.dest ≠ r.dest) :
    ∃ t, exec (.variableLatencyResult r.seq) s = .next t ∧
      PickMoves s t ∧ s.pick.sameButResults t.pick ∧ Delivered s.pick t.pick r ∧ t.pick.clk = s.pick.clk ∧
      t.pick.pending = s.pick.pending.filter (fun x => !(x.isVar && x.seq == r.seq)) ∧
      ∀ n, t.pick.path n = if n = r.path ∧ n < 2 then
        ((s.pick.path n).onBatch r.batch (fun b => { b with ops := b.ops - 1 })).settle else s.pick.path n := by
  have hfind : s.pick.pending.find? (fun x => x.isVar && x.seq == r.seq) = some r := by
    rw [← List.head?_filter, h1]; rfl
  have hany : s.pick.pending.any (fun q => !q.isVar && decide (q.seq < r.seq) && q.dest == r.dest) = false := by
    rw [List.any_eq_false]
    intro x hx hb
    simp only [Bool.and_eq_true, Bool.not_eq_true', decide_eq_true_eq, beq_iff_eq] at hb
    exact h2 x hx hb.1.1 hb.1.2 hb.2
  obtain ⟨hsame, hdel, hpend, hclk, hpath⟩ := Pick.flush_one_result h1 (s.pick.flush (fun x => x.isVar && x.seq == r.seq)).clk
  refine ⟨s.setPick (s.pick.flush (fun x => x.isVar && x.seq == r.seq)), ?_, s.setPick_moves _, ?_⟩
  · show execVariableLatencyResult r.seq s = _
    simp only [execVariableLatencyResult, hfind, hany]
    rfl
  · rw [State.setPick_pick]
    exact ⟨hsame, hdel, hclk, hpend, fun n => by rw [hpath n]; simp only [hv, true_and]⟩

/-- FIXED_LATENCY_WRITE (R105). -/
theorem fixedWrite_delivers {s : State} {r : Pending} (hv : r.isVar = false) (hclk : s.pick.clk < r.due)
    (h1 : s.pick.pending.filter (fun x => !x.isVar && decide (x.due ≤ r.due)) = [r]) :
    ∃ t, exec .fixedLatencyWrite s = .next t ∧
      PickMoves s t ∧ s.pick.sameButResults t.pick ∧ Delivered s.pick t.pick r ∧ t.pick.clk = r.due ∧
      t.pick.pending = s.pick.pending.filter (fun x => !(!x.isVar && decide (x.due ≤ r.due))) ∧
      ∀ n, t.pick.path n = s.pick.path n := by
  have hmem : r ∈ s.pick.pending := (List.mem_filter.mp (h1 ▸ List.mem_singleton_self r)).1
  have hmin : ((s.pick.pending.filter (fun q => !q.isVar)).map (·.due)).min? = some r.due := by
    rw [List.min?_eq_some_iff]
    refine ⟨List.mem_map_of_mem (List.mem_filter.mpr ⟨hmem, by rw [hv]; rfl⟩), fun d hd => ?_⟩
    obtain ⟨x, hx, rfl⟩ := List.mem_map.mp hd
    obtain ⟨hx, hf⟩ := List.mem_filter.mp hx
    by_contra hlt
    have : x ∈ [r] := by
      rw [← h1, List.mem_filter]
      exact ⟨hx, by rw [hf]; simpa using Nat.le_of_not_le hlt⟩
    exact hlt (List.mem_singleton.mp this ▸ Nat.le_refl _)
  obtain ⟨hsame, hdel, hpend, -, hpath⟩ := Pick.flush_one_result h1 r.due
  refine ⟨s.setPick (s.pick.advanceTo r.due), ?_, s.setPick_moves _, ?_⟩
  · show execFixedLatencyWrite s = _
    simp only [execFixedLatencyWrite, hmin]
  · rw [State.setPick_pick, show s.pick.advanceTo r.due = _ from if_neg (Nat.not_le.mpr hclk)]
    exact ⟨hsame, hdel, rfl, hpend, fun n => (hpath n).trans (by rw [if_neg fun x => by simp [hv] at x])⟩

/-! ## The lane side of a pick -/

/-- A pick whose queue and strands in use are replaced: the rest, and the lane side of the other mode, stand. -/
theorem Pick.laneSide_eq (p : Pick) (bs : List Block) (l : LaneSet) : ∃ q hq ls hls,
    (p.setBlocks bs).setLs l = { p with queue := q, hqueue := hq, lanes := ls, hlanes := hls } ∧
    p.otherSide ((p.setBlocks bs).setLs l) := by
  unfold Pick.otherSide Pick.setLs Pick.setBlocks
  cases hm : p.mode
  · exact ⟨bs, p.hqueue, l, p.hlanes, by simp, by simp⟩
  · exact ⟨p.queue, bs, p.lanes, l, by simp, by simp⟩

/-- What of a pick stands when its queue and strands are replaced. -/
theorem Pick.otherSide_of_eq {p q q' : Pick} (h : p.otherSide q) (h1 : q'.queue = q.queue) (h2 : q'.lanes = q.lanes)
    (h3 : q'.hqueue = q.hqueue) (h4 : q'.hlanes = q.hlanes) : p.otherSide q' := by
  simpa only [Pick.otherSide, h1, h2, h3, h4] using h

theorem LaneSet.start_strand (target fmtr : Word) (clk : Nat) {n : Nat} (hn : n < 8) :
    (LaneSet.start target fmtr clk).strand n = { lpc := some target, mask := 15, fmtr } := by
  interval_cases n <;> rfl

/-- A pick whose oldest block starts at a write number and clk (R48, R49). -/
def Pick.blockStarted (p : Pick) (b : Block) (bs : List Block) (w clk : Nat) : Pick :=
  (p.setBlocks ({ b with started := true, since := w } :: bs)).setLs (LaneSet.start b.target b.fmtr clk)

/-- BLOCK_START of the oldest block, which has not started (R48, R49). -/
theorem blockStart_starts {s : State} {b : Block} {bs : List Block} (hb : s.pick.blocks = b :: bs) (hs : b.started = false)
    (hl : s.laneLive = true) (hp : s.team.phase.isSaving = false ∨ s.pick.mode = true) :
    ∃ t, exec .blockStart s = .next t ∧
      PickMoves { s with wlog := t.wlog } t ∧ SameLog s t ∧ s.pick.otherSide t.pick ∧
      { t.pick with queue := s.pick.queue, hqueue := s.pick.hqueue, lanes := s.pick.lanes, hlanes := s.pick.hlanes } =
        s.pick ∧
      t.pick.blocks = { b with started := true, since := s.nextW } :: bs ∧
      (∀ n < 8, t.pick.ls.strand n = { lpc := some b.target, mask := 15, fmtr := b.fmtr }) ∧
      ∃ f, t.pick.ls.frags = [f] ∧ f.strands = 255 ∧ f.waitAt = none ∧ f.hold = none := by
  have he : exec .blockStart s =
      .next ((s.setPick (s.pick.blockStarted b bs s.nextW s.fresh)).learn (lanesKey s.cur) b.knows) := by
    have hsave : (s.team.phase.isSaving && !s.pick.mode) = false := by
      rcases hp with h | h <;> simp [h]
    show execBlockStart s = _
    simp only [execBlockStart, hb, hs, hl, hsave]
    rfl
  have hls' : (s.pick.blockStarted b bs s.nextW s.fresh).ls = LaneSet.start b.target b.fmtr s.fresh := Pick.setLs_ls _ _
  have hblocks : (s.pick.blockStarted b bs s.nextW s.fresh).blocks = { b with started := true, since := s.nextW } :: bs :=
    (Pick.setLs_blocks _ _).trans (Pick.setBlocks_blocks _ _)
  obtain ⟨q, hq, ls, hls, hside, hother⟩ := s.pick.laneSide_eq ({ b with started := true, since := s.nextW } :: bs)
    (LaneSet.start b.target b.fmtr s.fresh)
  change s.pick.blockStarted b bs s.nextW s.fresh = _ at hside
  change s.pick.otherSide (s.pick.blockStarted b bs s.nextW s.fresh) at hother
  rw [he]
  generalize s.pick.blockStarted b bs s.nextW s.fresh = p at hls' hblocks hside hother
  obtain ⟨l, hlearn, hsame⟩ := (s.setPick p).learn_eq (lanesKey s.cur) b.knows
  have hpick : ({ s.setPick p with wlog := l } : State).pick = p := s.setPick_pick p
  rw [hlearn]
  refine ⟨_, rfl, ⟨rfl, fun k hk => State.setPick_pickAt_ne s p hk⟩, hsame, ?_⟩
  rw [hpick, hls']
  exact ⟨hother, by rw [hside], hblocks, fun n hn => LaneSet.start_strand _ _ _ hn, _, rfl, rfl, rfl, rfl⟩

/-! ## The end of a block -/

/-- No pending result is of the kind that a block's end delivers. -/
theorem Pick.flushInOrder_none {p : Pick} {f : Pending → Bool} (h : ∀ q ∈ p.pending, f q = false) : p.flushInOrder f = p := by
  have hany (y : Pending) : p.pending.any (fun x => f x && x.dest == y.dest && decide (y.seq < x.seq)) = false := by
    rw [List.any_eq_false]
    intro x hx
    simp [h x hx]
  have hf (q : Pending) (hq : q ∈ p.pending) : (f q || (q.dest != .nothing &&
      p.pending.any (fun x => f x && x.dest == q.dest && decide (q.seq < x.seq)))) = false := by
    rw [h q hq, hany, Bool.and_false, Bool.or_false]
  have h1 : p.pending.filter (fun q => f q || (q.dest != .nothing &&
      p.pending.any (fun x => f x && x.dest == q.dest && decide (q.seq < x.seq)))) = [] :=
    List.filter_eq_nil_iff.mpr fun q hq => by rw [hf q hq]; exact Bool.false_ne_true
  have h2 : p.pending.filter (fun q => !(f q || (q.dest != .nothing &&
      p.pending.any (fun x => f x && x.dest == q.dest && decide (q.seq < x.seq))))) = p.pending :=
    List.filter_eq_self.mpr fun q hq => by rw [hf q hq]; rfl
  simp only [Pick.flushInOrder, Pick.flush, h1, h2, List.foldl_nil]

/-- Every strand is at LEND. -/
theorem LaneSet.strandMask_all {l : LaneSet} {f : Strand → Bool} (h : ∀ n < 8, f (l.strand n) = true) :
    l.strandMask f = 255 := by
  have : (List.range 8).filter (fun n => f (l.strand n)) = List.range 8 :=
    List.filter_eq_self.mpr fun n hn => h n (List.mem_range.mp hn)
  rw [LaneSet.strandMask, this]
  rfl

/-- The registers that a copy-back writes (R50). -/
theorem Block.mem_copies {b : Block} {r : Nat} : r ∈ b.copies.map (·.1) ↔
    ∃ n, n < 16 ∧ r = b.capBase + n ∧ b.kWritten.getLsbD n = true ∧ ¬ (b.atW0 = true ∧ n = 0) := by
  simp only [Block.copies, List.map_map, List.mem_map, List.mem_filter, List.mem_range, Function.comp, Bool.and_eq_true,
    Bool.not_eq_true', Bool.and_eq_false_iff, beq_eq_false_iff_ne]
  constructor
  · rintro ⟨n, ⟨hn, hw, h0⟩, rfl⟩
    exact ⟨n, hn, rfl, hw, fun h => h0.elim (fun e => by simp [e] at h) (fun e => e h.2)⟩
  · rintro ⟨n, hn, rfl, hw, h0⟩
    refine ⟨n, ⟨hn, hw, ?_⟩, rfl⟩
    by_cases h : b.atW0 = true
    · exact .inr fun e => h0 ⟨h, e⟩
    · exact .inl (by simpa using h)

theorem Block.copies_val {b : Block} : ∀ e ∈ b.copies, e.2 = tget 0 b.k (e.1 - b.capBase) := by
  intro e he
  obtain ⟨n, -, rfl⟩ := List.mem_map.mp he
  simp

/-- A block that ends leaves the batches of LD and ST alone (R165). -/
theorem Pick.blockLeave_path_other (p : Pick) (b : Block) {n : Nat} (hn : 2 ≤ n) : (p.blockLeave b).path n = p.path n := by
  have h (es : List (Nat × Nat)) (hes : ∀ e ∈ es, e.2 < 2) (q : Pick) : (es.foldl Pick.leaveBatch q).path n = q.path n := by
    induction es generalizing q with
    | nil => rfl
    | cons e es ih =>
      obtain ⟨h1, h2⟩ := List.forall_mem_cons.mp hes
      rw [List.foldl_cons, ih h2, Pick.leaveBatch, Pick.setPath_path, if_neg (by omega)]
  refine h _ (fun e he => ?_) p
  obtain ⟨-, h2, -⟩ := List.mem_zipIdx he
  simp only [List.length_take] at h2
  omega

theorem Pick.blockLeave_path (p : Pick) {b : Block} {x y : Nat} {l : List Nat} (hb : b.batches = x :: y :: l) :
    (p.blockLeave b).path 0 = ((p.path 0).onBatch x (fun c => { c with blocks := c.blocks - 1 })).settle ∧
    (p.blockLeave b).path 1 = ((p.path 1).onBatch y (fun c => { c with blocks := c.blocks - 1 })).settle := by
  have e : p.blockLeave b = (p.leaveBatch (x, 0)).leaveBatch (y, 1) := by
    rw [Pick.blockLeave, hb]
    rfl
  rw [e]
  constructor
  · rw [Pick.leaveBatch, Pick.setPath_path, if_neg Nat.zero_ne_one, Pick.leaveBatch, Pick.setPath_path, if_pos rfl]
  · rw [Pick.leaveBatch, Pick.setPath_path, if_pos rfl, Pick.leaveBatch, Pick.setPath_path, if_neg Nat.one_ne_zero]

/-- A pick whose oldest block ended: the copy-back is made, and the block waits to be covered (R50, R51). -/
def Pick.copiedBack (p : Pick) (b : Block) (bs : List Block) (e : Ended) : Pick :=
  let p1 := { (p.setBlocks bs).setLs {} with
    sregs := b.copies.foldl (fun (t : Tab Word) (c : Nat × Word) => tput 0 t c.1 c.2) p.sregs
    spoison := p.spoison.filter (fun r => !(b.copies.map Prod.fst).contains r) ++ b.badCopies }
  if p.mode then { p1 with huncovered := p1.huncovered ++ [e] } else { p1 with uncovered := p1.uncovered ++ [e] }

theorem Pick.copiedBack_eq (p : Pick) (b : Block) (bs : List Block) (e : Ended) : ∃ po u hu,
    p.copiedBack b bs e = { (p.setBlocks bs).setLs {} with
      sregs := b.copies.foldl (fun (t : Tab Word) (c : Nat × Word) => tput 0 t c.1 c.2) p.sregs
      spoison := po, uncovered := u, huncovered := hu } := by
  unfold Pick.copiedBack
  dsimp only
  split <;> exact ⟨_, _, _, rfl⟩

/-- BLOCK_END of a block with every strand at LEND and none of its results on the way. -/
theorem exec_blockEnd {s : State} {b : Block} {bs : List Block} (hb : s.pick.blocks = b :: bs) (hs : b.started = true)
    (hl : s.laneLive = true) (hlend : ∀ n < 8, (s.pick.ls.strand n).lpc = none)
    (hq : ∀ q ∈ s.pick.pending, (q.isVar = false ∨ q.dest = .nothing) ∧ ∀ n, q.dest ≠ .kreg n) :
    ∃ e, exec .blockEnd s = .next (s.setPick ((s.pick.copiedBack b bs e).blockLeave b)) := by
  have hmask : s.pick.ls.strandMask Strand.atLend = 255 :=
    LaneSet.strandMask_all fun n hn => by rw [Strand.atLend, hlend n hn]; rfl
  refine ⟨{
    base := b.capBase
    prior := b.copies.foldl (fun (t : Tab Word) (c : Nat × Word) => tins c.1 (tget 0 s.pick.sregs c.1) t) []
    ids := s.blockIds b }, ?_⟩
  show execBlockEnd s = _
  have hcond : (!b.started || !s.laneLive || s.pick.ls.strandMask Strand.atLend != 255) = false := by
    rw [hs, hl, hmask]; rfl
  simp only [execBlockEnd, hb, hcond]
  rw [Pick.flushInOrder_none fun q hq' => ?_]
  · simp only [hb]
    rfl
  · obtain ⟨hv, hk⟩ := hq q hq'
    cases hd : q.dest with
    | kreg n => exact absurd hd (hk n)
    | nothing => rfl
    | vreg n => exact hv.resolve_right (by rw [hd]; nofun)
    | pred n => exact hv.resolve_right (by rw [hd]; nofun)

/-- BLOCK_END (R50, R165). -/
theorem blockEnd_ends {s : State} {b : Block} {bs : List Block} (hb : s.pick.blocks = b :: bs) (hs : b.started = true)
    (hl : s.laneLive = true) (hlend : ∀ n < 8, (s.pick.ls.strand n).lpc = none)
    (hq : ∀ q ∈ s.pick.pending, (q.isVar = false ∨ q.dest = .nothing) ∧ ∀ n, q.dest ≠ .kreg n) :
    ∃ t, exec .blockEnd s = .next t ∧
      PickMoves s t ∧ s.pick.otherSide t.pick ∧ t.pick.blocks = bs ∧ t.pick.ls = {} ∧
      { t.pick with queue := s.pick.queue, hqueue := s.pick.hqueue, lanes := s.pick.lanes, hlanes := s.pick.hlanes,
                    sregs := s.pick.sregs, spoison := s.pick.spoison, paths := s.pick.paths,
                    uncovered := s.pick.uncovered, huncovered := s.pick.huncovered } = s.pick ∧
      (∀ r, tget 0 t.pick.sregs r =
        if ∃ n, n < 16 ∧ r = b.capBase + n ∧ b.kWritten.getLsbD n = true ∧ ¬ (b.atW0 = true ∧ n = 0) then
          tget 0 b.k (r - b.capBase) else tget 0 s.pick.sregs r) ∧
      (∀ n, 2 ≤ n → t.pick.path n = s.pick.path n) ∧
      ∀ x y l, b.batches = x :: y :: l →
        t.pick.path 0 = ((s.pick.path 0).onBatch x (fun c => { c with blocks := c.blocks - 1 })).settle ∧
        t.pick.path 1 = ((s.pick.path 1).onBatch y (fun c => { c with blocks := c.blocks - 1 })).settle := by
  obtain ⟨e, he⟩ := exec_blockEnd hb hs hl hlend hq
  refine ⟨_, he, s.setPick_moves _, ?_⟩
  rw [State.setPick_pick]
  obtain ⟨po, u, hu, hc⟩ := s.pick.copiedBack_eq b bs e
  obtain ⟨q, hqq, ls, hls, hside, hother⟩ := s.pick.laneSide_eq bs {}
  have hblocks := (Pick.setLs_blocks (s.pick.setBlocks bs) {}).trans (Pick.setBlocks_blocks s.pick bs)
  have hstrands := Pick.setLs_ls (s.pick.setBlocks bs) {}
  have hpath (n : Nat) : (s.pick.copiedBack b bs e).path n = s.pick.path n := by
    rw [hc, hside]; rfl
  obtain ⟨ps, hps⟩ : ∃ ps, (s.pick.copiedBack b bs e).blockLeave b = { s.pick.copiedBack b bs e with paths := ps } :=
    ⟨_, ((s.pick.copiedBack b bs e).blockLeave_withPaths b ((s.pick.copiedBack b bs e).blockLeave b).paths :)⟩
  refine ⟨?_, ?_, ?_, ?_, fun r => ?_, fun n hn => ?_, fun x y l hxy => ?_⟩
  · exact Pick.otherSide_of_eq hother (by rw [hps, hc]) (by rw [hps, hc]) (by rw [hps, hc]) (by rw [hps, hc])
  · rw [hps, hc]; exact hblocks
  · rw [hps, hc]; exact hstrands
  · rw [hps, hc, hside]
  · rw [hps, hc]
    have := tget_foldl_tput (key := Prod.fst) (val := Prod.snd) (g := fun r => tget 0 b.k (r - b.capBase)) b.copies_val s.pick.sregs r
    simp only [Block.mem_copies] at this
    exact this
  · rw [Pick.blockLeave_path_other _ b hn, hpath]
  · obtain ⟨h0, h1⟩ := (s.pick.copiedBack b bs e).blockLeave_path hxy
    rw [h0, h1, hpath, hpath]
    exact ⟨rfl, rfl⟩

/-! ## Fragments that go on together -/

theorem Fragment.mem_members {f : Fragment} {n : Nat} : n ∈ f.members ↔ n < 8 ∧ f.strands.getLsbD n = true := mem_ones

/-- Strands of one fragment at one address stay in one fragment (R59). -/
theorem Fragment.split_together {l : LaneSet} {f : Fragment} {n m : Nat} (hn : n ∈ f.members) (hm : m ∈ f.members)
    (he : (l.strand n).lpc = (l.strand m).lpc) (hw : f.waitAt = none) :
    ∃ h ∈ Fragment.split l f, n ∈ h.members ∧ m ∈ h.members ∧ h.waitAt = none := by
  unfold Fragment.split
  dsimp only
  split
  · refine ⟨f, ?_, hn, hm, hw⟩
    rw [hw]
    exact List.mem_singleton_self f
  · have hex : ∃ k, k ∈ f.members ∧ (l.strand k).lpc = (l.strand n).lpc := ⟨n, hn, rfl⟩
    obtain ⟨hk, hlpc⟩ := Nat.find_spec hex
    have hpart (j : Nat) (hj : j ∈ f.members) (h : (l.strand j).lpc = (l.strand n).lpc) : j < 8 ∧
        (BitVec.ofNat 8 (maskOf (f.members.filter
          (fun m => (l.strand m).lpc == (l.strand (Nat.find hex)).lpc)))).getLsbD j = true := by
      have h8 := (Fragment.mem_members.mp hj).1
      refine ⟨h8, ?_⟩
      simp [BitVec.getLsbD_ofNat, maskOf_testBit, hj, h8, h, hlpc]
    refine ⟨_, List.mem_map_of_mem (List.mem_filter.mpr ⟨hk, ?_⟩), Fragment.mem_members.mpr (hpart n hn rfl),
      Fragment.mem_members.mpr (hpart m hm he.symm), ?_⟩
    · rw [List.all_eq_true]
      intro j hj
      rw [Bool.or_eq_true, decide_eq_true_eq, bne_iff_ne]
      by_contra hlt
      obtain ⟨h1, h2⟩ := not_or.mp hlt
      exact Nat.find_min hex (Nat.lt_of_not_ge h1) ⟨hj, (not_not.mp h2).trans hlpc⟩
    · rw [hw]
      exact ite_self _

/-- The strands after a fold that moves those of a list, at one that is in it once at most. -/
theorem LaneSet.foldMoves_strand (g : Nat → Strand → Strand) (ns : List Nat) (l : LaneSet) {n : Nat} (hn : ns.count n ≤ 1) :
    (ns.foldl (fun (l : LaneSet) k => l.setStrand k (g k (l.strand k))) l).strand n =
      if n ∈ ns then g n (l.strand n) else l.strand n := by
  induction ns generalizing l with
  | nil => rfl
  | cons k ns ih =>
    have hle : ns.count n ≤ 1 := Nat.le_trans (List.count_le_count_cons) hn
    rw [List.foldl_cons, ih _ hle, LaneSet.setStrand_strand]
    by_cases e : n = k
    · subst e
      have h0 : n ∉ ns := List.count_eq_zero.mp (by rw [List.count_cons_self] at hn; omega)
      simp [h0]
    · simp [e]

/-- Live fragments that waited at one address, as one (R60). -/
def mergedAt (live : List Fragment) (clk : Nat) (a : Option Word) : Fragment :=
  { strands := (live.filter (fun f => f.waitAt == a)).foldl (fun m f => m ||| f.strands) 0, lastIssue := clk }

/-- The strands and fragments that a release moves on (R60, R298). -/
def LaneSet.released (l : LaneSet) (clk : Nat) : LaneSet :=
  let live := l.frags.filter l.fragLive
  { (live.flatMap Fragment.members).foldl (fun (l : LaneSet) n => l.setStrand n (Strand.settle (nextL n (l.strand n)))) l with
    frags := ((live.map (·.waitAt)).eraseDups).map (mergedAt live clk) ++ l.frags.filter (fun f => !l.fragLive f) }

theorem exec_regangRelease {s : State} (hl : s.laneLive = true) (hr : s.pick.running = true)
    (h0 : s.pick.ls.frags.filter s.pick.ls.fragLive ≠ [])
    (hw : ∀ f ∈ s.pick.ls.frags.filter s.pick.ls.fragLive, f.waitAt.isSome = true) : ∃ nl, exec .regangRelease s =
      .next (s.setPick { s.pick.setLs (s.pick.ls.released s.fresh).repartition with nextLane := nl }) := by
  refine ⟨max s.pick.nextLane (s.pick.clk +
    (s.pick.ls.frags.filter s.pick.ls.fragLive).foldl (fun a f => max a f.waitStall) 1), ?_⟩
  have hcond : (!s.laneLive || !s.pick.running || (s.pick.ls.frags.filter s.pick.ls.fragLive).isEmpty ||
      (s.pick.ls.frags.filter s.pick.ls.fragLive).any (fun f => f.waitAt.isNone)) = false := by
    have h1 : (s.pick.ls.frags.filter s.pick.ls.fragLive).isEmpty = false := by simpa [List.isEmpty_eq_false_iff] using h0
    have h2 : (s.pick.ls.frags.filter s.pick.ls.fragLive).any (fun f => f.waitAt.isNone) = false :=
      List.any_eq_false.mpr fun f hf => by simp [Option.isSome_iff_ne_none.mp (hw f hf)]
    rw [hl, hr, h1, h2]; rfl
  show execRegangRelease s = _
  simp only [execRegangRelease, hcond]
  rfl

theorem getLsbD_foldl_or (fs : List Fragment) (a : BitVec 8) {n : Nat} :
    (fs.foldl (fun m f => m ||| f.strands) a).getLsbD n = (a.getLsbD n || fs.any (fun f => f.strands.getLsbD n)) := by
  induction fs generalizing a with
  | nil => simp
  | cons f fs ih => rw [List.foldl_cons, ih, BitVec.getLsbD_or, List.any_cons, Bool.or_assoc]

/-- A merged fragment has the strands of each that waited there. -/
theorem mem_mergedAt {live : List Fragment} {f : Fragment} (hf : f ∈ live) {n : Nat} (hn : n ∈ f.members) (clk : Nat) :
    n ∈ (mergedAt live clk f.waitAt).members := by
  obtain ⟨h8, hb⟩ := Fragment.mem_members.mp hn
  refine Fragment.mem_members.mpr ⟨h8, ?_⟩
  have : (live.filter (fun g => g.waitAt == f.waitAt)).any (fun g => g.strands.getLsbD n) = true :=
    List.any_eq_true.mpr ⟨f, List.mem_filter.mpr ⟨hf, beq_self_eq_true _⟩, hb⟩
  rw [mergedAt, getLsbD_foldl_or, this, Bool.or_true]

/-- A pick whose strands in use are replaced. -/
theorem Pick.setLs_eq (p : Pick) (l : LaneSet) :
    (∃ ls hls, p.setLs l = { p with lanes := ls, hlanes := hls }) ∧ p.otherSide (p.setLs l) := by
  unfold Pick.otherSide Pick.setLs
  cases hm : p.mode
  · exact ⟨⟨l, p.hlanes, by simp⟩, by simp⟩
  · exact ⟨⟨p.lanes, l, by simp⟩, by simp⟩

/-- REGANG_RELEASE once all live fragments wait (R60, R298). -/
theorem regangRelease_releases {s : State} (hl : s.laneLive = true) (hr : s.pick.running = true)
    (h0 : s.pick.ls.frags.filter s.pick.ls.fragLive ≠ [])
    (hw : ∀ f ∈ s.pick.ls.frags.filter s.pick.ls.fragLive, f.waitAt.isSome = true) :
    let live := s.pick.ls.frags.filter s.pick.ls.fragLive
    ∃ t, exec .regangRelease s = .next t ∧
      PickMoves s t ∧ s.pick.otherSide t.pick ∧
      { t.pick with lanes := s.pick.lanes, hlanes := s.pick.hlanes, nextLane := s.pick.nextLane } = s.pick ∧
      (∀ n, (live.flatMap Fragment.members).count n ≤ 1 →
        t.pick.ls.strand n = if n ∈ live.flatMap Fragment.members then
          Strand.settle (nextL n (s.pick.ls.strand n)) else s.pick.ls.strand n) ∧
      ∀ f ∈ live, ∀ g ∈ live, f.waitAt = g.waitAt → ∀ n ∈ f.members, ∀ m ∈ g.members,
        (t.pick.ls.strand n).lpc = (t.pick.ls.strand m).lpc →
          ∃ h ∈ t.pick.ls.frags, n ∈ h.members ∧ m ∈ h.members ∧ h.waitAt = none := by
  intro live
  obtain ⟨nl, he⟩ := exec_regangRelease hl hr h0 hw
  obtain ⟨⟨ls, hls, heq⟩, hother⟩ := s.pick.setLs_eq (s.pick.ls.released s.fresh).repartition
  have hlanes : (s.pick.setLs (s.pick.ls.released s.fresh).repartition).ls = (s.pick.ls.released s.fresh).repartition :=
    Pick.setLs_ls _ _
  refine ⟨_, he, s.setPick_moves _, ?_⟩
  rw [State.setPick_pick]
  refine ⟨Pick.otherSide_of_eq hother rfl rfl rfl rfl, ?_, fun n hn => ?_, fun f hf g hg hfg n hn m hm hlpc => ?_⟩
  · rw [heq]
  · refine (congrArg (LaneSet.strand · n) hlanes).trans ?_
    exact LaneSet.foldMoves_strand (fun n x => Strand.settle (nextL n x)) _ s.pick.ls hn
  · have hlpc' : ((s.pick.ls.released s.fresh).strand n).lpc = ((s.pick.ls.released s.fresh).strand m).lpc := by
      have := (congrArg (fun l : LaneSet => (l.strand n).lpc) hlanes).symm.trans
        (hlpc.trans (congrArg (fun l : LaneSet => (l.strand m).lpc) hlanes))
      exact this
    obtain ⟨x, hx, hxn, hxm, hxw⟩ := Fragment.split_together (mem_mergedAt hf hn s.fresh)
      (hfg ▸ mem_mergedAt hg hm s.fresh) hlpc' rfl
    have hmem : mergedAt live s.fresh f.waitAt ∈ (s.pick.ls.released s.fresh).frags :=
      List.mem_append_left _ (List.mem_map_of_mem (List.mem_eraseDups.mpr (List.mem_map_of_mem hf)))
    refine ⟨x, ?_, hxn, hxm, hxw⟩
    have : x ∈ (s.pick.ls.released s.fresh).repartition.frags := List.mem_flatten_of_mem (List.mem_map_of_mem hmem) hx
    rw [← hlanes] at this
    exact this

/-- The set with a fragment replaced. -/
def LaneSet.setFrag (l : LaneSet) (n : Nat) (f : Fragment) : LaneSet := { l with frags := l.frags.set n f }

/-- ISSUE_AGING_RISE of a fragment that was passed over for 64 clks (R63). -/
theorem issueAgingRise_rises {s : State} {n : Nat} {f : Fragment} (hf : s.pick.ls.frags[n]? = some f) (h3 : f.rise < 3)
    (h64 : 64 ≤ f.passed) (hr : s.pick.running = true) : ∃ t, exec (.issueAgingRise n) s = .next t ∧
      { t with picks := s.picks, frag := s.frag } = s ∧ (∀ k, k ≠ s.cur → t.pickAt k = s.pickAt k) ∧
      { t.pick with lanes := s.pick.lanes, hlanes := s.pick.hlanes } = s.pick ∧ t.pick.ls.strands = s.pick.ls.strands ∧
      t.pick.ls.frags = s.pick.ls.frags.set n { f with rise := f.rise + 1, passed := 0 } := by
  have he : exec (.issueAgingRise n) s = .next (({ s with frag := n } : State).setPick
      (s.pick.setLs (s.pick.ls.setFrag n { f with rise := f.rise + 1, passed := 0 }))) := by
    have hfrag : ({ s with frag := n } : State).fragment = f := (congrArg (Option.getD · _) hf :)
    show execIssueAgingRise n s = _
    simp only [execIssueAgingRise, hf]
    rw [if_pos ⟨h64, hr⟩, State.onFragment, hfrag, Nat.min_eq_right (by omega)]
    rfl
  obtain ⟨⟨ls, hls, heq⟩, -⟩ := s.pick.setLs_eq (s.pick.ls.setFrag n { f with rise := f.rise + 1, passed := 0 })
  refine ⟨_, he, rfl, fun k hk => State.setPick_pickAt_ne ({ s with frag := n } : State) _ hk, ?_⟩
  rw [State.setPick_pick, Pick.setLs_ls]
  exact ⟨by rw [heq], rfl, rfl⟩

/-- Settles O40: event by event, by what one delivered result, one replaced lane side, one copy-back and one merge of
fragments leave. -/
theorem laneProgress : Obligations.LaneProgress :=
  ⟨fun _ _ => ⟨variableResult_delivers, fixedWrite_delivers⟩,
    fun _ => ⟨fun _ _ => blockStart_starts, fun _ _ => blockEnd_ends, regangRelease_releases,
      fun _ _ => issueAgingRise_rises⟩⟩

end Sys2Proof.Machine
end

section
/-! SUPPORT. A scratch store across the first MiB of a window that is wider (R145, R149). -/

namespace Sys2Proof.Machine

/-- A running lane block of team 1, whose record has a window of 8191 granules; lane 0 alone has p1. v6 holds 4 bytes below
1 MiB, v4 and v5 the words to store. -/
def wideWindow : State :=
  let s := { State.reset.placeProgram true [] with cur := 64 }
  let s1 := s.setTeam { s.team with lr := sampleRecord + 8175 * 2 ^ 288 }
  s1.setPick { s1.pick with
    names := [4, 5, 6].map (fun r => (r, { st := .allocated, val := [(0, if r = 6 then 0xFFFFC else 1)] }))
    preds := [(1, 1)] }

/-- A plain source. -/
def plainSrc (r : BitVec 8) : Src := { reg := r, lr := 0, pat := 0, prm := 0 }

/-- The lanes with p1. -/
def underP1 : Hd := { stall := 1, pn := 0, pi := 1 }

/-- VSTS of the pair v4, v5 at v6. -/
def crossingStore : Instr := .vsts underP1 (plainSrc 6) (plainSrc 4) 0 0 0 3

theorem wideWindow_lane : lanesOf (wideWindow.lanesActive 1 0) = [0] := by decide +kernel

/-- The second word of the store lies past the places of team 1, in the scratch of team 2. -/
theorem crossingStore_spills :
    (match exec crossingStore wideWindow with | .next t => rdByte (t.teamAt 2).scratch 0 | _ => 0) = 1 := by decide +kernel

/-- Refutes O36: an access is in range whose first byte lies below 1 MiB and whose last lies in the window. Nothing bounds the
window of the statement's record by 1 MiB, and an aligned 8-byte VSTS at 1 MiB − 4 writes its second word into the scratch of
the next team, which the statement says to stay. -/
theorem not_laneAccessChecks : ¬ Obligations.LaneAccessChecks := by
  intro h
  obtain ⟨-, hstore, -⟩ := h wideWindow underP1 239 (plainSrc 6) (plainSrc 4) 0 0 0 3 0 0 0 (by decide) (by decide +kernel)
  obtain ⟨t, he, -, -, -, -, -, -, hteams⟩ := hstore (by decide +kernel) fun i hi => by
    obtain rfl : i = 0 := List.mem_singleton.mp (wideWindow_lane ▸ hi)
    exact ⟨fun _ => by decide +kernel, fun h => absurd rfl h⟩
  have hspill := crossingStore_spills
  rw [show exec crossingStore wideWindow = .next t from he] at hspill
  have hsame : (t.teamAt 2).scratch = (wideWindow.teamAt 2).scratch := hteams 2 (by decide +kernel)
  have hempty : rdByte (wideWindow.teamAt 2).scratch 0 = 0 := by decide +kernel
  exact absurd ((congrArg (rdByte · 0) hsame).symm.trans hspill) (by rw [hempty]; decide)

end Sys2Proof.Machine
end

section
/-! SUPPORT. SETFMT, STCFG and GANG: the format registers under a mask, and the participation mask (R83, R259, R260). -/

namespace Sys2Proof.Machine

theorem exec_setfmt {s : State} {a b : BitVec 6} (hr : s.regsReady [a, b] [] = true) : exec (.setfmt a b) s =
    let v := fmtrClean (masked s.pick.fmtr (s.pick.w a) (s.pick.w b))
    if s.pick.w b = 0 then .next s.advance
    else if fmtrBad v then s.trapS .illOperand s.opc6 else .next (s.setPick { s.pick with fmtr := v }).advance := by
  have he : exec (.setfmt a b) s = execSetfmt a b s := rfl
  rw [he, execSetfmt, State.withOperands_ready hr, State.readS_ready hr (by simp), State.readS_ready hr (by simp)]

theorem exec_stcfg {s : State} {a b : BitVec 6} (hr : s.regsReady [a, b] [] = true) : exec (.stcfg a b) s =
    let v := tcfgClean (masked s.pick.tcfg (s.pick.w a) (s.pick.w b))
    if s.pick.w b = 0 then .next s.advance
    else if tcfgBad v then s.trapS .illOperand s.opc6 else .next (s.setPick { s.pick with tcfg := v }).advance := by
  have he : exec (.stcfg a b) s = execStcfg a b s := rfl
  rw [he, execStcfg, State.withOperands_ready hr, State.readS_ready hr (by simp), State.readS_ready hr (by simp)]

theorem exec_gang {s : State} {a b : BitVec 6} (hr : s.regsReady [a, b] [] = true) : exec (.gang a b) s =
    .next (s.setPick { s.pick with gang := 0#16 ++ (s.pick.w b).setWidth 16 ++ s.pick.w a }).advance := by
  have he : exec (.gang a b) s = execGang a b s := rfl
  rw [he, execGang, State.withOperands_ready hr, State.readS_ready hr (by simp), State.readS_ready hr (by simp)]

/-- An instruction that only goes on leaves what a discarded write of w0 leaves. -/
theorem State.advance_scalarDone (s : State) : ScalarDone s s.advance 0 0 s.nextPc := by
  rw [State.advance_eq_goto]
  have hr : s.regsReady [0] [] = true := by simp [State.regsReady, State.frameHit, State.poisonHit]
  exact State.setS_goto_done hr (d := 0) (by simp) 0 s.nextPc

/-- The reserved codes of TCFG by its number (R83, R84). -/
theorem tcfgBad_iff (v : Word) : tcfgBad v = true ↔ v.toNat / 2 ^ 24 % 4 = 3 ∨ v.toNat / 2 ^ 26 % 4 = 3 := by
  simp only [tcfgBad, Bool.or_eq_true, beq_iff_eq, ← BitVec.toNat_inj, BitVec.extractLsb'_toNat, Nat.shiftRight_eq_div_pow]
  rfl

/-- The 48 bits that GANG sets: the low word, then the low half of the other (R260). -/
theorem gang_toNat (x m : Word) : (0#16 ++ m.setWidth 16 ++ x : BitVec 64).toNat = x.toNat + m.toNat % 2 ^ 16 * 2 ^ 32 := by
  have hx : x.toNat < 2 ^ 32 := x.isLt
  rw [BitVec.toNat_append, BitVec.toNat_append, ← Nat.shiftLeft_add_eq_or_of_lt hx]
  simp [Nat.shiftLeft_eq, Nat.add_comm]

/-- Settles O11: each instruction's equation, and what its register's value makes of the pick. -/
theorem pickRegisters : Obligations.PickRegisters := by
  intro s a b hr x m f c fBad cBad
  have hf : fmtrBad f = true ↔ fBad := fmtrBad_iff f
  have hc : tcfgBad c = true ↔ cBad := tcfgBad_iff c
  refine ⟨fun hm i hi => ?_, fun hm hok => ?_, fun hm hok => ?_, fun hm _ => ⟨fun hbad => ?_, fun hbad => ?_⟩, ?_⟩
  · refine ⟨s.advance, ?_, s.advance_scalarDone⟩
    obtain rfl | rfl : i = .setfmt a b ∨ i = .stcfg a b := by simpa using hi
    · rw [exec_setfmt hr]; exact if_pos hm
    · rw [exec_stcfg hr]; exact if_pos hm
  · refine ⟨(s.setPick { s.pick with fmtr := f }).advance, ?_, State.setPick_advance_pickStep rfl rfl rfl, ?_⟩
    · rw [exec_setfmt hr]; exact (if_neg hm).trans (if_neg (hf.not.mpr hok))
    · rw [State.setPick_advance_pick]; rfl
  · refine ⟨(s.setPick { s.pick with tcfg := c }).advance, ?_, State.setPick_advance_pickStep rfl rfl rfl, ?_⟩
    · rw [exec_stcfg hr]; exact (if_neg hm).trans (if_neg (hc.not.mpr hok))
    · rw [State.setPick_advance_pick]; rfl
  · refine TrapsS.of_exec fun _ => ?_
    rw [exec_setfmt hr]; exact (if_neg hm).trans (if_pos (hf.mpr hbad))
  · refine TrapsS.of_exec fun _ => ?_
    rw [exec_stcfg hr]; exact (if_neg hm).trans (if_pos (hc.mpr hbad))
  · refine ⟨_, exec_gang hr, State.setPick_advance_pickStep rfl rfl rfl, ?_⟩
    rw [State.setPick_advance_pick]
    exact gang_toNat _ _

end Sys2Proof.Machine
end

section
/-! SUPPORT. What a lane source delivers where nothing is pending on its register (R102, R103, R218). -/

namespace Sys2Proof.Machine

theorem State.vLane_settled {s : State} {n : Nat} (h : s.pick.pendingOn (.vreg n) = []) (tag j i : Nat) :
    s.vLane tag n j i = tget 0 (s.pick.name n).val j := by
  simp [State.vLane, h]

theorem State.kLane_settled {s : State} {n : Nat} (h : s.pick.pendingOn (.kreg n) = []) (tag i : Nat) :
    s.kLane tag n i = s.pick.k n := by
  simp [State.kLane, h]

/-- A source that is a lane register delivers the word of the lane that its pattern names, or a zero shifted in. -/
theorem State.permRead_vreg {s : State} {f : Src} (hr : f.reg.toNat < 239)
    (hp : s.pick.pendingOn (.vreg f.reg.toNat) = []) (k i : Nat) : s.permRead k f 0 i =
      (permLane f.pat.toNat f.prm.toNat i).elim 0 (fun j => tget 0 (s.pick.name f.reg.toNat).val j) := by
  have hne : f.reg.toNat ≠ 239 := by omega
  have hlt : ¬ f.reg.toNat ≥ 240 := by omega
  unfold State.permRead
  simp only [Nat.add_zero, if_neg hne, if_neg hlt]
  cases permLane f.pat.toNat f.prm.toNat i with
  | none => rfl
  | some j => exact State.vLane_settled hp _ _ _

theorem State.permRead_vz {s : State} {f : Src} (hr : f.reg.toNat = 239) (k i : Nat) : s.permRead k f 0 i = 0 := if_pos hr

theorem State.permRead_kreg {s : State} {f : Src} (hr : 239 < f.reg.toNat)
    (hp : s.pick.pendingOn (.kreg (f.reg.toNat - 240)) = []) (k i : Nat) :
    s.permRead k f 0 i = s.pick.k (f.reg.toNat - 240) := by
  have hne : f.reg.toNat ≠ 239 := by omega
  unfold State.permRead
  simp only [Nat.add_zero, if_neg hne, if_pos (show f.reg.toNat ≥ 240 by omega)]
  exact State.kLane_settled hp _ _

/-- Settles O26: the register class decides the read, and for a lane register its pattern decides the lane. -/
theorem laneSources : Obligations.LaneSources := by
  intro s k f i _ q
  refine ⟨fun hr hp => ?_, fun hr => s.permRead_vz hr k i, fun hr hp => s.permRead_kreg hr hp k i⟩
  have hread := State.permRead_vreg hr hp k i
  refine ⟨?_, fun h => ?_, fun h => ?_, fun h => ?_, fun h => ?_, fun h => ?_, fun h => ?_⟩
  · rintro (h | h) <;> exact hread.trans (by rw [h]; rfl)
  · exact hread.trans (by rw [h]; rfl)
  · exact hread.trans (by rw [h]; rfl)
  · exact hread.trans (by rw [h]; rfl)
  · exact hread.trans (by rw [h]; rfl)
  · exact hread.trans (by rw [h]; rfl)
  · have hlane : permLane f.pat.toNat f.prm.toNat i = if i < q then none else some (i - q) := by rw [h]; rfl
    rw [hread, hlane]
    split <;> rfl

end Sys2Proof.Machine
end

section
/-! SUPPORT. The end of a context: teams that stop, and a trap in trap mode (R99, R428). -/

namespace Sys2Proof.Machine

theorem State.countAborts_withPicks (s : State) (key : Nat) (ps : Tab Pick) (ds : Tab Die) :
    { s.countAborts key with picks := ps, dies := ds } = { s with picks := ps, dies := ds } := by
  unfold State.countAborts
  dsimp only
  split <;> rfl

theorem State.dropPicks_withPicks (s : State) (keys : List Nat) (ps : Tab Pick) (ds : Tab Die) :
    { s.dropPicks keys with picks := ps, dies := ds } = { s with picks := ps, dies := ds } :=
  foldl_keeps (fun u : State => { u with picks := ps, dies := ds })
    (f := fun u k => (u.countAborts k).setPickAt k {}) (fun u k => u.countAborts_withPicks k ps ds) keys s

/-- Picks, teams, dies, slots and operations as a state has them. -/
def State.withTablesOf (t s : State) : State :=
  { t with picks := s.picks, teams := s.teams, dies := s.dies, slots := s.slots, ops := s.ops }

/-- A team that stops changes its picks, itself, its operations, and what counts its aborts and its references. -/
theorem State.stopTeam_withTablesOf (s : State) (t status cause : Nat) (u : State) :
    (s.stopTeam t status cause).withTablesOf u = s.withTablesOf u := by
  obtain ⟨sl, hsl⟩ := s.releaseRefs_eq t 0
  have h := State.dropPicks_withPicks (ps := u.picks) (ds := u.dies)
  have htables (a b : State) (hab : { a with picks := u.picks, dies := u.dies } = { b with picks := u.picks, dies := u.dies }) :
      a.withTablesOf u = b.withTablesOf u := (congrArg (fun x : State => x.withTablesOf u) hab :)
  rw [State.stopTeam, htables _ _ (h _ _), hsl]
  rfl

/-- The team itself is gone from its loom and waits to publish; the others stay. -/
theorem State.stopTeam_teamAt (s : State) (t status cause k : Nat) :
    (k ≠ t → (s.stopTeam t status cause).teamAt k = s.teamAt k) ∧
    ((s.stopTeam t status cause).teamAt t).phase = .done status ∧ ((s.stopTeam t status cause).teamAt t).picks = [] := by
  obtain ⟨sl, hsl⟩ := s.releaseRefs_eq t 0
  have hdrop (v : State) (keys : List Nat) : (v.dropPicks keys).teamAt = v.teamAt := by
    have h := congrArg State.teams (v.dropPicks_withPicks keys [] [])
    funext j
    exact congrArg (fun x => tget ({} : Team) x j) h
  unfold State.stopTeam
  rw [hdrop, hsl]
  simp only [State.setTeamAt, State.teamAt, tget_tput_self, and_self, and_true]
  intro hk
  rw [tget_tput_ne _ _ _ hk, tget_tput_ne _ _ _ hk]

/-- The state after these teams stopped, one after the other. -/
def State.stopTeams (s : State) (ks : List Nat) (status cause : Nat) : State :=
  ks.foldl (fun s k => s.stopTeam k status cause) s

theorem State.stopTeams_withTablesOf (s : State) (ks : List Nat) (status cause : Nat) (u : State) :
    (s.stopTeams ks status cause).withTablesOf u = s.withTablesOf u :=
  foldl_keeps (fun x : State => x.withTablesOf u) (fun x k => x.stopTeam_withTablesOf k status cause u) ks s

/-- Each of them waits to publish, without picks. -/
theorem State.stopTeams_teamAt (s : State) (ks : List Nat) (status cause k : Nat)
    (h : k ∈ ks ∨ (s.teamAt k).phase = .done status ∧ (s.teamAt k).picks = []) :
    ((s.stopTeams ks status cause).teamAt k).phase = .done status ∧ ((s.stopTeams ks status cause).teamAt k).picks = [] := by
  induction ks generalizing s with
  | nil => exact h.resolve_left (by simp)
  | cons j js ih =>
    obtain ⟨hother, hdone⟩ := s.stopTeam_teamAt j status cause k
    apply ih
    by_cases hk : k = j
    · exact .inr (hk ▸ hdone)
    · rcases h with h | h
      · exact .inl ((List.mem_cons.mp h).resolve_left hk)
      · exact .inr (by rw [hother hk]; exact h)

/-- The numbers of a context's teams with a publication to come. -/
def State.unpublishedOf (s : State) (ctx : Nat) : List Nat :=
  (s.teams.filter (fun e => e.2.ctx == ctx && e.2.phase.unpublished)).map (·.1)

theorem State.endContext_eq {s : State} {ctx : Nat} (h : (s.ctxAt ctx).ended = false) (status cause : Nat) :
    s.endContext ctx status cause = (s.stopTeams (s.unpublishedOf ctx) status cause).setCtxAt ctx
      { s.ctxAt ctx with ended := true, st := 3, endStatus := status, endCause := cause, faults := [] } := by
  have hc : (s.stopTeams (s.unpublishedOf ctx) status cause).ctxs = s.ctxs :=
    (congrArg State.ctxs (s.stopTeams_withTablesOf (s.unpublishedOf ctx) status cause s) :)
  have hfold : (s.teams.filter (fun e => e.2.ctx == ctx && e.2.phase.unpublished)).foldl
      (fun s e => s.stopTeam e.1 status cause) s = s.stopTeams (s.unpublishedOf ctx) status cause := by
    rw [State.stopTeams, State.unpublishedOf, List.foldl_map]
  unfold State.endContext
  rw [if_neg (by simp [h])]
  dsimp only
  rw [hfold, State.ctxAt, hc]
  rfl

/-- What the end of a context leaves (R428, R511). -/
theorem State.endContext_ended {s : State} {ctx : Nat} (h : (s.ctxAt ctx).ended = false) (status cause : Nat) :
    (s.endContext ctx status cause).ctxAt ctx =
      { s.ctxAt ctx with ended := true, st := 3, endStatus := status, endCause := cause, faults := [] } ∧
    (∀ e ∈ s.teams, e.2.ctx = ctx → e.2.phase.unpublished = true →
      ((s.endContext ctx status cause).teamAt e.1).phase = .done status ∧
      ((s.endContext ctx status cause).teamAt e.1).picks = []) ∧
    (s.endContext ctx status cause).faultLog = s.faultLog ∧ (s.endContext ctx status cause).mem = s.mem := by
  have hkeeps := s.stopTeams_withTablesOf (s.unpublishedOf ctx) status cause s
  rw [State.endContext_eq h]
  refine ⟨State.setCtxAt_ctxAt_self _ _ _, fun e he hctx hun => ?_, (congrArg State.faultLog hkeeps :),
    (congrArg State.mem hkeeps :)⟩
  refine State.stopTeams_teamAt _ _ _ _ _ (.inl ?_)
  exact List.mem_map_of_mem (List.mem_filter.mpr ⟨he, by simp [hctx, hun]⟩)

/-- The low byte of a fault record is its kind (R449). -/
theorem faultMsg_kind {kind : Nat} (hk : kind < 256) (ctx world die loom lnum team pick payload : Nat) :
    (faultMsg kind ctx world die loom lnum team pick payload).toNat % 256 = kind := by
  rw [faultMsg, BitVec.toNat_ofNat]
  omega

/-- A trap in trap mode of a pick that is not parked, in a world without CONF, ends the context with its record (R99, R428). -/
theorem State.takeTrap_endsContext {s : State} {r : TrapReq} (hmode : s.pick.mode = true) (hparked : s.pick.parked = false)
    (hpol : (s.worldAt s.ctx.world).policy.getLsbD 0 = false) (hc : r.cause ≠ .dataPoison) :
    ∃ payload, s.takeTrap r = (s.reportPick s.cur 2 payload).endContext s.team.ctx 4 r.cause.code := by
  have hd : s.takeTrap r = s.deliverTrap r := by simp [State.takeTrap, hmode, hparked, hc]
  rw [hd, State.deliverTrap, if_pos hmode]
  exact ⟨_, if_neg (Bool.eq_false_iff.mp hpol)⟩

/-- Settles O16: the record goes out, then the context ends and with it each team that has still to publish. -/
theorem nestedTrapEndsContext : Obligations.NestedTrapEndsContext := by
  intro s c hmode hparked hended hpol
  obtain ⟨payload, he⟩ : ∃ payload, exec (.trap c) s = .next ((s.reportPick s.cur 2 payload).endContext s.team.ctx 4 0x38) := by
    obtain ⟨payload, he⟩ := State.takeTrap_endsContext hmode hparked hpol
      (r := { cause := .breakpoint, tval := c.setWidth 64, src := true, tspc := s.pick.spc + 4 }) (by simp)
    exact ⟨payload, congrArg Host.Outcome.next he⟩
  obtain ⟨hctx, hteams, hlog, hmem⟩ := State.endContext_ended (s := s.reportPick s.cur 2 payload) hended 4 0x38
  refine ⟨_, he, by rw [hctx], by rw [hctx], by rw [hctx], by rw [hctx], by rw [hctx], hteams,
    ⟨_, hlog, faultMsg_kind (by decide) _ _ _ _ _ _ _ _⟩, hmem⟩

end Sys2Proof.Machine
end

section
/-! SUPPORT. What writes of memory words leave of the rest of the device (R174, R191, R515). -/

namespace Sys2Proof.Machine

theorem lookup_cons_ite {α : Type} (l : List (Nat × α)) (k j : Nat) (x : α) :
    ((k, x) :: l).lookup j = if j = k then some x else l.lookup j := by
  by_cases h : j = k
  · rw [if_pos h, h, List.lookup_cons_self]
  · rw [if_neg h, List.lookup_cons, beq_false_of_ne h]

/-- A state with what a write of words changes as another state has it: memory, scratch and tiles, the recorded writes, the
near FADDs, and the host translations held. -/
def State.withMemoryOf (t s : State) : State :=
  { t with mem := s.mem, poison := s.poison, teams := s.teams, wlog := s.wlog, nextW := s.nextW, fadds := s.fadds, fns := s.fns }

theorem State.putWord_withMemoryOf (s : State) (l : Nat) (mask v : Word) (u : State) :
    (s.putWord l mask v).withMemoryOf u = s.withMemoryOf u := by
  unfold State.putWord
  dsimp only
  split
  · rfl
  · split <;> rfl

theorem State.putUnit_withMemoryOf (s : State) (g : Agent) (rels : List Rel) (rmw : Bool) (behind : Option Nat) (b : List Bits)
    (u : State) : (s.putUnit g rels rmw behind b).withMemoryOf u = s.withMemoryOf u :=
  foldl_keeps (fun t : State => t.withMemoryOf u)
    (f := fun (t : State) (e : Bits) => t.putWord e.1 e.2.1 (mix (t.wordAt e.1) e.2.1 e.2.2))
    (fun t _ => t.putWord_withMemoryOf _ _ _ u) _ _

theorem State.recall_eq (s : State) (locs : List Nat) : ∃ fa, s.recall locs = { s with fadds := fa } ∧ ∀ f ∈ fa, f ∈ s.fadds := by
  unfold State.recall
  split
  · exact ⟨s.fadds, rfl, fun _ h => h⟩
  · exact ⟨_, rfl, fun _ h => List.mem_of_mem_filter h⟩

/-- Copies of host translations alone differ, and those of one function (R515). -/
theorem State.hostFill_eq (s : State) (g : Agent) (locs : List Nat) : ∃ fs, s.hostFill g locs = { s with fns := fs } ∧
    HostCached s (s.hostFill g locs) := by
  unfold State.hostFill
  dsimp only
  split
  · exact ⟨s.fns, rfl, fun _ => rfl⟩
  · refine ⟨_, rfl, fun k => ?_⟩
    rw [tget_tput]
    split
    · next h => rw [h]
    · rfl

theorem State.reach_withMemoryOf (s : State) (g : Agent) (locs : List Nat) (u : State) :
    (s.reach g locs).withMemoryOf u = s.withMemoryOf u := by
  obtain ⟨fa, hr, -⟩ := s.recall_eq locs
  obtain ⟨fs, hf, -⟩ := (s.recall locs).hostFill_eq g locs
  rw [State.reach, hf, hr]
  rfl

theorem State.putUnits_withMemoryOf (s : State) (g : Agent) (rels : List Rel) (us : List (List Bits)) (u : State) :
    (s.putUnits g rels us).withMemoryOf u = s.withMemoryOf u := by
  induction us generalizing s with
  | nil => rfl
  | cons b us ih =>
    calc (s.putUnits g rels (b :: us)).withMemoryOf u
      _ = (((s.putUnit g rels false (s.placeOf g (b.map (fun x => (x.1, x.2.1)))) b).reach g
            (b.map (·.1)))).withMemoryOf u := ih _
      _ = (s.putUnit g rels false (s.placeOf g (b.map (fun x => (x.1, x.2.1)))) b).withMemoryOf u :=
        State.reach_withMemoryOf _ _ _ _
      _ = s.withMemoryOf u := State.putUnit_withMemoryOf _ _ _ _ _ _ _

end Sys2Proof.Machine
end

section
/-! SUPPORT. Answers to translation faults, invalidations, and the refill of a portal's bucket (R442, R467, R468, R471). -/

namespace Sys2Proof.Machine

/-! ## The fault that an answer names -/

theorem State.faultFor_fid {s : State} {ctx fid : Nat} {hyp : Bool} {f : FaultRec} (h : s.faultFor ctx fid hyp = some f) :
    f.fid = fid := by
  have hp := List.find?_some h
  simp only [Bool.and_eq_true, beq_iff_eq] at hp
  exact hp.1

/-- An answer that names no fault changes nothing. -/
theorem xresp_unnamed {s : State} {ctx fid : Nat} {hyp : Bool} (h : s.faultFor ctx fid hyp = none) :
    ∀ i ∈ [Instr.xrespReplay ctx fid hyp, .xrespXlate ctx fid hyp, .xrespPerm ctx fid hyp], exec i s = .next s := by
  have hreplay : exec (.xrespReplay ctx fid hyp) s = execXrespReplay ctx fid hyp s := rfl
  have hxlate : exec (.xrespXlate ctx fid hyp) s = execXrespXlate ctx fid hyp s := rfl
  have hperm : exec (.xrespPerm ctx fid hyp) s = execXrespPerm ctx fid hyp s := rfl
  simp [hreplay, hxlate, hperm, execXrespReplay, execXrespXlate, execXrespPerm, h]

section
variable {s : State} {ctx fid : Nat} {hyp : Bool} {f : FaultRec} (hf : s.faultFor ctx fid hyp = some f)
include hf

theorem xresp_replays : exec (.xrespReplay ctx fid hyp) s = .next (s.releaseFault ctx f []) := by
  have he : exec (.xrespReplay ctx fid hyp) s = execXrespReplay ctx fid hyp s := rfl
  rw [he, execXrespReplay, hf]

/-- ACT 1 and 2 refuse the access, with XLATE and PERM. -/
theorem xresp_refuses : ∀ e ∈ [(Instr.xrespXlate ctx fid hyp, Cause.xlate), (.xrespPerm ctx fid hyp, .perm)],
    exec e.1 s = .next (s.refuseFault ctx f e.2) ∧ e.2 ≠ .dataPoison := by
  have hxlate : exec (.xrespXlate ctx fid hyp) s = execXrespXlate ctx fid hyp s := rfl
  have hperm : exec (.xrespPerm ctx fid hyp) s = execXrespPerm ctx fid hyp s := rfl
  simp [hxlate, hperm, execXrespXlate, execXrespPerm, hf]

end

/-! ## What is left once the fault is answered -/

/-- The fault is gone from its context; no other context, no memory and no team differs. -/
def FaultLeft (s t : State) (ctx fid : Nat) : Prop :=
  t.ctxAt ctx = { s.ctxAt ctx with faults := (s.ctxAt ctx).faults.filter (fun g => g.fid != fid) } ∧
  (∀ k, k ≠ ctx → t.ctxAt k = s.ctxAt k) ∧ t.mem = s.mem ∧ t.teams = s.teams

theorem State.dropFault_left (s : State) (ctx fid : Nat) : FaultLeft s (s.dropFault ctx fid) ctx fid :=
  ⟨State.setCtxAt_ctxAt_self _ _ _, fun k hk => (State.setCtxAt_ctxAt _ _ _ k).trans (if_neg hk), rfl, rfl⟩

theorem FaultLeft.congr {s t u : State} {ctx fid : Nat} (h : FaultLeft s t ctx fid) (hc : u.ctxs = t.ctxs) (hm : u.mem = t.mem)
    (ht : u.teams = t.teams) : FaultLeft s u ctx fid := by
  have hctx (k : Nat) : u.ctxAt k = t.ctxAt k := by rw [State.ctxAt, hc, State.ctxAt]
  obtain ⟨h1, h2, h3, h4⟩ := h
  exact ⟨(hctx _).trans h1, fun k hk => (hctx k).trans (h2 k hk), hm.trans h3, ht.trans h4⟩

/-- A context without a fault is otherwise the same. -/
theorem State.dropFault_ctxAt (s : State) (ctx fid k : Nat) :
    { (s.dropFault ctx fid).ctxAt k with faults := (s.ctxAt k).faults } = s.ctxAt k := by
  rw [State.dropFault, State.setCtxAt_ctxAt]
  split
  · next h => rw [h]
  · rfl

/-! ## What a fault held -/

theorem State.releaseFault_scalar (s : State) (ctx : Nat) {f : FaultRec} {k : Nat} (hw : f.who = .inl k)
    (hwait : (s.pickAt k).wait = .fault f.fid) (pages : List Nat) :
    s.releaseFault ctx f pages = (s.dropFault ctx f.fid).setPickAt k { s.pickAt k with wait := .none } := by
  unfold State.releaseFault
  rw [hw]
  exact if_pos hwait

theorem State.releaseFault_transfer (s : State) (ctx : Nat) {f : FaultRec} {k : Nat} (hw : f.who = .inr (.inl (k, 0)))
    (pages : List Nat) : s.releaseFault ctx f pages = s.dropFault ctx f.fid := by
  unfold State.releaseFault
  rw [hw]
  exact if_pos rfl

/-- The pick with the hold of a fault lifted from its fragments. -/
def Pick.unheld (p : Pick) (fid : Nat) : Pick := { p with lanes := p.lanes.unhold fid [], hlanes := p.hlanes.unhold fid [] }

theorem Pick.unheld_frags (p : Pick) (fid : Nat) :
    (p.unheld fid).ls.frags = p.ls.frags.map (fun x => if x.hold = some fid then { x with hold := none } else x) := by
  unfold Pick.ls Pick.unheld
  dsimp only
  split <;> rfl

theorem State.releaseFault_lane (s : State) (ctx : Nat) {f : FaultRec} {k : Nat} {m : BitVec 8}
    (hw : f.who = .inr (.inl (k, m))) (hm : m ≠ 0) :
    s.releaseFault ctx f [] = (s.dropFault ctx f.fid).setPickAt k ((s.pickAt k).unheld f.fid) := by
  unfold State.releaseFault
  rw [hw]
  exact if_neg hm

theorem State.releaseFault_op (s : State) (ctx : Nat) {f : FaultRec} {k : Nat} {o : Op} (hw : f.who = .inr (.inr k))
    (ho : s.opAt k = some o) (hp : o.phase = .faulted f.fid) (hsent : o.path = 5 → o.sent = true) (pages : List Nat) :
    s.releaseFault ctx f pages = ((s.dropFault ctx f.fid).setOp k { o with phase := .running }).markLate k o := by
  have hq : ¬ (o.path = 5 ∧ (!o.sent) = true ∧ o.func < 0x32) := fun h => by simp [hsent h.1] at h
  have hdrop : (s.dropFault ctx f.fid).opAt k = some o := ho
  unfold State.releaseFault
  simp only [hw, hdrop, if_pos hp, if_neg hq]

/-! ## Operations -/

theorem State.setOp_opAt (s : State) (k : Nat) (o : Op) (j : Nat) :
    (s.setOp k o).opAt j = if j = k then (s.opAt k).map (fun _ => o) else s.opAt j := by
  unfold State.opAt State.setOp
  dsimp only
  induction s.ops with
  | nil => simp
  | cons e es ih =>
    obtain ⟨i, x⟩ := e
    rw [List.map_cons, lookup_cons_ite, lookup_cons_ite]
    by_cases hik : i = k
    · rw [if_pos hik, lookup_cons_ite, ih, if_pos hik.symm, hik]
      split <;> rfl
    · rw [if_neg hik, lookup_cons_ite, ih, if_neg (Ne.symm hik)]
      by_cases hji : j = i
      · simp [hji, hik]
      · simp [hji]

/-- In-flight bits set late are those of the operation's own team, and name it (R150). -/
def LateMarks (s t : State) (k : Nat) (o : Op) : Prop :=
  (∀ j, j ≠ o.pick / 64 → t.teamAt j = s.teamAt j) ∧ ∃ ms : List Inflight,
    t.teamAt (o.pick / 64) = { s.teamAt (o.pick / 64) with inflight := (s.teamAt (o.pick / 64)).inflight ++ ms } ∧
    ∀ x ∈ ms, x.op = k

theorem State.markLate_marks (s : State) (k : Nat) (o : Op) :
    LateMarks s (s.markLate k o) k o ∧ { s.markLate k o with teams := s.teams } = s := by
  unfold State.markLate
  dsimp only
  split
  · exact ⟨⟨fun _ _ => rfl, [], by simp, by simp⟩, rfl⟩
  · refine ⟨⟨fun j hj => (State.setTeamAt_teamAt _ _ _ j).trans (if_neg hj), _, State.setTeamAt_teamAt_self _ _ _, ?_⟩, rfl⟩
    intro x hx
    obtain ⟨y, -, rfl⟩ := List.mem_map.mp hx
    rfl

/-! ## Refused accesses -/

/-- The state in which a refused access of pick k ends: what the fault held has been released. -/
def State.refusing (s : State) (ctx : Nat) (f : FaultRec) (k : Nat) : State :=
  { s.releaseFault ctx f (if f.landing then [f.va / 65536] else []) with inst := f.inst, cur := k }

/-- A state that goes on with the pick and the word that another executes. -/
def State.backTo (t s : State) : State := { t with cur := s.cur, inst := s.inst }

/-- The trap of a refused access of the S-stream. -/
def FaultRec.scalarTrap (f : FaultRec) (c : Cause) (spc : Word) : TrapReq :=
  { cause := c, tval := BitVec.ofNat 64 f.va, src := true, tspc := spc }

theorem State.refuseFault_scalar (s : State) (ctx : Nat) {f : FaultRec} {k : Nat} (hw : f.who = .inl k) (c : Cause) :
    s.refuseFault ctx f c =
      ((s.refusing ctx f k).takeTrap (f.scalarTrap c (s.refusing ctx f k).pick.spc)).backTo s := by
  unfold State.refuseFault
  rw [hw]
  rfl

/-- The trap of a refused access of lanes. -/
def FaultRec.laneTrap (f : FaultRec) (c : Cause) (strands : BitVec 8) (spc : Word) : TrapReq :=
  { cause := c, tval := BitVec.ofNat 64 f.va, tmask := f.lanes, frag := strands, src := false, tspc := spc }

theorem State.refuseFault_transfer (s : State) (ctx : Nat) {f : FaultRec} {k : Nat} (hw : f.who = .inr (.inl (k, 0)))
    (hl : f.landing = false) (c : Cause) : s.refuseFault ctx f c =
      ((s.refusing ctx f k).endByTrap k (f.laneTrap c 0 (s.refusing ctx f k).pick.spc) 0 0).backTo s := by
  unfold State.refuseFault
  rw [hw]
  exact if_neg (by simp [hl])

theorem State.refuseFault_lane (s : State) (ctx : Nat) {f : FaultRec} {k : Nat} {m : BitVec 8}
    (hw : f.who = .inr (.inl (k, m))) (hm : m ≠ 0) (hl : f.landing = false) (c : Cause) : s.refuseFault ctx f c =
      ((s.refusing ctx f k).takeTrap (f.laneTrap c m (s.refusing ctx f k).pick.spc)).backTo s := by
  unfold State.refuseFault
  rw [hw]
  exact (if_neg (by simp [hl])).trans (if_neg hm)

theorem State.refuseFault_op (s : State) (ctx : Nat) {f : FaultRec} {k : Nat} {o : Op} (hw : f.who = .inr (.inr k))
    {pages : List Nat} (hp : pages = if f.landing then [f.va / 65536] else []) (ho : (s.releaseFault ctx f pages).opAt k = some o)
    (c : Cause) : s.refuseFault ctx f c =
      ((s.releaseFault ctx f pages).setOp k { o with fail := some (0, c), phase := .running }).backTo s := by
  subst hp
  unfold State.refuseFault
  simp only [hw]
  split
  · next h => exact absurd (ho.symm.trans h) (by simp)
  · next x h =>
    obtain rfl : o = x := Option.some.inj (ho.symm.trans h)
    rfl

/-- The refusal of an access of pick k stands before its trap: the fault is gone and, of that pick, nothing that a trap saves
differs. -/
def Refusing (s u : State) (ctx fid k : Nat) : Prop :=
  u.cur = k ∧ FaultLeft s u ctx fid ∧ u.ops = s.ops ∧ (∀ j, j ≠ k → u.pickAt j = s.pickAt j) ∧
  u.pick.trapSaved = (s.pickAt k).trapSaved ∧ u.pick.team = (s.pickAt k).team

/-- Where the released state replaces pick k by q, the refusal stands before its trap. -/
theorem State.refusing_of {s : State} {ctx k : Nat} {f : FaultRec} {q : Pick}
    (h : s.releaseFault ctx f (if f.landing then [f.va / 65536] else []) = (s.dropFault ctx f.fid).setPickAt k q)
    (hs : q.trapSaved = (s.pickAt k).trapSaved) (ht : q.team = (s.pickAt k).team) :
    Refusing s (s.refusing ctx f k) ctx f.fid k ∧ (s.refusing ctx f k).pick = q := by
  have hq : (s.refusing ctx f k).pick = q := by
    rw [State.refusing, h]
    exact State.setPickAt_pickAt_self _ _ _
  refine ⟨⟨rfl, ?_, ?_, fun j hj => ?_, by rw [hq]; exact hs, by rw [hq]; exact ht⟩, hq⟩
  · rw [State.refusing, h]
    exact (s.dropFault_left ctx f.fid).congr rfl rfl rfl
  · rw [State.refusing, h]
    rfl
  · rw [State.refusing, h]
    exact (State.setPickAt_pickAt _ _ _ j).trans (if_neg hj)

/-- A context whose fault was answered has its handler and its window still. -/
theorem FaultLeft.handler {s t : State} {ctx fid : Nat} (h : FaultLeft s t ctx fid) (k : Nat) :
    (t.ctxAt k).tvec = (s.ctxAt k).tvec ∧ (t.ctxAt k).twin = (s.ctxAt k).twin := by
  obtain ⟨h1, h2, -, -⟩ := h
  by_cases hk : k = ctx
  · rw [hk, h1]
    exact ⟨rfl, rfl⟩
  · rw [h2 k hk]
    exact ⟨rfl, rfl⟩

/-- The trap of a refused access, entered: its record is that of the pick as it stood, with the word that met the fault. -/
theorem Refusing.enters {s u : State} {ctx fid k : Nat} (h : Refusing s u ctx fid k) {r : TrapReq} (ha : r.async = false) :
    let t := (u.enterTrap r).backTo s
    FaultLeft s t ctx fid ∧ t.ops = s.ops ∧ (∀ j, j ≠ k → t.pickAt j = s.pickAt j) ∧
    TookTrap { s with cur := k } { t with cur := k } r.cause r.tval r.tmask r.src r.tspc ∧
    (t.pickAt k).trec.tinst = u.inst ∧ (t.pickAt k).trec.frag = r.frag := by
  obtain ⟨rfl, hleft, hops, hpicks, hsaved, hteam⟩ := h
  obtain ⟨htvec, htwin⟩ := hleft.handler u.team.ctx
  have hctx : ({ s with cur := u.cur } : State).ctx = s.ctxAt u.team.ctx := by
    obtain ⟨-, -, -, hteams⟩ := hleft
    rw [State.team, hteam, State.teamAt, hteams]
    rfl
  simp only [Pick.trapSaved, Prod.mk.injEq] at hsaved
  obtain ⟨hb, hwb, hfm⟩ := hsaved
  have htook := u.enterTrap_record ha
  have hpick : (u.enterTrap r).pickAt u.cur = (u.enterTrap r).pick := rfl
  have hrec : (u.enterTrap r).pick.trec.tinst = u.inst ∧ (u.enterTrap r).pick.trec.frag = r.frag := by
    simp [State.enterTrap, Pick.formRecord, ha]
  refine ⟨hleft.congr rfl rfl rfl, hops, fun j hj => ?_, ?_, hrec⟩
  · exact (State.setPick_pickAt_ne u _ hj).trans (hpicks j hj)
  · have hnow : ({ (u.enterTrap r).backTo s with cur := u.cur } : State).pick = (u.enterTrap r).pick := rfl
    have hp : ({ s with cur := u.cur } : State).pick = s.pickAt u.cur := rfl
    unfold TookTrap at htook ⊢
    rw [hnow, hctx, hp, ← htvec, ← htwin, ← hb, ← hwb, ← hfm]
    exact htook

/-! ## The end of a context whose registers cannot be moved -/

theorem State.dump_ctxs (s : State) (ctx reason die : Nat) (body : List Byte) : (s.dump ctx reason die body).ctxs = s.ctxs := by
  unfold State.dump
  dsimp only
  rw [apply_ite State.ctxs, ite_eq_iff']
  refine ⟨fun _ => rfl, fun _ => ?_⟩
  generalize s.resolve2 _ _ _ _ = r
  cases r with
  | error e => rfl
  | ok x => exact (congrArg State.ctxs (s.putUnits_withMemoryOf deviceAgent [] _ s) :)

/-- The context has ended by a trap with this cause (R428). -/
def EndedByTrap (t : State) (ctx : Nat) (c : Cause) : Prop :=
  (t.ctxAt ctx).ended = true ∧ (t.ctxAt ctx).st = 3 ∧ (t.ctxAt ctx).endStatus = 4 ∧ (t.ctxAt ctx).endCause = c.code ∧
    (t.ctxAt ctx).faults = []

/-- A pick's trap ends its context, with a dump or without (R428, R481). -/
theorem State.endByTrap_ended {s : State} {key ctx : Nat} (hctx : (s.teamAt (s.pickAt key).team).ctx = ctx)
    (h : (s.ctxAt ctx).ended = false) (r : TrapReq) (frag : Nat) (inst : BitVec 96) :
    EndedByTrap (s.endByTrap key r frag inst) ctx r.cause := by
  have hends (u : State) (hu : u.ctxs = s.ctxs) : EndedByTrap (u.endContext ctx 4 r.cause.code) ctx r.cause := by
    have hopen : (u.ctxAt ctx).ended = false := by rw [State.ctxAt, hu]; exact h
    obtain ⟨he, -⟩ := State.endContext_ended hopen 4 r.cause.code
    rw [EndedByTrap, he]
    exact ⟨rfl, rfl, rfl, rfl, rfl⟩
  unfold State.endByTrap
  dsimp only
  rw [hctx]
  split
  · exact hends _ (State.dump_ctxs _ _ _ _ _)
  · exact hends _ rfl

/-! ## The refusals of each kind of access -/

section
variable {s : State} {ctx : Nat} {f : FaultRec} {k : Nat} {c : Cause}

/-- A refused access of the S-stream traps at once where the pick can take a trap. -/
theorem refused_scalar_traps (hw : f.who = .inl k) (hwait : (s.pickAt k).wait = .fault f.fid)
    (ht : ({ s with cur := k } : State).takesTraps) (hc : c ≠ .dataPoison) :
    let t := s.refuseFault ctx f c
    FaultLeft s t ctx f.fid ∧ t.ops = s.ops ∧ (∀ j, j ≠ k → t.pickAt j = s.pickAt j) ∧
    TookTrap { s with cur := k } { t with cur := k } c (BitVec.ofNat 64 f.va) 0 true (s.pickAt k).spc ∧
    (t.pickAt k).trec.tinst = f.inst := by
  obtain ⟨hu, hq⟩ := State.refusing_of (s.releaseFault_scalar ctx hw hwait _) rfl rfl
  have htakes : (s.refusing ctx f k).takesTraps := by
    unfold State.takesTraps
    rw [hq]
    exact ht
  dsimp only
  rw [s.refuseFault_scalar ctx hw c, htakes.takeTrap_eq rfl, if_neg (show (f.scalarTrap c _).cause ≠ .dataPoison from hc), hq]
  obtain ⟨hleft, hops, hpicks, htook, hinst, -⟩ := hu.enters (r := f.scalarTrap c (s.pickAt k).spc) rfl
  exact ⟨hleft, hops, hpicks, htook, hinst⟩

/-- A refused access of the S-stream of a parked pick leaves its trap waiting (R99). -/
theorem refused_scalar_waits (hw : f.who = .inl k) (hwait : (s.pickAt k).wait = .fault f.fid)
    (hp : (s.pickAt k).parked = true) (hh : (s.pickAt k).held = none) (hc : c ≠ .dataPoison) :
    let t := s.refuseFault ctx f c
    FaultLeft s t ctx f.fid ∧ t.ops = s.ops ∧ (∀ j, j ≠ k → t.pickAt j = s.pickAt j) ∧
    ∃ r : TrapReq, r.cause = c ∧ r.tval = BitVec.ofNat 64 f.va ∧ r.tspc = (s.pickAt k).spc ∧
      t.pickAt k = { s.pickAt k with wait := .none, held := some r } := by
  obtain ⟨⟨hcur, hleft, hops, hpicks, -, -⟩, hq⟩ := State.refusing_of (s.releaseFault_scalar ctx hw hwait _) rfl rfl
  let r := f.scalarTrap c (s.pickAt k).spc
  have htake : (s.refusing ctx f k).takeTrap r = (s.refusing ctx f k).setPick
      { s.pickAt k with wait := .none, held := some { r with inst := (s.refusing ctx f k).inst } } := by
    simp [State.takeTrap, r, FaultRec.scalarTrap, hc, hq, hp, hh]
  dsimp only
  rw [s.refuseFault_scalar ctx hw c, hq, htake]
  refine ⟨hleft.congr rfl rfl rfl, hops, fun j hj => ?_, { r with inst := (s.refusing ctx f k).inst }, rfl, rfl, rfl, ?_⟩
  · exact (State.setPick_pickAt_ne (s.refusing ctx f k) _ (by rw [hcur]; exact hj)).trans (hpicks j hj)
  · exact State.setPickAt_pickAt_self (s.refusing ctx f k) k _

/-- A refused spill or restore ends the context of its pick (R97). -/
theorem refused_transfer_ends (hw : f.who = .inr (.inl (k, 0))) (hl : f.landing = false)
    (hctx : (s.teamAt (s.pickAt k).team).ctx = ctx) (he : (s.ctxAt ctx).ended = false) :
    EndedByTrap (s.refuseFault ctx f c) ctx c := by
  have hopen : ((s.refusing ctx f k).ctxAt ctx).ended = false := by
    rw [State.refusing, s.releaseFault_transfer ctx hw]
    exact (congrArg Context.ended (s.dropFault_ctxAt ctx f.fid ctx) :).trans he
  have hown : ((s.refusing ctx f k).teamAt ((s.refusing ctx f k).pickAt k).team).ctx = ctx := by
    rw [State.refusing, s.releaseFault_transfer ctx hw]
    exact hctx
  rw [s.refuseFault_transfer ctx hw hl c]
  exact State.endByTrap_ended hown hopen (f.laneTrap c 0 (s.refusing ctx f k).pick.spc) 0 0

/-- A refused access of lanes traps at once where the pick waits for nothing. -/
theorem refused_lane_traps {m : BitVec 8} (hw : f.who = .inr (.inl (k, m))) (hm : m ≠ 0) (hl : f.landing = false)
    (hmode : (s.pickAt k).mode = false) (hp : (s.pickAt k).parked = false) (hh : (s.pickAt k).held = none)
    (hwait : (s.pickAt k).wait = .none) (hc : c ≠ .dataPoison) :
    let t := s.refuseFault ctx f c
    FaultLeft s t ctx f.fid ∧ t.ops = s.ops ∧ (∀ j, j ≠ k → t.pickAt j = s.pickAt j) ∧
    TookTrap { s with cur := k } { t with cur := k } c (BitVec.ofNat 64 f.va) f.lanes false (s.pickAt k).spc ∧
    (t.pickAt k).trec.frag = m := by
  have hrel : s.releaseFault ctx f (if f.landing then [f.va / 65536] else []) =
      (s.dropFault ctx f.fid).setPickAt k ((s.pickAt k).unheld f.fid) := by
    rw [hl]
    exact s.releaseFault_lane ctx hw hm
  obtain ⟨hu, hq⟩ := State.refusing_of hrel rfl rfl
  have htake : (s.refusing ctx f k).takeTrap (f.laneTrap c m (s.pickAt k).spc) =
      (s.refusing ctx f k).enterTrap (f.laneTrap c m (s.pickAt k).spc) := by
    simp [State.takeTrap, State.deliverTrap, FaultRec.laneTrap, hc, hq, Pick.unheld, hp, hh, hmode, hwait]
  have hspc : (s.refusing ctx f k).pick.spc = (s.pickAt k).spc := by rw [hq]; rfl
  dsimp only
  rw [s.refuseFault_lane ctx hw hm hl c, hspc, htake]
  obtain ⟨hleft, hops, hpicks, htook, -, hfrag⟩ := hu.enters (r := f.laneTrap c m (s.pickAt k).spc) rfl
  exact ⟨hleft, hops, hpicks, htook, hfrag⟩

end

/-- The operation that a fault held runs again. -/
theorem released_op {s : State} {ctx k : Nat} {f : FaultRec} {o : Op} (hw : f.who = .inr (.inr k)) (ho : s.opAt k = some o)
    (hp : o.phase = .faulted f.fid) (hsent : o.path = 5 → o.sent = true) (pages : List Nat) :
    let t := s.releaseFault ctx f pages
    FaultLeft s { t with teams := s.teams } ctx f.fid ∧ LateMarks s t k o ∧ t.picks = s.picks ∧
    t.opAt k = some { o with phase := .running } ∧ ∀ j, j ≠ k → t.opAt j = s.opAt j := by
  let u := (s.dropFault ctx f.fid).setOp k { o with phase := .running }
  obtain ⟨hmarks, hkept⟩ := u.markLate_marks k o
  have hops (j : Nat) : (u.markLate k o).opAt j = u.opAt j := by
    rw [State.opAt, (congrArg State.ops hkept :), State.opAt]
  have hu (j : Nat) : u.opAt j = if j = k then some { o with phase := .running } else s.opAt j := by
    have hdrop : (s.dropFault ctx f.fid).opAt k = some o := ho
    rw [State.setOp_opAt, hdrop]
    rfl
  dsimp only
  rw [s.releaseFault_op ctx hw ho hp hsent pages]
  refine ⟨(s.dropFault_left ctx f.fid).congr (congrArg State.ctxs hkept :) (congrArg State.mem hkept :) rfl, hmarks,
    (congrArg State.picks hkept :), ?_, fun j hj => ?_⟩
  · rw [hops, hu, if_pos rfl]
  · rw [hops, hu, if_neg hj]

/-- A refused access of an operation fails it at step 0 (R471). -/
theorem refused_op {s : State} {ctx k : Nat} {f : FaultRec} {o : Op} (hw : f.who = .inr (.inr k)) (ho : s.opAt k = some o)
    (hp : o.phase = .faulted f.fid) (hsent : o.path = 5 → o.sent = true) (c : Cause) :
    let t := s.refuseFault ctx f c
    FaultLeft s { t with teams := s.teams } ctx f.fid ∧ LateMarks s t k o ∧ t.picks = s.picks ∧
    t.opAt k = some { o with phase := .running, fail := some (0, c) } ∧ ∀ j, j ≠ k → t.opAt j = s.opAt j := by
  obtain ⟨hleft, hlate, hpicks, hop, hothers⟩ := released_op (ctx := ctx) hw ho hp hsent
    (if f.landing then [f.va / 65536] else [])
  have hset := State.setOp_opAt (s.releaseFault ctx f (if f.landing then [f.va / 65536] else [])) k
    { o with fail := some (0, c), phase := .running }
  dsimp only
  rw [s.refuseFault_op ctx hw rfl hop c]
  refine ⟨hleft.congr rfl rfl rfl, hlate, hpicks, ?_, fun j hj => ?_⟩
  · exact (hset k).trans (by rw [if_pos rfl, hop]; rfl)
  · exact ((hset j).trans (if_neg hj)).trans (hothers j hj)

/-! ## Invalidations and the bucket -/

/-- An invalidation of a live context with none running begins, of the range that INVADDR and INVCNT give (R468). -/
theorem State.invalidate_begins {s : State} {ctx : Nat} (hlive : (s.ctxAt ctx).live = true) (hgo : (s.ctxAt ctx).invgo = 0)
    (n : Nat) : s.invalidate ctx n = s.setCtxAt ctx { s.ctxAt ctx with
      invgo := n, invRun := ((s.ctxAt ctx).invaddr, (s.ctxAt ctx).invcnt.toNat, s.nextW) } := by
  unfold State.invalidate
  exact if_neg (by simp [hlive, hgo])

theorem setCtxAt_only (s : State) (ctx : Nat) (c : Context) : { s.setCtxAt ctx c with ctxs := s.ctxs } = s ∧
    (∀ k, k ≠ ctx → (s.setCtxAt ctx c).ctxAt k = s.ctxAt k) ∧ (s.setCtxAt ctx c).ctxAt ctx = c :=
  ⟨rfl, fun k hk => (State.setCtxAt_ctxAt s ctx c k).trans (if_neg hk), State.setCtxAt_ctxAt_self s ctx c⟩

/-- The writes that went through a removed translation are performed at system scope (R468). -/
def State.performed (s : State) (ctx : Nat) : State :=
  { s with wlog := s.wlog.map (fun r => if s.usedRemoved ctx r then { r with done := true } else r) }

/-- The state in which an invalidation is over, but for the range of a world's. -/
def State.invOver (s : State) (ctx : Nat) : State :=
  let c := s.ctxAt ctx
  (s.performed ctx).setCtxAt ctx { c with invgo := 0, invs := if c.invgo = 1 then c.invRun :: c.invs else c.invs }

theorem exec_invalidationComplete (s : State) (ctx : Nat) : exec (.invalidationComplete ctx) s =
    .next (if (s.ctxAt ctx).invgo = 2 then (s.invOver ctx).setWorldAt (s.ctxAt ctx).world
        { s.worldAt (s.ctxAt ctx).world with invs := (s.ctxAt ctx).invRun :: (s.worldAt (s.ctxAt ctx).world).invs }
      else s.invOver ctx) := rfl

theorem invalidationComplete_ends (s : State) (ctx : Nat) : Completes (.invalidationComplete ctx) s fun t =>
    let c := s.ctxAt ctx
    { t with ctxs := s.ctxs, worlds := s.worlds, wlog := s.wlog } = s ∧ (∀ k, k ≠ ctx → t.ctxAt k = s.ctxAt k) ∧
    t.wlog = s.wlog.map (fun r => if s.usedRemoved ctx r then { r with done := true } else r) ∧
    t.ctxAt ctx = { c with invgo := 0, invs := if c.invgo = 1 then c.invRun :: c.invs else c.invs } ∧
    ∀ w, t.worldAt w = if w = c.world ∧ c.invgo = 2 then { s.worldAt w with invs := c.invRun :: (s.worldAt w).invs }
      else s.worldAt w := by
  obtain ⟨-, hothers, hown⟩ := setCtxAt_only (s.performed ctx) ctx { s.ctxAt ctx with
    invgo := 0, invs := if (s.ctxAt ctx).invgo = 1 then (s.ctxAt ctx).invRun :: (s.ctxAt ctx).invs else (s.ctxAt ctx).invs }
  refine ⟨_, exec_invalidationComplete s ctx, ?_⟩
  dsimp only
  split
  · next h2 =>
    refine ⟨rfl, hothers, rfl, hown, fun w => (State.setWorldAt_worldAt _ _ _ w).trans ?_⟩
    by_cases hw : w = (s.ctxAt ctx).world
    · rw [if_pos hw, if_pos ⟨hw, h2⟩, hw]
    · rw [if_neg hw, if_neg (fun h => hw h.1)]
      rfl
  · next h2 => exact ⟨rfl, hothers, rfl, hown, fun w => (if_neg (fun h => h2 h.2)).symm⟩

/-- One enqueue comes back to a bucket, up to RATE (R442). -/
theorem rateBudgetRefill_refills (s : State) (p : Nat) : Completes (.rateBudgetRefill p) s fun t =>
    { t with filters := s.filters } = s ∧
    (let f := tget ({} : Filter) s.filters p
     tget ({} : Filter) t.filters p = { f with budget := min (f.word.toNat / 2 ^ 176 % 2 ^ 16) (f.budget + 1) }) ∧
    ∀ k, k ≠ p → tget ({} : Filter) t.filters k = tget ({} : Filter) s.filters k := by
  refine ⟨_, rfl, rfl, ?_, fun k hk => tget_tput_ne _ _ _ hk⟩
  dsimp only
  rw [tget_tput_self, bits, Nat.shiftRight_eq_div_pow]

/-- Settles O48: an answer by what the fault held, an invalidation by the one context and world that it sets. -/
theorem faultAnswers : Obligations.FaultAnswers := by
  intro s ctx fid hyp c
  refine ⟨rfl, xresp_unnamed, fun f hf => ?_, ?_, rateBudgetRefill_refills s fid⟩
  · obtain rfl := State.faultFor_fid hf
    have hreplay := xresp_replays hf
    have hrefuse := xresp_refuses hf
    refine ⟨fun k hw hwait => ⟨⟨_, hreplay, ?_⟩, fun ht e he => ?_, fun hp hh e he => ?_⟩,
      fun k hw hl => ⟨⟨_, hreplay, ?_⟩, fun hctx hend e he => ?_⟩,
      fun k m hw hm hl => ⟨⟨_, hreplay, ?_⟩, fun hmode hp hh hwait e he => ?_⟩,
      fun k o hw ho hp hsent => ⟨⟨_, hreplay, ?_⟩, fun e he => ?_⟩⟩
    · rw [s.releaseFault_scalar ctx hw hwait]
      exact ⟨(s.dropFault_left ctx f.fid).congr rfl rfl rfl, rfl, State.setPickAt_pickAt_self _ _ _,
        fun j hj => (State.setPickAt_pickAt _ _ _ j).trans (if_neg hj)⟩
    · obtain ⟨hexec, hc⟩ := hrefuse e he
      exact ⟨_, hexec, refused_scalar_traps hw hwait ht hc⟩
    · obtain ⟨hexec, hc⟩ := hrefuse e he
      exact ⟨_, hexec, refused_scalar_waits hw hwait hp hh hc⟩
    · rw [s.releaseFault_transfer ctx hw]
      exact ⟨s.dropFault_left ctx f.fid, rfl⟩
    · obtain ⟨hexec, -⟩ := hrefuse e he
      exact ⟨_, hexec, refused_transfer_ends hw hl hctx hend⟩
    · rw [s.releaseFault_lane ctx hw hm]
      refine ⟨(s.dropFault_left ctx f.fid).congr rfl rfl rfl, rfl,
        fun j hj => (State.setPickAt_pickAt _ _ _ j).trans (if_neg hj), ?_⟩
      rw [State.setPickAt_pickAt_self]
      exact Pick.unheld_frags _ _
    · obtain ⟨hexec, hc⟩ := hrefuse e he
      exact ⟨_, hexec, refused_lane_traps hw hm hl hmode hp hh hwait hc⟩
    · exact released_op hw ho hp hsent []
    · obtain ⟨hexec, -⟩ := hrefuse e he
      exact ⟨_, hexec, refused_op hw ho hp hsent e.2⟩
  · refine ⟨fun hlive hgo => ⟨⟨_, rfl, ?_⟩, ⟨_, rfl, ?_⟩⟩, invalidationComplete_ends s ctx⟩
    · rw [State.invalidate_begins hlive hgo]
      exact setCtxAt_only s ctx _
    · rw [State.invalidate_begins hlive hgo]
      exact setCtxAt_only s ctx _

end Sys2Proof.Machine
end

section
/-! SUPPORT. The end of a lane instruction that issues no result: the strands of its fragment move, and the rest is what its
own effect left (R59, R68, R105). -/

namespace Sys2Proof.Machine

/-- A lane instruction that touches no register commits its own effect and moves its strands. -/
theorem State.laneCommit_effect (s : State) (stall : BitVec 4) (m : Word) (move : Nat → Strand → Strand) (fin : State → State) :
    s.laneCommit stall m [] [] move fin = .next ((fin (s.setPick s.pick)).laneDone stall m move) := by
  have h : s.shortBank s.pick [] = none := by simp [State.shortBank]
  simp only [State.laneCommit, freedBy, List.filter_nil, List.flatMap_nil, List.foldl_nil, List.filterMap_nil, h]

/-- A strand with no lane is popped wherever it stands (R56). -/
theorem Strand.settle_nextL {x : Strand} (h : x.mask = 0) (n : Nat) : (nextL n x).settle = x.settle := by
  have hm : (nextL n x).mask = 0 := h
  unfold Strand.settle
  cases hs : x.stack with
  | nil =>
    have : (nextL n x).stack = [] := hs
    rw [this, Strand.popAll, Strand.popAll, if_pos hm, if_pos h]
    rfl
  | cons e es =>
    have : (nextL n x).stack = e :: es := hs
    rw [this, Strand.popAll, Strand.popAll, if_pos (.inl hm), if_pos (.inl h)]
    rfl

/-- With no lane of it in a transaction that aborts, a strand goes on in sequence. -/
theorem Strand.settle_moveAborting_nil (txs : List (Nat × Tx)) (n : Nat) (x : Strand) :
    (moveAborting txs [] nextL n x).settle = (nextL n x).settle := by
  show (if x.mask = 0#4 then x else nextL n x).settle = _
  split
  · next h => exact (Strand.settle_nextL h n).symm
  · rfl

theorem State.fragment_congr {s u : State} (hl : u.pick.ls = s.pick.ls) (hf : u.frag = s.frag) : u.fragment = s.fragment := by
  simp only [State.fragment, hl, hf]

/-- How the end of an instruction whose effect leaves the strands alone moves them. -/
theorem State.laneDone_strandsMove {s u : State} (hl : u.pick.ls = s.pick.ls) (hf : u.frag = s.frag) (stall : BitVec 4)
    (m : Word) {move g : Nat → Strand → Strand}
    (h : ∀ n x, x.mask = (s.pick.ls.strand n).mask → x.stack = (s.pick.ls.strand n).stack → (move n x).settle = (g n x).settle) :
    StrandsMove s (u.laneDone stall m move) g := by
  obtain ⟨l, hp, hs⟩ := u.laneDone_pick stall m move
  intro n
  have e : (u.laneDone stall m move).pick.ls = l := by
    rw [hp]; exact Pick.setLs_ls u.pick l
  rw [e, hs n, State.fragment_congr hl hf, hl]
  split
  · exact h n _ rfl rfl
  · rfl

/-- What the end of a lane instruction leaves of its pick but for the strands: what its effect made of it. -/
theorem State.laneDone_pickOwn (u : State) (stall : BitVec 4) (m : Word) (move : Nat → Strand → Strand) :
    { (u.laneDone stall m move).pick with lanes := u.pick.lanes, hlanes := u.pick.hlanes, nextLane := u.pick.nextLane,
                                          parkWant := u.pick.parkWant } = u.pick ∧
    (u.laneDone stall m move).pick.nextLane = u.pick.clk + max stall.toNat 1 ∧
    (if u.pick.mode then (u.laneDone stall m move).pick.lanes = u.pick.lanes
      else (u.laneDone stall m move).pick.hlanes = u.pick.hlanes) := by
  obtain ⟨l, hp, -⟩ := u.laneDone_pick stall m move
  rw [hp]
  unfold Pick.setLs
  by_cases hm : u.pick.mode = true
  · simp only [if_pos hm, and_self]
  · simp only [if_neg hm, and_self]

/-- The end of a lane instruction touches picks, teams and dies alone. -/
theorem State.laneDone_eq (u : State) (stall : BitVec 4) (m : Word) (move : Nat → Strand → Strand) :
    ∃ ps ts ds, u.laneDone stall m move = { u with picks := ps, teams := ts, dies := ds } := by
  unfold State.laneDone
  dsimp only
  split
  · exact ⟨_, _, _, rfl⟩
  · exact ⟨_, _, _, rfl⟩

theorem PickMoves.trans {s t u : State} (h : PickMoves s t) (k : PickMoves t u) : PickMoves s u := by
  have hc : t.cur = s.cur := (congrArg State.cur h.1 :)
  exact ⟨by rw [← h.1, ← k.1], fun j hj => (k.2 j (hc ▸ hj)).trans (h.2 j hj)⟩

theorem PickMoves.symm {s t : State} (h : PickMoves s t) : PickMoves t s := by
  have hc : t.cur = s.cur := (congrArg State.cur h.1 :)
  obtain ⟨ps, e⟩ : ∃ ps, t = { s with picks := ps } := ⟨t.picks, by rw [← h.1]⟩
  exact ⟨by rw [e], fun j hj => (h.2 j (hc ▸ hj)).symm⟩

/-- What a lane instruction leaves outside its pick whose own effect lies in its pick. -/
theorem PickMoves.laneDone_frame {s u : State} (h : PickMoves s u) (ht : u.pick.team = s.pick.team) (stall : BitVec 4) (m : Word)
    (move : Nat → Strand → Strand) : LaneFrame s (u.laneDone stall m move) m := by
  have hd : u.dies = s.dies := (congrArg State.dies h.1 :)
  have e := congrArg (fun w : State => { w with dies := s.dies }) h.1
  exact State.laneDone_frame ⟨e, h.2⟩ ht (fun k => by simp only [State.dieAt, hd]) _ _ _

end Sys2Proof.Machine
end

section
/-! SUPPORT. VFENCE outside transactions: the results it waits for, and what a fence of a lane leaves (R105, R178, R191, R318,
R322). -/

namespace Sys2Proof.Machine

/-! ## The results awaited -/

/-- The name that results delivered in order leave: in each lane the value of the last one that has it (R105). -/
theorem Pick.foldl_finish_name (qs : List Pending) (p : Pick) (n : Nat) (h : (p.name n).st = .allocated) (i : Nat) :
    tget 0 ((qs.foldl Pick.finish p).name n).val i =
      match (qs.filter (fun q => q.dest == .vreg n && q.mask.getLsbD i)).getLast? with
      | some q => tget 0 q.vals i
      | none => tget 0 (p.name n).val i := by
  induction qs generalizing p with
  | nil => rfl
  | cons q qs ih =>
    obtain ⟨⟨hst, hval, -, -⟩, -, -⟩ := p.finish_result q
    rw [List.foldl_cons, ih _ ((hst n).trans h), hval n i]
    by_cases hq : q.dest = .vreg n ∧ q.mask.getLsbD i = true
    · rw [if_pos ⟨hq.1, h, hq.2⟩, List.filter_cons_of_pos (by rw [hq.1, hq.2]; simp), List.getLast?_cons]
      cases (qs.filter (fun q => q.dest == .vreg n && q.mask.getLsbD i)).getLast? <;> rfl
    · rw [if_neg fun x => hq ⟨x.1, x.2.2⟩, List.filter_cons_of_neg (by simpa using hq)]

/-- The results that VFENCE waits for: the loads, and what was issued before one to its name (R105, R318). -/
def Pick.awaited (p : Pick) (q : Pending) : Bool := q.dest != .nothing &&
  (q.isVar || p.pending.any (fun x => x.isVar && x.dest == q.dest && decide (q.seq < x.seq)))

theorem Pick.awaitLoads_eq (p : Pick) : p.awaitLoads = p.flush p.awaited := by
  unfold Pick.awaitLoads Pick.flushInOrder
  congr 1
  funext q
  unfold Pick.awaited
  dsimp only
  by_cases hd : q.dest = .nothing
  · rw [hd]; simp
  · have hne : (q.dest != .nothing) = true := bne_iff_ne.mpr hd
    have hany : p.pending.any (fun x => x.isVar && x.dest != .nothing && x.dest == q.dest && decide (q.seq < x.seq)) =
        p.pending.any (fun x => x.isVar && x.dest == q.dest && decide (q.seq < x.seq)) := by
      congr 1
      funext x
      by_cases hx : x.dest = q.dest
      · rw [hx, hne, Bool.and_true]
      · rw [beq_false_of_ne hx, Bool.and_false, Bool.and_false]
    rw [hany, hne, Bool.and_true, Bool.true_and, Bool.true_and]

/-- What waiting for results leaves of a pick. -/
theorem Pick.awaitLoads_result (p : Pick) :
    p.OnlyResults p.awaitLoads ∧ p.awaitLoads.clk = p.clk ∧ p.awaitLoads.pending = p.pending.filter (fun q => !p.awaited q) ∧
    ∀ n, (p.name n).st = .allocated → ∀ i, tget 0 (p.awaitLoads.name n).val i =
      match (p.pending.filter (fun q => p.awaited q && q.dest == .vreg n && q.mask.getLsbD i)).getLast? with
      | some q => tget 0 q.vals i
      | none => tget 0 (p.name n).val i := by
  rw [Pick.awaitLoads_eq]
  refine ⟨(Pick.foldl_finish_onlyResults _ p).trans rfl, ?_, rfl, fun n hn i => ?_⟩
  · exact foldl_keeps Pick.clk (f := Pick.finish) (fun q r => (q.finish_result r).2.1) _ _
  · have h := Pick.foldl_finish_name (p.pending.filter p.awaited) p n hn i
    rw [List.filter_filter] at h
    refine Eq.trans h ?_
    congr 2
    refine List.filter_congr fun q _ => ?_
    rw [Bool.and_comm, Bool.and_assoc]

/-! ## A fence of a lane -/

/-- A pick with what fences change (R178, R179) as another has it: what its paths' acquires brought, and its release fences. -/
def Pick.withFencesOf (q p : Pick) : Pick := { q with paths := p.paths, relFence := p.relFence }

/-- What fences of lanes of the running block leave: the recorded writes but for who knows them, fewer near FADDs, and of the
pick its fences. -/
structure Fenced (s t : State) : Prop where
  own : { t with picks := s.picks, wlog := s.wlog, fadds := s.fadds } = s
  others : ∀ k, k ≠ s.cur → t.pickAt k = s.pickAt k
  log : SameLog s t
  fadds : ∀ f ∈ t.fadds, f ∈ s.fadds
  pick : t.pick.withFencesOf s.pick = s.pick
  relFence : ∀ e ∈ s.pick.relFence, e ∈ t.pick.relFence

theorem Fenced.refl (s : State) : Fenced s s := ⟨rfl, fun _ _ => rfl, rfl, fun _ h => h, rfl, fun _ h => h⟩

theorem Fenced.cur {s t : State} (h : Fenced s t) : t.cur = s.cur := (congrArg State.cur h.own :)

theorem Fenced.trans {s t u : State} (h : Fenced s t) (k : Fenced t u) : Fenced s u where
  own := by rw [← h.own, ← k.own]
  others j hj := (k.others j (h.cur ▸ hj)).trans (h.others j hj)
  log := k.log.trans h.log
  fadds f hf := h.fadds f (k.fadds f hf)
  pick := calc u.pick.withFencesOf s.pick = (u.pick.withFencesOf t.pick).withFencesOf s.pick := rfl
    _ = t.pick.withFencesOf s.pick := by rw [k.pick]
    _ = s.pick := h.pick
  relFence e he := k.relFence e (h.relFence e he)

/-- The pick in execution with other fences. -/
theorem Fenced.of_setPick {s : State} {p : Pick} (hp : p.withFencesOf s.pick = s.pick)
    (hr : ∀ e ∈ s.pick.relFence, e ∈ p.relFence) : Fenced s (s.setPick p) :=
  ⟨rfl, fun _ hk => State.setPick_pickAt_ne s p hk, rfl, fun _ h => h, by rw [State.setPick_pick]; exact hp,
    by rw [State.setPick_pick]; exact hr⟩

theorem State.learn_fenced (s : State) (key : Nat) (ids : List Nat) :
    Fenced s (s.learn key ids) ∧ (s.learn key ids).pick = s.pick := by
  obtain ⟨l, he, hl⟩ := s.learn_eq key ids
  rw [he]
  exact ⟨⟨rfl, fun _ _ => rfl, hl, fun _ h => h, rfl, fun _ h => h⟩, rfl⟩

theorem State.learnFor_fenced (s : State) {g : Agent} (hg : g.pick = s.cur) (ids : List Nat) :
    Fenced s (s.learnFor g ids) ∧ (s.learnFor g ids).pick.relFence = s.pick.relFence := by
  obtain ⟨hl, hp⟩ := s.learn_fenced g.key ids
  have hc : (s.learn g.key ids).cur = g.pick := hl.cur.trans hg.symm
  unfold State.learnFor
  dsimp only
  split
  · exact ⟨hl, congrArg Pick.relFence hp⟩
  · rw [← hc]
    refine ⟨hl.trans (Fenced.of_setPick rfl fun e he => he), ?_⟩
    refine (congrArg Pick.relFence (State.setPick_pick _ _)).trans ?_
    show (s.learn g.key ids).pick.relFence = _
    rw [hp]

theorem State.recallLoom_eq (s : State) (pick scp : Nat) :
    ∃ fa, s.recallLoom pick scp = { s with fadds := fa } ∧ ∀ f ∈ fa, f ∈ s.fadds := by
  unfold State.recallLoom
  dsimp only
  split
  · exact ⟨s.fadds, rfl, fun _ h => h⟩
  · exact ⟨_, rfl, fun _ h => List.mem_of_mem_filter h⟩

theorem State.recallLoom_fenced (s : State) (pick scp : Nat) :
    Fenced s (s.recallLoom pick scp) ∧ (s.recallLoom pick scp).pick = s.pick := by
  obtain ⟨fa, he, hf⟩ := s.recallLoom_eq pick scp
  rw [he]
  exact ⟨⟨rfl, fun _ _ => rfl, rfl, hf, rfl, fun _ h => h⟩, rfl⟩

/-- A fence of a lane (R178): an acquire fence makes no release fence, a release fence makes one of its agent. -/
theorem State.fence_fenced (s : State) {g : Agent} (hg : g.pick = s.cur) (kind scp : Nat) :
    Fenced s (s.fence g kind scp) ∧ (kind = 2 → (s.fence g kind scp).pick.relFence = s.pick.relFence) ∧
    (kind = 3 ∨ kind = 4 → ∃ r, (g.key, r) ∈ (s.fence g kind scp).pick.relFence ∧ r.pick = s.cur ∧ r.scope = scp) := by
  let s1 : State := if kind = 2 ∨ kind = 4 then
      s.learnFor g (((((s.pickAt g.pick).rlxSeen.filter (fun e => e.1 == g.key)).map (·.2)).filter
        (fun x => s.inScope x.scope x.pick g.pick && s.inScope scp g.pick x.pick)).flatMap
        (fun x => s.orderedIds x.scope scp x.ids))
    else s
  have h1 : Fenced s s1 ∧ s1.pick.relFence = s.pick.relFence := by
    by_cases hk : kind = 2 ∨ kind = 4
    · rw [show s1 = s.learnFor g _ from if_pos hk]
      exact s.learnFor_fenced hg _
    · rw [show s1 = s from if_neg hk]
      exact ⟨Fenced.refl s, rfl⟩
  have hc : g.pick = s1.cur := hg.trans h1.1.cur.symm
  have e : s.fence g kind scp = if kind = 3 ∨ kind = 4 then
      (s1.setPickAt g.pick { s1.pickAt g.pick with relFence := (s1.pickAt g.pick).relFence ++
        [(g.key, ⟨g.pick, scp, s1.knownIds g⟩)] }).recallLoom g.pick scp else s1 := rfl
  rw [e]
  by_cases hk : kind = 3 ∨ kind = 4
  · rw [if_pos hk]
    generalize hp : ({ s1.pickAt g.pick with relFence := (s1.pickAt g.pick).relFence ++
        [(g.key, ⟨g.pick, scp, s1.knownIds g⟩)] } : Pick) = p
    have hpc : s1.pickAt g.pick = s1.pick := by rw [hc]; rfl
    have hset : s1.setPickAt g.pick p = s1.setPick p := by rw [hc]; rfl
    obtain ⟨h2, hp2⟩ := (s1.setPick p).recallLoom_fenced g.pick scp
    have hrel : ((s1.setPick p).recallLoom g.pick scp).pick.relFence = s1.pick.relFence ++
        [(g.key, ⟨g.pick, scp, s1.knownIds g⟩)] := by
      rw [hp2, State.setPick_pick, ← hp, hpc]
    rw [hset]
    refine ⟨(h1.1.trans (Fenced.of_setPick ?_ ?_)).trans h2, ?_, fun _ => ⟨⟨g.pick, scp, s1.knownIds g⟩, ?_, hg, rfl⟩⟩
    · rw [← hp, hpc]; rfl
    · rw [← hp, hpc]; exact fun _ he => List.mem_append_left _ he
    · rintro rfl
      simp at hk
    · rw [hrel]; exact List.mem_append_right _ (List.mem_singleton_self _)
  · rw [if_neg hk]
    exact ⟨h1.1, fun _ => h1.2, fun h => absurd h hk⟩

theorem State.laneAgent_pick (s : State) (path i : Nat) : (s.laneAgent path i).pick = s.cur := by
  unfold State.laneAgent; split; split <;> rfl

theorem State.laneAgent_key (s : State) (path i : Nat) : (s.laneAgent path i).key = 64 * s.cur + i := by
  unfold State.laneAgent; split; split <;> rfl

/-- Fences of lanes one after the other. -/
theorem State.foldl_fence (is : List Nat) (s : State) (kind scp : Nat) :
    Fenced s (is.foldl (fun s i => s.fence (s.laneAgent 0 i) kind scp) s) ∧
    (kind = 2 → (is.foldl (fun s i => s.fence (s.laneAgent 0 i) kind scp) s).pick.relFence = s.pick.relFence) ∧
    (kind = 3 ∨ kind = 4 → ∀ i ∈ is, ∃ r, (64 * s.cur + i, r) ∈
      (is.foldl (fun s i => s.fence (s.laneAgent 0 i) kind scp) s).pick.relFence ∧ r.pick = s.cur ∧ r.scope = scp) := by
  induction is generalizing s with
  | nil => exact ⟨Fenced.refl s, fun _ => rfl, fun _ => nofun⟩
  | cons i is ih =>
    obtain ⟨h1, hacq, hrel⟩ := s.fence_fenced (s.laneAgent_pick 0 i) kind scp
    obtain ⟨h2, hacq2, hrel2⟩ := ih (s.fence (s.laneAgent 0 i) kind scp)
    refine ⟨h1.trans h2, fun hk => (hacq2 hk).trans (hacq hk), fun hk => List.forall_mem_cons.mpr ⟨?_, ?_⟩⟩
    · obtain ⟨r, hr, hp, hs⟩ := hrel hk
      rw [State.laneAgent_key] at hr
      exact ⟨r, h2.relFence _ hr, hp, hs⟩
    · have := hrel2 hk
      rwa [h1.cur] at this

/-- VFENCE of lanes in no transaction is fences of its active lanes after the results it waits for (R178, R318, R322). -/
theorem exec_vfence {s : State} {h : Hd} (kind scp : BitVec 3) (hr : s.laneReady h.pi h.pn [] [] = true)
    (htx : s.pick.txs = []) : ∃ v : State, v.pick = s.pick.awaitLoads ∧ PickMoves s v ∧ exec (.vfence h kind scp) s =
      .next (((lanesOf (s.lanesActive h.pi h.pn)).foldl (fun s i => s.fence (s.laneAgent 0 i) kind.toNat scp.toNat) v).laneDone
        h.stall (s.lanesActive h.pi h.pn) (moveAborting s.pick.modeTxs [] nextL)) := by
  have hin : (lanesOf (s.lanesActive h.pi h.pn)).filter (fun i => (s.pick.txs.lookup i).isSome) = [] :=
    List.filter_eq_nil_iff.mpr fun i _ => by rw [htx]; exact Bool.false_ne_true
  have hout : (lanesOf (s.lanesActive h.pi h.pn)).filter (fun i => (s.pick.txs.lookup i).isNone) =
      lanesOf (s.lanesActive h.pi h.pn) := List.filter_eq_self.mpr fun i _ => by rw [htx]; rfl
  have hset := (s.setPick s.pick.awaitLoads).setPick_setPick_moves (s.setPick s.pick.awaitLoads).pick
    (s.setPick s.pick.awaitLoads).pick
  refine ⟨((s.setPick s.pick.awaitLoads).setPick (s.setPick s.pick.awaitLoads).pick).setPick
    (s.setPick s.pick.awaitLoads).pick, ?_, ?_, ?_⟩
  · rw [hset.2, State.setPick_pick]
  · exact (s.setPick_moves _).trans hset.1
  · show execVfence h kind scp s = _
    rw [execVfence, State.laneGate_ready hr, State.noteLatent_nil]
    simp only [hin, hout, List.map_nil, Pick.abortAll_nil, State.laneCommit_effect, State.setPick_pick]

/-- What fences leave and then the end of the instruction, outside the pick. -/
theorem Fenced.laneDone_frame {s v u : State} (hv : PickMoves s v) (hf : Fenced v u) (ht : u.pick.team = s.pick.team)
    (stall : BitVec 4) (m : Word) (move : Nat → Strand → Strand) :
    LaneFrame { s with wlog := u.wlog, fadds := u.fadds } (u.laneDone stall m move) m := by
  have hc : v.cur = s.cur := (congrArg State.cur hv.1 :)
  refine State.laneDone_frame (s := { s with wlog := u.wlog, fadds := u.fadds })
    ⟨?_, fun k hk => (hf.others k (hc ▸ hk)).trans (hv.2 k hk)⟩ ht (fun k => ?_) stall m move
  · rw [← hv.1, ← hf.own]
  · have h1 : u.dies = v.dies := (congrArg State.dies hf.own :)
    have h2 : v.dies = s.dies := (congrArg State.dies hv.1 :)
    simp only [State.dieAt, h1, h2]

/-- A pick with all that VFENCE changes of one as another has it. -/
def Pick.withVfenceOf (q p : Pick) : Pick :=
  { q with names := p.names, preds := p.preds, ppoison := p.ppoison, pending := p.pending,
           paths := p.paths, lanes := p.lanes, hlanes := p.hlanes, queue := p.queue,
           hqueue := p.hqueue, nextLane := p.nextLane, parkWant := p.parkWant,
           moved := p.moved, relFence := p.relFence }

/-- What fences leave of the pick once its results are delivered and its strands have moved. -/
theorem Fenced.laneDone_pick {s v u : State} (hv : s.pick.OnlyResults v.pick) (hclk : v.pick.clk = s.pick.clk)
    (hf : Fenced v u) (stall : BitVec 4) (m : Word) (move : Nat → Strand → Strand) :
    (u.laneDone stall m move).pick.withVfenceOf s.pick = s.pick := by
  obtain ⟨hown, -, -⟩ := u.laneDone_pickOwn stall m move
  have h1 (q r : Pick) (h : { q with lanes := r.lanes, hlanes := r.hlanes, nextLane := r.nextLane, parkWant := r.parkWant } = r) :
      q.withVfenceOf s.pick = r.withVfenceOf s.pick := by rw [← h]; rfl
  have h2 (q r : Pick) (h : q.withFencesOf r = r) : q.withVfenceOf s.pick = r.withVfenceOf s.pick := by rw [← h]; rfl
  have h3 (q r : Pick) (h : r.OnlyResults q) (hc : q.clk = r.clk) : q.withVfenceOf r = r :=
    calc q.withVfenceOf r = { r.withResultsOf q with
            clk := q.clk, lanes := r.lanes, hlanes := r.hlanes, nextLane := r.nextLane, parkWant := r.parkWant,
            relFence := r.relFence } := rfl
      _ = r := by rw [h, hc]
  exact (h1 _ _ hown).trans ((h2 _ _ hf.pick).trans (h3 _ _ hv hclk))

/-- VFENCE of lanes in no transaction (R178, R318, R322). -/
theorem vfence_completes {s : State} {h : Hd} (kind scp : BitVec 3) (hr : s.laneReady h.pi h.pn [] [] = true)
    (htx : s.pick.txs = []) : Completes (.vfence h kind scp) s fun t =>
      let m := s.lanesActive h.pi h.pn
      LaneFrame { s with wlog := t.wlog, fadds := t.fadds } t m ∧ SameLog s t ∧ StrandsMove s t nextL ∧
      (∀ f ∈ t.fadds, f ∈ s.fadds) ∧ t.pick.withVfenceOf s.pick = s.pick ∧
      (kind = 2 → t.pick.relFence = s.pick.relFence) ∧
      (kind = 3 ∨ kind = 4 → ∀ i ∈ lanesOf m, ∃ r, (64 * s.cur + i, r) ∈ t.pick.relFence ∧ r.pick = s.cur ∧
        r.scope = scp.toNat) ∧
      t.pick.pending = s.pick.pending.filter (fun q => !s.pick.awaited q) ∧
      ∀ n, (s.pick.name n).st = .allocated → ∀ i, tget 0 (t.pick.name n).val i =
        match (s.pick.pending.filter (fun q => s.pick.awaited q && q.dest == .vreg n && q.mask.getLsbD i)).getLast? with
        | some q => tget 0 q.vals i
        | none => tget 0 (s.pick.name n).val i := by
  obtain ⟨v, hv, hmoves, hexec⟩ := exec_vfence kind scp hr htx
  obtain ⟨hres, hclk, hpend, hname⟩ := s.pick.awaitLoads_result
  rw [← hv] at hres hclk hpend hname
  obtain ⟨hf, hacq, hrel⟩ := v.foldl_fence (lanesOf (s.lanesActive h.pi h.pn)) kind.toNat scp.toNat
  generalize (lanesOf (s.lanesActive h.pi h.pn)).foldl (fun s i => s.fence (s.laneAgent 0 i) kind.toNat scp.toNat) v = u
    at hf hacq hrel hexec
  have hc : v.cur = s.cur := (congrArg State.cur hmoves.1 :)
  have hvw : v.wlog = s.wlog := (congrArg State.wlog hmoves.1 :)
  have hvf : v.fadds = s.fadds := (congrArg State.fadds hmoves.1 :)
  have hfrag : u.frag = s.frag := (congrArg State.frag hf.own :).trans (congrArg State.frag hmoves.1 :)
  have hls : u.pick.ls = s.pick.ls := (congrArg Pick.ls hf.pick :).trans (congrArg Pick.ls hres :)
  have hteam : u.pick.team = s.pick.team := (congrArg Pick.team hf.pick :).trans (congrArg Pick.team hres :)
  have hupend : u.pick.pending = v.pick.pending := (congrArg Pick.pending hf.pick :)
  have huname (n : Nat) : u.pick.name n = v.pick.name n := (congrArg (Pick.name · n) hf.pick :)
  let move := moveAborting s.pick.modeTxs [] nextL
  let m := s.lanesActive h.pi h.pn
  have hframe := hf.laneDone_frame hmoves hteam h.stall m move
  have hpick := hf.laneDone_pick hres hclk h.stall m move
  have hstrands : StrandsMove s (u.laneDone h.stall m move) nextL :=
    State.laneDone_strandsMove hls hfrag _ _ fun n x _ _ => Strand.settle_moveAborting_nil _ n x
  obtain ⟨hown, -, -⟩ := u.laneDone_pickOwn h.stall m move
  obtain ⟨ps, ts, ds, hdone⟩ := u.laneDone_eq h.stall m move
  refine ⟨u.laneDone h.stall m move, hexec, ?_⟩
  generalize u.laneDone h.stall m move = t at *
  have htw : t.wlog = u.wlog := by rw [hdone]
  have htf : t.fadds = u.fadds := by rw [hdone]
  have htr : t.pick.relFence = u.pick.relFence := (congrArg Pick.relFence hown :)
  have htp : t.pick.pending = u.pick.pending := (congrArg Pick.pending hown :)
  have htn (n : Nat) : t.pick.name n = u.pick.name n := (congrArg (Pick.name · n) hown :)
  refine ⟨?_, ?_, hstrands, ?_, hpick, fun hk => ?_, fun hk => ?_, ?_, fun n hn i => ?_⟩
  · rw [htw, htf]; exact hframe
  · have := hf.log
    rwa [SameLog, hvw, ← htw] at this
  · rw [htf, ← hvf]; exact hf.fadds
  · rw [htr, hacq (by rw [hk]; rfl)]
    exact (congrArg Pick.relFence hres :)
  · rw [htr, ← hc]
    exact hrel (hk.imp (fun e => by rw [e]; rfl) (fun e => by rw [e]; rfl))
  · rw [htp, hupend]; exact hpend
  · rw [htn, huname]; exact hname n hn i

end Sys2Proof.Machine
end

section
/-! SUPPORT. TXBEGIN of lanes in no transaction: what opening transactions leaves (R194, R323). -/

namespace Sys2Proof.Machine

/-- A result is of the states as their tables read. -/
theorem LaneResult.of_pickAt {s t t' : State} {stall : BitVec 4} {m : Word} {xs : List (Src × Nat)} {dest : Option Dest}
    {lat : Nat} {val : Nat → Word} {move : Nat → Strand → Strand} {sd : Word}
    (h : LaneResult s t stall m xs dest lat val move sd) (hm : PickMoves t t') (hp : t'.pick = t.pick) :
    LaneResult s t' stall m xs dest lat val move sd := by
  have hc : t'.cur = t.cur := (congrArg State.cur hm.1 :)
  have ht : t'.teams = t.teams := (congrArg State.teams hm.1 :)
  have hd : t'.dies = t.dies := (congrArg State.dies hm.1 :)
  obtain ⟨⟨h1, h2, h3, h4⟩, hrest⟩ := h
  have hcs : t.cur = s.cur := (congrArg State.cur h1 :)
  refine ⟨⟨?_, fun k hk => (hm.2 k (hcs ▸ hk)).trans (h2 k hk), fun k => ?_, fun k => ?_⟩, ?_⟩
  · have e := congrArg (fun w : State => { w with picks := s.picks, teams := s.teams, dies := s.dies }) hm.1
    exact e.trans h1
  · rw [← h3 k]; simp only [State.teamAt, ht]
  · rw [← h4 k]; simp only [State.dieAt, hd]
  · rw [hp]; exact hrest

/-- The pick after the strands of its fragment f moved (R59, R68, R105): what the end of a lane instruction makes of it. -/
def Pick.lanesDone (p : Pick) (f : Fragment) (frag fresh : Nat) (stall : BitVec 4) (move : Nat → Strand → Strand) : Pick :=
  let l1 := f.members.foldl (fun (l : LaneSet) n => l.setStrand n
    (Strand.settle (move n { l.strand n with dist := (l.strand n).dist + 1, issued := true, safept := none }))) p.ls
  let f1 : Fragment := { f with lastIssue := fresh, rise := 0, passed := 0, exempt := false, noServe := [] }
  { p.setLs ({ l1 with frags := l1.frags.set frag f1 } : LaneSet).repartition with
    nextLane := p.clk + max stall.toNat 1, parkWant := none }

/-- The state with a lane instruction counted for a team and a die (R451, R483). -/
def State.countLane (s : State) (team die : Nat) (m : Word) : State :=
  if m = 0 then s else (s.setTeamAt team { s.teamAt team with li := (s.teamAt team).li + 1 }).count die 0x000 1

theorem State.laneDone_parts (u : State) (stall : BitVec 4) (m : Word) (move : Nat → Strand → Strand) :
    u.laneDone stall m move =
      (u.setPick (u.pick.lanesDone u.fragment u.frag u.fresh stall move)).countLane u.pick.team u.team.die m := by
  have ht : (u.pick.lanesDone u.fragment u.frag u.fresh stall move).team = u.pick.team :=
    Pick.setLs_team _ _
  generalize hq : u.pick.lanesDone u.fragment u.frag u.fresh stall move = q at ht
  have e : u.laneDone stall m move = if m = 0 then u.setPick q
      else ((u.setPick q).setTeam { (u.setPick q).team with li := (u.setPick q).team.li + 1 }).count u.team.die 0x000 1 := by
    rw [← hq]; rfl
  rw [e, State.countLane, State.setTeam, State.team, State.setPick_pick, ht]

theorem Pick.lanesDone_txs (p : Pick) (x : List (Nat × Tx)) (f : Fragment) (frag fresh : Nat) (stall : BitVec 4)
    (move : Nat → Strand → Strand) : ({ p with txs := x } : Pick).lanesDone f frag fresh stall move =
      { p.lanesDone f frag fresh stall move with txs := x } := by
  have h (l : LaneSet) : ({ p with txs := x } : Pick).setLs l = { p.setLs l with txs := x } := by
    unfold Pick.setLs
    split <;> rfl
  unfold Pick.lanesDone
  dsimp only
  rw [h]
  rfl

theorem State.countLane_pickMoves {s t : State} (h : PickMoves s t) (team die : Nat) (m : Word) :
    PickMoves (s.countLane team die m) (t.countLane team die m) := by
  unfold State.countLane
  split
  · exact h
  · refine ⟨?_, h.2⟩
    obtain ⟨ps, rfl⟩ : ∃ ps, t = { s with picks := ps } := ⟨t.picks, by rw [← h.1]⟩
    rfl

theorem State.countLane_pick (s : State) (team die : Nat) (m : Word) : (s.countLane team die m).pick = s.pick := by
  unfold State.countLane
  split <;> rfl

/-- A lane instruction's own change of its pick's transactions shows in them alone. -/
theorem State.laneDone_setTxs (u : State) (x : List (Nat × Tx)) (stall : BitVec 4) (m : Word)
    (move : Nat → Strand → Strand) :
    let t := (u.setPick { u.pick with txs := x }).laneDone stall m move
    t.pick.txs = x ∧ PickMoves (u.laneDone stall m move) (t.setPick { t.pick with txs := u.pick.txs }) ∧
      (t.setPick { t.pick with txs := u.pick.txs }).pick = (u.laneDone stall m move).pick := by
  have htx : (u.pick.lanesDone u.fragment u.frag u.fresh stall move).txs = u.pick.txs := Pick.setLs_txs _ _
  have e : (u.setPick { u.pick with txs := x }).laneDone stall m move =
      ((u.setPick { u.pick with txs := x }).setPick
        { u.pick.lanesDone u.fragment u.frag u.fresh stall move with txs := x }).countLane u.pick.team u.team.die m := by
    have hf : (u.setPick { u.pick with txs := x }).fragment = u.fragment :=
      State.fragment_congr (by rw [State.setPick_pick]; rfl) rfl
    have ht : (u.setPick { u.pick with txs := x }).team = u.team := State.setPick_team _ _ rfl
    rw [State.laneDone_parts, hf, ht, State.setPick_pick, Pick.lanesDone_txs]
    rfl
  rw [State.laneDone_parts u, e]
  generalize u.pick.lanesDone u.fragment u.frag u.fresh stall move = q at htx
  dsimp only
  rw [State.setPick_pick, State.countLane_pick, State.countLane_pick, State.setPick_pick, State.setPick_pick]
  exact ⟨rfl, (State.countLane_pickMoves ((u.setPick_moves q).symm.trans
    ((u.setPick_moves _).trans (State.setPick_moves _ _))) _ _ _).trans (State.setPick_moves _ _), by rw [← htx]⟩

/-- A lane instruction of at most one result that finds its registers, whatever else it does: what its result makes of the
state, then its own effect, then the end (R90). -/
theorem State.laneCommit_ready {s : State} {m : Word} {xs : List (Src × Nat)} {dest : Option Dest}
    (hr : s.hasRoom m xs (destNames dest) = true) (stall : BitVec 4) (vs : Lanes) (lat : Nat) (move : Nat → Strand → Strand) :
    ∃ u, ∀ fin : State → State, s.laneCommit stall m xs (writesFor dest m vs lat) move fin =
      .next ((fin u).laneDone stall m move) := by
  have hns : ((writesFor dest m vs lat).filter (fun w => w.mask != 0)).filterMap (fun w => w.dest.lane) =
      if m = 0 then [] else destNames dest := by
    rcases dest with _ | x
    · simp [writesFor, destNames]
    · by_cases h0 : m = 0
      · simp [h0, writesFor]
      · have h0' : ¬ m = 0#32 := h0
        cases x <;> simp [h0', destNames, Dest.lane, writesFor]
  have hr' : s.shortBank ((freedBy xs).foldl Pick.freeName s.pick) (if m = 0 then [] else destNames dest) = none :=
    Option.isNone_iff_eq_none.mp hr
  refine ⟨s.setPick ((writesFor dest m vs lat).foldl (fun p w => (s.addWrite p w).joinWrite w)
    ((freedBy xs).foldl Pick.freeName s.pick)), fun fin => ?_⟩
  unfold State.laneCommit
  simp only [hns, hr']

theorem lookup_mapPairs {α : Type} (f : Nat → α) (l : List Nat) (i : Nat) :
    (l.map (fun k => (k, f k))).lookup i = if i ∈ l then some (f i) else none := by
  split
  · next h => exact List.lookup_graph f h
  · next h =>
    rw [List.lookup_eq_none_iff]
    rintro ⟨k, x⟩ hk
    obtain ⟨j, hj, e⟩ := List.mem_map.mp hk
    obtain rfl : j = k := congrArg Prod.fst e
    exact bne_iff_ne.mpr fun e : i = j => h (e ▸ hj)

/-! ## The statement's instruction -/

/-- The lanes of strand n that run, as TXBEGIN lists them. -/
def Pick.lanesIn (p : Pick) (n : Nat) : List Nat :=
  ((List.range 4).filter (fun j => (p.ls.strand n).mask.getLsbD j)).map (4 * n + ·)

theorem State.mem_lanesIn (s : State) {i : Nat} :
    i ∈ s.fragment.members.flatMap s.pick.lanesIn ↔ i ∈ lanesOf s.fragLanes := by
  rw [s.mem_fragLanes, List.mem_flatMap]
  simp only [Pick.lanesIn, List.mem_map, List.mem_filter, List.mem_range]
  constructor
  · rintro ⟨n, hn, j, ⟨hj, hm⟩, rfl⟩
    obtain ⟨h8, hb⟩ := mem_ones.mp hn
    have h1 : (4 * n + j) / 4 = n := by omega
    have h2 : (4 * n + j) % 4 = j := by omega
    rw [h1, h2]
    exact ⟨by omega, hb, hm⟩
  · rintro ⟨h32, hb, hm⟩
    exact ⟨i / 4, mem_ones.mpr ⟨by omega, hb⟩, i % 4, ⟨by omega, hm⟩, by omega⟩

theorem State.lanesIn_mask (s : State) : BitVec.ofNat 32 (maskOf (s.fragment.members.flatMap s.pick.lanesIn)) = s.fragLanes := by
  apply BitVec.eq_of_getLsbD_eq
  intro i hi
  rw [BitVec.getLsbD_ofNat, maskOf_testBit, Bool.eq_iff_iff]
  simp only [hi, decide_true, Bool.true_and, decide_eq_true_eq, s.mem_lanesIn, mem_lanesOf]

/-- The transaction that TXBEGIN opens in a lane (R323). -/
def Pick.openTx (p : Pick) (d : BitVec 8) (i : Nat) : Tx :=
  { status := d, height := (p.ls.strand (i / 4)).stack.length + 1, handler := p.mode }

/-- TXBEGIN where no lane of the fragment is in a transaction and no return stack is full (R323). -/
theorem exec_txbegin {s : State} (st : BitVec 4) (d : BitVec 8) (off : BitVec 12)
    (ht : ∀ i ∈ lanesOf s.fragLanes, s.pick.txs.lookup i = none)
    (hh : ∀ n ∈ s.fragment.members, (s.pick.ls.strand n).stack.length < 32) :
    exec (.txbegin st d off) s = s.laneCommit st s.fragLanes [] (writeTo d s.fragLanes (fun _ => 0) 4)
      (fun n x => if s.fragment.members.contains n then x.txBegin (s.laneRelative off)
        else moveAborting s.pick.modeTxs [] (fun _ x => x) n x)
      (fun u => u.setPick { u.pick with txs := u.pick.txs ++
        (s.fragment.members.flatMap s.pick.lanesIn).map (fun i => (i, s.pick.openTx d i)) }) := by
  have hin {n i : Nat} (hn : n ∈ s.fragment.members) (hi : i ∈ s.pick.lanesIn n) : s.pick.txs.lookup i = none :=
    ht i (s.mem_lanesIn.mp (List.mem_flatMap.mpr ⟨n, hn, hi⟩))
  have hok : s.fragment.members.filter (fun n => !(s.pick.lanesIn n).any (fun i => (s.pick.txs.lookup i).isSome)) =
      s.fragment.members := List.filter_eq_self.mpr fun n hn => by
    rw [Bool.not_eq_true', List.any_eq_false]
    intro i hi
    rw [hin hn hi]
    exact Bool.false_ne_true
  have hfull : s.fragment.members.filter (fun n => decide (32 ≤ (s.pick.ls.strand n).stack.length)) = [] :=
    List.filter_eq_nil_iff.mpr fun n hn => by simpa using hh n hn
  have hbad : (s.fragment.members.flatMap s.pick.lanesIn).filter (fun i => (s.pick.txs.lookup i).isSome) = [] :=
    List.filter_eq_nil_iff.mpr fun i hi => by rw [ht i (s.mem_lanesIn.mp hi)]; exact Bool.false_ne_true
  have hlanes (n : Nat) : ((List.range 4).filter (fun j => (s.pick.ls.strand n).mask.getLsbD j)).map (4 * n + ·) =
      s.pick.lanesIn n := rfl
  have htx (i : Nat) : ({ status := d, height := (s.pick.ls.strand (i / 4)).stack.length + 1, handler := s.pick.mode } : Tx) =
      s.pick.openTx d i := rfl
  show execTxbegin st d off s = _
  unfold execTxbegin
  simp only [hlanes, htx, hok, hfull, hbad, List.map_nil, Pick.abortAll_nil, s.lanesIn_mask, List.isEmpty_nil, Bool.not_true,
    Bool.false_eq_true, if_false]

/-- TXBEGIN of lanes in no transaction (R194, R323). -/
theorem txbegin_completes {s : State} (st : BitVec 4) (d : BitVec 8) (off : BitVec 12)
    (ht : ∀ i ∈ lanesOf s.fragLanes, s.pick.txs.lookup i = none)
    (hh : ∀ n ∈ s.fragment.members, (s.pick.ls.strand n).stack.length < 32)
    (hr : s.hasRoom s.fragLanes [] (destNames (destOf d)) = true) :
    Completes (.txbegin st d off) s fun t =>
      LaneResult s (t.setPick { t.pick with txs := s.pick.txs }) st s.fragLanes [] (destOf d) 4 (fun _ => 0)
        (fun _ x => x.txBegin (s.laneRelative off)) s.pick.seed ∧
      ∀ i, t.pick.txs.lookup i = if i ∈ lanesOf s.fragLanes then some (s.pick.openTx d i) else s.pick.txs.lookup i := by
  let move (n : Nat) (x : Strand) : Strand := if s.fragment.members.contains n then x.txBegin (s.laneRelative off)
    else moveAborting s.pick.modeTxs [] (fun _ x => x) n x
  obtain ⟨vs, hw, hv⟩ := writeTo_eq d s.fragLanes (fun _ => 0) 4
  obtain ⟨u, hu⟩ := State.laneCommit_ready hr st vs 4 move
  obtain ⟨t0, h0, hres⟩ := State.laneCommit_result (d0 := s.dies) (fun _ => rfl) (stall := st) (move := move) (fin := id)
    (sd := s.pick.seed) (lat := 4) (destOf_ne_nothing d) hv (fun _ _ => .inl ⟨rfl, rfl⟩) hr
  obtain rfl : u.laneDone st s.fragLanes move = t0 := by
    have := (hu id).symm.trans h0
    injection this
  have htx : u.pick.txs = s.pick.txs := by
    obtain ⟨hown, -, -⟩ := u.laneDone_pickOwn st s.fragLanes move
    exact (congrArg Pick.txs hown.symm :).trans (congrArg Pick.txs hres.2.1 :)
  let x := u.pick.txs ++ (s.fragment.members.flatMap s.pick.lanesIn).map (fun i => (i, s.pick.openTx d i))
  obtain ⟨ht1, hmoves, hpick⟩ := u.laneDone_setTxs x st s.fragLanes move
  refine ⟨(u.setPick { u.pick with txs := x }).laneDone st s.fragLanes move, ?_, ?_, fun i => ?_⟩
  · rw [exec_txbegin st d off ht hh, hw, hu]
  · rw [← htx]
    obtain ⟨hframe, h1, h2, h3, h4, hstrand, h5⟩ := hres.of_pickAt hmoves hpick
    refine ⟨hframe, h1, h2, h3, h4, fun n => ?_, h5⟩
    rw [hstrand n]
    split
    · next hn => simp only [move, List.contains_iff_mem.mpr hn, if_true]
    · rfl
  · rw [ht1, List.lookup_append, htx, lookup_mapPairs]
    simp only [s.mem_lanesIn]
    split
    · next hi => rw [ht i hi, Option.none_or]
    · rw [Option.or_none]

end Sys2Proof.Machine
end

section
/-! SUPPORT. Lanes whose transactions abort: their strands leave them, and their status registers take the word (R199, R324,
R326). -/

namespace Sys2Proof.Machine

/-! ## Lanes that leave the masks above an entry -/

/-- A strand whose current mask loses lanes, and the masks of its stack those that each of them loses. -/
def Strand.loseAbove (x : Strand) (b : BitVec 4) (f : Nat → BitVec 4) : Strand :=
  { x with mask := x.mask &&& ~~~b, stack := x.stack.mapIdx (fun k e => { e with mask := e.mask &&& ~~~f k }) }

theorem and_not_zero (y : BitVec 4) : y &&& ~~~(0#4) = y := by
  rw [show ~~~(0#4) = BitVec.allOnes 4 from rfl, BitVec.and_allOnes]

theorem Strand.loseAbove_zero (x : Strand) : x.loseAbove 0#4 (fun _ => 0#4) = x := by
  simp only [Strand.loseAbove, and_not_zero]
  rw [show (fun (_ : Nat) (e : StackEntry) => { e with mask := e.mask }) = fun _ e => e from rfl]
  simp only [List.mapIdx_eq_zipIdx_map, List.zipIdx_map_fst]

theorem Strand.loseAbove_loseAbove (x : Strand) (a b : BitVec 4) (f g : Nat → BitVec 4) :
    (x.loseAbove a f).loseAbove b g = x.loseAbove (a ||| b) (fun k => f k ||| g k) := by
  have h (y a b : BitVec 4) : y &&& ~~~a &&& ~~~b = y &&& ~~~(a ||| b) := by rw [BitVec.not_or, BitVec.and_assoc]
  simp only [Strand.loseAbove, h, List.mapIdx_mapIdx, Function.comp_def]

theorem Strand.dropLane_above (x : Strand) (j keep : Nat) :
    x.dropLane j keep = x.loseAbove (1#4 <<< j) (fun k => if k + keep < x.stack.length then 1#4 <<< j else 0#4) := by
  unfold Strand.dropLane Strand.loseAbove
  dsimp only
  congr 1
  refine List.ext_getElem (by simp) fun k h1 h2 => ?_
  have hk : k < x.stack.length := by simpa using h2
  rw [List.getElem_mapIdx]
  by_cases hlt : k + keep < x.stack.length
  · rw [List.getElem_append_left (by simp; omega), if_pos hlt]
    simp
  · rw [List.getElem_append_right (by simp; omega), if_neg hlt, and_not_zero]
    have : x.stack.length - keep + (k - (x.stack.length - keep)) = k := by omega
    simp [this]

/-- The lane i, by its place in strand n, if a transaction of it that passes a test on its height is on the list. -/
def txBit (txs : List (Nat × Tx)) (n : Nat) (test : Nat → Bool) (i : Nat) : BitVec 4 :=
  if i / 4 = n ∧ ((txs.lookup i).map (fun t => test t.height)).getD false = true then 1#4 <<< (i % 4) else 0#4

/-- The lanes of a list so. -/
def txBits (txs : List (Nat × Tx)) (n : Nat) (test : Nat → Bool) (is : List Nat) : BitVec 4 :=
  is.foldr (fun i b => txBit txs n test i ||| b) 0#4

theorem getLsbD_txBits (txs : List (Nat × Tx)) (n : Nat) (test : Nat → Bool) (is : List Nat) {j : Nat} (hj : j < 4) :
    (txBits txs n test is).getLsbD j = true ↔
      4 * n + j ∈ is ∧ ((txs.lookup (4 * n + j)).map (fun t => test t.height)).getD false = true := by
  have hbit (i : Nat) : (txBit txs n test i).getLsbD j = true ↔
      i = 4 * n + j ∧ ((txs.lookup (4 * n + j)).map (fun t => test t.height)).getD false = true := by
    unfold txBit
    split
    · next h =>
      rw [getLsbD_one_shiftLeft (Nat.mod_lt i (by decide)), decide_eq_true_eq]
      constructor
      · intro e
        have : i = 4 * n + j := by omega
        exact ⟨this, this ▸ h.2⟩
      · intro e; omega
    · next h =>
      rw [BitVec.getLsbD_zero]
      refine iff_of_false Bool.false_ne_true fun e => h ⟨by omega, by rw [e.1]; exact e.2⟩
  induction is with
  | nil => simp [txBits]
  | cons i is ih =>
    have e : txBits txs n test (i :: is) = txBit txs n test i ||| txBits txs n test is := rfl
    rw [e, BitVec.getLsbD_or, Bool.or_eq_true, List.mem_cons, or_and_right, eq_comm (b := i)]
    exact or_congr (hbit i) ih

/-- The strand that lanes leave whose transactions abort (R324). -/
theorem Strand.leaveTxs_eq (x : Strand) (n : Nat) (txs : List (Nat × Tx)) (is : List Nat) : x.leaveTxs n txs is =
    x.loseAbove (txBits txs n (fun _ => true) is) (fun k => txBits txs n (fun h => decide (k + h < x.stack.length)) is) := by
  induction is generalizing x with
  | nil => exact x.loseAbove_zero.symm
  | cons i is ih =>
    have hstep : (if i / 4 = n then (match txs.lookup i with | some t => x.dropLane (i % 4) t.height | none => x) else x) =
        x.loseAbove (txBit txs n (fun _ => true) i) (fun k => txBit txs n (fun h => decide (k + h < x.stack.length)) i) := by
      unfold txBit
      by_cases hi : i / 4 = n
      · cases ht : txs.lookup i with
        | none => simp [hi, Strand.loseAbove_zero]
        | some t =>
          rw [if_pos hi]
          refine (x.dropLane_above (i % 4) t.height).trans ?_
          simp [hi]
      · simp [hi, Strand.loseAbove_zero]
    have hc : x.leaveTxs n txs (i :: is) = Strand.leaveTxs
        (if i / 4 = n then (match txs.lookup i with | some t => x.dropLane (i % 4) t.height | none => x) else x) n txs is := rfl
    rw [hc, hstep, ih, Strand.loseAbove_loseAbove]
    simp only [Strand.loseAbove, List.length_mapIdx]
    rfl

/-- The lanes of a mask that are in a transaction of a list, with the height of its entry. -/
def leavingTxs (m : Word) (txs : List (Nat × Tx)) (i : Nat) : Option Nat :=
  if m.getLsbD i then (txs.lookup i).map (·.height) else none

/-- How a strand moves when transactions of lanes of it abort in an instruction that goes on in sequence (R324). -/
theorem moveAborting_eq_without {m : Word} {txs : List (Nat × Tx)} {is : List Nat}
    (h : ∀ i, (txs.lookup i).isSome → (i ∈ is ↔ m.getLsbD i = true)) (n : Nat) (x : Strand) :
    moveAborting txs is nextL n x = Strand.without (leavingTxs m txs) n x := by
  have hout (test : Nat → Bool) : txBits txs n test is = BitVec.ofNat 4 (maskOf ((List.range 4).filter
      (fun j => ((leavingTxs m txs (4 * n + j)).map test).getD false))) := by
    apply BitVec.eq_of_getLsbD_eq
    intro j hj
    rw [Bool.eq_iff_iff, getLsbD_txBits txs n test is hj, BitVec.getLsbD_ofNat, maskOf_testBit]
    simp only [hj, decide_true, Bool.true_and, decide_eq_true_eq, List.mem_filter, List.mem_range, true_and]
    unfold leavingTxs
    cases ht : txs.lookup (4 * n + j) with
    | none => simp
    | some t =>
      rw [h _ (by rw [ht]; rfl)]
      cases m.getLsbD (4 * n + j) <;> simp
  show (if (x.leaveTxs n txs is).mask = 0#4 then x.leaveTxs n txs is else nextL n (x.leaveTxs n txs is)) = _
  simp only [Strand.leaveTxs_eq, Strand.without, ← hout]
  rfl

/-- A strand whose last lanes abort resumes at the entry that its TXBEGIN pushed, with that entry's lanes (R324). -/
theorem Strand.without_resumes {keep : Nat → Option Nat} {n : Nat} {x : Strand} {A : Word} {e : StackEntry}
    {es : List StackEntry} (hs : x.stack = e :: es) (hpc : e.pc = some A) (hm : e.mask ≠ 0) (hr : e.rca ≠ some A)
    (hall : ∀ j < 4, x.mask.getLsbD j = true → keep (4 * n + j) = some (es.length + 1))
    (hno : ∀ j < 4, x.mask.getLsbD j = false → keep (4 * n + j) = none) :
    (Strand.without keep n x).settle.lpc = some A ∧ (Strand.without keep n x).settle.mask = e.mask ∧
      (Strand.without keep n x).settle.stack = es := by
  have hout (test : Nat → Bool) (ht : test (es.length + 1) = false) : BitVec.ofNat 4 (maskOf ((List.range 4).filter
      (fun j => ((keep (4 * n + j)).map test).getD false))) = 0#4 := by
    have : (List.range 4).filter (fun j => ((keep (4 * n + j)).map test).getD false) = [] :=
      List.filter_eq_nil_iff.mpr fun j hj => by
        cases hx : x.mask.getLsbD j with
        | true => rw [hall j (List.mem_range.mp hj) hx, Option.map_some, Option.getD_some, ht]; exact Bool.false_ne_true
        | false => rw [hno j (List.mem_range.mp hj) hx]; exact Bool.false_ne_true
    rw [this]
    rfl
  have hmask : x.mask &&& ~~~BitVec.ofNat 4 (maskOf ((List.range 4).filter
      (fun j => ((keep (4 * n + j)).map (fun _ => true)).getD false))) = 0#4 := by
    apply BitVec.eq_of_getLsbD_eq
    intro j hj
    rw [getLsbD_and_not, BitVec.getLsbD_ofNat, maskOf_testBit, BitVec.getLsbD_zero]
    cases hx : x.mask.getLsbD j with
    | true => simp [hj, hall j hj hx]
    | false => rfl
  have hlen : x.stack.length = es.length + 1 := by rw [hs]; rfl
  have hstack : x.stack.mapIdx (fun k e => { e with mask := e.mask &&& ~~~BitVec.ofNat 4 (maskOf ((List.range 4).filter
      (fun j => ((keep (4 * n + j)).map (fun h => decide (k + h < x.stack.length))).getD false))) }) = e :: es := by
    rw [← hs]
    refine List.ext_getElem (by simp) fun k h1 h2 => ?_
    rw [List.getElem_mapIdx, hout _ (decide_eq_false (by omega)), and_not_zero]
  have hwo : Strand.without keep n x = { x with mask := 0#4, stack := e :: es } := by
    simp only [Strand.without, hmask, hstack, if_true]
  rw [hwo, Strand.settle, Strand.popAll, if_pos (.inl rfl)]
  cases es with
  | nil =>
    rw [Strand.popAll, if_neg hm]
    exact ⟨hpc, rfl, rfl⟩
  | cons e2 es =>
    rw [Strand.popAll, if_neg]
    · exact ⟨hpc, rfl, rfl⟩
    · rintro (h | ⟨-, h⟩)
      · exact hm h
      · exact hr (h.symm.trans hpc)

/-! ## The status words -/

/-- Lane i of a list is in a transaction with status register n. -/
def Pick.statusOf (p : Pick) (is : List Nat) (i n : Nat) : Prop := i ∈ is ∧ ∃ x, p.txs.lookup i = some x ∧ x.status.toNat = n

theorem lookup_filter_ne {α : Type} (l : List (Nat × α)) (k i : Nat) :
    (l.filter (fun e => e.1 != k)).lookup i = if i = k then none else l.lookup i := by
  induction l with
  | nil => simp
  | cons e l ih =>
    obtain ⟨a, x⟩ := e
    by_cases ha : a = k
    · rw [List.filter_cons_of_neg (by simp [ha]), ih, lookup_cons_ite, ha]
      split <;> rfl
    · rw [List.filter_cons_of_pos (by simp [ha]), lookup_cons_ite, lookup_cons_ite, ih]
      by_cases hi : i = a
      · rw [if_pos hi, if_pos hi, if_neg (hi ▸ ha)]
      · rw [if_neg hi, if_neg hi]

/-- What aborts of the transactions of some lanes, with word w for their status registers, make of a pick outside its strands
(R199, R324). -/
structure Pick.TxsAborted (p : Pick) (is : List Nat) (w : Word) (q : Pick) : Prop where
  own : { q with names := p.names, pending := p.pending, txs := p.txs, owed := p.owed, aborts := p.aborts } = p
  count : q.aborts = p.aborts + is.length
  txs : ∀ i, q.txs.lookup i = if i ∈ is then none else p.txs.lookup i
  st : ∀ n, (q.name n).st = (p.name n).st
  kept : ∀ n i, ¬ p.statusOf is i n → tget 0 (q.name n).val i = tget 0 (p.name n).val i
  written : ∀ i n, p.statusOf is i n → n < 239 → (p.name n).st = .allocated → tget 0 (q.name n).val i = w
  pending : List.Forall₂ (fun (a b : Pending) => b = { a with mask := b.mask } ∧ ∀ i, b.mask.getLsbD i = true ↔
    a.mask.getLsbD i = true ∧ ∀ n, a.dest = .vreg n → ¬ p.statusOf is i n) p.pending q.pending
  owed : ∀ e, e ∈ q.owed ↔ e ∈ p.owed ∨ ∃ i n, p.statusOf is i n ∧ n < 239 ∧ (p.name n).st ≠ .allocated ∧ e = (n, i, w)

theorem Pick.TxsAborted.nil (p : Pick) (w : Word) : p.TxsAborted [] w p where
  own := rfl
  count := rfl
  txs _ := by rw [if_neg List.not_mem_nil]
  st _ := rfl
  kept _ _ _ := rfl
  written _ _ h := absurd h.1 List.not_mem_nil
  pending := List.forall₂_same.mpr fun a _ => ⟨rfl, fun i => (and_iff_left fun n _ h => List.not_mem_nil h.1).symm⟩
  owed e := (or_iff_left fun ⟨_, _, h, _⟩ => List.not_mem_nil h.1).symm

/-- Pending results to name n lose lane i (R107, R324). -/
def Pending.cutLane (n i : Nat) (q : Pending) : Pending :=
  if q.dest = Dest.vreg n then { q with mask := q.mask &&& ~~~((1 : Word) <<< i) } else q

theorem Pending.cutLane_spec {i : Nat} (hi : i < 32) (n : Nat) (q : Pending) : q.cutLane n i = { q with mask := (q.cutLane n i).mask } ∧
    ∀ j, (q.cutLane n i).mask.getLsbD j = true ↔ q.mask.getLsbD j = true ∧ ¬ (q.dest = .vreg n ∧ j = i) := by
  unfold Pending.cutLane
  split
  · next h =>
    refine ⟨rfl, fun j => ?_⟩
    have hbit : ((1 : Word) <<< i).getLsbD j = decide (j = i) := getLsbD_one_shiftLeft hi j
    rw [getLsbD_and_not, hbit]
    simp [h]
  · next h => exact ⟨rfl, fun j => by simp [h]⟩

/-- The abort of one lane's transaction: it is gone, what pends on its status register loses the lane, and the word goes
there or is owed. -/
theorem Pick.abortRegs_cases {p : Pick} {i : Nat} {x : Tx} (hx : p.txs.lookup i = some x) (cause code : Nat) (retry : Bool) :
    let n := x.status.toNat
    let w := txWord cause code retry
    let p1 : Pick := { p with aborts := p.aborts + 1, txs := p.txs.filter (fun e => e.1 != i),
                              pending := p.pending.map (Pending.cutLane n i) }
    (239 ≤ n ∧ p.abortRegs i cause code retry = p1) ∨
    (n < 239 ∧ (p.name n).st = .allocated ∧
      p.abortRegs i cause code retry = p1.setName n ((p.name n).write ((1 : Word) <<< i) [(i, w)])) ∨
    (n < 239 ∧ (p.name n).st ≠ .allocated ∧ p.abortRegs i cause code retry = { p1 with owed := p.owed ++ [(n, i, w)] }) := by
  dsimp only
  unfold Pick.abortRegs
  simp only [hx]
  by_cases h1 : 239 ≤ x.status.toNat
  · exact .inl ⟨h1, if_pos h1⟩
  · rw [if_neg h1]
    by_cases h2 : (p.name x.status.toNat).st = .allocated
    · exact .inr (.inl ⟨Nat.lt_of_not_le h1, h2, if_pos h2⟩)
    · exact .inr (.inr ⟨Nat.lt_of_not_le h1, h2, if_neg h2⟩)

theorem Pick.abortRegs_aborted {p : Pick} {i : Nat} {x : Tx} (hi : i < 32) (hx : p.txs.lookup i = some x) (cause code : Nat)
    (retry : Bool) : p.TxsAborted [i] (txWord cause code retry) (p.abortRegs i cause code retry) := by
  have hst (j n : Nat) : p.statusOf [i] j n ↔ j = i ∧ n = x.status.toNat := by
    unfold Pick.statusOf
    rw [List.mem_singleton]
    refine and_congr_right fun e => ?_
    rw [e, hx]
    simp [eq_comm]
  have htx (j : Nat) : (p.txs.filter (fun e => e.1 != i)).lookup j = if j ∈ [i] then none else p.txs.lookup j := by
    rw [lookup_filter_ne]; simp only [List.mem_singleton]
  have hpend : List.Forall₂ (fun (a b : Pending) => b = { a with mask := b.mask } ∧ ∀ j, b.mask.getLsbD j = true ↔
      a.mask.getLsbD j = true ∧ ∀ n, a.dest = .vreg n → ¬ p.statusOf [i] j n) p.pending
      (p.pending.map (Pending.cutLane x.status.toNat i)) := by
    rw [List.forall₂_map_right_iff, List.forall₂_same]
    intro a _
    obtain ⟨h1, h2⟩ := a.cutLane_spec hi x.status.toNat
    refine ⟨h1, fun j => (h2 j).trans (and_congr_right fun _ => ?_)⟩
    simp only [hst]
    exact ⟨fun h n hn e => h ⟨e.2 ▸ hn, e.1⟩, fun h e => h _ e.1 ⟨e.2, rfl⟩⟩
  rcases Pick.abortRegs_cases hx cause code retry with ⟨hn, e⟩ | ⟨hn, ha, e⟩ | ⟨hn, ha, e⟩
  · rw [e]
    refine ⟨rfl, rfl, htx, fun _ => rfl, fun _ _ _ => rfl, fun j n hs h => ?_, hpend, fun e => (or_iff_left ?_).symm⟩
    · have := ((hst j n).mp hs).2; omega
    · rintro ⟨j, n, hs, h, -⟩
      have := ((hst j n).mp hs).2; omega
  · rw [e]
    have hval (n j : Nat) : tget 0 (((p.setName x.status.toNat ((p.name x.status.toNat).write ((1 : Word) <<< i)
        [(i, txWord cause code retry)])).name n).val) j = if n = x.status.toNat ∧ j = i then txWord cause code retry
        else tget 0 (p.name n).val j := by
      rw [Pick.setName_name]
      have hbit : ((1 : Word) <<< i).getLsbD j = decide (j = i) := getLsbD_one_shiftLeft hi j
      by_cases hk : n = x.status.toNat
      · rw [if_pos hk, Name.write_val, hbit, hk]
        by_cases hj : j = i
        · simp [hj, tget]
        · simp [hj]
      · rw [if_neg hk, if_neg fun h => hk h.1]
    refine ⟨rfl, rfl, htx, fun n => ?_, fun n j hs => ?_, fun j n hs h h2 => ?_, hpend, fun e => (or_iff_left ?_).symm⟩
    · refine (congrArg Name.st (Pick.setName_name p _ _ n)).trans ?_
      split
      · next h => rw [h]; rfl
      · rfl
    · refine (hval n j).trans (if_neg fun h => hs ((hst j n).mpr h.symm))
    · exact (hval n j).trans (if_pos ((hst j n).mp hs).symm)
    · rintro ⟨j, n, hs, -, h, -⟩
      exact h (((hst j n).mp hs).2 ▸ ha)
  · rw [e]
    refine ⟨rfl, rfl, htx, fun _ => rfl, fun _ _ _ => rfl, fun j n hs h h2 => ?_, hpend, fun e => ?_⟩
    · exact absurd (((hst j n).mp hs).2 ▸ h2) ha
    · show e ∈ p.owed ++ [_] ↔ _
      rw [List.mem_append, List.mem_singleton]
      refine or_congr_right ⟨fun h => ⟨i, _, (hst _ _).mpr ⟨rfl, rfl⟩, hn, ha, h⟩, ?_⟩
      rintro ⟨j, n, hs, -, -, h⟩
      obtain ⟨rfl, rfl⟩ := (hst j n).mp hs
      exact h

theorem forall₂_comp {α β γ : Type} {R : α → β → Prop} {S : β → γ → Prop} {as : List α} {bs : List β} {cs : List γ}
    (h : List.Forall₂ R as bs) (k : List.Forall₂ S bs cs) : List.Forall₂ (fun a c => ∃ b, R a b ∧ S b c) as cs := by
  induction h generalizing cs with
  | nil => cases k; exact .nil
  | cons h _ ih =>
    cases k with
    | cons k ks => exact .cons ⟨_, h, k⟩ (ih ks)

/-- Aborts of one lane and then of others. -/
theorem Pick.TxsAborted.cons {p q r : Pick} {i : Nat} {is : List Nat} {w : Word} (hi : i ∉ is) (h : p.TxsAborted [i] w q)
    (k : q.TxsAborted is w r) : p.TxsAborted (i :: is) w r := by
  have hne {j : Nat} (hj : j ∈ is) : j ∉ [i] := fun e => hi ((List.mem_singleton.mp e : j = i) ▸ hj)
  have hq {j n : Nat} : q.statusOf is j n ↔ p.statusOf is j n := and_congr_right fun hj => by rw [h.txs j, if_neg (hne hj)]
  have hp {j n : Nat} : p.statusOf (i :: is) j n ↔ p.statusOf [i] j n ∨ p.statusOf is j n := by
    simp only [Pick.statusOf, List.mem_cons, List.not_mem_nil, or_false, or_and_right]
  refine ⟨?_, ?_, fun j => ?_, fun n => (k.st n).trans (h.st n), fun n j hs => ?_, fun j n hs hn ha => ?_, ?_, fun e => ?_⟩
  · have e := congrArg (fun x : Pick =>
      { x with names := p.names, pending := p.pending, txs := p.txs, owed := p.owed, aborts := p.aborts }) k.own
    exact e.trans h.own
  · rw [k.count, h.count, List.length_singleton, List.length_cons]; omega
  · rw [k.txs, h.txs]
    by_cases h1 : j ∈ is
    · rw [if_pos h1, if_pos (List.mem_cons_of_mem _ h1)]
    · simp only [List.mem_cons, h1, List.not_mem_nil, or_false, if_false]
  · rw [hp, not_or] at hs
    exact (k.kept n j (hq.not.mpr hs.2)).trans (h.kept n j hs.1)
  · by_cases h2 : p.statusOf is j n
    · exact k.written j n (hq.mpr h2) hn ((h.st n).trans ha)
    · have h1 := (hp.mp hs).resolve_right h2
      exact (k.kept n j (hq.not.mpr h2)).trans (h.written j n h1 hn ha)
  · refine (forall₂_comp h.pending k.pending).imp fun a c ⟨b, ⟨hb, hbm⟩, hc, hcm⟩ => ?_
    have hd : b.dest = a.dest := by rw [hb]
    refine ⟨by rw [hc, hb], fun j => ?_⟩
    rw [hcm, hbm, hd, and_assoc]
    refine and_congr_right fun _ => ?_
    simp only [hq, hp, not_or]
    exact ⟨fun ⟨h1, h2⟩ n e => ⟨h1 n e, h2 n e⟩, fun h => ⟨fun n e => (h n e).1, fun n e => (h n e).2⟩⟩
  · rw [k.owed, h.owed, or_assoc]
    refine or_congr_right ?_
    simp only [hq, hp, h.st]
    constructor
    · rintro (⟨j, n, hs, h2⟩ | ⟨j, n, hs, h2⟩)
      · exact ⟨j, n, .inl hs, h2⟩
      · exact ⟨j, n, .inr hs, h2⟩
    · rintro ⟨j, n, hs | hs, h2⟩
      · exact .inl ⟨j, n, hs, h2⟩
      · exact .inr ⟨j, n, hs, h2⟩

/-- The aborts of the transactions of distinct lanes. -/
theorem Pick.foldl_abortRegs (cause code : Nat) (retry : Bool) {is : List Nat} (hn : is.Nodup) {p : Pick}
    (h : ∀ i ∈ is, i < 32 ∧ (p.txs.lookup i).isSome) :
    p.TxsAborted is (txWord cause code retry) (is.foldl (fun q i => q.abortRegs i cause code retry) p) := by
  induction is generalizing p with
  | nil => exact Pick.TxsAborted.nil p _
  | cons i is ih =>
    obtain ⟨hi, hn⟩ := List.nodup_cons.mp hn
    obtain ⟨⟨h32, hs⟩, hr⟩ := List.forall_mem_cons.mp h
    obtain ⟨x, hx⟩ := Option.isSome_iff_exists.mp hs
    have h1 := Pick.abortRegs_aborted h32 hx cause code retry
    refine Pick.TxsAborted.cons hi h1 (ih hn fun j hj => ⟨(hr j hj).1, ?_⟩)
    rw [h1.txs, if_neg fun e => hi ((List.mem_singleton.mp e : j = i) ▸ hj)]
    exact (hr j hj).2

/-- What aborts in a handler do to the frozen strands shows in the strands and the trap record alone, and only where a
transaction of the frozen block aborts (R324). -/
theorem Pick.abortFrozen_cases (p : Pick) (txs : List (Nat × Tx)) (is : List Nat) :
    (∃ l r, p.abortFrozen txs is = { p with lanes := l, trec := r }) ∧ (p.mode = false → p.abortFrozen txs is = p) ∧
    ((∀ i ∈ is, ∀ x, txs.lookup i = some x → x.handler = true) → p.abortFrozen txs is = p) := by
  unfold Pick.abortFrozen
  refine ⟨?_, fun hm => ?_, fun hh => ?_⟩
  · dsimp only
    split
    · exact ⟨p.lanes, p.trec, rfl⟩
    · exact ⟨_, _, rfl⟩
  · exact if_pos (.inl (by rw [hm]; rfl))
  · have : is.filter (fun i => ((txs.lookup i).map (fun t => !t.handler)).getD false) = [] :=
      List.filter_eq_nil_iff.mpr fun i hi => by
        cases hx : txs.lookup i with
        | none => exact Bool.false_ne_true
        | some x => rw [Option.map_some, Option.getD_some, hh i hi x hx]; exact Bool.false_ne_true
    exact if_pos (.inr (by rw [this]; rfl))

/-! ## The statement's instruction -/

/-- The lanes of a mask that are in a transaction. -/
def Pick.inTxs (p : Pick) (m : Word) : List Nat := (lanesOf m).filter (fun i => (p.txs.lookup i).isSome)

theorem Pick.mem_inTxs {p : Pick} {m : Word} {i : Nat} : i ∈ p.inTxs m ↔ m.getLsbD i = true ∧ (p.txs.lookup i).isSome := by
  rw [Pick.inTxs, List.mem_filter, mem_lanesOf]

/-- A lane in no transaction has none to lose. -/
theorem Pick.lookup_closed (p : Pick) (m : Word) (i : Nat) :
    (if i ∈ p.inTxs m then none else p.txs.lookup i) = if i ∈ lanesOf m then none else p.txs.lookup i := by
  by_cases hi : i ∈ lanesOf m
  · rw [if_pos hi]
    cases hx : p.txs.lookup i with
    | none => split <;> rfl
    | some x => exact if_pos (Pick.mem_inTxs.mpr ⟨mem_lanesOf.mp hi, by rw [hx]; rfl⟩)
  · rw [if_neg hi, if_neg fun hx => hi (mem_lanesOf.mpr (Pick.mem_inTxs.mp hx).1)]

theorem Pick.statusOf_inTxs {p : Pick} {m : Word} {i n : Nat} : p.statusOf (p.inTxs m) i n ↔ p.statusOf (lanesOf m) i n := by
  unfold Pick.statusOf
  rw [Pick.mem_inTxs, mem_lanesOf]
  exact ⟨fun ⟨⟨h, _⟩, k⟩ => ⟨h, k⟩, fun ⟨h, x, hx, k⟩ => ⟨⟨h, by rw [hx]; rfl⟩, x, hx, k⟩⟩

/-- A transaction of the mode that the pick is in is one of its transactions. -/
theorem Pick.modeTxs_isSome {p : Pick} {i : Nat} (h : (p.modeTxs.lookup i).isSome) : (p.txs.lookup i).isSome := by
  by_contra hn
  have h0 : p.txs.lookup i = none := Option.not_isSome_iff_eq_none.mp hn
  rw [List.lookup_eq_none_iff] at h0
  have : p.modeTxs.lookup i = none := List.lookup_eq_none_iff.mpr fun e he => h0 e (List.mem_of_mem_filter he)
  rw [this] at h
  exact Bool.false_ne_true h

/-- The pick once the transactions of the active lanes have aborted with EXPLICIT (R326). -/
def Pick.explicitAbort (p : Pick) (m : Word) (code : BitVec 8) : Pick :=
  p.abortAll ((p.inTxs m).map (fun i => (i, 3, code.toNat, false)))

theorem exec_txabort {s : State} {h : Hd} (code : BitVec 8) (hr : s.laneReady h.pi h.pn [] [] = true) :
    exec (.txabort h code) s = .next (((s.setPick s.pick).setPick
      (s.pick.explicitAbort (s.lanesActive h.pi h.pn) code)).laneDone h.stall (s.lanesActive h.pi h.pn)
        (moveAborting s.pick.modeTxs (s.pick.inTxs (s.lanesActive h.pi h.pn)) nextL)) := by
  show execTxabort h code s = _
  rw [execTxabort, State.laneGate_ready hr, State.noteLatent_nil, State.laneCommit_effect, State.setPick_pick]
  rfl

/-- The pick with what explicit aborts change of one as another has it. -/
def Pick.withAbortsOf (q p : Pick) : Pick :=
  { q with names := p.names, pending := p.pending, lanes := p.lanes, txs := p.txs, owed := p.owed,
           aborts := p.aborts, trec := p.trec }

theorem Pick.explicitAbort_spec (p : Pick) (m : Word) (code : BitVec 8) :
    ∃ r l e, p.TxsAborted (p.inTxs m) (BitVec.ofNat 32 (3 + code.toNat * 256)) r ∧
      p.explicitAbort m code = { r with lanes := l, trec := e } ∧
      (p.mode = false → l = p.lanes ∧ e = p.trec) ∧
      ((∀ i ∈ lanesOf m, ∀ x, p.txs.lookup i = some x → x.handler = true) → l = p.lanes ∧ e = p.trec) := by
  have hin : ∀ i ∈ p.inTxs m, i < 32 ∧ (p.txs.lookup i).isSome := fun i hi => by
    obtain ⟨h1, h2⟩ := Pick.mem_inTxs.mp hi
    exact ⟨BitVec.lt_of_getLsbD h1, h2⟩
  have hnd : (p.inTxs m).Nodup := (List.nodup_range.filter _).filter _
  have hr := Pick.foldl_abortRegs 3 code.toNat false hnd hin
  have hfold : p.explicitAbort m code = ((p.inTxs m).foldl (fun q i => q.abortRegs i 3 code.toNat false) p).abortFrozen p.txs
      (p.inTxs m) := by
    rw [Pick.explicitAbort, Pick.abortAll, List.foldl_map, List.map_map]
    congr 1
    exact List.map_id _
  generalize (p.inTxs m).foldl (fun q i => q.abortRegs i 3 code.toNat false) p = r at hr hfold
  obtain ⟨⟨l, e, hle⟩, hnormal, hhandler⟩ := r.abortFrozen_cases p.txs (p.inTxs m)
  have hmode : r.mode = p.mode := (congrArg Pick.mode hr.own :)
  have hrl : r.lanes = p.lanes := (congrArg Pick.lanes hr.own :)
  have hrt : r.trec = p.trec := (congrArg Pick.trec hr.own :)
  have hsame (h : r.abortFrozen p.txs (p.inTxs m) = r) : l = p.lanes ∧ e = p.trec :=
    ⟨(congrArg Pick.lanes (hle.symm.trans h) :).trans hrl, (congrArg Pick.trec (hle.symm.trans h) :).trans hrt⟩
  refine ⟨r, l, e, hr, hfold.trans hle, fun h => hsame (hnormal (hmode.trans h)), fun h => hsame (hhandler fun i hi x hx => ?_)⟩
  exact h i (mem_lanesOf.mpr (Pick.mem_inTxs.mp hi).1) x hx

/-- The strands of the fragment where no active lane is in a transaction go on in sequence. -/
theorem LaneResult.congr_settle {s t : State} {stall : BitVec 4} {m : Word} {xs : List (Src × Nat)} {dest : Option Dest}
    {lat : Nat} {val : Nat → Word} {f g : Nat → Strand → Strand} {sd : Word}
    (h : LaneResult s t stall m xs dest lat val f sd) (hfg : ∀ n x, (f n x).settle = (g n x).settle) :
    LaneResult s t stall m xs dest lat val g sd := by
  obtain ⟨h1, h2, h3, h4, h5, hstrand, h7⟩ := h
  refine ⟨h1, h2, h3, h4, h5, fun n => ?_, h7⟩
  rw [hstrand n]
  split
  · exact hfg n _
  · rfl

/-- TXABORT where no active lane is in a transaction (R326). -/
theorem txabort_idle {s t : State} {h : Hd} {code : BitVec 8} (hr : s.laneReady h.pi h.pn [] [] = true)
    (he : exec (.txabort h code) s = .next t) (hno : ∀ i ∈ lanesOf (s.lanesActive h.pi h.pn), s.pick.txs.lookup i = none) :
    LaneResult s t h.stall (s.lanesActive h.pi h.pn) [] none 0 (fun _ => 0) nextL s.pick.seed := by
  have hin : s.pick.inTxs (s.lanesActive h.pi h.pn) = [] :=
    List.filter_eq_nil_iff.mpr fun i hi => by rw [hno i hi]; exact Bool.false_ne_true
  obtain ⟨t0, h0, hres⟩ := s.laneCommit_moves h.stall (s.lanesActive h.pi h.pn) []
    (moveAborting s.pick.modeTxs [] nextL) (fin := fun u => u.setPick u.pick) fun u => .inr rfl
  rw [State.laneCommit_effect, State.setPick_pick] at h0
  rw [exec_txabort code hr, Pick.explicitAbort, hin, List.map_nil, Pick.abortAll_nil, h0] at he
  obtain rfl : t0 = t := by injection he
  exact hres.congr_settle fun n x => Strand.settle_moveAborting_nil _ n x

/-- What TXABORT leaves outside its strands (R199, R324, R326). -/
theorem txabort_effect {s : State} {h : Hd} (code : BitVec 8) (hr : s.laneReady h.pi h.pn [] [] = true) :
    Completes (.txabort h code) s fun t =>
      let m := s.lanesActive h.pi h.pn
      let word : Word := BitVec.ofNat 32 (3 + code.toNat * 256)
      LaneFrame s t m ∧ t.pick.nextLane = s.pick.clk + max h.stall.toNat 1 ∧
      { t.pick with names := s.pick.names, pending := s.pick.pending, lanes := s.pick.lanes, hlanes := s.pick.hlanes,
                    nextLane := s.pick.nextLane, parkWant := s.pick.parkWant, txs := s.pick.txs, owed := s.pick.owed,
                    aborts := s.pick.aborts, trec := s.pick.trec } = s.pick ∧
      (s.pick.mode = false → t.pick.hlanes = s.pick.hlanes ∧ t.pick.trec = s.pick.trec) ∧
      (s.pick.mode = true → (∀ i ∈ lanesOf m, ∀ x, s.pick.txs.lookup i = some x → x.handler = true) →
        t.pick.lanes = s.pick.lanes ∧ t.pick.trec = s.pick.trec) ∧
      StrandsMove s t (Strand.without (leavingTxs m s.pick.modeTxs)) ∧
      ∃ r, s.pick.TxsAborted (s.pick.inTxs m) word r ∧ t.pick.names = r.names ∧ t.pick.pending = r.pending ∧
        t.pick.txs = r.txs ∧ t.pick.owed = r.owed ∧ t.pick.aborts = r.aborts := by
  let m := s.lanesActive h.pi h.pn
  let move := moveAborting s.pick.modeTxs (s.pick.inTxs m) nextL
  obtain ⟨r, l, e, hr', hq, hnormal, hhandler⟩ := s.pick.explicitAbort_spec m code
  obtain ⟨hset, hpick⟩ := s.setPick_setPick_moves s.pick (s.pick.explicitAbort m code)
  have hexec := exec_txabort code hr
  rw [show s.lanesActive h.pi h.pn = m from rfl, hq] at hexec
  rw [hq] at hset hpick
  generalize (s.setPick s.pick).setPick { r with lanes := l, trec := e } = u at hset hpick hexec
  have hls : u.pick.ls = s.pick.ls := by
    rw [hpick]
    have hm : r.mode = s.pick.mode := (congrArg Pick.mode hr'.own :)
    have hh : r.hlanes = s.pick.hlanes := (congrArg Pick.hlanes hr'.own :)
    unfold Pick.ls
    rw [hm, hh]
    split
    · rfl
    · next h0 => exact (hnormal (Bool.not_eq_true _ ▸ h0)).1
  have hfrag : u.frag = s.frag := (congrArg State.frag hset.1 :)
  have hteam : u.pick.team = s.pick.team := by rw [hpick]; exact (congrArg Pick.team hr'.own :)
  have hmode : u.pick.mode = s.pick.mode := by rw [hpick]; exact (congrArg Pick.mode hr'.own :)
  have hclk : u.pick.clk = s.pick.clk := by rw [hpick]; exact (congrArg Pick.clk hr'.own :)
  have hframe := hset.laneDone_frame hteam h.stall m move
  have hstrands : StrandsMove s (u.laneDone h.stall m move) (Strand.without (leavingTxs m s.pick.modeTxs)) :=
    State.laneDone_strandsMove hls hfrag _ _ fun n x _ _ => congrArg Strand.settle (moveAborting_eq_without
      (fun i hi => Pick.mem_inTxs.trans (and_iff_left (Pick.modeTxs_isSome hi))) n x)
  obtain ⟨hown, hnext, hside⟩ := u.laneDone_pickOwn h.stall m move
  have hclock : (u.laneDone h.stall m move).pick.nextLane = s.pick.clk + max h.stall.toNat 1 := by rw [hnext, hclk]
  refine ⟨u.laneDone h.stall m move, hexec, hframe, hclock, ?_⟩
  generalize u.laneDone h.stall m move = t at hstrands hown hside
  rw [hpick] at hown hside
  have ht : t.pick.trec = e := (congrArg Pick.trec hown :)
  refine ⟨?_, fun h0 => ?_, fun h1 hh => ?_, hstrands, r, hr', (congrArg Pick.names hown :), (congrArg Pick.pending hown :),
    (congrArg Pick.txs hown :), (congrArg Pick.owed hown :), (congrArg Pick.aborts hown :)⟩
  · have e1 := congrArg (fun q : Pick => { q with
      names := s.pick.names, pending := s.pick.pending, lanes := s.pick.lanes, hlanes := s.pick.hlanes,
      nextLane := s.pick.nextLane, parkWant := s.pick.parkWant, txs := s.pick.txs, owed := s.pick.owed,
      aborts := s.pick.aborts, trec := s.pick.trec }) hown
    have e2 := congrArg (fun q : Pick => { q with
      lanes := s.pick.lanes, hlanes := s.pick.hlanes, nextLane := s.pick.nextLane, parkWant := s.pick.parkWant,
      trec := s.pick.trec }) hr'.own
    exact e1.trans e2
  · have hm : r.mode = false := (congrArg Pick.mode hr'.own :).trans h0
    have hh : t.pick.hlanes = r.hlanes := by simpa only [hm, Bool.false_eq_true, if_false] using hside
    exact ⟨hh.trans (congrArg Pick.hlanes hr'.own :), ht.trans (hnormal h0).2⟩
  · have hm : r.mode = true := (congrArg Pick.mode hr'.own :).trans h1
    have hl : t.pick.lanes = l := by simpa only [hm, if_true] using hside
    exact ⟨hl.trans (hhandler hh).1, ht.trans (hhandler hh).2⟩

/-- The strands of lanes of which none is left resume where their TXBEGIN says (R324). -/
theorem StrandsMove.resumes {s t : State} {pi : BitVec 3} {pn : BitVec 1}
    (h : StrandsMove s t (Strand.without (leavingTxs (s.lanesActive pi pn) s.pick.modeTxs)))
    {n : Nat} (hn : n ∈ s.fragment.members) {A : Word} {e : StackEntry} {es : List StackEntry}
    (hs : (s.pick.ls.strand n).stack = e :: es) (hpc : e.pc = some A) (hm : e.mask ≠ 0) (hr : e.rca ≠ some A)
    (hall : ∀ j < 4, (s.pick.ls.strand n).mask.getLsbD j = true → (s.lanesActive pi pn).getLsbD (4 * n + j) = true ∧
      (s.pick.modeTxs.lookup (4 * n + j)).map (·.height) = some (es.length + 1)) :
    (t.pick.ls.strand n).lpc = some A ∧ (t.pick.ls.strand n).mask = e.mask ∧ (t.pick.ls.strand n).stack = es := by
  rw [h n, if_pos hn]
  refine Strand.without_resumes hs hpc hm hr (fun j hj hx => ?_) fun j hj hx => ?_
  · obtain ⟨h1, h2⟩ := hall j hj hx
    rw [leavingTxs, if_pos h1, h2]
  · refine if_neg fun h1 => ?_
    obtain ⟨-, h2⟩ := State.mem_lanesActive (mem_lanesOf.mpr h1)
    rw [show (4 * n + j) / 4 = n by omega, show (4 * n + j) % 4 = j by omega] at h2
    exact Bool.false_ne_true (hx.symm.trans h2)

/-- TXABORT (R199, R324, R326). -/
theorem txabort_completes {s : State} {h : Hd} (code : BitVec 8) (hr : s.laneReady h.pi h.pn [] [] = true) :
    Completes (.txabort h code) s fun t =>
      let m := s.lanesActive h.pi h.pn
      let word : Word := BitVec.ofNat 32 (3 + code.toNat * 256)
      LaneFrame s t m ∧ t.pick.nextLane = s.pick.clk + max h.stall.toNat 1 ∧
      { t.pick with names := s.pick.names, pending := s.pick.pending, lanes := s.pick.lanes, hlanes := s.pick.hlanes,
                    nextLane := s.pick.nextLane, parkWant := s.pick.parkWant, txs := s.pick.txs, owed := s.pick.owed,
                    aborts := s.pick.aborts, trec := s.pick.trec } = s.pick ∧
      t.pick.aborts = s.pick.aborts + ((lanesOf m).filter (fun i => (s.pick.txs.lookup i).isSome)).length ∧
      (s.pick.mode = false → t.pick.hlanes = s.pick.hlanes ∧ t.pick.trec = s.pick.trec) ∧
      (s.pick.mode = true → (∀ i ∈ lanesOf m, ∀ x, s.pick.txs.lookup i = some x → x.handler = true) →
        t.pick.lanes = s.pick.lanes ∧ t.pick.trec = s.pick.trec) ∧
      StrandsMove s t (Strand.without (leavingTxs m s.pick.modeTxs)) ∧
      (∀ n ∈ s.fragment.members, ∀ A e es, (s.pick.ls.strand n).stack = e :: es → e.pc = some A → e.mask ≠ 0 →
        e.rca ≠ some A → (∀ j < 4, (s.pick.ls.strand n).mask.getLsbD j = true → m.getLsbD (4 * n + j) = true ∧
          (s.pick.modeTxs.lookup (4 * n + j)).map (·.height) = some (es.length + 1)) →
        (t.pick.ls.strand n).lpc = some A ∧ (t.pick.ls.strand n).mask = e.mask ∧ (t.pick.ls.strand n).stack = es) ∧
      (∀ n, (t.pick.name n).st = (s.pick.name n).st ∧
        ∀ i, ¬ s.pick.statusOf (lanesOf m) i n → tget 0 (t.pick.name n).val i = tget 0 (s.pick.name n).val i) ∧
      List.Forall₂ (fun (a b : Pending) => b = { a with mask := b.mask } ∧ ∀ i, b.mask.getLsbD i = true ↔
        a.mask.getLsbD i = true ∧ ∀ n, a.dest = .vreg n → ¬ s.pick.statusOf (lanesOf m) i n) s.pick.pending t.pick.pending ∧
      (∀ e, e ∈ t.pick.owed ↔ e ∈ s.pick.owed ∨ ∃ i n, s.pick.statusOf (lanesOf m) i n ∧ n < 239 ∧
        (s.pick.name n).st ≠ .allocated ∧ e = (n, i, word)) ∧
      (∀ i, t.pick.txs.lookup i = if i ∈ lanesOf m then none else s.pick.txs.lookup i) ∧
      (∀ i n, s.pick.statusOf (lanesOf m) i n → n < 239 → (s.pick.name n).st = .allocated →
        tget 0 (t.pick.name n).val i = word) ∧
      ((∀ i ∈ lanesOf m, s.pick.txs.lookup i = none) →
        LaneResult s t h.stall m [] none 0 (fun _ => 0) nextL s.pick.seed) := by
  obtain ⟨t, hexec, hframe, hclk, hown, hnormal, hhandler, hstrands, r, hab, hnames, hpend, htxs, howed, hcount⟩ :=
    txabort_effect code hr
  have hname (n : Nat) : t.pick.name n = r.name n := by rw [Pick.name, hnames]; rfl
  have hst {i n : Nat} : s.pick.statusOf (s.pick.inTxs (s.lanesActive h.pi h.pn)) i n ↔
      s.pick.statusOf (lanesOf (s.lanesActive h.pi h.pn)) i n := Pick.statusOf_inTxs
  have hpending := hab.pending
  have howes := hab.owed
  simp only [hst] at hpending howes
  refine ⟨t, hexec, hframe, hclk, hown, hcount.trans hab.count, hnormal, hhandler, hstrands,
    fun n hn A e es hs hpc hm hr hall => hstrands.resumes hn hs hpc hm hr hall, fun n => ⟨?_, fun i hi => ?_⟩, ?_, fun e => ?_,
    fun i => ?_, fun i n hi hn ha => ?_, txabort_idle hr hexec⟩
  · rw [hname]; exact hab.st n
  · rw [hname]; exact hab.kept n i (hst.not.mpr hi)
  · rw [hpend]; exact hpending
  · rw [howed]; exact howes e
  · rw [htxs, hab.txs, Pick.lookup_closed]
  · rw [hname]; exact hab.written i n (hst.mpr hi) hn ha

end Sys2Proof.Machine
end

section
/-! SUPPORT. Bits of memory words written, one word after the other (R174, R466). -/

namespace Sys2Proof.Machine

theorem memLoc_mod (a : Nat) : memLoc a % 4 = 0 := by unfold memLoc; omega

/-- A byte of a word after its bits of a mask were written. -/
theorem rdByte_putBytes (m : Memory) (l : Nat) (mask v : Word) (n a : Nat) :
    rdByte (putBytes m l mask v n) a = if l ≤ a ∧ a < l + n ∧ (mask >>> (8 * (a - l))).setWidth 8 ≠ (0 : Byte) then
      (v >>> (8 * (a - l))).setWidth 8 else rdByte m a := by
  induction n with
  | zero => rw [putBytes, if_neg (by omega)]
  | succ n ih =>
    have hother (h : a ≠ l + n) : (l ≤ a ∧ a < l + (n + 1) ∧ (mask >>> (8 * (a - l))).setWidth 8 ≠ (0 : Byte)) ↔
        (l ≤ a ∧ a < l + n ∧ (mask >>> (8 * (a - l))).setWidth 8 ≠ (0 : Byte)) := by
      constructor
      · rintro ⟨h1, h2, h3⟩; exact ⟨h1, by omega, h3⟩
      · rintro ⟨h1, h2, h3⟩; exact ⟨h1, by omega, h3⟩
    rw [putBytes]
    by_cases ha : a = l + n
    · have hk : a - l = n := by omega
      rw [hk]
      split
      · next h0 => rw [ih, if_neg (by omega), if_neg fun h => h.2.2 h0]
      · next h0 => rw [rdByte_wrByte, if_pos ha, if_pos ⟨by omega, by omega, h0⟩]
    · simp only [hother ha]
      split
      · exact ih
      · rw [rdByte_wrByte, if_neg ha]; exact ih

/-- Two words alike in each byte. -/
theorem word_ext {x y : Word} (h : ∀ k < 4, (x >>> (8 * k)).setWidth 8 = (y >>> (8 * k)).setWidth 8) : x = y := by
  apply BitVec.eq_of_getLsbD_eq
  intro i hi
  have hb := congrArg (fun b : Byte => b.getLsbD (i % 8)) (h (i / 8) (by omega))
  simpa [BitVec.getLsbD_setWidth, Nat.mod_lt, show 8 * (i / 8) + i % 8 = i by omega] using hb

theorem mix_byte (x mask v : Word) (k : Nat) (h : (mask >>> (8 * k)).setWidth 8 = (0 : Byte)) :
    (mix x mask v >>> (8 * k)).setWidth 8 = (x >>> (8 * k)).setWidth 8 := by
  apply BitVec.eq_of_getLsbD_eq
  intro i hi
  have hm : mask.getLsbD (8 * k + i) = false := by
    have := congrArg (fun b : Byte => b.getLsbD i) h
    simpa [hi] using this
  have hx : (mix x mask v).getLsbD (8 * k + i) = x.getLsbD (8 * k + i) := by
    rw [mix, BitVec.getLsbD_or, getLsbD_and_not, BitVec.getLsbD_and, hm]
    simp
  simpa [hi] using hx

/-- A write of bits of a memory word changes memory and poison alone. -/
theorem State.putWord_memory (s : State) {l : Nat} (hl : l % 4 = 0) (mask v : Word) :
    ∃ po, s.putWord l mask v = { s with mem := putBytes s.mem l mask v 4, poison := po } := by
  unfold State.putWord
  simp only [if_pos hl]
  exact ⟨_, rfl⟩

theorem State.wordAt_congr {s t : State} {l : Nat} (hl : l % 4 = 0) (h : ∀ a, memLoc a = l → rdByte t.mem a = rdByte s.mem a) :
    t.wordAt l = s.wordAt l := by
  have hb : rdBytes t.mem l 4 = rdBytes s.mem l 4 := by
    refine List.ext_getElem? fun k => ?_
    by_cases hk : k < 4
    · rw [rdBytes_getElem? _ _ hk, rdBytes_getElem? _ _ hk, h]
      unfold memLoc
      omega
    · rw [List.getElem?_eq_none (by rw [rdBytes_length]; omega), List.getElem?_eq_none (by rw [rdBytes_length]; omega)]
  simp only [State.wordAt, if_pos hl, rdNat, hb]

/-- The words of memory after bits of one took values. -/
theorem State.putWord_mix (s : State) {l : Nat} (hl : l % 4 = 0) (mask v : Word) :
    (∀ a, memLoc a ≠ l → rdByte (s.putWord l mask (mix (s.wordAt l) mask v)).mem a = rdByte s.mem a) ∧
    (s.putWord l mask (mix (s.wordAt l) mask v)).wordAt l = mix (s.wordAt l) mask v := by
  obtain ⟨po, e⟩ := s.putWord_memory hl mask (mix (s.wordAt l) mask v)
  rw [e]
  refine ⟨fun a ha => ?_, word_ext fun k hk => ?_⟩
  · refine (rdByte_putBytes _ _ _ _ _ _).trans (if_neg fun h => ha ?_)
    unfold memLoc
    omega
  · have hloc : memLoc (l + k) = l := by unfold memLoc; omega
    have hmod : (l + k) % 4 = k := by omega
    have hnew := State.wordAt_byte { s with mem := putBytes s.mem l mask (mix (s.wordAt l) mask v) 4, poison := po } (l + k)
    have hold := s.wordAt_byte (l + k)
    rw [hloc, hmod] at hnew hold
    rw [hnew]
    refine (rdByte_putBytes _ _ _ _ _ _).trans ?_
    rw [show l + k - l = k by omega]
    split
    · rfl
    · next h =>
      have h0 : (mask >>> (8 * k)).setWidth 8 = (0 : Byte) := by
        by_contra hne
        exact h ⟨by omega, by omega, hne⟩
      rw [mix_byte _ _ _ _ h0, hold]

/-- Words of memory whose bits take values, one after the other. -/
def State.putMixes (s : State) (us : List Bits) : State :=
  us.foldl (fun s b => s.putWord b.1 b.2.1 (mix (s.wordAt b.1) b.2.1 b.2.2)) s

theorem State.putMixes_spec (us : List Bits) (hm : ∀ b ∈ us, b.1 % 4 = 0) (hn : (us.map (·.1)).Nodup) (s : State) :
    (∃ me po, s.putMixes us = { s with mem := me, poison := po }) ∧
    (∀ a, (∀ b ∈ us, b.1 ≠ memLoc a) → rdByte (s.putMixes us).mem a = rdByte s.mem a) ∧
    ∀ b ∈ us, (s.putMixes us).wordAt b.1 = mix (s.wordAt b.1) b.2.1 b.2.2 := by
  induction us generalizing s with
  | nil => exact ⟨⟨s.mem, s.poison, rfl⟩, fun _ _ => rfl, nofun⟩
  | cons b us ih =>
    obtain ⟨hb, hms⟩ := List.forall_mem_cons.mp hm
    rw [List.map_cons, List.nodup_cons] at hn
    obtain ⟨hkeep, hput⟩ := s.putWord_mix hb b.2.1 b.2.2
    obtain ⟨po1, e1⟩ := s.putWord_memory hb b.2.1 (mix (s.wordAt b.1) b.2.1 b.2.2)
    obtain ⟨⟨me, po, e2⟩, hbytes, hwords⟩ := ih hms hn.2 (s.putWord b.1 b.2.1 (mix (s.wordAt b.1) b.2.1 b.2.2))
    have hc : s.putMixes (b :: us) = (s.putWord b.1 b.2.1 (mix (s.wordAt b.1) b.2.1 b.2.2)).putMixes us := rfl
    rw [hc]
    refine ⟨⟨me, po, by rw [e2, e1]⟩, fun a ha => ?_, List.forall_mem_cons.mpr ⟨?_, fun c hcm => ?_⟩⟩
    · obtain ⟨h1, h2⟩ := List.forall_mem_cons.mp ha
      exact (hbytes a h2).trans (hkeep a h1.symm)
    · refine Eq.trans ?_ hput
      refine State.wordAt_congr hb fun a ha => hbytes a fun c hcm e => hn.1 ?_
      rw [← ha, ← e]
      exact List.mem_map_of_mem hcm
    · rw [hwords c hcm]
      congr 1
      refine State.wordAt_congr (hms c hcm) fun a ha => hkeep a fun e => hn.1 ?_
      rw [← e, ha]
      exact List.mem_map_of_mem hcm

end Sys2Proof.Machine
end

section
/-! SUPPORT. What the commit of a lane's transaction may change but for memory, and each of its steps (R176 to R179, R191, R197,
R198). -/

namespace Sys2Proof.Machine

/-! ## Tables -/

theorem mem_tput_of_ne {α : Type} [DecidableEq α] {d : α} {t : Tab α} {k : Nat} {v : α} {e : Nat × α} (h : e ∈ tput d t k v)
    (hk : e.1 ≠ k) : e ∈ t := by
  have hdel (t : Tab α) (h : e ∈ tdel k t) : e ∈ t := by
    induction t with
    | nil => exact h
    | cons x t ih =>
      obtain ⟨j, w⟩ := x
      rw [tdel] at h
      split at h
      · exact List.mem_cons_of_mem _ (ih h)
      · exact (List.mem_cons.mp h).elim (fun e => e ▸ List.mem_cons_self) fun h => List.mem_cons_of_mem _ (ih h)
  have hins (t : Tab α) (h : e ∈ tins k v t) : e ∈ t := by
    induction t with
    | nil => exact absurd (congrArg Prod.fst (List.mem_singleton.mp h)) hk
    | cons x t ih =>
      obtain ⟨j, w⟩ := x
      rw [tins] at h
      split at h
      · exact (List.mem_cons.mp h).resolve_left fun e => hk (congrArg Prod.fst e)
      · split at h
        · exact List.mem_cons_of_mem _ ((List.mem_cons.mp h).resolve_left fun e => hk (congrArg Prod.fst e))
        · exact (List.mem_cons.mp h).elim (fun e => e ▸ List.mem_cons_self) fun h => List.mem_cons_of_mem _ (ih h)
  unfold tput at h
  split at h
  · exact hdel t h
  · exact hins t h

/-! ## Records -/

/-- A write record of which more agents know, or which more have read, or that covers more words (R175, R198). -/
structure WRec.Extends (r r' : WRec) : Prop where
  own : r' = { r with known := r'.known, seen := r'.seen, cells := r'.cells }
  known : ∀ k ∈ r.known, k ∈ r'.known
  seen : ∀ k ∈ r.seen, k ∈ r'.seen

theorem WRec.Extends.refl (r : WRec) : r.Extends r := ⟨rfl, fun _ h => h, fun _ h => h⟩

theorem WRec.Extends.trans {a b c : WRec} (h : a.Extends b) (k : b.Extends c) : a.Extends c :=
  ⟨by rw [k.own, h.own], fun x hx => k.known x (h.known x hx), fun x hx => k.seen x (h.seen x hx)⟩

/-- A lane that no longer may come before a write does not once more is known of it (R175). -/
theorem WRec.Extends.free {r r' : WRec} (h : r.Extends r') {g : Agent} (hg : g.inv = false) (hf : r.free g = false) :
    r'.free g = false := by
  have hmono {l l' : List Nat} (hl : ∀ k ∈ l, k ∈ l') (k : Nat) : l.contains k = true → l'.contains k = true := by
    simp only [List.contains_iff_mem]
    exact hl k
  have hk := hmono h.known
  have hs := hmono h.seen
  rw [h.own]
  generalize r'.known = kn at hk
  generalize r'.seen = se at hs
  generalize r'.cells = ce
  have hbefore : r.before g = true → ({ r with known := kn, seen := se, cells := ce } : WRec).before g = true := by
    simp only [WRec.before, hg, Bool.false_eq_true, false_and, if_false, Bool.or_eq_true, Bool.and_eq_true]
    rintro (((h1 | h1) | h1) | h1)
    · exact .inl (.inl (.inl (hk _ h1)))
    · exact .inl (.inl (.inr ⟨h1.1, hk _ h1.2⟩))
    · exact .inl (.inr h1)
    · exact .inr h1
  have hord : r.orderedFor g = true → ({ r with known := kn, seen := se, cells := ce } : WRec).orderedFor g = true := by
    unfold WRec.orderedFor
    intro h1
    split
    · rfl
    · next h2 =>
      rw [if_neg h2] at h1
      split
      · next h3 => rwa [if_pos h3] at h1
      · next h3 => rw [if_neg h3] at h1; exact hbefore h1
  unfold WRec.free at hf ⊢
  simp only [Bool.and_eq_false_iff, Bool.not_eq_false'] at hf ⊢
  rcases hf with (h1 | h1) | h1
  · exact .inl (.inl (hord h1))
  · exact .inl (.inr (hs _ h1))
  · exact .inr (Bool.and_eq_true_iff.mpr ⟨(Bool.and_eq_true_iff.mp h1).1, hs _ (Bool.and_eq_true_iff.mp h1).2⟩)

/-- Recorded writes of a log are those of another of which more is known, and commits of the pick at device scope (R197). -/
def LogGrows (l l' : List WRec) (pick : Nat) : Prop :=
  ∀ r' ∈ l', (∃ r ∈ l, r.Extends r') ∨ (r'.sync = some 4 ∧ r'.pick = pick)

theorem LogGrows.refl (l : List WRec) (pick : Nat) : LogGrows l l pick := fun r h => .inl ⟨r, h, .refl r⟩

theorem LogGrows.trans {a b c : List WRec} {pick : Nat} (h : LogGrows a b pick) (k : LogGrows b c pick) :
    LogGrows a c pick := fun r hr => by
  rcases k r hr with ⟨r1, h1, e1⟩ | h1
  · rcases h r1 h1 with ⟨r2, h2, e2⟩ | ⟨hs, hp⟩
    · exact .inl ⟨r2, h2, e2.trans e1⟩
    · rw [e1.own]
      exact .inr ⟨hs, hp⟩
  · exact .inr h1

theorem LogGrows.map {l : List WRec} {f : WRec → WRec} (h : ∀ r : WRec, r.Extends (f r)) (pick : Nat) : LogGrows l (l.map f) pick :=
  fun r' hr' => by
    obtain ⟨r, hr, rfl⟩ := List.mem_map.mp hr'
    exact .inl ⟨r, hr, h r⟩

/-! ## States -/

/-- A pick with its paths, what its relaxed reads found, and its transactions as another has them. -/
def Pick.withCommitsOf (q p : Pick) : Pick := { q with paths := p.paths, rlxSeen := p.rlxSeen, txs := p.txs }

/-- What commits of transactions of the focus pick may change: memory, the bookkeeping of order, copies, counters, and of the
pick its transactions and what acquires brought. -/
structure Commits (s t : State) : Prop where
  own : { t with picks := s.picks, dies := s.dies, mem := s.mem, poison := s.poison, wlog := s.wlog, nextW := s.nextW,
                 fadds := s.fadds, fns := s.fns } = s
  host : HostCached s t
  others : ∀ k, k ≠ s.cur → t.pickAt k = s.pickAt k
  live : ∀ e ∈ t.picks, e.1 ≠ s.cur → e ∈ s.picks
  dies : ∀ k, { t.dieAt k with counters := (s.dieAt k).counters } = s.dieAt k
  pick : t.pick.withCommitsOf s.pick = s.pick
  acq : ∀ n, { t.pick.path n with acq := (s.pick.path n).acq } = s.pick.path n
  log : LogGrows s.wlog t.wlog s.cur

theorem Commits.cur {s t : State} (h : Commits s t) : t.cur = s.cur := (congrArg State.cur h.own :)

theorem Commits.refl (s : State) : Commits s s :=
  ⟨rfl, fun _ => rfl, fun _ _ => rfl, fun _ h _ => h, fun _ => rfl, rfl, fun _ => rfl, .refl _ _⟩

theorem Commits.trans {s t u : State} (h : Commits s t) (k : Commits t u) : Commits s u where
  own := by
    have e := congrArg (fun w : State => { w with
      picks := s.picks, dies := s.dies, mem := s.mem, poison := s.poison, wlog := s.wlog, nextW := s.nextW,
      fadds := s.fadds, fns := s.fns }) k.own
    exact e.trans h.own
  host j := by
    have e := congrArg (fun f : Function => { f with ats := (tget ({} : Function) s.fns j).ats }) (k.host j)
    exact e.trans (h.host j)
  others j hj := (k.others j (h.cur ▸ hj)).trans (h.others j hj)
  live e he hk := h.live e (k.live e he (h.cur ▸ hk)) hk
  dies j := by
    have e := congrArg (fun d : Die => { d with counters := (s.dieAt j).counters }) (k.dies j)
    exact e.trans (h.dies j)
  pick := calc u.pick.withCommitsOf s.pick = (u.pick.withCommitsOf t.pick).withCommitsOf s.pick := rfl
    _ = s.pick := by rw [k.pick, h.pick]
  acq n := by
    have e := congrArg (fun x : PathState => { x with acq := (s.pick.path n).acq }) (k.acq n)
    exact e.trans (h.acq n)
  log := h.log.trans (h.cur ▸ k.log)

/-- A state whose log grows. -/
theorem Commits.of_wlog {s : State} {l : List WRec} (h : LogGrows s.wlog l s.cur) : Commits s { s with wlog := l } :=
  ⟨rfl, fun _ => rfl, fun _ _ => rfl, fun _ h _ => h, fun _ => rfl, rfl, fun _ => rfl, h⟩

theorem Commits.of_setPick {s : State} {p : Pick} (hp : p.withCommitsOf s.pick = s.pick)
    (ha : ∀ n, { p.path n with acq := (s.pick.path n).acq } = s.pick.path n) : Commits s (s.setPick p) :=
  ⟨rfl, fun _ => rfl, fun _ hk => State.setPick_pickAt_ne s p hk, fun _ he hk => mem_tput_of_ne he hk, fun _ => rfl,
    by rw [State.setPick_pick]; exact hp, by rw [State.setPick_pick]; exact ha, .refl _ _⟩

theorem State.count_commits (s : State) (die c n : Nat) : Commits s (s.count die c n) :=
  ⟨rfl, fun _ => rfl, fun _ _ => rfl, fun _ h _ => h, fun k => by
    obtain ⟨x, hx⟩ := s.count_dieAt die c n k
    rw [hx], rfl, fun _ => rfl, .refl _ _⟩

/-- Bookkeeping of a commit: neither memory nor transactions change. -/
structure Books (s t : State) : Prop extends Commits s t where
  mem : t.mem = s.mem
  txs : t.pick.txs = s.pick.txs

theorem Books.refl (s : State) : Books s s := ⟨.refl s, rfl, rfl⟩

theorem Books.trans {s t u : State} (h : Books s t) (k : Books t u) : Books s u :=
  ⟨h.toCommits.trans k.toCommits, k.mem.trans h.mem, k.txs.trans h.txs⟩

theorem Books.of_wlog {s : State} {l : List WRec} (h : LogGrows s.wlog l s.cur) : Books s { s with wlog := l } :=
  ⟨.of_wlog h, rfl, rfl⟩

theorem Books.of_setPick {s : State} {p : Pick} (hp : p.withCommitsOf s.pick = s.pick)
    (ha : ∀ n, { p.path n with acq := (s.pick.path n).acq } = s.pick.path n) (ht : p.txs = s.pick.txs) :
    Books s (s.setPick p) := ⟨.of_setPick hp ha, rfl, by rw [State.setPick_pick]; exact ht⟩

theorem State.learn_books (s : State) (key : Nat) (ids : List Nat) : Books s (s.learn key ids) := by
  unfold State.learn
  split
  · exact .refl s
  · refine .of_wlog (.map (fun r => ?_) _)
    split
    · exact ⟨rfl, fun _ h => List.mem_cons_of_mem _ h, fun _ h => h⟩
    · exact .refl r

theorem State.mark_books (s : State) (key : Nat) (ids : List Nat) : Books s (s.mark key ids) := by
  unfold State.mark
  split
  · exact .refl s
  · refine .of_wlog (.map (fun r => ?_) _)
    split
    · exact ⟨rfl, fun _ h => h, fun _ h => List.mem_cons_of_mem _ h⟩
    · exact .refl r

theorem State.withFadds_books (s : State) (fa : List NearAdds) : Books s { s with fadds := fa } :=
  ⟨⟨rfl, fun _ => rfl, fun _ _ => rfl, fun _ h _ => h, fun _ => rfl, rfl, fun _ => rfl, .refl _ _⟩, rfl, rfl⟩

theorem State.reach_books (s : State) (g : Agent) (locs : List Nat) : Books s (s.reach g locs) := by
  obtain ⟨fa, hr, -⟩ := s.recall_eq locs
  obtain ⟨fs, hf, hc⟩ := (s.recall locs).hostFill_eq g locs
  rw [State.reach, hf]
  rw [hf] at hc
  refine Books.trans (t := s.recall locs) (by rw [hr]; exact s.withFadds_books fa) ?_
  exact ⟨⟨rfl, hc, fun _ _ => rfl, fun _ h _ => h, fun _ => rfl, rfl, fun _ => rfl, .refl _ _⟩, rfl, rfl⟩

theorem State.recallRelease_books (s : State) (g : Agent) (y : Sync) : Books s (s.recallRelease g y) := by
  unfold State.recallRelease
  generalize (s.relsOf g y).map (·.scope) = l
  induction l generalizing s with
  | nil => exact .refl s
  | cons a l ih =>
    obtain ⟨fa, he, -⟩ := s.recallLoom_eq g.pick a
    exact Books.trans (t := s.recallLoom g.pick a) (by rw [he]; exact s.withFadds_books fa) (ih _)

theorem State.learnFor_books (s : State) {g : Agent} (hg : g.pick = s.cur) (ids : List Nat) : Books s (s.learnFor g ids) := by
  have hl := s.learn_books g.key ids
  have hc : (s.learn g.key ids).cur = g.pick := hl.cur.trans hg.symm
  unfold State.learnFor
  dsimp only
  split
  · exact hl
  · rw [← hc]
    generalize s.learn g.key ids = u at hl
    refine hl.trans (Books.of_setPick (p := u.pick.setPath g.path { u.pick.path g.path with
        acq := (u.pick.path g.path).acq ++ [(g.batch, ids)] }) rfl (fun n => ?_) rfl)
    rw [Pick.setPath_path]
    split
    · next h => rw [h]
    · rfl

theorem State.acquire_books (s : State) {g : Agent} (hg : g.pick = s.cur) (y : Sync) (locs ids : List Nat) :
    Books s (s.acquire g y locs ids) := by
  unfold State.acquire
  dsimp only
  split
  · exact .refl s
  · generalize hu : (if y.ord = 2 ∨ y.ord = 4 then s.learnFor g _ else s) = u
    have hb : Books s u := by
      rw [← hu]
      split
      · exact s.learnFor_books hg _
      · exact .refl s
    rw [show g.pick = u.cur from hg.trans hb.cur.symm]
    exact hb.trans (Books.of_setPick (p := { u.pick with
      rlxSeen := u.pick.rlxSeen ++ (s.relsSeen y locs ids).map (fun x => (g.key, x)) }) rfl (fun _ => rfl) rfl)

end Sys2Proof.Machine
end

section
/-! SUPPORT. TXEND where no transactions conflict and every recorded read holds: each lane's commit writes its words, as the
newest of the device, one lane after the other (R195 to R198, R325). -/

namespace Sys2Proof.Machine

/-! ## Commits are the newest writes -/

/-- The lanes of the running block go behind no recorded write: each is ordered before them, or is a commit of their pick at
device scope (R180, R197). -/
def State.commitsLast (s : State) : Prop :=
  ∀ r ∈ s.wlog, (∀ i, r.free (s.laneAgent 1 i) = false) ∨ (r.sync = some 4 ∧ r.pick = s.cur)

theorem State.commitsLast_of_settled {s : State} (h : s.lanesSettled 1) : s.commitsLast := fun r hr => .inl fun i => by
  have hi := h i
  simp only [State.settled, Bool.and_eq_true, List.all_eq_true, Bool.not_eq_true'] at hi
  obtain ⟨⟨hlog, -⟩, -⟩ := hi
  exact (hlog r hr).1

/-- Whether a write is free for a lane depends on the running block alone. -/
theorem WRec.free_laneAgent {s t : State} (hc : t.cur = s.cur) (hb : t.pick.blocks = s.pick.blocks) (r : WRec) (path i : Nat) :
    r.free (t.laneAgent path i) = r.free (s.laneAgent path i) := by
  unfold State.laneAgent
  rw [hb, hc]
  obtain ⟨l1, n1⟩ := t.looseOf t.team
  obtain ⟨l2, n2⟩ := s.looseOf s.team
  cases s.pick.blocks <;> rfl

theorem State.laneAgent_inv (s : State) (path i : Nat) : (s.laneAgent path i).inv = false := by
  unfold State.laneAgent; split; split <;> rfl

theorem Commits.blocks {s t : State} (h : Commits s t) : t.pick.blocks = s.pick.blocks := (congrArg Pick.blocks h.pick :)

theorem Commits.commitsLast {s t : State} (h : Commits s t) (hs : s.commitsLast) : t.commitsLast := fun r' hr' => by
  rw [h.cur]
  rcases h.log r' hr' with ⟨r, hr, he⟩ | h2
  · rcases hs r hr with hf | ⟨h1, h2⟩
    · exact .inl fun i => by
        rw [WRec.free_laneAgent h.cur h.blocks]
        exact he.free (s.laneAgent_inv 1 i) (hf i)
    · rw [he.own]
      exact .inr ⟨h1, h2⟩
  · exact .inr h2

theorem State.inScope_device (s : State) (a : Nat) : s.inScope 4 a a = true := by
  unfold State.inScope
  dsimp only
  split
  · simp
  · rfl

/-- The agent that commits a transaction of lane i (R198). -/
def State.commitAgent (s : State) (i : Nat) (x : Tx) : Agent := { (s.laneAgent 1 i).as { ord := 4, scp := 4 } with pages := x.pages }

theorem State.commitAgent_pick (s : State) (i : Nat) (x : Tx) : (s.commitAgent i x).pick = s.cur := s.laneAgent_pick 1 i

theorem State.passes_commit {s : State} (h : s.commitsLast) {r : WRec} (hr : r ∈ s.wlog) (i : Nat) (x : Tx) :
    s.passes (s.commitAgent i x) r = false := by
  rcases h r hr with hf | ⟨hs, hp⟩
  · have : r.free (s.commitAgent i x) = false := hf i
    rw [State.passes, this, Bool.false_and]
  · have : s.synced (s.commitAgent i x) r = true := by
      have ho : (s.commitAgent i x).ord = 4 := rfl
      have hc : (s.commitAgent i x).scp = 4 := rfl
      simp [State.synced, hs, ho, hc, s.commitAgent_pick, hp, s.inScope_device]
    rw [State.passes, this, Bool.not_true, Bool.and_false]

theorem State.placeOf_commit {s : State} (h : s.commitsLast) (i : Nat) (x : Tx) (ws : List (Nat × Word)) :
    s.placeOf (s.commitAgent i x) ws = none := by
  have hnil : (s.wlog.filter (fun r => ws.any (fun b => r.maskAt b.1 &&& b.2 != 0))).takeWhile
      (s.passes (s.commitAgent i x)) = [] := by
    rw [List.takeWhile_eq_nil_iff]
    intro hl
    have := s.passes_commit h (List.mem_of_mem_filter (List.getElem_mem hl)) i x
    exact Bool.not_eq_true _ ▸ this
  simp only [State.placeOf, hnil, openEnds, List.length_nil, State.freeTo, if_true]

/-! ## One commit -/

/-- The write record of a unit that goes in as the newest. -/
theorem State.putUnit_newest (s : State) (g : Agent) (rels : List Rel) (u : List Bits) :
    ∃ x : WRec, x.pick = g.pick ∧ x.sync = (if g.ord < 2 then none else some g.scp) ∧
      s.putUnit g rels true none u = State.putMixes { s with nextW := s.nextW + 1, wlog := x :: s.wlog } u :=
  ⟨_, rfl, rfl, rfl⟩

/-- The values that a look back finds that passes over nothing. -/
theorem State.now_value (s : State) {ws : List (Nat × Word)} {skip : WRec → Bool} (h : ∀ r, skip r = false) {l : Nat}
    (hl : l ∈ ws.map (·.1)) : ((((lookBack skip s.wlog (ws.map (fun w => (w.1, w.2, s.wordAt w.1)))).1.find?
      (fun b => b.1 == l)).map (·.2.2)).getD 0) = s.wordAt l := by
  have hv := lookBack_values (skip := skip) (rs := s.wlog) (u := ws.map (fun w => (w.1, w.2, s.wordAt w.1)))
    fun r _ _ _ _ => h r
  generalize (lookBack skip s.wlog (ws.map (fun w => (w.1, w.2, s.wordAt w.1)))).1 = all at hv
  have hall (b : Bits) (hb : b ∈ all) : b.2.2 = s.wordAt b.1 := by
    have hm : (b.1, b.2.2) ∈ all.map (fun b : Bits => (b.1, b.2.2)) := List.mem_map_of_mem hb
    rw [hv, List.map_map] at hm
    obtain ⟨w, -, e⟩ := List.mem_map.mp hm
    obtain ⟨e1, e2⟩ := Prod.ext_iff.mp e
    exact e2.symm.trans (congrArg s.wordAt e1)
  have hsome : (all.find? (fun b => b.1 == l)).isSome := by
    rw [List.find?_isSome]
    obtain ⟨w, hw, e⟩ := List.mem_map.mp hl
    have hm : (w.1, s.wordAt w.1) ∈ all.map (fun b : Bits => (b.1, b.2.2)) := by
      rw [hv, List.map_map]
      exact List.mem_map_of_mem (f := fun w : Nat × Word => (w.1, s.wordAt w.1)) hw
    obtain ⟨b, hb, eb⟩ := List.mem_map.mp hm
    exact ⟨b, hb, beq_iff_eq.mpr (((Prod.ext_iff.mp eb).1 :).trans e)⟩
  obtain ⟨b, hb⟩ := Option.isSome_iff_exists.mp hsome
  have hbl : b.1 = l := by simpa using List.find?_some hb
  rw [hb, Option.map_some, Option.getD_some, hall b (List.mem_of_find?_eq_some hb), hbl]

theorem mem_foldl_addBits (bs ws : List Bits) (l : Nat) :
    l ∈ (bs.foldl addBits ws).map (·.1) ↔ l ∈ ws.map (·.1) ∨ l ∈ bs.map (·.1) := by
  induction bs generalizing ws with
  | nil => simp
  | cons b bs ih => rw [List.foldl_cons, ih, mem_addBits, List.map_cons, List.mem_cons, or_assoc]

/-- The words of a write buffer lie at words of memory. -/
theorem Tx.unit_mod {x : Tx} (h : ∀ c ∈ x.writes, c.1 % 4 = 0) : ∀ c ∈ x.unit, c.1 % 4 = 0 := by
  intro c hc
  obtain ⟨b, hb, hm⟩ := List.mem_flatMap.mp hc
  obtain ⟨l, hl, rfl⟩ := List.mem_map.mp hm
  have hb4 := h b hb
  dsimp only
  split at hl
  · rcases List.mem_cons.mp hl with rfl | hl
    · unfold paHome; omega
    · rw [List.mem_singleton.mp hl]
      unfold paTwin; omega
  · rw [List.mem_singleton.mp hl]; exact hb4

/-- A record that covers words beside those it wrote. -/
theorem WRec.cover_extends (r : WRec) (v : Nat → Word) (locs : List Nat) : r.Extends (r.cover v locs) :=
  ⟨rfl, fun _ h => h, fun _ h => h⟩

/-- What the write of a commit and its bookkeeping leave. -/
theorem State.commit_effect (s : State) {x : Tx} (hw : ∀ c ∈ x.writes, c.1 % 4 = 0)
    (hn : (x.unit.map (·.1)).Nodup) (i : Nat) (rels : List Rel) (now : Nat → Word) (locs ids : List Nat) :
    let y : Sync := { ord := 4, scp := 4 }
    let g := s.commitAgent i x
    let s1 := s.putUnit g rels true none x.unit
    let s2 : State := { s1 with wlog := s1.wlog.map (fun r => if r.id = s.nextW then r.cover now x.words else r) }
    let t := (((s2.mark g.key ids).reach g locs).recallRelease g y).acquire g y locs ids
    Commits s t ∧ t.pick.txs = s.pick.txs ∧ (∀ a, (∀ c ∈ x.unit, c.1 ≠ memLoc a) → rdByte t.mem a = rdByte s.mem a) ∧
      ∀ c ∈ x.unit, t.wordAt c.1 = mix (s.wordAt c.1) c.2.1 c.2.2 := by
  dsimp only
  obtain ⟨r, hp, hs, he⟩ := s.putUnit_newest (s.commitAgent i x) rels x.unit
  obtain ⟨⟨me, po, hmix⟩, hbytes, hwords⟩ := State.putMixes_spec x.unit (Tx.unit_mod hw) hn
    { s with nextW := s.nextW + 1, wlog := r :: s.wlog }
  rw [he]
  generalize State.putMixes { s with nextW := s.nextW + 1, wlog := r :: s.wlog } x.unit = s1 at hmix hbytes hwords
  have h1 : Commits s s1 := by
    rw [hmix]
    refine ⟨rfl, fun _ => rfl, fun _ _ => rfl, fun _ h _ => h, fun _ => rfl, rfl, fun _ => rfl, fun q hq => ?_⟩
    rcases List.mem_cons.mp hq with rfl | hq
    · exact .inr ⟨hs, hp.trans (s.commitAgent_pick i x)⟩
    · exact .inl ⟨q, hq, .refl q⟩
  have h2 : Books s1 { s1 with wlog := s1.wlog.map (fun r => if r.id = s.nextW then r.cover now x.words else r) } :=
    .of_wlog (.map (fun r => by
      split
      · exact r.cover_extends _ _
      · exact .refl r) _)
  generalize ({ s1 with wlog := s1.wlog.map (fun r => if r.id = s.nextW then r.cover now x.words else r) } : State) = s2 at h2
  have h3 := ((h2.trans (s2.mark_books (s.commitAgent i x).key ids)).trans (State.reach_books _ (s.commitAgent i x) locs)).trans
    (State.recallRelease_books _ (s.commitAgent i x) { ord := 4, scp := 4 })
  have h4 := h3.trans (State.acquire_books _ (g := s.commitAgent i x)
    ((s.commitAgent_pick i x).trans (h3.cur.trans h1.cur).symm) { ord := 4, scp := 4 } locs ids)
  generalize ((((s2.mark (s.commitAgent i x).key ids).reach (s.commitAgent i x) locs).recallRelease (s.commitAgent i x)
    { ord := 4, scp := 4 }).acquire (s.commitAgent i x) { ord := 4, scp := 4 } locs ids) = t at h4
  have ht1 : s1.pick.txs = s.pick.txs := by rw [hmix]; rfl
  refine ⟨h1.trans h4.toCommits, h4.txs.trans ht1, fun a ha => ?_, fun c hc => ?_⟩
  · rw [h4.mem]
    exact hbytes a ha
  · refine Eq.trans ?_ (hwords c hc)
    exact State.wordAt_congr (Tx.unit_mod hw c hc) fun a _ => by rw [h4.mem]

/-- The commit of a lane whose recorded reads hold (R197, R198). -/
theorem State.commitTx_commits {s : State} {x : Tx} (h : s.commitsLast) (hw : ∀ c ∈ x.writes, c.1 % 4 = 0)
    (hn : (x.unit.map (·.1)).Nodup) (hr : ∀ c ∈ x.reads, s.wordAt c.1 &&& c.2.1 = c.2.2 &&& c.2.1) (i : Nat) :
    ∃ t, s.commitTx i x = some t ∧ Commits s t ∧ t.pick.txs = s.pick.txs ∧
      (∀ a, (∀ c ∈ x.unit, c.1 ≠ memLoc a) → rdByte t.mem a = rdByte s.mem a) ∧
      ∀ c ∈ x.unit, t.wordAt c.1 = mix (s.wordAt c.1) c.2.1 c.2.2 := by
  unfold State.commitTx
  dsimp only
  generalize hws : ((x.words.map (fun l => (l, BitVec.allOnes 32, (0 : Word)))).foldl addBits
      ((x.reads.map (fun b => (b.1, b.2.1, (0 : Word)))).foldl addBits x.unit)).map (fun b => (b.1, b.2.1)) = ws
  have hmem : ∀ c ∈ x.reads, c.1 ∈ ws.map (·.1) := fun c hc => by
    rw [← hws, List.map_map]
    show c.1 ∈ List.map (fun b : Bits => b.1) _
    rw [mem_foldl_addBits, mem_foldl_addBits, List.map_map]
    exact .inl (.inr (List.mem_map_of_mem (f := fun b : Bits => b.1) hc))
  have hplace : s.placeOf { (s.laneAgent 1 i).as { ord := 4, scp := 4 } with pages := x.pages } ws = none :=
    State.placeOf_commit h i x ws
  rw [hplace]
  dsimp only
  rw [if_pos (List.all_eq_true.mpr fun c hc => by
    rw [State.now_value s (skip := fun r => ([] : List Nat).contains r.id) (fun _ => rfl) (hmem c hc)]
    exact beq_iff_eq.mpr (hr c hc))]
  exact ⟨_, rfl, s.commit_effect hw hn i _ _ _ _⟩

/-! ## Commits one after the other -/

/-- A word whose bytes stay in memory stays, wherever it lies. -/
theorem State.wordAt_kept {s t : State} (ht : t.teams = s.teams) {l : Nat} (h : ∀ a, memLoc a = l → rdByte t.mem a = rdByte s.mem a) :
    t.wordAt l = s.wordAt l := by
  by_cases hl : l % 4 = 0
  · exact State.wordAt_congr hl h
  · simp only [State.wordAt, if_neg hl, ht]

theorem Commits.teams {s t : State} (h : Commits s t) : t.teams = s.teams := (congrArg State.teams h.own :)

/-- No other pick has a transaction. -/
def State.aloneInTxs (s : State) : Prop := ∀ e ∈ s.picks, e.1 ≠ s.cur → e.2.txs = []

theorem Commits.aloneInTxs {s t : State} (h : Commits s t) (hs : s.aloneInTxs) : t.aloneInTxs := fun e he hk =>
  have hk' : e.1 ≠ s.cur := h.cur ▸ hk
  hs e (h.live e he hk') hk'

theorem State.lineLocked_alone {s : State} (h : s.aloneInTxs) (i : Nat) (x : Tx) : s.lineLocked i x = false := by
  unfold State.lineLocked
  have : s.picks.any (fun e => e.1 != s.cur && e.2.live &&
      e.2.txs.any (fun t => (t.2.rlines ++ t.2.wlines).any (x.rlines ++ x.wlines).contains)) = false := by
    rw [List.any_eq_false]
    intro e he hb
    simp only [Bool.and_eq_true, bne_iff_ne] at hb
    obtain ⟨⟨hk, -⟩, htx⟩ := hb
    rw [h e he hk] at htx
    exact Bool.false_ne_true htx
  simp only [this, Bool.false_and]

/-- Lanes with transactions that may commit one after the other: their buffers lie in memory, at words of their own, their
recorded reads hold, and no other writes what one reads or writes (R197). -/
structure State.Committable (s : State) (is : List Nat) (f : Nat → Tx) : Prop where
  txs : ∀ i ∈ is, s.pick.txs.lookup i = some (f i)
  writes : ∀ i ∈ is, ∀ c ∈ (f i).writes, c.1 % 4 = 0
  unit : ∀ i ∈ is, ((f i).unit.map (·.1)).Nodup
  reads : ∀ i ∈ is, ∀ c ∈ (f i).reads, s.wordAt c.1 &&& c.2.1 = c.2.2 &&& c.2.1
  apart : ∀ i ∈ is, ∀ j ∈ is, j ≠ i → ∀ c ∈ (f i).unit, (∀ e ∈ (f j).reads, e.1 ≠ c.1) ∧ ∀ e ∈ (f j).unit, e.1 ≠ c.1

/-- What commits of lanes leave: their transactions are gone and the words of their buffers are written (R197). -/
structure State.Committed (s : State) (is : List Nat) (f : Nat → Tx) (t : State) : Prop extends Commits s t where
  txs : ∀ j, t.pick.txs.lookup j = if j ∈ is then none else s.pick.txs.lookup j
  bytes : ∀ a, (∀ i ∈ is, ∀ c ∈ (f i).unit, c.1 ≠ memLoc a) → rdByte t.mem a = rdByte s.mem a
  words : ∀ i ∈ is, ∀ c ∈ (f i).unit, t.wordAt c.1 = mix (s.wordAt c.1) c.2.1 c.2.2

theorem State.commitTxs_cons {s t : State} {i : Nat} {is : List Nat} {x : Tx} (hx : s.pick.txs.lookup i = some x)
    (hl : s.lineLocked i x = false) (hc : s.commitTx i x = some t) : s.commitTxs (i :: is) =
      ((t.setPick { t.pick with txs := t.pick.txs.filter (fun e => e.1 != i) }).count t.team.die 0x00A 1).commitTxs is := by
  rw [State.commitTxs]
  simp only [State.txOf, hx, hl, hc, Bool.false_eq_true, if_false]

/-- One lane commits. -/
theorem State.Committable.commitOne {s : State} {i : Nat} {is : List Nat} {f : Nat → Tx} (h : s.Committable (i :: is) f)
    (hlast : s.commitsLast) (halone : s.aloneInTxs) :
    ∃ t, s.commitTxs (i :: is) = t.commitTxs is ∧ s.Committed [i] f t := by
  have hi : i ∈ i :: is := List.mem_cons_self
  obtain ⟨t, hc, hcom, htx, hbytes, hwords⟩ := State.commitTx_commits hlast (h.writes i hi) (h.unit i hi) (h.reads i hi) i
  refine ⟨_, State.commitTxs_cons (h.txs i hi) (State.lineLocked_alone halone i _) hc, ?_⟩
  have hset : Commits t (t.setPick { t.pick with txs := t.pick.txs.filter (fun e => e.1 != i) }) :=
    .of_setPick rfl fun _ => rfl
  refine ⟨(hcom.trans hset).trans (State.count_commits _ _ _ _), fun j => ?_, fun a ha => ?_, fun j hj c hcu => ?_⟩
  · rw [State.count_pick, State.setPick_pick]
    show (t.pick.txs.filter (fun e => e.1 != i)).lookup j = _
    rw [lookup_filter_ne, htx]
    simp only [List.mem_singleton]
  · exact hbytes a (ha i (List.mem_singleton_self i))
  · obtain rfl : j = i := List.mem_singleton.mp hj
    exact hwords c hcu

/-- The words that the other lanes read or write are as before. -/
theorem State.Committed.wordAt_other {s t : State} {is : List Nat} {f : Nat → Tx} (h : s.Committed is f t) {l : Nat}
    (hl : ∀ i ∈ is, ∀ c ∈ (f i).unit, l ≠ c.1) : t.wordAt l = s.wordAt l :=
  State.wordAt_kept h.teams fun a ha => h.bytes a fun i hi c hc e => hl i hi c hc (ha.symm.trans e.symm)

theorem State.commitTxs_committed {is : List Nat} (hn : is.Nodup) {s : State} {f : Nat → Tx} (h : s.Committable is f)
    (hlast : s.commitsLast) (halone : s.aloneInTxs) :
    (s.commitTxs is).2 = [] ∧ s.Committed is f (s.commitTxs is).1 := by
  induction is generalizing s with
  | nil => exact ⟨rfl, .refl s, fun _ => rfl, fun _ _ => rfl, nofun⟩
  | cons i is ih =>
    obtain ⟨hi, hn⟩ := List.nodup_cons.mp hn
    obtain ⟨t, he, h1⟩ := h.commitOne hlast halone
    have hmem {j : Nat} (hj : j ∈ is) : j ∈ i :: is := List.mem_cons_of_mem _ hj
    have hne {j : Nat} (hj : j ∈ is) : j ≠ i := fun e => hi (e ▸ hj)
    have hself : i ∈ i :: is := List.mem_cons_self
    have hother {l : Nat} (hl : ∀ c ∈ (f i).unit, l ≠ c.1) : t.wordAt l = s.wordAt l :=
      h1.wordAt_other fun j hj => by rw [List.mem_singleton.mp hj]; exact hl
    have hnext : t.Committable is f :=
      { txs := fun j hj => by rw [h1.txs, if_neg fun e => hne hj (List.mem_singleton.mp e)]; exact h.txs j (hmem hj)
        writes := fun j hj => h.writes j (hmem hj)
        unit := fun j hj => h.unit j (hmem hj)
        reads := fun j hj c hc => by
          rw [hother fun b hb => (h.apart i hself j (hmem hj) (hne hj) b hb).1 c hc]
          exact h.reads j (hmem hj) c hc
        apart := fun j hj k hk => h.apart j (hmem hj) k (hmem hk) }
    obtain ⟨hfail, h2⟩ := ih hn hnext (h1.commitsLast hlast) (h1.aloneInTxs halone)
    rw [he]
    refine ⟨hfail, h1.toCommits.trans h2.toCommits, fun j => ?_, fun a ha => ?_, List.forall_mem_cons.mpr ⟨fun c hc => ?_,
      fun j hj c hc => ?_⟩⟩
    · rw [h2.txs, h1.txs]
      by_cases hj : j ∈ is
      · rw [if_pos hj, if_pos (hmem hj)]
      · simp only [List.mem_cons, hj, List.not_mem_nil, or_false, if_false]
    · obtain ⟨ha1, ha2⟩ := List.forall_mem_cons.mp ha
      exact (h2.bytes a ha2).trans (h1.bytes a fun j hj => by rw [List.mem_singleton.mp hj]; exact ha1)
    · rw [h2.wordAt_other fun j hj b hb => ((h.apart j (hmem hj) i hself (hne hj).symm b hb).2 c hc)]
      exact h1.words i (List.mem_singleton_self i) c hc
    · rw [h2.words j hj c hc, hother fun b hb => (h.apart i hself j (hmem hj) (hne hj) b hb).2 c hc]

/-! ## The statement's instruction -/

/-- The lanes of the fragment that are in a transaction, and the transaction of a lane. -/
def Pick.txOf (p : Pick) (i : Nat) : Tx := (p.txs.lookup i).getD {}

theorem Pick.txOf_eq {p : Pick} {i : Nat} {x : Tx} (h : p.txs.lookup i = some x) : p.txOf i = x := by
  rw [Pick.txOf, h, Option.getD_some]

theorem Pick.lookup_inTxs {p : Pick} {m : Word} {i : Nat} (h : i ∈ p.inTxs m) :
    i ∈ lanesOf m ∧ p.txs.lookup i = some (p.txOf i) := by
  obtain ⟨h1, h2⟩ := Pick.mem_inTxs.mp h
  obtain ⟨x, hx⟩ := Option.isSome_iff_exists.mp h2
  exact ⟨mem_lanesOf.mpr h1, by rw [Pick.txOf_eq hx, hx]⟩

theorem Pick.abortOthers_nil (p : Pick) (txs : List (Nat × Tx)) : p.abortOthers txs [] = p := by
  have h : p.ls.leaveTxs txs [] = p.ls := rfl
  rw [Pick.abortOthers, h]
  unfold Pick.setLs Pick.ls
  split <;> rfl

theorem State.setPick_self_commits (s : State) : Commits s (s.setPick s.pick) := .of_setPick rfl fun _ => rfl

theorem State.Committed.setPick_self {s t : State} {is : List Nat} {f : Nat → Tx} (h : s.Committed is f t) :
    s.Committed is f (t.setPick t.pick) :=
  ⟨h.toCommits.trans t.setPick_self_commits, by rw [State.setPick_pick]; exact h.txs, h.bytes, h.words⟩

/-- TXEND where no transactions conflict and those of the fragment may commit (R197, R325). -/
theorem exec_txend {s : State} (st : BitVec 4) (hlose : conflictLosers s.pick.txs = []) (hlast : s.commitsLast)
    (halone : s.aloneInTxs) (h : s.Committable (s.pick.inTxs s.fragLanes) s.pick.txOf) :
    ∃ u, s.Committed (s.pick.inTxs s.fragLanes) s.pick.txOf u ∧
      exec (.txend st) s = .next (u.laneDone st s.fragLanes (moveAborting s.pick.modeTxs [] nextL)) := by
  have hn : (s.pick.inTxs s.fragLanes).Nodup := (List.nodup_range.filter _).filter _
  have hfine : (lanesOf s.fragLanes).filter (fun i => (s.pick.txs.lookup i).isSome && !([] : List Nat).contains i) =
      s.pick.inTxs s.fragLanes := List.filter_congr fun i _ => Bool.and_true _
  have hfails := (State.commitTxs_committed hn h hlast halone).1
  have hself := s.setPick_self_commits
  have h' : (s.setPick s.pick).Committable (s.pick.inTxs s.fragLanes) s.pick.txOf :=
    ⟨by rw [State.setPick_pick]; exact h.txs, h.writes, h.unit, h.reads, h.apart⟩
  have hdone := (State.commitTxs_committed hn h' (hself.commitsLast hlast) (hself.aloneInTxs halone)).2
  refine ⟨((s.setPick s.pick).commitTxs (s.pick.inTxs s.fragLanes)).1.setPick
    ((s.setPick s.pick).commitTxs (s.pick.inTxs s.fragLanes)).1.pick, ?_, ?_⟩
  · have hc : s.Committed (s.pick.inTxs s.fragLanes) s.pick.txOf
        ((s.setPick s.pick).commitTxs (s.pick.inTxs s.fragLanes)).1 :=
      ⟨hself.trans hdone.toCommits, by have := hdone.txs; rwa [State.setPick_pick] at this, hdone.bytes, hdone.words⟩
    exact hc.setPick_self
  · show execTxend st s = _
    rw [execTxend]
    simp only [hlose, hfine, hfails, List.append_nil, List.filter_nil, List.map_nil, Pick.abortAll_nil, Pick.abortOthers_nil,
      State.laneCommit_effect]

/-- What commits and then the end of the instruction leave outside the pick. -/
theorem Commits.laneDone_frame {s u : State} (h : Commits s u) (stall : BitVec 4) (m : Word) (move : Nat → Strand → Strand) :
    LaneMemFrame s (u.laneDone stall m move) ∧ (u.laneDone stall m move).launches = s.launches ∧
      (u.laneDone stall m move).ctxs = s.ctxs ∧ (u.laneDone stall m move).mem = u.mem ∧
      ∀ k, ((u.laneDone stall m move).teamAt k).scratch = (s.teamAt k).scratch := by
  obtain ⟨hown, hothers, hteams, hdies⟩ := PickMoves.laneDone_frame (s := u) (u := u) ⟨rfl, fun _ _ => rfl⟩ rfl stall m move
  generalize u.laneDone stall m move = t at hown hothers hteams hdies
  have hta (k : Nat) : u.teamAt k = s.teamAt k := by simp only [State.teamAt, h.teams]
  have hf : t.fns = u.fns := (congrArg State.fns hown :)
  have hlaunch : t.launches = s.launches := (congrArg State.launches hown :).trans (congrArg State.launches h.own :)
  have hctx : t.ctxs = s.ctxs := (congrArg State.ctxs hown :).trans (congrArg State.ctxs h.own :)
  refine ⟨⟨?_, fun k => ?_, fun k hk => (hothers k (h.cur ▸ hk)).trans (h.others k hk), fun k => ?_, fun k => ?_,
    fun k => ?_, fun k => ?_⟩, hlaunch, hctx, (congrArg State.mem hown :), fun k => ?_⟩
  · have e1 := congrArg (fun w : State => { w with
      picks := s.picks, teams := s.teams, dies := s.dies, ctxs := s.ctxs, mem := s.mem, poison := s.poison,
      wlog := s.wlog, nextW := s.nextW, fadds := s.fadds, launches := s.launches, fns := s.fns }) hown
    have e2 := congrArg (fun w : State => { w with teams := s.teams, ctxs := s.ctxs, launches := s.launches }) h.own
    exact e1.trans e2
  · rw [hf]; exact h.host k
  · rw [hteams k, ← hta k]
    split <;> rfl
  · have e := congrArg (fun d : Die => { d with counters := (s.dieAt k).counters }) (hdies k)
    exact e.trans (h.dies k)
  · simp only [State.launchAt, hlaunch]
  · simp only [State.ctxAt, hctx]
  · rw [hteams k, ← hta k]
    split <;> rfl

/-- TXEND where no transactions conflict and those of the fragment may commit (R195 to R198, R325). -/
theorem txend_completes {s : State} (st : BitVec 4) (hlose : conflictLosers s.pick.txs = []) (hset : s.lanesSettled 1)
    (halone : s.aloneInTxs) (h : s.Committable (s.pick.inTxs s.fragLanes) s.pick.txOf) :
    Completes (.txend st) s fun t =>
      LaneMemFrame s t ∧ StrandsMove s t nextL ∧ t.launches = s.launches ∧ t.ctxs = s.ctxs ∧
      { t.pick with lanes := s.pick.lanes, hlanes := s.pick.hlanes, nextLane := s.pick.nextLane,
                    parkWant := s.pick.parkWant, txs := s.pick.txs, paths := s.pick.paths, rlxSeen := s.pick.rlxSeen } =
        s.pick ∧
      (∀ n, { t.pick.path n with acq := (s.pick.path n).acq } = s.pick.path n) ∧
      (∀ i, t.pick.txs.lookup i = if i ∈ lanesOf s.fragLanes then none else s.pick.txs.lookup i) ∧
      (∀ k, (t.teamAt k).scratch = (s.teamAt k).scratch) ∧
      (∀ a, (∀ i ∈ s.pick.inTxs s.fragLanes, ∀ c ∈ (s.pick.txOf i).unit, c.1 ≠ memLoc a) → rdByte t.mem a = rdByte s.mem a) ∧
      ∀ i ∈ s.pick.inTxs s.fragLanes, ∀ c ∈ (s.pick.txOf i).unit, t.wordAt c.1 = mix (s.wordAt c.1) c.2.1 c.2.2 := by
  obtain ⟨u, hu, hexec⟩ := exec_txend st hlose (State.commitsLast_of_settled hset) halone h
  obtain ⟨hframe, hlaunch, hctx, hmem, hscratch⟩ :=
    hu.toCommits.laneDone_frame st s.fragLanes (moveAborting s.pick.modeTxs [] nextL)
  have hls : u.pick.ls = s.pick.ls := (congrArg Pick.ls hu.pick :)
  have hfrag : u.frag = s.frag := (congrArg State.frag hu.own :)
  have hstrands : StrandsMove s (u.laneDone st s.fragLanes (moveAborting s.pick.modeTxs [] nextL)) nextL :=
    State.laneDone_strandsMove hls hfrag _ _ fun n x _ _ => Strand.settle_moveAborting_nil _ n x
  obtain ⟨hown, -, -⟩ := u.laneDone_pickOwn st s.fragLanes (moveAborting s.pick.modeTxs [] nextL)
  refine ⟨u.laneDone st s.fragLanes (moveAborting s.pick.modeTxs [] nextL), hexec, hframe, hstrands, hlaunch, hctx, ?_⟩
  generalize u.laneDone st s.fragLanes (moveAborting s.pick.modeTxs [] nextL) = t at hmem hscratch hown
  have hpath (n : Nat) : t.pick.path n = u.pick.path n := (congrArg (Pick.path · n) hown :)
  have htxs : t.pick.txs = u.pick.txs := (congrArg Pick.txs hown :)
  refine ⟨?_, fun n => ?_, fun i => ?_, hscratch, fun a ha => ?_, fun i hi c hc => ?_⟩
  · have e1 := congrArg (fun q : Pick => { q with
      lanes := s.pick.lanes, hlanes := s.pick.hlanes, nextLane := s.pick.nextLane, parkWant := s.pick.parkWant,
      txs := s.pick.txs, paths := s.pick.paths, rlxSeen := s.pick.rlxSeen }) hown
    have e2 := congrArg (fun q : Pick => { q with
      lanes := s.pick.lanes, hlanes := s.pick.hlanes, nextLane := s.pick.nextLane, parkWant := s.pick.parkWant }) hu.pick
    exact e1.trans e2
  · rw [hpath]; exact hu.acq n
  · rw [htxs, hu.txs, Pick.lookup_closed]
  · rw [hmem]; exact hu.bytes a ha
  · refine Eq.trans (State.wordAt_congr ?_ fun a _ => by rw [hmem]) (hu.words i hi c hc)
    exact Tx.unit_mod (h.writes i hi) c hc

end Sys2Proof.Machine
end

section
/-! SUPPORT. TXBEGIN, TXEND, TXABORT and VFENCE, settled. -/

namespace Sys2Proof.Machine

/-- The statement's conditions on the transactions of a fragment are those of commits one after the other. -/
theorem State.committable_of {s : State} (h : ∀ i x, i ∈ lanesOf s.fragLanes ∧ s.pick.txs.lookup i = some x →
    (∀ c ∈ x.writes, c.1 % 4 = 0) ∧ (x.unit.map (·.1)).Nodup ∧ (∀ c ∈ x.reads, s.wordAt c.1 &&& c.2.1 = c.2.2 &&& c.2.1) ∧
    ∀ j y, j ∈ lanesOf s.fragLanes ∧ s.pick.txs.lookup j = some y → j ≠ i →
      ∀ c ∈ x.unit, (∀ e ∈ y.reads, e.1 ≠ c.1) ∧ ∀ e ∈ y.unit, e.1 ≠ c.1) :
    s.Committable (s.pick.inTxs s.fragLanes) s.pick.txOf := by
  refine ⟨fun i hi => (Pick.lookup_inTxs hi).2, fun i hi => ?_, fun i hi => ?_, fun i hi => ?_, fun i hi j hj hne => ?_⟩ <;>
    obtain ⟨hwrites, hunit, hreads, hapart⟩ := h i (s.pick.txOf i) (Pick.lookup_inTxs hi)
  · exact hwrites
  · exact hunit
  · exact hreads
  · exact hapart j (s.pick.txOf j) (Pick.lookup_inTxs hj) hne

theorem State.mem_inTxs_of {s : State} {i : Nat} {x : Tx} (h : i ∈ lanesOf s.fragLanes ∧ s.pick.txs.lookup i = some x) :
    i ∈ s.pick.inTxs s.fragLanes ∧ s.pick.txOf i = x :=
  ⟨Pick.mem_inTxs.mpr ⟨mem_lanesOf.mp h.1, by rw [h.2]; rfl⟩, Pick.txOf_eq h.2⟩

/-- Settles O38: VFENCE by the results it awaits and a fence of each lane, TXBEGIN as an instruction of one result with a push,
TXEND by its lanes' commits one after the other, TXABORT by its lanes' aborts one after the other. -/
theorem transactions : Obligations.Transactions := by
  unfold Obligations.Transactions
  refine ⟨fun s h kind scp hr htx => ?_, fun s h st d off code => ⟨fun ht hh _ hr => ?_, fun hlose hset halone hall => ?_,
    fun hr => txabort_completes code hr⟩⟩
  · obtain ⟨t, he, h1, h2, h3, h4, h5, h6, h7, h8, hname⟩ := vfence_completes kind scp hr htx
    exact ⟨t, he, h1, h2, h3, h4, h5, h6, h7, h8, fun n hn i _ => hname n hn i⟩
  · rw [← State.laneRelative_eq]
    exact txbegin_completes st d off ht hh hr
  · obtain ⟨t, he, h1, h2, h3, h4, h5, h6, h7, h8, hbytes, hwords⟩ :=
      txend_completes st hlose hset halone (State.committable_of hall)
    refine ⟨t, he, h1, h2, h3, h4, h5, h6, h7, h8, fun a ha => hbytes a fun i hi => ?_, fun i x hx => ?_⟩
    · exact ha i _ (Pick.lookup_inTxs hi)
    · obtain ⟨hi, rfl⟩ := State.mem_inTxs_of hx
      exact hwords i hi

end Sys2Proof.Machine
end

section
/-! SUPPORT. Lane instructions of one result that may set SEED, or that write a lane predicate (R134, R272, R274). -/

namespace Sys2Proof.Machine

theorem State.noteLatent_pick (s : State) (xs : List (Src × Nat)) : (s.noteLatent xs).pick = s.pick := by
  obtain ⟨d, hd, -⟩ := s.noteLatent_eq xs
  rw [hd]; rfl

/-- A lane instruction of one result commits after its gate as from the state before it: the gate may have counted latent
poison alone. -/
theorem State.noteLatent_commits {s : State} {m : Word} {xs : List (Src × Nat)} {dest : Option Dest} {val : Nat → Word}
    {vs : Lanes} {fin : State → State} {sd : Word} (hx : dest ≠ some .nothing) (hv : ValuesFor dest m vs val)
    (hf : ∀ u : State, u.pick.seed = s.pick.seed →
      (fin u = u ∧ sd = s.pick.seed) ∨ fin u = u.setPick { u.pick with seed := sd })
    (hr : s.hasRoom m xs (destNames dest) = true) (stall : BitVec 4) (lat : Nat) (move : Nat → Strand → Strand) :
    ∃ t, (s.noteLatent xs).laneCommit stall m xs (writesFor dest m vs lat) move fin = .next t ∧
      LaneResult s t stall m xs dest lat val move sd := by
  obtain ⟨d, hn, hd⟩ := s.noteLatent_eq xs
  rw [hn] at hd ⊢
  exact State.laneCommit_result (s := { s with dies := d }) (d0 := s.dies) hd hx hv hf hr

/-- What the gate delivers for a source slot is the source's value (R218). -/
theorem State.gate_srcVal (s : State) (xs : List Src) (i : Nat) :
    (fun slot => s.permRead slot (((xs.map (fun x => (x, 1)))[slot]?).map (·.1) |>.getD Src.zero) 0 i) = s.srcVal xs i := by
  funext slot
  simp only [State.srcVal, List.getElem?_map]
  cases xs[slot]? <;> rfl

/-- An instruction that is a lane operation of these sources forms its value of them. -/
theorem LaneDoes.of_exec {s : State} {h : Hd} {d : BitVec 8} {i : Instr} {xs : List Src} {lat : Nat}
    {f : Nat → (Nat → Word) → Word} (he : exec i s = s.laneOp h d xs lat f) : LaneDoes s h d (i, xs, lat, f) := by
  intro hfit
  obtain ⟨t, ht, hw⟩ := State.laneOp_wrote hfit lat f
  exact ⟨t, he.trans ht, hw⟩

theorem LaneDoes.congr {s : State} {h : Hd} {d : BitVec 8} {i : Instr} {xs : List Src} {lat : Nat}
    {f g : Nat → (Nat → Word) → Word} (hf : LaneDoes s h d (i, xs, lat, f)) (hfg : ∀ k v, f k v = g k v) :
    LaneDoes s h d (i, xs, lat, g) := by
  obtain rfl : f = g := funext fun k => funext (hfg k)
  exact hf

/-- An instruction that is a comparison of these sources, true where this holds of them. -/
theorem PredDoes.of_exec {s : State} {h : Hd} {p : BitVec 3} {i : Instr} {xs : List Src} {lat : Nat}
    {f : Nat → (Nat → Word) → Bool} {P : Nat → (Nat → Word) → Prop} (he : exec i s = s.laneCmp h p xs lat f)
    (hP : ∀ k v, f k v = true ↔ P k v) : PredDoes s h p [] (i, xs, lat, P) := by
  intro hfit
  obtain ⟨hready, hroom⟩ := Bool.and_eq_true_iff.mp hfit
  let val (k : Nat) : Word := if f k (s.srcVal xs k) then 1 else 0
  obtain ⟨t, ht, hres⟩ := State.noteLatent_commits (fin := id) (sd := s.pick.seed) (dest := some (.pred p.toNat)) (val := val)
    nofun (fun k hk => lanesWith_get (s.lanesActive h.pi h.pn) val hk) (fun _ _ => .inl ⟨rfl, rfl⟩) hroom h.stall lat nextL
  refine ⟨t, he.trans ?_, fun k => f k (s.srcVal xs k), fun k => hP k _, hres⟩
  unfold State.laneCmp
  simp only [State.laneGate_ready hready, State.gate_srcVal]
  exact ht

end Sys2Proof.Machine
end

section
/-! SUPPORT. Float arithmetic of lanes: one rounding of an exact value, and SEED (R134, R302 to R305). -/

namespace Sys2Proof.Machine

theorem State.modeOf_eq_rmOf (s : State) (rm : BitVec 4) : s.modeOf rm = s.rmOf rm := by
  funext i
  simp [State.modeOf, State.rmOf, State.laneFmtr, bits, Nat.shiftRight_eq_div_pow]

theorem State.noteLatent_rmOf (s : State) (xs : List (Src × Nat)) (rm : BitVec 4) :
    (s.noteLatent xs).rmOf rm = s.modeOf rm := by
  obtain ⟨d, hd, -⟩ := s.noteLatent_eq xs
  rw [hd, State.modeOf_eq_rmOf]; rfl

/-- Setting SEED after an instruction leaves it, or puts it one step on where an active lane rounds stochastically (R134). -/
theorem seedAfter_cases {s u : State} (hu : u.pick.seed = s.pick.seed) (m : Word) (mode : Nat → Nat) :
    (seedAfter m mode u = u ∧ s.seedUsed m mode = s.pick.seed) ∨
      seedAfter m mode u = u.setPick { u.pick with seed := s.seedUsed m mode } := by
  unfold seedAfter State.seedUsed
  by_cases hm : ∃ i ∈ lanesOf m, mode i = 5
  · right
    have hany : (lanesOf m).any (fun i => mode i == 5) = true := by simpa using hm
    rw [if_pos hany, if_pos hm, hu]
  · left
    have hany : ¬ (lanesOf m).any (fun i => mode i == 5) = true := by simpa using hm
    exact ⟨if_neg hany, if_neg hm⟩

/-- A float operation that finds its registers rounds its exact value once in each active lane (R303, R305). -/
theorem State.floatOp_rounds {s : State} {h : Hd} {d : BitVec 8} {xs : List Src}
    (hfit : s.laneFit h [] xs (destOf d) = true) (rm : BitVec 4) (f : (Nat → Word) → Ext) :
    ∃ t, s.floatOp h d xs rm f = .next t ∧
      LaneResult s t h.stall (s.lanesActive h.pi h.pn) (xs.map (fun x => (x, 1))) (destOf d) 6
        (fun i => fpEnc (f (s.srcVal xs i)) (s.modeOf rm i) (drawBits s.pick.seed i)) nextL
        (s.seedUsed (s.lanesActive h.pi h.pn) (s.modeOf rm)) := by
  obtain ⟨hready, hroom⟩ := Bool.and_eq_true_iff.mp hfit
  obtain ⟨vs, hw, hv⟩ := writeTo_eq d (s.lanesActive h.pi h.pn)
    (fun i => fpEnc (f (s.srcVal xs i)) (s.modeOf rm i) (drawBits s.pick.seed i)) 6
  obtain ⟨t, ht, hres⟩ := State.noteLatent_commits (destOf_ne_nothing d) hv
    (fun u hu => seedAfter_cases hu (s.lanesActive h.pi h.pn) (s.modeOf rm)) hroom h.stall 6 nextL
  refine ⟨t, ?_, hres⟩
  unfold State.floatOp
  simp only [State.laneGate_ready hready, State.gate_srcVal, State.noteLatent_rmOf, State.drawOf,
    State.noteLatent_pick, hw]
  exact ht

end Sys2Proof.Machine
end

section
/-! SUPPORT. FP32 words by their fields, and what the minimum, comparisons and class masks of lanes find in them (R114, R306 to
R308). -/

namespace Sys2Proof.Machine

/-! ## The value of a word -/

theorem pow2_pos (k : Int) : 0 < pow2 k := by
  unfold pow2
  split <;> positivity

/-- The magnitude of a finite FP32 word with this exponent and fraction field (R114). -/
def fp32Mag (e f : Nat) : ℚ := if e = 0 then f * pow2 (-149) else ((2 ^ 23 + f : ℕ) : ℚ) * pow2 ((e : Int) - 127 - 23)

theorem fp32Mag_pos {e f : Nat} (h : ¬ (e = 0 ∧ f = 0)) : 0 < fp32Mag e f := by
  unfold fp32Mag
  split
  · next he =>
    have hf : 0 < f := Nat.pos_of_ne_zero fun hf => h ⟨he, hf⟩
    exact mul_pos (by exact_mod_cast hf) (pow2_pos _)
  · exact mul_pos (by positivity) (pow2_pos _)

/-- A positive magnitude under a sign is below 0 exactly where the sign is set. -/
theorem signed_neg_iff (s : Bool) {a : ℚ} (ha : 0 < a) : (if s then -1 else 1) * a < 0 ↔ s = true := by
  cases s
  · simpa using ha.le
  · simpa using ha

theorem bits_eq_div_mod (x lo n : Nat) : bits x lo n = x / 2 ^ lo % 2 ^ n := by
  rw [bits, Nat.shiftRight_eq_div_pow]

theorem bit_word_sign (w : Word) : bit w.toNat 31 = decide (2 ^ 31 ≤ w.toNat) := by
  have hlt : w.toNat < 2 ^ 32 := w.isLt
  rw [bit, Nat.testBit_eq_decide_div_mod_eq, decide_eq_decide]
  omega

section
variable {w : Word} {s : Bool} {e f : Nat} (hs : bit w.toNat 31 = s) (he : bits w.toNat 23 8 = e) (hf : bits w.toNat 0 23 = f)
include hs he hf

/-- The value of an FP32 word by its fields (R114). -/
theorem fp32_eq : fp32 w = if e = 255 then (if f = 0 then .inf s else .nan s)
    else if e = 0 ∧ f = 0 then .zero s else .real ((if s then -1 else 1) * fp32Mag e f) := by
  have hw : w.toNat % 2 ^ (1 + 8 + 23) = w.toNat := Nat.mod_eq_of_lt w.isLt
  simp only [fp32, f32, Fmt.decode, Fmt.width, hw, hs, he, hf, fp32Mag]
  by_cases h0 : e = 0
  · subst h0
    simp
  · by_cases h255 : e = 255
    · subst h255
      simp
    · simp only [h0, h255, mul_assoc, Nat.reducePow, Nat.reduceSub, Nat.cast_ofNat, false_and, and_false, if_false]

/-- The class of an FP32 word is the one bit that its fields name (R308). -/
theorem fclass_eq : fclass w = BitVec.ofNat 32 (2 ^ (if e = 255 then (if f ≠ 0 then 8 else if s then 0 else 7)
    else if e = 0 then (if f ≠ 0 then (if s then 2 else 5) else if s then 3 else 4) else if s then 1 else 6)) := by
  simp only [fclass, fp32_eq hs he hf, he, Nat.one_shiftLeft]
  refine congrArg (fun k => BitVec.ofNat 32 (2 ^ k)) ?_
  by_cases h255 : e = 255
  · by_cases h0 : f = 0 <;> simp [h255, h0]
  · by_cases hz : e = 0 ∧ f = 0
    · simp [hz]
    · have hneg := signed_neg_iff s (fp32Mag_pos hz)
      simp only [if_neg h255, if_neg hz, hneg]
      by_cases h0 : e = 0
      · have hf0 : f ≠ 0 := fun h => hz ⟨h0, h⟩
        simp [h0, hf0]
      · simp [h0]
end

/-! ## Comparisons -/

/-- The operands of a comparison are unordered (R307). -/
def FUnordered (a b : Word) : Prop := (fp32 a).isNan = true ∨ (fp32 b).isNan = true

/-- Both operands are zeros, of whatever sign. -/
def FZeros (a b : Word) : Prop := (fp32 a).isZero = true ∧ (fp32 b).isZero = true

/-- The operands are equal, where they are ordered. -/
def FEqual (a b : Word) : Prop := FZeros a b ∨ fp32 a = fp32 b

/-- The first operand is less. -/
def FLess (a b : Word) : Prop := ¬ FZeros a b ∧ (fp32 a).below (fp32 b) = true

/-- When each condition of VFCMP holds (R307). -/
theorem fcond_iff (a b : Word) :
    (fcond 0 a b = true ↔ ¬ FUnordered a b ∧ FEqual a b) ∧ (fcond 1 a b = true ↔ FUnordered a b ∨ ¬ FEqual a b) ∧
    (fcond 2 a b = true ↔ ¬ FUnordered a b ∧ FLess a b) ∧
    (fcond 3 a b = true ↔ ¬ FUnordered a b ∧ (FLess a b ∨ FEqual a b)) ∧
    (fcond 4 a b = true ↔ ¬ FUnordered a b ∧ ¬ (FLess a b ∨ FEqual a b)) ∧
    (fcond 5 a b = true ↔ ¬ FUnordered a b ∧ ¬ FLess a b) ∧
    (fcond 6 a b = true ↔ FUnordered a b) ∧ (fcond 7 a b = true ↔ ¬ FUnordered a b) := by
  have hnot (p : Bool) : (!p) = true ↔ ¬ p = true := by simp
  simp only [fcond, Bool.and_eq_true, Bool.or_eq_true, hnot, beq_iff_eq, FUnordered, FZeros, FEqual, FLess, and_self]

end Sys2Proof.Machine
end

section
/-! SUPPORT. The special functions at the inputs of the manual's table (R142). -/

namespace Sys2Proof.Machine

/-! ## Rounded results -/

@[simp] theorem roundFp32_nan (s : Bool) : roundFp32 (.nan s) = 0x7FC00000 := rfl

@[simp] theorem roundFp32_inf (s : Bool) : roundFp32 (.inf s) = if s then 0xFF800000 else 0x7F800000 := by cases s <;> rfl

@[simp] theorem roundFp32_zero (s : Bool) : roundFp32 (.zero s) = if s then 0x80000000 else 0x00000000 := by cases s <;> rfl

@[simp] theorem roundFp32_one : roundFp32 (.real 1) = 0x3F800000 := by decide +kernel

@[simp] theorem roundFp32_two : roundFp32 (.real 2) = 0x40000000 := by decide +kernel

/-! ## Inputs -/

@[simp] theorem fp32_posZero : fp32 0x00000000#32 = .zero false := fp32_eq rfl rfl rfl

@[simp] theorem fp32_negZero : fp32 0x80000000#32 = .zero true := fp32_eq rfl rfl rfl

@[simp] theorem fp32_posInf : fp32 0x7F800000#32 = .inf false := fp32_eq rfl rfl rfl

@[simp] theorem fp32_negInf : fp32 0xFF800000#32 = .inf true := fp32_eq rfl rfl rfl

@[simp] theorem fp32_nan : fp32 0x7FC00000#32 = .nan false := fp32_eq rfl rfl rfl

@[simp] theorem fp32_one : fp32 0x3F800000#32 = .real 1 := by decide +kernel

/-! ## The functions at 1 -/

@[simp] theorem rcpExt_one : rcpExt (.real 1) = .real 1 := by norm_num [rcpExt]

theorem sqrtNear_one : sqrtNear 1 = 1 := by decide +kernel

@[simp] theorem rsqExt_one : rsqExt (.real 1) = .real 1 := by norm_num [rsqExt, sqrtNear_one]

@[simp] theorem sqrtExt_one : sqrtExt (.real 1) = .real 1 := by norm_num [sqrtExt, sqrtNear_one]

@[simp] theorem exp2Ext_one : exp2Ext (.real 1) = .real 2 := by
  have hnear : exp2Near 1 = 2 := by decide +kernel
  norm_num [exp2Ext, hnear]

@[simp] theorem log2Ext_one : log2Ext (.real 1) = .zero false := by
  have hnear : log2Near 1 = 0 := by decide +kernel
  norm_num [log2Ext, hnear, Ext.ofRat]

end Sys2Proof.Machine
end

section
/-! SUPPORT. Lane floating point, settled. -/

namespace Sys2Proof.Machine

/-- Settles O31: arithmetic by the one rounding of its exact value, selections, classes and comparisons by the values of
FP32 words, the table row by row. -/
theorem laneFloat : Obligations.LaneFloat := by
  unfold Obligations.LaneFloat
  refine ⟨fun s h d a b c rm p => ⟨fun e he hfit => ?_, ?_, fun e he => ?_⟩, ?_⟩
  · have hexec : exec e.1 s = s.floatOp h d e.2.1 rm e.2.2 := by
      simp only [List.mem_cons, List.not_mem_nil, or_false] at he
      rcases he with rfl | rfl | rfl | rfl <;> rfl
    obtain ⟨t, ht, hres⟩ := State.floatOp_rounds hfit rm e.2.2
    exact ⟨t, hexec.trans ht, hres⟩
  · simp only [List.forall_mem_cons, List.not_mem_nil, false_implies, implies_true, and_true]
    refine ⟨.congr (.of_exec (f := fun _ v => fpick false (v 0) (v 1)) rfl) fun _ v => ?_,
      .congr (.of_exec (f := fun _ v => fpick true (v 0) (v 1)) rfl) fun _ v => ?_,
      .congr (.of_exec (f := fun _ v => fclass (v 0)) rfl) fun _ v => ?_,
      .of_exec rfl, .of_exec rfl, .of_exec rfl, .of_exec rfl, .of_exec rfl⟩
    · simp [fpick, nanWord]
    · simp [fpick, nanWord]
    · simpa only [decide_eq_true_eq] using fclass_eq (e := (v 0).toNat / 2 ^ 23 % 256) (f := (v 0).toNat % 2 ^ 23)
        (bit_word_sign (v 0)) (bits_eq_div_mod _ 23 8) rfl
  · refine .of_exec (f := fun _ v => fcond e.1.toNat (v 0) (v 1)) rfl fun _ v => ?_
    obtain ⟨heq, hne, hlt, hle, hgt, hge, hun, hord⟩ := fcond_iff (v 0) (v 1)
    simp only [List.mem_cons, List.not_mem_nil, or_false] at he
    rcases he with rfl | rfl | rfl | rfl | rfl | rfl | rfl | rfl
    exacts [heq, hne, hlt, hle, hgt, hge, hun, hord]
  · simp only [List.forall_mem_cons, List.not_mem_nil, false_implies, implies_true, and_true]
    refine ⟨?posZero, ?negZero, ?posInf, ?negInf, ?nan, ?one⟩
    case one => simp [special]
    all_goals simp [special, rcpExt, rsqExt, sqrtExt, exp2Ext, log2Ext]

end Sys2Proof.Machine
end

section
/-! SUPPORT. Accesses of lanes and of the shuttle engine across the first MiB of a window that is wider (R145, R149, R159,
R339). -/

namespace Sys2Proof.Machine

/-! ## What spills into the scratch of the next team -/

/-- The first byte of team 2's scratch after an instruction or event. -/
def spilled (o : Out) : Byte :=
  match o with
  | .next t => rdByte (t.teamAt 2).scratch 0
  | _ => 0

/-- Nothing spills where the scratch of team 2 stays as it was. -/
theorem spilled_of_kept {i : Instr} {s u t : State} (he : exec i s = .next t)
    (hkept : (t.teamAt 2).scratch = (u.teamAt 2).scratch) : spilled (exec i s) = rdByte (u.teamAt 2).scratch 0 := by
  rw [he, spilled, hkept]

/-! ## VSTS -/

theorem spilled_crossingStore : spilled (exec crossingStore wideWindow) = 1 := by decide +kernel

/-- Refutes O34: nothing bounds the window of the statement's record by 1 MiB, and an aligned 8-byte VSTS at 1 MiB − 4 is in
range but writes its second word into the scratch of the next team, which the statement says to stay. -/
theorem not_laneStores : ¬ Obligations.LaneStores := by
  intro h
  obtain ⟨-, hstore⟩ := h wideWindow underP1 (plainSrc 6) (plainSrc 4) 0 0 0 3 (by decide) (by decide +kernel)
  obtain ⟨t, he, ⟨-, -, -, -, -, -, hteams, -⟩, -⟩ := hstore (by decide +kernel) fun i hi => by
    obtain rfl : i = 0 := List.mem_singleton.mp (wideWindow_lane ▸ hi)
    exact ⟨⟨fun _ => by decide +kernel, fun h => absurd rfl h⟩, by decide +kernel⟩
  have hspill := (spilled_of_kept he (hteams 2 (by decide +kernel))).symm.trans spilled_crossingStore
  exact absurd hspill (by decide +kernel)

/-! ## VLDS -/

/-- The wide window where the scratch of team 2 begins with a byte that is not 0. -/
def farByte : State := { wideWindow with teams := tput {} wideWindow.teams 2 { scratch := [(0, 7)] } }

/-- VLDS of the pair v8, v9 at v6. -/
def crossingLoad : Instr := .vlds underP1 8 (plainSrc 6) 0 0 0 3

theorem farByte_lane : lanesOf (farByte.lanesActive 1 0) = [0] := by decide +kernel

/-- The second word of the load comes from the scratch of team 2. -/
theorem crossingLoad_strays : (match exec crossingLoad farByte with
    | .next t => t.pick.pending.all (fun r => r.dest != .vreg 9 || tget 0 r.vals 0 == 7)
    | _ => false) = true := by decide +kernel

/-- Refutes O33: an aligned 8-byte VLDS at 1 MiB − 4 is in range of a wide window, and its second register takes a word of the
next team's scratch, where that of its own team holds 0. -/
theorem not_laneLoads : ¬ Obligations.LaneLoads := by
  intro h
  obtain ⟨-, hload⟩ := h farByte underP1 8 (plainSrc 6) 0 0 0 3 0 0 0 0 (fun _ => []) (fun _ => 0) (by decide) (by decide)
    (by decide +kernel)
  obtain ⟨t, he, -, -, -, -, -, -, hval⟩ := hload (by decide +kernel) (by decide +kernel) fun i hi => by
    obtain rfl : i = 0 := List.mem_singleton.mp (farByte_lane ▸ hi)
    exact ⟨⟨fun _ => by decide +kernel, fun h => absurd rfl h⟩, by decide +kernel⟩
  obtain ⟨val, ⟨new, ⟨old, hpend, -⟩, -, hnew⟩, hsettled⟩ := hval (by decide +kernel) (by decide)
  obtain ⟨r, hr, hdest, -, -, -, -, hrval⟩ := hnew 1 (by decide)
  have hlane : 0 ∈ lanesOf (farByte.lanesActive 1 0) := farByte_lane ▸ List.mem_singleton_self 0
  have hzero : tget 0 r.vals 0 = 0 := by
    rw [hrval 0 hlane, hsettled (Tests.lanesSettled_of_nil (by decide +kernel) (by decide +kernel) 0) 1 0 hlane]
    decide +kernel
  have hstray := crossingLoad_strays
  rw [show exec crossingLoad farByte = .next t from he] at hstray
  have hseven := List.all_eq_true.mp hstray r (by simp [hpend, List.mem_of_getElem? hr])
  rw [hzero, hdest] at hseven
  exact absurd hseven (by decide)

/-! ## VST -/

/-- A buffer record of 24-bit elements in scratch, the first of them 4 bytes below 1 MiB. -/
def crossingRecord : Nat := 0xFFFFC + 8 * 2 ^ 56 + 2 ^ 96 + 6 * 2 ^ 102 + 2 ^ 269

/-- The wide window with that record in a table of one at 0x300000. -/
def crossingBuffer : State :=
  let s := wideWindow.setTeam { wideWindow.team with lr := wideWindow.team.lr + 0x300000 * 2 ^ 640 }
  { s with mem := wrNat s.mem 0x300000 40 crossingRecord }

theorem crossingBuffer_lane : lanesOf (crossingBuffer.lanesActive 1 0) = [0] := by decide +kernel

/-- VST of v6 at the index of v4. -/
theorem spilled_crossingBuffer :
    spilled (exec (.vst underP1 (plainSrc 4) (plainSrc 6) 0 0 0) crossingBuffer) = 0xFF := by decide +kernel

/-- Refutes O35: element 1 of the record has one byte below 1 MiB and two above; a wide window has them in range, and VST writes
those two into the scratch of the next team, which the statement says to stay. -/
theorem not_bufferAccess : ¬ Obligations.BufferAccess := by
  intro h
  obtain ⟨-, -, -, -, hstore⟩ := h crossingBuffer underP1 0 (plainSrc 4) (plainSrc 6) 0 0 0 0 0 0 0
    (List.range' 0x300000 40) 1
  obtain ⟨t, he, -, -, -, -, -, -, hteams, -⟩ := hstore (by decide +kernel) (.inl rfl) (by decide +kernel)
    ⟨by decide +kernel, Tests.ok_of_toOption (by decide +kernel), by decide +kernel, by decide +kernel⟩ fun i hi => by
      obtain rfl : i = 0 := List.mem_singleton.mp (crossingBuffer_lane ▸ hi)
      refine ⟨by decide +kernel, fun q hq => ?_⟩
      obtain rfl : q = ⟨false, 0xFFFFF, 3⟩ := by
        refine List.mem_singleton.mp ((?_ : _ = [_]) ▸ hq)
        decide +kernel
      exact ⟨by decide +kernel, fun h => absurd h (by decide), by decide +kernel⟩
  have hspill := (spilled_of_kept he (hteams 2 (by decide +kernel))).symm.trans spilled_crossingBuffer
  exact absurd hspill (by decide +kernel)

/-! ## SH.COPY -/

/-- SH.COPY of two words in scratch, from 0 to 4 bytes below 1 MiB, in execution. -/
def crossingCopy : Op :=
  { pick := 64, func := 0x00, path := 2, batch := 1, phase := .running,
    desc := 2 ^ 56 + 0xFFFFC * 2 ^ 64 + 2 ^ 120 + 8 * 2 ^ 128 }

/-- The wide window with that operation, the second word of its source not 0. -/
def copying : State :=
  { wideWindow.setTeam { wideWindow.team with scratch := [(4, 7)] } with ops := [(1, crossingCopy)] }

theorem spilled_crossingCopy : spilled (exec (.pathOperationComplete 1) copying) = 7 := by decide +kernel

/-- Refutes O42: an SH.COPY to scratch at 1 MiB − 4 passes its checks in a wide window, and its second word lands in the scratch
of the next team, which the statement says to stay. -/
theorem not_engineOperations : ¬ Obligations.EngineOperations := by
  intro h
  obtain ⟨-, -, -, hfree, -⟩ := h.1 copying 1 crossingCopy (by decide +kernel)
  obtain ⟨-, -, hplans⟩ := hfree ⟨rfl, rfl, rfl, by decide +kernel, by decide +kernel⟩
  obtain ⟨p, hp, hbad⟩ := Tests.ok_of_any
    (show (({ copying with cur := 64 } : State).opPlan crossingCopy).toOption.any (fun p => p.bad.isNone) = true by
      decide +kernel)
  obtain ⟨hcopy, -⟩ := hplans p id id rfl hp (Option.isNone_iff_eq_none.mp hbad)
  obtain ⟨t, he, -, -, hteams, -⟩ := hcopy rfl rfl (by decide +kernel) (by decide +kernel)
    (.inr (.inl (by decide +kernel))) (fun h => absurd h (by decide +kernel)) (fun h => absurd h (by decide +kernel))
  have hspill := (spilled_of_kept he (hteams 2 (by decide +kernel))).symm.trans spilled_crossingCopy
  exact absurd hspill (by decide +kernel)

end Sys2Proof.Machine
end

section
/-! SUPPORT. PCLOSE and PWAIT: a batch that closes, pending causes that trap, and the retired batches covered (R165 to R168, R252,
R253). -/

namespace Sys2Proof.Machine

/-! ## PCLOSE -/

theorem exec_pclose_stalls {s : State} {p : BitVec 3} (h : 63 ≤ (s.pick.path p.toNat).counter) :
    exec (.pclose p) s = .next s := if_pos h

theorem exec_pclose_closes {s : State} {p : BitVec 3} (h : (s.pick.path p.toNat).counter < 63) :
    exec (.pclose p) s = .next (s.setPick (s.pick.pclose p.toNat)).advance := if_neg (by omega)

theorem Pick.pclose_path (p : Pick) (k n : Nat) : (p.pclose k).path n = if n = k then (p.path k).pclosed else p.path n :=
  Pick.setPath_path p k _ n

/-- PCLOSE below the bound of the counter: the open batch closes, and what can retire retires (R165, R166). -/
theorem pclose_closes {s : State} {p : BitVec 3} (h : (s.pick.path p.toNat).counter < 63) :
    Completes (.pclose p) s fun t => PickStep s t (fun p q => { q with paths := p.paths }) ∧
      ((t.pick.path p.toNat).opened = { num := (s.pick.path p.toNat).opened.num + 1 } ∧
        Retires (s.pick.path p.toNat) (t.pick.path p.toNat)
          ((s.pick.path p.toNat).closed ++ [(s.pick.path p.toNat).opened])) ∧
      ∀ n, n ≠ p.toNat → t.pick.path n = s.pick.path n := by
  obtain ⟨ps, hps⟩ : ∃ ps, s.pick.pclose p.toNat = { s.pick with paths := ps } := ⟨_, rfl⟩
  refine ⟨_, exec_pclose_closes h, by rw [hps]; exact State.setPick_advance_pickStep rfl rfl rfl, ?_⟩
  have hpath (n : Nat) : (s.setPick (s.pick.pclose p.toNat)).advance.pick.path n =
      if n = p.toNat then (s.pick.path p.toNat).pclosed else s.pick.path n := by
    rw [State.setPick_advance_pick]
    exact s.pick.pclose_path _ n
  refine ⟨?_, fun n hn => by rw [hpath, if_neg hn]⟩
  rw [hpath, if_pos rfl]
  exact (s.pick.path p.toNat).pclosed_retires

/-! ## Pending causes -/

/-- Results delivered append the causes of what they let retire to those pending (R168). -/
theorem Pick.finish_appends (p : Pick) (q : Pending) (n : Nat) :
    ∃ l, ((p.finish q).path n).causes = (p.path n).causes ++ l := by
  unfold Pick.finish
  split
  · have hpath : (Pick.opLeave (p.deliver q) q.path q.batch none).path n = if n = q.path then
        ((p.path n).onBatch q.batch (fun b => { b with ops := b.ops - 1 })).settle else p.path n := by
      rw [Pick.opLeave_path, Pick.deliver_path]
    by_cases hn : n = q.path
    · rw [if_pos hn] at hpath
      obtain ⟨l1, l2, -, -, -, -, hcauses, -⟩ := PathState.retireFrom_retires _
        ((p.path n).onBatch q.batch (fun b => { b with ops := b.ops - 1 }))
      refine ⟨_, (congrArg PathState.causes hpath).trans (hcauses.trans (congrArg (· ++ _) ?_))⟩
      unfold PathState.onBatch
      split <;> rfl
    · rw [if_neg hn] at hpath
      exact ⟨[], (congrArg PathState.causes hpath).trans (List.append_nil _).symm⟩
  · exact ⟨[], by rw [Pick.deliver_path, List.append_nil]⟩

theorem Pick.foldl_finish_appends (qs : List Pending) (p : Pick) (n : Nat) :
    ∃ l, ((qs.foldl Pick.finish p).path n).causes = (p.path n).causes ++ l := by
  induction qs generalizing p with
  | nil => exact ⟨[], (List.append_nil _).symm⟩
  | cons q qs ih =>
    obtain ⟨l1, h1⟩ := p.finish_appends q n
    obtain ⟨l2, h2⟩ := ih (p.finish q)
    exact ⟨l1 ++ l2, by rw [List.foldl_cons, h2, h1, List.append_assoc]⟩

/-- A trap of the S-stream finds the causes pending, and those of what its drain lets retire behind them (R168, R422). -/
theorem State.trapS_appends {s : State} (ht : s.takesTraps) (c : Cause) (v : BitVec 64) : ∃ t, s.trapS c v = .next t ∧
    TookTrap s t c v 0 true s.pick.spc ∧ t.mem = s.mem ∧ ∀ n, ∃ l, (t.pick.path n).causes = (s.pick.path n).causes ++ l := by
  obtain ⟨t, he, htook, hmem, -⟩ := State.trapS_tookTrap ht c v
  refine ⟨t, he, htook, hmem, fun n => ?_⟩
  rw [State.trapS, ht.takeTrap_eq rfl] at he
  rw [← Host.Outcome.next.inj he, State.enterTrap_path _ rfl]
  split <;> exact Pick.foldl_finish_appends _ _ n

theorem State.trapCause_first {s : State} {n k : Nat} {c : Cause} {v : BitVec 64} {cs : List (Nat × Cause × BitVec 64)}
    (h : (s.pick.path n).causes = (k, c, v) :: cs) :
    s.trapCause n = some ((s.setPick (s.pick.dropCause n)).trapS c v) := by
  simp [State.trapCause, Pick.dropCause, h]

/-! ## The retired batches covered -/

/-- The path without what acquires of its retired batches brought (R179). -/
def PathState.dropAcquired (x : PathState) : PathState :=
  { x with acq := x.acq.filter (fun e => decide (x.retired < e.1)) }

/-- The team without the in-flight marks of a pick's batches of a path up to one (R150). -/
def Team.dropMarks (m : Team) (pick path retired : Nat) : Team :=
  { m with inflight := m.inflight.filter (fun e => !(e.pick == pick && e.path == path && decide (e.batch ≤ retired))) }

def State.dropAcquired (s : State) (n : Nat) : State :=
  if (s.pick.path n).acq.isEmpty then s else s.setPick (s.pick.setPath n (s.pick.path n).dropAcquired)

def State.dropMarks (s : State) (n retired : Nat) : State :=
  if s.team.inflight.isEmpty then s else s.setTeam (s.team.dropMarks s.cur n retired)

theorem State.dropAcquired_moves (s : State) (n : Nat) : PickMoves s (s.dropAcquired n) ∧
    { (s.dropAcquired n).pick with paths := s.pick.paths } = s.pick ∧
    ∀ k, (s.dropAcquired n).pick.path k = if k = n then (s.pick.path k).dropAcquired else s.pick.path k := by
  unfold State.dropAcquired
  split
  · next h =>
    refine ⟨⟨rfl, fun _ _ => rfl⟩, rfl, fun k => ?_⟩
    split
    · next hk =>
      rw [List.isEmpty_iff] at h
      rw [hk, PathState.dropAcquired, h, List.filter_nil, ← h]
    · rfl
  · refine ⟨s.setPick_moves _, by rw [State.setPick_pick]; rfl, fun k => ?_⟩
    rw [State.setPick_pick, Pick.setPath_path]
    split
    · next hk => rw [hk]
    · rfl

theorem State.dropMarks_team (s : State) (n retired : Nat) : { s.dropMarks n retired with teams := s.teams } = s ∧
    ∀ k, (s.dropMarks n retired).teamAt k =
      if k = s.pick.team then (s.teamAt k).dropMarks s.cur n retired else s.teamAt k := by
  unfold State.dropMarks
  split
  · next h =>
    refine ⟨rfl, fun k => ?_⟩
    split
    · next hk =>
      rw [List.isEmpty_iff] at h
      have hnil : (s.teamAt k).inflight = [] := hk ▸ h
      rw [Team.dropMarks, hnil, List.filter_nil, ← hnil]
    · rfl
  · refine ⟨rfl, fun k => ?_⟩
    split
    · next hk =>
      rw [hk]
      exact State.setTeamAt_teamAt_self _ _ _
    · next hk => exact (State.setTeamAt_teamAt _ _ _ _).trans (if_neg hk)

/-- Covering is learning what the retired batches made and acquired, with both kinds of notes dropped. -/
theorem State.coverBatches_eq (s : State) (n : Nat) : ∃ l, SameLog s { s with wlog := l } ∧
    s.coverBatches n = State.dropMarks { s.dropAcquired n with wlog := l } n (s.pick.path n).retired := by
  let ids := (s.wlog.filter (fun r => r.pick == s.cur && r.path == n && decide (r.batch ≤ (s.pick.path n).retired))).map (·.id) ++
    ((s.pick.path n).acq.filter (fun e => decide (e.1 ≤ (s.pick.path n).retired))).flatMap (·.2)
  obtain ⟨l, hl, hlog⟩ := (s.dropAcquired n).learn_eq (scalarKey s.cur) ids
  obtain ⟨⟨hown, -⟩, -⟩ := s.dropAcquired_moves n
  have hcur : ((s.dropAcquired n).learn (scalarKey s.cur) ids).cur = s.cur := by
    rw [hl]
    exact (congrArg State.cur hown :)
  have he : s.coverBatches n = State.dropMarks ((s.dropAcquired n).learn (scalarKey s.cur) ids) n (s.pick.path n).retired := by
    unfold State.dropMarks
    rw [hcur]
    rfl
  refine ⟨l, ?_, he.trans (by rw [hl])⟩
  have hwlog : (s.dropAcquired n).wlog = s.wlog := (congrArg State.wlog hown :)
  rw [SameLog, hwlog] at hlog
  exact hlog

/-! ## PWAIT -/

section
variable {s : State} {a : BitVec 6} {p : BitVec 3}

theorem exec_pwait (hr : s.regsReady [a] [] = true) : exec (.pwait a p) s =
    if (s.pick.w a).toNat < (s.pick.path p.toNat).counter then .next s
    else (s.trapCause p.toNat).getD (.next (s.coverBatches p.toNat).advance) := by
  have he : exec (.pwait a p) s = execPwait a p s := rfl
  rw [he, execPwait, State.withOperands_ready hr, State.readS_ready hr (by simp)]
  split
  · rfl
  · cases s.trapCause p.toNat <;> rfl

/-- PWAIT with a pending cause traps with the oldest one and clears it (R168, R253). -/
theorem pwait_traps (hr : s.regsReady [a] [] = true) (hc : (s.pick.path p.toNat).counter ≤ (s.pick.w a).toNat) {n : Nat}
    {c : Cause} {v : BitVec 64} {cs : List (Nat × Cause × BitVec 64)} (hcs : (s.pick.path p.toNat).causes = (n, c, v) :: cs)
    (ht : s.takesTraps) : Completes (.pwait a p) s fun t => TookTrap s t c v 0 true s.pick.spc ∧
      (∃ l, (t.pick.path p.toNat).causes = cs ++ l) ∧ t.mem = s.mem := by
  obtain ⟨ps, hps⟩ : ∃ ps, s.pick.dropCause p.toNat = { s.pick with paths := ps } := ⟨_, rfl⟩
  generalize hw : s.setPick (s.pick.dropCause p.toNat) = w
  have hpick : w.pick = s.pick.dropCause p.toNat := by rw [← hw, State.setPick_pick]
  have hctx : w.ctx = s.ctx := by
    rw [State.ctx, State.team, hpick, hps, ← hw]
    rfl
  have htakes : w.takesTraps := by
    unfold State.takesTraps
    rw [hpick, hps]
    exact ht
  obtain ⟨t, he, htook, hmem, hcauses⟩ := State.trapS_appends htakes c v
  refine ⟨t, ?_, ?_, ?_, hmem.trans (by rw [← hw, State.setPick_mem])⟩
  · rw [exec_pwait hr, if_neg (by omega), State.trapCause_first hcs, hw]
    exact he
  · have := htook.of_saved hctx (by rw [hpick, hps]; rfl)
    rwa [hpick, show (s.pick.dropCause p.toNat).spc = s.pick.spc by rw [hps]] at this
  · obtain ⟨l, hl⟩ := hcauses p.toNat
    refine ⟨l, hl.trans ?_⟩
    rw [hpick, Pick.dropCause_path, if_pos rfl, hcs]
    rfl

/-- PWAIT with no cause pending covers the retired batches and goes on (R150, R167, R179, R253). -/
theorem exec_pwait_covers (hr : s.regsReady [a] [] = true) (hc : (s.pick.path p.toNat).counter ≤ (s.pick.w a).toNat)
    (hcs : (s.pick.path p.toNat).causes = []) : ∃ u v : State, exec (.pwait a p) s = .next v.advance ∧
      (PickMoves s u ∧ { u.pick with paths := s.pick.paths } = s.pick ∧
        ∀ k, u.pick.path k = if k = p.toNat then (s.pick.path k).dropAcquired else s.pick.path k) ∧
      { v with wlog := s.wlog, teams := s.teams } = u ∧ SameLog s v ∧
      ∀ k, v.teamAt k = if k = s.pick.team then
        (s.teamAt k).dropMarks s.cur p.toNat (s.pick.path p.toNat).retired else s.teamAt k := by
  obtain ⟨l, hlog, he⟩ := s.coverBatches_eq p.toNat
  have hmoves := s.dropAcquired_moves p.toNat
  obtain ⟨⟨hown, -⟩, hpick, -⟩ := hmoves
  generalize hu : s.dropAcquired p.toNat = u at he hown hpick
  obtain ⟨hteams, hteam⟩ := State.dropMarks_team { u with wlog := l } p.toNat (s.pick.path p.toNat).retired
  rw [← he] at hteams hteam
  have huteams : u.teams = s.teams := (congrArg State.teams hown :)
  have hucur : u.cur = s.cur := (congrArg State.cur hown :)
  have huwlog : u.wlog = s.wlog := (congrArg State.wlog hown :)
  have huteam : u.pick.team = s.pick.team := (congrArg Pick.team hpick :)
  refine ⟨u, s.coverBatches p.toNat, ?_, hu ▸ s.dropAcquired_moves p.toNat, ?_, ?_, fun k => ?_⟩
  · rw [exec_pwait hr, if_neg (by omega), State.trapCause_none hcs]
    rfl
  · have h := congrArg (fun x : State => { x with wlog := s.wlog, teams := s.teams }) hteams
    refine h.trans ?_
    rw [← huwlog, ← huteams]
  · have h : (s.coverBatches p.toNat).wlog = l := (congrArg State.wlog hteams :)
    rw [SameLog, h]
    exact hlog
  · have hat (j : Nat) : ({ u with wlog := l } : State).teamAt j = s.teamAt j := by
      rw [State.teamAt, State.teamAt]
      exact congrArg (tget _ · j) huteams
    rw [hteam, hat]
    exact if_congr (by rw [← huteam]; rfl) (by rw [← hucur]) rfl

/-- What a PWAIT that covers leaves: the pick goes on, with what the batches released gone from the path and their marks from
the team. -/
theorem pwait_covers (hr : s.regsReady [a] [] = true) (hc : (s.pick.path p.toNat).counter ≤ (s.pick.w a).toNat)
    (hcs : (s.pick.path p.toNat).causes = []) : Completes (.pwait a p) s fun t =>
      { t with picks := s.picks, dies := s.dies, wlog := s.wlog, teams := s.teams } = s ∧ SameLog s t ∧
      (∀ k, k ≠ s.cur → t.pickAt k = s.pickAt k) ∧ t.pick.spc = s.nextPc ∧
      { t.pick with spc := s.pick.spc, bkExempt := s.pick.bkExempt, lastS := s.pick.lastS, paths := s.pick.paths } = s.pick ∧
      (∀ n, { t.pick.path n with acq := (s.pick.path n).acq } = s.pick.path n ∧
        ∀ y, y ∈ (t.pick.path n).acq ↔
          y ∈ (s.pick.path n).acq ∧ ¬ (n = p.toNat ∧ y.1 ≤ (s.pick.path n).retired)) ∧
      (∀ k, { t.teamAt k with inflight := (s.teamAt k).inflight } = s.teamAt k) ∧
      (∀ k, k ≠ s.pick.team → (t.teamAt k).inflight = (s.teamAt k).inflight) ∧
      ∀ x, x ∈ t.team.inflight ↔ x ∈ s.team.inflight ∧
        ¬ (x.pick = s.cur ∧ x.path = p.toNat ∧ x.batch ≤ (s.pick.path p.toNat).retired) := by
  obtain ⟨u, v, he, ⟨⟨hown, hother⟩, hpick, hpath⟩, hrest, hlog, hteam⟩ := exec_pwait_covers hr hc hcs
  have hvu : v.pick = u.pick := by
    rw [← hrest]
    rfl
  have hvteam : v.pick.team = s.pick.team := hvu ▸ (congrArg Pick.team hpick :)
  have hvspc : v.pick.spc = s.pick.spc := hvu ▸ (congrArg Pick.spc hpick :)
  obtain ⟨⟨hstep, hsame⟩, hgone⟩ := v.advance_onlyPick
  have hadvteam (k : Nat) : v.advance.teamAt k = v.teamAt k := rfl
  have hcur : v.cur = s.cur := by
    have h1 : v.cur = u.cur := (congrArg State.cur hrest :)
    exact h1.trans (congrArg State.cur hown :)
  have hgpath (n : Nat) : v.advance.pick.path n =
      if n = p.toNat then (s.pick.path n).dropAcquired else s.pick.path n := by
    rw [hgone, ← hpath n, ← hvu]
    rfl
  refine ⟨_, he, ?own, hlog, fun k hk => ?others, ?spc, ?pick, fun n => ⟨?path, fun y => ?acq⟩, fun k => ?team,
    fun k hk => ?marks, fun x => ?own_marks⟩
  case own =>
    have h1 := congrArg (fun x : State => { x with picks := s.picks, dies := s.dies, wlog := s.wlog, teams := s.teams }) hstep
    have h2 := congrArg (fun x : State => { x with picks := s.picks, dies := s.dies }) hrest
    have h3 := congrArg (fun x : State => { x with dies := s.dies }) hown
    exact h1.trans (h2.trans h3)
  case others =>
    rw [hsame k (hcur ▸ hk), ← hother k hk, ← hrest]
    rfl
  case spc =>
    rw [hgone, State.nextPc, ← hvspc]
    apply BitVec.eq_of_toNat_eq
    simp [Pick.goneOn]
  case pick =>
    rw [hgone, hvu]
    exact (congrArg (fun q : Pick => { q with spc := s.pick.spc, bkExempt := s.pick.bkExempt, lastS := s.pick.lastS }) hpick :)
  case path =>
    rw [hgpath]
    split <;> rfl
  case acq =>
    rw [hgpath]
    by_cases hn : n = p.toNat <;> simp [hn, PathState.dropAcquired]
  case team =>
    rw [hadvteam, hteam]
    split <;> rfl
  case marks => rw [hadvteam, hteam, if_neg hk]
  case own_marks =>
    have ht : v.advance.team = (s.team).dropMarks s.cur p.toNat (s.pick.path p.toNat).retired := by
      rw [State.team, hgone, hadvteam, hteam, show (v.pick.goneOn v.fresh).team = s.pick.team from hvteam, if_pos rfl]
      rfl
    simp only [ht, Team.dropMarks, List.mem_filter, Bool.not_eq_true', ← Bool.not_eq_true, Bool.and_eq_true, beq_iff_eq,
      decide_eq_true_eq, and_assoc]

end

/-- Settles O8: PCLOSE by the path that it closes, PWAIT by its counter, by its oldest cause, and by what covering drops. -/
theorem pathBatches : Obligations.PathBatches := fun _ _ =>
  ⟨exec_pclose_stalls, pclose_closes, fun _ hr => ⟨fun hlt => by rw [exec_pwait hr, if_pos hlt], fun hc =>
    ⟨pwait_covers hr hc, fun _ _ _ _ hcs ht => pwait_traps hr hc hcs ht⟩⟩⟩

end Sys2Proof.Machine
end

section
/-! SUPPORT. Words of scratch: what a location names, the words that a run of bytes makes up, and what a write of their bits
leaves (R145, R151, R174). -/

namespace Sys2Proof.Machine

/-! ## Bytes of a word -/

/-- Byte k of a word. -/
def byteAt (w : Word) (k : Nat) : Byte := (w >>> (8 * k)).setWidth 8

theorem byteAt_getLsbD (w : Word) (k : Nat) {i : Nat} (hi : i < 8) : (byteAt w k).getLsbD i = w.getLsbD (8 * k + i) := by
  simp [byteAt, hi]

theorem byteAt_and (x y : Word) (k : Nat) : byteAt (x &&& y) k = byteAt x k &&& byteAt y k := by
  apply BitVec.eq_of_getLsbD_eq
  intro i hi
  simp [byteAt_getLsbD _ _ hi]

theorem byteAt_or (x y : Word) (k : Nat) : byteAt (x ||| y) k = byteAt x k ||| byteAt y k := by
  apply BitVec.eq_of_getLsbD_eq
  intro i hi
  simp [byteAt_getLsbD _ _ hi]

theorem byteAt_not (x : Word) {k : Nat} (hk : k < 4) : byteAt (~~~x) k = ~~~byteAt x k := by
  apply BitVec.eq_of_getLsbD_eq
  intro i hi
  rw [byteAt_getLsbD _ _ hi, BitVec.getLsbD_not, BitVec.getLsbD_not, byteAt_getLsbD _ _ hi, decide_eq_true hi,
    decide_eq_true (show 8 * k + i < 32 by omega)]

theorem byteAt_mix (x m v : Word) {k : Nat} (hk : k < 4) :
    byteAt (mix x m v) k = (byteAt x k &&& ~~~byteAt m k) ||| (byteAt v k &&& byteAt m k) := by
  rw [mix, byteAt_or, byteAt_and, byteAt_and, byteAt_not _ hk]

theorem byte_and_ones (v : Byte) : v &&& 255#8 = v := BitVec.and_allOnes

/-- A byte put in its place of a word. -/
theorem byteAt_shift (v : Byte) {k j : Nat} (hk : k < 4) (hj : j < 4) :
    byteAt (v.setWidth 32 <<< (8 * k)) j = if j = k then v else 0 := by
  apply BitVec.eq_of_getLsbD_eq
  intro i hi
  rw [byteAt_getLsbD _ _ hi, BitVec.getLsbD_shiftLeft, BitVec.getLsbD_setWidth]
  split
  · next h =>
    subst h
    simp [show 8 * j + i < 32 by omega, show 8 * j + i - 8 * j = i by omega, show i < 32 by omega]
  · next h =>
    by_cases hlt : j < k
    · simp [show 8 * j + i < 8 * k by omega]
    · simp [BitVec.getLsbD_of_ge v (8 * j + i - 8 * k) (by omega)]

/-! ## Runs of bytes -/

/-- The bytes of a run in the word at a location, from place k on. -/
def runIn (l k : Nat) : List Byte → List (Nat × Nat × Byte × Byte)
  | [] => []
  | v :: vs => (l, k, 0xFF, v) :: runIn l (k + 1) vs

/-- Bytes of a word, from place k on, that a run has put. -/
def IsRun (k : Nat) (vs : List Byte) (m v : Word) : Prop :=
  ∀ j < 4, byteAt m j = (if k ≤ j ∧ j < k + vs.length then 0xFF else 0) ∧
    ∀ x, k ≤ j → vs[j - k]? = some x → byteAt v j = x

theorem addBits_head (l : Nat) (m v : Word) (ws : List Bits) (k : Nat) (x : Byte) :
    addBits ((l, m, v) :: ws) (byteBits l k 0xFF x) =
      (l, m ||| (0xFF#8).setWidth 32 <<< (8 * k), mix v ((0xFF#8).setWidth 32 <<< (8 * k)) (x.setWidth 32 <<< (8 * k))) :: ws := by
  simp [addBits, byteBits]

/-- A run goes on by one byte. -/
theorem IsRun.snoc {k : Nat} {vs : List Byte} {m v : Word} (h : IsRun k vs m v) (x : Byte) (hk : k + vs.length < 4) :
    IsRun k (vs ++ [x]) (m ||| (0xFF#8).setWidth 32 <<< (8 * (k + vs.length)))
      (mix v ((0xFF#8).setWidth 32 <<< (8 * (k + vs.length))) (x.setWidth 32 <<< (8 * (k + vs.length)))) := by
  intro j hj
  obtain ⟨hm, hv⟩ := h j hj
  rw [byteAt_or, byteAt_mix _ _ _ hj, byteAt_shift _ hk hj, byteAt_shift _ hk hj, hm, List.length_append,
    List.length_singleton]
  by_cases e : j = k + vs.length
  · rw [if_pos e, if_pos e, if_neg (by omega), if_pos (by omega)]
    refine ⟨by decide, fun y _ hy => ?_⟩
    rw [List.getElem?_append_right (by omega), show j - k - vs.length = 0 by omega, List.getElem?_cons_zero] at hy
    rw [← Option.some.inj hy]
    simp [byte_and_ones]
  · rw [if_neg e, if_neg e]
    refine ⟨?_, fun y hkj hy => ?_⟩
    · by_cases hin : k ≤ j ∧ j < k + vs.length
      · rw [if_pos hin, if_pos (by omega)]
        decide
      · rw [if_neg hin, if_neg (by omega)]
        decide
    · have hlt : j - k < vs.length := by
        have := (List.getElem?_eq_some_iff.mp hy).1
        rw [List.length_append, List.length_singleton] at this
        omega
      rw [List.getElem?_append_left hlt] at hy
      rw [hv y hkj hy]
      simp [byte_and_ones]

theorem foldl_addBits_run (l k : Nat) (us vs : List Byte) {m v : Word} (h : IsRun k us m v)
    (hk : k + us.length + vs.length ≤ 4) : ∃ m' v', IsRun k (us ++ vs) m' v' ∧
      (runIn l (k + us.length) vs).foldl (fun ws e => addBits ws (byteBits e.1 e.2.1 e.2.2.1 e.2.2.2)) [(l, m, v)] =
        [(l, m', v')] := by
  induction vs generalizing us m v with
  | nil => exact ⟨m, v, by rwa [List.append_nil], rfl⟩
  | cons x vs ih =>
    rw [List.length_cons] at hk
    obtain ⟨m', v', hrun, he⟩ := ih (us ++ [x]) (h.snoc x (by omega)) (by rw [List.length_append, List.length_singleton]; omega)
    refine ⟨m', v', by rwa [List.append_assoc] at hrun, ?_⟩
    rw [List.length_append, List.length_singleton, ← Nat.add_assoc] at he
    rw [runIn, List.foldl_cons, addBits_head]
    exact he

/-- A run of bytes in one word makes up that word's bits. -/
theorem packBits_run (l k : Nat) {vs : List Byte} (hv : vs ≠ []) (hk : k + vs.length ≤ 4) :
    ∃ m v, IsRun k vs m v ∧ packBits (runIn l k vs) = [(l, m, v)] := by
  cases vs with
  | nil => exact absurd rfl hv
  | cons x vs =>
    rw [List.length_cons] at hk
    have hone : IsRun k [x] ((0xFF#8).setWidth 32 <<< (8 * k)) (x.setWidth 32 <<< (8 * k)) := by
      intro j hj
      rw [byteAt_shift _ (by omega) hj, byteAt_shift _ (by omega) hj]
      refine ⟨if_congr (by rw [List.length_singleton]; omega) rfl rfl, fun y hkj hy => ?_⟩
      have hlt : j - k < 1 := (List.getElem?_eq_some_iff.mp hy).1
      obtain rfl : j = k := by omega
      rw [if_pos rfl]
      simpa using hy
    exact foldl_addBits_run l k [x] vs hone (by rw [List.length_singleton]; omega)

theorem addBits_append {ws : List Bits} (us : List Bits) {b : Bits} (h : ∀ u ∈ us, u.1 ≠ b.1) :
    addBits (us ++ ws) b = us ++ addBits ws b := by
  induction us with
  | nil => rfl
  | cons u us ih =>
    obtain ⟨hu, hus⟩ := List.forall_mem_cons.mp h
    rw [List.cons_append, addBits, if_neg hu, ih hus]
    rfl

/-- Bytes of other words are packed beside. -/
theorem packBits_append {es fs : List (Nat × Nat × Byte × Byte)} (h : ∀ e ∈ es, ∀ f ∈ fs, e.1 ≠ f.1) :
    packBits (es ++ fs) = packBits es ++ packBits fs := by
  have hfold (gs : List (Nat × Nat × Byte × Byte)) (hg : ∀ g ∈ gs, g ∈ fs) (ws : List Bits) :
      gs.foldl (fun ws e => addBits ws (byteBits e.1 e.2.1 e.2.2.1 e.2.2.2)) (packBits es ++ ws) =
        packBits es ++ gs.foldl (fun ws e => addBits ws (byteBits e.1 e.2.1 e.2.2.1 e.2.2.2)) ws := by
    induction gs generalizing ws with
    | nil => rfl
    | cons g gs ih =>
      obtain ⟨hg1, hgs⟩ := List.forall_mem_cons.mp hg
      rw [List.foldl_cons, List.foldl_cons, addBits_append _ fun u hu => ?_, ih hgs]
      obtain ⟨e, he, hel⟩ := List.mem_map.mp ((mem_packBits es u.1).mp (List.mem_map_of_mem hu))
      exact hel ▸ h e he g hg1
  have he := hfold fs (fun _ hg => hg) []
  rw [List.append_nil] at he
  rw [packBits, List.foldl_append]
  exact he

/-! ## Places in scratch -/

theorem scrLoc_parts (t : Nat) {a : Nat} (ha : a < 2 ^ 20) :
    scrLoc t a % 4 = 1 ∧ scrLoc t a / 4 / 2 ^ 18 = t ∧ scrLoc t a / 4 % 2 ^ 18 = a / 4 := by
  unfold scrLoc
  omega

theorem scrLoc_add (t : Nat) {a k : Nat} (h : a % 4 + k < 4) : scrLoc t (a + k) = scrLoc t a := by
  unfold scrLoc
  rw [show (a + k) / 4 = a / 4 by omega]

/-- The cells of bytes of scratch that lie in one word. -/
theorem scrUnits_run (t a : Nat) {vs : List Byte} (h : a % 4 + vs.length ≤ 4) :
    (runBytes a vs).map (fun e => (scrLoc t e.1, e.1 % 4, e.2)) = runIn (scrLoc t a) (a % 4) vs := by
  have hrun (j : Nat) (hj : a % 4 + j + vs.length ≤ 4) :
      (vs.zipIdx j).map (fun e : Byte × Nat => (scrLoc t (a + e.2), (a + e.2) % 4, (0xFF : Byte), e.1)) =
        runIn (scrLoc t a) (a % 4 + j) vs := by
    induction vs generalizing j with
    | nil => rfl
    | cons v vs ih =>
      rw [List.length_cons] at h hj
      rw [List.zipIdx_cons, List.map_cons, runIn, scrLoc_add t (by omega), show (a + j) % 4 = a % 4 + j by omega,
        ih (by omega) (j + 1) (by omega), Nat.add_assoc]
  have := hrun 0 (by omega)
  rw [runBytes, List.map_map]
  exact this

/-- The word of scratch at a location, as the word of memory that would hold its bytes. -/
theorem State.wordAt_scr (s : State) (t : Nat) {a : Nat} (ha : a < 2 ^ 20) :
    s.wordAt (scrLoc t a) = ({ s with mem := (s.teamAt t).scratch } : State).wordAt (memLoc a) := by
  obtain ⟨h1, h2, h3⟩ := scrLoc_parts t ha
  have hloc : memLoc a = 4 * (a / 4) := by unfold memLoc; omega
  rw [State.wordAt, State.wordAt, h1, h2, h3, hloc]
  simp [State.teamAt]

/-- A byte of scratch in the word that holds it. -/
theorem State.byteAt_wordAt_scr (s : State) (t : Nat) {a : Nat} (ha : a < 2 ^ 20) :
    byteAt (s.wordAt (scrLoc t a)) (a % 4) = rdByte (s.teamAt t).scratch a := by
  rw [State.wordAt_scr s t ha]
  exact State.wordAt_byte _ a

/-! ## What a write of scratch leaves -/

/-- Nothing but the bytes and the poison of one team's scratch differs. -/
structure ScratchMoves (s t : State) (k : Nat) : Prop where
  own : { t with teams := s.teams } = s
  others : ∀ j, j ≠ k → t.teamAt j = s.teamAt j
  self : { t.teamAt k with scratch := (s.teamAt k).scratch, scratchPoison := (s.teamAt k).scratchPoison } = s.teamAt k

theorem ScratchMoves.refl (s : State) (k : Nat) : ScratchMoves s s k := ⟨rfl, fun _ _ => rfl, rfl⟩

theorem ScratchMoves.trans {s t u : State} {k : Nat} (h : ScratchMoves s t k) (g : ScratchMoves t u k) :
    ScratchMoves s u k where
  own := (congrArg (fun v : State => { v with teams := s.teams }) g.own).trans h.own
  others j hj := (g.others j hj).trans (h.others j hj)
  self := (congrArg (fun m : Team => { m with
    scratch := (s.teamAt k).scratch, scratchPoison := (s.teamAt k).scratchPoison }) g.self).trans h.self

/-- The byte that a write with bits of a mask leaves. -/
def mixByte (x m v : Byte) : Byte := (x &&& ~~~m) ||| (v &&& m)

@[simp] theorem mixByte_zero (x v : Byte) : mixByte x 0#8 v = x := by simp [mixByte, byte_and_ones]

@[simp] theorem mixByte_ones (x v : Byte) : mixByte x 255#8 v = v := by
  have h : ~~~(255#8) = 0#8 := by decide
  rw [mixByte, h, byte_and_ones]
  simp

theorem State.putWord_scr (s : State) (t : Nat) {a : Nat} (ha : a < 2 ^ 20) (m v : Word) :
    s.putWord (scrLoc t a) m v = s.setTeamAt t { s.teamAt t with
      scratch := putBytes (s.teamAt t).scratch (memLoc a) m v 4
      scratchPoison := if m == BitVec.allOnes 32 then (s.teamAt t).scratchPoison.filter (· != a / 4)
        else (s.teamAt t).scratchPoison } := by
  obtain ⟨h1, h2, h3⟩ := scrLoc_parts t ha
  have hloc : memLoc a = 4 * (a / 4) := by unfold memLoc; omega
  rw [State.putWord, h1, h2, h3, hloc]
  rfl

/-- Bits of a word of scratch take values: byte by byte, with the poison gone where they are all of the word's (R234). -/
theorem State.putMix_scr (s : State) (t : Nat) {a : Nat} (ha : a < 2 ^ 20) (m v : Word) :
    let u := s.putMixes [(scrLoc t a, m, v)]
    ScratchMoves s u t ∧
    (∀ b, rdByte (u.teamAt t).scratch b = if b / 4 = a / 4 then
      mixByte (rdByte (s.teamAt t).scratch b) (byteAt m (b % 4)) (byteAt v (b % 4)) else rdByte (s.teamAt t).scratch b) ∧
    (u.teamAt t).scratchPoison = if m = BitVec.allOnes 32 then (s.teamAt t).scratchPoison.filter (· != a / 4)
      else (s.teamAt t).scratchPoison := by
  have he : s.putMixes [(scrLoc t a, m, v)] = s.putWord (scrLoc t a) m (mix (s.wordAt (scrLoc t a)) m v) := by
    rw [State.putMixes, List.foldl_cons, List.foldl_nil]
  dsimp only
  rw [he, State.putWord_scr s t ha]
  refine ⟨⟨rfl, fun j hj => (State.setTeamAt_teamAt _ _ _ _).trans (if_neg hj), ?_⟩, fun b => ?_, ?_⟩
  · rw [State.setTeamAt_teamAt_self]
  · rw [State.setTeamAt_teamAt_self]
    refine (rdByte_putBytes _ _ _ _ _ _).trans ?_
    have hloc : memLoc a = 4 * (a / 4) := by unfold memLoc; omega
    by_cases hb : b / 4 = a / 4
    · have hoff : b - memLoc a = b % 4 := by omega
      have hword : byteAt (s.wordAt (scrLoc t a)) (b % 4) = rdByte (s.teamAt t).scratch b := by
        rw [show scrLoc t a = scrLoc t b by rw [scrLoc, scrLoc, hb]]
        exact State.byteAt_wordAt_scr s t (by omega)
      rw [hoff, if_pos hb, show (m >>> (8 * (b % 4))).setWidth 8 = byteAt m (b % 4) from rfl]
      have hmix := byteAt_mix (s.wordAt (scrLoc t a)) m v (Nat.mod_lt b (by decide : 0 < 4))
      rw [hword] at hmix
      split
      · exact hmix
      · next h =>
        have hzero : byteAt m (b % 4) = 0 := by
          by_contra hne
          exact h ⟨by omega, by omega, hne⟩
        rw [hzero]
        exact (mixByte_zero _ _).symm
    · rw [if_neg hb, if_neg (by omega)]
  · rw [State.setTeamAt_teamAt_self]
    exact if_congr beq_iff_eq rfl rfl

/-! ## Units written -/

/-- The bits of one word that a write may still set behind newer ones: some of its own (R181). -/
theorem rebase_one (rs : List WRec) (l : Nat) (m v : Word) : ∃ k, (rebase rs [(l, m, v)]).2 = [(l, m &&& k, v)] := by
  induction rs with
  | nil => exact ⟨BitVec.allOnes 32, by rw [rebase, BitVec.and_allOnes]⟩
  | cons r rs ih =>
    obtain ⟨k, hk⟩ := ih
    exact ⟨k &&& ~~~r.maskAt l, by rw [rebase, hk, ← BitVec.and_assoc]; rfl⟩

/-- A unit of one word: its bits as far as no newer write stands before it, and all of them where none does. -/
theorem State.putUnit_one (s : State) (g : Agent) (rels : List Rel) (rmw : Bool) (behind : Option Nat) (l : Nat) (m v : Word) :
    ∃ log k, s.putUnit g rels rmw behind [(l, m, v)] =
      State.putMixes { s with nextW := s.nextW + 1, wlog := log } [(l, m &&& k, v)] ∧
      (behind = none → k = BitVec.allOnes 32) := by
  cases behind with
  | none => exact ⟨_, BitVec.allOnes 32, by rw [BitVec.and_allOnes]; rfl, fun _ => rfl⟩
  | some n =>
    obtain ⟨k, hk⟩ := rebase_one (upTo n s.wlog) l m v
    unfold State.putUnit
    dsimp only
    rw [hk]
    exact ⟨_, k, rfl, nofun⟩

/-- A unit that goes in as the newest write. -/
theorem State.putUnit_last (s : State) (g : Agent) (rels : List Rel) (rmw : Bool) (u : List Bits) :
    ∃ log, s.putUnit g rels rmw none u = State.putMixes { s with nextW := s.nextW + 1, wlog := log } u := ⟨_, rfl⟩

/-- Before an agent before which every write is ordered nothing stands: its writes are the newest (R181). -/
theorem State.placeOf_of_settled {s : State} {g : Agent} (h : s.settled g = true) (ws : List (Nat × Word)) :
    s.placeOf g ws = none := by
  simp only [State.settled, Bool.and_eq_true, List.all_eq_true, Bool.not_eq_true'] at h
  obtain ⟨⟨hlog, -⟩, -⟩ := h
  have hnil : (s.wlog.filter (fun r => ws.any (fun b => r.maskAt b.1 &&& b.2 != 0))).takeWhile (s.passes g) = [] := by
    rw [List.takeWhile_eq_nil_iff]
    intro hl
    have hfree := (hlog _ (List.mem_of_mem_filter (List.getElem_mem hl))).1
    exact fun h => Bool.false_ne_true (hfree.symm.trans (Bool.and_eq_true_iff.mp h).1)
  simp only [State.placeOf, hnil, openEnds, List.length_nil, State.freeTo, if_true]

/-- An access to words of scratch reaches no copy and no cache (R191, R515). -/
theorem State.reach_scratch (s : State) (g : Agent) {locs : List Nat} (h : ∀ l ∈ locs, l % 4 ≠ 0) : s.reach g locs = s := by
  have hnone : locs.filterMap hostPageOf = [] := List.filterMap_eq_nil_iff.mpr fun l hl => if_neg fun hc => h l hl hc.1
  have hrecall : s.recall locs = s := by
    unfold State.recall
    split
    · rfl
    · have hall : s.fadds.filter (fun f => !locs.any (fun l => l % 4 == 0 && l / 128 == f.loc / 128)) = s.fadds := by
        refine List.filter_eq_self.mpr fun f _ => ?_
        simp only [Bool.not_eq_true', List.any_eq_false]
        intro l hl
        simp [h l hl]
      rw [hall]
  rw [State.reach, hrecall, State.hostFill, hnone]
  rfl

end Sys2Proof.Machine
end

section
/-! SUPPORT. S-stream loads and stores of scratch (R145, R240, R241). -/

namespace Sys2Proof.Machine

/-! ## Stores -/

theorem IsRun.whole_iff {k : Nat} {vs : List Byte} {m v : Word} (h : IsRun k vs m v) (hk : k + vs.length ≤ 4) :
    m = BitVec.allOnes 32 ↔ k = 0 ∧ vs.length = 4 := by
  constructor
  · rintro rfl
    have hbyte (j : Nat) (hj : j < 4) : k ≤ j ∧ j < k + vs.length := by
      by_contra hout
      have hzero := (h j hj).1
      rw [if_neg hout] at hzero
      have hones : ∀ j < 4, byteAt (BitVec.allOnes 32) j ≠ 0 := by decide
      exact hones j hj hzero
    have h0 := hbyte 0 (by decide)
    have h3 := hbyte 3 (by decide)
    omega
  · rintro ⟨rfl, hlen⟩
    refine word_ext fun j hj => ((h j hj).1.trans (if_pos (by omega))).trans ?_
    have hones : ∀ j < 4, (0xFF : Byte) = byteAt (BitVec.allOnes 32) j := by decide
    exact hones j hj

/-- A run of bytes within one word of scratch is written as one unit. -/
theorem scrUnits_word (t : Nat) {a : Nat} {vs : List Byte} (hv : vs ≠ []) (hk : a % 4 + vs.length ≤ 4) :
    ∃ m v, IsRun (a % 4) vs m v ∧ scrUnits t (runBytes a vs) = [[(scrLoc t a, m, v)]] := by
  obtain ⟨m, v, hrun, he⟩ := packBits_run (scrLoc t a) (a % 4) hv hk
  exact ⟨m, v, hrun, by rw [scrUnits, scrUnits_run t a hk, he]; rfl⟩

theorem State.recallRelease_eq (s : State) (g : Agent) (y : Sync) : ∃ fa, s.recallRelease g y = { s with fadds := fa } := by
  unfold State.recallRelease
  generalize (s.relsOf g y).map (·.scope) = l
  induction l generalizing s with
  | nil => exact ⟨s.fadds, rfl⟩
  | cons x l ih =>
    obtain ⟨fa, he, -⟩ := s.recallLoom_eq g.pick x
    obtain ⟨fb, hb⟩ := ih (s.recallLoom g.pick x)
    exact ⟨fb, by rw [List.foldl_cons, hb, he]⟩

/-- A store within one word of scratch writes bits of that word, and all it names where it is the newest write. -/
theorem State.storeSync_word (s : State) (g : Agent) (y : Sync) (t : Nat) {a : Nat} {vs : List Byte} (hv : vs ≠ [])
    (hk : a % 4 + vs.length ≤ 4) (ha : a < 2 ^ 20) : ∃ w m v k,
      { w with wlog := s.wlog, nextW := s.nextW, fadds := s.fadds } = s ∧ IsRun (a % 4) vs m v ∧
      s.storeSync g y (scrUnits t (runBytes a vs)) = State.putMixes w [(scrLoc t a, m &&& k, v)] ∧
      (s.settled g = true → k = BitVec.allOnes 32) := by
  obtain ⟨m, v, hrun, hunits⟩ := scrUnits_word t hv hk
  obtain ⟨fa, hfa⟩ := s.recallRelease_eq g y
  have hus : (if y.ord = 0 then [[(scrLoc t a, m, v)]] else [[[(scrLoc t a, m, v)]].flatten]) =
      ([[(scrLoc t a, m, v)]] : List (List Bits)) := ite_self _
  obtain ⟨log, k, hput, hlast⟩ := State.putUnit_one { s with fadds := fa } (g.as y) (s.relsOf g y) false
    (State.placeOf { s with fadds := fa } (g.as y) [(scrLoc t a, m)]) (scrLoc t a) m v
  refine ⟨{ s with fadds := fa, nextW := s.nextW + 1, wlog := log }, m, v, k, rfl, hrun, ?_,
    fun hs => hlast (State.placeOf_of_settled (g := g.as y) hs _)⟩
  rw [State.storeSync, hunits, hus, hfa, State.putUnits, State.putUnits]
  refine (State.reach_scratch _ _ fun l hl => ?_).trans hput
  obtain rfl : l = scrLoc t a := List.mem_singleton.mp hl
  rw [(scrLoc_parts t ha).1]
  decide

/-- A store within one word of scratch (R174, R181). -/
theorem State.storeSync_scratch (s : State) (g : Agent) (y : Sync) (t : Nat) {a : Nat} {vs : List Byte} (hv : vs ≠ [])
    (hk : a % 4 + vs.length ≤ 4) (ha : a < 2 ^ 20) :
    let u := s.storeSync g y (scrUnits t (runBytes a vs))
    { u with teams := s.teams, wlog := s.wlog, nextW := s.nextW, fadds := s.fadds } = s ∧ ScratchKept s u t a vs.length ∧
      (s.settled g = true → ScratchWrote s u t a vs) := by
  obtain ⟨w, m, v, k, hw, hrun, he, hlast⟩ := s.storeSync_word g y t hv hk ha
  have hteams : w.teams = s.teams := (congrArg State.teams hw :)
  have hteam (j : Nat) : w.teamAt j = s.teamAt j := by rw [State.teamAt, State.teamAt, hteams]
  obtain ⟨⟨hown, hothers, hself⟩, hbytes, hpoison⟩ := w.putMix_scr t ha (m &&& k) v
  rw [← he] at hown hothers hself hbytes hpoison
  simp only [hteam] at hothers hself hbytes hpoison
  generalize s.storeSync g y (scrUnits t (runBytes a vs)) = u at hown hothers hself hbytes hpoison ⊢
  have hframe (j : Nat) : { u.teamAt j with
      scratch := (s.teamAt j).scratch, scratchPoison := (s.teamAt j).scratchPoison } = s.teamAt j := by
    by_cases hj : j = t
    · rw [hj]
      exact hself
    · rw [hothers j hj]
  refine ⟨?_, ⟨hframe, fun j b hb => ?_⟩, fun hs => ⟨hframe, fun j b => ?_, fun j x => ?_⟩⟩
  · have h := congrArg (fun x : State => { x with teams := s.teams, wlog := s.wlog, nextW := s.nextW, fadds := s.fadds }) hown
    refine Eq.trans h ?_
    rw [← hteams]
    exact hw
  · by_cases hj : j = t
    · subst hj
      rw [hbytes]
      split
      · rw [byteAt_and, (hrun (b % 4) (by omega)).1, if_neg (by omega)]
        simp
      · rfl
    · rw [hothers j hj]
  · rw [hlast hs, BitVec.and_allOnes] at hbytes
    by_cases hj : j = t
    · subst hj
      rw [hbytes]
      by_cases hin : a ≤ b ∧ b < a + vs.length
      · obtain ⟨hm, hval⟩ := hrun (b % 4) (by omega)
        rw [if_pos (by omega), hm, if_pos (by omega), if_pos ⟨rfl, hin.1⟩,
          List.getElem?_eq_getElem (show b - a < vs.length by omega), Option.getD_some]
        refine (mixByte_ones _ _).trans (hval _ (by omega) ?_)
        rw [show b % 4 - a % 4 = b - a by omega, List.getElem?_eq_getElem]
      · have hkeep : (if b / 4 = a / 4 then mixByte (rdByte (s.teamAt j).scratch b) (byteAt m (b % 4)) (byteAt v (b % 4))
            else rdByte (s.teamAt j).scratch b) = rdByte (s.teamAt j).scratch b := by
          split
          · rw [(hrun (b % 4) (by omega)).1, if_neg (by omega)]
            exact mixByte_zero _ _
          · rfl
        rw [hkeep]
        split
        · rw [List.getElem?_eq_none (by omega), Option.getD_none]
        · rfl
    · rw [hothers j hj, if_neg fun h => hj h.1]
  · rw [hlast hs, BitVec.and_allOnes] at hpoison
    by_cases hj : j = t
    · subst hj
      rw [hpoison]
      simp only [hrun.whole_iff hk]
      split
      · rw [List.mem_filter, bne_iff_ne]
        exact and_congr_right fun _ => not_congr ⟨fun h => ⟨trivial, by omega, by omega⟩, fun h => by omega⟩
      · next hpart => exact ⟨fun h => ⟨h, fun hc => hpart (by omega)⟩, fun h => h.1⟩
    · rw [hothers j hj]
      exact ⟨fun h => ⟨h, fun hc => hj hc.1⟩, fun h => h.1⟩

/-- The address of a scratch access: w(base) plus the offset (R241). -/
def State.scratchAddr (s : State) (base : BitVec 6) (off : Int) : Nat := (((s.pick.w base).toNat + off) % 2 ^ 32).toNat

/-- An aligned access of 1, 2 or 4 bytes lies in one word, below 1 MiB where it is in range (R145). -/
theorem aligned_fits {n a : Nat} (hn : n = 1 ∨ n = 2 ∨ n = 4) (ha : a % n = 0) : a % 4 + n ≤ 4 := by
  rcases hn with rfl | rfl | rfl <;> omega

theorem Team.inRange_lt {m : Team} {a n : Nat} (h : m.inRange a n = true) : a < 2 ^ 20 := (of_decide_eq_true h).1

section
variable {s : State} {base : BitVec 6} {off : Int} {n : Nat} {y : Sync}

theorem State.scalarStore_scratch {v : BitVec 6} (hr : s.regsReady [base, v] [] = true) (ha : s.scratchAddr base off % n = 0)
    (hin : s.team.inRange (s.scratchAddr base off) n = true) : s.scalarStore v base off n false y =
      .next (s.storeSync s.scalarAgent y (scrUnits s.pick.team
        (runBytes (s.scratchAddr base off) (leBytes n (s.pick.w v).toNat)))).advance := by
  have haddr : scalarAddr s.readS false base off = s.scratchAddr base off := by
    rw [scalarAddr, if_neg Bool.false_ne_true, State.readS_ready hr (r := base) (by simp)]
    rfl
  rw [State.scalarStore, if_neg (by simp)]
  refine (State.withOperands_ready hr _).trans ?_
  dsimp only
  rw [haddr, if_neg (not_not.mpr ha), if_neg (by simp), hin, State.readS_ready hr (by simp)]
  rfl

/-- What an S-stream store of scratch leaves (R240, R241). -/
theorem scratchStore_completes {i : Instr} {v : BitVec 6} (he : exec i s = s.scalarStore v base off n false y)
    (hn : n = 1 ∨ n = 2 ∨ n = 4) (hr : s.regsReady [base, v] [] = true) (ha : s.scratchAddr base off % n = 0)
    (hin : s.team.inRange (s.scratchAddr base off) n = true) : Completes i s fun t =>
      Stored s t ∧ t.mem = s.mem ∧ t.poison = s.poison ∧ t.ctxs = s.ctxs ∧
        ScratchKept s t s.pick.team (s.scratchAddr base off) n ∧
        (s.settled s.scalarAgent = true →
          ScratchWrote s t s.pick.team (s.scratchAddr base off) (leBytes n (s.pick.w v).toNat)) := by
  have hlen : (leBytes n (s.pick.w v).toNat).length = n := leBytes_length _ _
  have hne : leBytes n (s.pick.w v).toNat ≠ [] := List.ne_nil_of_length_pos (by rw [hlen]; omega)
  obtain ⟨hown, hkept, hwrote⟩ := s.storeSync_scratch s.scalarAgent y s.pick.team hne
    (by rw [hlen]; exact aligned_fits hn ha) (Team.inRange_lt hin)
  refine ⟨_, he.trans (State.scalarStore_scratch hr ha hin), ?_⟩
  rw [hlen] at hkept
  generalize s.storeSync s.scalarAgent y (scrUnits s.pick.team
    (runBytes (s.scratchAddr base off) (leBytes n (s.pick.w v).toNat))) = u at hown hkept hwrote
  have hpick : u.pick = s.pick := by
    rw [← hown]
    rfl
  have hdie : u.team.die = s.team.die := by
    rw [State.team, hpick]
    exact (congrArg Team.die (hkept.1 s.pick.team) :)
  have hadvance : u.advance.pick = { s.pick with
      spc := s.pick.spc + 4, bkExempt := false, lastS := u.fresh } := by
    rw [(u.advance_onlyPick).2, hpick]
    rfl
  obtain ⟨⟨hsame, hothers⟩, -⟩ := u.advance_onlyPick
  have hcur : u.cur = s.cur := (congrArg State.cur hown :)
  have hpicks (k : Nat) : u.pickAt k = s.pickAt k := by
    rw [← hown]
    rfl
  refine ⟨⟨?_, fun k => ?_, fun k hk => (hothers k (hcur ▸ hk)).trans (hpicks k), ?_, by rw [hadvance], ?_⟩,
    (congrArg State.mem hown :), (congrArg State.poison hown :), (congrArg State.ctxs hown :), hkept, hwrote⟩
  · exact (congrArg (fun x : State => { x with
      picks := s.picks, dies := s.dies, ctxs := s.ctxs, mem := s.mem, poison := s.poison, fns := s.fns }) hown :)
  · have hfns : u.fns = s.fns := (congrArg State.fns hown :)
    exact (congrArg (fun f => { tget ({} : Function) f k with ats := (tget ({} : Function) s.fns k).ats }) hfns :)
  · have hd : u.dies = s.dies := (congrArg State.dies hown :)
    rw [State.advance, hdie]
    exact Counted.of_dies (s' := u.setPick _) hd (State.count_counted _ _ _ _)
  · rw [hadvance]
    apply BitVec.eq_of_toNat_eq
    simp [State.nextPc]

end

/-! ## Loads -/

/-- What a read of scratch by a scalar agent leaves: the recorded writes but for who knows, has read or has missed them, and what
relaxed reads of the pick in execution found (R175, R176, R186). -/
structure ScratchRead (s t : State) : Prop where
  own : { t with picks := s.picks, wlog := s.wlog } = s
  others : ∀ k, k ≠ s.cur → t.pickAt k = s.pickAt k
  log : SameLog s t
  pick : { t.pick with rlxSeen := s.pick.rlxSeen } = s.pick

theorem ScratchRead.refl (s : State) : ScratchRead s s := ⟨rfl, fun _ _ => rfl, rfl, rfl⟩

theorem ScratchRead.cur {s t : State} (h : ScratchRead s t) : t.cur = s.cur := (congrArg State.cur h.own :)

theorem ScratchRead.trans {s t u : State} (h : ScratchRead s t) (g : ScratchRead t u) : ScratchRead s u where
  own := (congrArg (fun v : State => { v with picks := s.picks, wlog := s.wlog }) g.own).trans h.own
  others k hk := (g.others k (h.cur ▸ hk)).trans (h.others k hk)
  log := g.log.trans h.log
  pick := (congrArg (fun p : Pick => { p with rlxSeen := s.pick.rlxSeen }) g.pick).trans h.pick

theorem ScratchRead.of_wlog {s : State} {l : List WRec} (h : SameLog s { s with wlog := l }) :
    ScratchRead s { s with wlog := l } := ⟨rfl, fun _ _ => rfl, h, rfl⟩

theorem State.mark_eq (s : State) (key : Nat) (ids : List Nat) :
    ∃ l, s.mark key ids = { s with wlog := l } ∧ SameLog s { s with wlog := l } := by
  unfold State.mark
  split
  · exact ⟨s.wlog, rfl, rfl⟩
  · refine ⟨_, rfl, ?_⟩
    simp only [SameLog, List.map_map]
    refine List.map_congr_left fun r _ => ?_
    simp only [Function.comp]
    split <;> rfl

theorem State.noteMissed_eq (s0 s : State) (g : Agent) (locs : List Nat) :
    ∃ l, s0.noteMissed s g locs = { s with wlog := l } ∧ SameLog s { s with wlog := l } := by
  unfold State.noteMissed
  dsimp only
  split
  · exact ⟨s.wlog, rfl, rfl⟩
  · refine ⟨_, rfl, ?_⟩
    simp only [SameLog, List.map_map]
    refine List.map_congr_left fun r _ => ?_
    simp only [Function.comp]
    split <;> rfl

theorem State.learn_read (s : State) (key : Nat) (ids : List Nat) : ScratchRead s (s.learn key ids) := by
  obtain ⟨l, he, hl⟩ := s.learn_eq key ids
  rw [he]
  exact .of_wlog hl

/-- An acquire of an agent that is no lane notes what it found (R176, R178). -/
theorem State.acquire_read (s : State) {g : Agent} (hg : g.pick = s.cur) (hc : g.cls ≠ 0) (y : Sync) (locs ids : List Nat) :
    ScratchRead s (s.acquire g y locs ids) := by
  unfold State.acquire
  dsimp only
  split
  · exact .refl s
  · generalize hu : (if y.ord = 2 ∨ y.ord = 4 then s.learnFor g _ else s) = u
    have hread : ScratchRead s u := by
      rw [← hu]
      split
      · rw [State.learnFor, if_pos (.inl hc)]
        exact s.learn_read _ _
      · exact .refl s
    rw [show g.pick = u.cur from hg.trans hread.cur.symm]
    exact hread.trans ⟨rfl, fun k hk => State.setPick_pickAt_ne u _ hk, rfl,
      (congrArg (fun p : Pick => { p with rlxSeen := u.pick.rlxSeen }) (State.setPick_pick u _) :)⟩

theorem State.acquire_plain (s : State) (g : Agent) {y : Sync} (hy : y.ord = 0) (locs ids : List Nat) :
    s.acquire g y locs ids = s := by
  unfold State.acquire
  exact if_pos (.inl hy)

/-- What a read of words of scratch leaves; a plain one finds no release (R176). -/
theorem State.noteLook_scratch (s : State) {g : Agent} (hg : g.pick = s.cur) (hc : g.cls ≠ 0) (y : Sync) (joint : Bool)
    {cells : List (Nat × Nat)} (h : ∀ e ∈ cells, e.1 % 4 ≠ 0) :
    ScratchRead s (s.noteLook s g y joint cells) ∧
    (y.ord = 0 → (s.noteLook s g y joint cells).pick.rlxSeen = s.pick.rlxSeen) := by
  let ids := (s.look (g.as y) joint cells).2
  let locs := (cells.map (·.1)).eraseDups
  obtain ⟨l, hmark, hlog⟩ := s.mark_eq g.key ids
  have hreach : (s.mark g.key ids).reach g locs = { s with wlog := l } := by
    rw [State.reach_scratch _ _ fun x hx => ?_, hmark]
    obtain ⟨e, he, rfl⟩ := List.mem_map.mp (List.mem_eraseDups.mp hx)
    exact h e he
  have hmarked : ScratchRead s { s with wlog := l } := .of_wlog hlog
  obtain ⟨l', hmissed, hlog'⟩ := s.noteMissed_eq (State.acquire { s with wlog := l } g y locs ids) (g.as y) locs
  have he : s.noteLook s g y joint cells = { State.acquire { s with wlog := l } g y locs ids with wlog := l' } := by
    rw [← hmissed, ← hreach]
    rfl
  rw [he]
  refine ⟨(hmarked.trans (State.acquire_read { s with wlog := l } hg hc y locs ids)).trans (.of_wlog hlog'), fun hy => ?_⟩
  rw [State.acquire_plain _ _ hy]
  rfl

/-- Readiness depends on nothing that a read of scratch changes. -/
theorem ScratchRead.regsReady {s t : State} (h : ScratchRead s t) (reads writes : List (BitVec 6)) :
    t.regsReady reads writes = s.regsReady reads writes := by
  have hp : t.pick = { s.pick with rlxSeen := t.pick.rlxSeen } := by
    rw [← h.pick]
  have hctx : t.ctx = s.ctx := by
    have ht : t.teams = s.teams := (congrArg State.teams h.own :)
    have hc : t.ctxs = s.ctxs := (congrArg State.ctxs h.own :)
    rw [State.ctx, State.ctx, State.team, State.team, hp, State.ctxAt, State.ctxAt, State.teamAt, State.teamAt, ht, hc]
  rw [State.regsReady, State.regsReady, State.frameHit, State.frameHit, State.poisonHit, State.poisonHit, State.chk,
    State.chk, hctx, hp]
  rfl

theorem rdBytes_eq_map (m : Memory) (a n : Nat) : rdBytes m a n = (List.range n).map (fun k => rdByte m (a + k)) := by
  refine List.ext_getElem? fun k => ?_
  by_cases hk : k < n
  · rw [rdBytes_getElem? _ _ hk, List.getElem?_map, List.getElem?_range hk]
    rfl
  · rw [List.getElem?_eq_none (by rw [rdBytes_length]; omega), List.getElem?_eq_none (by simpa using hk)]

/-- Where every write is ordered before it an agent reads the bytes that scratch holds (R180). -/
theorem State.readScr_of_settled {s : State} {g : Agent} (h : s.settled g = true) (t : Nat) {a n : Nat}
    (ha : a + n ≤ 2 ^ 20) : s.readScr g t a n = ofLe (rdBytes (s.teamAt t).scratch a n) := by
  rw [State.readScr, State.look_of_settled h, scrCells, List.map_map, rdBytes_eq_map]
  congr 1
  refine List.map_congr_left fun k hk => ?_
  exact State.byteAt_wordAt_scr s t (by have := List.mem_range.mp hk; omega)

section
variable {s : State} {base : BitVec 6} {off : Int} {n : Nat} {y : Sync}

theorem State.scalarLoad_scratch {d : BitVec 6} (hr : s.regsReady [base] [d] = true) (ha : s.scratchAddr base off % n = 0)
    (hin : s.team.inRange (s.scratchAddr base off) n = true) (hbad : s.team.scratchBad (s.scratchAddr base off) n = false) :
    s.scalarLoad d base off n false y = .next ((State.setS
      (s.noteLook s s.scalarAgent y false (scrCells s.pick.team (s.scratchAddr base off) n)) d
      (BitVec.ofNat 32 (s.readScr (s.scalarAgent.as y) s.pick.team (s.scratchAddr base off) n))).advance) := by
  have haddr : scalarAddr s.readS false base off = s.scratchAddr base off := by
    rw [scalarAddr, if_neg Bool.false_ne_true, State.readS_ready hr (r := base) (by simp)]
    rfl
  rw [State.scalarLoad, if_neg (by simp)]
  refine (State.withOperands_ready hr _).trans ?_
  dsimp only
  rw [haddr, if_neg (not_not.mpr ha), if_neg (by simp), hin, hbad]
  rfl

/-- What an S-stream load from scratch leaves (R240, R241). -/
theorem scratchLoad_completes {i : Instr} {d : BitVec 6} (he : exec i s = s.scalarLoad d base off n false y)
    (hn : n = 1 ∨ n = 2 ∨ n = 4) (hr : s.regsReady [base] [d] = true) (ha : s.scratchAddr base off % n = 0)
    (hin : s.team.inRange (s.scratchAddr base off) n = true)
    (hbad : s.team.scratchBad (s.scratchAddr base off) n = false) : Completes i s fun t =>
      ∃ v, Loaded s t d v [] 0 ∧ t.mem = s.mem ∧ t.ctxs = s.ctxs ∧ t.fadds = s.fadds ∧
        (y.ord = 0 → t.pick.rlxSeen = s.pick.rlxSeen) ∧
        (s.settled s.scalarAgent = true → v = BitVec.ofNat 32 (ofLe (rdBytes s.team.scratch (s.scratchAddr base off) n))) := by
  have hlt := Team.inRange_lt hin
  have hfits : s.scratchAddr base off + n ≤ 2 ^ 20 := by
    have := aligned_fits hn ha
    omega
  have hcells : ∀ e ∈ scrCells s.pick.team (s.scratchAddr base off) n, e.1 % 4 ≠ 0 := fun e hmem => by
    obtain ⟨k, hk, rfl⟩ := List.mem_map.mp hmem
    have := List.mem_range.mp hk
    rw [(scrLoc_parts s.pick.team (a := s.scratchAddr base off + k) (by omega)).1]
    decide
  obtain ⟨hread, hplain⟩ := s.noteLook_scratch (g := s.scalarAgent) rfl (Nat.succ_ne_zero 7) y false hcells
  refine ⟨_, he.trans (State.scalarLoad_scratch hr ha hin hbad),
    BitVec.ofNat 32 (s.readScr (s.scalarAgent.as y) s.pick.team (s.scratchAddr base off) n), ?_⟩
  generalize s.noteLook s s.scalarAgent y false (scrCells s.pick.team (s.scratchAddr base off) n) = u at hread hplain
  have hvalue (hs : s.settled s.scalarAgent = true) :
      BitVec.ofNat 32 (s.readScr (s.scalarAgent.as y) s.pick.team (s.scratchAddr base off) n) =
        BitVec.ofNat 32 (ofLe (rdBytes s.team.scratch (s.scratchAddr base off) n)) := by
    rw [State.readScr_of_settled (g := s.scalarAgent.as y) hs _ hfits]
    rfl
  generalize BitVec.ofNat 32 (s.readScr (s.scalarAgent.as y) s.pick.team (s.scratchAddr base off) n) = v at hvalue
  obtain ⟨⟨hsame, hothers⟩, hcount, hbut, hwrote, hspc, hbk, hlast⟩ :=
    State.setS_advance_wrote (s := u) (reads := [base]) (by rw [hread.regsReady]; exact hr) (d := d) (by simp) v
  generalize (u.setS d v).advance = t at *
  have hp : u.pick = { s.pick with rlxSeen := u.pick.rlxSeen } := by
    rw [← hread.pick]
  have hteams : u.teams = s.teams := (congrArg State.teams hread.own :)
  have hdies : u.dies = s.dies := (congrArg State.dies hread.own :)
  have hown : { t with picks := s.picks, dies := s.dies, wlog := s.wlog } = s :=
    (congrArg (fun x : State => { x with picks := s.picks, dies := s.dies, wlog := s.wlog }) hsame).trans
      ((congrArg (fun x : State => { x with dies := s.dies }) hread.own :))
  have hmem : t.mem = s.mem := (congrArg State.mem hown :)
  have hpoison : t.poison = s.poison := (congrArg State.poison hown :)
  have hctxs : t.ctxs = s.ctxs := (congrArg State.ctxs hown :)
  have hfns : t.fns = s.fns := (congrArg State.fns hown :)
  have hlog : t.wlog = u.wlog := (congrArg State.wlog hsame :)
  have hteam : u.team = s.team := by
    rw [State.team, State.team, hp, State.teamAt, State.teamAt, hteams]
  have hrlx : t.pick.rlxSeen = u.pick.rlxSeen := (congrArg Pick.rlxSeen hbut :)
  have hnone (w : Nat) : ¬ s.mends [] w := fun h => by
    obtain ⟨-, a, hmem, -⟩ := h
    exact absurd hmem List.not_mem_nil
  refine ⟨⟨(congrArg (fun x : State => { x with
      ctxs := s.ctxs, mem := s.mem, poison := s.poison, fadds := s.fadds, fns := s.fns }) hown :), fun k => ?host,
      fun k hk => (hothers k (hread.cur ▸ hk)).trans (hread.others k hk), ?log,
      ⟨fun a => ⟨fun h => absurd h (hnone _), fun _ => by rw [hmem]⟩, fun w => ?poison⟩, fun k => ?touched,
      Counted.of_dies hdies (hteam ▸ hcount), ?pick, ?wrote, ?spc⟩,
    hmem, hctxs, (congrArg State.fadds hown :), fun hy => hrlx.trans (hplain hy), hvalue⟩
  case host => rw [hfns]
  case log =>
    rw [SameLog, hlog]
    exact hread.log
  case poison =>
    rw [hpoison]
    exact ⟨fun h => ⟨h, hnone w⟩, fun h => h.1⟩
  case touched =>
    rw [State.ctxAt, State.ctxAt, hctxs]
    split <;> simp
  case pick =>
    rw [Pick.sameButSync]
    exact (congrArg (fun q : Pick => { q with
      sregs := s.pick.sregs, spoison := s.pick.spoison, spc := s.pick.spc, bkExempt := s.pick.bkExempt,
      lastS := s.pick.lastS, rlxSeen := s.pick.rlxSeen }) hbut).trans (by rw [hp])
  case wrote =>
    rw [hp] at hwrote
    exact hwrote
  case spc => rw [hspc, State.nextPc, State.nextPc, hp]

end

/-! ## The statement -/

theorem exec_sldWSSync {s : State} {d base : BitVec 6} {ord scp : BitVec 3} {off : BitVec 7} (ho : ord.toNat ≤ 2)
    (hs : scp.toNat ≤ 5) : exec (.sldWSSync d base ord scp 0 off) s =
      s.scalarLoad d base (4 * off.toNat) 4 false { ord := ord.toNat, scp := scp.toNat, rmt := false } :=
  if_pos (by simp [syncLoadOk, ho, hs])

theorem exec_sstWSSync {s : State} {v base : BitVec 6} {ord scp : BitVec 3} {off : BitVec 7}
    (ho : ord = 0 ∨ ord = 1 ∨ ord = 3) (hs : scp.toNat ≤ 5) : exec (.sstWSSync v base ord scp 0 off) s =
      s.scalarStore v base (4 * off.toNat) 4 false { ord := ord.toNat, scp := scp.toNat, rmt := false } :=
  if_pos (by simpa [syncStoreOk, hs, or_assoc] using ho)

/-- A plain load: what relaxed reads found is as before. -/
theorem scratchLoad_plain {s : State} {i : Instr} {d base : BitVec 6} {off : Int} {n : Nat} {P : Prop}
    (he : exec i s = s.scalarLoad d base off n false .plain) (hn : n = 1 ∨ n = 2 ∨ n = 4)
    (hr : s.regsReady [base] [d] = true) (ha : s.scratchAddr base off % n = 0)
    (hin : s.team.inRange (s.scratchAddr base off) n = true)
    (hbad : s.team.scratchBad (s.scratchAddr base off) n = false) : Completes i s fun t =>
      ∃ v, Loaded s t d v [] 0 ∧ t.mem = s.mem ∧ t.ctxs = s.ctxs ∧ t.fadds = s.fadds ∧
        (P → t.pick.rlxSeen = s.pick.rlxSeen) ∧
        (s.settled s.scalarAgent = true → v = BitVec.ofNat 32 (ofLe (rdBytes s.team.scratch (s.scratchAddr base off) n))) := by
  obtain ⟨t, ht, v, hload, hmem, hctxs, hfadds, hrlx, hv⟩ := scratchLoad_completes he hn hr ha hin hbad
  exact ⟨t, ht, v, hload, hmem, hctxs, hfadds, fun _ => hrlx rfl, hv⟩

/-- Settles O4: every form is a load or a store of 1, 2 or 4 aligned bytes, which lie in one word of the team's scratch. -/
theorem scratchAccess : Obligations.ScratchAccess := by
  refine ⟨fun s d base off ord scp e he => ?_, fun s v base off ord scp e he => ?_⟩
  · simp only [List.mem_cons, List.not_mem_nil, or_false] at he
    rcases he with rfl | rfl | rfl | rfl <;> simp only [reduceCtorEq, if_false, if_true] <;> intro hord hscp hr ha hin hbad
    · exact scratchLoad_plain rfl (.inl rfl) hr ha hin hbad
    · exact scratchLoad_plain rfl (.inr (.inl rfl)) hr ha hin hbad
    · exact scratchLoad_plain rfl (.inr (.inr rfl)) hr ha hin hbad
    · obtain ⟨t, ht, v, hload, hmem, hctxs, hfadds, -, hv⟩ :=
        scratchLoad_completes (exec_sldWSSync hord hscp) (.inr (.inr rfl)) hr ha hin hbad
      exact ⟨t, ht, v, hload, hmem, hctxs, hfadds, fun h => absurd rfl h, hv⟩
  · simp only [List.mem_cons, List.not_mem_nil, or_false] at he
    rcases he with rfl | rfl | rfl | rfl <;> simp only [reduceCtorEq, if_false, if_true] <;> intro hord hscp hr ha hin
    · exact scratchStore_completes rfl (.inl rfl) hr ha hin
    · exact scratchStore_completes rfl (.inr (.inl rfl)) hr ha hin
    · exact scratchStore_completes rfl (.inr (.inr rfl)) hr ha hin
    · exact scratchStore_completes (exec_sstWSSync hord hscp) (.inr (.inr rfl)) hr ha hin

end Sys2Proof.Machine
end

section
/-! SUPPORT. Barrier objects: the checks of their address, what BARINIT and BARARR leave, and what BARWAIT waits for (R150, R169,
R170, R185, R256 to R258). -/

namespace Sys2Proof.Machine

/-! ## Eight bytes written at one go -/

theorem State.putMixes_cons (s : State) (b : Bits) (bs : List Bits) :
    s.putMixes (b :: bs) = (s.putMixes [b]).putMixes bs := by
  rw [State.putMixes, State.putMixes, State.putMixes, List.foldl_cons, List.foldl_cons, List.foldl_nil]

theorem runBytes_append (a : Nat) (xs ys : List Byte) :
    runBytes a (xs ++ ys) = runBytes a xs ++ runBytes (a + xs.length) ys := by
  rw [runBytes, runBytes, runBytes, List.zipIdx_append, List.map_append, Nat.zero_add, List.zipIdx_eq_map_add (i := xs.length),
    List.map_map]
  congr 1
  refine List.map_congr_left fun e _ => ?_
  simp only [Function.comp_def, Nat.add_assoc]

theorem mem_runIn_loc {l k : Nat} {vs : List Byte} {e : Nat × Nat × Byte × Byte} (h : e ∈ runIn l k vs) : e.1 = l := by
  induction vs generalizing k with
  | nil => exact absurd h List.not_mem_nil
  | cons x vs ih =>
    rcases List.mem_cons.mp h with rfl | h
    · rfl
    · exact ih h

/-- The bytes of an object are those of two whole words. -/
theorem scrUnits_object (t : Nat) {n : Nat} (hn : n % 4 = 0) {xs ys : List Byte} (hx : xs.length = 4) (hy : ys.length = 4) :
    ∃ v w, IsRun 0 xs (BitVec.allOnes 32) v ∧ IsRun 0 ys (BitVec.allOnes 32) w ∧
      (scrUnits t (runBytes n (xs ++ ys))).flatten =
        [(scrLoc t n, BitVec.allOnes 32, v), (scrLoc t (n + 4), BitVec.allOnes 32, w)] := by
  obtain ⟨m, v, hrun, he⟩ := packBits_run (scrLoc t n) 0 (List.ne_nil_of_length_pos (l := xs) (by omega)) (by omega)
  obtain ⟨k, w, hrun', he'⟩ := packBits_run (scrLoc t (n + 4)) 0 (List.ne_nil_of_length_pos (l := ys) (by omega)) (by omega)
  obtain rfl : m = BitVec.allOnes 32 := (hrun.whole_iff (by omega)).mpr ⟨rfl, hx⟩
  obtain rfl : k = BitVec.allOnes 32 := (hrun'.whole_iff (by omega)).mpr ⟨rfl, hy⟩
  have hne : scrLoc t n ≠ scrLoc t (n + 4) := by
    unfold scrLoc
    omega
  have h1 := scrUnits_run t n (vs := xs) (by omega)
  have h2 := scrUnits_run t (n + 4) (vs := ys) (by omega)
  rw [hn] at h1
  rw [Nat.add_mod_right, hn] at h2
  refine ⟨v, w, hrun, hrun', ?_⟩
  rw [scrUnits, runBytes_append, hx, List.map_append, h1, h2,
    packBits_append fun e he f hf => by rw [mem_runIn_loc he, mem_runIn_loc hf]; exact hne, he, he']
  rfl

/-- A whole word of scratch written: its bytes are those of the run, and its poison is gone (R234). -/
theorem State.putMix_whole (s : State) (t : Nat) {a : Nat} (ha : a < 2 ^ 20) (h4 : a % 4 = 0) {vs : List Byte} {v : Word}
    (hv : vs.length = 4) (hrun : IsRun 0 vs (BitVec.allOnes 32) v) :
    let u := s.putMixes [(scrLoc t a, BitVec.allOnes 32, v)]
    ScratchMoves s u t ∧ (∀ j (hj : j < vs.length), rdByte (u.teamAt t).scratch (a + j) = vs[j]) ∧
    (∀ b, b < a ∨ a + 4 ≤ b → rdByte (u.teamAt t).scratch b = rdByte (s.teamAt t).scratch b) ∧
    (u.teamAt t).scratchPoison = (s.teamAt t).scratchPoison.filter (· != a / 4) := by
  obtain ⟨hmoves, hbytes, hpoison⟩ := s.putMix_scr t ha (BitVec.allOnes 32) v
  refine ⟨hmoves, fun j hj => ?_, fun b hb => (hbytes b).trans (if_neg (by omega)), hpoison.trans (if_pos rfl)⟩
  obtain ⟨hm, hval⟩ := hrun j (by omega)
  rw [hbytes, if_pos (by omega), show (a + j) % 4 = j by omega, hm, if_pos (by omega)]
  exact (mixByte_ones _ _).trans (hval _ (Nat.zero_le j) (List.getElem?_eq_getElem hj))

/-- What the write of an object at n leaves of the team t: eight bytes, and no poison on them (R234). -/
structure WroteObject (s u : State) (t n x : Nat) : Prop where
  own : { u with teams := s.teams, wlog := s.wlog, nextW := s.nextW } = s
  others : ∀ j, j ≠ t → u.teamAt j = s.teamAt j
  self : { u.teamAt t with scratch := (s.teamAt t).scratch, scratchPoison := (s.teamAt t).scratchPoison } = s.teamAt t
  outside : ∀ b, b < n ∨ n + 8 ≤ b → rdByte (u.teamAt t).scratch b = rdByte (s.teamAt t).scratch b
  value : rdNat (u.teamAt t).scratch n 8 = x % 2 ^ 64
  poison : (s.teamAt t).scratchBad n 8 = false → (u.teamAt t).scratchPoison = (s.teamAt t).scratchPoison

theorem rdBytes_eq_of_bytes {m : Memory} {a : Nat} {vs : List Byte}
    (h : ∀ j (hj : j < vs.length), rdByte m (a + j) = vs[j]) : rdBytes m a vs.length = vs := by
  refine List.ext_getElem? fun j => ?_
  by_cases hj : j < vs.length
  · rw [rdBytes_getElem? _ _ hj, List.getElem?_eq_getElem hj, h j hj]
  · rw [List.getElem?_eq_none (by rw [rdBytes_length]; omega), List.getElem?_eq_none (by omega)]

/-- Clean words stay as they are when the poison of one of them goes. -/
theorem filter_clean {m : Team} {n w : Nat} (h : m.scratchBad n 8 = false) (h1 : 4 * w < n + 8) (h2 : n < 4 * w + 4) :
    m.scratchPoison.filter (· != w) = m.scratchPoison := by
  rw [List.filter_eq_self]
  intro x hx
  rw [Team.scratchBad, List.any_eq_false] at h
  rw [bne_iff_ne]
  rintro rfl
  exact h x hx (decide_eq_true ⟨h1, h2⟩)

theorem State.putBar_wrote (s : State) (g : Agent) (t : Nat) {n : Nat} (x : Nat) (hn : n % 8 = 0) (hlt : n < 2 ^ 20) :
    WroteObject s (s.putBar g t n x) t n x := by
  obtain ⟨xs, ys, hle, hx, hy⟩ : ∃ xs ys, leBytes 8 x = xs ++ ys ∧ xs.length = 4 ∧ ys.length = 4 :=
    ⟨_, _, (List.take_append_drop 4 _).symm, by rw [List.length_take, leBytes_length]; rfl,
      by rw [List.length_drop, leBytes_length]⟩
  obtain ⟨v, w, hrun, hrun', hunits⟩ := scrUnits_object t (n := n) (by omega) hx hy
  obtain ⟨log, hput⟩ := s.putUnit_last g [] true [(scrLoc t n, BitVec.allOnes 32, v), (scrLoc t (n + 4), BitVec.allOnes 32, w)]
  generalize hs1 : ({ s with nextW := s.nextW + 1, wlog := log } : State) = s1 at hput
  have hown1 : { s1 with wlog := s.wlog, nextW := s.nextW } = s := by rw [← hs1]
  have hteam (j : Nat) : s1.teamAt j = s.teamAt j := by rw [← hs1]; rfl
  obtain ⟨hm1, hb1, ho1, hp1⟩ := s1.putMix_whole t hlt (by omega) hx hrun
  generalize hu : s1.putMixes [(scrLoc t n, BitVec.allOnes 32, v)] = u at hm1 hb1 ho1 hp1
  obtain ⟨hm2, hb2, ho2, hp2⟩ := u.putMix_whole t (a := n + 4) (by omega) (by omega) hy hrun'
  have he : s.putBar g t n x = u.putMixes [(scrLoc t (n + 4), BitVec.allOnes 32, w)] := by
    rw [State.putBar, hle, hunits, hput, State.putMixes_cons, hu]
  rw [he]
  generalize u.putMixes [(scrLoc t (n + 4), BitVec.allOnes 32, w)] = z at hm2 hb2 ho2 hp2
  have hmoves := hm1.trans hm2
  have hteams : s1.teams = s.teams := (congrArg State.teams hown1 :)
  refine ⟨?_, fun j hj => (hmoves.others j hj).trans (hteam j), ?_, fun b hb => ?_, ?_, fun hbad => ?_⟩
  · have h := congrArg (fun y : State => { y with wlog := s.wlog, nextW := s.nextW }) hmoves.own
    rw [← hteams]
    exact h.trans hown1
  · have h := hmoves.self
    rwa [hteam] at h
  · rw [ho2 b (by omega), ho1 b (by omega), hteam]
  · have hall : rdBytes (z.teamAt t).scratch n (xs ++ ys).length = xs ++ ys := by
      refine rdBytes_eq_of_bytes fun j hj => ?_
      rw [List.length_append] at hj
      by_cases hlow : j < xs.length
      · rw [List.getElem_append_left hlow, ho2 _ (by omega), hb1 j hlow]
      · rw [List.getElem_append_right (by omega), ← hb2 (j - xs.length) (by omega)]
        congr 1
        omega
    rw [List.length_append, hx, hy, ← hle] at hall
    rw [rdNat, hall, ofLe_leBytes]
    rfl
  · rw [hp2, hp1, hteam, filter_clean hbad (by omega) (by omega), filter_clean hbad (by omega) (by omega)]

/-! ## The fields of an object (R169) -/

theorem bit_zero_eq (x : Nat) : bit x 0 = decide (x % 2 = 1) := Nat.testBit_zero x

theorem sextN_mod {x : Int} (h1 : -2 ^ 31 ≤ x) (h2 : x < 2 ^ 31) : sextN (x % 2 ^ 32).toNat 32 = x := by
  unfold sextN
  rw [if_neg (by decide)]
  dsimp only
  split <;> omega

/-- An object read back as it was written. -/
theorem Team.bar_of_word {m : Team} {n old : Nat} {b : Bar} (h : rdNat m.scratch n 8 = b.word old % 2 ^ 64) (he : b.expa < 256)
    (ha : b.arr < 256) (h1 : -2 ^ 31 ≤ b.xb) (h2 : b.xb < 2 ^ 31) : m.bar n = b := by
  obtain ⟨phase, expa, arr, xb⟩ := b
  dsimp only at he ha h1 h2
  have hres1 : bits old 1 7 < 2 ^ 7 := Nat.mod_lt _ (by decide)
  have hres2 : bits old 24 8 < 2 ^ 8 := Nat.mod_lt _ (by decide)
  have hbal : (xb % 2 ^ 32).toNat < 2 ^ 32 := by omega
  have hback := sextN_mod h1 h2
  unfold Team.bar
  rw [h]
  unfold Bar.word
  dsimp only
  generalize bits old 1 7 = r1 at *
  generalize bits old 24 8 = r2 at *
  generalize (xb % 2 ^ 32).toNat = y at *
  rw [bits_eq_div_mod, bits_eq_div_mod, bits_eq_div_mod, bit_zero_eq]
  generalize hp : (if phase = true then 1 else 0) = p
  have hp2 : p < 2 := by rw [← hp]; split <;> decide
  have hphase : decide (p = 1) = phase := by rw [← hp]; cases phase <;> rfl
  have e0 : (p + r1 * 2 + expa % 256 * 2 ^ 8 + arr % 256 * 2 ^ 16 + r2 * 2 ^ 24 + y * 2 ^ 32) % 2 ^ 64 % 2 = p := by omega
  have e1 : (p + r1 * 2 + expa % 256 * 2 ^ 8 + arr % 256 * 2 ^ 16 + r2 * 2 ^ 24 + y * 2 ^ 32) % 2 ^ 64 / 2 ^ 8 % 2 ^ 8 = expa := by
    omega
  have e2 : (p + r1 * 2 + expa % 256 * 2 ^ 8 + arr % 256 * 2 ^ 16 + r2 * 2 ^ 24 + y * 2 ^ 32) % 2 ^ 64 / 2 ^ 16 % 2 ^ 8 = arr := by
    omega
  have e3 : (p + r1 * 2 + expa % 256 * 2 ^ 8 + arr % 256 * 2 ^ 16 + r2 * 2 ^ 24 + y * 2 ^ 32) % 2 ^ 64 / 2 ^ 32 % 2 ^ 32 = y := by
    omega
  rw [e0, e1, e2, e3, hphase, hback]

theorem Team.bar_lt (m : Team) (n : Nat) : (m.bar n).expa < 256 ∧ (m.bar n).arr < 256 :=
  ⟨Nat.mod_lt _ (by decide), Nat.mod_lt _ (by decide)⟩

/-- An object that begins anew. -/
theorem Team.bar_fresh {m : Team} {n : Nat} {e : BitVec 8} (h : rdNat m.scratch n 8 = e.toNat * 256) :
    m.bar n = ⟨false, e.toNat, 0, 0⟩ := by
  have he := e.isLt
  refine m.bar_of_word (old := 0) (h.trans ?_) he (Nat.succ_pos _) (show (-2 ^ 31 : Int) ≤ 0 by decide)
    (show (0 : Int) < 2 ^ 31 by decide)
  simp only [Bar.word, bits_eq_div_mod]
  simp
  omega

/-- The object with the flip check done (R170). -/
def Bar.flipped (b : Bar) : Bar := if b.arr = b.expa ∧ b.xb = 0 then { b with phase := !b.phase, arr := 0 } else b

theorem Bar.flipped_expa (b : Bar) : b.flipped.expa = b.expa := by
  unfold Bar.flipped
  split <;> rfl

theorem Bar.flipped_xb (b : Bar) : b.flipped.xb = b.xb := by
  unfold Bar.flipped
  split <;> rfl

theorem Bar.flipped_arr_lt {b : Bar} (h : b.arr < 256) : b.flipped.arr < 256 := by
  unfold Bar.flipped
  split
  · exact Nat.succ_pos _
  · exact h

/-- An update writes the object with the flip check done, beside what the unit keeps of it (R150, R170, R185). -/
theorem State.barUpdate_eq (s : State) (g : Agent) (t a : Nat) (b : Bar) (ids : List Nat) :
    ∃ now past marks, s.barUpdate g t a b ids =
      (s.setTeamAt t { s.teamAt t with barNow := now, barPast := past, inflight := marks }).putBar g t a
        (b.flipped.word (rdNat (s.teamAt t).scratch a 8)) := by
  unfold State.barUpdate Bar.flipped
  dsimp only
  split
  · exact ⟨_, _, _, rfl⟩
  · exact ⟨_, _, _, rfl⟩

/-! ## An S-stream instruction that writes an object -/

/-- The pick goes on after writes of scratch. -/
theorem State.advance_stored {s u : State} (hown : { u with teams := s.teams, wlog := s.wlog, nextW := s.nextW } = s)
    (hdie : u.team.die = s.team.die) : Stored s u.advance ∧
      { u.advance with picks := s.picks, dies := s.dies, teams := s.teams, wlog := s.wlog, nextW := s.nextW } = s := by
  obtain ⟨⟨-, hothers⟩, hnext⟩ := u.advance_onlyPick
  have hpicks : u.picks = s.picks := (congrArg State.picks hown :)
  have hcur : u.cur = s.cur := (congrArg State.cur hown :)
  have hat (k : Nat) : u.pickAt k = s.pickAt k := by rw [State.pickAt, State.pickAt, hpicks]
  have hpick : u.pick = s.pick := by
    rw [← hown]
    rfl
  have hadvance : u.advance.pick = { s.pick with
      spc := s.pick.spc + 4, bkExempt := false, lastS := u.fresh } := by
    rw [hnext, hpick]
    rfl
  have hframe : { u.advance with picks := s.picks, dies := s.dies, teams := s.teams, wlog := s.wlog, nextW := s.nextW } = s :=
    (congrArg (fun x : State => { x with picks := s.picks, dies := s.dies }) hown :)
  refine ⟨⟨?_, fun k => ?_, fun k hk => (hothers k (hcur ▸ hk)).trans (hat k), ?_, by rw [hadvance], ?_⟩, hframe⟩
  · exact (congrArg (fun x : State => { x with
      ctxs := s.ctxs, mem := s.mem, poison := s.poison, fadds := s.fadds, fns := s.fns }) hframe :)
  · have hfns : u.fns = s.fns := (congrArg State.fns hown :)
    exact (congrArg (fun f => { tget ({} : Function) f k with ats := (tget ({} : Function) s.fns k).ats }) hfns :)
  · rw [State.advance, hdie]
    exact Counted.of_dies (s' := u.setPick _) (congrArg State.dies hown :) (State.count_counted _ _ _ _)
  · rw [hadvance]
    apply BitVec.eq_of_toNat_eq
    simp [State.nextPc]

/-- What an instruction leaves that makes the focus team m and writes an object of it. -/
structure ObjectDone (s t : State) (m : Team) (n x : Nat) : Prop where
  stored : Stored s t
  frame : { t with picks := s.picks, dies := s.dies, teams := s.teams, wlog := s.wlog, nextW := s.nextW } = s
  others : ∀ k, k ≠ s.pick.team → t.teamAt k = s.teamAt k
  self : { t.team with scratch := m.scratch, scratchPoison := m.scratchPoison } = m
  outside : ∀ b, b < n ∨ n + 8 ≤ b → rdByte t.team.scratch b = rdByte m.scratch b
  value : rdNat t.team.scratch n 8 = x % 2 ^ 64
  poison : m.scratchBad n 8 = false → t.team.scratchPoison = m.scratchPoison

theorem State.putBar_done {s : State} {m : Team} {n : Nat} (x : Nat) (hdie : m.die = s.team.die) (hn : n % 8 = 0)
    (hlt : n < 2 ^ 20) :
    ObjectDone s ((s.setTeam m).putBar s.scalarAgent s.pick.team n x).advance m n x := by
  obtain ⟨hown, hothers, hself, hout, hval, hpoison⟩ := (s.setTeam m).putBar_wrote s.scalarAgent s.pick.team x hn hlt
  have hteam : (s.setTeam m).teamAt s.pick.team = m := State.setTeamAt_teamAt_self s _ m
  rw [hteam] at hself hout hpoison
  generalize (s.setTeam m).putBar s.scalarAgent s.pick.team n x = u at *
  have hown' : { u with teams := s.teams, wlog := s.wlog, nextW := s.nextW } = s :=
    (congrArg (fun y : State => { y with teams := s.teams }) hown :)
  have hpick : u.pick = s.pick := by
    rw [← hown']
    rfl
  have hdie' : u.team.die = s.team.die := by
    rw [State.team, hpick, ← hdie]
    exact (congrArg Team.die hself :)
  obtain ⟨hstored, hframe⟩ := State.advance_stored hown' hdie'
  have hat : u.advance.team = u.teamAt s.pick.team := by
    rw [← hpick, State.team, (u.advance_onlyPick).2]
    rfl
  refine ⟨hstored, hframe, fun k hk => ?_, by rwa [hat], by rwa [hat],
    (congrArg (fun m : Team => rdNat m.scratch n 8) hat).trans hval, by rwa [hat]⟩
  exact (hothers k hk).trans ((State.setTeamAt_teamAt s _ m k).trans (if_neg hk))

/-! ## The checks of the address (R256) -/

section
variable {s : State} {a : Word} {reads : Bool} {k : Nat → Out}

theorem State.withBar_misalign (h : a.toNat % 8 ≠ 0) : s.withBar a reads k = s.trapS .misalign (BitVec.ofNat 64 a.toNat) :=
  if_pos h

theorem State.withBar_bounds (h : a.toNat % 8 = 0) (hin : s.team.inRange a.toNat 8 = false) :
    s.withBar a reads k = s.trapS .bounds (BitVec.ofNat 64 a.toNat) := by
  rw [State.withBar, if_neg (not_not.mpr h), hin]
  rfl

theorem State.withBar_poison (h : a.toNat % 8 = 0) (hin : s.team.inRange a.toNat 8 = true)
    (hbad : s.team.scratchBad a.toNat 8 = true) : s.withBar a true k = s.trapS .dataPoison (BitVec.ofNat 64 a.toNat) := by
  rw [State.withBar, if_neg (not_not.mpr h), hin, hbad]
  rfl

theorem State.withBar_passes (h : a.toNat % 8 = 0) (hin : s.team.inRange a.toNat 8 = true)
    (hbad : reads = true → s.team.scratchBad a.toNat 8 = false) : s.withBar a reads k = k a.toNat := by
  have hclean : (reads && s.team.scratchBad a.toNat 8) = false := by
    cases reads
    · rfl
    · exact hbad rfl
  rw [State.withBar, if_neg (not_not.mpr h), hin, hclean]
  rfl

end

/-! ## BARINIT -/

section
variable {s : State} {a : BitVec 6}

theorem exec_barinit_zero : exec (.barinit a 0) s = s.trapS .illOperand s.opc6 := by
  have hexec : exec (.barinit a 0) s = execBarinit a 0 s := rfl
  rw [hexec, execBarinit, if_pos rfl]

theorem exec_barinit {e : BitVec 8} (he : e ≠ 0) (hr : s.regsReady [a] [] = true) : exec (.barinit a e) s =
    s.withBar (s.pick.w a) false fun n =>
      .next ((s.setTeam (s.team.dropBar n)).putBar s.scalarAgent s.pick.team n (e.toNat * 256)).advance := by
  have hexec : exec (.barinit a e) s = execBarinit a e s := rfl
  rw [hexec, execBarinit, if_neg he, State.withOperands_ready hr, State.readS_ready hr (r := a) (by simp)]

theorem barinit_completes {e : BitVec 8} (he : e ≠ 0) (hr : s.regsReady [a] [] = true) (hn : (s.pick.w a).toNat % 8 = 0)
    (hin : s.team.inRange (s.pick.w a).toNat 8 = true) :
    Completes (.barinit a e) s fun t =>
      ObjectDone s t (s.team.dropBar (s.pick.w a).toNat) (s.pick.w a).toNat (e.toNat * 256) :=
  ⟨_, (exec_barinit he hr).trans (State.withBar_passes hn hin nofun), State.putBar_done _ rfl hn (Team.inRange_lt hin)⟩

/-! ## BARARR and BARWAIT -/

variable {b : BitVec 6}

/-- The object after an arrival of BARARR, before the flip check. -/
def Bar.arrive (o : Bar) (x : Word) : Bar := { o with arr := (o.arr + 1) % 256, xb := o.xb + x.toInt }

theorem exec_bararr (hr : s.regsReady [a, b] [] = true) : exec (.bararr a b) s =
    s.withBar (s.pick.w a) true fun n =>
      if (s.team.bar n).arr = (s.team.bar n).expa ∨ xbOut ((s.team.bar n).xb + (s.pick.w b).toInt) then
        s.trapS .illOperand s.opc6
      else .next (s.barUpdate s.scalarAgent s.pick.team n ((s.team.bar n).arrive (s.pick.w b))
        (s.knownIds s.scalarAgent)).advance := by
  have hexec : exec (.bararr a b) s = execBararr a b s := rfl
  rw [hexec, execBararr, State.withOperands_ready hr, State.readS_ready hr (r := a) (by simp),
    State.readS_ready hr (r := b) (by simp)]
  rfl

theorem exec_barwait (hr : s.regsReady [a, b] [] = true) : exec (.barwait a b) s =
    s.withBar (s.pick.w a) true fun n =>
      if (s.team.bar n).phase = (s.pick.w b).getLsbD 0 then s.stall
      else .next (s.learn (scalarKey s.cur) (s.orderedIds 1 1 (tget [] s.team.barPast n))).advance := by
  have hexec : exec (.barwait a b) s = execBarwait a b s := rfl
  rw [hexec, execBarwait, State.withOperands_ready hr, State.readS_ready hr (r := a) (by simp),
    State.readS_ready hr (r := b) (by simp)]

theorem xbOut_iff (x : Int) : xbOut x = true ↔ x < -2 ^ 31 ∨ 2 ^ 31 ≤ x := decide_eq_true_iff

section
variable (hr : s.regsReady [a, b] [] = true) (hn : (s.pick.w a).toNat % 8 = 0)
  (hin : s.team.inRange (s.pick.w a).toNat 8 = true) (hbad : s.team.scratchBad (s.pick.w a).toNat 8 = false)
include hr hn hin hbad

theorem bararr_traps (h : (s.team.bar (s.pick.w a).toNat).arr = (s.team.bar (s.pick.w a).toNat).expa ∨
    (s.team.bar (s.pick.w a).toNat).xb + (s.pick.w b).toInt < -2 ^ 31 ∨
    2 ^ 31 ≤ (s.team.bar (s.pick.w a).toNat).xb + (s.pick.w b).toInt) : TrapsS (.bararr a b) s .illOperand s.opc6 :=
  TrapsS.of_exec fun _ =>
    (exec_bararr hr).trans ((State.withBar_passes hn hin fun _ => hbad).trans (if_pos (h.imp_right (xbOut_iff _).mpr)))

/-- BARARR leaves the object with the arrival counted and the flip check done, and beside it what the unit keeps. -/
theorem bararr_completes
    (harr : (s.team.bar (s.pick.w a).toNat).arr ≠ (s.team.bar (s.pick.w a).toNat).expa)
    (hlow : -2 ^ 31 ≤ (s.team.bar (s.pick.w a).toNat).xb + (s.pick.w b).toInt)
    (hhigh : (s.team.bar (s.pick.w a).toNat).xb + (s.pick.w b).toInt < 2 ^ 31) : Completes (.bararr a b) s fun t =>
      (∃ now past marks x, ObjectDone s t { s.team with barNow := now, barPast := past, inflight := marks }
        (s.pick.w a).toNat x) ∧
      t.team.bar (s.pick.w a).toNat = ((s.team.bar (s.pick.w a).toNat).arrive (s.pick.w b)).flipped := by
  obtain ⟨now, past, marks, he⟩ := s.barUpdate_eq s.scalarAgent s.pick.team (s.pick.w a).toNat
    ((s.team.bar (s.pick.w a).toNat).arrive (s.pick.w b)) (s.knownIds s.scalarAgent)
  have hok : ¬ ((s.team.bar (s.pick.w a).toNat).arr = (s.team.bar (s.pick.w a).toNat).expa ∨
      xbOut ((s.team.bar (s.pick.w a).toNat).xb + (s.pick.w b).toInt) = true) := by
    rw [xbOut_iff]
    omega
  have hdone := State.putBar_done (s := s) (m := { s.team with barNow := now, barPast := past, inflight := marks })
    (((s.team.bar (s.pick.w a).toNat).arrive (s.pick.w b)).flipped.word (rdNat s.team.scratch (s.pick.w a).toNat 8)) rfl hn
    (Team.inRange_lt hin)
  obtain ⟨hexpa, -⟩ := s.team.bar_lt (s.pick.w a).toNat
  refine ⟨_, (exec_bararr hr).trans ((State.withBar_passes hn hin fun _ => hbad).trans (if_neg hok)), ?_⟩
  rw [he]
  exact ⟨⟨now, past, marks, _, hdone⟩, Team.bar_of_word hdone.value ((Bar.flipped_expa _).trans_lt hexpa)
    (Bar.flipped_arr_lt (Nat.mod_lt _ (by decide))) ((Bar.flipped_xb _).symm ▸ hlow) ((Bar.flipped_xb _).symm ▸ hhigh)⟩

theorem barwait_stalls (h : (s.team.bar (s.pick.w a).toNat).phase = (s.pick.w b).getLsbD 0) :
    exec (.barwait a b) s = .next s :=
  (exec_barwait hr).trans ((State.withBar_passes hn hin fun _ => hbad).trans (if_pos h))

theorem barwait_completes (h : (s.team.bar (s.pick.w a).toNat).phase ≠ (s.pick.w b).getLsbD 0) :
    Completes (.barwait a b) s fun t => PickStepSync s t (fun _ q => q) := by
  obtain ⟨l, hl, hsame⟩ := s.learn_eq (scalarKey s.cur) (s.orderedIds 1 1 (tget [] s.team.barPast (s.pick.w a).toNat))
  refine ⟨_, (exec_barwait hr).trans ((State.withBar_passes hn hin fun _ => hbad).trans (if_neg h)), ?_⟩
  rw [hl]
  obtain ⟨⟨-, hothers⟩, hnext⟩ := ({ s with wlog := l } : State).advance_onlyPick
  refine ⟨rfl, hothers, hsame, ?_, ?_, ?_⟩
  · exact Counted.of_dies (s' := ({ s with wlog := l } : State).setPick _) rfl (State.count_counted _ _ _ _)
  · rw [hnext]
    apply BitVec.eq_of_toNat_eq
    simp [State.nextPc, Pick.goneOn]
    rfl
  · rw [hnext]
    rfl

end

end

/-! ## The statement -/

/-- Settles O10: BARINIT and BARARR write the eight bytes of an object, read back field by field. -/
theorem barriers : Obligations.Barriers := by
  intro s a n
  refine ⟨TrapsS.of_exec fun _ => exec_barinit_zero, fun e he hr => ⟨fun hn => ?_, fun hn hin => ?_⟩, fun e he hr hn hin => ?_,
    fun b hr => ⟨fun _ hn => ⟨?_, ?_⟩, fun _ hn hin => ⟨?_, ?_⟩, fun hn hin hbad => ⟨?_, ?_⟩, fun hn hin hbad => ?_⟩⟩
  · exact TrapsS.of_exec fun _ => (exec_barinit he hr).trans (State.withBar_misalign hn)
  · exact TrapsS.of_exec fun _ => (exec_barinit he hr).trans (State.withBar_bounds hn hin)
  · obtain ⟨t, ht, hstored, hframe, hothers, hself, hout, hval, -⟩ := barinit_completes he hr hn hin
    have he8 := e.isLt
    have hvalue : rdNat t.team.scratch n 8 = e.toNat * 256 := hval.trans (Nat.mod_eq_of_lt (by omega))
    have hnow : t.team.barNow = tput [] s.team.barNow n [] := (congrArg Team.barNow hself :)
    have hpast : t.team.barPast = tput [] s.team.barPast n [] := (congrArg Team.barPast hself :)
    have hbar := Team.bar_fresh hvalue
    refine ⟨t, ht, hstored, (congrArg State.mem hframe :), (congrArg State.ctxs hframe :), hothers, ?_, hout, hvalue,
      by rw [hnow, tget_tput_self], by rw [hpast, tget_tput_self], (congrArg Team.inflight hself :), ?_⟩
    · exact (congrArg (fun m : Team => { m with
        scratch := s.team.scratch, scratchPoison := s.team.scratchPoison, inflight := s.team.inflight,
        barNow := s.team.barNow, barPast := s.team.barPast }) hself :)
    · rw [hbar]
      exact ⟨rfl, rfl, rfl, rfl⟩
  · exact TrapsS.of_exec fun _ => (exec_bararr hr).trans (State.withBar_misalign hn)
  · exact TrapsS.of_exec fun _ => (exec_barwait hr).trans (State.withBar_misalign hn)
  · exact TrapsS.of_exec fun _ => (exec_bararr hr).trans (State.withBar_bounds hn hin)
  · exact TrapsS.of_exec fun _ => (exec_barwait hr).trans (State.withBar_bounds hn hin)
  · exact TrapsS.of_exec fun _ => (exec_bararr hr).trans (State.withBar_poison hn hin hbad)
  · exact TrapsS.of_exec fun _ => (exec_barwait hr).trans (State.withBar_poison hn hin hbad)
  · refine ⟨bararr_traps hr hn hin hbad, fun harr hlow hhigh => ?_, barwait_stalls hr hn hin hbad,
      barwait_completes hr hn hin hbad⟩
    obtain ⟨t, ht, ⟨now, past, marks, x, hstored, hframe, hothers, hself, hout, -, hpoison⟩, hbar⟩ :=
      bararr_completes hr hn hin hbad harr hlow hhigh
    obtain ⟨-, -, -, -, hpick, hspc⟩ := hstored
    refine ⟨t, ht, hframe, hspc, hpick, hothers, hout, ?_, ?_⟩
    · have h := congrArg (fun m : Team => { m with
        scratchPoison := s.team.scratchPoison, inflight := s.team.inflight,
        barNow := s.team.barNow, barPast := s.team.barPast }) hself
      refine Eq.trans ?_ h
      rw [← show t.team.scratchPoison = s.team.scratchPoison from hpoison hbad]
    · rw [hbar]
      refine ⟨Bar.flipped_expa _, ?_⟩
      unfold Bar.flipped Bar.arrive
      dsimp only
      split
      · next hflip => exact ⟨rfl, rfl, hflip.2⟩
      · exact ⟨rfl, rfl, rfl⟩

end Sys2Proof.Machine
end

section
/-! SUPPORT. XFENCE and FENCE: the drain that starts, and what a fence of the scalar agent leaves (R178, R181, R182, R254,
R255). -/

namespace Sys2Proof.Machine

/-! ## XFENCE -/

/-- The pick with one drain more under way (R254). -/
def Pick.withDrain (p : Pick) (x : XfRec) : Pick := { p with xseq := p.xseq + 1, xfences := p.xfences ++ [x] }

theorem exec_xfence_bad {s : State} {scp : BitVec 3} {t f : BitVec 8} (h : ¬ (t ≠ 0 ∧ f ≠ 0 ∧ scp.toNat ≤ 5)) :
    exec (.xfence scp t f) s = s.trapS .illOperand s.opc6 :=
  if_pos (by simpa only [not_and_or, not_not, not_le] using h)

/-- A record but for the drains that order it, whether or not one more does. -/
theorem WRec.unfenced_ite {c : Prop} [Decidable c] (r : WRec) (l : List (Nat × BitVec 8 × Nat)) :
    (fun x : WRec => { x with fenced := [] }) (if c then { r with fenced := l } else r) = { r with fenced := [] } := by
  split <;> rfl

/-- XFENCE adds its drain to the pick, and marks the recorded writes that it orders. -/
theorem exec_xfence {s : State} {scp : BitVec 3} {t f : BitVec 8} (h : t ≠ 0 ∧ f ≠ 0 ∧ scp.toNat ≤ 5) :
    ∃ l, exec (.xfence scp t f) s =
        .next (({ s with wlog := l } : State).setPick (s.pick.withDrain ⟨f, t, scp, false⟩)).advance ∧
      l.map (fun r => { r with fenced := [] }) = s.wlog.map (fun r => { r with fenced := [] }) := by
  refine ⟨_, if_neg (by simpa only [not_or, not_lt] using h), ?_⟩
  rw [List.map_map]
  exact List.map_congr_left fun r _ => r.unfenced_ite _

/-! ## FENCE -/

theorem exec_fence_bad {s : State} {scp kind : BitVec 3} (h : ¬ (2 ≤ kind.toNat ∧ kind.toNat ≤ 4 ∧ scp.toNat ≤ 5)) :
    exec (.fence scp kind) s = s.trapS .illOperand s.opc6 := if_pos (by omega)

theorem exec_fence {s : State} {scp kind : BitVec 3} (h : 2 ≤ kind.toNat ∧ kind.toNat ≤ 4 ∧ scp.toNat ≤ 5) :
    exec (.fence scp kind) s = .next (s.fence s.scalarAgent kind.toNat scp.toNat).advance := if_neg (by omega)

/-- What acquires bring the scalar agent is in the log alone (R179). -/
theorem State.learnFor_scalar_pick (s : State) (ids : List Nat) :
    (s.learnFor s.scalarAgent ids).pick = s.pick ∧ (s.learnFor s.scalarAgent ids).cur = s.cur := by
  have e : s.learnFor s.scalarAgent ids = s.learn s.scalarAgent.key ids := by
    unfold State.learnFor
    exact if_pos (Or.inl (show (8 : Nat) ≠ 0 by decide))
  obtain ⟨hl, hp⟩ := s.learn_fenced s.scalarAgent.key ids
  exact ⟨e ▸ hp, e ▸ hl.cur⟩

/-- A fence of the scalar agent changes of its pick only what release fences made ready. -/
theorem State.fence_scalar_pick (s : State) (kind scp : Nat) :
    ∃ l, (s.fence s.scalarAgent kind scp).pick = { s.pick with relFence := l } := by
  unfold State.fence
  extract_lets rels s1 p
  have h1 : s1.pick = s.pick ∧ s1.cur = s.cur := by
    unfold s1
    split
    · exact s.learnFor_scalar_pick _
    · exact ⟨rfl, rfl⟩
  obtain ⟨hpick, hcur⟩ := h1
  have hagent : s.scalarAgent.pick = s1.cur := hcur.symm
  split
  · have hp : p = s.pick := (congrArg s1.pickAt hagent).trans hpick
    have hset (q : Pick) : s1.setPickAt s.scalarAgent.pick q = s1.setPick q := congrArg (s1.setPickAt · q) hagent
    rw [hset, ((s1.setPick _).recallLoom_fenced _ _).2, State.setPick_pick, hp]
    exact ⟨_, rfl⟩
  · exact ⟨s.pick.relFence, hpick⟩

/-- FENCE goes on, and besides the bookkeeping of what happens before what nothing differs (R255). -/
theorem State.fence_advance_pickStepSync (s : State) (kind scp : Nat) :
    PickStepSync s (s.fence s.scalarAgent kind scp).advance (fun p q => { q with relFence := p.relFence }) := by
  obtain ⟨l, hpick⟩ := s.fence_scalar_pick kind scp
  obtain ⟨⟨hown, hothers, hlog, -, -, -⟩, -⟩ := s.fence_fenced (g := s.scalarAgent) rfl kind scp
  generalize s.fence s.scalarAgent kind scp = u at *
  obtain ⟨⟨-, hkept⟩, hnext⟩ := u.advance_onlyPick
  have hcur : u.cur = s.cur := (congrArg State.cur hown :)
  have hteam : u.team = s.team := by
    rw [State.team, hpick, ← hown]
    rfl
  refine ⟨?_, fun k hk => (hkept k (hcur ▸ hk)).trans (hothers k hk), hlog, ?_, ?_, ?_⟩
  · exact (congrArg (fun x : State => { x with dies := s.dies }) hown :)
  · rw [State.advance, hteam]
    exact Counted.of_dies (s' := u.setPick _) (congrArg State.dies hown :) (State.count_counted _ _ _ _)
  · rw [hnext, hpick]
    apply BitVec.eq_of_toNat_eq
    simp [Pick.goneOn, State.nextPc]
  · rw [hnext, hpick]
    rfl

/-- Settles O9: XFENCE by the drain that it adds to the pick, FENCE by what a fence of the scalar agent leaves. -/
theorem fences : Obligations.Fences := by
  intro s
  refine ⟨fun scp t f => ⟨fun h => ?_, fun h _ => TrapsS.of_exec fun _ => exec_xfence_bad h⟩, fun scp kind => ⟨fun h => ?_,
    fun h _ => TrapsS.of_exec fun _ => exec_fence_bad h⟩⟩
  · obtain ⟨l, he, hl⟩ := exec_xfence h
    obtain ⟨⟨hown, hpicks⟩, hcount, hspc, -⟩ := State.setPick_advance_pickStep (s := { s with wlog := l })
      (q := s.pick.withDrain ⟨f, t, scp, false⟩) (f := fun p q => { q with xseq := p.xseq, xfences := p.xfences }) rfl rfl rfl
    refine ⟨_, he, ?_, hpicks, hl, hcount, hspc, ?_, ?_, ?_⟩
    · exact congrArg (fun u : State => { u with wlog := s.wlog }) hown
    all_goals rw [State.setPick_advance_pick]; rfl
  · exact ⟨_, exec_fence h, s.fence_advance_pickStepSync _ _⟩

end Sys2Proof.Machine
end

section
/-! SUPPORT. Fields that stand in a word, and what the two decoders make of a word: the instruction whose encoding it is (R202
to R215). -/

namespace Sys2Proof

/-! ## Fields of a word -/

/-- These bits stand in the word from bit lo. The encoder joins fields and the decoder extracts them: what both say of a word is
which fields stand where. -/
def StandsAt {n k : Nat} (w : BitVec n) (lo : Nat) (v : BitVec k) : Prop := w.extractLsb' lo k = v

/-- Fields one after another stand in a word where each of them does. The type of the concatenation is kept out of simp's index:
in the encoder it is a numeral, not a sum. -/
theorem standsAt_append {n k l lo : Nat} {w : BitVec n} {x : BitVec k} {y : BitVec l} :
    StandsAt w lo (@HAppend.hAppend _ _ (no_index _) _ x y) ↔ StandsAt w (lo + l) x ∧ StandsAt w lo y := by
  unfold StandsAt
  rw [← BitVec.extractLsb'_append_extractLsb'_eq_extractLsb' rfl]
  constructor
  · intro h
    have hx := congrArg (BitVec.extractLsb' l k) h
    have hy := congrArg (BitVec.extractLsb' 0 l) h
    rw [BitVec.extractLsb'_append_eq_left, BitVec.extractLsb'_append_eq_left] at hx
    rw [BitVec.extractLsb'_append_eq_right, BitVec.extractLsb'_append_eq_right] at hy
    exact ⟨hx, hy⟩
  · rintro ⟨rfl, rfl⟩
    rfl

theorem standsAt_srcBits {n lo : Nat} {w : BitVec n} {s : Src} : StandsAt w lo (srcBits s) ↔ srcAt w lo = s := by
  cases s
  simp only [srcBits, standsAt_append, Nat.add_assoc, Nat.reduceAdd]
  simp only [StandsAt, srcAt, Src.mk.injEq, and_assoc]

theorem standsAt_hdBits {n lo : Nat} {w : BitVec n} {h : Hd} : StandsAt w lo (hdBits h) ↔ hdAt w lo = h := by
  cases h
  simp only [hdBits, standsAt_append, Nat.add_assoc, Nat.reduceAdd]
  simp only [StandsAt, hdAt, Hd.mk.injEq, and_assoc]

theorem standsAt_ofNat {n lo k c : Nat} {w : BitVec n} :
    StandsAt w lo (BitVec.ofNat k c) ↔ (w.extractLsb' lo k).toNat = c % 2 ^ k := by
  rw [StandsAt, ← BitVec.toNat_inj, BitVec.toNat_ofNat]

theorem zero_iff {n lo k : Nat} {w : BitVec n} : zero w lo k = true ↔ (w.extractLsb' lo k).toNat = 0 :=
  beq_iff_eq.trans BitVec.toNat_inj.symm

theorem standsAt_whole {n : Nat} {w v : BitVec n} : StandsAt w 0 v ↔ v = w := by
  rw [StandsAt, BitVec.extractLsb'_eq_self, eq_comm]

/-- A field's high bits, as a number. -/
theorem toNat_extractLsb'_div {n : Nat} (w : BitVec n) (lo j k : Nat) :
    (w.extractLsb' lo (j + k)).toNat / 2 ^ j = (w.extractLsb' (lo + j) k).toNat := by
  rw [BitVec.extractLsb'_toNat, BitVec.extractLsb'_toNat, Nat.pow_add, Nat.mod_mul_right_div_self, ← Nat.shiftRight_eq_div_pow,
    Nat.shiftRight_add]

/-- A field's low bits, as a number. -/
theorem toNat_extractLsb'_mod {n : Nat} (w : BitVec n) (lo j k : Nat) :
    (w.extractLsb' lo (j + k)).toNat % 2 ^ j = (w.extractLsb' lo j).toNat := by
  rw [BitVec.extractLsb'_toNat, BitVec.extractLsb'_toNat, Nat.pow_add, Nat.mod_mul_right_mod]

theorem f8_div (w : Word) : (w.extractLsb' 0 8).toNat / 8 = (w.extractLsb' 3 5).toNat := toNat_extractLsb'_div w 0 3 5

theorem f8_mod (w : Word) : (w.extractLsb' 0 8).toNat % 8 = (w.extractLsb' 0 3).toNat := toNat_extractLsb'_mod w 0 3 5

/-! ## What a word decodes to -/

/-- If the word decodes, it is to an instruction with this property. -/
def Decoded.OnlyTo (P : Instr → Prop) (r : Decoded) : Prop := ∀ i, r = .ok i → P i

section
variable {P : Instr → Prop}

theorem onlyTo_ok {i : Instr} : (Decoded.ok i).OnlyTo P ↔ P i := by
  simp only [Decoded.OnlyTo, Decoded.ok.injEq, forall_eq']

theorem onlyTo_illOpcode : Decoded.illOpcode.OnlyTo P := nofun

theorem onlyTo_sel {z : Bool} {i : Instr} : (sel z i).OnlyTo P ↔ (z = true → P i) := by
  cases z
  · exact iff_of_true nofun nofun
  · exact onlyTo_ok.trans ⟨fun h _ => h, fun h => h rfl⟩
end

/-- The L-stream decoder answers with the instruction whose fields it has read: each OPC by its entry. -/
theorem decodeLaneRaw_onlyTo (w : BitVec 96) :
    (decodeLaneRaw w).OnlyTo fun i => i.stream = 1 ∧ StandsAt w 0 (encodeLane i) := by
  unfold decodeLaneRaw
  repeat' split
  all_goals simp only [onlyTo_ok, onlyTo_sel, onlyTo_illOpcode, zero_iff, Bool.and_eq_true]
  all_goals
    intros
    refine ⟨rfl, ?_⟩
    unfold encodeLane
    simp only [↓standsAt_append, ↓standsAt_srcBits, ↓standsAt_hdBits, ↓standsAt_ofNat, StandsAt, Nat.reduceAdd, Nat.reduceMod,
      Nat.reducePow, and_self, *]

/-- The same of the S-stream decoder: each OPC6 by its entry, and within its group each f8 or func7. -/
theorem decodeScalarRaw_onlyTo (w : Word) :
    (decodeScalarRaw w).OnlyTo fun i => i.stream = 0 ∧ StandsAt w 0 (encodeScalar i) := by
  have hhigh := (f8_div w).symm
  unfold decodeScalarRaw decodeAlu decodeCop
  repeat' split
  all_goals simp only [onlyTo_ok, onlyTo_sel, onlyTo_illOpcode, zero_iff, Bool.and_eq_true] at *
  all_goals
    intros
    refine ⟨rfl, ?_⟩
    unfold encodeScalar
    simp only [↓standsAt_append, ↓standsAt_ofNat, StandsAt, Nat.reduceAdd, Nat.reduceMod, Nat.reducePow, and_self, *]

/-! ## Reading back the word of an instruction -/

theorem sel_eq_ok {z : Bool} {i j : Instr} (hz : z = true) (h : i = j) : sel z i = .ok j := by
  rw [sel, if_pos hz, h]

/-- A lane instruction is read back from the word in which its fields stand. Four opcodes ask first whether a function selector is
allocated (step 3 of R215), which well-formedness says; VDIV and its like have no field that must be zero. -/
theorem decodeLaneRaw_of_standsAt {w : BitVec 96} {i : Instr} (hs : i.stream = 1) (hwf : i.wf = true)
    (hw : StandsAt w 0 (encodeLane i)) : decodeLaneRaw w = .ok i := by
  cases i <;> cases hs
  all_goals
    unfold encodeLane at hw
    simp only [↓standsAt_append, ↓standsAt_srcBits, ↓standsAt_hdBits, ↓standsAt_ofNat, StandsAt, Nat.reduceAdd, Nat.reduceMod,
      Nat.reducePow, and_assoc] at hw
    obtain ⟨hop, hfields⟩ := hw
    unfold decodeLaneRaw
    rw [hop]
  case' vicmp | vredk | vscan | vatom =>
    simp only [Instr.wf, Bool.and_eq_true, decide_eq_true_eq] at hwf
    refine (if_neg (by simp only [gt_iff_lt, not_lt, hfields, hwf])).trans ?_
  case vdiv | vdivu | vrem | vremu => exact congrArg Decoded.ok (by simp only [hfields])
  all_goals
    refine sel_eq_ok ?_ ?_
    · simp only [zero_iff, Bool.and_eq_true, hfields, and_self]
    · simp only [hfields]

/-- The low bits of f8 are a field of SSEL and of SCMP, so their f8 is a range of values and not one (R213). -/
theorem decodeAlu_ssel {w : Word} (h : (w.extractLsb' 3 5).toNat = 4) :
    decodeAlu w = .ok (.ssel (w.extractLsb' 20 6) (w.extractLsb' 14 6) (w.extractLsb' 8 6) (w.extractLsb' 0 3)) := by
  rw [← f8_div] at h
  unfold decodeAlu
  split
  case h_18 => exact if_pos h
  all_goals omega

theorem decodeAlu_scmp {w : Word} (h : (w.extractLsb' 3 5).toNat = 8) (hc : (w.extractLsb' 0 3).toNat ≤ 5)
    (hz : zero w 23 3 = true) :
    decodeAlu w = .ok (.scmp (w.extractLsb' 20 3) (w.extractLsb' 14 6) (w.extractLsb' 8 6) (w.extractLsb' 0 3)) := by
  rw [← f8_div] at h
  rw [← f8_mod] at hc
  unfold decodeAlu
  split
  case h_18 => rw [if_neg (by omega), if_pos (by omega), hz]; rfl
  all_goals omega

/-- An SBR with neg 0 and bidx 0 is spelt SJ (R246). -/
theorem zero_sbr {w : Word} :
    zero w 22 4 = true ↔ w.extractLsb' 25 1 = 0 ∧ w.extractLsb' 22 3 = 0 :=
  beq_iff_eq.trans (standsAt_append (w := w) (lo := 22) (x := 0#1) (y := 0#3))

/-- A scalar instruction is read back from the word in which its fields stand. -/
theorem decodeScalarRaw_of_standsAt {w : Word} {i : Instr} (hs : i.stream = 0) (hwf : i.wf = true)
    (hw : StandsAt w 0 (encodeScalar i)) : decodeScalarRaw w = .ok i := by
  cases i <;> cases hs
  all_goals
    unfold encodeScalar at hw
    simp only [↓standsAt_append, ↓standsAt_ofNat, StandsAt, Nat.reduceAdd, Nat.reduceMod, Nat.reducePow, and_assoc] at hw
    obtain ⟨hop, hfields⟩ := hw
    unfold decodeScalarRaw
    rw [hop]
  case ssel =>
    obtain ⟨rfl, rfl, rfl, h4, rfl⟩ := hfields
    exact decodeAlu_ssel h4
  case scmp =>
    obtain ⟨hz, rfl, rfl, rfl, h8, rfl⟩ := hfields
    exact decodeAlu_scmp h8 (of_decide_eq_true hwf) (zero_iff.mpr hz)
  case sbr =>
    obtain ⟨rfl, rfl, rfl⟩ := hfields
    exact if_neg fun hz => by simp [Instr.wf, zero_sbr.mp hz] at hwf
  all_goals simp only [decodeAlu, decodeCop, sel, zero_iff, Bool.and_eq_true, hfields, and_self, if_true]

/-! ## The two decoders -/

theorem Decoded.checked_eq_ok {r : Decoded} {i : Instr} : r.checked = .ok i ↔ r = .ok i ∧ i.wf = true := by
  cases r with
  | ok j =>
    simp only [Decoded.checked]
    split
    · next hj => exact ⟨fun h => ⟨h, Decoded.ok.inj h ▸ hj⟩, And.left⟩
    · next hj => exact ⟨nofun, fun ⟨h, hi⟩ => absurd (Decoded.ok.inj h ▸ hi) hj⟩
  | illOpcode => exact ⟨nofun, nofun⟩
  | illOperand => exact ⟨nofun, nofun⟩

/-- The S-stream's words are those of its well-formed instructions. -/
theorem decodeScalar_eq_ok {w : Word} {i : Instr} :
    decodeScalar w = .ok i ↔ i.wf = true ∧ i.stream = 0 ∧ encodeScalar i = w := by
  rw [decodeScalar, Decoded.checked_eq_ok, ← standsAt_whole]
  exact ⟨fun ⟨h, hwf⟩ => ⟨hwf, decodeScalarRaw_onlyTo w i h⟩, fun ⟨hwf, hs, hw⟩ => ⟨decodeScalarRaw_of_standsAt hs hwf hw, hwf⟩⟩

/-- The L-stream's words are those of its well-formed instructions. -/
theorem decodeLane_eq_ok {w : BitVec 96} {i : Instr} :
    decodeLane w = .ok i ↔ i.wf = true ∧ i.stream = 1 ∧ encodeLane i = w := by
  rw [decodeLane, Decoded.checked_eq_ok, ← standsAt_whole]
  exact ⟨fun ⟨h, hwf⟩ => ⟨hwf, decodeLaneRaw_onlyTo w i h⟩, fun ⟨hwf, hs, hw⟩ => ⟨decodeLaneRaw_of_standsAt hs hwf hw, hwf⟩⟩

end Sys2Proof
end

section
/-! SUPPORT. The words of an instruction in memory order (R6, R202), and that decoding and encoding agree. -/

namespace Sys2Proof.Machine

theorem encode_scalar {i : Instr} (h : i.stream = 0) : encode i = [encodeScalar i] := by simp only [encode, h]

theorem encode_lane {i : Instr} (h : i.stream = 1) :
    encode i = [(encodeLane i).extractLsb' 0 32, (encodeLane i).extractLsb' 32 32, (encodeLane i).extractLsb' 64 32] := by
  simp only [encode, h]

/-- The three words of a lane instruction, the least significant first. -/
theorem append_words_eq_iff {v : BitVec 96} {w0 w1 w2 : Word} :
    w2 ++ w1 ++ w0 = v ↔ v.extractLsb' 64 32 = w2 ∧ v.extractLsb' 32 32 = w1 ∧ v.extractLsb' 0 32 = w0 := by
  rw [← standsAt_whole]
  simp only [↓standsAt_append, StandsAt, Nat.reduceAdd, and_assoc]

theorem stream_eq_zero_or_one {i : Instr} (h : i.stream ≠ 2) : i.stream = 0 ∨ i.stream = 1 := by
  revert h
  unfold Instr.stream
  split <;> simp

theorem decodeWords_of_scalar {w : Word} {i : Instr} (h : decodeScalar w = .ok i) : decodeWords [w] = some i := by
  simp [decodeWords, decodeTableWord, h]

theorem decodeWords_of_lane {w0 w1 w2 : Word} {i : Instr} (h : decodeLane (w2 ++ w1 ++ w0) = .ok i) :
    decodeWords [w0, w1, w2] = some i := by
  simp only [decodeWords, decodeTableWord, BitVec.ofNat_toNat, BitVec.setWidth_eq, if_true, h]

theorem decodeWords_encode {i : Instr} (hwf : i.wf = true) (hs : i.stream ≠ 2) : decodeWords (encode i) = some i := by
  rcases stream_eq_zero_or_one hs with h | h
  · rw [encode_scalar h]
    exact decodeWords_of_scalar (decodeScalar_eq_ok.mpr ⟨hwf, h, rfl⟩)
  · rw [encode_lane h]
    exact decodeWords_of_lane (decodeLane_eq_ok.mpr ⟨hwf, h, (append_words_eq_iff.mpr ⟨rfl, rfl, rfl⟩).symm⟩)

theorem encode_of_decodeWords {ws : List Word} {i : Instr} (h : decodeWords ws = some i) :
    i.wf = true ∧ i.stream ≠ 2 ∧ encode i = ws := by
  match ws with
  | [w] =>
    obtain ⟨hwf, hs, rfl⟩ := decodeScalar_eq_ok.mp (decodeScalar_of_words h)
    exact ⟨hwf, by simp [hs], encode_scalar hs⟩
  | [w0, w1, w2] =>
    obtain ⟨hwf, hs, hw⟩ := decodeLane_eq_ok.mp (decodeLane_of_word h)
    obtain ⟨rfl, rfl, rfl⟩ := append_words_eq_iff.mp hw.symm
    exact ⟨hwf, by simp [hs], encode_lane hs⟩
  | [] | [_, _] | _ :: _ :: _ :: _ :: _ => cases h

/-- Settles O56: each decoder's words are exactly those of its stream's well-formed instructions. -/
theorem decodeEncode : Obligations.DecodeEncode := ⟨fun _ => decodeWords_encode, fun _ _ => encode_of_decodeWords⟩

end Sys2Proof.Machine
end

section
/-! SUPPORT. The instructions that the AZK-12 does not provide, and words that name no instruction (R215, R216, R280). -/

namespace Sys2Proof.Machine

theorem State.opc_eq (s : State) : s.opc = BitVec.ofNat 64 (s.inst.toNat / 2 ^ 86) := opc_of_word s.inst

theorem State.opc6_eq (s : State) : s.opc6 = BitVec.ofNat 64 (s.inst.toNat / 2 ^ 26 % 64) := by
  apply BitVec.eq_of_toNat_eq
  simp only [State.opc6, BitVec.toNat_setWidth, BitVec.extractLsb'_toNat, BitVec.toNat_ofNat, Nat.shiftRight_eq_div_pow]

/-- An instruction that answers with this lane trap in its own state takes it. -/
theorem TrapsL.of_exec_self {i : Instr} {s : State} {c : Cause} {tval : BitVec 64} {tmask : Word} (hc : c ≠ .dataPoison)
    (he : exec i s = s.trapL c tval tmask) : TrapsL i s c tval tmask := .of_exec hc he rfl rfl rfl rfl rfl rfl

/-- Settles O25: each of these instructions is its trap, whose value is the opcode of the word. -/
theorem notProvided : Obligations.NotProvided := by
  intro s h d a b c m
  have hopc := s.opc_eq
  refine ⟨fun i hi => ?_, ?_, fun _ => ?_⟩
  · have he : exec i s = s.unimplOpt h := by
      simp only [List.mem_cons, List.not_mem_nil, or_false] at hi
      rcases hi with rfl | rfl | rfl | rfl <;> rfl
    exact hopc ▸ TrapsL.of_exec_self (by decide) he
  · exact hopc ▸ TrapsL.of_exec_self (i := .unallocatedEncoding true) (by decide) rfl
  · exact s.opc6_eq ▸ TrapsS.of_exec (i := .unallocatedEncoding false) fun _ => rfl

end Sys2Proof.Machine
end
